-- ==== Sys2Proof/Word.lean ====
section
/-! DEFINITION. The two bit vectors of the part: a set of bells (24 bits, R145) and one event group of a PAGE
line (nine hexadecimal digits, R145). Everything else the manual counts or names, and is `Nat`, `Int` or an
inductive type. -/

namespace Sys2Proof

/-- A set of bells: bit (b − 1) is set when bell b is in the set (R145). -/
abbrev BellSet := BitVec 24

/-- One event as PAGE carries it: nine hexadecimal digits, the first digit most significant (R145). -/
abbrev EventWord := BitVec 36

/-- One received character (R189). -/
abbrev CharCode := BitVec 8

/-- One code of the converter, 0..255 (R182). -/
abbrev ConvCode := BitVec 8

end Sys2Proof
end

