-- ==== Sys2Proof/Syntax.lean ====
section
/-! DEFINITION. The commands of the JT-640, one constructor of `Instr` per row of spec/opcode_table.json, and the
types of their operands. A request carries the fields of its line as its rule lists them, before any range check or
clamp; an event from outside carries `wait`, the oscillator ticks that pass before it (log 3). -/

namespace Sys2Proof

/-- A calendar date as a request writes it (00_scope, Time of day). -/
structure DateF where
  year : Nat
  month : Nat
  day : Nat
  deriving DecidableEq, Repr, Inhabited

/-- A time of day as a request writes it; `ms` is 0 where the line gives none (R17). -/
structure TimeF where
  hour : Nat
  minute : Nat
  second : Nat
  ms : Nat
  deriving DecidableEq, Repr, Inhabited

/-- The zone field of MARK and TIME SET: S or N (R14). -/
inductive Zone where
  | summer | standard
  deriving DecidableEq, Repr

/-- Weekdays, MON first (R22). -/
inductive Weekday where
  | mon | tue | wed | thu | fri | sat | sun
  deriving DecidableEq, Repr, Inhabited

/-- The ordinal of a change specification: a number, or LAST (R26). -/
inductive Ordinal where
  | nth (n : Nat) | last
  deriving DecidableEq, Repr, Inhabited

/-- One change specification of the summer-time rule: month, ordinal, weekday, hour in standard time (R26). -/
structure ChangeSpec where
  month : Nat
  ordinal : Ordinal
  weekday : Weekday
  hour : Nat
  deriving DecidableEq, Repr, Inhabited

/-- The summer-time rule, nine fields (R26). -/
structure SummerRule where
  offset : Nat
  start : ChangeSpec
  stop : ChangeSpec
  deriving DecidableEq, Repr, Inhabited

/-- One anchor of the sun table: sunrise and sunset in minutes of local standard time (R30). -/
structure SunAnchor where
  rise : Nat
  set : Nat
  deriving DecidableEq, Repr, Inhabited

/-- A dial configuration, in the order DIAL CONFIG takes it (R35). -/
structure DialCfg where
  step : Nat
  polarised : Bool
  width : Nat
  interval : Nat
  hold : Nat
  noon : Bool
  tolerance : Nat
  deriving DecidableEq, Repr, Inhabited

/-- The polarity of a dial's next impulse (R37). -/
inductive Polarity where
  | positive | negative
  deriving DecidableEq, Repr, Inhabited

/-- Stroke strength (R85). -/
inductive Intensity where
  | soft | normal | strong
  deriving DecidableEq, Repr, Inhabited

/-- A bell's configuration part, in the order BELL CONFIG takes it (R53). -/
structure BellCfg where
  name : String
  hammer : Bool
  fSoft : Nat
  fNormal : Nat
  fStrong : Nat
  wSoft : Nat
  wNormal : Nat
  wStrong : Nat
  recovery : Nat
  crowd : Nat
  confirm : Bool
  half : Nat
  missLimit : Nat
  drive : Nat
  deriving DecidableEq, Repr, Inhabited

/-- The quarters mode (R103). -/
inductive QuartersMode where
  | all | hoursOnly | off
  deriving DecidableEq, Repr, Inhabited

/-- Alignment of the chime (R103). -/
inductive Align where
  | start | stop
  deriving DecidableEq, Repr, Inhabited

/-- Scope of the night silence (R103). -/
inductive NightScope where
  | quarters | all
  deriving DecidableEq, Repr, Inhabited

/-- The clock settings, in the order CLOCK CONFIG takes them (R103). Gap and spacing are in tenths of a second;
the night times are written as hour and minute. -/
structure ClockCfg where
  q1 : Nat
  q2 : Nat
  q3 : Nat
  q4 : Nat
  mode : QuartersMode
  align : Align
  gap : Nat
  spacing : Nat
  hourBell : Nat
  standIn : Nat
  master : Nat
  carry : Bool
  nightStartH : Nat
  nightStartM : Nat
  nightEndH : Nat
  nightEndM : Nat
  scope : NightScope
  scene : Option Nat
  deriving DecidableEq, Repr, Inhabited

/-- The priority levels of the four settable kinds, in the order CLOCK LEVELS takes them (R104). -/
structure Levels where
  swing : Nat
  toll : Nat
  clock : Nat
  tune : Nat
  deriving DecidableEq, Repr, Inhabited

/-- The panel toll settings, in the order PANEL TOLL takes them (R121). -/
structure PanelTollCfg where
  bell : Nat
  interval : Nat
  intensity : Intensity
  wait : Nat
  scene : Option Nat
  deriving DecidableEq, Repr, Inhabited

/-- A swing drive's configuration, in the order SWING CONFIG takes it (R123). -/
structure SwingCfg where
  bell : Nat
  raise : Nat
  settle : Nat
  half : Nat
  brake : Bool
  deriving DecidableEq, Repr, Inhabited

/-- Scope of a SILENCE action (R155). -/
inductive SilenceScope where
  | strike | tunes | all
  deriving DecidableEq, Repr, Inhabited

/-- The time form of a schedule entry (R155); an absent hour is ANY. -/
inductive EntryTime where
  | fixed (hour : Option Nat) (minute : Nat)
  | sunrise (offset : Int)
  | sunset (offset : Int) (early : Bool)
  deriving DecidableEq, Repr, Inhabited

/-- The action of a schedule entry (R155). -/
inductive EntryAction where
  | play (slot scale : Nat) (scene : Option Nat)
  | toll (bell interval count : Nat) (intensity : Intensity)
  | ring (drives : List Nat) (stagger duration : Nat)
  | scene (scene : Nat)
  | silence (scope : SilenceScope) (duration : Nat)
  deriving DecidableEq, Repr, Inhabited

/-- The fields of a schedule entry, in the order ENTRY WRITE takes them (R155, R156); absent is ANY, and an absent
feast is NONE. -/
structure EntryFields where
  year : Option Nat
  month : Option Nat
  day : Option Nat
  weekdays : List Weekday
  feast : Option Int
  time : EntryTime
  action : EntryAction
  deriving DecidableEq, Repr, Inhabited

/-- A lighting channel's configuration, in the order LIGHT CONFIG takes it (R172). -/
structure LightCfg where
  name : String
  nominal : Nat
  lampout : Nat
  overPct : Nat
  floor : Nat
  deriving DecidableEq, Repr, Inhabited

/-- The lighting site settings, in the order LIGHT SITE takes them (R174). -/
structure SiteCfg where
  fallback : Nat
  panelLevel : Nat
  panelFade : Nat
  threshold : Nat
  hysteresis : Nat
  deriving DecidableEq, Repr, Inhabited

/-- The mode of an override (R178). -/
inductive OverrideMode where
  | hold | next
  deriving DecidableEq, Repr, Inhabited

/-- The ten notice classes, in the order in which they are sent (R192, R193). -/
inductive NoticeClass where
  | ref | time | dial | bell | swing | perf | store | entry | lamp | dusk
  deriving DecidableEq, Repr, Inhabited

/-- The four panel keys (R196). -/
inductive Key where
  | toll | silence | lights | stop
  deriving DecidableEq, Repr, Inhabited

/-- A line as received, up to its line feed (R189): the characters before the terminator, whether a carriage return
directly precedes the line feed, and whether a character lacked its stop bit. -/
structure RawLine where
  text : List CharCode
  cr : Bool
  badStop : Bool
  deriving DecidableEq, Repr, Inhabited

/-- The commands, one constructor per row of spec/opcode_table.json. -/
inductive Instr where
  -- requests: time and reference
  | timeSet (date : DateF) (time : TimeF) (zone : Option Zone)
  | mark (date : DateF) (time : TimeF) (zone : Option Zone)
  | refOn
  | refOff
  | timeRead
  | refRead
  -- requests: calendar
  | summer (rule : SummerRule)
  | sun (k rise set : Nat)
  | calendarRead
  | yearRead (y : Nat)
  | summerRead
  | sunRead (k : Nat)
  -- requests: dials
  | dialConfig (n : Nat) (cfg : DialCfg)
  | dialSet (n : Nat) (pos : Option Nat) (pol : Option Polarity)
  | dialStop (n : Nat)
  | dialGo (n : Nat)
  | dialRead (n : Nat)
  -- requests: bells
  | bellConfig (b : Nat) (cfg : BellCfg)
  | bellSilent (b : Nat) (on : Bool)
  | bellClear (b : Nat)
  | bellTest (b : Nat) (intensity : Intensity)
  | bellRead (b : Nat)
  | claimRead (b : Nat)
  -- requests: performances
  | stopFinish (id : Nat)
  | stopCut (id : Nat)
  | play (slot : Nat) (scale wait scene : Option Nat)
  | toll (bell interval count : Nat) (intensity : Intensity) (wait scene : Option Nat)
  | perfRead (id : Option Nat)
  -- requests: clock
  | clockConfig (cfg : ClockCfg)
  | clockLevels (levels : Levels)
  | sheetRead (today : Bool) (first : Option Nat)
  | clockRead
  -- requests: tolling and swinging
  | panelToll (cfg : PanelTollCfg)
  | panelTollRead
  | swingConfig (n : Nat) (cfg : SwingCfg)
  | swingClear (n : Nat)
  | ring (drives : List Nat) (stagger duration wait : Option Nat)
  | swingRead (n : Nat)
  -- requests: tune store
  | slotOpen (n tempo division : Nat) (scene : Option Nat) (title : String)
  | page (n k part : Nat) (events : List EventWord)
  | slotClose (n count : Nat)
  | slotErase (n : Nat)
  | slotRead (n : Nat)
  | storeRead
  -- requests: schedule
  | entryWrite (n : Nat) (fields : EntryFields)
  | entrySuspend (n : Nat)
  | entryResume (n : Nat)
  | entryClear (n : Nat)
  | entryRead (n : Nat)
  | scheduleRead
  -- requests: lights
  | lightConfig (n : Nat) (cfg : LightCfg)
  | sceneWrite (k fade : Nat) (pairs : List (Nat × Nat))
  | sceneRead (k : Nat)
  | lightSite (cfg : SiteCfg)
  | light (ch : Option Nat) (level : Nat) (fade : Option Nat) (mode : OverrideMode)
  | lightRelease (ch : Option Nat) (fade : Option Nat)
  | lightClear (n : Nat) (fade : Option Nat)
  | lightRead (n : Nat)
  | duskRead
  -- requests: line and modes
  | maskSet (cls : Option NoticeClass) (on : Bool)
  | lineRate (rate : Nat)
  | statusRead
  | modeService
  | modeRun
  | save
  | restart
  -- the line
  | lineReceived (wait : Nat) (line : RawLine)
  | lineSent (wait : Nat)
  -- time and reference
  | secondEnd
  | trimUpdate
  | refPulse (wait : Nat)
  | expectedSecondMissing
  | markExpired
  | backupSecond
  -- dials
  | dialImpulseStart (n : Nat)
  | dialImpulseEnd (n : Nat)
  | noonClosure (wait n : Nat)
  -- bells and performances
  | strokeRelease (voice : Nat)
  | heldStrokeRelease (b : Nat)
  | hammerPulseEnd (b : Nat)
  | confirmClosure (wait b : Nat)
  | confirmWindowClose (b : Nat)
  | eventTakeUp (voice : Nat)
  | tollStrokeRelease (id : Nat)
  | testStrokeRelease (id : Nat)
  | driveStart (id : Nat)
  | performanceEnd (id : Nat)
  | cutRecordLeaves (id : Nat)
  | waitExpiry (id : Nat)
  | quarterEvaluation
  -- swing drives
  | bottomPulse (wait n : Nat)
  | amplitudePulse (wait n : Nat)
  | kickEnd (n : Nat)
  | brakeKickEnd (n : Nat)
  | settleExpiry (n : Nat)
  | noStart (n : Nat)
  | raiseLimit (n : Nat)
  | noBottom (n : Nat)
  | loweringInstant (n : Nat)
  -- tune store
  | pageReadEnd
  | pageProgramEnd
  | sectorEraseEnd
  | directoryWriteEnd
  -- lights
  | fadeStep (ch : Nat)
  | lampSlot
  | lampMeasurementEnd (code : ConvCode)
  | duskSample
  | duskMeasurementEnd (code : ConvCode)
  -- panel and power
  | tollKey (wait : Nat)
  | silenceKey (wait : Nat)
  | lightsKey (wait : Nat)
  | stopKey (wait : Nat)
  | powerLoss (wait : Nat)
  | powerUp (valid : Bool)
  | startValues
  | restartEvent
  | noonContactOpen (wait n : Nat)
  | keyInputOpen (wait : Nat) (key : Key)
  | pwmPeriod (ch : Nat)
  deriving DecidableEq, Repr

end Sys2Proof
end

