-- ==== Sys2Proof/WellFormed.lean ====
section
/-! DEFINITION. Which commands are well formed: a request whose line could be parsed (what breaks this is refused
SYNTAX, R191), and an event that names a unit the part has. Range checks and clamps are the requests' own effects and
are not here. -/

namespace Sys2Proof

/-- A name of 1..`max` printable characters with no space (R53, R139, R172). -/
def nameOk (max : Nat) (s : String) : Bool :=
  let cs := s.toList
  decide (1 ≤ cs.length) && decide (cs.length ≤ max) && cs.all (fun c => decide (33 ≤ c.toNat) && decide (c.toNat ≤ 126))

/-- A list names nothing twice. -/
def nodup {α : Type} [DecidableEq α] : List α → Bool
  | [] => true
  | a :: l => !l.contains a && nodup l

/-- The flags digit of an event group: intensity 0..2 and bit 3 clear (R145). -/
def flagsOk (w : EventWord) : Bool :=
  decide ((w.extractLsb' 0 2) ≠ 3#2) && !w.getLsbD 3

/-- A drive list names 1..4 drives, none twice (R134, R155). A longer one is malformed (log 61). -/
def driveListOk (ds : List Nat) : Bool :=
  decide (1 ≤ ds.length) && decide (ds.length ≤ 4) && nodup ds

/-- The fields of an entry that parsing checks: a non-empty weekday list without repeats, a drive list (R156). -/
def EntryFields.wellFormed (f : EntryFields) : Bool :=
  decide (f.weekdays ≠ []) && nodup f.weekdays &&
    match f.action with
    | .ring ds _ _ => driveListOk ds
    | _ => true

/-- Units are numbered 1..`n` (00_scope, Numbering). -/
def unitOk (n k : Nat) : Bool := decide (1 ≤ k) && decide (k ≤ n)

/-- Whether a command is well formed. A scene is a list of 1 to 16 pairs, so that a longer one is malformed (R173, log 69), as
a drive list of more than 4 drives is (log 61). -/
def Instr.wellFormed : Instr → Bool
  | .mark _ t _ => decide (t.ms = 0)
  | .timeSet _ t _ => decide (t.ms ≤ 999)
  | .bellConfig _ c => nameOk 12 c.name
  | .lightConfig _ c => nameOk 12 c.name
  | .slotOpen _ _ _ _ t => nameOk 24 t
  | .page _ _ _ es => decide (1 ≤ es.length) && decide (es.length ≤ 8) && es.all flagsOk
  | .ring ds _ _ _ => driveListOk ds
  | .entryWrite _ f => f.wellFormed
  | .sceneWrite _ _ ps => decide (1 ≤ ps.length) && decide (ps.length ≤ 16) && nodup (ps.map Prod.fst)
  | .lineReceived _ l => !l.text.contains 10#8
  | .dialImpulseStart n => unitOk 4 n
  | .dialImpulseEnd n => unitOk 4 n
  | .noonClosure _ n => unitOk 4 n
  | .noonContactOpen _ n => unitOk 4 n
  | .strokeRelease v => unitOk 4 v
  | .eventTakeUp v => unitOk 4 v
  | .heldStrokeRelease b => unitOk 24 b
  | .hammerPulseEnd b => unitOk 24 b
  | .confirmClosure _ b => unitOk 24 b
  | .confirmWindowClose b => unitOk 24 b
  | .tollStrokeRelease id => unitOk 255 id
  | .testStrokeRelease id => unitOk 255 id
  | .driveStart id => unitOk 255 id
  | .performanceEnd id => unitOk 255 id
  | .cutRecordLeaves id => unitOk 255 id
  | .waitExpiry id => unitOk 255 id
  | .bottomPulse _ n => unitOk 4 n
  | .amplitudePulse _ n => unitOk 4 n
  | .kickEnd n => unitOk 4 n
  | .brakeKickEnd n => unitOk 4 n
  | .settleExpiry n => unitOk 4 n
  | .noStart n => unitOk 4 n
  | .raiseLimit n => unitOk 4 n
  | .noBottom n => unitOk 4 n
  | .loweringInstant n => unitOk 4 n
  | .fadeStep ch => unitOk 16 ch
  | .pwmPeriod ch => unitOk 16 ch
  | .timeRead | .refOn | .refOff | .refRead | .summer _ | .sun _ _ _ | .calendarRead | .yearRead _ | .summerRead
  | .sunRead _ | .dialConfig _ _ | .dialSet _ _ _ | .dialStop _ | .dialGo _ | .dialRead _ | .bellSilent _ _
  | .bellClear _ | .bellTest _ _ | .bellRead _ | .claimRead _ | .stopFinish _ | .stopCut _ | .play _ _ _ _
  | .toll _ _ _ _ _ _ | .perfRead _ | .clockConfig _ | .clockLevels _ | .sheetRead _ _ | .clockRead | .panelToll _
  | .panelTollRead | .swingConfig _ _ | .swingClear _ | .swingRead _ | .slotClose _ _ | .slotErase _ | .slotRead _
  | .storeRead | .entrySuspend _ | .entryResume _ | .entryClear _ | .entryRead _ | .scheduleRead | .sceneRead _
  | .lightSite _ | .light _ _ _ _ | .lightRelease _ _ | .lightClear _ _ | .lightRead _ | .duskRead | .maskSet _ _
  | .lineRate _ | .statusRead | .modeService | .modeRun | .save | .restart => true
  | .lineSent _ | .secondEnd | .trimUpdate | .refPulse _ | .expectedSecondMissing | .markExpired | .backupSecond
  | .quarterEvaluation | .pageReadEnd | .pageProgramEnd | .sectorEraseEnd | .directoryWriteEnd | .lampSlot
  | .lampMeasurementEnd _ | .duskSample | .duskMeasurementEnd _ | .tollKey _ | .silenceKey _ | .lightsKey _
  | .stopKey _ | .powerLoss _ | .powerUp _ | .startValues | .restartEvent | .keyInputOpen _ _ => true

end Sys2Proof
end

