-- ==== Sys2Proof/Decode.lean ====
section
/-! DEFINITION. Reading a request line (R189, R191): its text is cut into fields at spaces, the keyword fields choose the
request, and the others are its operands. What cannot be read is answered SYNTAX. The written forms that the manual
leaves open are in log 20. The opcode table gives no row any bits, so no word spells a command. -/

namespace Sys2Proof

/-- No row of the opcode table has bits: a word spells no command. -/
def decodeTableWord (nbits w : Nat) : Option Instr :=
  let _ := nbits
  let _ := w
  none

/-! ### Fields -/

/-- A field of a line: its characters. -/
abbrev Tok := List Char

/-- Cut at a separator; the pieces may be empty. -/
def cutAt (sep : Char) : List Char → List Tok
  | [] => [[]]
  | c :: l =>
    if c = sep then [] :: cutAt sep l
    else
      match cutAt sep l with
      | [] => [[c]]
      | t :: ts => (c :: t) :: ts

/-- The fields of a text: separated by one or more spaces, leading and trailing spaces ignored (R189). -/
def fieldsOf (text : List Char) : List Tok := (cutAt ' ' text).filter fun t => !t.isEmpty

/-- A field's word. -/
def isWord (t : Tok) (w : String) : Bool := t = w.toList

/-- The value of the first word, among those listed, that a field is. -/
def oneOf {α : Type} (l : List (String × α)) (t : Tok) : Option α := (l.find? fun p => isWord t p.1).map (·.2)

/-- The value of a decimal digit. -/
def digit (c : Char) : Option Nat := if 48 ≤ c.toNat ∧ c.toNat ≤ 57 then some (c.toNat - 48) else none

/-- The number the digits spell after those that gave `n`. -/
def digitsFrom (n : Nat) : List Char → Option Nat
  | [] => some n
  | c :: l => (digit c).bind fun d => digitsFrom (10 * n + d) l

/-- An unsigned number: one or more decimal digits. -/
def number (t : Tok) : Option Nat := if t.isEmpty then none else digitsFrom 0 t

/-- A signed number, as +49, -2 or 0 (R156). -/
def signed : Tok → Option Int
  | '+' :: t => (number t).map fun n => (n : Int)
  | '-' :: t => (number t).map fun n => -(n : Int)
  | t => (number t).map fun n => (n : Int)

/-- A number or a word that stands for none. -/
def numberOr (w : String) (t : Tok) : Option (Option Nat) := if isWord t w then some none else (number t).map some

/-- YES or NO. -/
def yes (t : Tok) : Option Bool := oneOf [("YES", true), ("NO", false)] t

/-- ON or OFF. -/
def onWord (t : Tok) : Option Bool := oneOf [("ON", true), ("OFF", false)] t

/-- A name, whose length the request checks (R53, R139, R172). -/
def nameOf (t : Tok) : String := String.ofList t

/-- An intensity (R85). -/
def intensity (t : Tok) : Option Intensity := oneOf [("SOFT", .soft), ("NORMAL", .normal), ("STRONG", .strong)] t

/-- A polarity (R37). -/
def polarity (t : Tok) : Option Polarity := oneOf [("POSITIVE", .positive), ("NEGATIVE", .negative)] t

/-- A weekday (R22). -/
def weekday (t : Tok) : Option Weekday :=
  oneOf [("MON", .mon), ("TUE", .tue), ("WED", .wed), ("THU", .thu), ("FRI", .fri), ("SAT", .sat), ("SUN", .sun)] t

/-- An ordinal: LAST or a number (R26). -/
def ordinal (t : Tok) : Option Ordinal := if isWord t "LAST" then some .last else (number t).map .nth

/-- The four fields of a change specification (R26). -/
def changeSpec (m o w h : Tok) : Option ChangeSpec := do
  return { month := ← number m, ordinal := ← ordinal o, weekday := ← weekday w, hour := ← number h }

/-- A date, as 2025-04-20 (00_scope). -/
def date (t : Tok) : Option DateF :=
  match cutAt '-' t with
  | [y, m, d] => do return { year := ← number y, month := ← number m, day := ← number d }
  | _ => none

/-- A time of day without or with milliseconds, as 10:00:00 or 10:00:00.250 (00_scope, R17). -/
def time (t : Tok) : Option TimeF :=
  match cutAt ':' t with
  | [h, m, x] =>
    match cutAt '.' x with
    | [s] => do return { hour := ← number h, minute := ← number m, second := ← number s, ms := 0 }
    | [s, k] =>
      if k.length = 3 then do
        return { hour := ← number h, minute := ← number m, second := ← number s, ms := ← number k }
      else none
    | _ => none
  | _ => none

/-- A time of day in whole seconds (R15). -/
def wholeTime (t : Tok) : Option TimeF := if t.contains '.' then none else time t

/-- The zone field (R14). -/
def zone (t : Tok) : Option Zone := oneOf [("S", .summer), ("N", .standard)] t

/-- A local hh:mm (R103). -/
def hourMinute (t : Tok) : Option (Nat × Nat) :=
  match cutAt ':' t with
  | [h, m] => do return (← number h, ← number m)
  | _ => none

/-- All of a list of optional values. -/
def allSome {α : Type} : List (Option α) → Option (List α)
  | [] => some []
  | some a :: l => (allSome l).map (a :: ·)
  | none :: _ => none

/-- A comma list (R134, R156). -/
def commaList {α : Type} (f : Tok → Option α) (t : Tok) : Option (List α) := allSome ((cutAt ',' t).map f)

/-- The value of a hexadecimal digit, 0..9 or A..F (R145). -/
def hexDigit (c : Char) : Option Nat :=
  if 48 ≤ c.toNat ∧ c.toNat ≤ 57 then some (c.toNat - 48)
  else if 65 ≤ c.toNat ∧ c.toNat ≤ 70 then some (c.toNat - 55)
  else none

/-- An event group: nine hexadecimal digits (R145). -/
def eventGroup (t : Tok) : Option EventWord :=
  if t.length = 9 then
    (allSome (t.map hexDigit)).map fun ds => BitVec.ofNat 36 (ds.foldl (fun n d => 16 * n + d) 0)
  else none

/-- A pair of a channel and a level (R173). -/
def levelPair (t : Tok) : Option (Nat × Nat) :=
  match cutAt ':' t with
  | [c, l] => do return (← number c, ← number l)
  | _ => none

/-- Optional fields at the end of a line, which may be left out from the last one on: none given, or a number. -/
def optField (l : List Tok) (i : Nat) : Option (Option Nat) :=
  match l[i]? with
  | none => some none
  | some t => (number t).map some

/-! ### Requests by keyword -/

/-- The fields after the date and time of TIME SET and MARK. -/
def zoneOf : List Tok → Option (Option Zone)
  | [] => some none
  | [z] => (zone z).map some
  | _ => none

/-- TIME SET date time[.mmm] [zone] (R17). -/
def parseTimeSet : List Tok → Option Instr
  | d :: t :: z => do return .timeSet (← date d) (← time t) (← zoneOf z)
  | _ => none

/-- MARK date time [zone] (R15). -/
def parseMark : List Tok → Option Instr
  | d :: t :: z => do return .mark (← date d) (← wholeTime t) (← zoneOf z)
  | _ => none

/-- REF ON or OFF (R11). -/
def parseRef : List Tok → Option Instr
  | [t] => (onWord t).map fun b => if b then .refOn else .refOff
  | _ => none

/-- SUMMER and its nine fields (R26). -/
def parseSummer : List Tok → Option Instr
  | [o, a, b, c, d, e, f, g, h] => do
    return .summer { offset := ← number o, start := ← changeSpec a b c d, stop := ← changeSpec e f g h }
  | _ => none

/-- SUN k sunrise sunset (R30). -/
def parseSun : List Tok → Option Instr
  | [k, r, s] => do return .sun (← number k) (← number r) (← number s)
  | _ => none

/-- A request with no field. -/
def parseBare (i : Instr) : List Tok → Option Instr
  | [] => some i
  | _ => none

/-- A request whose one field is a number. -/
def parseOne (f : Nat → Instr) : List Tok → Option Instr
  | [n] => (number n).map f
  | _ => none

/-- DIAL CONFIG (R35). -/
def parseDialConfig : List Tok → Option Instr
  | [n, s, p, w, i, h, c, t] => do
    return .dialConfig (← number n)
      { step := ← number s, polarised := ← yes p, width := ← number w, interval := ← number i, hold := ← number h
        noon := ← yes c, tolerance := ← number t }
  | _ => none

/-- DIAL SET n p [polarity] (R46). -/
def parseDialSet : List Tok → Option Instr
  | [n, p] => do return .dialSet (← number n) (← numberOr "UNKNOWN" p) none
  | [n, p, q] => do return .dialSet (← number n) (← numberOr "UNKNOWN" p) (some (← polarity q))
  | _ => none

/-- BELL CONFIG (R53). -/
def parseBellConfig : List Tok → Option Instr
  | [b, n, h, f1, f2, f3, w1, w2, w3, r, c, k, v, m, d] => do
    return .bellConfig (← number b)
      { name := nameOf n, hammer := ← yes h, fSoft := ← number f1, fNormal := ← number f2, fStrong := ← number f3
        wSoft := ← number w1, wNormal := ← number w2, wStrong := ← number w3, recovery := ← number r, crowd := ← number c
        confirm := ← yes k, half := ← number v, missLimit := ← number m, drive := ← number d }
  | _ => none

/-- BELL SILENT b ON or OFF (R65). -/
def parseBellSilent : List Tok → Option Instr
  | [b, o] => do return .bellSilent (← number b) (← onWord o)
  | _ => none

/-- BELL TEST b i (R67). -/
def parseBellTest : List Tok → Option Instr
  | [b, i] => do return .bellTest (← number b) (← intensity i)
  | _ => none

/-- STOP id FINISH or CUT (R95). -/
def parseStop : List Tok → Option Instr
  | [n, m] => do
    let k ← number n
    if ← oneOf [("FINISH", true), ("CUT", false)] m then return .stopFinish k else return .stopCut k
  | _ => none

/-- PLAY slot [scale] [wait] [scene] (R99). -/
def parsePlay : List Tok → Option Instr
  | n :: l => do
    if 3 < l.length then none
    else return .play (← number n) (← optField l 0) (← optField l 1) (← optField l 2)
  | _ => none

/-- TOLL bell interval count intensity [wait] [scene] (R100). -/
def parseToll : List Tok → Option Instr
  | b :: i :: c :: k :: l => do
    if 2 < l.length then none
    else return .toll (← number b) (← number i) (← number c) (← intensity k) (← optField l 0) (← optField l 1)
  | _ => none

/-- PERF READ [id] (R101). -/
def parsePerfRead : List Tok → Option Instr
  | [] => some (.perfRead none)
  | [n] => do return .perfRead (some (← number n))
  | _ => none

/-- CLOCK CONFIG (R103). -/
def parseClockConfig : List Tok → Option Instr
  | [q1, q2, q3, q4, m, a, g, s, hb, si, ma, c, ns, ne, sc, k] => do
    let b ← hourMinute ns
    let e ← hourMinute ne
    return .clockConfig
      { q1 := ← number q1, q2 := ← number q2, q3 := ← number q3, q4 := ← number q4
        mode := ← oneOf [("ALL", .all), ("HOURS_ONLY", .hoursOnly), ("OFF", .off)] m
        align := ← oneOf [("START", .start), ("END", .stop)] a
        gap := ← number g, spacing := ← number s, hourBell := ← number hb, standIn := ← number si, master := ← number ma
        carry := ← onWord c, nightStartH := b.1, nightStartM := b.2, nightEndH := e.1, nightEndM := e.2
        scope := ← oneOf [("QUARTERS", .quarters), ("ALL", .all)] sc, scene := ← numberOr "NONE" k }
  | _ => none

/-- CLOCK LEVELS swing toll clock tune (R104). -/
def parseClockLevels : List Tok → Option Instr
  | [s, t, c, n] => do
    return .clockLevels { swing := ← number s, toll := ← number t, clock := ← number c, tune := ← number n }
  | _ => none

/-- SHEET READ TODAY or YESTERDAY [first] (R119). -/
def parseSheetRead : List Tok → Option Instr
  | d :: l => do
    if 1 < l.length then none
    else return .sheetRead (← oneOf [("TODAY", true), ("YESTERDAY", false)] d) (← optField l 0)
  | _ => none

/-- PANEL TOLL bell interval intensity wait scene (R121). -/
def parsePanelToll : List Tok → Option Instr
  | [b, i, k, w, s] => do
    return .panelToll
      { bell := ← number b, interval := ← number i, intensity := ← intensity k, wait := ← number w
        scene := ← numberOr "NONE" s }
  | _ => none

/-- SWING CONFIG n bell raise settle half brake (R123). -/
def parseSwingConfig : List Tok → Option Instr
  | [n, b, r, s, h, k] => do
    return .swingConfig (← number n)
      { bell := ← number b, raise := ← number r, settle := ← number s, half := ← number h, brake := ← yes k }
  | _ => none

/-- RING drives [stagger] [duration] [wait] (R134). -/
def parseRing : List Tok → Option Instr
  | d :: l => do
    if 3 < l.length then none
    else return .ring (← commaList number d) (← optField l 0) (← optField l 1) (← optField l 2)
  | _ => none

/-- SLOT OPEN n tempo division scene title (R146). -/
def parseSlotOpen : List Tok → Option Instr
  | [n, t, d, s, k] => do return .slotOpen (← number n) (← number t) (← number d) (← numberOr "NONE" s) (nameOf k)
  | _ => none

/-- PAGE n k part e1 [e2 .. e8] (R147). -/
def parsePage : List Tok → Option Instr
  | n :: k :: p :: es => do return .page (← number n) (← number k) (← number p) (← allSome (es.map eventGroup))
  | _ => none

/-- SLOT CLOSE n count (R148). -/
def parseSlotClose : List Tok → Option Instr
  | [n, c] => do return .slotClose (← number n) (← number c)
  | _ => none

/-- A weekday list: ALL or a comma list (R156). -/
def weekdays (t : Tok) : Option (List Weekday) :=
  if isWord t "ALL" then some [.mon, .tue, .wed, .thu, .fri, .sat, .sun] else commaList weekday t

/-- The action of an entry and its fields (R156). -/
def entryAction : List Tok → Option EntryAction
  | k :: l =>
    if isWord k "PLAY" then
      match l with
      | [n, s, c] => do return .play (← number n) (← number s) (← numberOr "NONE" c)
      | _ => none
    else if isWord k "TOLL" then
      match l with
      | [b, i, c, x] => do return .toll (← number b) (← number i) (← number c) (← intensity x)
      | _ => none
    else if isWord k "RING" then
      match l with
      | [d, s, t] => do return .ring (← commaList number d) (← number s) (← number t)
      | _ => none
    else if isWord k "SCENE" then
      match l with
      | [n] => do return .scene (← number n)
      | _ => none
    else if isWord k "SILENCE" then
      match l with
      | [s, d] => do
        return .silence (← oneOf [("STRIKE", .strike), ("TUNES", .tunes), ("ALL", .all)] s) (← number d)
      | _ => none
    else none
  | [] => none

/-- The form and time of an entry, and the fields left for its action (R156). -/
def entryTime : List Tok → Option (EntryTime × List Tok)
  | k :: a :: b :: l =>
    if isWord k "FIXED" then do return (.fixed (← numberOr "ANY" a) (← number b), l)
    else if isWord k "SUNRISE" then do return (.sunrise (← signed a), b :: l)
    else if isWord k "SUNSET" then
      if isWord b "EARLY" then do return (.sunset (← signed a) true, l)
      else do return (.sunset (← signed a) false, b :: l)
    else none
  | _ => none

/-- ENTRY WRITE n year month day weekdays feast form time action fields (R156). -/
def parseEntryWrite : List Tok → Option Instr
  | n :: y :: m :: d :: w :: f :: l => do
    let t ← entryTime l
    return .entryWrite (← number n)
      { year := ← numberOr "ANY" y, month := ← numberOr "ANY" m, day := ← numberOr "ANY" d, weekdays := ← weekdays w
        feast := ← (if isWord f "NONE" then some none else (signed f).map some), time := t.1
        action := ← entryAction t.2 }
  | _ => none

/-- LIGHT CONFIG n name nominal lampout over floor (R172). -/
def parseLightConfig : List Tok → Option Instr
  | [n, k, a, l, o, f] => do
    return .lightConfig (← number n)
      { name := nameOf k, nominal := ← number a, lampout := ← number l, overPct := ← number o, floor := ← number f }
  | _ => none

/-- SCENE WRITE k fade ch:level [ch:level ..] (R173). -/
def parseSceneWrite : List Tok → Option Instr
  | k :: f :: l => do return .sceneWrite (← number k) (← number f) (← allSome (l.map levelPair))
  | _ => none

/-- LIGHT SITE fallback panel-level panel-fade threshold hysteresis (R174). -/
def parseLightSite : List Tok → Option Instr
  | [a, b, c, d, e] => do
    return .lightSite
      { fallback := ← number a, panelLevel := ← number b, panelFade := ← number c, threshold := ← number d
        hysteresis := ← number e }
  | _ => none

/-- HOLD or NEXT (R178). -/
def overrideMode (t : Tok) : Option OverrideMode := oneOf [("HOLD", .hold), ("NEXT", .next)] t

/-- LIGHT n level [fade] HOLD or NEXT (R178). -/
def parseLight : List Tok → Option Instr
  | [n, l, m] => do return .light (← numberOr "ALL" n) (← number l) none (← overrideMode m)
  | [n, l, f, m] => do return .light (← numberOr "ALL" n) (← number l) (some (← number f)) (← overrideMode m)
  | _ => none

/-- LIGHT RELEASE n [fade] (R178). -/
def parseLightRelease : List Tok → Option Instr
  | n :: l => do if 1 < l.length then none else return .lightRelease (← numberOr "ALL" n) (← optField l 0)
  | _ => none

/-- LIGHT CLEAR n [fade] (R184). -/
def parseLightClear : List Tok → Option Instr
  | n :: l => do if 1 < l.length then none else return .lightClear (← number n) (← optField l 0)
  | _ => none

/-- A notice class (R192). -/
def noticeClass (t : Tok) : Option NoticeClass :=
  oneOf
    [ ("REF", .ref), ("TIME", .time), ("DIAL", .dial), ("BELL", .bell), ("SWING", .swing), ("PERF", .perf)
    , ("STORE", .store), ("ENTRY", .entry), ("LAMP", .lamp), ("DUSK", .dusk) ] t

/-- MASK class ON or OFF, or ALL (R194). -/
def parseMask : List Tok → Option Instr
  | [c, o] => do
    return .maskSet (← if isWord c "ALL" then some none else (noticeClass c).map some) (← onWord o)
  | _ => none

/-- The requests of chapters 1 to 4: keywords and what reads the fields after them. -/
def requestsA : List (List String × (List Tok → Option Instr)) :=
  [ (["TIME", "SET"], parseTimeSet), (["TIME", "READ"], parseBare .timeRead), (["MARK"], parseMark)
  , (["REF", "READ"], parseBare .refRead), (["REF"], parseRef)
  , (["SUMMER", "READ"], parseBare .summerRead), (["SUMMER"], parseSummer)
  , (["SUN", "READ"], parseOne .sunRead), (["SUN"], parseSun)
  , (["CALENDAR", "READ"], parseBare .calendarRead), (["YEAR", "READ"], parseOne .yearRead)
  , (["DIAL", "CONFIG"], parseDialConfig), (["DIAL", "SET"], parseDialSet), (["DIAL", "STOP"], parseOne .dialStop)
  , (["DIAL", "GO"], parseOne .dialGo), (["DIAL", "READ"], parseOne .dialRead)
  , (["BELL", "CONFIG"], parseBellConfig), (["BELL", "SILENT"], parseBellSilent), (["BELL", "CLEAR"], parseOne .bellClear)
  , (["BELL", "TEST"], parseBellTest), (["BELL", "READ"], parseOne .bellRead), (["CLAIM", "READ"], parseOne .claimRead) ]

/-- The requests of chapters 5 to 8. -/
def requestsB : List (List String × (List Tok → Option Instr)) :=
  [ (["STOP"], parseStop), (["PLAY"], parsePlay), (["TOLL"], parseToll), (["PERF", "READ"], parsePerfRead)
  , (["CLOCK", "CONFIG"], parseClockConfig), (["CLOCK", "LEVELS"], parseClockLevels), (["SHEET", "READ"], parseSheetRead)
  , (["CLOCK", "READ"], parseBare .clockRead), (["PANEL", "TOLL", "READ"], parseBare .panelTollRead)
  , (["PANEL", "TOLL"], parsePanelToll), (["SWING", "CONFIG"], parseSwingConfig), (["SWING", "CLEAR"], parseOne .swingClear)
  , (["RING"], parseRing), (["SWING", "READ"], parseOne .swingRead)
  , (["SLOT", "OPEN"], parseSlotOpen), (["PAGE"], parsePage), (["SLOT", "CLOSE"], parseSlotClose)
  , (["SLOT", "ERASE"], parseOne .slotErase), (["SLOT", "READ"], parseOne .slotRead)
  , (["STORE", "READ"], parseBare .storeRead) ]

/-- The requests of chapters 9 to 11. -/
def requestsC : List (List String × (List Tok → Option Instr)) :=
  [ (["ENTRY", "WRITE"], parseEntryWrite), (["ENTRY", "SUSPEND"], parseOne .entrySuspend)
  , (["ENTRY", "RESUME"], parseOne .entryResume), (["ENTRY", "CLEAR"], parseOne .entryClear)
  , (["ENTRY", "READ"], parseOne .entryRead), (["SCHEDULE", "READ"], parseBare .scheduleRead)
  , (["LIGHT", "CONFIG"], parseLightConfig), (["SCENE", "WRITE"], parseSceneWrite), (["SCENE", "READ"], parseOne .sceneRead)
  , (["LIGHT", "SITE"], parseLightSite), (["LIGHT", "RELEASE"], parseLightRelease), (["LIGHT", "CLEAR"], parseLightClear)
  , (["LIGHT", "READ"], parseOne .lightRead), (["LIGHT"], parseLight), (["DUSK", "READ"], parseBare .duskRead)
  , (["MASK"], parseMask), (["LINE", "RATE"], parseOne .lineRate), (["STATUS", "READ"], parseBare .statusRead)
  , (["MODE", "SERVICE"], parseBare .modeService), (["MODE", "RUN"], parseBare .modeRun), (["SAVE"], parseBare .save)
  , (["RESTART"], parseBare .restart) ]

/-- The fields after the keywords, where a line begins with them. -/
def afterWords : List String → List Tok → Option (List Tok)
  | [], l => some l
  | w :: ws, t :: l => if isWord t w then afterWords ws l else none
  | _ :: _, [] => none

/-- The request a text spells; absent where it is answered SYNTAX (R189, R191). A request of one keyword stands after
those whose first keyword it is. -/
def parseRequest (text : List CharCode) : Option Instr :=
  let ts := fieldsOf (text.map fun c => Char.ofNat c.toNat)
  (requestsA ++ requestsB ++ requestsC).findSome? fun row => (afterWords row.1 ts).bind row.2

end Sys2Proof
end

