-- ==== Sys2Proof/Config.lean ====
section
/-! DEFINITION. What an implementation of the part fixes or what only the world outside knows: free values, with no
body, so that nothing can be proved of the value drawn (log 4, log 13). Each is applied to the count of values drawn
so far, which State holds. -/

namespace Sys2Proof.Config

/-- Which of several events that are due at one instant the block takes first: "either may be taken first" (R15, R16,
R62, R75, R95, R126, R128, R166, R180, R182, R193). -/
opaque tieChoice : Nat → Nat

/-- Whether a pulse exactly half a second from both boundaries counts as after the earlier one (R12 names no choice). -/
opaque halfSecondIsLate : Nat → Bool

/-- The analogue input of a measurement, where the block ends the measurement itself (R182): the world's, not the
part's. -/
opaque converterCode : Nat → ConvCode

end Sys2Proof.Config
end

