-- ==== Sys2Proof/Machine/Arith.lean ====
section
/-! DEFINITION. The manual's arithmetic (00_scope, Arithmetic), the fields of an event group (R145), and reading and
writing one record of a numbered table. -/

namespace Sys2Proof.Machine

/-- clamp(x, lo, hi) on naturals (00_scope). -/
def clampN (x lo hi : Nat) : Nat := min (max x lo) hi

/-- clamp(x, lo, hi) on integers (00_scope). -/
def clampI (x lo hi : Int) : Int := min (max x lo) hi

/-- a / b rounded half away from zero, for positive b (00_scope). -/
def roundHalfAway (a : Int) (b : Nat) : Int :=
  if 0 ≤ a then ((2 * a.toNat + b) / (2 * b) : Nat) else -((2 * (-a).toNat + b) / (2 * b) : Nat)

/-- a / b truncated toward zero, for positive b (00_scope). -/
def truncDiv (a : Int) (b : Nat) : Int :=
  if 0 ≤ a then (a.toNat / b : Nat) else -((-a).toNat / b : Nat)

/-- A count that saturates at 65,535. -/
def sat16 (n : Nat) : Nat := min n 65535

/-- Record number `i` (counted from 1) of a numbered table. -/
def rd {α : Type} {n : Nat} (v : Vector α n) (i : Nat) (d : α) : α := (v[i - 1]?).getD d

/-- The table with record number `i` (counted from 1) replaced; a number outside the table changes nothing. -/
def wr {α : Type} {n : Nat} (v : Vector α n) (i : Nat) (a : α) : Vector α n :=
  if 1 ≤ i then v.setIfInBounds (i - 1) a else v

/-- Whether bell b is in the set (R145). -/
def bellIn (s : BellSet) (b : Nat) : Bool := decide (1 ≤ b) && s.getLsbD (b - 1)

/-- The set of one bell. -/
def bellOne (b : Nat) : BellSet := if 1 ≤ b ∧ b ≤ 24 then 1#24 <<< (b - 1) else 0#24

/-- The bells of a set, in ascending order. -/
def bellList (s : BellSet) : List Nat := (List.range 24).filterMap fun i => if s.getLsbD i then some (i + 1) else none

/-- One event of a tune (R85). -/
structure Event where
  delta : Nat
  bells : BellSet
  intensity : Intensity
  phrase : Bool
  deriving DecidableEq, Repr, Inhabited

/-- The event a group of nine digits gives (R145): digits 1-2 the step delta, 3-8 the bell set, 9 the flags. -/
def Event.ofWord (w : EventWord) : Event where
  delta := (w.extractLsb' 28 8).toNat
  bells := w.extractLsb' 4 24
  intensity := if w.extractLsb' 0 2 = 0#2 then .soft else if w.extractLsb' 0 2 = 1#2 then .normal else .strong
  phrase := w.getLsbD 2

/-- The empty event, with which a page is padded (R145). -/
def Event.empty : Event := { delta := 0, bells := 0#24, intensity := .soft, phrase := false }

/-- The smallest element of a list of naturals greater than or equal to nothing else; `d` when empty. -/
def minOr (d : Nat) (l : List Nat) : Nat := l.foldl min d

/-- The largest element of a list of naturals, 0 when empty. -/
def maxOf (l : List Nat) : Nat := l.foldl max 0

/-- Insert into a list kept in ascending order by `lt`, after the elements not above it. -/
def insertBy {α : Type} (lt : α → α → Bool) (a : α) : List α → List α
  | [] => [a]
  | b :: l => if lt a b then a :: b :: l else b :: insertBy lt a l

/-- A stable ascending sort. -/
def sortBy {α : Type} (lt : α → α → Bool) (l : List α) : List α := l.foldl (fun acc a => insertBy lt a acc) []

end Sys2Proof.Machine
end

