-- ==== Sys2Proof/Machine/Types.lean ====
section
/-! DEFINITION. The records of the blocks, as the chapters give them. Instants are run-clock milliseconds unless a
field says otherwise; standard time is counted in seconds from 2000-01-01 00:00:00 (log 8). -/

namespace Sys2Proof.Machine

/-! ### Replies and notices (chapter 11) -/

/-- One field of a reply or a notice. The part sends lines of text; the manual does not fix the number formats of
every field, so the model holds the fields themselves (log 6). -/
inductive Field where
  | num (i : Int)
  | word (w : String)
  | date (year month day : Nat)
  | tod (hour minute second ms : Nat)
  | hm (hour minute : Nat)
  | hex (bells : BellSet)
  | absent
  | list (l : List Nat)
  | words (l : List String)
  /-- A day-sheet slot, outcome:count, followed by R when its repeated flag is set (R119). -/
  | quarter (outcome : String) (masked : Nat) (repeated : Bool)
  /-- A channel and a level, ch:level (R173). -/
  | pair (channel level : Nat)
  deriving DecidableEq, Repr, Inhabited

/-- The refusal codes (R191). -/
inductive Code where
  | badSyntax | range | mode | busy | full | order | count | used | active | invalid | none | overrun
  deriving DecidableEq, Repr, Inhabited

/-- A reply: "OK" with fields, or "NO" with a code and, for INVALID, the item and its detail (R191). -/
inductive Reply where
  | ok (fields : List Field)
  | no (code : Code) (detail : List Field)
  deriving DecidableEq, Repr, Inhabited

/-- A pending entry of the notice latch (R192). -/
structure Pending where
  detail : List Field
  count : Nat
  deriving DecidableEq, Repr, Inhabited

/-- A place in the order of replies (R190): a line not yet taken, with the instant of its reception in ms of the run clock
(R15), the RESTART in progress, a reply that is ready (and
the line rate that is taken up once it is sent, if any, R194), or an overrun mark. -/
inductive LineSlot where
  | waiting (req : Instr) (recv : Nat)
  | busy
  | ready (reply : Reply) (rateAfter : Option Nat)
  | overrun
  deriving DecidableEq, Repr

/-- The line being sent (R193). -/
inductive TxLine where
  | reply (reply : Reply) (rateAfter : Option Nat)
  | overrun
  | notice (cls : NoticeClass) (count : Nat) (detail : List Field)
  deriving DecidableEq, Repr

/-- SERVICE or RUN (11.5). -/
inductive Mode where
  | service | run
  deriving DecidableEq, Repr, Inhabited

/-- The three kinds of start (00_scope). -/
inductive StartKind where
  | cold | warm | restart
  deriving DecidableEq, Repr, Inhabited

/-! ### Timebase and Reference Monitor (chapter 1) -/

/-- The Timebase (R1, R2, R3). `sub` reaches 1,000,000 at the instant a second ends; `tick` and `len` are k and N of
the second in progress; `runUs` is the run clock in microseconds; `osc` counts oscillator ticks. -/
structure Timebase where
  secs : Nat
  sub : Nat
  set : Bool
  flag : Bool
  trim : Int
  acc : Int
  slew : Option Int
  tick : Nat
  len : Nat
  runUs : Nat
  osc : Nat
  deriving DecidableEq, Repr, Inhabited

/-- The four states of the Reference Monitor (1.4). -/
inductive RefState where
  | off | acquiring | locked | holdover
  deriving DecidableEq, Repr, Inhabited

/-- A pending mark: its standard time and the run-clock instant of its reception (R15). -/
structure Mark where
  secs : Nat
  recv : Nat
  deriving DecidableEq, Repr, Inhabited

/-- The Reference Monitor (R9 to R16). `window` is oldest first, true for valid; `cadence` is the oscillator tick of
the next cadence instant. `boundary`, `judged` and `early` say which expected second is open (log 11). -/
structure RefMon where
  state : RefState
  window : List Bool
  cadence : Option Nat
  cadMiss : Nat
  lastValid : Option Nat
  boundary : Bool
  judged : Bool
  early : Bool
  pullIn : Bool
  sum : Int
  cnt : Nat
  hist : List Int
  mark : Option Mark
  disagree : Nat
  deriving DecidableEq, Repr, Inhabited

/-! ### Calendar Unit (chapter 2) -/

/-- The day values of the calendar record (R23). -/
structure DayValues where
  dayNo : Nat
  year : Nat
  month : Nat
  day : Nat
  doy : Nat
  weekday : Weekday
  easterDist : Int
  riseStd : Nat
  setStd : Nat
  riseLocal : Nat
  setLocal : Nat
  noonFlag : Bool
  deriving DecidableEq, Repr, Inhabited

/-- The calendar record (R23). -/
structure Calendar where
  day : DayValues
  easterYear : Nat
  easterMonth : Nat
  easterDay : Nat
  easterDoy : Nat
  changeYear : Nat
  change : Option (Nat × Nat)
  deriving DecidableEq, Repr, Inhabited

/-! ### Dial Drive (chapter 3) -/

/-- A dial's stored state (R37, R39). -/
inductive DialStored where
  | derived | searching | unknown | stopped | fault
  deriving DecidableEq, Repr, Inhabited

/-- A dial's reported state (R39). -/
inductive DialState where
  | inStep | advancing | holding | searching | unknown | stopped | fault
  deriving DecidableEq, Repr, Inhabited

/-- Result of the last noon event (R37). -/
inductive NoonOutcome where
  | none | good | slip | found | missed
  deriving DecidableEq, Repr, Inhabited

/-- A dial's record (R37), with the instant of its last impulse, the end and polarity of an open one (R41), and whether
its noon input is taken as open (R42). -/
structure Dial where
  pos : Option Nat
  pol : Polarity
  isOpen : Bool
  stored : DialStored
  count : Nat
  slips : Nat
  noon : NoonOutcome
  step : Nat
  last : Option Nat
  openEnd : Nat
  out : Option Polarity
  armed : Bool
  deriving DecidableEq, Repr, Inhabited

/-! ### Bell Table (chapter 4) -/

/-- A bell's state (R55). -/
inductive BellState where
  | ready | silent | fault
  deriving DecidableEq, Repr, Inhabited

/-- A held stroke (R58): its performance, intensity, test flag, the instant of its request and its planned release. -/
structure Held where
  perf : Nat
  intensity : Intensity
  test : Bool
  req : Nat
  due : Nat
  deriving DecidableEq, Repr, Inhabited

/-- An open confirm window (R55, R62). -/
structure Window where
  perf : Nat
  opens : Nat
  closes : Nat
  test : Bool
  deriving DecidableEq, Repr, Inhabited

/-- A claim record (R69). -/
structure Claim where
  perf : Nat
  level : Nat
  order : Nat
  deriving DecidableEq, Repr, Inhabited

/-- A bell's operational part (R55) and its hammer output, driven until `pulse` (R61). -/
structure Bell where
  state : BellState
  miss : Nat
  last : Option Nat
  held : Option Held
  windows : List Window
  driven : Nat
  silent : Nat
  masked : Nat
  claims : List Claim
  pulse : Option Nat
  deriving DecidableEq, Repr, Inhabited

/-! ### Performance Engine (chapter 5) -/

/-- Who created a performance (R78). -/
inductive Source where
  | line | panel | schedule (entry : Nat) | clock
  deriving DecidableEq, Repr, Inhabited

/-- A record's state (R80). -/
inductive PerfState where
  | waiting | admitted | running | stopping
  deriving DecidableEq, Repr, Inhabited

/-- The stop mode (R78). -/
inductive StopMode where
  | none | finish | cut
  deriving DecidableEq, Repr, Inhabited

/-- A TEST stroke's outcome (R91). -/
inductive StrokeOutcome where
  | none | released | silent | masked | crowded | confirmed | missed
  deriving DecidableEq, Repr, Inhabited

/-- How a record leaves the table (R94). -/
inductive PerfOutcome where
  | done | finished | cut | stopped | expired | cancelled
  deriving DecidableEq, Repr, Inhabited

/-- Parameters of a CLOCK performance (R78, R85, R108): quarter, hour count, local day and slot of its day-sheet slot,
hour-only flag; then, fixed at its creation, the offset of hour stroke 0 from the anchor, the spacing and the struck
bell; and whether it is a carried hour (R113). Offsets are in ms. -/
structure ClockParams where
  quarter : Nat
  hours : Option Nat
  date : Nat
  slot : Nat
  hourOnly : Bool
  hourBase : Nat
  spacing : Nat
  struck : Nat
  carried : Bool
  deriving DecidableEq, Repr, Inhabited

/-- Parameters of a TOLL (R78), the strokes sent, and the number of strokes after which it is complete (R89, R96). -/
structure TollParams where
  bell : Nat
  interval : Nat
  count : Nat
  intensity : Intensity
  sent : Nat
  limit : Option Nat
  deriving DecidableEq, Repr, Inhabited

/-- Parameters of a TEST (R78), whether its request is sent, and its outcome (R91). -/
structure TestParams where
  bell : Nat
  intensity : Intensity
  sent : Bool
  outcome : StrokeOutcome
  deriving DecidableEq, Repr, Inhabited

/-- One drive of a SWING's set, in start order: whether its start has come, and whether it is done (R127, R135). -/
structure SwingStart where
  drive : Nat
  started : Bool
  done : Bool
  deriving DecidableEq, Repr, Inhabited

/-- Parameters of a SWING (R78): stagger in s, duration in min. -/
structure SwingParams where
  drives : List SwingStart
  stagger : Nat
  duration : Nat
  deriving DecidableEq, Repr, Inhabited

/-- The kind of a performance with its parameters (R78). -/
inductive PerfKind where
  | tune
  | clock (p : ClockParams)
  | toll (p : TollParams)
  | swing (p : SwingParams)
  | test (p : TestParams)
  deriving DecidableEq, Repr, Inhabited

/-- The six counters (R78). -/
structure Counters where
  released : Nat
  silent : Nat
  masked : Nat
  delayed : Nat
  crowded : Nat
  stalls : Nat
  deriving DecidableEq, Repr, Inhabited

/-- A performance record (R78), with its lead L (R83), and the latest pulse end of its strokes (R91) and of its driven
pulses (R97). -/
structure Perf where
  id : Nat
  kind : PerfKind
  source : Source
  level : Nat
  state : PerfState
  slot : Option Nat
  tempo : Option Nat
  division : Option Nat
  bells : BellSet
  reqAt : Nat
  wait : Nat
  anchor : Option Nat
  lead : Nat
  voice : Option Nat
  stop : StopMode
  stopPoint : Option Nat
  scene : Option Nat
  order : Option Nat
  counters : Counters
  pulseEnd : Nat
  drivenEnd : Nat
  deriving DecidableEq, Repr, Inhabited

/-- A page buffer of a voice (R82); `serial` tells its read from one given up. -/
inductive Buffer where
  | empty
  | reading (page serial : Nat)
  | loaded (page : Nat) (events : List Event)
  deriving DecidableEq, Repr, Inhabited

/-- A stroke taken up and not yet sent (R87), with the place of its event in the timeline. -/
structure Stroke where
  bell : Nat
  intensity : Intensity
  due : Nat
  idx : Nat
  deriving DecidableEq, Repr, Inhabited

/-- A voice (R81): FREE when `perf` is absent. `idx` is the next event to take up, `cum` the cumulative step of the
events taken up, `stall` the take-up instant that stalled, `moves` the stalls that have ended: the event each stalled
at, and its length (R88). -/
structure Voice where
  perf : Option Nat
  current : Buffer
  next : Buffer
  idx : Nat
  cum : Nat
  stall : Option Nat
  moves : List (Nat × Nat)
  strokes : List Stroke
  deriving DecidableEq, Repr, Inhabited

/-! ### Clock Strike Unit (chapter 6) -/

/-- The outcome of a quarter slot (R114). -/
inductive QuarterOutcome where
  | pending | unset | off | silenced | withheld | missing | faulted | yielded | sounded | late | skipped
  deriving DecidableEq, Repr, Inhabited

/-- A slot of a day sheet (R114). -/
structure SheetSlot where
  outcome : QuarterOutcome
  masked : Nat
  repeated : Bool
  deriving DecidableEq, Repr, Inhabited

/-- A day sheet (R114). -/
structure Sheet where
  date : Option Nat
  slots : Vector SheetSlot 96
  deriving DecidableEq, Repr, Inhabited

/-- A quarter profile (R106): n_last, D and E when READY; a build's next page, outstanding read and events so far, and
whether a RESTART or a start-up waits for this build (R200, R202). -/
inductive Profile where
  | none
  | building (page serial : Nat) (events : List Event) (awaited : Bool)
  | ready (nLast d : Nat) (e : Int)
  deriving DecidableEq, Repr, Inhabited

/-- The Clock Strike Unit (R106, R110, R114). The frontier counts quarter instants of local time from
2000-01-01 00:00. -/
structure ClockUnit where
  profiles : Vector Profile 4
  today : Sheet
  yesterday : Sheet
  early : Option (Nat × SheetSlot)
  frontier : Nat
  deriving DecidableEq, Repr, Inhabited

/-! ### Swing Drives (chapter 7) -/

/-- A swing drive's state (R124). -/
inductive SwingState where
  | down | raising | ringing | lowering | settling | fault
  deriving DecidableEq, Repr, Inhabited

/-- Why a drive last entered FAULT (R124). -/
inductive SwingCause where
  | none | noStart | raiseLimit | noBottom
  deriving DecidableEq, Repr, Inhabited

/-- A swing drive's record (R124); `seen` says whether a bottom pulse came since RAISING was entered (R125, R128). -/
structure Drive where
  state : SwingState
  cause : SwingCause
  perf : Option Nat
  entry : Nat
  lastBottom : Option Nat
  half : Option Nat
  flag : Bool
  run : Nat
  lowerAt : Option Nat
  brake : Bool
  motor : Option Nat
  brakeOut : Option Nat
  swings : Nat
  seen : Bool
  deriving DecidableEq, Repr, Inhabited

/-! ### Tune Store (chapter 8) -/

/-- The state of a slot (R139). -/
inductive SlotState where
  | empty | writing | closed | incomplete | erasing
  deriving DecidableEq, Repr, Inhabited

/-- A directory entry (R139). -/
structure DirEntry where
  state : SlotState
  title : String
  tempo : Nat
  division : Nat
  scene : Option Nat
  bells : BellSet
  events : Nat
  pages : Nat
  sectors : List Nat
  deriving DecidableEq, Repr, Inhabited

/-- A directory record on the array (R140): whether its check value is right, its sequence count, its entry. -/
structure DirRecord where
  valid : Bool
  seq : Nat
  entry : DirEntry
  deriving DecidableEq, Repr, Inhabited

/-- The loading record (R144). -/
structure Loading where
  slot : Nat
  page : Nat
  part : Nat
  received : Nat
  bells : BellSet
  openPage : List Event
  ended : Bool
  deriving DecidableEq, Repr, Inhabited

/-- What a directory write was queued for (R140, R148, R149). -/
inductive DirPurpose where
  | plain | closing | final
  deriving DecidableEq, Repr, Inhabited

/-! ### Schedule Table (chapter 9) -/

/-- State and fields of a schedule entry (R155); the stamp is kept apart, since it is not part of the image. -/
inductive EntryCfg where
  | empty
  | active (f : EntryFields)
  | suspended (f : EntryFields)
  deriving DecidableEq, Repr, Inhabited

/-- The Schedule Table (R155, R160, R162). Stamps and the last evaluated minute count local date-minutes from
2000-01-01 00:00; the ends are microseconds of standard time. -/
structure Schedule where
  stamps : Vector (Option Nat) 128
  lastEval : Option Nat
  strikeEnd : Option Nat
  tunesEnd : Option Nat
  panelSilence : Bool
  deriving DecidableEq, Repr, Inhabited

/-! ### Lights (chapter 10) -/

/-- A scene: one fade time and the levels of the channels it holds (R173). -/
structure Scene where
  fade : Nat
  levels : Vector (Option Nat) 16
  deriving DecidableEq, Repr, Inhabited

/-- An override (R175): `panel` for source PANEL. -/
structure Override where
  level : Nat
  mode : OverrideMode
  panel : Bool
  deriving DecidableEq, Repr, Inhabited

/-- A fade in progress (R180); `next` is the instant of its next step. -/
structure Fade where
  start : Nat
  target : Nat
  len : Nat
  k : Nat
  next : Nat
  deriving DecidableEq, Repr, Inhabited

/-- The lamp state (R175). -/
inductive LampState where
  | unchecked | ok | low | tripped
  deriving DecidableEq, Repr, Inhabited

/-- A verdict (R183). -/
inductive Verdict where
  | good | low | tooHigh
  deriving DecidableEq, Repr, Inhabited

/-- A lighting channel's record (R175) and its modulator (R181): the cycle count j, the level that governs the period,
the slots driven and the start of the next period. -/
structure Channel where
  base : Option Nat
  perf : Option Nat
  override : Option Override
  target : Nat
  output : Nat
  fade : Option Fade
  lastFadeEnd : Nat
  lamp : LampState
  run : Option (Verdict × Nat)
  code : Option Nat
  pwmJ : Nat
  pwmLevel : Nat
  pwmSlots : Nat
  pwmNext : Nat
  deriving DecidableEq, Repr, Inhabited

/-- A contribution to the performance layer (R177). -/
structure Contribution where
  perf : Nat
  level : Nat
  order : Nat
  scene : Scene
  deriving DecidableEq, Repr, Inhabited

/-- A measurement in progress (R182): of a channel at the output it had when it began, or of the photocell. `spoiled`
says that its code is to be discarded. -/
structure Measurement where
  channel : Option Nat
  level : Nat
  ends : Nat
  spoiled : Bool
  deriving DecidableEq, Repr, Inhabited

/-- The dusk state (R185). -/
inductive DuskState where
  | unknown | dark | light
  deriving DecidableEq, Repr, Inhabited

/-- The Lighting Controller and the Measurement Unit (R175 to R185). -/
structure Lights where
  chans : Vector Channel 16
  contribs : List Contribution
  panelOn : Bool
  lastMeasured : Nat
  conv : Option Measurement
  lampWaits : Bool
  duskWaits : Bool
  lampNext : Nat
  duskNext : Nat
  dusk : DuskState
  darkRun : Nat
  lightRun : Nat
  duskCode : Option Nat
  deriving DecidableEq, Repr, Inhabited

/-! ### Working configuration and saved image -/

/-- The working configuration, with the scenes and the schedule entries, as SAVE captures it (R199); the reference
setting is read from the reference state. -/
structure Settings where
  summer : SummerRule
  sun : Vector SunAnchor 24
  dials : Vector DialCfg 4
  bells : Vector BellCfg 24
  clock : ClockCfg
  levels : Levels
  panelToll : PanelTollCfg
  swings : Vector SwingCfg 4
  scenes : Vector Scene 32
  lights : Vector LightCfg 16
  site : SiteCfg
  rate : Nat
  entries : Vector EntryCfg 128
  deriving DecidableEq, Repr, Inhabited

/-- The content of a saved image (R151, R199). -/
structure Image where
  refOn : Bool
  settings : Settings
  deriving DecidableEq, Repr, Inhabited

/-- An image sector: six pages, each blank or with its sequence count and content (R151, log 22). -/
abbrev ImageSector := Vector (Option (Nat × Image)) 6

/-- A queued operation of the store (R142). `b` names image sector B where it is true. -/
inductive QueueOp where
  | program (slot sector page : Nat) (events : List Event)
  | erase (slot sector : Nat)
  | dirWrite (slot : Nat) (purpose : DirPurpose)
  | imageErase (b : Bool)
  | imageProgram (b : Bool) (page seq : Nat) (image : Image)
  deriving DecidableEq, Repr

/-- Who asked for a page read (R143): a voice, a profile build, the directory scan (R153) or an image load (R152). -/
inductive Reader where
  | voice (v : Nat)
  | build (quarter : Nat)
  | scan (slot : Nat)
  | image (page : Nat)
  deriving DecidableEq, Repr

/-- A read in the read list (R143). -/
structure ReadReq where
  reader : Reader
  serial : Nat
  slot : Nat
  page : Nat
  deriving DecidableEq, Repr

/-- The operation in progress (R142), with what was fixed when it began: the events a read hands over, the image page
it reads, the entry and sequence a directory write carries. -/
inductive Running where
  | read (req : ReadReq) (events : List Event) (image : Option (Bool × Nat × Image))
  | queued (op : QueueOp)
  | writing (slot : Nat) (purpose : DirPurpose) (second : Bool) (record : DirRecord)
  deriving DecidableEq, Repr

/-- An image load in progress (R152): its serial, the pages read so far, and the sector, sequence and content they were
read from. -/
structure ImageLoad where
  serial : Nat
  pages : Nat
  src : Option (Bool × Nat × Image)
  deriving DecidableEq, Repr

/-- The Tune Store (chapter 8). -/
structure Store where
  sectors : Vector (Vector (Option (List Event)) 16) 64
  recA : Vector DirRecord 64
  recB : Vector DirRecord 64
  slots : Vector DirEntry 64
  free : List Nat
  load : Option Loading
  op : Option (Running × Nat)
  queue : List QueueOp
  reads : List ReadReq
  serial : Nat
  imgA : ImageSector
  imgB : ImageSector
  saveTarget : Option Bool
  saveSeq : Option Nat
  resume : List Nat
  imgLoad : Option ImageLoad
  deriving DecidableEq, Repr

/-! ### Line, panel, power -/

/-- RESTART in progress (R200): reading the image, image read, or waiting for the profile builds. -/
inductive Restart where
  | none
  | loading
  | loaded (image : Image)
  | building
  deriving DecidableEq, Repr

/-- The Line Interface (chapter 11). -/
structure Line where
  slots : List LineSlot
  tx : Option TxLine
  latch : Vector (Option Pending) 10
  mask : Vector Bool 10
  rate : Nat
  mode : Mode
  lastStart : StartKind
  lastValidation : Option (Option (List Field))
  restart : Restart
  deriving DecidableEq, Repr

/-- Whether each key's next press may be taken (R196). -/
structure Keys where
  toll : Bool
  silence : Bool
  lights : Bool
  stop : Bool
  deriving DecidableEq, Repr, Inhabited

/-- Where the part stands with main power (R19, R202). -/
inductive Phase where
  | on | off | starting
  deriving DecidableEq, Repr, Inhabited

/-- Power and start-up (R19, R201, R202): the backup counter's accumulator, the standard time at which main power was
lost, and, while starting, the kind decided, what the scan found, the mode decided, and whether step 5 may come. -/
structure Power where
  phase : Phase
  backAcc : Int
  lostAt : Nat
  kind : StartKind
  scanned : Option (Nat × Nat)
  refOn : Bool
  building : Bool
  mode : Mode
  validation : Option (Option (List Field))
  ready : Bool
  wrapped : Bool
  deriving DecidableEq, Repr

/-- A dial record as the Retained Memory holds it (R37). -/
structure RetainedDial where
  pos : Option Nat
  pol : Polarity
  isOpen : Bool
  stored : DialStored
  count : Nat
  slips : Nat
  noon : NoonOutcome
  step : Nat
  deriving DecidableEq, Repr

/-- What the Retained Memory holds (R201). -/
structure Retained where
  secs : Nat
  set : Bool
  trim : Int
  lostAt : Nat
  dials : Vector RetainedDial 4
  today : Sheet
  yesterday : Sheet
  early : Option (Nat × SheetSlot)
  frontier : Nat
  stamps : Vector (Option Nat) 128
  lastEval : Option Nat
  strikeEnd : Option Nat
  tunesEnd : Option Nat
  deriving DecidableEq, Repr

end Sys2Proof.Machine
end

