-- ==== Sys2Proof/Machine/Dates.lean ====
section
/-! DEFINITION. The Calendar Unit's arithmetic (chapter 2): day numbers, weekdays, Easter, change instants, the sun
table, and the conversion of local times (R14). Standard time is counted in seconds from 2000-01-01 00:00:00. -/

namespace Sys2Proof.Machine

/-- Days in the range 2000-01-01..2199-12-31 (R1). -/
def spanDays : Nat := 73049

/-- Seconds in the range of standard time (R1). -/
def spanSecs : Nat := spanDays * 86400

/-- The leap rule (R21). -/
def isLeap (y : Nat) : Bool := y % 4 = 0 && (y % 100 ≠ 0 || y % 400 = 0)

/-- Days of a year (R21). -/
def yearLen (y : Nat) : Nat := if isLeap y then 366 else 365

/-- Days of a month (R21). -/
def monthLen (y m : Nat) : Nat :=
  if m = 2 then (if isLeap y then 29 else 28) else if m = 4 ∨ m = 6 ∨ m = 9 ∨ m = 11 then 30 else 31

/-- Day of the year, 1 on 1 January (R21). -/
def dayOfYear (y m d : Nat) : Nat := ((List.range (m - 1)).map fun i => monthLen y (i + 1)).sum + d

/-- Day number of 1 January of year `y` (R21). -/
def yearStart (y : Nat) : Nat := ((List.range (y - 2000)).map fun i => yearLen (2000 + i)).sum

/-- Day number of a date (R21). -/
def dayNumber (y m d : Nat) : Nat := yearStart y + dayOfYear y m d - 1

/-- Subtract whole years: at most `fuel` of them (R21). -/
def takeYears : Nat → Nat → Nat → Nat × Nat
  | 0, y, n => (y, n)
  | fuel + 1, y, n => if n < yearLen y then (y, n) else takeYears fuel (y + 1) (n - yearLen y)

/-- Subtract whole months of year `y`: at most `fuel` of them (R21). -/
def takeMonths : Nat → Nat → Nat → Nat → Nat × Nat
  | 0, _, m, n => (m, n)
  | fuel + 1, y, m, n => if n < monthLen y m then (m, n) else takeMonths fuel y (m + 1) (n - monthLen y m)

/-- The date of a day number; a number past 73,048 wraps to 0 (R21). -/
def dateOf (n : Nat) : DateF :=
  let (y, r) := takeYears 199 2000 (n % spanDays)
  let (m, d) := takeMonths 11 y 1 r
  { year := y, month := m, day := d + 1 }

/-- The year of a standard instant. -/
def yearOfSecs (t : Nat) : Nat := (dateOf (t / 86400)).year

/-- A weekday's number, 0 for MON (R22). -/
def weekdayIndex : Weekday → Nat
  | .mon => 0 | .tue => 1 | .wed => 2 | .thu => 3 | .fri => 4 | .sat => 5 | .sun => 6

/-- The weekday of a remainder (R22). -/
def weekdayOfIndex : Nat → Weekday
  | 0 => .mon | 1 => .tue | 2 => .wed | 3 => .thu | 4 => .fri | 5 => .sat | _ => .sun

/-- The weekday of a day number (R22). -/
def weekdayOf (n : Nat) : Weekday := weekdayOfIndex ((n + 5) % 7)

/-- The date is a date of the range (R21, R14). -/
def dateValid (d : DateF) : Bool :=
  2000 ≤ d.year && d.year ≤ 2199 && 1 ≤ d.month && d.month ≤ 12 && 1 ≤ d.day && d.day ≤ monthLen d.year d.month

/-- The day number of a date. -/
def dateNumber (d : DateF) : Nat := dayNumber d.year d.month d.day

/-- Easter Sunday of year `y`: month and day (R25). -/
def easter (y : Nat) : Nat × Nat :=
  let a := y % 19
  let b := y / 100
  let c := y % 100
  let d := b / 4
  let e := b % 4
  let f := (b + 8) / 25
  let g := (b - f + 1) / 3
  let h := (19 * a + b - d - g + 15) % 30
  let i := c / 4
  let k := c % 4
  let l := (32 + 2 * e + 2 * i - h - k) % 7
  let m := (a + 11 * h + 22 * l) / 451
  ((h + l - 7 * m + 114) / 31, (h + l - 7 * m + 114) % 31 + 1)

/-- Day of the year of Easter Sunday (R23). -/
def easterDoyOf (y : Nat) : Nat := dayOfYear y (easter y).1 (easter y).2

/-- The day of the month a change specification names in year `y` (R27). -/
def dayIn (c : ChangeSpec) (y : Nat) : Nat :=
  match c.ordinal with
  | .nth n =>
    let w1 := weekdayIndex (weekdayOf (dayNumber y c.month 1))
    1 + (weekdayIndex c.weekday + 7 - w1) % 7 + 7 * (n - 1)
  | .last =>
    let ld := monthLen y c.month
    let wl := weekdayIndex (weekdayOf (dayNumber y c.month ld))
    ld - (wl + 7 - weekdayIndex c.weekday) % 7

/-- The change instant a specification gives in year `y`, in standard seconds (R27). -/
def instantIn (c : ChangeSpec) (y : Nat) : Nat := 86400 * dayNumber y c.month (dayIn c y) + 3600 * c.hour

/-- The rule is inert: offset 0, or equal specifications (R27). -/
def ruleInert (r : SummerRule) : Bool := decide (r.offset = 0) || decide (r.start = r.stop)

/-- The start and end instants of year `y`, absent when inert for that year (R27). -/
def changeInstants (r : SummerRule) (y : Nat) : Option (Nat × Nat) :=
  if ruleInert r then none
  else
    let a := instantIn r.start y
    let b := instantIn r.stop y
    if a = b then none else some (a, b)

/-- Whether summer time is in force at standard instant `t`, given the change values of its year (R28). -/
def inForceWith (c : Option (Nat × Nat)) (t : Nat) : Bool :=
  match c with
  | none => false
  | some (a, b) => if a < b then decide (a ≤ t) && decide (t < b) else decide (t < b) || decide (a ≤ t)

/-- Whether summer time is in force at standard instant `t` (R28). -/
def inForce (r : SummerRule) (t : Nat) : Bool := inForceWith (changeInstants r (yearOfSecs t)) t

/-- A local time in seconds taken to standard time (R14); absent when summer time skips it or it leaves the range. -/
def localToStd (r : SummerRule) (l : Nat) : Option Zone → Option Nat
  | some .standard => if l < spanSecs then some l else none
  | some .summer => if r.offset * 60 ≤ l ∧ l - r.offset * 60 < spanSecs then some (l - r.offset * 60) else none
  | none =>
    if r.offset * 60 ≤ l ∧ l < spanSecs ∧ inForce r (l - r.offset * 60) then some (l - r.offset * 60)
    else if l < spanSecs ∧ !inForce r l then some l
    else none

/-- The standard instant of a passed local time: a time the start of summer time skips lies at the change instant
(R168), a repeated one is taken at its earlier occurrence (R14, log 18). -/
def passedInstant (r : SummerRule) (l : Nat) : Nat :=
  match localToStd r l none with
  | some t => t
  | none =>
    match changeInstants r (yearOfSecs l) with
    | some (a, _) => if a ≤ l ∧ l < a + r.offset * 60 then a else l - r.offset * 60
    | none => l

/-- Day of the year of anchor `k` in year `y` (R30); anchor 25 stands for anchor 1 of the next year (R31). -/
def anchorDoy (y k : Nat) : Nat :=
  if 24 < k then yearLen y + 1 else dayOfYear y ((k + 1) / 2) (if k % 2 = 1 then 1 else 16)

/-- The last anchor at or before a date (R31). -/
def anchorBefore (m d : Nat) : Nat := if 16 ≤ d then 2 * m else 2 * m - 1

/-- Interpolation between two anchors (R31). -/
def interpolate (v w : Nat) (d dk dn : Nat) : Nat :=
  ((v : Int) + roundHalfAway (((w : Int) - v) * ((d : Int) - dk)) (dn - dk)).toNat

/-- The day values of a day number (R23, R31, R32). -/
def dayValuesOf (r : SummerRule) (sun : Vector SunAnchor 24) (n : Nat) : DayValues :=
  let dt := dateOf n
  let doy := dayOfYear dt.year dt.month dt.day
  let k := anchorBefore dt.month dt.day
  let a := rd sun k default
  let b := rd sun (if k = 24 then 1 else k + 1) default
  let dk := anchorDoy dt.year k
  let dn := anchorDoy dt.year (k + 1)
  let rise := interpolate a.rise b.rise doy dk dn
  let set := interpolate a.set b.set doy dk dn
  let noon := inForce r (86400 * n + 43200)
  let off := if noon then r.offset else 0
  { dayNo := n
    year := dt.year
    month := dt.month
    day := dt.day
    doy := doy
    weekday := weekdayOf n
    easterDist := (doy : Int) - easterDoyOf dt.year
    riseStd := rise
    setStd := set
    riseLocal := clampN (rise + off) 0 1439
    setLocal := clampN (set + off) 0 1439
    noonFlag := noon }

/-- The whole calendar record for a local day and a standard year (R23, R34). -/
def calendarOf (r : SummerRule) (sun : Vector SunAnchor 24) (localDay stdYear : Nat) : Calendar :=
  let dv := dayValuesOf r sun localDay
  { day := dv
    easterYear := dv.year
    easterMonth := (easter dv.year).1
    easterDay := (easter dv.year).2
    easterDoy := easterDoyOf dv.year
    changeYear := stdYear
    change := changeInstants r stdYear }

end Sys2Proof.Machine
end

