-- ==== Sys2Proof/Machine/Defaults.lean ====
section
/-! DEFINITION. The values every piece of state starts with: the defaults that stand where there is no saved image,
and the COLD and WARM columns of the chapters' start tables (R20, R34, R52, R77, R102, R120, R137, R154, R171, R188,
R203). Values the manual does not state are named in log 7. -/

namespace Sys2Proof.Machine

/-- A two-digit number in names such as BELL07 (R53, R172). -/
def twoDigits (n : Nat) : String := String.ofList [Char.ofNat (48 + n / 10), Char.ofNat (48 + n % 10)]

/-- A table of `n` records made from their numbers 1..n. -/
def tableOf {α : Type} (n : Nat) (f : Nat → α) : Vector α n := (Vector.range n).map fun i => f (i + 1)

/-- The change specification of the default rule: January, 1, SUN, hour 0 (R26). -/
def defaultChange : ChangeSpec := { month := 1, ordinal := .nth 1, weekday := .sun, hour := 0 }

/-- Default dial configuration (R35). -/
def defaultDial : DialCfg :=
  { step := 60, polarised := true, width := 500, interval := 2000, hold := 0, noon := false, tolerance := 2 }

/-- Default bell configuration (R53). -/
def defaultBell (b : Nat) : BellCfg :=
  { name := "BELL" ++ twoDigits b, hammer := false, fSoft := 100, fNormal := 100, fStrong := 100, wSoft := 40
    wNormal := 40, wStrong := 40, recovery := 500, crowd := 50, confirm := false, half := 20, missLimit := 3, drive := 0 }

/-- Default clock settings (R103). -/
def defaultClock : ClockCfg :=
  { q1 := 0, q2 := 0, q3 := 0, q4 := 0, mode := .all, align := .start, gap := 20, spacing := 30, hourBell := 24
    standIn := 0, master := 0, carry := false, nightStartH := 0, nightStartM := 0, nightEndH := 0, nightEndM := 0
    scope := .quarters, scene := none }

/-- Default levels (R73). -/
def defaultLevels : Levels := { swing := 0, toll := 1, clock := 2, tune := 3 }

/-- Default panel toll settings (R121). -/
def defaultPanelToll : PanelTollCfg := { bell := 24, interval := 60, intensity := .normal, wait := 60, scene := none }

/-- Default swing drive configuration (R123). -/
def defaultSwing : SwingCfg := { bell := 0, raise := 300, settle := 60, half := 20, brake := false }

/-- A scene that holds all sixteen channels at level 0 with fade 0: scene 0, and the default of the others (R173). -/
def darkScene : Scene := { fade := 0, levels := Vector.replicate 16 (some 0) }

/-- Default channel configuration (R172). -/
def defaultLight (n : Nat) : LightCfg :=
  { name := "LAMP" ++ twoDigits n, nominal := 0, lampout := 70, overPct := 150, floor := 1024 }

/-- Default site settings (R174). -/
def defaultSite : SiteCfg := { fallback := 1, panelLevel := 4095, panelFade := 20, threshold := 40, hysteresis := 10 }

/-- The working configuration without a saved image. -/
def defaultSettings : Settings :=
  { summer := { offset := 0, start := defaultChange, stop := defaultChange }
    sun := Vector.replicate 24 { rise := 360, set := 1080 }
    dials := Vector.replicate 4 defaultDial
    bells := tableOf 24 defaultBell
    clock := defaultClock
    levels := defaultLevels
    panelToll := defaultPanelToll
    swings := Vector.replicate 4 defaultSwing
    scenes := Vector.replicate 32 darkScene
    lights := tableOf 16 defaultLight
    site := defaultSite
    rate := 9600
    entries := Vector.replicate 128 .empty }

/-- The Timebase at a COLD start (R20); the length of the first second is 1,000,000 ticks (log 10). -/
def coldTimebase : Timebase :=
  { secs := 0, sub := 0, set := false, flag := false, trim := 0, acc := 0, slew := none, tick := 0, len := 1000000
    runUs := 0, osc := 0 }

/-- The Reference Monitor at a COLD or WARM start (R20). -/
def startRef (on : Bool) : RefMon :=
  { state := if on then .acquiring else .off, window := [], cadence := none, cadMiss := 0, lastValid := none
    boundary := false, judged := true, early := false, pullIn := false, sum := 0, cnt := 0, hist := [], mark := none
    disagree := 0 }

/-- A dial at a COLD start (R52). -/
def coldDial (c : DialCfg) : Dial :=
  { pos := none, pol := .positive, isOpen := false, stored := if c.noon then .searching else .unknown, count := 0
    slips := 0, noon := .none, step := c.step, last := none, openEnd := 0, out := none, armed := true }

/-- A bell's operational part at a COLD or WARM start (R77). -/
def startBell : Bell :=
  { state := .ready, miss := 0, last := none, held := none, windows := [], driven := 0, silent := 0, masked := 0
    claims := [], pulse := none }

/-- A FREE voice (R102). -/
def freeVoice : Voice :=
  { perf := none, current := .empty, next := .empty, idx := 0, cum := 0, stall := none, moves := [], strokes := [] }

/-- A PENDING slot of a day sheet (R116). -/
def pendingSlot : SheetSlot := { outcome := .pending, masked := 0, repeated := false }

/-- A day sheet with every slot PENDING (R116, R120). -/
def blankSheet (date : Option Nat) : Sheet := { date := date, slots := Vector.replicate 96 pendingSlot }

/-- The Clock Strike Unit at a COLD start (R120). The frontier is 00:15: the evaluation instant of the 00:00 quarter
lies before 00:00:00 by R109. -/
def coldClock : ClockUnit :=
  { profiles := Vector.replicate 4 .none, today := blankSheet (some 0), yesterday := blankSheet none, early := none
    frontier := 1 }

/-- A swing drive at a COLD or WARM start (R137). -/
def startDrive : Drive :=
  { state := .settling, cause := .none, perf := none, entry := 0, lastBottom := none, half := none, flag := false
    run := 0, lowerAt := none, brake := false, motor := none, brakeOut := none, swings := 0, seen := false }

/-- An EMPTY directory entry with its fields cleared (R139, R149). The cleared title is the empty one, the cleared tempo
and division are 0: the choice of the model (log 77). -/
def emptyEntry : DirEntry :=
  { state := .empty, title := "", tempo := 0, division := 0, scene := none, bells := 0#24, events := 0, pages := 0
    sectors := [] }

/-- A directory record that has never been written (R140). -/
def blankRecord : DirRecord := { valid := true, seq := 0, entry := emptyEntry }

/-- A blank sector (R138). -/
def blankSector : Vector (Option (List Event)) 16 := Vector.replicate 16 none

/-- An image sector that is not VALID (R151). -/
def blankImage : ImageSector := Vector.replicate 6 none

/-- The Tune Store at the first use of the array (R139, R153). -/
def newStore : Store :=
  { sectors := Vector.replicate 64 blankSector
    recA := Vector.replicate 64 blankRecord
    recB := Vector.replicate 64 blankRecord
    slots := Vector.replicate 64 emptyEntry
    free := List.range 64
    load := none
    op := none
    queue := []
    reads := []
    serial := 0
    imgA := blankImage
    imgB := blankImage
    saveTarget := none
    saveSeq := none
    resume := []
    imgLoad := none }

/-- The Schedule Table at a COLD start (R171). -/
def coldSchedule : Schedule :=
  { stamps := Vector.replicate 128 none, lastEval := none, strikeEnd := none, tunesEnd := none, panelSilence := false }

/-- A lighting channel at a COLD or WARM start, its base layer cleared (R188). The modulator has not begun its first
period, which is j = 0 (log 26). -/
def startChannel : Channel :=
  { base := none, perf := none, override := none, target := 0, output := 0, fade := none, lastFadeEnd := 0
    lamp := .unchecked, run := none, code := none, pwmJ := 31, pwmLevel := 0, pwmSlots := 0, pwmNext := 0 }

/-- The Lighting Controller and Measurement Unit at a COLD or WARM start, before the fallback (R188). -/
def startLights : Lights :=
  { chans := Vector.replicate 16 startChannel, contribs := [], panelOn := false, lastMeasured := 16, conv := none
    lampWaits := false, duskWaits := false, lampNext := 0, duskNext := 0, dusk := .unknown, darkRun := 0, lightRun := 0
    duskCode := none }

/-- The Line Interface at a COLD or WARM start (R203). -/
def startLine (rate : Nat) (mode : Mode) (kind : StartKind) (v : Option (Option (List Field))) : Line :=
  { slots := [], tx := none, latch := Vector.replicate 10 none, mask := Vector.replicate 10 true, rate := rate
    mode := mode, lastStart := kind, lastValidation := v, restart := .none }

/-- Every key taken as open (R196). -/
def startKeys : Keys := { toll := true, silence := true, lights := true, stop := true }

/-- Main power on, nothing of a start-up in progress. -/
def powerOn : Power :=
  { phase := .on, backAcc := 0, lostAt := 0, kind := .cold, scanned := none, refOn := true, building := false
    mode := .service, validation := none, ready := false, wrapped := false }

end Sys2Proof.Machine
end

