-- ==== Sys2Proof/Machine/State.lean ====
section
/-! DEFINITION. The machine's state, the reasons a step can stop, and the state right after reset: a COLD start with no
saved image on an array that was never used (log 7). -/

namespace Sys2Proof.Machine

/-- The state of the JT-640: one field per block, then the model's own two. -/
structure State where
  tb : Timebase
  ref : RefMon
  cal : Calendar
  cfg : Settings
  dials : Vector Dial 4
  bells : Vector Bell 24
  perfs : List Perf
  lastId : Nat
  nextOrder : Nat
  voices : Vector Voice 4
  clock : ClockUnit
  drives : Vector Drive 4
  store : Store
  sched : Schedule
  lights : Lights
  line : Line
  keys : Keys
  power : Power
  drawn : Nat
  pending : List Instr
  deriving DecidableEq, Repr

/-- Why the machine stops. -/
inductive Fault where
  /-- A command names a pin or a timer of a unit that the part does not have, such as bell 25. Raised by the events of
  numbered units. Safe: the hardware has no such event. -/
  | noSuchUnit
  /-- An event from outside is placed beyond the end of the second in progress: the sender left out SECOND_END. Raised
  by every command with a `wait`. Safe: the same event can be given after SECOND_END (log 3). -/
  | pastSecondEnd
  deriving DecidableEq, Repr

/-- Why a command has no meaning. -/
inductive Refusal where
  /-- The command is not modelled. Raised by an arm of `exec` that has no meaning yet; there is none left. Safe. -/
  | notModelled (mnemonic : String)
  deriving DecidableEq, Repr

/-- The machine right after reset: every block in its COLD column. -/
def State.reset : State :=
  { tb := coldTimebase
    ref := startRef true
    cal := calendarOf defaultSettings.summer defaultSettings.sun 0 2000
    cfg := defaultSettings
    dials := Vector.replicate 4 (coldDial defaultDial)
    bells := Vector.replicate 24 startBell
    perfs := []
    lastId := 0
    nextOrder := 1
    voices := Vector.replicate 4 freeVoice
    clock := coldClock
    drives := Vector.replicate 4 startDrive
    store := newStore
    sched := coldSchedule
    lights := { startLights with chans := Vector.replicate 16 { startChannel with base := some 0 } }
    line := startLine 9600 .service .cold none
    keys := startKeys
    power := powerOn
    drawn := 0
    pending := [] }

end Sys2Proof.Machine
end

