-- ==== Sys2Proof/Machine/Flags.lean ====
section
/-! DEFINITION. The part's flags to the host: the notice latch and its mask (R192), the transmitter that sends replies,
overrun answers and notices (R193), and the order of replies (R190). -/

namespace Sys2Proof.Machine

/-- A class's place in the latch, counted from 1, in the order of R193. -/
def classIndex : NoticeClass → Nat
  | .ref => 1 | .time => 2 | .dial => 3 | .bell => 4 | .swing => 5
  | .perf => 6 | .store => 7 | .entry => 8 | .lamp => 9 | .dusk => 10

/-- The ten classes in the order of R193. -/
def allClasses : List NoticeClass := [.ref, .time, .dial, .bell, .swing, .perf, .store, .entry, .lamp, .dusk]

/-- A class's name. -/
def className : NoticeClass → String
  | .ref => "REF" | .time => "TIME" | .dial => "DIAL" | .bell => "BELL" | .swing => "SWING"
  | .perf => "PERF" | .store => "STORE" | .entry => "ENTRY" | .lamp => "LAMP" | .dusk => "DUSK"

/-- Latch a notice in the line's record: nothing where its class is OFF, else the detail with a count 1..255 (R192). -/
def Line.latched (l : Line) (c : NoticeClass) (detail : List Field) : Line :=
  if rd l.mask (classIndex c) false then
    let n := match rd l.latch (classIndex c) none with
      | none => 1
      | some p => min (p.count + 1) 255
    { l with latch := wr l.latch (classIndex c) (some { detail := detail, count := n }) }
  else l

/-- Raise a notice (R192). -/
def notify (c : NoticeClass) (detail : List Field) (s : State) : State := { s with line := s.line.latched c detail }

/-- The first class, in the order of R193, that has a pending entry. -/
def Line.firstPending (l : Line) : Option (NoticeClass × Pending) :=
  allClasses.findSome? fun c => (rd l.latch (classIndex c) none).map fun p => (c, p)

/-- What an idle transmitter sends next: the oldest reply or overrun answer that is ready and has none ahead of it, else
the first pending notice, whose entry empties (R190, R193). -/
def Line.pumped (l : Line) : Line :=
  match l.tx with
  | some _ => l
  | none =>
    match l.slots with
    | .ready r a :: _ => { l with tx := some (.reply r a) }
    | .overrun :: _ => { l with tx := some .overrun }
    | _ =>
      match l.firstPending with
      | some (c, p) => { l with tx := some (.notice c p.count p.detail), latch := wr l.latch (classIndex c) none }
      | none => l

/-- Let the transmitter begin a line where it is idle and main power is on (R193). -/
def pump (s : State) : State := if s.power.phase = .on then { s with line := s.line.pumped } else s

/-- The answer of a command that has its effect: the state, after the transmitter has looked for a line to send. -/
def done (s : State) : Host.Outcome State Fault Refusal := .next (pump s)

/-- A buffer place is held by every line but an overrun mark (R190). -/
def LineSlot.holdsPlace : LineSlot → Bool
  | .overrun => false
  | _ => true

/-- The buffer places held, 0..2 (R190). -/
def Line.places (l : Line) : Nat := (l.slots.filter LineSlot.holdsPlace).length

/-- The overrun marks standing, 0..8 (R190). -/
def Line.marks (l : Line) : Nat := (l.slots.filter fun x => !x.holdsPlace).length

/-- The oldest line not yet taken (R190). -/
def Line.oldestWaiting (l : Line) : Option Instr :=
  l.slots.findSome? fun x => match x with
    | .waiting i _ => some i
    | _ => none

/-- The reception instant of the oldest line not yet taken, in ms of the run clock (R15, R190). -/
def Line.oldestRecv (l : Line) : Option Nat :=
  l.slots.findSome? fun x => match x with
    | .waiting _ t => some t
    | _ => none

/-- Place a line in the order of replies: in a buffer place while one is free, else as an overrun mark while fewer than
8 stand (R190). -/
def Line.placed (l : Line) (x : LineSlot) : Line :=
  if l.places < 2 then { l with slots := l.slots ++ [x] }
  else if l.marks < 8 then { l with slots := l.slots ++ [.overrun] }
  else l

/-- Replace the oldest untaken line by `x`. -/
def takeOldest (x : LineSlot) : List LineSlot → List LineSlot
  | [] => []
  | .waiting _ _ :: l => x :: l
  | y :: l => y :: takeOldest x l

/-- Put what a taken request leaves in the place of the line it was (R190). -/
def Line.answered (l : Line) (x : LineSlot) : Line := { l with slots := takeOldest x l.slots }

/-- The run clock in milliseconds (R3). -/
def State.now (s : State) : Nat := s.tb.runUs / 1000

/-- A request handed over directly is a line that arrives and is taken at once (log 5). -/
def arrived (i : Instr) (s : State) : State :=
  if s.line.oldestWaiting.isSome then s else { s with line := s.line.placed (.waiting i s.now) }

/-- The reception instant of the request being taken, in ms of the run clock (R15). -/
def State.receivedAt (s : State) : Nat := s.line.oldestRecv.getD s.now

/-- Whether a request can be taken at once: main power is on, no RESTART is in progress, and it is the oldest line not
taken, or no line waits and a buffer place is free for it (R190). -/
def canTake (i : Instr) (s : State) : Bool :=
  decide (s.power.phase = .on) && decide (s.line.restart = .none) &&
    match s.line.oldestWaiting with
    | some j => decide (j = i)
    | none => decide (s.line.places < 2)

/-- The line rate taken up once a reply has been sent: that of a LINE RATE that was taken (R194). -/
def rateAfter (i : Instr) (r : Reply) : Option Nat :=
  match i, r with
  | .lineRate k, .ok _ => some k
  | _, _ => none

/-- A request (R190, R191): characters are discarded while the part is not receiving; a request that cannot be taken
at once is a line that arrives and waits; a taken one acts and its reply is ready. SYNTAX comes before every other
check. -/
def request (i : Instr) (act : State → State × Reply) (s : State) : Host.Outcome State Fault Refusal :=
  if canTake i s then
    let s := arrived i s
    let (t, r) := if i.wellFormed then act s else (s, .no .badSyntax [])
    done { t with line := t.line.answered (.ready r (rateAfter i r)) }
  else if s.power.phase = .on then done { s with line := s.line.placed (.waiting i s.now) }
  else .next s

/-- A request accepted in SERVICE and refused MODE in RUN (R191). -/
def serviceOnly (act : State → State × Reply) (s : State) : State × Reply :=
  if s.line.mode = .run then (s, .no .mode []) else act s

/-- A refusal: nothing changes (R191). -/
def refuse (c : Code) (s : State) : State × Reply := (s, .no c [])

/-- A readout: nothing changes. -/
def answer (f : List Field) (s : State) : State × Reply := (s, .ok f)

/-- An ON or OFF field. -/
def onOff (b : Bool) : Field := .word (if b then "ON" else "OFF")

/-- A YES or NO field: the words of the model where a rule says "whether" or calls a flag set or clear (log 76). -/
def yesNo (b : Bool) : Field := .word (if b then "YES" else "NO")

/-- A number field, or "-" where absent. -/
def optNum (n : Option Nat) : Field :=
  match n with
  | some k => .num k
  | none => .absent

end Sys2Proof.Machine
end

