-- ==== Sys2Proof/Machine/Ops.lean ====
section
/-! DEFINITION. The named operations every block uses: the records of numbered units, local time (R1), the counting of
time in oscillator ticks (R2, R3), the instant at which a command finds the part, and the retained copy (R201). -/

namespace Sys2Proof.Machine

/-! ### Records of numbered units -/

/-- Bell `b`'s operational part. -/
def State.bell (s : State) (b : Nat) : Bell := rd s.bells b startBell

/-- Bell `b`'s configuration part. -/
def State.bellCfg (s : State) (b : Nat) : BellCfg := rd s.cfg.bells b (defaultBell b)

/-- Dial `n`'s record. -/
def State.dial (s : State) (n : Nat) : Dial := rd s.dials n (coldDial defaultDial)

/-- Dial `n`'s configuration. -/
def State.dialCfg (s : State) (n : Nat) : DialCfg := rd s.cfg.dials n defaultDial

/-- Swing drive `n`'s record. -/
def State.drive (s : State) (n : Nat) : Drive := rd s.drives n startDrive

/-- Swing drive `n`'s configuration. -/
def State.driveCfg (s : State) (n : Nat) : SwingCfg := rd s.cfg.swings n defaultSwing

/-- Channel `n`'s record. -/
def State.chan (s : State) (n : Nat) : Channel := rd s.lights.chans n startChannel

/-- Channel `n`'s configuration. -/
def State.lightCfg (s : State) (n : Nat) : LightCfg := rd s.cfg.lights n (defaultLight n)

/-- Scene `k`, 0..32; scene 0 is built in (R173). -/
def State.scene (s : State) (k : Nat) : Scene := if k = 0 then darkScene else rd s.cfg.scenes k darkScene

/-- Slot `n`'s directory entry. -/
def State.slot (s : State) (n : Nat) : DirEntry := rd s.store.slots n emptyEntry

/-- Voice `v`. -/
def State.voice (s : State) (v : Nat) : Voice := rd s.voices v freeVoice

/-- Entry `n`'s state and fields. -/
def State.entry (s : State) (n : Nat) : EntryCfg := rd s.cfg.entries n .empty

/-- Entry `n`'s stamp. -/
def State.stamp (s : State) (n : Nat) : Option Nat := rd s.sched.stamps n none

/-- Quarter `q`'s profile. -/
def State.profile (s : State) (q : Nat) : Profile := rd s.clock.profiles q .none

/-- The record with the given id, if it is in the table. -/
def State.perf (s : State) (id : Nat) : Option Perf := s.perfs.find? fun p => p.id = id

/-- Write bell `b`'s operational part. -/
def setBell (b : Nat) (x : Bell) (s : State) : State := { s with bells := wr s.bells b x }

/-- Write dial `n`'s record. Each change is copied to the Retained Memory as it is made (R37). -/
def setDial (n : Nat) (x : Dial) (s : State) : State := { s with dials := wr s.dials n x }

/-- Write swing drive `n`'s record. -/
def setDrive (n : Nat) (x : Drive) (s : State) : State := { s with drives := wr s.drives n x }

/-- Write voice `v`. -/
def setVoice (v : Nat) (x : Voice) (s : State) : State := { s with voices := wr s.voices v x }

/-- Write slot `n`'s directory entry. -/
def setSlot (n : Nat) (x : DirEntry) (s : State) : State :=
  { s with store := { s.store with slots := wr s.store.slots n x } }

/-- Write quarter `q`'s profile. -/
def setProfile (q : Nat) (x : Profile) (s : State) : State :=
  { s with clock := { s.clock with profiles := wr s.clock.profiles q x } }

/-- Replace a record of the performance table, found by its id. -/
def setPerf (p : Perf) (s : State) : State := { s with perfs := s.perfs.map fun q => if q.id = p.id then p else q }

/-- Take a record out of the performance table. -/
def dropPerf (id : Nat) (s : State) : State := { s with perfs := s.perfs.filter fun q => q.id ≠ id }

/-! ### Time -/

/-- The summer-time offset in force, in seconds (R1). -/
def State.offset (s : State) : Nat := if s.tb.flag then s.cfg.summer.offset * 60 else 0

/-- Local time in seconds; it wraps as standard time does (R1, log 8). -/
def State.localSecs (s : State) : Nat := (s.tb.secs + s.offset) % spanSecs

/-- Local time in microseconds. -/
def State.localUs (s : State) : Nat := 1000000 * s.localSecs + s.tb.sub

/-- Local time in whole milliseconds. -/
def State.localMs (s : State) : Nat := s.localUs / 1000

/-- The local day number. -/
def State.localDay (s : State) : Nat := s.localSecs / 86400

/-- The local date-minute, counted from 2000-01-01 00:00. -/
def State.localMinute (s : State) : Nat := s.localSecs / 60

/-- The standard instant of the start of the local minute in force: a boundary's instant (R162). -/
def State.minuteStart (s : State) : Nat := s.tb.secs - s.localSecs % 60

/-- Microseconds gained by counting after `k` ticks of a second of `n` ticks: floor(k × 1,000,000 / n) (R2). -/
def gained (k n : Nat) : Nat := 1000000 * k / n

/-- Count `j` oscillator ticks; standard time and the run clock gain the same microseconds, and standard time stands at
the end of its second until the second end is taken (R2, R3, log 9). -/
def Timebase.count (t : Timebase) (j : Nat) : Timebase :=
  let g := min (gained (t.tick + j) t.len - gained t.tick t.len) (1000000 - t.sub)
  { t with tick := t.tick + j, sub := t.sub + g, runUs := t.runUs + g, osc := t.osc + j }

/-- The ticks that gain `us` microseconds, from where the second stands. -/
def Timebase.ticksFor (t : Timebase) (us : Nat) : Nat :=
  ((gained t.tick t.len + us) * t.len + 999999) / 1000000 - t.tick

/-- Let time pass to the run-clock instant `t` (in µs); absent where it lies beyond the end of the second in progress.
An instant already reached needs no time (log 2). -/
def reachUs (t : Nat) (s : State) : Option State :=
  if t ≤ s.tb.runUs then some s
  else if t - s.tb.runUs ≤ 1000000 - s.tb.sub then
    some { s with tb := s.tb.count (s.tb.ticksFor (t - s.tb.runUs)) }
  else none

/-- Let `w` oscillator ticks pass; absent where the second in progress ends before the last of them (R2, R4, log 3). -/
def elapse (w : Nat) (s : State) : Option State :=
  if w = 0 then some s
  else if s.tb.sub + (gained (s.tb.tick + (w - 1)) s.tb.len - gained s.tb.tick s.tb.len) < 1000000 then
    some { s with tb := s.tb.count w }
  else none

/-- A time-driven event: `due` is the instant (µs of the run clock) at which it falls due, absent where it is not to
come. Its command lets time pass to that instant; where the instant is not in the second in progress, or the event is
not to come, nothing happens (log 2). -/
def timed (due : Option Nat) (body : State → State) (s : State) : Host.Outcome State Fault Refusal :=
  match due with
  | none => .next s
  | some t =>
    match reachUs t s with
    | none => .next s
    | some u => done (body u)

/-- An event from outside, `w` oscillator ticks after the command before it. Nothing reaches the part's inputs while
main power is off or the part is starting up (R19, R189, R202). -/
def outside (w : Nat) (body : State → State) (s : State) : Host.Outcome State Fault Refusal :=
  match elapse w s with
  | none => .fault .pastSecondEnd
  | some u => if u.power.phase = .on then done (body u) else .next u

/-- An event of unit `k` of `n`. -/
def ofUnit (n k : Nat) (out : Host.Outcome State Fault Refusal) : Host.Outcome State Fault Refusal :=
  if unitOk n k then out else .fault .noSuchUnit

/-- An instant in µs of the run clock from one in ms, where the part is running. -/
def State.dueMs (s : State) (t : Option Nat) : Option Nat :=
  if s.power.phase = .on then t.map (1000 * ·) else none

/-! ### The Retained Memory -/

/-- The Retained Memory's content. Each change of a record is copied as it is made, so the copy is a view of the
records (R201, log 14). -/
def State.retained (s : State) : Retained :=
  { secs := s.tb.secs
    set := s.tb.set
    trim := s.tb.trim
    lostAt := s.power.lostAt
    dials := s.dials.map fun d =>
      { pos := d.pos, pol := d.pol, isOpen := d.isOpen, stored := d.stored, count := d.count, slips := d.slips
        noon := d.noon, step := d.step }
    today := s.clock.today
    yesterday := s.clock.yesterday
    early := s.clock.early
    frontier := s.clock.frontier
    stamps := s.sched.stamps
    lastEval := s.sched.lastEval
    strikeEnd := s.sched.strikeEnd
    tunesEnd := s.sched.tunesEnd }

/-! ### Operands shared by several requests -/

/-- F of a bell at an intensity (R53). -/
def flyTime (c : BellCfg) : Intensity → Nat
  | .soft => c.fSoft
  | .normal => c.fNormal
  | .strong => c.fStrong

/-- W of a bell at an intensity (R53). -/
def pulseWidth (c : BellCfg) : Intensity → Nat
  | .soft => c.wSoft
  | .normal => c.wNormal
  | .strong => c.wStrong

end Sys2Proof.Machine
end

