-- ==== Sys2Proof/Machine/Operands.lean ====
section
/-! DEFINITION. The operand forms of the requests: which field values are refused RANGE, which are clamped, and how the
fields are written in replies (R191). -/

namespace Sys2Proof.Machine

/-! ### Ranges and clamps -/

/-- The fields of a change specification lie in their values (R26). -/
def changeSpecOk (c : ChangeSpec) : Bool :=
  1 ≤ c.month && c.month ≤ 12 && c.hour ≤ 23 &&
    match c.ordinal with
    | .nth n => 1 ≤ n && n ≤ 4
    | .last => true

/-- The nine fields of the summer-time rule lie in their values (R26). -/
def summerOk (r : SummerRule) : Bool :=
  (r.offset = 0 || r.offset = 30 || r.offset = 60) && changeSpecOk r.start && changeSpecOk r.stop

/-- The fields of a dial configuration that are refused RANGE (R35). -/
def dialOk (c : DialCfg) : Bool := (c.step = 30 || c.step = 60) && c.tolerance ≤ 5

/-- The clamped fields of a dial configuration; the width is then rounded down to a multiple of 10 ms (R35). -/
def clampDial (c : DialCfg) : DialCfg :=
  { c with width := clampN c.width 100 2000 / 10 * 10, interval := clampN c.interval 500 10000, hold := clampN c.hold 0 180 }

/-- The clamped fields of a bell configuration (R53). -/
def clampBell (c : BellCfg) : BellCfg :=
  { c with
    fSoft := clampN c.fSoft 20 400, fNormal := clampN c.fNormal 20 400, fStrong := clampN c.fStrong 20 400
    wSoft := clampN c.wSoft 10 200, wNormal := clampN c.wNormal 10 200, wStrong := clampN c.wStrong 10 200
    recovery := clampN c.recovery 60 2000, crowd := clampN c.crowd 0 250, half := clampN c.half 5 100
    missLimit := clampN c.missLimit 1 8 }

/-- A scene field: absent (NONE) or 0..32. -/
def sceneOk (k : Option Nat) : Bool :=
  match k with
  | none => true
  | some n => n ≤ 32

/-- A local hh:mm. -/
def hmOk (h m : Nat) : Bool := h ≤ 23 && m ≤ 59

/-- The fields of the clock settings that are refused RANGE (R103). -/
def clockOk (c : ClockCfg) : Bool :=
  c.q1 ≤ 64 && c.q2 ≤ 64 && c.q3 ≤ 64 && c.q4 ≤ 64 && unitOk 24 c.hourBell && c.standIn ≤ 24 &&
    c.standIn ≠ c.hourBell && c.master ≤ 4 && hmOk c.nightStartH c.nightStartM && hmOk c.nightEndH c.nightEndM &&
    sceneOk c.scene

/-- The clamped fields of the clock settings (R103). -/
def clampClock (c : ClockCfg) : ClockCfg := { c with gap := clampN c.gap 10 100, spacing := clampN c.spacing 10 60 }

/-- The fields of the panel toll settings that are refused RANGE (R121). -/
def panelTollOk (c : PanelTollCfg) : Bool := unitOk 24 c.bell && sceneOk c.scene

/-- The clamped fields of the panel toll settings (R121). -/
def clampPanelToll (c : PanelTollCfg) : PanelTollCfg :=
  { c with interval := clampN c.interval 10 600, wait := clampN c.wait 0 600 }

/-- The clamped fields of a swing drive's configuration (R123). -/
def clampSwing (c : SwingCfg) : SwingCfg :=
  { c with raise := clampN c.raise 60 600, settle := clampN c.settle 10 120, half := clampN c.half 5 30 }

/-- The clamped fields of a channel's configuration (R172). -/
def clampLight (c : LightCfg) : LightCfg :=
  { c with lampout := clampN c.lampout 40 90, overPct := clampN c.overPct 120 250, floor := clampN c.floor 256 4095 }

/-- The fields of the site settings that are refused RANGE (R174). -/
def siteOk (c : SiteCfg) : Bool := c.fallback ≤ 32 && c.threshold ≤ 255 && c.hysteresis ≤ 64

/-- The clamped fields of the site settings (R174). -/
def clampSite (c : SiteCfg) : SiteCfg :=
  { c with panelLevel := clampN c.panelLevel 0 4095, panelFade := clampN c.panelFade 0 6000 }

/-- A fade field: clamped to 0..6000, 0 when not given (R178, R184). -/
def fadeOf (f : Option Nat) : Nat := clampN (f.getD 0) 0 6000

/-- A wait limit field: clamped to 0..600 s, 0 when not given (R99, R100, R134). -/
def waitOf (w : Option Nat) : Nat := clampN (w.getD 0) 0 600

/-- A scale field: clamped to 50..200 percent, 100 when not given (R86, R99). -/
def scaleOf (k : Option Nat) : Nat := clampN (k.getD 100) 50 200

/-- A value of an optional pattern field lies in a range; absent (ANY) passes (R155). -/
def optIn (v : Option Nat) (lo hi : Nat) : Bool :=
  match v with
  | none => true
  | some n => lo ≤ n && n ≤ hi

/-- The time form's numbers lie in their ranges (R155). -/
def entryTimeOk : EntryTime → Bool
  | .fixed h m => optIn h 0 23 && m ≤ 59
  | .sunrise o => -180 ≤ o && o ≤ 180
  | .sunset o _ => -180 ≤ o && o ≤ 180

/-- The action's numbers that are refused RANGE (R156). -/
def entryActionOk : EntryAction → Bool
  | .play slot _ scene => unitOk 64 slot && sceneOk scene
  | .toll bell _ count _ => unitOk 24 bell && count ≤ 999
  | .ring ds _ _ => ds.all (unitOk 4)
  | .scene k => k ≤ 32
  | .silence _ _ => true

/-- The action's clamped numbers (R156). -/
def clampAction : EntryAction → EntryAction
  | .play slot scale scene => .play slot (clampN scale 50 200) scene
  | .toll bell interval count i => .toll bell (clampN interval 10 600) count i
  | .ring ds stagger duration => .ring ds (clampN stagger 0 60) (clampN duration 0 120)
  | .scene k => .scene k
  | .silence scope duration => .silence scope (clampN duration 1 1440)

/-- The fields of an entry that are refused RANGE (R156): a feast offset needs month and day ANY. -/
def entryOk (f : EntryFields) : Bool :=
  optIn f.year 2000 2199 && optIn f.month 1 12 && optIn f.day 1 31 && entryTimeOk f.time && entryActionOk f.action &&
    match f.feast with
    | none => true
    | some o => -63 ≤ o && o ≤ 63 && f.month.isNone && f.day.isNone

/-- The divisions a tune may have (R139). -/
def divisionOk (d : Nat) : Bool := d = 1 || d = 2 || d = 3 || d = 4 || d = 6 || d = 8 || d = 12

/-! ### Words and fields of replies -/

/-- A weekday's three letters (R22). -/
def weekdayName : Weekday → String
  | .mon => "MON" | .tue => "TUE" | .wed => "WED" | .thu => "THU" | .fri => "FRI" | .sat => "SAT" | .sun => "SUN"

/-- An intensity's name (R85). -/
def intensityName : Intensity → String
  | .soft => "SOFT" | .normal => "NORMAL" | .strong => "STRONG"

/-- A polarity's name (R37). -/
def polarityName : Polarity → String
  | .positive => "POSITIVE" | .negative => "NEGATIVE"

/-- A scene field, or NONE. -/
def sceneField (k : Option Nat) : Field :=
  match k with
  | none => .word "NONE"
  | some n => .num n

/-- A day number as a date. -/
def dayField (n : Nat) : Field :=
  let d := dateOf n
  .date d.year d.month d.day

/-- A minute of the day as hh:mm. -/
def minuteField (m : Nat) : Field := .hm (m / 60) (m % 60)

/-- An instant in seconds from 2000-01-01 as a date and a time of day. -/
def instantFields (t : Nat) : List Field :=
  [dayField (t / 86400), .tod (t / 3600 % 24) (t / 60 % 60) (t % 60) 0]

/-- A date-minute as a local date and hh:mm. -/
def dateMinuteFields (m : Nat) : List Field := [dayField (m / 1440), minuteField (m % 1440)]

/-- Change values: start and end instants, or INERT (R33). -/
def changeFields (c : Option (Nat × Nat)) : List Field :=
  match c with
  | none => [.word "INERT"]
  | some (a, b) => instantFields a ++ instantFields b

/-- A change specification's four fields (R26). -/
def changeSpecFields (c : ChangeSpec) : List Field :=
  [.num c.month, (match c.ordinal with | .nth n => .num n | .last => .word "LAST"), .word (weekdayName c.weekday), .num c.hour]

/-- The nine fields of the summer-time rule in the order SUMMER takes them (R33). -/
def summerFields (r : SummerRule) : List Field := .num r.offset :: changeSpecFields r.start ++ changeSpecFields r.stop

/-- A dial configuration in the order DIAL CONFIG takes it (R48). -/
def dialFields (c : DialCfg) : List Field :=
  [.num c.step, yesNo c.polarised, .num c.width, .num c.interval, .num c.hold, yesNo c.noon, .num c.tolerance]

/-- A bell configuration in the order BELL CONFIG takes it (R68). -/
def bellFields (c : BellCfg) : List Field :=
  [.word c.name, yesNo c.hammer, .num c.fSoft, .num c.fNormal, .num c.fStrong, .num c.wSoft, .num c.wNormal
  , .num c.wStrong, .num c.recovery, .num c.crowd, yesNo c.confirm, .num c.half, .num c.missLimit, .num c.drive]

/-- The clock settings in the order CLOCK CONFIG takes them (R119). -/
def clockFields (c : ClockCfg) : List Field :=
  [.num c.q1, .num c.q2, .num c.q3, .num c.q4
  , .word (match c.mode with | .all => "ALL" | .hoursOnly => "HOURS_ONLY" | .off => "OFF")
  , .word (match c.align with | .start => "START" | .stop => "END")
  , .num c.gap, .num c.spacing, .num c.hourBell, .num c.standIn, .num c.master, onOff c.carry
  , .hm c.nightStartH c.nightStartM, .hm c.nightEndH c.nightEndM
  , .word (match c.scope with | .quarters => "QUARTERS" | .all => "ALL"), sceneField c.scene]

/-- The four levels in the order CLOCK LEVELS takes them (R119). -/
def levelFields (l : Levels) : List Field := [.num l.swing, .num l.toll, .num l.clock, .num l.tune]

/-- The panel toll settings (R121). -/
def panelTollFields (c : PanelTollCfg) : List Field :=
  [.num c.bell, .num c.interval, .word (intensityName c.intensity), .num c.wait, sceneField c.scene]

/-- A swing drive's configuration (R136). -/
def swingFields (c : SwingCfg) : List Field := [.num c.bell, .num c.raise, .num c.settle, .num c.half, yesNo c.brake]

/-- A channel's configuration (R187). -/
def lightFields (c : LightCfg) : List Field := [.word c.name, .num c.nominal, .num c.lampout, .num c.overPct, .num c.floor]

/-- The site settings (R187). -/
def siteFields (c : SiteCfg) : List Field :=
  [.num c.fallback, .num c.panelLevel, .num c.panelFade, .num c.threshold, .num c.hysteresis]

/-- A number or ANY (R156). -/
def anyField (v : Option Nat) : Field :=
  match v with
  | none => .word "ANY"
  | some n => .num n

/-- The weekdays of an entry in one field: ALL, or their list as it was written (R156, log 79). -/
def weekdayField (ws : List Weekday) : Field := if ws.length = 7 then .word "ALL" else .words (ws.map weekdayName)

/-- The form and time of an entry (R156). -/
def entryTimeFields : EntryTime → List Field
  | .fixed h m => [.word "FIXED", anyField h, .num m]
  | .sunrise o => [.word "SUNRISE", .num o]
  | .sunset o e => [.word "SUNSET", .num o] ++ if e then [.word "EARLY"] else []

/-- The action of an entry and its fields (R156). -/
def entryActionFields : EntryAction → List Field
  | .play slot scale scene => [.word "PLAY", .num slot, .num scale, sceneField scene]
  | .toll bell interval count i => [.word "TOLL", .num bell, .num interval, .num count, .word (intensityName i)]
  | .ring ds stagger duration => [.word "RING", .list ds, .num stagger, .num duration]
  | .scene k => [.word "SCENE", .num k]
  | .silence scope duration =>
    [.word "SILENCE", .word (match scope with | .strike => "STRIKE" | .tunes => "TUNES" | .all => "ALL"), .num duration]

/-- The fields of an entry in the order ENTRY WRITE takes them (R170). -/
def entryFields (f : EntryFields) : List Field :=
  [ anyField f.year, anyField f.month, anyField f.day, weekdayField f.weekdays
  , match f.feast with | none => Field.word "NONE" | some o => .num o ] ++ entryTimeFields f.time ++ entryActionFields f.action

end Sys2Proof.Machine
end

