-- ==== Sys2Proof/Machine/LightOps.lean ====
section
/-! DEFINITION. The Lighting Controller's operations: resolving the three layers (R175), base changes (R176), the
contribution list (R177), overrides (R178, R179) and fades (R180). -/

namespace Sys2Proof.Machine

/-- The resolved level of a channel: override, else performance value, else base value, else 0 (R175). -/
def Channel.resolved (c : Channel) : Nat :=
  match c.override with
  | some o => o.level
  | none => (c.perf.orElse fun _ => c.base).getD 0

/-- Start a fade to a target at instant `now` with length `n` tenths; with n = 0 the output takes the target at once
(R180). A channel in TRIPPED keeps its target and starts no fade (R175). -/
def Channel.startFade (c : Channel) (tg n now : Nat) : Channel :=
  if c.lamp = .tripped then { c with target := tg }
  else if n = 0 then { c with target := tg, output := tg, fade := none, lastFadeEnd := now }
  else { c with target := tg, fade := some { start := c.output, target := tg, len := n, k := 0, next := now + 100 } }

/-- Resolve a channel after a change of a layer whose fade time is `n`: an unchanged target starts no fade (R175). -/
def Channel.resolve (c : Channel) (n now : Nat) : Channel :=
  if c.resolved = c.target then c else c.startFade c.resolved n now

/-- The output during a fade: S + ((Tg − S) × k / N, truncated toward zero) (R180). -/
def fadeOutput (f : Fade) : Nat := ((f.start : Int) + truncDiv (((f.target : Int) - f.start) * f.k) f.len).toNat

/-- Write a channel. A measurement of it in progress is spoiled when its output changes or it becomes TRIPPED
(R182). -/
def setChan (n : Nat) (c : Channel) (s : State) : State :=
  let spoil := decide (c.output ≠ (s.chan n).output) || decide (c.lamp = .tripped)
  { s with lights :=
    { s.lights with
      chans := wr s.lights.chans n c
      conv := s.lights.conv.map fun m => if m.channel = some n ∧ spoil then { m with spoiled := true } else m } }

/-- Change every channel of a list in turn. -/
def onChans (f : Nat → Channel → Channel) (ns : List Nat) (s : State) : State :=
  ns.foldl (fun t n => setChan n (f n (t.chan n)) t) s

/-- The sixteen channel numbers. -/
def allChans : List Nat := (List.range 16).map (· + 1)

/-- A base change as one channel sees it: a NEXT override ends, the base value is written, the target is resolved with
the fade time of the change (R176). -/
def Channel.baseChange (c : Channel) (base : Option Nat) (n now : Nat) : Channel :=
  let o := match c.override with
    | some o => if o.mode = .next then none else some o
    | none => none
  Channel.resolve { c with override := o, base := base } n now

/-- A partial base change: a SCENE entry fires (R164, R176). -/
def partialBase (sc : Scene) (s : State) : State :=
  onChans (fun n c =>
    match rd sc.levels n none with
    | some l => c.baseChange (some l) sc.fade s.now
    | none => c) allChans s

/-- A whole base change: every channel takes the level and fade time given to it, or no base value and fade time 0
(R176). -/
def wholeBase (v : Vector (Option (Nat × Nat)) 16) (s : State) : State :=
  onChans (fun n c =>
    match rd v n none with
    | some (l, f) => c.baseChange (some l) f s.now
    | none => c.baseChange none 0 s.now) allChans s

/-- The levels of a scene as a whole base change. -/
def sceneBase (sc : Scene) : Vector (Option (Nat × Nat)) 16 := sc.levels.map fun l => l.map fun x => (x, sc.fade)

/-- Apply the fallback: the fallback scene when it is DARK, scene 0 otherwise, as a whole base change (R186). -/
def applyFallback (s : State) : State :=
  wholeBase (sceneBase (if s.lights.dusk = .dark then s.scene s.cfg.site.fallback else darkScene)) s

/-- A channel's performance value: the level of the first contribution whose scene holds it (R177). -/
def contributed (l : List Contribution) (n : Nat) : Option Nat := l.findSome? fun c => rd c.scene.levels n none

/-- The contribution that gives a channel its performance value (R187). -/
def contributor (l : List Contribution) (n : Nat) : Option Nat :=
  (l.find? fun c => (rd c.scene.levels n none).isSome).map (·.perf)

/-- Give the list a new content; each channel whose performance value changes is resolved with fade time `n` (R177). -/
def setContribs (l : List Contribution) (fade : Nat) (s : State) : State :=
  onChans (fun n c =>
    if contributed l n = c.perf then c else Channel.resolve { c with perf := contributed l n } fade s.now) allChans
    { s with lights := { s.lights with contribs := l } }

/-- The order of the list: ascending level, then ascending admission order (R177). -/
def contribLt (a b : Contribution) : Bool := a.level < b.level || (a.level = b.level && a.order < b.order)

/-- A performance hands its scene over; its contents are copied (R93, R173, R177). -/
def joinScene (perf level order : Nat) (scene : Option Nat) (s : State) : State :=
  match scene with
  | none => s
  | some k =>
    let sc := s.scene k
    setContribs (insertBy contribLt { perf := perf, level := level, order := order, scene := sc } s.lights.contribs)
      sc.fade s

/-- A performance's scene is withdrawn, with that scene's fade time (R93, R177). -/
def leaveScene (perf : Nat) (s : State) : State :=
  match s.lights.contribs.find? fun c => c.perf = perf with
  | none => s
  | some c => setContribs (s.lights.contribs.filter fun x => x.perf ≠ perf) c.scene.fade s

/-- Set or remove an override on the channels of a list, with a fade time (R178, R179). -/
def setOverride (o : Option Override) (fade : Nat) (ns : List Nat) (s : State) : State :=
  onChans (fun _ c => Channel.resolve { c with override := o } fade s.now) ns s

/-- The channels a LIGHT field names: one, or all sixteen (R178). -/
def chansOf : Option Nat → List Nat
  | some n => [n]
  | none => allChans

/-! ### The converter (R182) -/

/-- A channel is eligible for a lamp measurement (R182). -/
def eligible (s : State) (n : Nat) : Bool :=
  let c := s.chan n
  let g := s.lightCfg n
  0 < g.nominal && c.lamp ≠ .tripped && g.floor ≤ c.output && c.fade.isNone && c.lastFadeEnd + 2000 ≤ s.now

/-- The next eligible channel after the last one measured (R182). -/
def nextEligible (s : State) : Option Nat :=
  ((List.range 16).map fun i => (s.lights.lastMeasured + i) % 16 + 1).find? (eligible s)

/-- The lamp slot takes the converter: the next eligible channel's measurement begins, or the slot passes (R182). -/
def beginLamp (s : State) : State :=
  match nextEligible s with
  | none => s
  | some n =>
    { s with lights :=
      { s.lights with
        lastMeasured := n
        conv := some { channel := some n, level := (s.chan n).output, ends := s.now + 1, spoiled := false } } }

/-- The dusk sample takes the converter (R182). -/
def beginDusk (s : State) : State :=
  { s with lights :=
    { s.lights with conv := some { channel := none, level := 0, ends := s.now + 1, spoiled := false } } }

/-- The converter falls free, and a request that waited takes it (R182); the dusk sample first, where both wait: the choice of
the model (log 87). -/
def freeConverter (s : State) : State :=
  let s := { s with lights := { s.lights with conv := none } }
  if s.lights.duskWaits then beginDusk { s with lights := { s.lights with duskWaits := false } }
  else if s.lights.lampWaits then beginLamp { s with lights := { s.lights with lampWaits := false } }
  else s

end Sys2Proof.Machine
end

