-- ==== Sys2Proof/Machine/StoreOps.lean ====
section
/-! DEFINITION. The Tune Store's operations: the array and its pages (R138), directory records (R140), the free list
(R141), the operation queue and the read list (R142, R143), the image area (R151, R152) and the directory scan (R153). -/

namespace Sys2Proof.Machine

/-! ### The array -/

/-- The content of a page: 32 events, the empty event where the page is blank. -/
def pageAt (st : Store) (sector page : Nat) : List Event :=
  (rd (rd st.sectors (sector + 1) blankSector) (page + 1) none).getD (List.replicate 32 Event.empty)

/-- The sector and page that hold page `k` of a slot (R138). -/
def placeOf (e : DirEntry) (k : Nat) : Option (Nat × Nat) := (e.sectors[k / 16]?).map fun sec => (sec, k % 16)

/-- Event `i` of a slot's tune, as it stands on the array (R138). -/
def tuneEvent (s : State) (slot i : Nat) : Option Event :=
  let e := s.slot slot
  if i < e.events then
    match placeOf e (i / 32) with
    | some (sec, pg) => (pageAt s.store sec pg)[i % 32]?
    | none => none
  else none

/-- A page padded to 32 events with the empty event (R147, R148). -/
def padPage (es : List Event) : List Event := es ++ List.replicate (32 - es.length) Event.empty

/-! ### Directory records -/

/-- The record the scan takes: the valid record with the greater sequence (R140). -/
def currentRecord (a b : DirRecord) : DirRecord :=
  if a.valid ∧ b.valid then (if a.seq < b.seq then b else a) else if b.valid then b else a

/-- Which record a write takes and the count it carries: the record with the smaller count, the first when they are
equal, and always the one that is not valid (R140). True is the second record. -/
def nextRecord (a b : DirRecord) : Bool × Nat :=
  if a.valid ∧ b.valid then (decide (b.seq < a.seq), max a.seq b.seq + 1)
  else if a.valid then (true, a.seq + 1)
  else (false, b.seq + 1)

/-- The entry a directory write records: the slot's entry as it stands when the write begins, as CLOSED for the closing
write of a slot still WRITING and as EMPTY for the final write of a slot still ERASING (R140, R148, R149). -/
def entryToWrite (e : DirEntry) : DirPurpose → DirEntry
  | .plain => e
  | .closing => if e.state = .writing then { e with state := .closed } else e
  | .final => if e.state = .erasing then emptyEntry else e

/-! ### Images -/

/-- The sequence and content of an image sector that is VALID (R151). -/
def imageOf (v : ImageSector) : Option (Nat × Image) :=
  match rd v 1 none with
  | none => none
  | some (q, im) => if v.toList.all fun p => (p.map (·.1)) = some q then some (q, im) else none

/-- The current image: its sector (true is B), sequence and content (R151). -/
def currentImage (st : Store) : Option (Bool × Nat × Image) :=
  match imageOf st.imgA, imageOf st.imgB with
  | some (p, a), some (q, b) => if p < q then some (true, q, b) else some (false, p, a)
  | some (p, a), none => some (false, p, a)
  | none, some (q, b) => some (true, q, b)
  | none, none => none

/-- Write an image sector. -/
def setImageSector (b : Bool) (v : ImageSector) (st : Store) : Store :=
  if b then { st with imgB := v } else { st with imgA := v }

/-- An image sector. -/
def imageSector (b : Bool) (st : Store) : ImageSector := if b then st.imgB else st.imgA

/-! ### Operations -/

/-- The time of a queued operation in ms (R142, R152). -/
def opTime : QueueOp → Nat
  | .program _ _ _ _ => 6
  | .erase _ _ => 150
  | .dirWrite _ _ => 6
  | .imageErase _ => 150
  | .imageProgram _ _ _ _ => 6

/-- The entries an erase resumption adds: the erases of the sectors left, then the final directory write (R153). -/
def resumption (st : Store) (slot : Nat) : List QueueOp :=
  (rd st.slots slot emptyEntry).sectors.map (QueueOp.erase slot) ++ [.dirWrite slot .final]

/-- Held resumptions join the queue in ascending slot order, each only when all its entries have room (R153). -/
def joinResumptions (st : Store) : List Nat → Store
  | [] => { st with resume := [] }
  | n :: l =>
    if st.queue.length + (resumption st n).length ≤ 8 then
      joinResumptions { st with queue := st.queue ++ resumption st n } l
    else { st with resume := n :: l }

/-- The read that begins: a tune page is found from the slot's sector list as it stands at that instant, an image page
from the image current at that instant (R143, R152). -/
def beginRead (st : Store) (q : ReadReq) : Running :=
  match q.reader with
  | .voice _ | .build _ =>
    match placeOf (rd st.slots q.slot emptyEntry) q.page with
    | some (sec, pg) => .read q (pageAt st sec pg) none
    | none => .read q (List.replicate 32 Event.empty) none
  | .scan _ => .read q [] none
  | .image _ => .read q [] (currentImage st)

/-- The queued operation that begins; a directory write takes its entry and record now (R140). -/
def beginQueued (st : Store) : QueueOp → Running
  | .dirWrite n p =>
    let (second, seq) := nextRecord (rd st.recA n blankRecord) (rd st.recB n blankRecord)
    .writing n p second { valid := true, seq := seq, entry := entryToWrite (rd st.slots n emptyEntry) p }
  | q => .queued q

/-- When the store is idle, the next operation begins: the oldest read, else the oldest queued entry (R142). -/
def Store.begun (st : Store) (now : Nat) : Store :=
  match st.op with
  | some _ => st
  | none =>
    match st.reads with
    | q :: l => { st with reads := l, op := some (beginRead st q, now + 2) }
    | [] =>
      match st.queue with
      | q :: l => { st with queue := l, op := some (beginQueued st q, now + opTime q) }
      | [] => st

/-- Let resumptions join, let the next operation begin, and let resumptions join the room it leaves (R142, R153). -/
def kick (s : State) : State :=
  let st := joinResumptions s.store s.store.resume
  let st := st.begun s.now
  { s with store := joinResumptions st st.resume }

/-- Ask for a page read; the answer is its serial number (R143). -/
def askRead (r : Reader) (slot page : Nat) (s : State) : State × Nat :=
  let k := s.store.serial + 1
  (kick { s with store :=
    { s.store with serial := k, reads := s.store.reads ++ [{ reader := r, serial := k, slot := slot, page := page }] } }, k)

/-- Whether the queue has room for `k` entries; none while an erase resumption is held (R142, R153). -/
def hasRoom (k : Nat) (s : State) : Bool := s.store.resume.isEmpty && s.store.queue.length + k ≤ 8

/-- Add entries to the queue, together and in order (R142). -/
def enqueue (l : List QueueOp) (s : State) : State := kick { s with store := { s.store with queue := s.store.queue ++ l } }

/-! ### The free list -/

/-- Put a sector on the free list, which is kept in ascending order (R141). -/
def freeSector (n : Nat) (l : List Nat) : List Nat := if l.contains n then l else insertBy (fun a b => a < b) n l

/-- The sectors named in some slot's list. -/
def ownedSectors (st : Store) : List Nat := st.slots.toList.flatMap (·.sectors)

/-! ### Image load -/

/-- Begin an image load: six page reads join the read list (R152). -/
def startImageLoad (s : State) : State :=
  let k := s.store.serial + 1
  kick { s with store :=
    { s.store with
      serial := k
      imgLoad := some { serial := k, pages := 0, src := none }
      reads := s.store.reads ++ (List.range 6).map fun p => { reader := .image p, serial := k, slot := 0, page := p } } }

/-- An image page has been read. The answer is the image when its sixth page has come from one sector and sequence; a
load whose current image has changed meanwhile begins again (R152), also where the earlier one is still VALID: the
reading of the model (log 78). -/
def imagePageRead (src : Option (Bool × Nat × Image)) (serial : Nat) (s : State) : State × Option Image :=
  match s.store.imgLoad with
  | none => (s, none)
  | some ld =>
    if ld.serial ≠ serial then (s, none)
    else
      match src, (if ld.pages = 0 then src else ld.src) with
      | some (b, q, im), some (b', q', _) =>
        if b = b' ∧ q = q' then
          if ld.pages + 1 = 6 then ({ s with store := { s.store with imgLoad := none } }, some im)
          else ({ s with store := { s.store with imgLoad := some { ld with pages := ld.pages + 1, src := src } } }, none)
        else (startImageLoad s, none)
      | _, _ => (startImageLoad s, none)

/-! ### The directory scan -/

/-- Whether another slot keeps a sector that this ERASING slot names: any slot in another state, or a lower-numbered
ERASING one (R153, step 2). -/
def claimedElsewhere (es : Vector DirEntry 64) (n sector : Nat) : Bool :=
  (List.range 64).any fun i =>
    let e := rd es (i + 1) emptyEntry
    i + 1 ≠ n && e.sectors.contains sector && (e.state ≠ .erasing || i + 1 < n)

/-- Settle a slot's double claims and its state (R153, steps 2 and 3). -/
def scanned (es : Vector DirEntry 64) (n : Nat) : DirEntry :=
  let e := rd es n emptyEntry
  match e.state with
  | .erasing => { e with sectors := e.sectors.filter fun sec => !claimedElsewhere es n sec }
  | .writing => { e with state := .incomplete }
  | _ => e

/-- The slots in a state, in ascending order. -/
def slotsIn (es : Vector DirEntry 64) (x : SlotState) : List Nat :=
  ((List.range 64).map (· + 1)).filter fun n => (rd es n emptyEntry).state = x

/-- The directory scan: records, double claims, states, free list; loading record free, queue empty, resumptions held
(R153). -/
def scanDirectory (st : Store) : Store :=
  let recs := tableOf 64 fun n => (currentRecord (rd st.recA n blankRecord) (rd st.recB n blankRecord)).entry
  let es := tableOf 64 fun n => scanned recs n
  let owned := es.toList.flatMap (·.sectors)
  { st with
    slots := es
    free := (List.range 64).filter fun sec => !owned.contains sec
    load := none
    queue := []
    resume := slotsIn es .erasing }

end Sys2Proof.Machine
end

