-- ==== Sys2Proof/Machine/DialOps.lean ====
section
/-! DEFINITION. The Dial Drive's derived quantities (R35, R38, R39), when an impulse is due (R40), and the entry of a
dial into SEARCHING, UNKNOWN and FAULT (R43 to R45). -/

namespace Sys2Proof.Machine

/-- Positions per half-day, P = 43,200 / s (R35). -/
def positions (c : DialCfg) : Nat := 43200 / c.step

/-- The hold window in positions, h = H × 60 / s (R35). -/
def holdWindow (c : DialCfg) : Nat := c.hold * 60 / c.step

/-- The fault limit, P plus the tolerance (R35). -/
def faultLimit (c : DialCfg) : Nat := positions c + c.tolerance

/-- The target t: floor(x / s), x the local seconds since the last 00:00:00 or 12:00:00 (R38). -/
def dialTarget (s : State) (n : Nat) : Nat := s.localSecs % 43200 / (s.dialCfg n).step

/-- The difference d = (t − p) mod P of a dial whose position is known (R38). -/
def dialDiff (s : State) (n p : Nat) : Nat :=
  let c := s.dialCfg n
  (dialTarget s n + positions c - p) % positions c

/-- A dial's reported state (R39). -/
def dialState (s : State) (n : Nat) : DialState :=
  let c := s.dialCfg n
  let x := s.dial n
  match x.stored with
  | .searching => .searching
  | .unknown => .unknown
  | .stopped => .stopped
  | .fault => .fault
  | .derived =>
    let d := dialDiff s n (x.pos.getD 0)
    if d ≤ 1 then .inStep else if d ≤ positions c - holdWindow c then .advancing else .holding

/-- A dial state's name. -/
def dialStateName : DialState → String
  | .inStep => "IN_STEP" | .advancing => "ADVANCING" | .holding => "HOLDING" | .searching => "SEARCHING"
  | .unknown => "UNKNOWN" | .stopped => "STOPPED" | .fault => "FAULT"

/-- The clock may strike by its master dial: none is named, or it is IN_STEP (R111, R113). -/
def masterInStep (s : State) : Bool := s.cfg.clock.master = 0 || dialState s s.cfg.clock.master = .inStep

/-- The condition of R40 on state, position and time state. -/
def impulseWanted (s : State) (n : Nat) : Bool :=
  let c := s.dialCfg n
  let x := s.dial n
  let behind := fun p => let d := dialDiff s n p; 1 ≤ d && d ≤ positions c - holdWindow c
  match x.stored with
  | .searching => true
  | .derived => s.tb.set && behind (x.pos.getD 0)
  | .fault => s.tb.set && (match x.pos with | some p => behind p | none => true)
  | .unknown => false
  | .stopped => false

/-- The instant, in µs of the run clock, at which an impulse is due to dial `n` (R40). -/
def impulseDue (n : Nat) (s : State) : Option Nat :=
  let x := s.dial n
  if s.power.phase = .on ∧ !x.isOpen ∧ impulseWanted s n then
    match x.last with
    | none => some s.tb.runUs
    | some l => some (max s.tb.runUs (1000 * (l + (s.dialCfg n).interval)))
  else none

/-- The instant at which an open impulse ends (R41). -/
def impulseEndDue (n : Nat) (s : State) : Option Nat :=
  let x := s.dial n
  s.dueMs (if x.isOpen then some x.openEnd else none)

/-- The stored state a dial with position UNKNOWN takes when it is not STOPPED: SEARCHING, count 0, where its contact is
fitted, else UNKNOWN (R44, R45). -/
def seekOrUnknown (c : DialCfg) (x : Dial) : Dial :=
  if c.noon then { x with stored := .searching, count := 0 } else { x with stored := .unknown }

/-- The effect of a change of the noon field on a dial (R35, R52). A STOPPED dial stays STOPPED (log 57); whether the noon
input has been open is kept (log 58). -/
def noonFieldChanged (old new : DialCfg) (x : Dial) : Dial :=
  if old.noon ∧ !new.noon ∧ (x.stored = .searching ∨ (x.stored = .fault ∧ x.pos = none)) then { x with stored := .unknown }
  else if !old.noon ∧ new.noon ∧ x.stored = .unknown then { x with stored := .searching, count := 0 }
  else x

/-- A position field of a reply: UNKNOWN where it is not known. -/
def posField : Option Nat → Field
  | some p => .num p
  | none => .word "UNKNOWN"

/-- The start of an impulse, in the order of R41; `now` is the instant. The first component says that the dial entered
FAULT at it (R43, R44). -/
def startImpulse (c : DialCfg) (now : Nat) (x : Dial) : Bool × Dial :=
  let faults := c.noon && (x.stored = .derived || x.stored = .searching) && faultLimit c ≤ x.count
  let x := if faults then { x with stored := .fault, noon := .missed } else x
  let x := { x with pos := x.pos.map fun p => (p + 1) % positions c }
  let drive := if c.polarised then x.pol else .positive
  let flip := match x.pol with | .positive => Polarity.negative | .negative => Polarity.positive
  let x := { x with pol := if c.polarised then flip else x.pol, out := some drive }
  (faults, { x with isOpen := true, count := sat16 (x.count + 1), last := some now, openEnd := now + c.width })

/-- The check of R42 at a closure of a dial with known position `p`: the record after it, and whether it slipped. -/
def noonCheck (c : DialCfg) (p : Nat) (x : Dial) : Bool × Dial :=
  if min p (positions c - p) ≤ c.tolerance then (false, { x with count := 0, noon := .good })
  else (true, { x with pos := some 0, slips := sat16 (x.slips + 1), count := 0, noon := .slip })

end Sys2Proof.Machine
end

