-- ==== Sys2Proof/Machine/SheetOps.lean ====
section
/-! DEFINITION. The day sheets: writing an outcome (R114, R115), counting masked strokes (R115), and rolling the sheets
(R116). Each change is copied to the Retained Memory as it is made (R201). -/

namespace Sys2Proof.Machine

/-- Change a slot of a sheet; slots are numbered 0..95 (R114). -/
def onSlot (f : SheetSlot → SheetSlot) (k : Nat) (sh : Sheet) : Sheet :=
  { sh with slots := wr sh.slots (k + 1) (f (rd sh.slots (k + 1) pendingSlot)) }

/-- Change the slot of a date and number: TODAY's, YESTERDAY's, or the early slot where it stands for that date. An
outcome for any other date is not recorded (R114). -/
def onSheetSlot (f : SheetSlot → SheetSlot) (date k : Nat) (c : ClockUnit) : ClockUnit :=
  if c.today.date = some date then { c with today := onSlot f k c.today }
  else if c.yesterday.date = some date then { c with yesterday := onSlot f k c.yesterday }
  else
    match c.early with
    | some (d, x) => if d = date then { c with early := some (d, f x) } else c
    | none => c

/-- The day after a day; after the last of the range comes day 0 (R1, R21). -/
def nextDay (d : Nat) : Nat := (d + 1) % spanDays

/-- The early slot takes a write for the day after TODAY's: it replaces what stood there (R114). -/
def claimEarly (date : Nat) (c : ClockUnit) : ClockUnit :=
  if c.today.date.map nextDay = some date ∧ c.early.map (·.1) ≠ some date then { c with early := some (date, pendingSlot) }
  else c

/-- Write an outcome: the repeated flag is set when the slot held an outcome other than PENDING, and the masked count is
cleared (R115). -/
def writeOutcome (o : QuarterOutcome) (date k : Nat) (c : ClockUnit) : ClockUnit :=
  onSheetSlot (fun x => { outcome := o, masked := 0, repeated := x.repeated || decide (x.outcome ≠ .pending) }) date k
    (claimEarly date c)

/-- YIELDED becomes LATE; the flag and the count are not touched (R113, R115). -/
def writeLate (date k : Nat) (c : ClockUnit) : ClockUnit := onSheetSlot (fun x => { x with outcome := .late }) date k c

/-- A cancelled quarter's slot returns to PENDING with its count 0 (R117, R120). A repeated flag that was set stays set: the
reading of the model (log 83). -/
def clearOutcome (date k : Nat) (c : ClockUnit) : ClockUnit :=
  onSheetSlot (fun x => { x with outcome := .pending, masked := 0 }) date k c

/-- A masked report adds one to the slot's count, up to 255 (R115). -/
def countMasked (date k : Nat) (c : ClockUnit) : ClockUnit :=
  onSheetSlot (fun x => { x with masked := min (x.masked + 1) 255 }) date k c

/-- The sheets roll when local time reaches a date later than TODAY's (R116). Where the date is later by more than a day the
rule names the outcomes alone, and the flags and counts of both sheets are clear: the choice of the model (log 90). -/
def rollTo (n : Nat) (c : ClockUnit) : ClockUnit :=
  match c.today.date with
  | none => c
  | some d =>
    if n = d + 1 then
      let c := { c with yesterday := c.today, today := blankSheet (some n) }
      match c.early with
      | some (e, x) => if e = n then { c with today := onSlot (fun _ => x) 0 c.today, early := none } else c
      | none => c
    else if d < n then
      { c with yesterday := blankSheet (some (n - 1)), today := blankSheet (some n), early := none }
    else c

/-- The names of the outcomes (R114). -/
def quarterOutcomeName : QuarterOutcome → String
  | .pending => "PENDING" | .unset => "UNSET" | .off => "OFF" | .silenced => "SILENCED" | .withheld => "WITHHELD"
  | .missing => "MISSING" | .faulted => "FAULTED" | .yielded => "YIELDED" | .sounded => "SOUNDED" | .late => "LATE"
  | .skipped => "SKIPPED"

end Sys2Proof.Machine
end

