-- ==== Sys2Proof/Machine/BellOps.lean ====
section
/-! DEFINITION. The Bell Table's operations: the checks a stroke passes (R56 to R60), the pulse and its confirm window
(R61 to R63), the reports to the performance (R64, R91), and the claim lists (R69 to R72). -/

namespace Sys2Proof.Machine

/-! ### Reports -/

/-- What a stroke request is reported as (R64). -/
inductive Report where
  | masked | crowded | delayed | silent | released | confirmed | missed
  deriving DecidableEq, Repr

/-- The counters after a report (R91). -/
def Counters.reported (c : Counters) : Report → Counters
  | .masked => { c with masked := sat16 (c.masked + 1) }
  | .crowded => { c with crowded := sat16 (c.crowded + 1) }
  | .delayed => { c with delayed := sat16 (c.delayed + 1) }
  | .silent => { c with silent := sat16 (c.silent + 1) }
  | .released => { c with released := sat16 (c.released + 1) }
  | .confirmed => c
  | .missed => c

/-- A TEST stroke's outcome after a report (R91). -/
def StrokeOutcome.reported (o : StrokeOutcome) : Report → StrokeOutcome
  | .masked => .masked
  | .crowded => .crowded
  | .delayed => o
  | .silent => .silent
  | .released => .released
  | .confirmed => .confirmed
  | .missed => .missed

/-- A report reaches a record: its counters, a TEST's outcome, and the pulse end of the stroke, `ends` where the report
is final; a driven pulse also counts for R97 (R91). -/
def Perf.reported (p : Perf) (r : Report) (ends : Nat) : Perf :=
  { p with
    counters := p.counters.reported r
    kind := match p.kind with
      | .test t => .test { t with outcome := t.outcome.reported r }
      | k => k
    pulseEnd := max p.pulseEnd ends
    drivenEnd := if r = .released then max p.drivenEnd ends else p.drivenEnd }

/-- Send a report to a performance. One for a record no longer in the table is discarded. A masked report of a CLOCK
performance also counts in its day-sheet slot (R64, R91, R115). -/
def report (id : Nat) (r : Report) (ends : Nat) (s : State) : State :=
  match s.perf id with
  | none => s
  | some p =>
    let s := setPerf (p.reported r ends) s
    match p.kind, r with
    | .clock c, .masked => { s with clock := countMasked c.date c.slot s.clock }
    | _, _ => s

/-! ### Bell states and windows -/

/-- A change of state closes every open window but test windows, unjudged (R62). -/
def Bell.enter (x : Bell) (st : BellState) : Bell :=
  if x.state = st then x else { x with state := st, windows := x.windows.filter (·.test) }

/-- A bell state's name. -/
def bellStateName : BellState → String
  | .ready => "READY" | .silent => "SILENT" | .fault => "FAULT"

/-- The swing check: the bell's drive index names no drive, or one that is DOWN (R57). -/
def swingPasses (s : State) (b : Nat) : Bool :=
  let n := (s.bellCfg b).drive
  !unitOk 4 n || (s.drive n).state = .down

/-- The claim check: the top record is the performance's (R56). -/
def claimPasses (s : State) (b id : Nat) : Bool :=
  match (s.bell b).claims with
  | c :: _ => c.perf = id
  | [] => false

/-- A stroke is masked: the bell's counter rises and the performance is told (R56, R57, R59, R60). `ends` is its pulse
end (R91). -/
def maskStroke (b id ends : Nat) (s : State) : State :=
  let x := s.bell b
  report id .masked ends (setBell b { x with masked := sat16 (x.masked + 1) } s)

/-- The state check at a stroke's release, now (R60): driven, recorded silent, or masked. A driven pulse begins (R61)
and, where the contact is fitted, opens its confirm window (R62). `req` is the instant of the stroke's request. -/
def stateCheck (b id : Nat) (i : Intensity) (test : Bool) (req : Nat) (s : State) : State :=
  let c := s.bellCfg b
  let x := s.bell b
  let r := s.now
  let w := pulseWidth c i
  if !c.hammer || (x.state = .fault && !test) then maskStroke b id (req + w) s
  else if x.state = .silent then
    report id .silent (r + w) (setBell b { x with last := some r, silent := sat16 (x.silent + 1) } s)
  else
    let win : Window := { perf := id, opens := r + flyTime c i - c.half, closes := r + flyTime c i + c.half, test := test }
    report id .released (r + w) (setBell b
      { x with
        last := some r
        driven := sat16 (x.driven + 1)
        pulse := some (max (x.pulse.getD 0) (r + w))
        windows := if c.confirm then x.windows ++ [win] else x.windows } s)

/-- A stroke request of a performance, now, at its release instant: claim check, swing check, crowding check, state check
(R56 to R60). -/
def strokeRequest (b id : Nat) (i : Intensity) (test : Bool) (s : State) : State :=
  let c := s.bellCfg b
  let x := s.bell b
  let r := s.now
  let w := pulseWidth c i
  if !claimPasses s b id || !swingPasses s b then maskStroke b id (r + w) s
  else
    match x.held, x.last with
    | some _, _ => report id .crowded (r + w) s
    | none, none => stateCheck b id i test r s
    | none, some l =>
      if l + c.recovery ≤ r then stateCheck b id i test r s
      else if l + c.recovery - r ≤ c.crowd then
        report id .delayed 0
          (setBell b { x with held := some { perf := id, intensity := i, test := test, req := r, due := l + c.recovery } } s)
      else report id .crowded (r + w) s

/-- A held stroke at its planned release: claim check, swing check, state check (R59). -/
def releaseHeld (b : Nat) (s : State) : State :=
  match (s.bell b).held with
  | none => s
  | some h =>
    let s := setBell b { s.bell b with held := none } s
    if !claimPasses s b h.perf || !swingPasses s b then
      maskStroke b h.perf (h.req + pulseWidth (s.bellCfg b) h.intensity) s
    else stateCheck b h.perf h.intensity h.test h.req s

/-- Bell `b`'s held stroke is withdrawn if it is the performance's: discarded and reported masked (R59). -/
def withdrawAt (id : Nat) (s : State) (b : Nat) : State :=
  match (s.bell b).held with
  | some h => if h.perf = id then maskStroke b id 0 (setBell b { s.bell b with held := none } s) else s
  | none => s

/-- The 24 bell numbers. -/
def allBells : List Nat := (List.range 24).map (· + 1)

/-- A performance's held strokes are withdrawn (R59). -/
def withdrawHeld (id : Nat) (s : State) : State := allBells.foldl (withdrawAt id) s

/-- Whether a performance has a stroke held at a bell (R92). -/
def hasHeld (s : State) (id : Nat) : Bool := allBells.any fun b => (s.bell b).held.any fun h => h.perf = id

/-- Whether a test window of a performance is open (R92). -/
def hasTestWindow (s : State) (id : Nat) : Bool :=
  allBells.any fun b => (s.bell b).windows.any fun w => w.test && w.perf = id

/-- Take the first element that passes out of a list. -/
def takeFirst {α : Type} (f : α → Bool) : List α → Option (α × List α)
  | [] => none
  | a :: l => if f a then some (a, l) else (takeFirst f l).map fun p => (p.1, a :: p.2)

/-- A closure of the confirm contact, now: credited to the oldest open window that contains it, or stray (R62). A
confirmed test window returns a bell from FAULT (R67). -/
def confirm (b : Nat) (s : State) : State :=
  let x := s.bell b
  match takeFirst (fun w => w.opens ≤ s.now && s.now ≤ w.closes) x.windows with
  | none => s
  | some (w, l) =>
    let y := { x with miss := 0, windows := l }
    let back := w.test && x.state = .fault
    let s := report w.perf .confirmed 0 (setBell b (if back then y.enter .ready else y) s)
    if back then notify .bell [.num b, .word "READY", .word "TEST"] s else s

/-- The oldest open window whose closing instant has come, and the rest. -/
def closingWindow (s : State) (b : Nat) : Option (Window × List Window) :=
  takeFirst (fun w => w.closes ≤ s.now) (s.bell b).windows

/-- A window is missed: the miss count rises, and at the miss limit the bell enters FAULT. On a bell in FAULT a test
window's miss leaves the count at M (R63, R67). -/
def missWindow (b : Nat) (s : State) : State :=
  match closingWindow s b with
  | none => s
  | some (w, l) =>
    let x := { s.bell b with windows := l }
    let m := (s.bellCfg b).missLimit
    if x.state = .fault then report w.perf .missed 0 (setBell b x s)
    else if m ≤ x.miss + 1 then
      notify .bell [.num b, .word "FAULT", .num m]
        (report w.perf .missed 0 (setBell b (Bell.enter { x with miss := m } .fault) s))
    else report w.perf .missed 0 (setBell b { x with miss := x.miss + 1 } s)

/-! ### Claims -/

/-- The claim test on one bell: no record, or a top record of strictly lower priority (R70). -/
def claimOpen (s : State) (level b : Nat) : Bool :=
  match (s.bell b).claims with
  | [] => true
  | c :: _ => level < c.level

/-- The claim test over a bell set, all or nothing (R70). -/
def claimsOpen (s : State) (level : Nat) (bells : BellSet) : Bool := (bellList bells).all (claimOpen s level)

/-- Place a record on top of the claim list of every bell of a set (R70). -/
def placeClaims (c : Claim) (bells : BellSet) (s : State) : State :=
  (bellList bells).foldl (fun t b => setBell b { t.bell b with claims := c :: (t.bell b).claims } t) s

/-- Remove a performance's records from every claim list; the order of the rest is unchanged (R72). -/
def removeClaims (id : Nat) (s : State) : State :=
  { s with bells := s.bells.map fun x => { x with claims := x.claims.filter fun c => c.perf ≠ id } }

end Sys2Proof.Machine
end

