-- ==== Sys2Proof/Machine/SwingOps.lean ====
section
/-! DEFINITION. The Swing Drives' operations: kicks (R125), entry into each state (R126 to R132), and the lowering that a
FINISH or a CUT fixes (R130). -/

namespace Sys2Proof.Machine

/-- A drive's kick time in ms (R123). -/
def kickTime (c : SwingCfg) : Nat := c.half * 25

/-- A drive's swing timeout in ms (R123). -/
def swingTimeout (c : SwingCfg) : Nat := c.half * 300

/-- A drive state's name (R124). -/
def swingStateName : SwingState → String
  | .down => "DOWN" | .raising => "RAISING" | .ringing => "RINGING" | .lowering => "LOWERING"
  | .settling => "SETTLING" | .fault => "FAULT"

/-- A fault cause's name (R124). -/
def swingCauseName : SwingCause → String
  | .none => "NONE" | .noStart => "NO START" | .raiseLimit => "RAISE LIMIT" | .noBottom => "NO BOTTOM"

/-- A drive is usable: its bell field is 1..24 and that bell's drive index names it (R123). -/
def driveUsable (s : State) (n : Nat) : Bool :=
  unitOk 24 (s.driveCfg n).bell && (s.bellCfg (s.driveCfg n).bell).drive = n

/-- The bells whose drive index names one of the drives: a SWING's bell set (R83). -/
def swungBells (s : State) (ds : List Nat) : BellSet :=
  (allBells.filter fun b => ds.contains (s.bellCfg b).drive).foldl (fun m b => m ||| bellOne b) 0#24

/-- The drives of a SWING after drive `n` of it is done (R135). -/
def PerfKind.withDone (k : PerfKind) (n : Nat) : PerfKind :=
  match k with
  | .swing p => .swing { p with drives := p.drives.map fun d => if d.drive = n then { d with done := true } else d }
  | k => k

/-- The engine records a drive as done; for a performance no longer in the table this is discarded (R135). -/
def driveDone (id n : Nat) (s : State) : State :=
  match s.perf id with
  | some p => setPerf { p with kind := p.kind.withDone n } s
  | none => s

/-- A drive hands back its arrival at DOWN or FAULT, once, and its performance field becomes absent (R126, R132,
R135). -/
def handBack (n : Nat) (s : State) : State :=
  match (s.drive n).perf with
  | some id => driveDone id n (setDrive n { s.drive n with perf := none } s)
  | none => s

/-- Enter RAISING at a start, now: the first kick begins (R127). -/
def enterRaising (n id duration : Nat) (s : State) : State :=
  let x := s.drive n
  notify .swing [.num n, .word "RAISING"] (setDrive n
    { x with
      state := .raising
      perf := some id
      entry := s.now
      lowerAt := if duration = 0 then none else some (s.now + 60000 * duration)
      run := 0
      flag := false
      seen := false
      motor := some (s.now + kickTime (s.driveCfg n)) } s)

/-- Enter RINGING: the motor is released (R129). -/
def enterRinging (n : Nat) (s : State) : State :=
  notify .swing [.num n, .word "RINGING"]
    (setDrive n { s.drive n with state := .ringing, entry := s.now, motor := none } s)

/-- Enter LOWERING: the motor is released and the run count becomes 0 (R131). -/
def enterLowering (n : Nat) (s : State) : State :=
  notify .swing [.num n, .word "LOWERING"]
    (setDrive n { s.drive n with state := .lowering, entry := s.now, motor := none, run := 0 } s)

/-- Enter SETTLING from LOWERING (R131). -/
def enterSettling (n : Nat) (s : State) : State :=
  notify .swing [.num n, .word "SETTLING"]
    (setDrive n { s.drive n with
      state := .settling, entry := s.now, motor := none, brakeOut := none, brake := false, lowerAt := none } s)

/-- A bottom pulse in DOWN: the bell moves although nothing drives it (R126). -/
def enterMoving (n : Nat) (s : State) : State :=
  notify .swing [.num n, .word "MOVING"] (setDrive n { s.drive n with state := .settling, entry := s.now } s)

/-- Enter DOWN from SETTLING (R126). -/
def enterDown (n : Nat) (s : State) : State :=
  handBack n (setDrive n { s.drive n with state := .down, entry := s.now, motor := none, brakeOut := none } s)

/-- Enter FAULT (R132). -/
def enterFault (n : Nat) (cause : SwingCause) (s : State) : State :=
  handBack n (notify .swing [.num n, .word "FAULT", .word (swingCauseName cause)]
    (setDrive n { s.drive n with
      state := .fault, cause := cause, entry := s.now, motor := none, brakeOut := none, lowerAt := none, brake := false } s))

/-- A kick begins at this bottom pulse (R125). -/
def kickMotor (n : Nat) (s : State) : State :=
  setDrive n { s.drive n with motor := some (s.now + kickTime (s.driveCfg n)) } s

/-- A brake kick begins at this bottom pulse (R125). -/
def kickBrake (n : Nat) (s : State) : State :=
  setDrive n { s.drive n with brakeOut := some (s.now + kickTime (s.driveCfg n)) } s

/-- Step 1 of a bottom pulse: the swing that ends is judged by the state's own rule (R125 to R132). In LOWERING every bottom
pulse is judged, also the first where the drive was lowered before any bottom pulse (log 67). -/
def judgeSwing (n : Nat) (s : State) : State :=
  let x := s.drive n
  match x.state with
  | .down => enterMoving n s
  | .settling => s
  | .fault => s
  | .raising =>
    if !x.seen then kickMotor n (setDrive n { x with seen := true } s)
    else
      let run := if x.flag then x.run + 1 else 0
      let s := setDrive n { x with run := run } s
      if run = 4 then enterRinging n s else kickMotor n s
  | .ringing => if x.flag then s else kickMotor n s
  | .lowering =>
    let run := if x.flag then 0 else x.run + 1
    let s := setDrive n { x with run := run } s
    if run = 4 then enterSettling n s
    else if x.brake && (s.driveCfg n).brake then kickBrake n s
    else s

/-- Steps 2 to 4 of a bottom pulse (R125). -/
def markBottom (n : Nat) (s : State) : State :=
  let x := s.drive n
  setDrive n { x with
    half := match x.lastBottom with
      | some t => some (s.now - t)
      | none => x.half
    lastBottom := some s.now
    swings := sat16 (x.swings + 1)
    flag := false } s

/-- Whether a drive was started by the performance and stands in RAISING or RINGING (R130). -/
def swingingFor (s : State) (id n : Nat) : Bool :=
  let x := s.drive n
  decide (x.perf = some id) && (decide (x.state = .raising) || decide (x.state = .ringing))

/-- Give the drives their lowering instants, the k-th at `t` + (k − 1) × stagger; a drive whose instant is earlier keeps
it (R130). -/
def lowerStaggered (stagger : Nat) : Nat → List Nat → State → State
  | _, [], s => s
  | t, n :: l, s =>
    let x := s.drive n
    let at' := match x.lowerAt with
      | some u => min u t
      | none => t
    lowerStaggered stagger (t + 1000 * stagger) l (setDrive n { x with lowerAt := some at' } s)

/-- The starts of a SWING after a FINISH or CUT: those not yet made are cancelled and count as done (R130, R135). -/
def SwingParams.cancelled (p : SwingParams) : SwingParams :=
  { p with drives := p.drives.map fun d => if d.started then d else { d with done := true } }

/-- The drives a SWING has started, in the order they started. -/
def SwingParams.startedDrives (p : SwingParams) : List Nat := (p.drives.filter (·.started)).map (·.drive)

/-- FINISH of a SWING: its swinging drives get their staggered lowering instants (R130). -/
def finishDrives (id : Nat) (p : SwingParams) (s : State) : State :=
  lowerStaggered p.stagger s.now (p.startedDrives.filter (swingingFor s id)) s

/-- What a CUT does to one drive of the performance (R130). -/
def cutDrive (id : Nat) (s : State) (n : Nat) : State :=
  let x := s.drive n
  if x.perf ≠ some id then s
  else
    match x.state with
    | .raising | .ringing => setDrive n { x with brake := true, lowerAt := some s.now } s
    | .lowering => setDrive n { x with brake := true } s
    | .down | .settling | .fault => s

/-- CUT of a SWING: its drives lower at once, with the brake where fitted (R130). -/
def cutDrives (id : Nat) (p : SwingParams) (s : State) : State := p.startedDrives.foldl (cutDrive id) s

end Sys2Proof.Machine
end

