-- ==== Sys2Proof/Machine/PerfOps.lean ====
section
/-! DEFINITION. The Performance Engine's operations: creation and admission (R79, R83, R84), the offer round (R74),
voices and page buffers (R81, R82), the timeline (R85 to R87), stalls (R88), ends and removals (R92, R94), FINISH and
CUT (R96, R97). -/

namespace Sys2Proof.Machine

/-! ### Names and notices -/

/-- A kind's name (R78). -/
def kindName : PerfKind → String
  | .tune => "TUNE" | .clock _ => "CLOCK" | .toll _ => "TOLL" | .swing _ => "SWING" | .test _ => "TEST"

/-- A source's fields (R78). -/
def sourceFields : Source → List Field
  | .line => [.word "LINE"] | .panel => [.word "PANEL"] | .schedule n => [.word "SCHEDULE", .num n] | .clock => [.word "CLOCK"]

/-- A record state's name (R80). -/
def perfStateName : PerfState → String
  | .waiting => "WAITING" | .admitted => "ADMITTED" | .running => "RUNNING" | .stopping => "STOPPING"

/-- An outcome's name (R94). -/
def outcomeName : PerfOutcome → String
  | .done => "DONE" | .finished => "FINISHED" | .cut => "CUT" | .stopped => "STOPPED" | .expired => "EXPIRED"
  | .cancelled => "CANCELLED"

/-- A test stroke's outcome's name (R91). -/
def strokeOutcomeName : StrokeOutcome → String
  | .none => "NONE" | .released => "RELEASED" | .silent => "SILENT" | .masked => "MASKED" | .crowded => "CROWDED"
  | .confirmed => "CONFIRMED" | .missed => "MISSED"

/-- The six counters, in the order of R78. -/
def counterFields (c : Counters) : List Field :=
  [.num c.released, .num c.silent, .num c.masked, .num c.delayed, .num c.crowded, .num c.stalls]

/-- The fields of the PERF notice of a record that leaves (R94). Of a SWING it shows the outcome alone, without the
counters (R135, log 56). -/
def leavingFields (p : Perf) (o : PerfOutcome) : List Field :=
  [.num p.id, .word (kindName p.kind)] ++ sourceFields p.source ++ [.word (outcomeName o)] ++
    match p.kind with
    | .swing _ => []
    | .test t => counterFields p.counters ++ [.word (strokeOutcomeName t.outcome)]
    | _ => counterFields p.counters

/-- A record leaves the table after its creation: the PERF notice is raised (R94). -/
def leave (id : Nat) (o : PerfOutcome) (s : State) : State :=
  match s.perf id with
  | none => s
  | some p => dropPerf id (notify .perf (leavingFields p o) s)

/-! ### Voices -/

/-- The lowest-numbered FREE voice (R81). -/
def firstFree (s : State) : Option Nat := [1, 2, 3, 4].find? fun v => (s.voice v).perf.isNone

/-- The number of FREE voices (R101). -/
def freeVoices (s : State) : Nat := ([1, 2, 3, 4].filter fun v => (s.voice v).perf.isNone).length

/-- Free a performance's voice: buffers and untaken strokes are discarded (R81). -/
def releaseVoice (id : Nat) (s : State) : State :=
  { s with voices := s.voices.map fun v => if v.perf = some id then freeVoice else v }

/-- Request a page of a slot into a buffer; a page at or beyond the page count is not requested (R82). -/
def fetchPage (v slot page : Nat) (s : State) : State × Buffer :=
  if page < (s.slot slot).pages then
    let (s, k) := askRead (.voice v) slot page s
    (s, .reading page k)
  else (s, .empty)

/-- A voice taken by a performance, and its first two page reads (R81, R82). -/
def takeVoice (v id : Nat) (slot : Option Nat) (s : State) : State :=
  match slot with
  | none => setVoice v { freeVoice with perf := some id } s
  | some n =>
    let (s, cur) := fetchPage v n 0 s
    let (s, next) := fetchPage v n 1 s
    setVoice v { freeVoice with perf := some id, current := cur, next := next } s

/-! ### Creation and admission -/

/-- What became of a creation (R79). -/
inductive Created where
  | full
  | admitted (id : Nat)
  | waiting (id : Nat)
  | yielded (id : Nat)
  deriving DecidableEq, Repr

/-- The next id: one above the last issued, wrapping from 255 to 1, skipping ids in the table (R79). -/
def nextId (s : State) : Nat :=
  (((List.range 255).map fun i => (s.lastId + i) % 255 + 1).find? fun id => (s.perf id).isNone).getD 1

/-- Only a SWING needs no voice (R81). -/
def needsVoice : PerfKind → Bool
  | .swing _ => false
  | _ => true

/-- The condition R113 adds for a carried hour. -/
def carryPasses (s : State) : PerfKind → Bool
  | .clock c => !c.carried || masterInStep s
  | _ => true

/-- A performance passes the claim test and the engine's conditions (R70, R81, R113). -/
def canAdmit (s : State) (p : Perf) : Bool :=
  claimsOpen s p.level p.bells && (!needsVoice p.kind || (firstFree s).isSome) && carryPasses s p.kind

/-- The admission of a record, in the order of R83: order and claims, voice, anchor, scene, page reads, state. A carried
hour's slot becomes LATE (R113). -/
def admitPerf (p : Perf) (s : State) : State :=
  let order := s.nextOrder
  let voice := if needsVoice p.kind then firstFree s else none
  let anchor := p.anchor.getD (s.now + p.lead + 100)
  let s := setPerf { p with state := .admitted, order := some order, voice := voice, anchor := some anchor } s
  let s := placeClaims { perf := p.id, level := p.level, order := order } p.bells { s with nextOrder := order + 1 }
  let s := joinScene p.id p.level order p.scene s
  let s := match voice with
    | some v => takeVoice v p.id p.slot s
    | none => s
  match p.kind with
  | .clock c => if c.carried then { s with clock := writeLate c.date c.slot s.clock } else s
  | _ => s

/-- A new record, before its id and request time are given. -/
def newPerf (kind : PerfKind) (source : Source) (level : Nat) (bells : BellSet) (lead wait : Nat) (scene : Option Nat) :
    Perf :=
  { id := 0, kind := kind, source := source, level := level, state := .waiting, slot := none, tempo := none
    division := none, bells := bells, reqAt := 0, wait := wait, anchor := none, lead := lead, voice := none, stop := .none
    stopPoint := none, scene := scene, order := none
    counters := { released := 0, silent := 0, masked := 0, delayed := 0, crowded := 0, stalls := 0 }
    pulseEnd := 0, drivenEnd := 0 }

/-- Create a performance and offer it admission at once (R79, R83, R74). -/
def createPerf (p : Perf) (s : State) : State × Created :=
  if 12 ≤ s.perfs.length then (s, .full)
  else
    let id := nextId s
    let p := { p with id := id, reqAt := s.now }
    let s := { s with lastId := id, perfs := s.perfs ++ [p] }
    if canAdmit s p then (admitPerf p s, .admitted id)
    else if 0 < p.wait then (s, .waiting id)
    else (dropPerf id s, .yielded id)

/-- The kind order of the offer round (R74). -/
def kindRank : PerfKind → Nat
  | .swing _ => 0 | .toll _ => 1 | .clock _ => 2 | .tune => 3 | .test _ => 4

/-- The order of the offer round, before the order of creation (R74). -/
def offeredBefore (p q : Perf) : Bool :=
  p.level < q.level || (p.level = q.level && (kindRank p.kind < kindRank q.kind ||
    (kindRank p.kind = kindRank q.kind && p.reqAt < q.reqAt)))

/-- One waiting performance's turn in an offer round. -/
def offerTo (s : State) (id : Nat) : State :=
  match s.perf id with
  | some p => if p.state = .waiting && canAdmit s p then admitPerf p s else s
  | none => s

/-- The offer round: every waiting performance is offered admission once (R74). -/
def offerRound (s : State) : State :=
  ((sortBy offeredBefore (s.perfs.filter fun p => p.state = .waiting)).map (·.id)).foldl offerTo s

/-- The largest fly time of a bell at the three intensities. -/
def maxFly (c : BellCfg) : Nat := max c.fSoft (max c.fNormal c.fStrong)

/-- The lead over a tune's bell set (R83). -/
def tuneLead (s : State) (bells : BellSet) : Nat := maxOf ((bellList bells).map fun b => maxFly (s.bellCfg b))

/-- The effective tempo (R86). -/
def effectiveTempo (tempo scale : Nat) : Nat := clampN (roundHalfAway ((tempo : Int) * scale) 100).toNat 20 240

/-- A TUNE performance of a slot (R83, R86, R93). -/
def tunePerf (s : State) (slot scale wait : Nat) (scene : Option Nat) (source : Source) : Perf :=
  let e := s.slot slot
  { newPerf .tune source s.cfg.levels.tune e.bells (tuneLead s e.bells) wait (scene.orElse fun _ => e.scene) with
    slot := some slot
    tempo := some (effectiveTempo e.tempo scale)
    division := some e.division }

/-- A TOLL performance (R83, R89, R93). -/
def tollPerf (s : State) (bell interval count : Nat) (i : Intensity) (wait : Nat) (scene : Option Nat) (source : Source) :
    Perf :=
  newPerf (.toll { bell := bell, interval := interval, count := count, intensity := i, sent := 0
                   limit := if count = 0 then none else some count })
    source s.cfg.levels.toll (bellOne bell) (flyTime (s.bellCfg bell) i) wait scene

/-- A SWING performance (R83, R134). -/
def swingPerf (s : State) (ds : List Nat) (stagger duration wait : Nat) (source : Source) : Perf :=
  newPerf (.swing { drives := ds.map fun d => { drive := d, started := false, done := false }
                    stagger := stagger, duration := duration })
    source s.cfg.levels.swing (swungBells s ds) 0 wait none

/-- A TEST performance (R67, R83). -/
def testPerf (s : State) (bell : Nat) (i : Intensity) : Perf :=
  newPerf (.test { bell := bell, intensity := i, sent := false, outcome := .none })
    .line 0 (bellOne bell) (flyTime (s.bellCfg bell) i) 0 none

/-! ### The timeline -/

/-- T(n) in ms (R85). -/
def stepTime (n tempo division : Nat) : Nat := 60000 * n / (tempo * division)

/-- The events of a slot's tune, in tune order. -/
def tuneEvents (s : State) (slot : Nat) : List Event := (List.range (s.slot slot).events).filterMap (tuneEvent s slot)

/-- Events with their cumulative steps, up to the first that would exceed 65,535 (R85). -/
def cumulated : Nat → List Event → List (Event × Nat)
  | _, [] => []
  | n, e :: l => if 65535 < n + e.delta then [] else (e, n + e.delta) :: cumulated (n + e.delta) l

/-- One event of a timeline: its sound instant, its stroke or chord, its page (an hour stroke has none), and its
cumulative step. -/
structure TimeEvent where
  sound : Nat
  bells : BellSet
  intensity : Intensity
  phrase : Bool
  page : Option Nat
  cum : Nat
  deriving DecidableEq, Repr

/-- The tune events of a performance's timeline (R85). -/
def tuneLine (s : State) (p : Perf) : List TimeEvent :=
  match p.slot with
  | none => []
  | some n =>
    (cumulated 0 (tuneEvents s n)).zipIdx.map fun x =>
      { sound := p.anchor.getD 0 + stepTime x.1.2 (p.tempo.getD 1) (p.division.getD 1)
        bells := x.1.1.bells
        intensity := x.1.1.intensity
        phrase := x.1.1.phrase
        page := some (x.2 / 32)
        cum := x.1.2 }

/-- The hour strokes of a CLOCK performance's timeline (R85, R108). -/
def hourLine (p : Perf) : List TimeEvent :=
  match p.kind with
  | .clock c =>
    (List.range (c.hours.getD 0)).map fun k =>
      { sound := p.anchor.getD 0 + c.hourBase + k * c.spacing
        bells := bellOne c.struck
        intensity := .normal
        phrase := decide (k + 1 = c.hours.getD 0)
        page := none
        cum := 0 }
  | _ => []

/-- The whole timeline of a TUNE or CLOCK performance (R85). -/
def timeline (s : State) (p : Perf) : List TimeEvent := tuneLine s p ++ hourLine p

/-- The next event a performance's voice is to take up: none past the stop point, none after a CUT (R87, R96, R97). -/
def nextEvent (s : State) (p : Perf) (v : Voice) : Option TimeEvent :=
  if p.stop = .cut then none
  else if p.stopPoint.any fun k => k < v.idx then none
  else (timeline s p)[v.idx]?

/-- Take-up instant of an event: sound instant − L − 50 ms (R87). One that would lie before run clock 0 is taken as 0
(log 64). -/
def takeUpAt (p : Perf) (e : TimeEvent) : Nat := e.sound - (p.lead + 50)

/-- Whether a buffer holds a page. -/
def Buffer.holds (b : Buffer) (page : Nat) : Bool :=
  match b with
  | .loaded k _ => k = page
  | _ => false

/-- Whether an event can be taken up without a stall (R87, R88). -/
def Voice.hasPage (v : Voice) : Option Nat → Bool
  | none => true
  | some k => v.current.holds k || v.next.holds k

/-- Each stroke of an event with its release instant, not before the take-up (R87). -/
def strokesOf (s : State) (e : TimeEvent) (idx : Nat) : List Stroke :=
  (bellList e.bells).map fun b =>
    { bell := b, intensity := e.intensity, due := max s.now (e.sound - flyTime (s.bellCfg b) e.intensity), idx := idx }

/-- The voice moves after the last event of its CURRENT page: the buffers swap, and the page after the new CURRENT is
requested into the old buffer, where the tune has it. After a tune's last event there is no page to move to (R82). -/
def movePage (v slot page : Nat) (s : State) : State :=
  if page + 1 < (s.slot slot).pages then
    let old := (s.voice v).current
    let (s, read) := fetchPage v slot (page + 2) s
    let next := if page + 2 < (s.slot slot).pages then read else old
    setVoice v { s.voice v with current := (s.voice v).next, next := next } s
  else s

/-- The voice takes up an event, now (R87). -/
def takeUp (v : Nat) (p : Perf) (e : TimeEvent) (s : State) : State :=
  let x := s.voice v
  let s := setVoice v
    { x with idx := x.idx + 1, cum := e.cum, stall := none, strokes := x.strokes ++ strokesOf s e x.idx } s
  match e.page, p.slot with
  | some k, some slot => if x.idx % 32 = 31 then movePage v slot k s else s
  | _, _ => s

/-- The record a voice plays. -/
def voicePerf (s : State) (v : Nat) : Option Perf := (s.voice v).perf.bind s.perf

/-- A record whose anchor moves later by `d`: the stall counter rises (R88). -/
def Perf.stalled (p : Perf) (d : Nat) : Perf :=
  { p with anchor := p.anchor.map (· + d), counters := { p.counters with stalls := sat16 (p.counters.stalls + 1) } }

/-- A stall of length `d` has ended: the record's anchor is moved, and the voice keeps where it moved, for the events
before it keep their instants (R88). -/
def stallOver (v : Nat) (p : Perf) (d : Nat) (s : State) : State :=
  let x := s.voice v
  setVoice v { x with stall := none, moves := x.moves ++ [(x.idx, d)] } (setPerf (p.stalled d) s)

/-- A stalled voice's page has come: the anchor moves later by the stall's length, the stall counter rises, and the event
is taken up (R88). Past the stop point there is no event to take up. -/
def endStall (v : Nat) (s : State) : State :=
  match voicePerf s v, (s.voice v).stall with
  | some p, some t =>
    let q := p.stalled (s.now - t)
    let s := stallOver v p (s.now - t) s
    match nextEvent s q (s.voice v) with
    | some e => takeUp v q e s
    | none => s
  | _, _ => s

/-- A buffer after a page read with the given serial has come (R82). -/
def Buffer.filled (b : Buffer) (serial : Nat) (events : List Event) : Buffer :=
  match b with
  | .reading k n => if n = serial then .loaded k events else b
  | _ => b

/-- A page read for a voice completes; one that the voice did not ask for as it stands is discarded (R82, R88). -/
def voicePageRead (v serial : Nat) (events : List Event) (s : State) : State :=
  let x := s.voice v
  let s := setVoice v
    { x with current := x.current.filled serial events, next := x.next.filled serial events } s
  match voicePerf s v, (s.voice v).stall with
  | some p, some _ =>
    match (timeline s p)[(s.voice v).idx]? with
    | some e => if (s.voice v).hasPage e.page then endStall v s else s
    | none => s
  | _, _ => s

/-- A stroke request of a performance is sent; the record becomes RUNNING at its first (R80). -/
def sendStroke (b id : Nat) (i : Intensity) (test : Bool) (s : State) : State :=
  let s := match s.perf id with
    | some p => if p.state = .admitted then setPerf { p with state := .running } s else s
    | none => s
  strokeRequest b id i test s

/-! ### Ends and removals -/

/-- The end or removal of an admitted performance, but for its offer round: claims removed, voice freed, scene
withdrawn, notice raised, record gone (R92, R94). -/
def closePerf (id : Nat) (o : PerfOutcome) (s : State) : State :=
  leave id o (leaveScene id (releaseVoice id (removeClaims id s)))

/-- The outcome of a record that ends by R92 (R94). -/
def endOutcome (p : Perf) : PerfOutcome :=
  match p.stop with
  | .none => .done
  | .finish => .finished
  | .cut => .cut

/-- A record's timeline is complete (R87, R89, R90, R135). -/
def timelineComplete (s : State) (p : Perf) : Bool :=
  match p.kind with
  | .tune | .clock _ =>
    match p.voice with
    | some v => (nextEvent s p (s.voice v)).isNone && (s.voice v).strokes.isEmpty
    | none => true
  | .toll t => t.limit.any fun k => k ≤ t.sent
  | .test t => t.sent
  | .swing w => w.drives.all (·.done)

/-- Whether a record can end by R92: it is not cut (but for a SWING), its timeline is complete, and nothing of it is
held or waits to be judged. -/
def mayEnd (s : State) (p : Perf) : Bool :=
  p.state ≠ .waiting && timelineComplete s p &&
    match p.kind with
    | .swing _ => true
    | .test _ => p.stop ≠ .cut && !hasHeld s p.id && !hasTestWindow s p.id
    | _ => p.stop ≠ .cut && !hasHeld s p.id

/-- The instant, in µs of the run clock, at which a record ends (R92). -/
def endDue (id : Nat) (s : State) : Option Nat :=
  match s.perf id with
  | some p => s.dueMs (if mayEnd s p then some p.pulseEnd else none)
  | none => none

/-! ### FINISH and CUT -/

/-- The sound instant of event `i` of a timeline whose anchor stands for instant `sound`: only the event that stalled and
those after it follow a moved anchor (R88). -/
def Voice.soundOf (v : Voice) (i sound : Nat) : Nat := sound - ((v.moves.filter fun m => i < m.1).map (·.2)).sum

/-- The stop point: the first event of the timeline that sounds at or after now and carries the mark (R96). It is named by
its place in the timeline, counted from 0, the hour strokes after the tune's events: the choice of the model (log 74). -/
def stopPointOf (s : State) (p : Perf) : Option Nat :=
  let v := (p.voice.map s.voice).getD freeVoice
  ((timeline s p).zipIdx.find? fun x => s.now ≤ v.soundOf x.2 x.1.sound && x.1.phrase).map (·.2)

/-- A voice keeps no untaken stroke from an event after the stop point (R96). -/
def Voice.cutAfter (v : Voice) (k : Nat) : Voice := { v with strokes := v.strokes.filter fun x => x.idx ≤ k }

/-- FINISH of a record (R96). -/
def finishPerf (id : Nat) (s : State) : State :=
  match s.perf id with
  | none => s
  | some p =>
    match p.state with
    | .waiting => leave id .stopped s
    | .stopping => s
    | .admitted | .running =>
      let q := { p with state := .stopping, stop := .finish }
      match p.kind with
      | .tune | .clock _ =>
        let k := stopPointOf s p
        let s := setPerf { q with stopPoint := k } s
        match k, p.voice with
        | some k, some v => setVoice v ((s.voice v).cutAfter k) s
        | _, _ => s
      | .toll t =>
        let last := match t.limit with
          | some n => min n (t.sent + 1)
          | none => t.sent + 1
        setPerf { q with kind := .toll { t with limit := some last } } s
      | .test _ => setPerf q s
      | .swing w => finishDrives id w (setPerf { q with kind := .swing w.cancelled } s)

/-- The cut of a voiced performance, but for its offer round; the record leaves at once when no pulse of it is being
driven (R97). -/
def cutVoiced (id : Nat) (s : State) : State :=
  match s.perf id with
  | none => s
  | some p =>
    let s := setPerf { p with state := .stopping, stop := .cut, stopPoint := none, voice := none } s
    let s := leaveScene id (removeClaims id (withdrawHeld id (releaseVoice id s)))
    if p.drivenEnd ≤ s.now then leave id .cut s else s

/-- CUT of a record, but for its offer round; the answer says whether one is due (R97). -/
def cutPerf (id : Nat) (s : State) : State × Bool :=
  match s.perf id with
  | none => (s, false)
  | some p =>
    if p.state = .waiting then (leave id .stopped s, false)
    else if p.stop = .cut then (s, false)
    else
      match p.kind with
      | .swing w =>
        (cutDrives id w (setPerf { p with state := .stopping, stop := .cut, kind := .swing w.cancelled } s), false)
      | .tune | .clock _ | .toll _ | .test _ => (cutVoiced id s, true)

/-- Cut every record of a list, then make the one offer round that is due (R98, R118, log 19). -/
def cutAll (ids : List Nat) (s : State) : State :=
  let (s, offer) := ids.foldl (fun (p : State × Bool) id =>
    let (t, o) := cutPerf id p.1
    (t, p.2 || o)) (s, false)
  if offer then offerRound s else s

/-- Remove an admitted record with outcome CANCELLED, but for its offer round (R94). -/
def cancelPerf (id : Nat) (s : State) : State := closePerf id .cancelled (withdrawHeld id s)

end Sys2Proof.Machine
end

