-- ==== Sys2Proof/Machine/ClockOps.lean ====
section
/-! DEFINITION. The Clock Strike Unit's operations: quarter profiles (R106, R107), shapes (R108, R109), the evaluation and
its outcomes (R111, R112), the hour carry (R113), the frontier loop (R110) and movements of local time (R117, R118). A
quarter is numbered by the quarter hours of local time from 2000-01-01 00:00. -/

namespace Sys2Proof.Machine

/-! ### Quarter profiles -/

/-- The slot a quarter tune setting names, 0 for none; quarter 4 is xx:00 (R103). -/
def quarterSlot (c : ClockCfg) (q : Nat) : Nat :=
  if q = 1 then c.q1 else if q = 2 then c.q2 else if q = 3 then c.q3 else c.q4

/-- The release offset E: the least of 0 and of T(n) − F over every stroke (R106). -/
def releaseOffset (s : State) (tempo division : Nat) (l : List (Event × Nat)) : Int :=
  (l.flatMap fun x => (bellList x.1.bells).map fun b =>
    (stepTime x.2 tempo division : Int) - flyTime (s.bellCfg b) x.1.intensity).foldl min 0

/-- The READY profile of a slot's tune from its events as read (R106). -/
def profileOf (s : State) (slot : Nat) (events : List Event) : Profile :=
  let e := s.slot slot
  let tempo := effectiveTempo e.tempo 100
  let l := cumulated 0 (events.take e.events)
  let n := ((l.map (·.2)).getLast?).getD 0
  .ready n (stepTime n tempo e.division) (releaseOffset s tempo e.division l)

/-- A profile build starts: NONE where the slot is 0 or not CLOSED, else its first page is read (R107). `awaited` says
that a start waits for it (R200, R202). -/
def startBuild (awaited : Bool) (s : State) (q : Nat) : State :=
  let n := quarterSlot s.cfg.clock q
  let e := s.slot n
  if !unitOk 64 n || e.state ≠ .closed then setProfile q .none s
  else if e.pages = 0 then setProfile q (profileOf s n []) s
  else
    let (s, k) := askRead (.build q) n 0 s
    setProfile q (.building 0 k [] awaited) s

/-- Builds start for all four quarters (R107), their first pages asked for in the order of the quarters: the choice of the
model (log 75). -/
def startBuilds (awaited : Bool) (s : State) : State := [1, 2, 3, 4].foldl (startBuild awaited) s

/-- A page read for a build completes: the next page is read, or the profile becomes READY; a read of an abandoned
build is discarded (R107). -/
def buildPageRead (q serial : Nat) (events : List Event) (s : State) : State :=
  match s.profile q with
  | .building page k es w =>
    if k ≠ serial then s
    else
      let n := quarterSlot s.cfg.clock q
      if page + 1 < (s.slot n).pages then
        let (s, k) := askRead (.build q) n (page + 1) s
        setProfile q (.building (page + 1) k (es ++ events) w) s
      else setProfile q (profileOf s n (es ++ events)) s
  | _ => s

/-- Whether a build that a start waits for is still running; one that was abandoned, or whose place a later build has
taken, has ended (R107, R200, R202). -/
def anyAwaited (s : State) : Bool :=
  [1, 2, 3, 4].any fun q => match s.profile q with
    | .building _ _ _ w => w
    | _ => false

/-- Gap G in ms (R103). -/
def gapMs (c : ClockCfg) : Nat := c.gap * 100

/-- A profile's duration passes the limit of 840,000 ms, with G for quarter 4 (R106). -/
def overLimit (c : ClockCfg) (q d : Nat) : Bool := 840000 < (if q = 4 then d + gapMs c else d)

/-! ### Shapes -/

/-- A quarter's shape (R108); NONE says why: the mode, or a missing tune (R111). -/
inductive Shape where
  | quarter (slot d : Nat) (e : Int)
  | fullHour (slot d : Nat) (e : Int)
  | hourOnly
  | noneByMode
  | noneMissing
  deriving DecidableEq, Repr

/-- The night silence covers a minute of the day (R103). -/
def nightCovers (c : ClockCfg) (m : Nat) : Bool :=
  let a := c.nightStartH * 60 + c.nightStartM
  let b := c.nightEndH * 60 + c.nightEndM
  if a < b then a ≤ m && m < b else if b < a then a ≤ m || m < b else false

/-- Which quarter tune a quarter plays: 1, 2, 3, or 4 at xx:00 (R103). -/
def quarterNo (k : Nat) : Nat := if k % 4 = 0 then 4 else k % 4

/-- The shape of quarter `k` from the settings and the profiles as they stand (R108). -/
def shapeOf (s : State) (k : Nat) : Shape :=
  let c := s.cfg.clock
  let q := quarterNo k
  let night := c.scope = .quarters && nightCovers c (k % 96 * 15)
  match c.mode with
  | .off => .noneByMode
  | .hoursOnly => if q = 4 then .hourOnly else .noneByMode
  | .all =>
    if q = 4 ∧ (c.q4 = 0 ∨ night) then .hourOnly
    else
      let n := quarterSlot c q
      match s.profile q with
      | .ready _ d e =>
        if n = 0 ∨ overLimit c q d ∨ night then .noneMissing
        else if q = 4 then .fullHour n d e
        else .quarter n d e
      | _ => .noneMissing

/-- The anchor of a shape, in ms from its quarter instant (R109). -/
def anchorOffset (c : ClockCfg) : Shape → Int
  | .quarter _ d _ => if c.align = .start then 0 else -(d : Int)
  | .fullHour _ d _ => if c.align = .start then 0 else -(gapMs c : Int) - d
  | _ => 0

/-- The release offset X of a shape, in ms from its quarter instant; `fh` is the hour bell's NORMAL fly time (R109). -/
def releaseX (c : ClockCfg) (fh : Nat) : Shape → Int
  | .quarter n d e => e + anchorOffset c (.quarter n d e)
  | .fullHour n d e => min e ((d : Int) + gapMs c - fh) + anchorOffset c (.fullHour n d e)
  | .hourOnly => -(fh : Int)
  | _ => 0

/-- The configured hour bell's NORMAL fly time (R109). -/
def hourFly (s : State) : Nat := (s.bellCfg s.cfg.clock.hourBell).fNormal

/-- A quarter's earliest release, in ms of local time (R109). -/
def earliestRelease (s : State) (k : Nat) : Int := (900000 * k : Nat) + releaseX s.cfg.clock (hourFly s) (shapeOf s k)

/-- A quarter's evaluation instant, in ms of local time: its earliest release less 5 s (R109). -/
def evaluationAt (s : State) (k : Nat) : Int := earliestRelease s k - 5000

/-- The hour count of a quarter instant in 12-hour form (R108). -/
def hourCount (k : Nat) : Nat := if k % 96 / 4 % 12 = 0 then 12 else k % 96 / 4 % 12

/-- Whether a shape strikes hours. -/
def strikesHours : Shape → Bool
  | .fullHour _ _ _ | .hourOnly => true
  | _ => false

/-- The struck hour bell, absent where the hour bell is in FAULT and no READY stand-in exists (R112). -/
def struckBell (s : State) : Option Nat :=
  let c := s.cfg.clock
  if (s.bell c.hourBell).state ≠ .fault then some c.hourBell
  else if unitOk 24 c.standIn && (s.bell c.standIn).state = .ready then some c.standIn
  else none

/-! ### Evaluation -/

/-- Whether quarter `k` is silenced: by the panel, by a strike end after its instant, or by the night silence (R111,
R162). -/
def quarterSilenced (s : State) (k : Nat) : Bool :=
  let c := s.cfg.clock
  let t := 1000000 * ((s.tb.secs : Int) + (900 * k : Nat) - s.localSecs)
  let night := nightCovers c (k % 96 * 15)
  s.sched.panelSilence || (s.sched.strikeEnd.any fun (e : Nat) => decide (t < e)) ||
    (night && (c.scope = .all || quarterNo k ≠ 4))

/-- The run-clock instant of a local instant in ms (R3, log 15). -/
def runOfLocal (s : State) (t : Int) : Nat := ((s.now : Int) + t - s.localMs).toNat

/-- The local date of quarter `k`, as a day number of the range (R1, R21). -/
def quarterDate (k : Nat) : Nat := k / 96 % spanDays

/-- The CLOCK performance of a shape (R85, R108, R109, R111). -/
def clockPerf (s : State) (k : Nat) (sh : Shape) (struck : Nat) : Perf :=
  let c := s.cfg.clock
  let fs := (s.bellCfg struck).fNormal
  let anchor := some (runOfLocal s ((900000 * k : Nat) + anchorOffset c sh))
  let params := fun (hours : Option Nat) (only : Bool) (base : Nat) => PerfKind.clock
    { quarter := quarterNo k, hours := hours, date := quarterDate k, slot := k % 96, hourOnly := only, hourBase := base
      spacing := c.spacing * 100, struck := struck, carried := false }
  let tune := fun (kind : PerfKind) (slot lead : Nat) (bells : BellSet) =>
    { newPerf kind .clock s.cfg.levels.clock bells lead 0 c.scene with
      anchor := anchor
      slot := some slot
      tempo := some (effectiveTempo (s.slot slot).tempo 100)
      division := some (s.slot slot).division }
  match sh with
  | .fullHour slot d _ =>
    let bells := (s.slot slot).bells
    tune (params (some (hourCount k)) false (d + gapMs c)) slot (max (tuneLead s bells) fs) (bells ||| bellOne struck)
  | .quarter slot _ _ =>
    let bells := (s.slot slot).bells
    tune (params none false 0) slot (tuneLead s bells) bells
  | _ =>
    { newPerf (params (some (hourCount k)) true 0) .clock s.cfg.levels.clock (bellOne struck) fs 0 c.scene with
      anchor := anchor }

/-- The carried hour of a yielded hour (R113). -/
def carriedPerf (s : State) (k struck : Nat) : Perf :=
  let c := s.cfg.clock
  newPerf (.clock
    { quarter := 4, hours := some (hourCount k), date := quarterDate k, slot := k % 96, hourOnly := true, hourBase := 0
      spacing := c.spacing * 100, struck := struck, carried := true })
    .clock s.cfg.levels.clock (bellOne struck) (s.bellCfg struck).fNormal 600 c.scene

/-- Write a quarter's outcome (R114, R115). -/
def recordQuarter (o : QuarterOutcome) (k : Nat) (s : State) : State :=
  { s with clock := writeOutcome o (quarterDate k) (k % 96) s.clock }

/-- Create a quarter's performance and record SOUNDED or YIELDED; a yielded hour is carried where the setting is ON
(R111, R113). -/
def soundQuarter (k : Nat) (sh : Shape) (struck : Nat) (s : State) : State :=
  match createPerf (clockPerf s k sh struck) s with
  | (t, .admitted _) => recordQuarter .sounded k t
  | (t, .full) => recordQuarter .yielded k t
  | (t, _) =>
    let t := recordQuarter .yielded k t
    if t.cfg.clock.carry && strikesHours sh then (createPerf (carriedPerf t k struck) t).1 else t

/-- The evaluation of a quarter: SKIPPED where its earliest release is not after the present, else the first check of
R111 that applies. -/
def evaluateQuarter (k : Nat) (s : State) : State :=
  let sh := shapeOf s k
  if earliestRelease s k ≤ s.localMs then recordQuarter .skipped k s
  else if !s.tb.set then recordQuarter .unset k s
  else if s.line.mode = .service ∨ sh = .noneByMode then recordQuarter .off k s
  else if quarterSilenced s k then recordQuarter .silenced k s
  else if !masterInStep s then recordQuarter .withheld k s
  else if sh = .noneMissing then recordQuarter .missing k s
  else if !strikesHours sh then soundQuarter k sh 0 s
  else
    match struckBell s with
    | none => recordQuarter .faulted k s
    | some b => soundQuarter k sh b s

/-- The frontier quarter is evaluated and the frontier advances (R110). -/
def evaluateFrontier (s : State) : State :=
  let k := s.clock.frontier
  let s := evaluateQuarter k s
  { s with clock := { s.clock with frontier := k + 1 } }

/-- Whether local time stands at or after the frontier's evaluation instant (R110). -/
def frontierReached (s : State) : Bool := evaluationAt s s.clock.frontier ≤ s.localMs

/-- At most `fuel` rounds of the frontier loop. -/
def frontierRounds : Nat → State → State
  | 0, s => s
  | fuel + 1, s => if frontierReached s then frontierRounds fuel (evaluateFrontier s) else s

/-- The frontier loop, while the part is running. An evaluation instant lies less than 900 s before its quarter, so the
rounds counted are enough (R109, R110). -/
def frontierLoop (s : State) : State :=
  if s.power.phase = .on then frontierRounds (s.localSecs / 900 + 2 - s.clock.frontier) s else s

/-- The instant, in µs of the run clock, at which local time reaches the frontier's evaluation instant. -/
def quarterDue (s : State) : Option Nat :=
  if s.power.phase = .on then
    some (max (s.tb.runUs : Int) (s.tb.runUs + (1000 * evaluationAt s s.clock.frontier - s.localUs))).toNat
  else none

/-! ### Movements of local time -/

/-- The date and the slot of a CLOCK record in ADMITTED. -/
def admittedQuarter (p : Perf) : Option (Nat × Nat) :=
  match p.kind, p.state with
  | .clock c, .admitted => some (c.date, c.slot)
  | _, _ => none

/-- Return a quarter's slot to PENDING with its count 0 (R117, R120). -/
def pendQuarter (s : State) (q : Nat × Nat) : State := { s with clock := clearOutcome q.1 q.2 s.clock }

/-- The number of a quarter of a date and slot, as the frontier counts quarters: while TODAY is the last day of the range,
day 0 is the day that comes after it (R21). -/
def quarterNumber (today : Option Nat) (q : Nat × Nat) : Nat :=
  96 * (if q.1 = 0 ∧ today = some (spanDays - 1) then spanDays else q.1) + q.2

/-- Step 1 of a large movement: CLOCK records in ADMITTED are removed and their slots return to PENDING, carried hours
in WAITING are removed and their slots stay (R117). DESIGN CHOICE: the carried hours go first, and each group in table
order (log 59). The answer lists the cancelled quarters. -/
def cancelQuarters (s : State) : State × List Nat :=
  let today := s.clock.today.date
  let ks := s.perfs.filterMap admittedQuarter
  let admitted := (s.perfs.filter fun p => (admittedQuarter p).isSome).map (·.id)
  let waiting := (s.perfs.filter fun p => p.state = .waiting && (match p.kind with | .clock _ => true | _ => false)).map (·.id)
  let s := waiting.foldl (fun t id => leave id .cancelled t) s
  let s := ks.foldl pendQuarter (admitted.foldl (fun t id => cancelPerf id t) s)
  (if admitted.isEmpty then s else offerRound s, ks.map (quarterNumber today))

/-- Move the frontier. -/
def setFrontier (k : Nat) (s : State) : State := { s with clock := { s.clock with frontier := k } }

/-- The earliest quarter whose evaluation instant lies after the present local time (R117). -/
def frontierAfterNow (s : State) : Nat :=
  let k := s.localSecs / 900 + 1
  if evaluationAt s k ≤ s.localMs then k + 1 else k

/-- The answer to a large movement, a local change or the announcement of a WARM start (R117). -/
def clockLarge (forward : Bool) (s : State) : State :=
  let (s, ks) := cancelQuarters s
  let s := { s with clock := rollTo s.localDay s.clock }
  let base := if forward then s.clock.frontier else frontierAfterNow s
  frontierLoop (setFrontier (minOr base ks) s)

/-- The answer to a small step (R116, R117). -/
def clockSmall (forward : Bool) (s : State) : State :=
  let s := { s with clock := rollTo s.localDay s.clock }
  if forward then frontierLoop s else s

/-- The sheets of the first setting: quarters before the set time UNSET, the rest of TODAY PENDING (R118). No rule gives the
flag of those PENDING slots, nor a count: both are clear, as on a sheet dated anew by R116. DESIGN CHOICE, log 90. -/
def setSheets (s : State) (c : ClockUnit) : ClockUnit :=
  let unset : SheetSlot := { outcome := .unset, masked := 0, repeated := false }
  let today := s.localDay
  { c with
    today :=
      { date := some today
        slots := tableOf 96 fun i =>
          if 1000000 * (86400 * today + 900 * (i - 1)) < s.localUs then unset else pendingSlot }
    yesterday := { date := some ((today + spanDays - 1) % spanDays), slots := Vector.replicate 96 unset }
    early := none
    frontier := (s.localUs + 899999999) / 900000000 }

/-- The answer to "time set" (R118). -/
def clockSet (s : State) : State := frontierLoop { s with clock := setSheets s s.clock }

/-- The answer to a minute boundary: the sheets roll at local 00:00 (R116). -/
def clockBoundary (s : State) : State := { s with clock := rollTo s.localDay s.clock }

/-- The CLOCK records in the table, by id. -/
def clockIds (s : State) : List Nat :=
  (s.perfs.filter fun p => match p.kind with | .clock _ => true | _ => false).map (·.id)

/-- A change to SERVICE ends every CLOCK record with outcome CUT: one in WAITING is removed, the others are cut (R118).
DESIGN CHOICE: in table order (log 59). -/
def cutClock (s : State) : State :=
  let (s, offer) := (clockIds s).foldl (fun (p : State × Bool) id =>
    match p.1.perf id with
    | some x =>
      if x.state = .waiting then (leave id .cut p.1, p.2)
      else
        let (t, o) := cutPerf id p.1
        (t, p.2 || o)
    | none => p) (s, false)
  if offer then offerRound s else s

end Sys2Proof.Machine
end

