-- ==== Sys2Proof/Machine/SchedOps.lean ====
section
/-! DEFINITION. The Schedule Table's operations: matching (R158, R159), the firing groups (R161 to R165), the evaluation of
a minute (R160), dusk-early firing (R166) and the catch-up (R168). A date-minute counts local minutes from 2000-01-01
00:00; the silence ends are microseconds of standard time. -/

namespace Sys2Proof.Machine

/-! ### Matching -/

/-- A value of an optional pattern field agrees (R158). -/
def agrees (v : Option Nat) (n : Nat) : Bool :=
  match v with
  | none => true
  | some k => k = n

/-- The date pattern matches a day (R158). -/
def dateMatches (f : EntryFields) (d : DayValues) : Bool :=
  agrees f.year d.year && agrees f.month d.month && agrees f.day d.day && f.weekdays.contains d.weekday &&
    match f.feast with
    | none => true
    | some o => o = d.easterDist

/-- A sun time with an offset, in minutes of the day (R159). -/
def sunMinute (base : Nat) (offset : Int) : Nat := (clampI ((base : Int) + offset) 0 1439).toNat

/-- The minutes of an entry for a day, ascending (R159). -/
def entryMinutes (f : EntryFields) (d : DayValues) : List Nat :=
  match f.time with
  | .fixed (some h) m => [h * 60 + m]
  | .fixed none m => (List.range 24).map fun h => h * 60 + m
  | .sunrise o => [sunMinute d.riseLocal o]
  | .sunset o _ => [sunMinute d.setLocal o]

/-- The date-minutes of a day that an entry matches, ascending (R158, R159). -/
def matchedMinutes (f : EntryFields) (d : DayValues) : List Nat :=
  if dateMatches f d then (entryMinutes f d).map (1440 * d.dayNo + ·) else []

/-- The ACTIVE entries with their numbers, ascending (R159). -/
def activeEntries (s : State) : List (Nat × EntryFields) :=
  ((List.range 128).map (· + 1)).filterMap fun n =>
    match s.entry n with
    | .active f => some (n, f)
    | _ => none

/-- A stamp is absent or earlier than a date-minute (R160). -/
def stampBefore (s : State) (n m : Nat) : Bool :=
  match s.stamp n with
  | none => true
  | some k => k < m

/-- Set an entry's stamp. -/
def setStamp (n m : Nat) (s : State) : State := { s with sched := { s.sched with stamps := wr s.sched.stamps n (some m) } }

/-! ### Firing -/

/-- Standard time in microseconds. -/
def State.stdUs (s : State) : Nat := 1000000 * s.tb.secs + s.tb.sub

/-- The later of a silence end and a window end; an absent end is earlier (R162). -/
def laterEnd (e : Option Nat) (t : Nat) : Option Nat :=
  match e with
  | none => some t
  | some u => some (max u t)

/-- A SILENCE window ending at `t` opens in a scope (R162). -/
def openSilence (scope : SilenceScope) (t : Nat) (s : State) : State :=
  { s with sched := { s.sched with
      strikeEnd := if scope = .tunes then s.sched.strikeEnd else laterEnd s.sched.strikeEnd t
      tunesEnd := if scope = .strike then s.sched.tunesEnd else laterEnd s.sched.tunesEnd t } }

/-- Silence is in force in the tunes scope at instant `t` (R162). -/
def tunesSilent (s : State) (t : Nat) : Bool := s.sched.panelSilence || s.sched.tunesEnd.any fun e => t < e

/-- Silence is in force in the strike scope at instant `t` (R162). -/
def strikeSilent (s : State) (t : Nat) : Bool := s.sched.panelSilence || s.sched.strikeEnd.any fun e => t < e

/-- The ENTRY notice of a firing (R165). -/
def entryNotice (n : Nat) (detail : List Field) (s : State) : State := notify .entry (.num n :: detail) s

/-- A performance is created from an entry and reported (R165). -/
def fireCreation (n : Nat) (p : Perf) (s : State) : State :=
  match createPerf p s with
  | (t, .full) => entryNotice n [.word "FULL"] t
  | (t, .admitted id) => entryNotice n [.word "FIRED", .num id] t
  | (t, .waiting id) => entryNotice n [.word "FIRED", .num id] t
  | (t, .yielded _) => entryNotice n [.word "YIELDED"] t

/-- An action is carried out; `t` is its firing instant (R162, R164, R165). -/
def fireAction (t : Nat) (s : State) (e : Nat × EntryFields) : State :=
  let n := e.1
  match e.2.action with
  | .silence scope d => entryNotice n [.word "FIRED"] (openSilence scope (t + 60000000 * d) s)
  | .scene k => entryNotice n [.word "FIRED"] (partialBase (s.scene k) s)
  | .play slot scale scene =>
    if tunesSilent s t then entryNotice n [.word "SILENCED"] s
    else if (s.slot slot).state ≠ .closed then entryNotice n [.word "MISSING"] s
    else fireCreation n (tunePerf s slot scale 60 scene (.schedule n)) s
  | .toll bell interval count i =>
    if tunesSilent s t then entryNotice n [.word "SILENCED"] s
    else fireCreation n (tollPerf s bell interval count i 0 none (.schedule n)) s
  | .ring ds stagger duration =>
    if !ds.all (driveUsable s) then entryNotice n [.word "INVALID"] s
    else if !ds.all (fun d => (s.drive d).state = .down) then entryNotice n [.word "ACTIVE"] s
    else fireCreation n (swingPerf s ds stagger duration 0 (.schedule n)) s

/-- Which group an action fires in (R161). -/
def fireGroup : EntryAction → Nat
  | .silence _ _ => 1
  | .scene _ => 2
  | _ => 3

/-- Carry out the entries that fire, each with the date-minute its stamp takes: stamps, then the three groups (R160,
R161). -/
def fireAll (t : Nat) (l : List (Nat × EntryFields × Nat)) (s : State) : State :=
  let s := l.foldl (fun u e => setStamp e.1 e.2.2 u) s
  let es := l.map fun e => (e.1, e.2.1)
  let group := fun g => es.filter fun e => fireGroup e.2.action = g
  (group 1 ++ (group 2).reverse ++ group 3).foldl (fireAction t) s

/-- Every entry that matches the date-minute in force and whose stamp lets it, fires (R160). The firing instant is the
start of that minute; in a catch-up too, where it lies before the present: the reading of the model (log 80). -/
def evaluateMinute (s : State) : State :=
  let m := s.localMinute
  let l := (activeEntries s).filter fun e => (matchedMinutes e.2 s.cal.day).contains m && stampBefore s e.1 m
  fireAll (1000000 * s.minuteStart) (l.map fun e => (e.1, e.2, m)) s

/-- Set the last evaluated minute to the date-minute in force. -/
def markEvaluated (s : State) : State := { s with sched := { s.sched with lastEval := some s.localMinute } }

/-- The mode is RUN and the time is SET (R160). -/
def schedActs (s : State) : Bool := s.tb.set && s.line.mode = .run

/-- The answer to a minute boundary (R160). -/
def schedBoundary (s : State) : State := if schedActs s then markEvaluated (evaluateMinute s) else s

/-- The local date-minute in which local time stands now. At the instant a second ends it is that of the second that
begins, whether or not its boundary has been taken (R166, log 9). -/
def State.minuteNow (s : State) : Nat := s.localUs / 60000000 % (spanSecs / 60)

/-- The date-minute an early SUNSET entry fires at today, where the transition lies in its window (R166). -/
def duskMinute (s : State) (f : EntryFields) : Option Nat :=
  match f.time with
  | .sunset o true =>
    let day := s.minuteNow / 1440
    let d := if day = s.localDay then s.cal.day else dayValuesOf s.cfg.summer s.cfg.sun day
    let c := sunMinute d.setLocal o
    let m := s.minuteNow % 1440
    if dateMatches f d && c - 60 ≤ m && m < c then some (1440 * day + c) else none
  | _ => none

/-- The dusk state changes into DARK (R166). -/
def duskFiring (s : State) : State :=
  if schedActs s then
    fireAll s.stdUs ((activeEntries s).filterMap fun e =>
      match duskMinute s e.2 with
      | some c => if stampBefore s e.1 c then some (e.1, e.2, c) else none
      | none => none) s
  else s

/-! ### Catch-up -/

/-- The day values a catch-up looks at: the previous local date's, then today's (R168). -/
def catchDays (s : State) : List DayValues :=
  (if s.localDay = 0 then [] else [dayValuesOf s.cfg.summer s.cfg.sun (s.localDay - 1)]) ++ [s.cal.day]

/-- Step 1: a window of a SILENCE entry that is still open is opened (R168). -/
def catchSilence (days : List DayValues) (s : State) (e : Nat × EntryFields) : State :=
  match e.2.action with
  | .silence scope d =>
    ((days.flatMap (matchedMinutes e.2)).filter (· ≤ s.localMinute)).foldl (fun t m =>
      let u := 1000000 * (passedInstant s.cfg.summer (m * 60) + d * 60)
      if t.stdUs < u then openSilence scope u t else t) s
  | _ => s

/-- The scenes of step 2, each with its date-minute: first those at or before the present minute, in order of minute with
ties in descending entry number, then those fired early today by dusk, at their stamped minute (R168, log 27). -/
def replayScenes (s : State) : List Nat :=
  let acts := (activeEntries s).filterMap fun e =>
    match e.2.action with
    | .scene k => some (e.1, e.2, k)
    | _ => none
  let before := fun (a b : Nat × Nat × Nat) => a.1 < b.1 || (a.1 = b.1 && b.2.1 < a.2.1)
  let passed := acts.flatMap fun e =>
    ((matchedMinutes e.2.1 s.cal.day).filter (· ≤ s.localMinute)).map fun m => (m, e.1, e.2.2)
  let early := acts.filterMap fun e =>
    match e.2.1.time, s.stamp e.1 with
    | .sunset _ true, some m =>
      if s.localMinute < m ∧ m / 1440 = s.localDay then some (m, e.1, e.2.2) else none
    | _, _ => none
  (sortBy before passed ++ sortBy before early).map fun x => x.2.2

/-- A scene laid over a whole base change being built. -/
def layScene (v : Vector (Option (Nat × Nat)) 16) (sc : Scene) : Vector (Option (Nat × Nat)) 16 :=
  (allChans.foldl (fun u n =>
    match rd sc.levels n none with
    | some l => wr u n (some (l, sc.fade))
    | none => u) v)

/-- Step 2: the base layer is rebuilt from today's scenes and handed over as one base change (R168). -/
def replayBase (s : State) : State :=
  wholeBase ((replayScenes s).foldl (fun v k => layScene v (s.scene k)) (Vector.replicate 16 none)) s

/-- The latest date-minute of the passed range that an entry matches (R168). -/
def latestPassed (days : List DayValues) (s : State) (f : EntryFields) : Option Nat :=
  match s.sched.lastEval with
  | none => none
  | some l => ((days.flatMap (matchedMinutes f)).filter fun m => l < m && m < s.localMinute).getLast?

/-- Step 3: bell work that was not performed is reported (R168), in ascending entry number (log 68). -/
def catchSkip (days : List DayValues) (s : State) (e : Nat × EntryFields) : State :=
  if fireGroup e.2.action = 3 then
    match latestPassed days s e.2 with
    | some m => if stampBefore s e.1 m then entryNotice e.1 (.word "SKIPPED" :: dateMinuteFields m) s else s
    | none => s
  else s

/-- Step 4: stamps are raised to the latest passed date-minute (R168). -/
def catchStamp (days : List DayValues) (s : State) (e : Nat × EntryFields) : State :=
  match latestPassed days s e.2 with
  | some m => if stampBefore s e.1 m then setStamp e.1 m s else s
  | none => s

/-- The catch-up, steps 1 to 6 (R168). Each of steps 1, 3 and 4 takes the entries in ascending number (log 68). -/
def catchUp (s : State) : State :=
  let days := catchDays s
  let es := activeEntries s
  let s := es.foldl (catchSilence days) s
  let s := replayBase s
  let s := es.foldl (catchSkip days) s
  let s := es.foldl (catchStamp days) s
  markEvaluated (evaluateMinute s)

/-- The answer to a large step or a local change (R167). -/
def schedLarge (forward : Bool) (s : State) : State :=
  if schedActs s then (if forward then catchUp s else markEvaluated s) else s

/-- The answer to "time set" (R169). -/
def schedSet (s : State) : State := if schedActs s then catchUp s else s

/-- At a wrap of the date the stamps, the last evaluated minute and the ends become absent (R160). -/
def schedWrap (s : State) : State :=
  { s with sched := { s.sched with
      stamps := Vector.replicate 128 none, lastEval := none, strikeEnd := none, tunesEnd := none } }

end Sys2Proof.Machine
end

