-- ==== Sys2Proof/Machine/TimeOps.lean ====
section
/-! DEFINITION. The Timebase's operations: recomputing the flag and the calendar (R8, R24), the announcements to the
dependent blocks (R4 to R7), steps (R4), the first setting (R6), the wrap of the date (R1) and the end of a second (R2).
The dependents take an announcement in the order Clock Strike Unit, Schedule Table (log 16); the Dial Drive and the
Lighting Controller hold nothing that an announcement changes (R49, R50, R186). -/

namespace Sys2Proof.Machine

/-! ### Flag and calendar -/

/-- Microseconds in the range of standard time (R1). -/
def spanUs : Nat := 1000000 * spanSecs

/-- The change values, then the flag, then the Easter and day values, for the time in force (R8, R24). -/
def recalc (s : State) : State :=
  let flag := inForce s.cfg.summer s.tb.secs
  let s := { s with tb := { s.tb with flag := flag } }
  { s with cal := calendarOf s.cfg.summer s.cfg.sun s.localDay (yearOfSecs s.tb.secs) }

/-! ### Announcements -/

/-- "step" to the dependents (R4, R117, R167). -/
def announceStep (forward large : Bool) (s : State) : State :=
  if large then schedLarge forward (clockLarge forward s) else clockSmall forward s

/-- "local change" to the dependents (R7, R117, R167). -/
def announceLocal (forward : Bool) (s : State) : State := schedLarge forward (clockLarge forward s)

/-- "time set" to the dependents (R6, R118, R169). -/
def announceSet (s : State) : State := schedSet (clockSet s)

/-- A minute boundary to the dependents (R5, R116, R160). -/
def announceBoundary (s : State) : State := schedBoundary (clockBoundary s)

/-- After the flag went from `old` to its present value with the offset (s) in force before it: the TIME notice and the
local change, where it changed (R7, R8). -/
def localChange (old : Bool) (oldOffset : Nat) (s : State) : State :=
  if s.tb.flag = old then s
  else
    let move : Int := (s.offset : Int) / 60 - (oldOffset : Int) / 60
    announceLocal s.tb.flag (notify .time [.word "LOCAL", .num move] s)

/-- A summer-time rule or the sun table was written: flag and calendar are recomputed, and a change of the flag is
announced (R24, R26, R30). -/
def afterRule (old : Bool) (oldOffset : Nat) (s : State) : State := localChange old oldOffset (recalc s)

/-- At a wrap of the date, before anything is announced, the stamps, the last evaluated minute and the silence ends become
absent, so that no entry fires twice at a date-minute after it (R160). -/
def wrapSchedule (wrapped : Bool) (s : State) : State := if wrapped then schedWrap s else s

/-- Standard time was carried across the wrap: the time set that announces it (R1, R160). R1 places this time set after the step and before the minute
boundary; where the same event changes the summer-time flag, it comes after the local change, and at a WARM start after
the WARM announcement: the order of the model (log 70). -/
def announceWrap (wrapped : Bool) (s : State) : State :=
  if wrapped then announceSet (notify .time [.word "WRAP"] s) else s

/-! ### Steps and the first setting -/

/-- The causes of a step (R4). -/
inductive StepCause where
  | line | mark | disagree | lock
  deriving DecidableEq, Repr

/-- A cause's name (R4). -/
def stepCauseName : StepCause → String
  | .line => "LINE" | .mark => "MARK" | .disagree => "DISAGREE" | .lock => "LOCK"

/-- An instant of standard time in µs, wrapped into the range (R1, R4). -/
def wrapUs (t : Int) : Nat := (t % (spanUs : Int)).toNat

/-- A whole number of milliseconds, rounded half away from zero (R4). -/
def roundMs (d : Int) : Int := roundHalfAway d 1000

/-- The Reference Monitor meets a step: S and the count are discarded, a step while LOCKED begins a pull-in, but for the
LOCK step (R12, R13), and the expected seconds are those of the new time (log 11). Where no cadence stands, a local second boundary that the step
carries time over marks no expected second missing: the reading of the model (log 72). -/
def RefMon.stepped (r : RefMon) (cause : StepCause) (oldSub newSub : Nat) : RefMon :=
  let r := { r with sum := 0, cnt := 0 }
  if r.state ≠ .locked then r
  else
    let r := if cause = .lock then r else { r with pullIn := true }
    let v := if oldSub < 500000 then r.judged else r.early
    if newSub ≤ 50000 then { r with judged := v, early := false }
    else if 950000 ≤ newSub then { r with judged := true, early := v }
    else { r with judged := true, early := false }

/-- Set standard time, in µs within the range; the second in progress keeps its length and its tick count (R4). -/
def setStd (t : Nat) (s : State) : State := { s with tb := { s.tb with secs := t / 1000000, sub := t % 1000000 } }

/-- A step by `d` µs (R4, R5, R8), with a local change announced before the wrap's time set (log 70). -/
def stepStd (d : Int) (cause : StepCause) (s : State) : State :=
  let t := (s.stdUs : Int) + d
  let wrapped := decide (t < 0) || decide ((spanUs : Int) ≤ t)
  let oldFlag := s.tb.flag
  let oldOffset := s.offset
  let oldMinute := s.localMinute
  let forward := decide (0 < d)
  let large := decide (1000000 ≤ d.natAbs)
  let u := setStd (wrapUs t) s
  let u := wrapSchedule wrapped (recalc { u with ref := u.ref.stepped cause s.tb.sub u.tb.sub })
  let u := notify .time [.word "STEP", .num (roundMs d), .word (stepCauseName cause)] u
  let u := announceStep forward large u
  let u := localChange oldFlag oldOffset u
  let u := announceWrap wrapped u
  if forward && !large && u.tb.flag = oldFlag && u.localMinute ≠ oldMinute then announceBoundary u else u

/-- The first setting of the time, to an instant of standard time in µs (R6). -/
def firstSetting (t : Nat) (cause : StepCause) (s : State) : State :=
  let s := setStd t s
  let s := recalc { s with tb := { s.tb with set := true } }
  announceSet (notify .time [.word "SET", .word (stepCauseName cause)] s)

/-! ### The second -/

/-- The length of the second that begins, with the slew if any (R2). -/
def Timebase.nextLen (t : Timebase) : Nat := ((1000000 : Int) + truncDiv (t.acc + t.trim) 1000 + t.slew.getD 0).toNat

/-- The second in progress ends and the next begins by counting (R2). -/
def Timebase.nextSecond (t : Timebase) : Timebase :=
  { t with
    secs := (t.secs + 1) % spanSecs
    sub := 0
    tick := 0
    len := t.nextLen
    acc := t.acc + t.trim - 1000 * truncDiv (t.acc + t.trim) 1000
    slew := none }

/-- The Reference Monitor as a second begins: the slew applied enters S (R13), and the new second is expected (R9,
log 11). -/
def RefMon.nextSecond (r : RefMon) (slew : Int) : RefMon :=
  match r.state with
  | .locked =>
    let r := { r with judged := r.early, early := false }
    if r.pullIn then r else { r with sum := r.sum + slew, cnt := r.cnt + 1 }
  | .acquiring | .holdover => if r.cadence.isNone then { r with boundary := true } else r
  | .off => r

/-- The end of a second (R2, R5, R7, R24), with a local change announced before the wrap's time set (log 70). -/
def endSecond (s : State) : State :=
  let oldFlag := s.tb.flag
  let oldOffset := s.offset
  let wrapped := decide (s.tb.secs + 1 = spanSecs)
  let s := wrapSchedule wrapped (recalc { s with tb := s.tb.nextSecond, ref := s.ref.nextSecond (s.tb.slew.getD 0) })
  let changed := decide (s.tb.flag ≠ oldFlag)
  let s := announceWrap wrapped (localChange oldFlag oldOffset s)
  if !changed && s.localSecs % 60 = 0 then announceBoundary s else s

/-- The instant, in µs of the run clock, at which the second in progress ends. -/
def secondDue (s : State) : Option Nat :=
  if s.power.phase = .on then some (s.tb.runUs + (1000000 - s.tb.sub)) else none

end Sys2Proof.Machine
end

