-- ==== Sys2Proof/Machine/Cal.lean ====
section
/-! DEFINITION. The commands of the Calendar Unit: SUMMER, SUN and the readouts (chapter 2). -/

namespace Sys2Proof.Machine

/-- The answer to a write of the rule or the table: the settings are replaced and everything that follows from them is
recomputed; a change of the flag is announced (R8, R24, R26). -/
def writeSettings (cfg : Settings) (s : State) : State := afterRule s.tb.flag s.offset { s with cfg := cfg }

/-- SUMMER (R26). -/
def summerAct (r : SummerRule) (s : State) : State × Reply :=
  serviceOnly (fun s =>
    if summerOk r then (writeSettings { s.cfg with summer := r } s, .ok []) else refuse .range s) s

/-- SUN (R30). -/
def sunAct (k rise set : Nat) (s : State) : State × Reply :=
  serviceOnly (fun s =>
    if unitOk 24 k && rise ≤ 1439 && set ≤ 1439 then
      (writeSettings { s.cfg with sun := wr s.cfg.sun k { rise := rise, set := set } } s, .ok [])
    else refuse .range s) s

/-- CALENDAR READ (R33). -/
def calendarReadAct (s : State) : State × Reply :=
  let c := s.cal
  let d := c.day
  answer
    ([ .date d.year d.month d.day, .num d.dayNo, .num d.doy, .word (weekdayName d.weekday)
     , .date c.easterYear c.easterMonth c.easterDay, .num d.easterDist, .num c.changeYear ] ++ changeFields c.change ++
     [ .word (if d.noonFlag then "S" else "N"), minuteField d.riseStd, minuteField d.setStd, minuteField d.riseLocal
     , minuteField d.setLocal ]) s

/-- YEAR READ (R33). -/
def yearReadAct (y : Nat) (s : State) : State × Reply :=
  if 2000 ≤ y ∧ y ≤ 2199 then
    answer (.date y (easter y).1 (easter y).2 :: changeFields (changeInstants s.cfg.summer y)) s
  else refuse .range s

/-- SUN READ (R33). -/
def sunReadAct (k : Nat) (s : State) : State × Reply :=
  if unitOk 24 k then
    let a := rd s.cfg.sun k default
    answer [.num a.rise, .num a.set] s
  else refuse .range s

/-- SUMMER -/
def execSummer (r : SummerRule) (s : State) : Host.Outcome State Fault Refusal := request (.summer r) (summerAct r) s

/-- SUN -/
def execSun (k rise set : Nat) (s : State) : Host.Outcome State Fault Refusal :=
  request (.sun k rise set) (sunAct k rise set) s

/-- CALENDAR_READ -/
def execCalendarRead (s : State) : Host.Outcome State Fault Refusal := request .calendarRead calendarReadAct s

/-- YEAR_READ -/
def execYearRead (y : Nat) (s : State) : Host.Outcome State Fault Refusal := request (.yearRead y) (yearReadAct y) s

/-- SUMMER_READ -/
def execSummerRead (s : State) : Host.Outcome State Fault Refusal :=
  request .summerRead (fun s => answer (summerFields s.cfg.summer) s) s

/-- SUN_READ -/
def execSunRead (k : Nat) (s : State) : Host.Outcome State Fault Refusal := request (.sunRead k) (sunReadAct k) s

end Sys2Proof.Machine
end

