-- ==== Sys2Proof/Machine/Bell.lean ====
section
/-! DEFINITION. The commands of the Bell Table (chapter 4). -/

namespace Sys2Proof.Machine

/-- The operational part after a configuration write (R53). -/
def Bell.reconfigured (x : Bell) (old new : BellCfg) : Bell :=
  let x := { x with held := x.held.map fun h => { h with due := max h.due (x.last.getD 0 + new.recovery) } }
  let x := if (old.confirm ∧ !new.confirm) ∨ (old.hammer ∧ !new.hammer) then { x with windows := [], miss := 0 } else x
  if new.missLimit ≤ x.miss then { x with miss := new.missLimit - 1 } else x

/-- A bell's configuration is replaced, and the quarter profiles are rebuilt (R53, R107, R110). -/
def configureBell (b : Nat) (c : BellCfg) (s : State) : State :=
  let x := (s.bell b).reconfigured (s.bellCfg b) c
  frontierLoop (startBuilds false (setBell b x { s with cfg := { s.cfg with bells := wr s.cfg.bells b c } }))

/-- BELL CONFIG (R53). -/
def bellConfigAct (b : Nat) (c : BellCfg) (s : State) : State × Reply :=
  serviceOnly (fun s =>
    if unitOk 24 b && c.drive ≤ 4 then (configureBell b (clampBell c) s, .ok []) else refuse .range s) s

/-- A bell's operational part after BELL SILENT (R65). -/
def Bell.silenced (x : Bell) (on : Bool) : Bell :=
  match x.state, on with
  | .ready, true => x.enter .silent
  | .silent, false => { x.enter .ready with miss := 0 }
  | .fault, true => { x.enter .silent with miss := 0 }
  | _, _ => x

/-- A bell's state as a reply gives it. -/
def bellReply (b : Nat) (s : State) : State × Reply := (s, .ok [.word (bellStateName (s.bell b).state)])

/-- BELL SILENT (R65). -/
def bellSilentAct (b : Nat) (on : Bool) (s : State) : State × Reply :=
  if unitOk 24 b then bellReply b (setBell b ((s.bell b).silenced on) s) else refuse .range s

/-- BELL CLEAR (R66). -/
def bellClearAct (b : Nat) (s : State) : State × Reply :=
  if !unitOk 24 b then refuse .range s
  else if (s.bell b).state = .fault then
    bellReply b (notify .bell [.num b, .word "READY", .word "CLEAR"]
      (setBell b { (s.bell b).enter .ready with miss := 0 } s))
  else bellReply b s

/-- The reply to a creation from the line (R99). -/
def createdReply (c : Created) : Reply :=
  match c with
  | .full => .no .full []
  | .admitted id => .ok [.num id, .word "ADMITTED"]
  | .waiting id => .ok [.num id, .word "WAITING"]
  | .yielded id => .ok [.num id, .word "YIELDED"]

/-- Create a performance from the line and reply (R79, R99). -/
def createFromLine (p : Perf) (s : State) : State × Reply :=
  let (t, c) := createPerf p s
  (t, createdReply c)

/-- BELL TEST (R67). -/
def bellTestAct (b : Nat) (i : Intensity) (s : State) : State × Reply :=
  serviceOnly (fun s =>
    if !unitOk 24 b then refuse .range s
    else if !(s.bellCfg b).hammer then (s, .no .invalid [.word "HAMMER"])
    else if !swingPasses s b then refuse .active s
    else createFromLine (testPerf s b i) s) s

/-- An instant of the run clock, or LONGPAST (R68). -/
def pastField : Option Nat → Field
  | some t => .num t
  | none => .word "LONGPAST"

/-- BELL READ (R68); whether a stroke is held is written YES or NO (log 76). -/
def bellReadAct (b : Nat) (s : State) : State × Reply :=
  if !unitOk 24 b then refuse .range s
  else
    let x := s.bell b
    let held := match x.held with
      | some h => [Field.word "YES", .num h.due]
      | none => [.word "NO", .absent]
    answer
      ([.word (bellStateName x.state), .num x.miss, pastField x.last] ++ held ++
       [ .num x.windows.length, .num x.driven, .num x.silent, .num x.masked, .num x.claims.length
       , optNum (x.claims.head?.map (·.perf)) ] ++ bellFields (s.bellCfg b)) s

/-- A claim record's fields (R76). -/
def claimFields (s : State) (c : Claim) : List Field :=
  [.num c.perf, (match s.perf c.perf with | some p => .word (kindName p.kind) | none => .absent), .num c.level, .num c.order]

/-- CLAIM READ (R76). -/
def claimReadAct (b : Nat) (s : State) : State × Reply :=
  if !unitOk 24 b then refuse .range s
  else
    let l := (s.bell b).claims
    let waiting := (s.perfs.filter fun p => p.state = .waiting && bellIn p.bells b).length
    answer ((if l.isEmpty then [Field.word "NONE"] else l.flatMap (claimFields s)) ++ [.num waiting]) s

/-- The instant of a held stroke's release (R59). -/
def heldDue (b : Nat) (s : State) : Option Nat := s.dueMs ((s.bell b).held.map (·.due))

/-- The instant at which a hammer pulse ends (R61). -/
def pulseDue (b : Nat) (s : State) : Option Nat := s.dueMs (s.bell b).pulse

/-- A hammer output is released (R61). -/
def pulseEnds (b : Nat) (s : State) : State := setBell b { s.bell b with pulse := none } s

/-- The earliest closing instant of a bell's open windows (R62). -/
def windowDue (b : Nat) (s : State) : Option Nat :=
  s.dueMs (match (s.bell b).windows with
    | [] => none
    | w :: l => some (minOr w.closes (l.map (·.closes))))

/-- BELL_CONFIG -/
def execBellConfig (b : Nat) (c : BellCfg) (s : State) : Host.Outcome State Fault Refusal :=
  request (.bellConfig b c) (bellConfigAct b c) s

/-- BELL_SILENT -/
def execBellSilent (b : Nat) (on : Bool) (s : State) : Host.Outcome State Fault Refusal :=
  request (.bellSilent b on) (bellSilentAct b on) s

/-- BELL_CLEAR -/
def execBellClear (b : Nat) (s : State) : Host.Outcome State Fault Refusal := request (.bellClear b) (bellClearAct b) s

/-- BELL_TEST -/
def execBellTest (b : Nat) (i : Intensity) (s : State) : Host.Outcome State Fault Refusal :=
  request (.bellTest b i) (bellTestAct b i) s

/-- BELL_READ -/
def execBellRead (b : Nat) (s : State) : Host.Outcome State Fault Refusal := request (.bellRead b) (bellReadAct b) s

/-- CLAIM_READ -/
def execClaimRead (b : Nat) (s : State) : Host.Outcome State Fault Refusal := request (.claimRead b) (claimReadAct b) s

/-- HELD_STROKE_RELEASE -/
def execHeldStrokeRelease (b : Nat) (s : State) : Host.Outcome State Fault Refusal :=
  ofUnit 24 b (timed (heldDue b s) (releaseHeld b) s)

/-- HAMMER_PULSE_END -/
def execHammerPulseEnd (b : Nat) (s : State) : Host.Outcome State Fault Refusal :=
  ofUnit 24 b (timed (pulseDue b s) (pulseEnds b) s)

/-- CONFIRM_CLOSURE -/
def execConfirmClosure (w b : Nat) (s : State) : Host.Outcome State Fault Refusal := ofUnit 24 b (outside w (confirm b) s)

/-- CONFIRM_WINDOW_CLOSE -/
def execConfirmWindowClose (b : Nat) (s : State) : Host.Outcome State Fault Refusal :=
  ofUnit 24 b (timed (windowDue b s) (missWindow b) s)

end Sys2Proof.Machine
end

