-- ==== Sys2Proof/Machine/Clock.lean ====
section
/-! DEFINITION. The commands of the Clock Strike Unit (chapter 6). -/

namespace Sys2Proof.Machine

/-- CLOCK CONFIG (R103): the settings are replaced and the profiles are rebuilt (R107, R110). -/
def clockConfigAct (c : ClockCfg) (s : State) : State × Reply :=
  serviceOnly (fun s =>
    if clockOk c then (frontierLoop (startBuilds false { s with cfg := { s.cfg with clock := clampClock c } }), .ok [])
    else refuse .range s) s

/-- CLOCK LEVELS (R104). -/
def clockLevelsAct (l : Levels) (s : State) : State × Reply :=
  serviceOnly (fun s =>
    if l.swing ≤ 3 && l.toll ≤ 3 && l.clock ≤ 3 && l.tune ≤ 3 then
      ({ s with cfg := { s.cfg with levels := l } }, .ok [])
    else refuse .range s) s

/-- A day sheet's date, or "-" (R119). -/
def sheetDate : Option Nat → Field
  | some d => dayField d
  | none => .absent

/-- A slot as SHEET READ writes it, in one field (R119). -/
def slotField (x : SheetSlot) : Field := .quarter (quarterOutcomeName x.outcome) x.masked x.repeated

/-- SHEET READ (R119). -/
def sheetReadAct (today : Bool) (first : Option Nat) (s : State) : State × Reply :=
  let k := first.getD 0
  if 95 < k then refuse .range s
  else
    let sh := if today then s.clock.today else s.clock.yesterday
    let slots := (List.range (min 6 (96 - k))).map fun i => slotField (rd sh.slots (k + i + 1) pendingSlot)
    answer ([sheetDate sh.date, .num k] ++ slots) s

/-- A profile's fields (R119). No rule says how n_last, D and E of a profile that is NONE or BUILDING are written: the state word
stands alone, without them and without OVER: the choice of the model (log 91). -/
def profileFields (s : State) (q : Nat) : List Field :=
  match s.profile q with
  | .none => [.word "NONE"]
  | .building _ _ _ _ => [.word "BUILDING"]
  | .ready n d e =>
    [.word "READY", .num n, .num d, .num e] ++ if overLimit s.cfg.clock q d then [.word "OVER"] else []

/-- An instant of local time in ms as date and time of day. -/
def localInstantFields (t : Int) : List Field :=
  let m := (t % (1000 * spanSecs : Nat)).toNat
  [dayField (m / 86400000), .tod (m / 3600000 % 24) (m / 60000 % 60) (m / 1000 % 60) (m % 1000)]

/-- CLOCK READ (R119). The frontier's quarter is written hh:mm, its time of day: the choice of the model (log 86). -/
def clockReadAct (s : State) : State × Reply :=
  let k := s.clock.frontier
  let early := match s.clock.early with
    | some (d, x) => [dayField d, .word (quarterOutcomeName x.outcome), .num x.masked]
    | none => [Field.absent]
  answer
    ([dayField (k / 96), minuteField (k % 96 * 15)] ++ localInstantFields (evaluationAt s k) ++
      [1, 2, 3, 4].flatMap (profileFields s) ++ early ++ clockFields s.cfg.clock ++ levelFields s.cfg.levels) s

/-- CLOCK_CONFIG -/
def execClockConfig (c : ClockCfg) (s : State) : Host.Outcome State Fault Refusal :=
  request (.clockConfig c) (clockConfigAct c) s

/-- CLOCK_LEVELS -/
def execClockLevels (l : Levels) (s : State) : Host.Outcome State Fault Refusal :=
  request (.clockLevels l) (clockLevelsAct l) s

/-- SHEET_READ -/
def execSheetRead (today : Bool) (first : Option Nat) (s : State) : Host.Outcome State Fault Refusal :=
  request (.sheetRead today first) (sheetReadAct today first) s

/-- CLOCK_READ -/
def execClockRead (s : State) : Host.Outcome State Fault Refusal := request .clockRead clockReadAct s

/-- QUARTER_EVALUATION -/
def execQuarterEvaluation (s : State) : Host.Outcome State Fault Refusal := timed (quarterDue s) evaluateFrontier s

end Sys2Proof.Machine
end

