-- ==== Sys2Proof/Machine/Dial.lean ====
section
/-! DEFINITION. The commands of the Dial Drive (chapter 3). -/

namespace Sys2Proof.Machine

/-- Replace a dial's configuration and adjust its record (R35). -/
def configureDial (n : Nat) (c : DialCfg) (s : State) : State :=
  let x := noonFieldChanged (s.dialCfg n) c (s.dial n)
  setDial n { x with step := c.step } { s with cfg := { s.cfg with dials := wr s.cfg.dials n c } }

/-- DIAL CONFIG (R35). -/
def dialConfigAct (n : Nat) (c : DialCfg) (s : State) : State × Reply :=
  serviceOnly (fun s =>
    if !unitOk 4 n || !dialOk c then refuse .range s
    else if (s.dialCfg n).step ≠ c.step ∧ (s.dial n).pos.isSome then (s, .no .invalid [.word "STEP"])
    else (configureDial n (clampDial c) s, .ok [])) s

/-- A dial's state as a reply gives it. -/
def dialReply (n : Nat) (s : State) : State × Reply := (s, .ok [.word (dialStateName (dialState s n))])

/-- The record after DIAL SET with a position or UNKNOWN (R46). -/
def dialPlaced (c : DialCfg) (p : Option Nat) (pol : Option Polarity) (x : Dial) : Dial :=
  match p with
  | some _ =>
    { x with
      pos := p
      count := 0
      pol := pol.getD x.pol
      stored := if x.stored = .stopped then .stopped else .derived }
  | none =>
    let x := { x with pos := none, count := 0 }
    if x.stored = .stopped then x else seekOrUnknown c x

/-- DIAL SET (R46). -/
def dialSetAct (n : Nat) (p : Option Nat) (pol : Option Polarity) (s : State) : State × Reply :=
  if !unitOk 4 n || p.any fun k => positions (s.dialCfg n) ≤ k then refuse .range s
  else dialReply n (setDial n (dialPlaced (s.dialCfg n) p pol (s.dial n)) s)

/-- DIAL STOP (R47). -/
def dialStopAct (n : Nat) (s : State) : State × Reply :=
  if !unitOk 4 n then refuse .range s else dialReply n (setDial n { s.dial n with stored := .stopped } s)

/-- The record after DIAL GO (R47). -/
def dialGone (c : DialCfg) (x : Dial) : Dial :=
  if x.stored ≠ .stopped then x
  else
    match x.pos with
    | some _ => { x with stored := .derived }
    | none => seekOrUnknown c x

/-- DIAL GO (R47). -/
def dialGoAct (n : Nat) (s : State) : State × Reply :=
  if !unitOk 4 n then refuse .range s else dialReply n (setDial n (dialGone (s.dialCfg n) (s.dial n)) s)

/-- A noon outcome's name (R37). -/
def noonName : NoonOutcome → String
  | .none => "NONE" | .good => "GOOD" | .slip => "SLIP" | .found => "FOUND" | .missed => "MISSED"

/-- DIAL READ (R48). -/
def dialReadAct (n : Nat) (s : State) : State × Reply :=
  if !unitOk 4 n then refuse .range s
  else
    let x := s.dial n
    let td := match x.pos with
      | some p => [Field.num (dialTarget s n), .num (dialDiff s n p)]
      | none => [.absent, .absent]
    answer
      ([.word (dialStateName (dialState s n)), posField x.pos] ++ td ++
       [ .word (polarityName x.pol), .word (if x.isOpen then "OPEN" else "CLOSED"), .num x.count, .num x.slips
       , .word (noonName x.noon) ] ++ dialFields (s.dialCfg n)) s

/-- An impulse begins (R41, R43, R44). -/
def impulseStart (n : Nat) (s : State) : State :=
  let x := s.dial n
  let (faults, y) := startImpulse (s.dialCfg n) s.now x
  let s := setDial n y s
  if faults then notify .dial [.num n, .word "FAULT", posField x.pos] s else s

/-- An impulse ends (R41). -/
def impulseEnd (n : Nat) (s : State) : State := setDial n { s.dial n with isOpen := false, out := none } s

/-- A closure of a DERIVED dial is checked (R42). -/
def checkNoon (n p : Nat) (s : State) : State :=
  let (slipped, y) := noonCheck (s.dialCfg n) p (s.dial n)
  let s := setDial n y s
  if slipped then notify .dial [.num n, .word "SLIP", .num p] s else s

/-- A closure ends a search, or recovers a dial whose position is unknown (R43, R44). -/
def foundNoon (n : Nat) (s : State) : State :=
  setDial n { s.dial n with pos := some 0, count := 0, stored := .derived, noon := .found } s

/-- A closure acts by the stored state (R42, R43, R44). -/
def closureActs (n : Nat) (s : State) : State :=
  let x := s.dial n
  match x.stored, x.pos with
  | .derived, some p => checkNoon n p s
  | .derived, none => s
  | .searching, _ => notify .dial [.num n, .word "FOUND"] (foundNoon n s)
  | .fault, some p =>
    let s := checkNoon n p s
    let s := setDial n { s.dial n with stored := .derived } s
    notify .dial [.num n, .word "RECOVERED", posField (s.dial n).pos] s
  | .fault, none => notify .dial [.num n, .word "RECOVERED", .num 0] (foundNoon n s)
  | .unknown, _ => s
  | .stopped, _ => s

/-- A noon closure: ignored on an input that is not fitted, or before the contact has been open again (R42). -/
def noonClosure (n : Nat) (s : State) : State :=
  let x := s.dial n
  if !(s.dialCfg n).noon || !x.armed then s else closureActs n (setDial n { x with armed := false } s)

/-- A noon contact has been open for 50 ms (R42), whether or not it is configured as fitted (log 58). -/
def noonOpen (n : Nat) (s : State) : State := setDial n { s.dial n with armed := true } s

/-- DIAL_CONFIG -/
def execDialConfig (n : Nat) (c : DialCfg) (s : State) : Host.Outcome State Fault Refusal :=
  request (.dialConfig n c) (dialConfigAct n c) s

/-- DIAL_SET -/
def execDialSet (n : Nat) (p : Option Nat) (pol : Option Polarity) (s : State) : Host.Outcome State Fault Refusal :=
  request (.dialSet n p pol) (dialSetAct n p pol) s

/-- DIAL_STOP -/
def execDialStop (n : Nat) (s : State) : Host.Outcome State Fault Refusal := request (.dialStop n) (dialStopAct n) s

/-- DIAL_GO -/
def execDialGo (n : Nat) (s : State) : Host.Outcome State Fault Refusal := request (.dialGo n) (dialGoAct n) s

/-- DIAL_READ -/
def execDialRead (n : Nat) (s : State) : Host.Outcome State Fault Refusal := request (.dialRead n) (dialReadAct n) s

/-- DIAL_IMPULSE_START -/
def execDialImpulseStart (n : Nat) (s : State) : Host.Outcome State Fault Refusal :=
  ofUnit 4 n (timed (impulseDue n s) (impulseStart n) s)

/-- DIAL_IMPULSE_END -/
def execDialImpulseEnd (n : Nat) (s : State) : Host.Outcome State Fault Refusal :=
  ofUnit 4 n (timed (impulseEndDue n s) (impulseEnd n) s)

/-- NOON_CLOSURE -/
def execNoonClosure (w n : Nat) (s : State) : Host.Outcome State Fault Refusal := ofUnit 4 n (outside w (noonClosure n) s)

/-- NOON_CONTACT_OPEN -/
def execNoonContactOpen (w n : Nat) (s : State) : Host.Outcome State Fault Refusal := ofUnit 4 n (outside w (noonOpen n) s)

end Sys2Proof.Machine
end

