-- ==== Sys2Proof/Machine/Light.lean ====
section
/-! DEFINITION. The commands of the Lighting Controller and the Measurement Unit (chapter 10). -/

namespace Sys2Proof.Machine

/-! ### Requests -/

/-- A measurement of a channel in progress is spoiled (R182). -/
def spoil (n : Nat) (s : State) : State :=
  { s with lights :=
    { s.lights with conv := s.lights.conv.map fun m => if m.channel = some n then { m with spoiled := true } else m } }

/-- LIGHT CONFIG (R172, R182). -/
def lightConfigAct (n : Nat) (c : LightCfg) (s : State) : State × Reply :=
  serviceOnly (fun s =>
    if unitOk 16 n && c.nominal ≤ 255 then
      let x := s.chan n
      let x := { x with run := none, lamp := if x.lamp = .tripped then .tripped else .unchecked }
      (spoil n (setChan n x { s with cfg := { s.cfg with lights := wr s.cfg.lights n (clampLight c) } }), .ok [])
    else refuse .range s) s

/-- The scene a request's pairs give (R173). -/
def sceneOf (fade : Nat) (pairs : List (Nat × Nat)) : Scene :=
  { fade := clampN fade 0 6000
    levels := pairs.foldl (fun v p => wr v p.1 (some (clampN p.2 0 4095))) (Vector.replicate 16 none) }

/-- SCENE WRITE (R173). -/
def sceneWriteAct (k fade : Nat) (pairs : List (Nat × Nat)) (s : State) : State × Reply :=
  if unitOk 32 k && pairs.all (fun p => unitOk 16 p.1) then
    ({ s with cfg := { s.cfg with scenes := wr s.cfg.scenes k (sceneOf fade pairs) } }, .ok [])
  else refuse .range s

/-- SCENE READ (R173). Each pair is one field ch:level, as SCENE WRITE takes it: the choice of the model (log 85). -/
def sceneReadAct (k : Nat) (s : State) : State × Reply :=
  if k ≤ 32 then
    let sc := s.scene k
    answer (.num sc.fade :: allChans.flatMap fun n =>
      match rd sc.levels n none with
      | some l => [Field.pair n l]
      | none => []) s
  else refuse .range s

/-- LIGHT SITE (R174, R186). -/
def lightSiteAct (c : SiteCfg) (s : State) : State × Reply :=
  serviceOnly (fun s =>
    if siteOk c then
      let s := { s with cfg := { s.cfg with site := clampSite c } }
      (if s.tb.set then s else applyFallback s, .ok [])
    else refuse .range s) s

/-- A channel field: one channel, or ALL (R178). -/
def chanOk : Option Nat → Bool
  | some n => unitOk 16 n
  | none => true

/-- The reply to LIGHT and LIGHT RELEASE: the target of the channel, or of channel 1 for ALL (R178). -/
def targetReply (ch : Option Nat) (s : State) : State × Reply := (s, .ok [.num (s.chan (ch.getD 1)).target])

/-- LIGHT (R178). -/
def lightAct (ch : Option Nat) (level : Nat) (fade : Option Nat) (mode : OverrideMode) (s : State) : State × Reply :=
  if chanOk ch then
    targetReply ch
      (setOverride (some { level := clampN level 0 4095, mode := mode, panel := false }) (fadeOf fade) (chansOf ch) s)
  else refuse .range s

/-- LIGHT RELEASE (R178). -/
def lightReleaseAct (ch : Option Nat) (fade : Option Nat) (s : State) : State × Reply :=
  if chanOk ch then targetReply ch (setOverride none (fadeOf fade) (chansOf ch) s) else refuse .range s

/-- A lamp state's name (R175). -/
def lampName : LampState → String
  | .unchecked => "UNCHECKED" | .ok => "OK" | .low => "LOW" | .tripped => "TRIPPED"

/-- A channel returned from TRIPPED: it fades from 0 to its target (R184). -/
def clearedChan (x : Channel) (n now : Nat) : Channel :=
  Channel.startFade { x with lamp := .unchecked, run := none, output := 0 } x.target n now

/-- LIGHT CLEAR (R184). -/
def lightClearAct (n : Nat) (fade : Option Nat) (s : State) : State × Reply :=
  if !unitOk 16 n then refuse .range s
  else if (s.chan n).lamp ≠ .tripped then answer [.word (lampName (s.chan n).lamp)] s
  else
    (notify .lamp [.num n, .word "CLEAR"] (setChan n (clearedChan (s.chan n) (fadeOf fade) s.now) s)
    , .ok [.word (lampName .unchecked)])

/-- A verdict's name (R183). -/
def verdictName : Verdict → String
  | .good => "GOOD" | .low => "LOW" | .tooHigh => "OVER"

/-- An override's fields (R187). -/
def overrideFields : Option Override → List Field
  | none => [.absent]
  | some o =>
    [ .num o.level, .word (match o.mode with | .hold => "HOLD" | .next => "NEXT")
    , .word (if o.panel then "PANEL" else "LINE") ]

/-- LIGHT READ (R187). -/
def lightReadAct (n : Nat) (s : State) : State × Reply :=
  if !unitOk 16 n then refuse .range s
  else
    let c := s.chan n
    let perf := match c.perf with
      | none => [Field.absent]
      | some l => [.num l, optNum (contributor s.lights.contribs n)]
    let fade := match c.fade with
      | none => [Field.absent]
      | some f => [.num f.start, .num f.target, .num f.len, .num f.k]
    let run := match c.run with
      | none => [Field.absent]
      | some (v, k) => [.word (verdictName v), .num k]
    answer
      ([optNum c.base] ++ perf ++ overrideFields c.override ++ [.num c.target, .num c.output] ++ fade ++
       [.num (s.now - c.lastFadeEnd : Nat), .word (lampName c.lamp)] ++ run ++ [optNum c.code] ++
       lightFields (s.lightCfg n)) s

/-- A dusk state's name (R185). -/
def duskName : DuskState → String
  | .unknown => "UNKNOWN" | .dark => "DARK" | .light => "LIGHT"

/-- DUSK READ (R187). -/
def duskReadAct (s : State) : State × Reply :=
  let l := s.lights
  answer
    ([ .word (duskName l.dusk), optNum l.duskCode, .num l.darkRun, .num l.lightRun, onOff l.panelOn
     , .num l.contribs.length ] ++ siteFields s.cfg.site) s

/-! ### Fades and modulation -/

/-- The instant of a channel's next fade step (R180). -/
def fadeDue (n : Nat) (s : State) : Option Nat := s.dueMs ((s.chan n).fade.map (·.next))

/-- A channel after one step of its fade (R180). -/
def Channel.faded (c : Channel) (now : Nat) : Channel :=
  match c.fade with
  | none => c
  | some f =>
    let f := { f with k := f.k + 1, next := f.next + 100 }
    if f.len ≤ f.k then { c with output := f.target, fade := none, lastFadeEnd := now }
    else { c with output := fadeOutput f, fade := some f }

/-- A fade step (R180). -/
def fadeStep (n : Nat) (s : State) : State := setChan n ((s.chan n).faded s.now) s

/-- The slots driven in period `j` at level `l` (R181). -/
def slotsDriven (l j : Nat) : Nat :=
  l / 32 + if j * (l % 32) / 32 < (j + 1) * (l % 32) / 32 then 1 else 0

/-- The start of a channel's next modulator period (R181). -/
def pwmDue (n : Nat) (s : State) : Option Nat := s.dueMs (some (s.chan n).pwmNext)

/-- A channel as a modulator period begins (R181). -/
def Channel.modulated (c : Channel) : Channel :=
  let j := (c.pwmJ + 1) % 32
  { c with pwmJ := j, pwmLevel := c.output, pwmSlots := slotsDriven c.output j, pwmNext := c.pwmNext + 10 }

/-- A modulator period begins (R181). -/
def pwmPeriod (n : Nat) (s : State) : State := setChan n (s.chan n).modulated s

/-! ### Measurements -/

/-- The instant of the next lamp slot (R182). -/
def lampDue (s : State) : Option Nat := s.dueMs (some s.lights.lampNext)

/-- The lamp slot: it takes the converter, or waits for the measurement in progress (R182). -/
def lampSlot (s : State) : State :=
  let s := { s with lights := { s.lights with lampNext := s.lights.lampNext + 100 } }
  if s.lights.conv.isNone then beginLamp s else { s with lights := { s.lights with lampWaits := true } }

/-- The instant of the next dusk sample (R182). -/
def duskDue (s : State) : Option Nat := s.dueMs (some s.lights.duskNext)

/-- The dusk sample: it takes the converter, or waits (R182). -/
def duskSample (s : State) : State :=
  let s := { s with lights := { s.lights with duskNext := s.lights.duskNext + 1000 } }
  if s.lights.conv.isNone then beginDusk s else { s with lights := { s.lights with duskWaits := true } }

/-- The instant at which a lamp measurement ends (R182). -/
def lampEndDue (s : State) : Option Nat :=
  s.dueMs (match s.lights.conv with
    | some m => if m.channel.isSome then some m.ends else none
    | none => none)

/-- The instant at which a photocell measurement ends (R182). -/
def duskEndDue (s : State) : Option Nat :=
  s.dueMs (match s.lights.conv with
    | some m => if m.channel.isSome then none else some m.ends
    | none => none)

/-- The verdict on code `m` of a channel at output `l` (R183). -/
def verdictOf (g : LightCfg) (l m : Nat) : Verdict :=
  if m * 100 < g.nominal * l / 4095 * g.lampout then .low
  else if g.nominal * g.overPct < m * 100 then .tooHigh
  else .good

/-- The verdict run after a verdict (R183). -/
def runAfter (r : Option (Verdict × Nat)) (v : Verdict) : Verdict × Nat :=
  match r with
  | some (w, k) => if w = v then (v, min (k + 1) 3) else (v, 1)
  | none => (v, 1)

/-- A confirmed verdict acts on the channel, with the notice it raises (R183). DESIGN CHOICE: a trip leaves the slots of the
modulator period in progress (log 62). -/
def confirmVerdict (v : Verdict) (m : Nat) (n : Nat) (c : Channel) : Channel × Option (List Field) :=
  match v, c.lamp with
  | .good, .low => ({ c with lamp := .ok }, some [.num n, .word "OK"])
  | .good, .unchecked => ({ c with lamp := .ok }, none)
  | .low, .unchecked => ({ c with lamp := .low }, some [.num n, .word "LOW", .num m])
  | .low, .ok => ({ c with lamp := .low }, some [.num n, .word "LOW", .num m])
  | .tooHigh, .unchecked | .tooHigh, .ok | .tooHigh, .low =>
    ({ c with lamp := .tripped, output := 0, fade := none, run := none }, some [.num n, .word "TRIPPED", .num m])
  | _, _ => (c, none)

/-- A lamp measurement of channel `n` at output `l` gives code `m` (R183). -/
def judgeLamp (n l m : Nat) (s : State) : State :=
  let c := s.chan n
  let r := runAfter c.run (verdictOf (s.lightCfg n) l m)
  let c := { c with code := some m, run := some r }
  if r.2 = 3 then
    let (c, detail) := confirmVerdict r.1 m n c
    let s := setChan n c s
    match detail with
    | some d => notify .lamp d s
    | none => s
  else setChan n c s

/-- A lamp measurement ends; a spoiled one is discarded (R182, R183). -/
def lampMeasured (code : ConvCode) (s : State) : State :=
  match s.lights.conv with
  | some { channel := some n, level := l, spoiled := false, .. } => freeConverter (judgeLamp n l code.toNat s)
  | _ => freeConverter s

/-- The dusk runs after a sample (R185). -/
def duskRuns (c : SiteCfg) (d : Nat) (l : Lights) : Lights :=
  if d < c.threshold then { l with darkRun := min (l.darkRun + 1) 60, lightRun := 0 }
  else if c.threshold + c.hysteresis < d then { l with lightRun := min (l.lightRun + 1) 60, darkRun := 0 }
  else { l with darkRun := 0, lightRun := 0 }

/-- A change of dusk state: the notice, dusk-early firing, the fallback (R185, R166, R186). -/
def duskChanged (x : DuskState) (d : Nat) (s : State) : State :=
  let s := notify .dusk [.word (duskName x), .num d] { s with lights := { s.lights with dusk := x } }
  let s := if x = .dark then duskFiring s else s
  if s.tb.set then s else applyFallback s

/-- A dusk sample gives code `d` (R185). It is judged by the threshold and hysteresis in force as its measurement ends, also
where LIGHT SITE was taken during it: the reading of the model (log 84). -/
def judgeDusk (d : Nat) (s : State) : State :=
  let s := { s with lights := { duskRuns s.cfg.site d s.lights with duskCode := some d } }
  if 60 ≤ s.lights.darkRun ∧ s.lights.dusk ≠ .dark then duskChanged .dark d s
  else if 60 ≤ s.lights.lightRun ∧ s.lights.dusk ≠ .light then duskChanged .light d s
  else s

/-- A photocell measurement ends (R182, R185). -/
def duskMeasured (code : ConvCode) (s : State) : State :=
  match s.lights.conv with
  | some { spoiled := false, .. } => freeConverter (judgeDusk code.toNat s)
  | _ => freeConverter s

/-- LIGHT_CONFIG -/
def execLightConfig (n : Nat) (c : LightCfg) (s : State) : Host.Outcome State Fault Refusal :=
  request (.lightConfig n c) (lightConfigAct n c) s

/-- SCENE_WRITE -/
def execSceneWrite (k fade : Nat) (ps : List (Nat × Nat)) (s : State) : Host.Outcome State Fault Refusal :=
  request (.sceneWrite k fade ps) (sceneWriteAct k fade ps) s

/-- SCENE_READ -/
def execSceneRead (k : Nat) (s : State) : Host.Outcome State Fault Refusal := request (.sceneRead k) (sceneReadAct k) s

/-- LIGHT_SITE -/
def execLightSite (c : SiteCfg) (s : State) : Host.Outcome State Fault Refusal := request (.lightSite c) (lightSiteAct c) s

/-- LIGHT -/
def execLight (ch : Option Nat) (level : Nat) (fade : Option Nat) (mode : OverrideMode) (s : State) :
    Host.Outcome State Fault Refusal := request (.light ch level fade mode) (lightAct ch level fade mode) s

/-- LIGHT_RELEASE -/
def execLightRelease (ch : Option Nat) (fade : Option Nat) (s : State) : Host.Outcome State Fault Refusal :=
  request (.lightRelease ch fade) (lightReleaseAct ch fade) s

/-- LIGHT_CLEAR -/
def execLightClear (n : Nat) (fade : Option Nat) (s : State) : Host.Outcome State Fault Refusal :=
  request (.lightClear n fade) (lightClearAct n fade) s

/-- LIGHT_READ -/
def execLightRead (n : Nat) (s : State) : Host.Outcome State Fault Refusal := request (.lightRead n) (lightReadAct n) s

/-- DUSK_READ -/
def execDuskRead (s : State) : Host.Outcome State Fault Refusal := request .duskRead duskReadAct s

/-- FADE_STEP -/
def execFadeStep (n : Nat) (s : State) : Host.Outcome State Fault Refusal :=
  ofUnit 16 n (timed (fadeDue n s) (fadeStep n) s)

/-- LAMP_SLOT -/
def execLampSlot (s : State) : Host.Outcome State Fault Refusal := timed (lampDue s) lampSlot s

/-- LAMP_MEASUREMENT_END -/
def execLampMeasurementEnd (code : ConvCode) (s : State) : Host.Outcome State Fault Refusal :=
  timed (lampEndDue s) (lampMeasured code) s

/-- DUSK_SAMPLE -/
def execDuskSample (s : State) : Host.Outcome State Fault Refusal := timed (duskDue s) duskSample s

/-- DUSK_MEASUREMENT_END -/
def execDuskMeasurementEnd (code : ConvCode) (s : State) : Host.Outcome State Fault Refusal :=
  timed (duskEndDue s) (duskMeasured code) s

/-- PWM_PERIOD -/
def execPwmPeriod (n : Nat) (s : State) : Host.Outcome State Fault Refusal :=
  ofUnit 16 n (timed (pwmDue n s) (pwmPeriod n) s)

end Sys2Proof.Machine
end

