-- ==== Sys2Proof/Machine/StartOps.lean ====
section
/-! DEFINITION. Validation (R198), and the three kinds of start: the image load and the profile builds of start-up
(R202), the COLD and WARM columns (R20, R34, R52, R77, R102, R120, R137, R154, R171, R188, R203), and the RESTART
(R200). -/

namespace Sys2Proof.Machine

/-! ### Validation -/

/-- Item 1, SUN: the lowest anchor whose sunrise is not before its sunset (R30). -/
def validSun (s : State) : Option (List Field) :=
  (((List.range 24).map (· + 1)).find? fun k =>
    let a := rd s.cfg.sun k default
    a.set ≤ a.rise).map fun (k : Nat) => [.word "SUN", .num k]

/-- Item 2, SUMMER (R29). -/
def validSummer (s : State) : Option (List Field) :=
  let r := s.cfg.summer
  if !ruleInert r && r.start.month = r.stop.month then some [.word "SUMMER"] else none

/-- Item 3, DIAL: the lowest dial whose interval is below its width plus 200 ms (R36). -/
def validDial (s : State) : Option (List Field) :=
  ([1, 2, 3, 4].find? fun n => (s.dialCfg n).interval < (s.dialCfg n).width + 200).map fun (n : Nat) => [.word "DIAL", .num n]

/-- Item 4, RECOVERY: the lowest bell whose recovery is below its largest width plus 20 ms (R54). -/
def validRecovery (s : State) : Option (List Field) :=
  (allBells.find? fun b =>
    let c := s.bellCfg b
    c.recovery < max c.wSoft (max c.wNormal c.wStrong) + 20).map fun (b : Nat) => [.word "RECOVERY", .num b]

/-- Item 5, HOURBELL: the hour bell and any stand-in have hammers, unless the quarters mode is OFF (R105). -/
def validHourBell (s : State) : Option (List Field) :=
  let c := s.cfg.clock
  if c.mode = .off then none
  else if !(s.bellCfg c.hourBell).hammer then some [.word "HOURBELL", .num c.hourBell]
  else if unitOk 24 c.standIn && !(s.bellCfg c.standIn).hammer then some [.word "HOURBELL", .num c.standIn]
  else none

/-- Item 6 for one quarter (R105). Of several bells without a hammer, the lowest is named (log 66). -/
def validQuarter (s : State) (q : Nat) : Option (List Field) :=
  let n := quarterSlot s.cfg.clock q
  let e := s.slot n
  if !unitOk 64 n || e.state ≠ .closed then none
  else
    match (bellList e.bells).find? fun b => !(s.bellCfg b).hammer with
    | some b => some [.word "QUARTER", .num q, .word "HAMMER", .num b]
    | none =>
      match s.profile q with
      | .ready _ d _ => if overLimit s.cfg.clock q d then some [.word "QUARTER", .num q, .word "LENGTH"] else none
      | _ => some [.word "QUARTER", .num q, .word "BUILDING"]

/-- Item 6, QUARTER (R105). -/
def validQuarters (s : State) : Option (List Field) :=
  if s.cfg.clock.mode = .all then [1, 2, 3, 4].findSome? (validQuarter s) else none

/-- The validation: the first item that fails, with its detail (R198). -/
def validation (s : State) : Option (List Field) :=
  [validSun, validSummer, validDial, validRecovery, validHourBell, validQuarters].findSome? fun f => f s

/-- Entry to RUN after a validation that passed, or SERVICE after one that failed; the result is kept (R198). -/
def enterMode (v : Option (List Field)) (s : State) : State :=
  let s := { s with line := { s.line with mode := if v.isNone then .run else .service, lastValidation := some v } }
  if v.isNone ∧ s.tb.set then catchUp s else s

/-! ### RESTART -/

/-- The step of a dial whose position is known is kept; its other fields are the loaded ones (R52). -/
def keepSteps (dials : Vector Dial 4) (step : Nat → Nat) (c : Settings) : Settings :=
  { c with dials := tableOf 4 fun n =>
      let x := rd c.dials n defaultDial
      if (rd dials n (coldDial defaultDial)).pos.isSome then { x with step := step n } else x }

/-- A dial's RESTART column (R52). -/
def restartDial (old new : DialCfg) (x : Dial) : Dial := { noonFieldChanged old new x with step := new.step }

/-- A bell's RESTART column (R77). -/
def restartBell (x : Bell) : Bell :=
  { x with
    state := if x.state = .silent then .silent else .ready
    miss := 0, held := none, windows := [], driven := 0, silent := 0, masked := 0, claims := [] }

/-- A swing drive's RESTART column (R137). -/
def restartDrive (now : Nat) (x : Drive) : Drive :=
  let x := { x with perf := none, lowerAt := none, swings := 0 }
  match x.state with
  | .raising | .ringing =>
    { x with state := .lowering, entry := now, run := 0, brake := false, motor := none }
  | .down | .settling | .fault | .lowering => { x with motor := none }

/-- A lighting channel's RESTART column; its modulator runs on (R188, R181). -/
def restartChannel (now : Nat) (c : Channel) : Channel :=
  { startChannel with
    lastFadeEnd := now
    lamp := if c.lamp = .tripped then .tripped else .unchecked
    pwmJ := c.pwmJ, pwmLevel := c.pwmLevel, pwmSlots := c.pwmSlots, pwmNext := c.pwmNext }

/-- The lights' RESTART column, before the fallback (R188). -/
def restartLights (now : Nat) (l : Lights) : Lights :=
  { l with
    chans := l.chans.map (restartChannel now)
    contribs := []
    panelOn := false
    lastMeasured := 16
    conv := l.conv.map fun m => { m with spoiled := true } }

/-- The clock's RESTART column: the slots of CLOCK records in ADMITTED return to PENDING and the frontier goes back to
the earliest of them (R120). -/
def restartClock (s : State) : State :=
  let ks := s.perfs.filterMap admittedQuarter
  let s := ks.foldl pendQuarter s
  setFrontier (minOr s.clock.frontier (ks.map (quarterNumber s.clock.today.date))) s

/-- The engine's RESTART column: the table is emptied without notices (R102). -/
def restartEngine (s : State) : State :=
  { s with perfs := [], lastId := 0, nextOrder := 1, voices := Vector.replicate 4 freeVoice }

/-- The line's RESTART column; the rate is in effect after the reply (R203). -/
def restartLine (l : Line) : Line :=
  { l with
    latch := Vector.replicate 10 none
    mask := Vector.replicate 10 true
    mode := .service
    lastStart := .restart
    lastValidation := none
    restart := .building }

/-- Put the reply of a RESTART in its place (R200). -/
def answerBusy (x : LineSlot) : List LineSlot → List LineSlot
  | [] => []
  | .busy :: l => x :: l
  | y :: l => y :: answerBusy x l

/-- Steps 3 and 4 of a RESTART, when every build started in step 2 has ended (R200). -/
def finishRestart (s : State) : State :=
  if s.line.restart ≠ .building || anyAwaited s then s
  else
    let v := validation s
    let s := enterMode v s
    let reply := match v with
      | none => Reply.ok [.word "RUN"]
      | some d => .ok (.word "SERVICE" :: d)
    { s with line := { s.line with
        restart := .none
        slots := answerBusy (.ready reply (some s.cfg.rate)) s.line.slots } }

/-- Step 2 of a RESTART: every block takes its RESTART column with the reloaded configuration (R200). The reference
setting stands as it is (R20). A change of the flag is announced after the columns are taken, the fallback is applied and
the builds are begun, and before the frontier loop: the order of the model (log 81). -/
def restartEvent (im : Image) (s : State) : State :=
  let old := s.cfg
  let oldFlag := s.tb.flag
  let oldOffset := s.offset
  let now := s.now
  let cfg := keepSteps s.dials (fun n => (rd old.dials n defaultDial).step) im.settings
  let s := restartEngine (restartClock s)
  let s := { s with
    cfg := cfg
    dials := tableOf 4 fun n => restartDial (rd old.dials n defaultDial) (rd cfg.dials n defaultDial) (s.dial n)
    bells := s.bells.map restartBell
    drives := s.drives.map (restartDrive now)
    lights := restartLights now s.lights
    line := restartLine s.line }
  let s := if s.tb.set then s else applyFallback s
  let s := startBuilds true s
  finishRestart (frontierLoop (afterRule oldFlag oldOffset s))

/-! ### Start-up -/

/-- Step 4 of start-up ends when the builds have ended: with an image the validation decides the mode (R202). -/
def finishStartUp (s : State) : State :=
  if s.power.phase ≠ .starting || !s.power.building || anyAwaited s then s
  else
    let v := validation s
    { s with power := { s.power with
        building := false, ready := true, validation := some v, mode := if v.isNone then .run else .service } }

/-- Steps 3 and 4 of start-up: the configuration is that of the image, or the defaults of every chapter, and the profile
builds start. A dial whose position is known at a WARM start keeps the step retained with its record (R52, R202). -/
def adoptImage (im : Option Image) (s : State) : State :=
  let settings := (im.map (·.settings)).getD defaultSettings
  let cfg := if s.power.kind = .warm then keepSteps s.dials (fun n => (s.dial n).step) settings else settings
  let s := { s with
    cfg := cfg
    power := { s.power with refOn := (im.map (·.refOn)).getD true, building := im.isSome, mode := .service
                            validation := none, ready := im.isNone } }
  finishStartUp (startBuilds true s)

/-- Step 2 of start-up: one page read of the directory area for each slot (R153, log 21). -/
def startScan (s : State) : State :=
  let k := s.store.serial + 1
  kick { s with store :=
    { s.store with
      serial := k
      reads := s.store.reads ++ (List.range 64).map fun i => { reader := .scan (i + 1), serial := k, slot := i + 1, page := 0 } } }

/-- The last scan read has come: the directory is put in order, and the image load begins where there is an image
(R153, R202). -/
def scanEnds (s : State) : State :=
  let st := scanDirectory s.store
  let s := { s with
    store := st
    power := { s.power with scanned := some ((slotsIn st.slots .incomplete).length, (slotsIn st.slots .erasing).length) } }
  match currentImage s.store with
  | some _ => startImageLoad s
  | none => adoptImage none s

/-- Main power returns: step 1 of start-up decides the kind of start, and the scan begins (R201, R202). The run clock's
count serves as the start-up's own clock until step 5 (log 30). -/
def powerReturns (valid : Bool) (s : State) : State :=
  startScan
    { s with
      tb := { s.tb with runUs := 0 }
      power := { s.power with
        phase := .starting, kind := if valid && s.tb.set then .warm else .cold, scanned := none, building := false
        mode := .service, validation := none, ready := false } }

/-- A dial's WARM column: an impulse that power cut off is taken to have stepped (R51, R52). The stored state is retained,
also where the loaded noon field is not the one it was kept under (log 63). -/
def warmDial (c : DialCfg) (x : Dial) : Dial :=
  { x with isOpen := false, step := c.step, last := none, openEnd := 0, out := none, armed := true }

/-- The clock's COLD or WARM column; the profiles are those just built (R120). -/
def startClock (warm : Bool) (c : ClockUnit) : ClockUnit := if warm then c else { coldClock with profiles := c.profiles }

/-- The schedule's COLD or WARM column (R171). -/
def startSchedule (warm : Bool) (c : Schedule) : Schedule := if warm then { c with panelSilence := false } else coldSchedule

/-- The Timebase's COLD or WARM column (R20). -/
def startTimebase (warm : Bool) (t : Timebase) : Timebase :=
  if warm then { coldTimebase with secs := t.secs, set := true, trim := t.trim } else coldTimebase

/-- The operation in progress as the run clock begins again at 0. -/
def rebase (now : Nat) (st : Store) : Store := { st with op := st.op.map fun p => (p.1, p.2 - now) }

/-- Step 5 of start-up: every block takes its COLD or WARM column (R202). At a COLD start it is standard time that reads
2000-01-01 00:00:00 (R20), and local time lies the offset ahead where the loaded rule is in force then: the reading of the
model (log 82). -/
def startColumns (s : State) : State :=
  let warm := decide (s.power.kind = .warm)
  recalc
    { s with
      tb := startTimebase warm s.tb
      ref := startRef s.power.refOn
      dials := tableOf 4 fun n => if warm then warmDial (s.dialCfg n) (s.dial n) else coldDial (s.dialCfg n)
      bells := Vector.replicate 24 startBell
      perfs := []
      lastId := 0
      nextOrder := 1
      voices := Vector.replicate 4 freeVoice
      clock := startClock warm s.clock
      drives := Vector.replicate 4 startDrive
      store := rebase s.now s.store
      sched := startSchedule warm s.sched
      lights := startLights
      line := startLine s.cfg.rate s.power.mode s.power.kind s.power.validation
      keys := startKeys
      power := { powerOn with lostAt := s.power.lostAt, kind := s.power.kind, refOn := s.power.refOn } }

/-- The local instant, in seconds, the WARM announcement runs from: the retained last evaluated minute, or the start of
the local minute in which main power was lost (R20). That local minute is the one by the summer-time rule loaded at the
start, since the Retained Memory keeps the loss in standard time (R201, log 73). -/
def warmFrom (s : State) : Nat :=
  match s.sched.lastEval with
  | some m => m * 60
  | none =>
    let t := s.power.lostAt
    let l := t + if inForce s.cfg.summer t then s.cfg.summer.offset * 60 else 0
    l / 60 * 60

/-- The large-step announcement after a WARM start, in local time as the loaded rule gives it, and always forward, from the
retained last evaluated minute, which a wrap during the outage then makes absent (R20, R160, logs 70, 73). -/
def announceWarm (wrapped : Bool) (s : State) : State :=
  let d := (s.localMs : Int) - (1000 * warmFrom s : Nat)
  announceStep true true (wrapSchedule wrapped (notify .time [.word "STEP", .num d, .word "WARM"] s))

/-- Steps 5 and 6 of start-up: the values, then the notice of the scan and the announcements (R202); a wrap during the
outage is announced after the WARM step (log 70). -/
def startValues (s : State) : State :=
  let warm := decide (s.power.kind = .warm)
  let wrapped := s.power.wrapped
  let scanned := s.power.scanned
  let s := startColumns s
  let s := match scanned with
    | some (i, e) => if i + e = 0 then s else notify .store [.word "SCAN", .num i, .num e] s
    | none => s
  if warm then announceWrap wrapped (announceWarm wrapped s) else applyFallback s

/-- The start values are taken at a whole second of the backup counter, once the steps before are done (R202). -/
def startDueNow (s : State) : Bool := s.power.phase = .starting && s.power.ready && s.tb.sub = 0 && s.tb.tick = 0

/-! ### Power loss -/

/-- The array after an operation is cut off: a directory record or an image sector is left invalid (R140, R152, log
24). -/
def cutOff (st : Store) : Store :=
  match st.op with
  | some (.writing n _ second r, _) =>
    let bad := { r with valid := false }
    if second then { st with recB := wr st.recB n bad } else { st with recA := wr st.recA n bad }
  | some (.queued (.imageErase b), _) => setImageSector b blankImage st
  | some (.queued (.imageProgram b page _ _), _) => setImageSector b (wr (imageSector b st) (page + 1) none) st
  | _ => st

/-- The store's volatile state is gone with main power (R153, R154). -/
def dropVolatile (st : Store) : Store :=
  { st with load := none, op := none, queue := [], reads := [], saveTarget := none, saveSeq := none, resume := []
            imgLoad := none }

/-- A channel with its output undriven. -/
def darkChannel (c : Channel) : Channel := { c with output := 0, fade := none, pwmSlots := 0 }

/-- Main power fails: outputs go undriven, the backup counter goes on from the second in progress with no slew, and the
Retained Memory keeps when it happened (R19, R51, R201). -/
def powerFails (s : State) : State :=
  let running := decide (s.power.phase = .on)
  { s with
    tb := { s.tb with slew := none }
    dials := s.dials.map fun x => { x with out := none }
    bells := s.bells.map fun x => { x with pulse := none }
    drives := s.drives.map fun x => { x with motor := none, brakeOut := none }
    lights := { s.lights with chans := s.lights.chans.map darkChannel }
    store := dropVolatile (cutOff s.store)
    line := { s.line with slots := [], tx := none, restart := .none }
    power := { s.power with
      phase := .off
      backAcc := if running then 0 else s.power.backAcc
      wrapped := !running && s.power.wrapped
      lostAt := if running then s.tb.secs else s.power.lostAt } }

end Sys2Proof.Machine
end

