-- ==== Sys2Proof/Machine/Line.lean ====
section
/-! DEFINITION. The commands of the Line Interface: a line received and a line sent (R189, R190, R193), and its own
requests MASK, LINE RATE, STATUS READ, MODE and RESTART (R194 to R200). -/

namespace Sys2Proof.Machine

/-! ### Lines -/

/-- Whether a line's framing is right: its terminator is whole, no stop bit is missing, and its text holds at most 120
printable characters (R189). -/
def framed (l : RawLine) : Bool :=
  l.cr && !l.badStop && l.text.length ≤ 120 && l.text.all fun c => 32 ≤ c.toNat && c.toNat ≤ 126

/-- A line whose text is empty is ignored (R189). -/
def ignored (l : RawLine) : Bool := l.cr && !l.badStop && l.text.isEmpty

/-- What a line received at `now` becomes in the receive buffer: a request, or what is answered NO SYNTAX in its turn (R189,
R191). -/
def lineSlot (l : RawLine) (now : Nat) : LineSlot :=
  match (if framed l then parseRequest l.text else none) with
  | some i => .waiting i now
  | none => .ready (.no .badSyntax []) none

/-- A line's terminator is received (R189, R190). -/
def lineReceived (l : RawLine) (s : State) : State :=
  if ignored l then s else { s with line := s.line.placed (lineSlot l s.now) }

/-- The line interface after the line being sent has ended: a reply's place is free, and a new line rate is taken up
(R190, R193, R194). With no line being sent nothing ends: the choice of the model (log 6). -/
def Line.sent (l : Line) : Line :=
  match l.tx with
  | none => l
  | some (.reply _ r) => { l with tx := none, slots := l.slots.drop 1, rate := r.getD l.rate }
  | some .overrun => { l with tx := none, slots := l.slots.drop 1 }
  | some (.notice _ _ _) => { l with tx := none }

/-- The line being sent ends (R193). -/
def lineSent (s : State) : State := { s with line := s.line.sent }

/-! ### Requests -/

/-- The mask of a class, or of all, is set; a class turned OFF loses its pending entry (R194). -/
def Line.masked (l : Line) (cls : Option NoticeClass) (on : Bool) : Line :=
  match cls with
  | some c =>
    { l with
      mask := wr l.mask (classIndex c) on
      latch := if on then l.latch else wr l.latch (classIndex c) none }
  | none => { l with mask := Vector.replicate 10 on, latch := if on then l.latch else Vector.replicate 10 none }

/-- The names of the classes that are ON, in the order of R193: the choice of the model (log 76). -/
def Line.classesOn (l : Line) : List String := (allClasses.filter fun c => rd l.mask (classIndex c) false).map className

/-- The names of the classes with a pending entry, in that order too (log 76). -/
def Line.classesPending (l : Line) : List String :=
  (allClasses.filter fun c => (rd l.latch (classIndex c) none).isSome).map className

/-- MASK (R194). -/
def maskAct (cls : Option NoticeClass) (on : Bool) (s : State) : State × Reply :=
  let l := s.line.masked cls on
  ({ s with line := l }, .ok [.words l.classesOn])

/-- LINE RATE: the setting is written at once, and the line changes to it after the reply (R194). -/
def lineRateAct (r : Nat) (s : State) : State × Reply :=
  serviceOnly (fun s =>
    if r = 9600 ∨ r = 19200 ∨ r = 38400 then ({ s with cfg := { s.cfg with rate := r } }, .ok []) else refuse .range s) s

/-- A mode's name. -/
def modeName : Mode → String
  | .service => "SERVICE" | .run => "RUN"

/-- A start's name. -/
def startName : StartKind → String
  | .cold => "COLD" | .warm => "WARM" | .restart => "RESTART"

/-- The result of the last validation as STATUS READ gives it (R195). -/
def validationFields : Option (Option (List Field)) → List Field
  | none => [.absent]
  | some none => [.word "PASS"]
  | some (some d) => d

/-- STATUS READ (R195). -/
def statusReadAct (s : State) : State × Reply :=
  let l := s.line
  let image := match currentImage s.store with
    | some (_, q, _) => Field.num q
    | none => .word "NONE"
  answer
    ([.word (modeName l.mode), .word (startName l.lastStart), image] ++ validationFields l.lastValidation ++
     [ .num s.cfg.rate, .words l.classesOn, .words l.classesPending, .num l.places, .num l.marks
     , onOff s.sched.panelSilence, onOff s.lights.panelOn ]) s

/-- MODE SERVICE (R197). -/
def modeServiceAct (s : State) : State × Reply :=
  if s.line.mode = .service then answer [.word "SERVICE"] s
  else if [1, 2, 3, 4].any fun n => (s.drive n).state ≠ .down then refuse .active s
  else (cutClock { s with line := { s.line with mode := .service } }, .ok [.word "SERVICE"])

/-- MODE RUN (R198). -/
def modeRunAct (s : State) : State × Reply :=
  if s.line.mode = .run then answer [.word "RUN"] s
  else
    match validation s with
    | some d => (enterMode (some d) s, .no .invalid d)
    | none => (enterMode none s, .ok [.word "RUN"])

/-- RESTART is taken: the image load begins, and its place waits for the reply (R200). -/
def restartTaken (s : State) : State :=
  startImageLoad { s with line := { s.line with slots := takeOldest .busy s.line.slots, restart := .loading } }

/-! ### Commands -/

/-- MASK -/
def execMaskSet (cls : Option NoticeClass) (on : Bool) (s : State) : Host.Outcome State Fault Refusal :=
  request (.maskSet cls on) (maskAct cls on) s

/-- LINE_RATE -/
def execLineRate (r : Nat) (s : State) : Host.Outcome State Fault Refusal := request (.lineRate r) (lineRateAct r) s

/-- STATUS_READ -/
def execStatusRead (s : State) : Host.Outcome State Fault Refusal := request .statusRead statusReadAct s

/-- MODE_SERVICE -/
def execModeService (s : State) : Host.Outcome State Fault Refusal := request .modeService modeServiceAct s

/-- MODE_RUN -/
def execModeRun (s : State) : Host.Outcome State Fault Refusal := request .modeRun modeRunAct s

/-- RESTART: with a current image it is in progress from the instant it is taken; with none it is refused (R200). -/
def execRestart (s : State) : Host.Outcome State Fault Refusal :=
  if canTake .restart s && (currentImage s.store).isSome then done (restartTaken (arrived .restart s))
  else request .restart (refuse .none) s

/-- RESTART_EVENT: due as soon as the image is read (R200). -/
def execRestartEvent (s : State) : Host.Outcome State Fault Refusal :=
  match s.line.restart with
  | .loaded im => done (restartEvent im s)
  | _ => .next s

/-- LINE_RECEIVED -/
def execLineReceived (w : Nat) (l : RawLine) (s : State) : Host.Outcome State Fault Refusal :=
  outside w (lineReceived l) s

/-- LINE_SENT -/
def execLineSent (w : Nat) (s : State) : Host.Outcome State Fault Refusal := outside w lineSent s

end Sys2Proof.Machine
end

