-- ==== Sys2Proof/Machine/Perf.lean ====
section
/-! DEFINITION. The commands of the Performance Engine (chapter 5). -/

namespace Sys2Proof.Machine

/-! ### Requests -/

/-- A record's state in the reply to STOP; one the request removed is REMOVED (R95). -/
def stopReply (id : Nat) (s : State) : State × Reply :=
  (s, .ok [.num id, .word (match s.perf id with | some p => perfStateName p.state | none => "REMOVED")])

/-- STOP FINISH (R95, R96). -/
def stopFinishAct (id : Nat) (s : State) : State × Reply :=
  if !unitOk 255 id then refuse .range s
  else if (s.perf id).isNone then refuse .none s
  else stopReply id (finishPerf id s)

/-- STOP CUT (R95, R97). -/
def stopCutAct (id : Nat) (s : State) : State × Reply :=
  if !unitOk 255 id then refuse .range s
  else if (s.perf id).isNone then refuse .none s
  else stopReply id (cutAll [id] s)

/-- PLAY (R99). -/
def playAct (slot : Nat) (scale wait scene : Option Nat) (s : State) : State × Reply :=
  if !unitOk 64 slot || !sceneOk scene then refuse .range s
  else if (s.slot slot).state ≠ .closed then refuse .none s
  else createFromLine (tunePerf s slot (scaleOf scale) (waitOf wait) scene .line) s

/-- TOLL (R100). -/
def tollAct (bell interval count : Nat) (i : Intensity) (wait scene : Option Nat) (s : State) : State × Reply :=
  if !unitOk 24 bell || 999 < count || !sceneOk scene then refuse .range s
  else createFromLine (tollPerf s bell (clampN interval 10 600) count i (waitOf wait) scene .line) s

/-- A buffer's fields (R101). -/
def bufferFields : Buffer → List Field
  | .empty => [.word "EMPTY"]
  | .reading k _ => [.word "READING", .num k]
  | .loaded k _ => [.word "LOADED", .num k]

/-- The parameters of a kind (R78); a TUNE has none and shows no field for them (log 65). -/
def paramFields : PerfKind → List Field
  | .tune => []
  | .clock c => [.num c.quarter, optNum c.hours, .num c.slot, yesNo c.hourOnly]
  | .toll t => [.num t.bell, .num t.interval, .num t.count, .word (intensityName t.intensity)]
  | .swing w => [.list (w.drives.map (·.drive)), .num w.stagger, .num w.duration]
  | .test t => [.num t.bell, .word (intensityName t.intensity)]

/-- A stop mode's name (R78); NONE where there is none (log 76). -/
def stopName : StopMode → String
  | .none => "NONE" | .finish => "FINISH" | .cut => "CUT"

/-- Every field of a record, in the order of R78 (R101). The stop point is shown as `stopPointOf` numbers it (log 74). -/
def perfFields (p : Perf) : List Field :=
  [.num p.id, .word (kindName p.kind)] ++ sourceFields p.source ++
    [ .num p.level, .word (perfStateName p.state), optNum p.slot, optNum p.tempo, optNum p.division, .hex p.bells
    , .num p.reqAt, .num p.wait, optNum p.anchor, optNum p.voice, .word (stopName p.stop), optNum p.stopPoint
    , optNum p.scene ] ++ paramFields p.kind ++ [optNum p.order] ++ counterFields p.counters

/-- The fields of a performance's voice (R101). -/
def voiceFields (s : State) (p : Perf) : List Field :=
  match p.voice with
  | none => []
  | some v => .num v :: bufferFields (s.voice v).current ++ bufferFields (s.voice v).next ++ [.num (s.voice v).strokes.length]

/-- PERF READ (R101). -/
def perfReadAct (id : Option Nat) (s : State) : State × Reply :=
  match id with
  | none =>
    answer
      (.num s.perfs.length :: s.perfs.flatMap (fun p =>
        [Field.num p.id, .word (kindName p.kind)] ++ sourceFields p.source ++ [.word (perfStateName p.state)]) ++
        [.num (freeVoices s)]) s
  | some k =>
    if !unitOk 255 k then refuse .range s
    else
      match s.perf k with
      | none => refuse .none s
      | some p => answer (perfFields p ++ voiceFields s p) s

/-! ### Strokes -/

/-- The earliest release instant of a voice's strokes (R87). -/
def strokeDue (v : Nat) (s : State) : Option Nat :=
  s.dueMs (match (s.voice v).strokes with
    | [] => none
    | x :: l => some (minOr x.due (l.map (·.due))))

/-- The voice sends its first stroke whose release instant has come (R87). No rule gives the order of two strokes of one
voice whose release instants coincide: the one taken up first is sent first, and within one event the lower bell number.
DESIGN CHOICE, log 88. -/
def strokeRelease (v : Nat) (s : State) : State :=
  match (s.voice v).perf, takeFirst (fun x => x.due ≤ s.now) (s.voice v).strokes with
  | some id, some (x, l) => sendStroke x.bell id x.intensity false (setVoice v { s.voice v with strokes := l } s)
  | _, _ => s

/-- The take-up instant of a voice's next event; a stalled voice takes up nothing (R87, R88). -/
def takeUpDue (v : Nat) (s : State) : Option Nat :=
  match voicePerf s v with
  | none => none
  | some p =>
    if (s.voice v).stall.isSome then none
    else s.dueMs ((nextEvent s p (s.voice v)).map (takeUpAt p))

/-- A voice takes up its next event, or stalls (R87, R88). -/
def eventTakeUp (v : Nat) (s : State) : State :=
  match voicePerf s v with
  | none => s
  | some p =>
    match nextEvent s p (s.voice v) with
    | none => s
    | some e =>
      if (s.voice v).hasPage e.page then takeUp v p e s
      else setVoice v { s.voice v with stall := some (takeUpAt p e) } s

/-- The release instant of a toll's next stroke (R89). -/
def tollDue (id : Nat) (s : State) : Option Nat :=
  match s.perf id with
  | none => none
  | some p =>
    match p.kind, p.anchor with
    | .toll t, some a =>
      if p.state ≠ .waiting ∧ p.stop ≠ .cut ∧ !(t.limit.any fun n => n ≤ t.sent) then
        s.dueMs (some (a + t.sent * t.interval * 100 - flyTime (s.bellCfg t.bell) t.intensity))
      else none
    | _, _ => none

/-- A toll's next stroke is sent (R89). -/
def tollRelease (id : Nat) (s : State) : State :=
  match s.perf id with
  | none => s
  | some p =>
    match p.kind with
    | .toll t => sendStroke t.bell id t.intensity false (setPerf { p with kind := .toll { t with sent := t.sent + 1 } } s)
    | _ => s

/-- The release instant of a test stroke (R90). -/
def testDue (id : Nat) (s : State) : Option Nat :=
  match s.perf id with
  | none => none
  | some p =>
    match p.kind, p.anchor with
    | .test t, some a =>
      if p.state ≠ .waiting ∧ p.stop ≠ .cut ∧ !t.sent then s.dueMs (some (a - flyTime (s.bellCfg t.bell) t.intensity))
      else none
    | _, _ => none

/-- The test stroke is sent (R90). -/
def testRelease (id : Nat) (s : State) : State :=
  match s.perf id with
  | none => s
  | some p =>
    match p.kind with
    | .test t => sendStroke t.bell id t.intensity true (setPerf { p with kind := .test { t with sent := true } } s)
    | _ => s

/-! ### Drive starts -/

/-- The starts of a SWING not yet made nor cancelled: each with its place j − 1 in the set (R84). -/
def SwingParams.coming (p : SwingParams) : List (SwingStart × Nat) :=
  p.drives.zipIdx.filter fun x => !x.1.started && !x.1.done

/-- The instant of a SWING's next start (R84). -/
def startDue (id : Nat) (s : State) : Option Nat :=
  match s.perf id with
  | none => none
  | some p =>
    match p.kind, p.anchor with
    | .swing w, some a =>
      if p.state = .waiting then none else s.dueMs (w.coming.head?.map fun x => a + 1000 * (x.2 * w.stagger))
    | _, _ => none

/-- A drive acts on its start by its state (R127). -/
def startDriveNow (id n duration : Nat) (s : State) : State :=
  match (s.drive n).state with
  | .down | .settling => enterRaising n id duration s
  | .fault | .raising | .ringing | .lowering => driveDone id n s

/-- The next start of a SWING is made; the record becomes RUNNING at its first (R80, R127). -/
def driveStart (id : Nat) (s : State) : State :=
  match s.perf id with
  | none => s
  | some p =>
    match p.kind with
    | .swing w =>
      match w.coming.head? with
      | none => s
      | some (d, _) =>
        let ds := w.drives.map fun x => if x.drive = d.drive then { x with started := true } else x
        let st := if p.state = .admitted then PerfState.running else p.state
        startDriveNow id d.drive w.duration (setPerf { p with kind := .swing { w with drives := ds }, state := st } s)
    | _ => s

/-! ### Ends -/

/-- A performance ends by R92, and the offer round follows. -/
def performanceEnd (id : Nat) (s : State) : State :=
  match s.perf id with
  | none => s
  | some p => offerRound (closePerf id (endOutcome p) s)

/-- The instant at which the last driven pulse of a cut record ends (R97). -/
def cutDue (id : Nat) (s : State) : Option Nat :=
  match s.perf id with
  | none => none
  | some p => s.dueMs (if p.stop = .cut ∧ needsVoice p.kind then some p.drivenEnd else none)

/-- The instant at which a waiting record expires (R75). -/
def expiryDue (id : Nat) (s : State) : Option Nat :=
  match s.perf id with
  | none => none
  | some p => s.dueMs (if p.state = .waiting then some (p.reqAt + 1000 * p.wait) else none)

/-- STOP_FINISH -/
def execStopFinish (id : Nat) (s : State) : Host.Outcome State Fault Refusal :=
  request (.stopFinish id) (stopFinishAct id) s

/-- STOP_CUT -/
def execStopCut (id : Nat) (s : State) : Host.Outcome State Fault Refusal := request (.stopCut id) (stopCutAct id) s

/-- PLAY -/
def execPlay (slot : Nat) (scale wait scene : Option Nat) (s : State) : Host.Outcome State Fault Refusal :=
  request (.play slot scale wait scene) (playAct slot scale wait scene) s

/-- TOLL -/
def execToll (bell interval count : Nat) (i : Intensity) (wait scene : Option Nat) (s : State) :
    Host.Outcome State Fault Refusal :=
  request (.toll bell interval count i wait scene) (tollAct bell interval count i wait scene) s

/-- PERF_READ -/
def execPerfRead (id : Option Nat) (s : State) : Host.Outcome State Fault Refusal := request (.perfRead id) (perfReadAct id) s

/-- STROKE_RELEASE -/
def execStrokeRelease (v : Nat) (s : State) : Host.Outcome State Fault Refusal :=
  ofUnit 4 v (timed (strokeDue v s) (strokeRelease v) s)

/-- EVENT_TAKE_UP -/
def execEventTakeUp (v : Nat) (s : State) : Host.Outcome State Fault Refusal :=
  ofUnit 4 v (timed (takeUpDue v s) (eventTakeUp v) s)

/-- TOLL_STROKE_RELEASE -/
def execTollStrokeRelease (id : Nat) (s : State) : Host.Outcome State Fault Refusal :=
  ofUnit 255 id (timed (tollDue id s) (tollRelease id) s)

/-- TEST_STROKE_RELEASE -/
def execTestStrokeRelease (id : Nat) (s : State) : Host.Outcome State Fault Refusal :=
  ofUnit 255 id (timed (testDue id s) (testRelease id) s)

/-- DRIVE_START -/
def execDriveStart (id : Nat) (s : State) : Host.Outcome State Fault Refusal :=
  ofUnit 255 id (timed (startDue id s) (driveStart id) s)

/-- PERFORMANCE_END -/
def execPerformanceEnd (id : Nat) (s : State) : Host.Outcome State Fault Refusal :=
  ofUnit 255 id (timed (endDue id s) (performanceEnd id) s)

/-- CUT_RECORD_LEAVES -/
def execCutRecordLeaves (id : Nat) (s : State) : Host.Outcome State Fault Refusal :=
  ofUnit 255 id (timed (cutDue id s) (leave id .cut) s)

/-- WAIT_EXPIRY -/
def execWaitExpiry (id : Nat) (s : State) : Host.Outcome State Fault Refusal :=
  ofUnit 255 id (timed (expiryDue id s) (leave id .expired) s)

end Sys2Proof.Machine
end

