-- ==== Sys2Proof/Machine/Power.lean ====
section
/-! DEFINITION. The commands of main power: its loss (R19, R51, R201), its return and the start values (R201, R202). -/

namespace Sys2Proof.Machine

/-- POWER_LOSS, `w` oscillator ticks after the command before it; where main power is off, only the time passes. -/
def execPowerLoss (w : Nat) (s : State) : Host.Outcome State Fault Refusal :=
  match elapse w s with
  | none => .fault .pastSecondEnd
  | some u => if u.power.phase = .off then .next u else .next (powerFails u)

/-- POWER_UP: `valid` says whether the check value of the Retained Memory is right and the backup counter ran without
interruption (R201). -/
def execPowerUp (valid : Bool) (s : State) : Host.Outcome State Fault Refusal :=
  if s.power.phase = .off then .next (powerReturns valid s) else .next s

/-- START_VALUES (R202). -/
def execStartValues (s : State) : Host.Outcome State Fault Refusal := if startDueNow s then done (startValues s) else .next s

end Sys2Proof.Machine
end

