-- ==== Sys2Proof/Machine/Ref.lean ====
section
/-! DEFINITION. The commands of the Reference Monitor: REF ON and OFF, REF READ, the pulse, the missing second and the
expiry of a mark (chapter 1). -/

namespace Sys2Proof.Machine

/-! ### The window -/

/-- A reference state's name. -/
def refStateName : RefState → String
  | .off => "OFF" | .acquiring => "ACQUIRING" | .locked => "LOCKED" | .holdover => "HOLDOVER"

/-- A mark joins the presence window, oldest first, at most 32 (R10). -/
def joinMark (w : List Bool) (valid : Bool) : List Bool := (w ++ [valid]).drop (w.length + 1 - 32)

/-- The number of valid marks (R10). -/
def validMarks (w : List Bool) : Nat := (w.filter id).length

/-- The count of consecutive missing marks at the newest end (R10). -/
def missingRun (w : List Bool) : Nat := (w.reverse.takeWhile fun b => !b).length

/-- No run of more than 2 missing marks stands in the window; `run` is the run so far (R10). -/
def shortRuns (run : Nat) : List Bool → Bool
  | [] => true
  | true :: l => shortRuns 0 l
  | false :: l => run < 2 && shortRuns (run + 1) l

/-- The lock criterion (R10). -/
def lockCriterion (s : State) : Bool := 30 ≤ validMarks s.ref.window && shortRuns 0 s.ref.window && s.tb.set

/-- Enter a reference state: the REF notice is raised (R10). -/
def refState (x : RefState) (s : State) : State :=
  notify .ref [.word "STATE", .word (refStateName x)] { s with ref := { s.ref with state := x } }

/-- Enter HOLDOVER from LOCKED: the window is kept, the trim sum is discarded, and the cadence is anchored on the last
valid pulse (R10, log 12). A pull-in goes on, for it lasts until a measured e is small (R12). -/
def enterHoldover (s : State) : State :=
  let next := s.ref.lastValid.map fun l => l + 1000000 * ((s.tb.osc - l) / 1000000 + 1)
  refState .holdover { s with ref :=
    { s.ref with cadence := next, cadMiss := 0, sum := 0, cnt := 0, boundary := false } }

/-- In LOCKED the monitor enters HOLDOVER on 8 consecutive missing marks or fewer than 24 valid ones (R10). -/
def holdoverTest (s : State) : State :=
  if s.ref.state = .locked && (8 ≤ missingRun s.ref.window || validMarks s.ref.window < 24) then enterHoldover s else s

/-! ### Phase -/

/-- The phase error of a pulse now: its instant less the nearest second boundary, in µs (R12). A pulse exactly between
two boundaries draws a free value (log 13). -/
def phaseError (s : State) : Int × State :=
  if s.tb.sub = 500000 then
    (if Config.halfSecondIsLate s.drawn then 500000 else -500000, { s with drawn := s.drawn + 1 })
  else (if s.tb.sub < 500000 then (s.tb.sub : Int) else (s.tb.sub : Int) - 1000000, s)

/-- The standard second of the boundary nearest a pulse with phase error `e` (R16). -/
def nearestSecond (s : State) (e : Int) : Nat :=
  if 0 ≤ e ∧ s.tb.sub ≤ 500000 then s.tb.secs else (s.tb.secs + 1) % spanSecs

/-- A measured phase error joins the history, becomes the pending slew, and ends a pull-in when small (R12). -/
def measured (e : Int) (s : State) : State :=
  { s with
    tb := { s.tb with slew := some (clampI e (-1000) 1000) }
    ref := { s.ref with
      hist := (e :: s.ref.hist).take 8
      pullIn := s.ref.pullIn && 1000 < e.natAbs } }

/-- Lock entry on a valid mark: a phase error up to 100,000 µs is slewed away, a larger one is stepped away (R10). DESIGN
CHOICE: while LOCKED no cadence stands, so REF READ shows none there, and a LOCK step leaves no pull-in (log 55). The
pulses that follow an entry with more than 50,000 µs are judged by the span of R9 all the same (log 71). -/
def enterLocked (s : State) : State :=
  let (e, s) := phaseError s
  let s := { s with ref :=
    { s.ref with
      cadence := none, cadMiss := 0, boundary := false, sum := 0, cnt := 0, judged := true
      early := decide (e < 0) || decide (500000 < s.tb.sub)
      pullIn := decide (1000 < e.natAbs) } }
  let s := refState .locked s
  if e.natAbs ≤ 100000 then measured e s
  else
    let s := { s with ref := { s.ref with pullIn := false, hist := (e :: s.ref.hist).take 8 } }
    let s := stepStd (-e) .lock s
    { s with ref := { s.ref with judged := true, early := false } }

/-! ### A pulse -/

/-- How a pulse is judged against the expected second whose span contains it (R9). -/
inductive Judgement where
  | valid
  | cadenceStart
  | stray
  deriving DecidableEq, Repr

/-- The judgement of a pulse now (R9). The cadence and its tolerance are counted in oscillator ticks (log 12). In LOCKED
the span is 50,000 µs to either side even while a larger error of the lock entry is being slewed away (log 71). -/
def judgePulse (s : State) : Judgement :=
  match s.ref.state with
  | .off => .stray
  | .acquiring | .holdover =>
    match s.ref.cadence with
    | none => .cadenceStart
    | some c => if c ≤ s.tb.osc + 2000 ∧ s.tb.osc ≤ c + 2000 then .valid else .stray
  | .locked =>
    if s.tb.sub ≤ 50000 then (if s.ref.judged then .stray else .valid)
    else if 950000 ≤ s.tb.sub then (if s.ref.early then .stray else .valid)
    else .stray

/-- A pending mark meets a qualifying pulse (R16). -/
def applyMark (m : Mark) (s : State) : State :=
  let s := { s with ref := { s.ref with mark := none } }
  let agreed := fun (u : State) => { u with ref := { u.ref with disagree := 0 } }
  let delta := (1000000 * m.secs : Nat) - (s.stdUs : Int)
  if !s.tb.set then agreed (firstSetting (1000000 * m.secs) .mark s)
  else
    match s.ref.state with
    | .acquiring => agreed (if delta = 0 then s else stepStd delta .mark s)
    | .locked | .holdover =>
      let (e, s) := phaseError s
      if nearestSecond s e = m.secs then agreed s
      else
        let n := s.ref.disagree + 1
        let s := notify .ref [.word "MARK DISAGREE", .num n] { s with ref := { s.ref with disagree := n } }
        if n = 3 then agreed (if delta = 0 then s else stepStd delta .disagree s) else s
    | .off => s

/-- A pulse marks its expected second valid (R9, R10, R12). -/
def markValid (s : State) : State :=
  let s := { s with ref :=
    { s.ref with window := joinMark s.ref.window true, lastValid := some s.tb.osc } }
  match s.ref.state with
  | .acquiring | .holdover =>
    let s := { s with ref := { s.ref with cadence := some (s.tb.osc + 1000000), cadMiss := 0 } }
    if lockCriterion s then enterLocked s else s
  | .locked =>
    let (e, s) := phaseError s
    let s := { s with ref :=
      { s.ref with
        judged := s.ref.judged || decide (s.tb.sub < 500000)
        early := s.ref.early || decide (500000 ≤ s.tb.sub) } }
    holdoverTest (measured e s)
  | .off => s

/-- A reference pulse: a qualifying one serves the pending mark first, then it is judged for the window (R9, R10, R16). -/
def refPulse (s : State) : State :=
  let j := judgePulse s
  let s := match s.ref.mark, j with
    | some m, .valid => applyMark m s
    | some m, .cadenceStart => applyMark m s
    | _, _ => s
  match j with
  | .valid => markValid s
  | .cadenceStart => { s with ref := { s.ref with cadence := some (s.tb.osc + 1000000), cadMiss := 0 } }
  | .stray => s

/-! ### Missing seconds and expiry -/

/-- The oscillator ticks until the open expected second is missed (R10, log 11). -/
def missingTicks (s : State) : Option Nat :=
  if s.power.phase ≠ .on then none
  else
    match s.ref.state with
    | .off => none
    | .acquiring | .holdover =>
      if s.ref.boundary then some 0 else s.ref.cadence.map fun c => c + 2001 - s.tb.osc
    | .locked => if s.ref.judged then none else some (s.tb.ticksFor (50001 - s.tb.sub))

/-- An expected second is missed (R9, R10). -/
def secondMissing (s : State) : State :=
  let s := { s with ref := { s.ref with window := joinMark s.ref.window false } }
  match s.ref.state with
  | .off => s
  | .locked => holdoverTest { s with ref := { s.ref with judged := true } }
  | .acquiring | .holdover =>
    if s.ref.boundary then { s with ref := { s.ref with boundary := false } }
    else if 3 ≤ s.ref.cadMiss + 1 then { s with ref := { s.ref with cadence := none, cadMiss := 0 } }
    else { s with ref :=
      { s.ref with cadence := s.ref.cadence.map (· + 1000000), cadMiss := s.ref.cadMiss + 1 } }

/-- The instant at which a pending mark expires (R15). -/
def markDue (s : State) : Option Nat := s.dueMs (s.ref.mark.map (·.recv + 1500))

/-- A mark expires (R15). -/
def markExpired (s : State) : State :=
  notify .ref [.word "MARK EXPIRED"] { s with ref := { s.ref with mark := none } }

/-! ### Requests -/

/-- REF OFF (R11, R12, R13). A pull-in goes on: no e is measured (R12). -/
def refOffAct (s : State) : State × Reply :=
  if s.ref.state = .off then answer [.word "OFF"] s
  else
    (refState .off { s with ref :=
      { s.ref with
        window := [], cadence := none, cadMiss := 0, lastValid := none, boundary := false, judged := true, early := false
        sum := 0, cnt := 0, hist := [] } }, .ok [.word "OFF"])

/-- REF ON (R11). -/
def refOnAct (s : State) : State × Reply :=
  if s.ref.state = .off then
    (refState .acquiring { s with ref := { s.ref with window := [], cadence := none, hist := [] } }, .ok [.word "ACQUIRING"])
  else answer [.word (refStateName s.ref.state)] s

/-- REF READ (R18); its three yes-or-no fields are written YES or NO (log 76). -/
def refReadAct (s : State) : State × Reply :=
  let r := s.ref
  answer
    ([ .word (refStateName r.state), .num (validMarks r.window), .num r.window.length, .num (missingRun r.window)
     , yesNo r.cadence.isSome, yesNo r.pullIn, .num s.tb.trim, .num s.tb.acc, .num r.sum, .num r.cnt, .num r.disagree
     , yesNo r.mark.isSome ] ++ r.hist.map Field.num) s

/-- REF_ON -/
def execRefOn (s : State) : Host.Outcome State Fault Refusal := request .refOn refOnAct s

/-- REF_OFF -/
def execRefOff (s : State) : Host.Outcome State Fault Refusal := request .refOff refOffAct s

/-- REF_READ -/
def execRefRead (s : State) : Host.Outcome State Fault Refusal := request .refRead refReadAct s

/-- REF_PULSE -/
def execRefPulse (w : Nat) (s : State) : Host.Outcome State Fault Refusal := outside w refPulse s

/-- EXPECTED_SECOND_MISSING: like a timed event, its instant counted in oscillator ticks (log 2). -/
def execExpectedSecondMissing (s : State) : Host.Outcome State Fault Refusal :=
  match (missingTicks s).bind fun w => elapse w s with
  | some u => done (secondMissing u)
  | none => .next s

/-- MARK_EXPIRED -/
def execMarkExpired (s : State) : Host.Outcome State Fault Refusal := timed (markDue s) markExpired s

end Sys2Proof.Machine
end

