-- ==== Sys2Proof/Machine/Swing.lean ====
section
/-! DEFINITION. The commands of the Swing Drives and the panel toll settings (chapter 7). -/

namespace Sys2Proof.Machine

/-! ### Requests -/

/-- PANEL TOLL (R121). -/
def panelTollAct (c : PanelTollCfg) (s : State) : State × Reply :=
  serviceOnly (fun s =>
    if panelTollOk c then ({ s with cfg := { s.cfg with panelToll := clampPanelToll c } }, .ok [])
    else refuse .range s) s

/-- SWING CONFIG (R123). -/
def swingConfigAct (n : Nat) (c : SwingCfg) (s : State) : State × Reply :=
  serviceOnly (fun s =>
    if !unitOk 4 n || 24 < c.bell then refuse .range s
    else if (s.drive n).state ≠ .down then refuse .active s
    else ({ s with cfg := { s.cfg with swings := wr s.cfg.swings n (clampSwing c) } }, .ok [])) s

/-- No bottom pulse came for the settle time (R133). -/
def bellStill (s : State) (n : Nat) : Bool :=
  match (s.drive n).lastBottom with
  | none => true
  | some t => t + 1000 * (s.driveCfg n).settle ≤ s.now

/-- SWING CLEAR (R133). -/
def swingClearAct (n : Nat) (s : State) : State × Reply :=
  if !unitOk 4 n then refuse .range s
  else if (s.drive n).state ≠ .fault then answer [.word (swingStateName (s.drive n).state)] s
  else if !bellStill s n then refuse .active s
  else
    (notify .swing [.num n, .word "DOWN", .word "CLEAR"]
      (setDrive n { s.drive n with state := .down, cause := .none, entry := s.now } s), .ok [.word "DOWN"])

/-- The lowest of the drives that is not usable (R134). -/
def unusable (s : State) (ds : List Nat) : Option Nat :=
  [1, 2, 3, 4].find? fun n => ds.contains n && !driveUsable s n

/-- RING (R134). -/
def ringAct (ds : List Nat) (stagger duration wait : Option Nat) (s : State) : State × Reply :=
  if !ds.all (unitOk 4) then refuse .range s
  else
    match unusable s ds with
    | some n => (s, .no .invalid [.word "DRIVE", .num n])
    | none =>
      if !ds.all (fun n => (s.drive n).state = .down) then refuse .active s
      else createFromLine
        (swingPerf s ds (clampN (stagger.getD 0) 0 60) (clampN (duration.getD 0) 0 120) (waitOf wait) .line) s

/-- SWING READ (R136). Its two flags are written YES and NO, the motor and the brake ON and OFF: the words of the model
(log 76). -/
def swingReadAct (n : Nat) (s : State) : State × Reply :=
  if !unitOk 4 n then refuse .range s
  else
    let x := s.drive n
    answer
      ([ .word (swingStateName x.state), .word (swingCauseName x.cause), optNum x.perf, .num (s.now - x.entry : Nat)
       , optNum (x.lastBottom.map (s.now - ·)), optNum x.half, .num x.run, yesNo x.flag
       , optNum (x.lowerAt.map (· - s.now)), yesNo x.brake, onOff x.motor.isSome, onOff x.brakeOut.isSome
       , .num x.swings ] ++ swingFields (s.driveCfg n)) s

/-! ### Sensors and timers -/

/-- A bottom pulse, in the order of R125. -/
def bottomPulse (n : Nat) (s : State) : State := markBottom n (judgeSwing n s)

/-- An amplitude pulse; in DOWN and FAULT it sets nothing (R125). -/
def amplitudePulse (n : Nat) (s : State) : State :=
  let x := s.drive n
  if x.state = .down ∨ x.state = .fault then s else setDrive n { x with flag := true } s

/-- The instant at which a motor kick ends (R125). -/
def kickDue (n : Nat) (s : State) : Option Nat := s.dueMs (s.drive n).motor

/-- The instant at which a brake kick ends (R125). -/
def brakeDue (n : Nat) (s : State) : Option Nat := s.dueMs (s.drive n).brakeOut

/-- The instant at which a settling drive enters DOWN (R126). -/
def settleDue (n : Nat) (s : State) : Option Nat :=
  let x := s.drive n
  s.dueMs (if x.state = .settling then some (max x.entry (x.lastBottom.getD 0) + 1000 * (s.driveCfg n).settle) else none)

/-- The instant at which a raising drive without a bottom pulse enters FAULT (R128). -/
def noStartDue (n : Nat) (s : State) : Option Nat :=
  let x := s.drive n
  s.dueMs (if x.state = .raising ∧ !x.seen then some (x.entry + 5000) else none)

/-- The instant of a drive's raise limit (R128). -/
def raiseDue (n : Nat) (s : State) : Option Nat :=
  let x := s.drive n
  s.dueMs (if x.state = .raising then some (x.entry + 1000 * (s.driveCfg n).raise) else none)

/-- The instant of a drive's swing timeout (R128, R129, R131). -/
def noBottomDue (n : Nat) (s : State) : Option Nat :=
  let x := s.drive n
  s.dueMs (match x.state with
    | .raising => if x.seen then some (x.lastBottom.getD x.entry + swingTimeout (s.driveCfg n)) else none
    | .ringing | .lowering => some (x.lastBottom.getD x.entry + swingTimeout (s.driveCfg n))
    | .down | .settling | .fault => none)

/-- The lowering instant of a drive in RAISING or RINGING (R130). -/
def lowerDue (n : Nat) (s : State) : Option Nat :=
  let x := s.drive n
  s.dueMs (if x.state = .raising ∨ x.state = .ringing then x.lowerAt else none)

/-- A motor kick ends (R125). -/
def kickEnds (n : Nat) (s : State) : State := setDrive n { s.drive n with motor := none } s

/-- A brake kick ends (R125). -/
def brakeEnds (n : Nat) (s : State) : State := setDrive n { s.drive n with brakeOut := none } s

/-- PANEL_TOLL -/
def execPanelToll (c : PanelTollCfg) (s : State) : Host.Outcome State Fault Refusal :=
  request (.panelToll c) (panelTollAct c) s

/-- PANEL_TOLL_READ -/
def execPanelTollRead (s : State) : Host.Outcome State Fault Refusal :=
  request .panelTollRead (fun s => answer (panelTollFields s.cfg.panelToll) s) s

/-- SWING_CONFIG -/
def execSwingConfig (n : Nat) (c : SwingCfg) (s : State) : Host.Outcome State Fault Refusal :=
  request (.swingConfig n c) (swingConfigAct n c) s

/-- SWING_CLEAR -/
def execSwingClear (n : Nat) (s : State) : Host.Outcome State Fault Refusal := request (.swingClear n) (swingClearAct n) s

/-- RING -/
def execRing (ds : List Nat) (stagger duration wait : Option Nat) (s : State) : Host.Outcome State Fault Refusal :=
  request (.ring ds stagger duration wait) (ringAct ds stagger duration wait) s

/-- SWING_READ -/
def execSwingRead (n : Nat) (s : State) : Host.Outcome State Fault Refusal := request (.swingRead n) (swingReadAct n) s

/-- BOTTOM_PULSE -/
def execBottomPulse (w n : Nat) (s : State) : Host.Outcome State Fault Refusal := ofUnit 4 n (outside w (bottomPulse n) s)

/-- AMPLITUDE_PULSE -/
def execAmplitudePulse (w n : Nat) (s : State) : Host.Outcome State Fault Refusal :=
  ofUnit 4 n (outside w (amplitudePulse n) s)

/-- KICK_END -/
def execKickEnd (n : Nat) (s : State) : Host.Outcome State Fault Refusal :=
  ofUnit 4 n (timed (kickDue n s) (kickEnds n) s)

/-- BRAKE_KICK_END -/
def execBrakeKickEnd (n : Nat) (s : State) : Host.Outcome State Fault Refusal :=
  ofUnit 4 n (timed (brakeDue n s) (brakeEnds n) s)

/-- SETTLE_EXPIRY -/
def execSettleExpiry (n : Nat) (s : State) : Host.Outcome State Fault Refusal :=
  ofUnit 4 n (timed (settleDue n s) (enterDown n) s)

/-- NO_START -/
def execNoStart (n : Nat) (s : State) : Host.Outcome State Fault Refusal :=
  ofUnit 4 n (timed (noStartDue n s) (enterFault n .noStart) s)

/-- RAISE_LIMIT -/
def execRaiseLimit (n : Nat) (s : State) : Host.Outcome State Fault Refusal :=
  ofUnit 4 n (timed (raiseDue n s) (enterFault n .raiseLimit) s)

/-- NO_BOTTOM -/
def execNoBottom (n : Nat) (s : State) : Host.Outcome State Fault Refusal :=
  ofUnit 4 n (timed (noBottomDue n s) (enterFault n .noBottom) s)

/-- LOWERING_INSTANT -/
def execLoweringInstant (n : Nat) (s : State) : Host.Outcome State Fault Refusal :=
  ofUnit 4 n (timed (lowerDue n s) (enterLowering n) s)

end Sys2Proof.Machine
end

