-- ==== Sys2Proof/Machine/Time.lean ====
section
/-! DEFINITION. The commands of the Timebase: TIME SET, MARK, TIME READ, the end of a second, the trim update and the
backup second (chapter 1). -/

namespace Sys2Proof.Machine

/-- The standard second a written local date and time names, absent where R14 refuses it. -/
def convert (s : State) (d : DateF) (t : TimeF) (z : Option Zone) : Option Nat :=
  if dateValid d && t.hour ≤ 23 && t.minute ≤ 59 && t.second ≤ 59 then
    localToStd s.cfg.summer (86400 * dateNumber d + 3600 * t.hour + t.minute * 60 + t.second) z
  else none

/-- TIME SET sets the disagreement count to 0, and given while LOCKED it puts the monitor into pull-in (R17). -/
def RefMon.timeSet (r : RefMon) : RefMon :=
  let r := { r with disagree := 0 }
  if r.state = .locked then { r with pullIn := true, sum := 0, cnt := 0 } else r

/-- TIME SET, once converted, to an instant of standard time in µs (R17). -/
def setTime (t : Nat) (s : State) : State × Reply :=
  if !s.tb.set then
    let u := firstSetting t .line s
    ({ u with ref := u.ref.timeSet }, .ok [.word "SET"])
  else
    let d := (t : Int) - s.stdUs
    let u := if d = 0 then s else stepStd d .line s
    ({ u with ref := u.ref.timeSet }, .ok [.num (roundMs d)])

/-- TIME SET (R14, R17). -/
def timeSetAct (d : DateF) (t : TimeF) (z : Option Zone) (s : State) : State × Reply :=
  match convert s d t z with
  | none => refuse .range s
  | some l => setTime (1000000 * l + 1000 * t.ms) s

/-- MARK: the mark is pending, with the instant of its reception, which lies before now where its line has waited (R14, R15,
R190). One whose 1,500 ms have passed by then is pending all the same and expires at once: the reading of the model (log
89). -/
def markAct (d : DateF) (t : TimeF) (z : Option Zone) (s : State) : State × Reply :=
  match convert s d t z with
  | none => refuse .range s
  | some l => ({ s with ref := { s.ref with mark := some { secs := l, recv := s.receivedAt } } }, .ok [])

/-- TIME READ (R18). -/
def timeReadAct (s : State) : State × Reply :=
  let l := s.localSecs
  answer
    [ dayField (l / 86400), .tod (l / 3600 % 24) (l / 60 % 60) (l % 60) (min (s.tb.sub / 1000) 999)
    , .word (weekdayName s.cal.day.weekday), .word (if s.tb.flag then "S" else "N")
    , .word (if s.tb.set then "SET" else "UNSET"), .num s.now ] s

/-- The trim update (R13). -/
def trimUpdated (s : State) : State :=
  let t := clampI (s.tb.trim + roundHalfAway (1000 * s.ref.sum) 128) (-50000) 50000
  let s := { s with tb := { s.tb with trim := t }, ref := { s.ref with sum := 0, cnt := 0 } }
  if t = -50000 ∨ t = 50000 then notify .ref [.word "TRIM LIMIT", .num t] s else s

/-- The trim update is due when 64 seconds are counted (R13). -/
def trimDue (s : State) : Option Nat :=
  if s.power.phase = .on ∧ 64 ≤ s.ref.cnt then some s.tb.runUs else none

/-- The backup counter counts one second, trimmed with its own accumulator (R19). -/
def backupSecond (s : State) : State :=
  let a := s.power.backAcc + s.tb.trim
  let k := truncDiv a 1000
  { s with
    tb := { s.tb with
      secs := (s.tb.secs + 1) % spanSecs, sub := 0, tick := 0, len := ((1000000 : Int) + k).toNat, slew := none }
    power := { s.power with
      backAcc := a - 1000 * k, wrapped := s.power.wrapped || decide (s.tb.secs + 1 = spanSecs) } }

/-- The instant at which the backup counter's second ends, while main power is off or the part is starting (R19). -/
def backupDue (s : State) : Option Nat :=
  if s.power.phase = .on then none else some (s.tb.runUs + (1000000 - s.tb.sub))

/-- TIME_SET -/
def execTimeSet (d : DateF) (t : TimeF) (z : Option Zone) (s : State) : Host.Outcome State Fault Refusal :=
  request (.timeSet d t z) (timeSetAct d t z) s

/-- MARK -/
def execMark (d : DateF) (t : TimeF) (z : Option Zone) (s : State) : Host.Outcome State Fault Refusal :=
  request (.mark d t z) (markAct d t z) s

/-- TIME_READ -/
def execTimeRead (s : State) : Host.Outcome State Fault Refusal := request .timeRead timeReadAct s

/-- SECOND_END -/
def execSecondEnd (s : State) : Host.Outcome State Fault Refusal := timed (secondDue s) endSecond s

/-- TRIM_UPDATE -/
def execTrimUpdate (s : State) : Host.Outcome State Fault Refusal := timed (trimDue s) trimUpdated s

/-- BACKUP_SECOND -/
def execBackupSecond (s : State) : Host.Outcome State Fault Refusal := timed (backupDue s) backupSecond s

end Sys2Proof.Machine
end

