-- ==== Sys2Proof/Machine/Tunes.lean ====
section
/-! DEFINITION. The commands of the Tune Store (chapter 8). -/

namespace Sys2Proof.Machine

/-! ### Requests -/

/-- SLOT OPEN (R146). -/
def slotOpenAct (n tempo division : Nat) (scene : Option Nat) (title : String) (s : State) : State × Reply :=
  if !unitOk 64 n || tempo < 20 || 240 < tempo || !divisionOk division || !sceneOk scene then refuse .range s
  else if (s.slot n).state ≠ .empty then refuse .used s
  else if s.store.load.isSome then refuse .full s
  else if !hasRoom 1 s then refuse .busy s
  else
    let e : DirEntry :=
      { emptyEntry with state := .writing, title := title, tempo := tempo, division := division, scene := scene }
    let ld : Loading :=
      { slot := n, page := 0, part := 1, received := 0, bells := 0#24, openPage := [], ended := false }
    let s := setSlot n e s
    (enqueue [.dirWrite n .plain] { s with store := { s.store with load := some ld } }, .ok [])

/-- The loading record, where slot `n` holds it. -/
def loadingOf (s : State) (n : Nat) : Option Loading := s.store.load.filter fun l => l.slot = n

/-- A part begins a page that needs a new sector (R147). -/
def newSector (k part : Nat) : Bool := part = 1 && k % 16 = 0

/-- Allocation: the lowest free sector joins the slot's list (R141, R147). -/
def allocate (n : Nat) (s : State) : State :=
  match s.store.free with
  | [] => s
  | sec :: l =>
    let s := setSlot n { s.slot n with sectors := (s.slot n).sectors ++ [sec] } s
    { s with store := { s.store with free := l } }

/-- The loading record after a part (R147). -/
def Loading.joined (l : Loading) (part : Nat) (es : List Event) : Loading :=
  let l := { l with
    received := l.received + es.length
    bells := es.foldl (fun b (e : Event) => b ||| e.bells) l.bells
    ended := l.ended || decide (es.length < 8) }
  if part = 4 then { l with page := l.page + 1, part := 1, openPage := [] }
  else { l with part := part + 1, openPage := l.openPage ++ es }

/-- The program of a slot's page (R138, R147). -/
def programOf (s : State) (n k : Nat) (es : List Event) : List QueueOp :=
  match placeOf (s.slot n) k with
  | some (sec, pg) => [.program n sec pg (padPage es)]
  | none => []

/-- PAGE (R147). -/
def pageAct (n k part : Nat) (words : List EventWord) (s : State) : State × Reply :=
  if !unitOk 64 n || 255 < k || !unitOk 4 part then refuse .range s
  else
    match loadingOf s n with
    | none => refuse .order s
    | some l =>
      if l.ended || l.page ≠ k || l.part ≠ part then refuse .order s
      else if newSector k part && (4 ≤ (s.slot n).sectors.length || s.store.free.isEmpty) then refuse .full s
      else if (newSector k part || part = 4) && !hasRoom 1 s then refuse .busy s
      else
        let es := words.map Event.ofWord
        let t := if newSector k part then allocate n s else s
        let m := l.joined part es
        let t := { t with store := { t.store with load := some m } }
        let ops := (if newSector k part then [QueueOp.dirWrite n .plain] else []) ++
          if part = 4 then programOf t n k (l.openPage ++ es) else []
        (enqueue ops t, .ok [.num m.received])

/-- SLOT CLOSE (R148). -/
def slotCloseAct (n count : Nat) (s : State) : State × Reply :=
  if !unitOk 64 n || 2048 < count then refuse .range s
  else
    match loadingOf s n with
    | none => refuse .order s
    | some l =>
      if count ≠ l.received then refuse .count s
      else if !hasRoom (if l.openPage.isEmpty then 1 else 2) s then refuse .busy s
      else
        let ops := if l.openPage.isEmpty then [] else programOf s n l.page l.openPage
        let pages := (count + 31) / 32
        let t := setSlot n { s.slot n with events := count, pages := pages, bells := l.bells } s
        let t := { t with store := { t.store with load := none } }
        (enqueue (ops ++ [.dirWrite n .closing]) t, .ok [.num pages])

/-- A queued entry is a program or a directory write of slot `n` (R149). -/
def ofLoad (n : Nat) : QueueOp → Bool
  | .program k _ _ _ => k = n
  | .dirWrite k _ => k = n
  | _ => false

/-- The entries a SLOT ERASE adds (R149). -/
def eraseOps (n : Nat) (e : DirEntry) : List QueueOp :=
  if e.sectors.isEmpty then [.dirWrite n .final]
  else .dirWrite n .plain :: e.sectors.map (QueueOp.erase n) ++ [.dirWrite n .final]

/-- The store after an erase abandons a load: the loading record is released and the slot's queued programs and
directory writes are withdrawn (R149). -/
def abandonLoad (n : Nat) (s : State) : State :=
  if (s.slot n).state = .writing ∧ (loadingOf s n).isSome then
    { s with store := { s.store with load := none, queue := s.store.queue.filter fun q => !ofLoad n q } }
  else s

/-- The clock is told that a slot has left CLOSED: its quarters' profiles become NONE (R107, R149). -/
def dropProfiles (n : Nat) (s : State) : State :=
  frontierLoop (([1, 2, 3, 4].filter fun q => quarterSlot s.cfg.clock q = n).foldl (fun t q => setProfile q .none t) s)

/-- A slot state's name (R139). -/
def slotStateName : SlotState → String
  | .empty => "EMPTY" | .writing => "WRITING" | .closed => "CLOSED" | .incomplete => "INCOMPLETE" | .erasing => "ERASING"

/-- The records of the performance table that name a slot (R149, R150). -/
def slotUsers (s : State) (n : Nat) : Nat := (s.perfs.filter fun p => p.slot = some n).length

/-- SLOT ERASE (R149). -/
def slotEraseAct (n : Nat) (s : State) : State × Reply :=
  if !unitOk 64 n then refuse .range s
  else if slotUsers s n ≠ 0 then refuse .used s
  else
    let e := s.slot n
    if e.state = .empty ∨ e.state = .erasing then answer [.word (slotStateName e.state)] s
    else
      let t := abandonLoad n s
      let ops := eraseOps n e
      if !hasRoom ops.length t then refuse .busy s
      else
        let t := setSlot n { e with state := .erasing } t
        let t := if e.state = .closed then dropProfiles n t else t
        (enqueue ops t, .ok [.word "ERASING"])

/-- A sector list, or "-" (R150). -/
def sectorField (l : List Nat) : Field := if l.isEmpty then .absent else .list l

/-- SLOT READ (R150). An EMPTY slot shows its cleared fields as log 77 says. -/
def slotReadAct (n : Nat) (s : State) : State × Reply :=
  if !unitOk 64 n then refuse .range s
  else
    let e := s.slot n
    let loading := match loadingOf s n with
      | none => []
      | some l =>
        [Field.word "LOADING", .num l.page, .num l.part, .num l.received] ++ if l.ended then [.word "ENDED"] else []
    answer
      ([ .word (slotStateName e.state), .word e.title, .num e.tempo, .num e.division, sceneField e.scene, .hex e.bells
       , .num e.events, .num e.pages, sectorField e.sectors, .num (slotUsers s n) ] ++ loading) s

/-- The name of an image sector (R151). -/
def imageName (b : Bool) : Field := .word (if b then "B" else "A")

/-- The kind and object of the operation in progress (R150). DESIGN CHOICE: the words for the kinds (log 60). -/
def operationFields : Running → List Field
  | .read _ _ (some (b, _, _)) => [.word "READ", imageName b]
  | .read q _ none => [.word "READ", .num q.slot]
  | .queued (.program n _ _ _) => [.word "PROGRAM", .num n]
  | .queued (.erase n _) => [.word "ERASE", .num n]
  | .queued (.dirWrite n _) => [.word "DIRECTORY", .num n]
  | .queued (.imageErase b) => [.word "ERASE", imageName b]
  | .queued (.imageProgram b _ _ _) => [.word "PROGRAM", imageName b]
  | .writing n _ _ _ => [.word "DIRECTORY", .num n]

/-- An image sector's sequence and validity (R150, R151). -/
def imageFields (v : ImageSector) : List Field :=
  match imageOf v with
  | some (q, _) => [.num q, .word "VALID"]
  | none => [.absent, .word "INVALID"]

/-- STORE READ (R150). -/
def storeReadAct (s : State) : State × Reply :=
  let st := s.store
  let op := match st.op with
    | none => [Field.word "IDLE"]
    | some (r, t) => operationFields r ++ [.num (t - s.now : Nat)]
  answer
    ([.num st.free.length, .num (ownedSectors st).length] ++
      [SlotState.empty, .writing, .closed, .incomplete, .erasing].map (fun x => Field.num (slotsIn st.slots x).length) ++
      [optNum (st.load.map (·.slot))] ++ op ++ [.num st.queue.length, .num st.reads.length, .num st.resume.length] ++
      imageFields st.imgA ++ imageFields st.imgB) s

/-! ### Ends of operations -/

/-- The instant at which the operation in progress ends, where it is of a kind. The store works while the part runs and
while it starts up (R142, R202). -/
def opDue (kind : Running → Bool) (s : State) : Option Nat :=
  if s.power.phase = .off then none
  else
    match s.store.op with
    | some (r, t) => if kind r then some (1000 * t) else none
    | none => none

/-- A page read. -/
def isRead : Running → Bool
  | .read _ _ _ => true
  | _ => false

/-- A page program or an image program. -/
def isProgram : Running → Bool
  | .queued (.program _ _ _ _) => true
  | .queued (.imageProgram _ _ _ _) => true
  | _ => false

/-- A sector erase. -/
def isErase : Running → Bool
  | .queued (.erase _ _) => true
  | .queued (.imageErase _) => true
  | _ => false

/-- A directory write. -/
def isWrite : Running → Bool
  | .writing _ _ _ _ => true
  | _ => false

/-- The operation in progress is over (R142). -/
def clearOp (s : State) : State := { s with store := { s.store with op := none } }

/-- An image page read comes: at start-up the image is adopted, at a RESTART it is ready for the restart event (R152,
R200, R202). -/
def imageRead (src : Option (Bool × Nat × Image)) (serial : Nat) (s : State) : State :=
  match imagePageRead src serial s with
  | (t, none) => t
  | (t, some im) =>
    if t.power.phase = .starting then adoptImage (some im) t
    else { t with line := { t.line with restart := .loaded im } }

/-- A page read ends: its events go to whoever asked for it (R143). -/
def deliver (q : ReadReq) (events : List Event) (src : Option (Bool × Nat × Image)) (s : State) : State :=
  match q.reader with
  | .voice v => voicePageRead v q.serial events s
  | .build k => finishStartUp (finishRestart (frontierLoop (buildPageRead k q.serial events s)))
  | .scan n => if n = 64 then scanEnds s else s
  | .image _ => imageRead src q.serial s

/-- PAGE_READ_END's effect (R142, R143). -/
def readEnds (s : State) : State :=
  match s.store.op with
  | some (.read q es src, _) => kick (deliver q es src (clearOp s))
  | _ => s

/-- A page of the tune area is programmed (R138). -/
def programPage (sec pg : Nat) (es : List Event) (st : Store) : Store :=
  { st with sectors := wr st.sectors (sec + 1) (wr (rd st.sectors (sec + 1) blankSector) (pg + 1) (some es)) }

/-- PAGE_PROGRAM_END's effect; the sixth image program makes the target the current image (R142, R152). -/
def programEnds (s : State) : State :=
  match s.store.op with
  | some (.queued (.program _ sec pg es), _) =>
    let s := clearOp s
    kick { s with store := programPage sec pg es s.store }
  | some (.queued (.imageProgram b pg seq im), _) =>
    let s := clearOp s
    let s := { s with store := setImageSector b (wr (imageSector b s.store) (pg + 1) (some (seq, im))) s.store }
    kick (if pg = 5 then notify .store [.word "SAVED", .num seq] s else s)
  | _ => s

/-- SECTOR_ERASE_END's effect: the sector leaves the slot and joins the free list (R141, R149). -/
def eraseEnds (s : State) : State :=
  match s.store.op with
  | some (.queued (.erase n sec), _) =>
    let s := setSlot n { s.slot n with sectors := (s.slot n).sectors.filter (· ≠ sec) } (clearOp s)
    kick { s with store :=
      { s.store with sectors := wr s.store.sectors (sec + 1) blankSector, free := freeSector sec s.store.free } }
  | some (.queued (.imageErase b), _) =>
    let s := clearOp s
    kick { s with store := setImageSector b blankImage s.store }
  | _ => s

/-- The clock is told that a slot has entered CLOSED: its quarters' profiles are built (R107). -/
def buildFor (n : Nat) (s : State) : State :=
  frontierLoop (([1, 2, 3, 4].filter fun q => quarterSlot s.cfg.clock q = n).foldl (startBuild false) s)

/-- What the end of a directory write does to the slot's state (R140, R148, R149). -/
def writeMoves (n : Nat) (p : DirPurpose) (s : State) : State :=
  match p, (s.slot n).state with
  | .closing, .writing =>
    buildFor n (notify .store [.num n, .word "CLOSED"] (setSlot n { s.slot n with state := .closed } s))
  | .final, .erasing => notify .store [.num n, .word "EMPTY"] (setSlot n emptyEntry s)
  | _, _ => s

/-- DIRECTORY_WRITE_END's effect (R140). -/
def writeEnds (s : State) : State :=
  match s.store.op with
  | some (.writing n p second r, _) =>
    let s := clearOp s
    let st := if second then { s.store with recB := wr s.store.recB n r } else { s.store with recA := wr s.store.recA n r }
    kick (writeMoves n p { s with store := st })
  | _ => s

/-! ### SAVE -/

/-- The greatest sequence of any VALID image sector, or of any SAVE taken since the start; 0 where there is none (R152,
log 33). -/
def greatestSeq (st : Store) : Nat :=
  max (max ((imageOf st.imgA).map (·.1) |>.getD 0) ((imageOf st.imgB).map (·.1) |>.getD 0)) (st.saveSeq.getD 0)

/-- The target of a SAVE: the sector other than that of the latest SAVE, or than the current image, or A (R152). -/
def targetOf (st : Store) : Bool :=
  match st.saveTarget with
  | some b => !b
  | none =>
    match currentImage st with
    | some (b, _, _) => !b
    | none => false

/-- The image as captured now (R199). -/
def capture (s : State) : Image := { refOn := decide (s.ref.state ≠ .off), settings := s.cfg }

/-- SAVE (R152, R199). -/
def saveAct (s : State) : State × Reply :=
  if !hasRoom 7 s then refuse .busy s
  else
    let b := targetOf s.store
    let q := greatestSeq s.store + 1
    let im := capture s
    (enqueue (.imageErase b :: (List.range 6).map fun p => QueueOp.imageProgram b p q im)
      { s with store := { s.store with saveTarget := some b, saveSeq := some q } }, .ok [.num q])

/-- SLOT_OPEN -/
def execSlotOpen (n tempo division : Nat) (scene : Option Nat) (title : String) (s : State) :
    Host.Outcome State Fault Refusal :=
  request (.slotOpen n tempo division scene title) (slotOpenAct n tempo division scene title) s

/-- PAGE -/
def execPage (n k part : Nat) (es : List EventWord) (s : State) : Host.Outcome State Fault Refusal :=
  request (.page n k part es) (pageAct n k part es) s

/-- SLOT_CLOSE -/
def execSlotClose (n count : Nat) (s : State) : Host.Outcome State Fault Refusal :=
  request (.slotClose n count) (slotCloseAct n count) s

/-- SLOT_ERASE -/
def execSlotErase (n : Nat) (s : State) : Host.Outcome State Fault Refusal := request (.slotErase n) (slotEraseAct n) s

/-- SLOT_READ -/
def execSlotRead (n : Nat) (s : State) : Host.Outcome State Fault Refusal := request (.slotRead n) (slotReadAct n) s

/-- STORE_READ -/
def execStoreRead (s : State) : Host.Outcome State Fault Refusal := request .storeRead storeReadAct s

/-- SAVE -/
def execSave (s : State) : Host.Outcome State Fault Refusal := request .save saveAct s

/-- PAGE_READ_END -/
def execPageReadEnd (s : State) : Host.Outcome State Fault Refusal := timed (opDue isRead s) readEnds s

/-- PAGE_PROGRAM_END -/
def execPageProgramEnd (s : State) : Host.Outcome State Fault Refusal := timed (opDue isProgram s) programEnds s

/-- SECTOR_ERASE_END -/
def execSectorEraseEnd (s : State) : Host.Outcome State Fault Refusal := timed (opDue isErase s) eraseEnds s

/-- DIRECTORY_WRITE_END -/
def execDirectoryWriteEnd (s : State) : Host.Outcome State Fault Refusal := timed (opDue isWrite s) writeEnds s

end Sys2Proof.Machine
end

