-- ==== Sys2Proof/Machine/Due.lean ====
section
/-! DEFINITION. What is due now, and what the part does when no command waits: it takes an event that is due, or a
request that waits in the receive buffer, or lets one oscillator tick pass (log 1). -/

namespace Sys2Proof.Machine

/-- A time-driven event whose instant has come. -/
def ifDue (s : State) (t : Option Nat) (i : Instr) : List Instr :=
  match t with
  | some u => if u ≤ s.tb.runUs then [i] else []
  | none => []

/-- The numbers 1..`n`. -/
def unitsTo (n : Nat) : List Nat := (List.range n).map (· + 1)

/-- Time, reference, dials. -/
def dueTime (s : State) : List Instr :=
  ifDue s (secondDue s) .secondEnd ++ ifDue s (trimDue s) .trimUpdate ++ ifDue s (backupDue s) .backupSecond ++
    (if missingTicks s = some 0 then [.expectedSecondMissing] else []) ++ ifDue s (markDue s) .markExpired ++
    (unitsTo 4).flatMap (fun n =>
      ifDue s (impulseDue n s) (.dialImpulseStart n) ++ ifDue s (impulseEndDue n s) (.dialImpulseEnd n))

/-- Bells and voices. -/
def dueBells (s : State) : List Instr :=
  (unitsTo 24).flatMap (fun b =>
    ifDue s (heldDue b s) (.heldStrokeRelease b) ++ ifDue s (pulseDue b s) (.hammerPulseEnd b) ++
      ifDue s (windowDue b s) (.confirmWindowClose b)) ++
    (unitsTo 4).flatMap (fun v => ifDue s (strokeDue v s) (.strokeRelease v) ++ ifDue s (takeUpDue v s) (.eventTakeUp v))

/-- Performances and the clock. -/
def duePerfs (s : State) : List Instr :=
  s.perfs.flatMap (fun p =>
    let id := p.id
    ifDue s (tollDue id s) (.tollStrokeRelease id) ++ ifDue s (testDue id s) (.testStrokeRelease id) ++
      ifDue s (startDue id s) (.driveStart id) ++ ifDue s (endDue id s) (.performanceEnd id) ++
      ifDue s (cutDue id s) (.cutRecordLeaves id) ++ ifDue s (expiryDue id s) (.waitExpiry id)) ++
    ifDue s (quarterDue s) .quarterEvaluation

/-- Swing drives. -/
def dueDrives (s : State) : List Instr :=
  (unitsTo 4).flatMap fun n =>
    ifDue s (kickDue n s) (.kickEnd n) ++ ifDue s (brakeDue n s) (.brakeKickEnd n) ++ ifDue s (settleDue n s) (.settleExpiry n) ++
      ifDue s (noStartDue n s) (.noStart n) ++ ifDue s (raiseDue n s) (.raiseLimit n) ++
      ifDue s (noBottomDue n s) (.noBottom n) ++ ifDue s (lowerDue n s) (.loweringInstant n)

/-- Store and lights; a code that the block itself ends a measurement with is the world's (log 31). -/
def dueLights (s : State) : List Instr :=
  ifDue s (opDue isRead s) .pageReadEnd ++ ifDue s (opDue isProgram s) .pageProgramEnd ++
    ifDue s (opDue isErase s) .sectorEraseEnd ++ ifDue s (opDue isWrite s) .directoryWriteEnd ++
    (unitsTo 16).flatMap (fun n => ifDue s (fadeDue n s) (.fadeStep n) ++ ifDue s (pwmDue n s) (.pwmPeriod n)) ++
    ifDue s (lampDue s) .lampSlot ++ ifDue s (duskDue s) .duskSample ++
    ifDue s (lampEndDue s) (.lampMeasurementEnd (Config.converterCode s.drawn)) ++
    ifDue s (duskEndDue s) (.duskMeasurementEnd (Config.converterCode s.drawn))

/-- The line and power: the request that is to be taken, the restart event, the start values. -/
def dueLine (s : State) : List Instr :=
  (if s.power.phase = .on ∧ s.line.restart = .none then s.line.oldestWaiting.toList else []) ++
    (match s.line.restart with
      | .loaded _ => [.restartEvent]
      | _ => []) ++
    if startDueNow s then [.startValues] else []

/-- All that is due now. -/
def dueNow (s : State) : List Instr :=
  dueTime s ++ dueBells s ++ duePerfs s ++ dueDrives s ++ dueLights s ++ dueLine s

/-- What the part does when no command waits. One thing that is due is put in the queue; of several, a free value says
which (log 4); where nothing is due, one oscillator tick passes (log 1). -/
def idle (s : State) : State :=
  match dueNow s with
  | [] => { s with tb := s.tb.count 1 }
  | i :: l =>
    let pick := (i :: l)[Config.tieChoice s.drawn % (l.length + 1)]?
    { s with drawn := s.drawn + 1, pending := s.pending ++ [pick.getD i] }

end Sys2Proof.Machine
end

