-- ==== Sys2Proof/Machine/Panel.lean ====
section
/-! DEFINITION. The panel keys (R196) and what each does (R122, R163, R179, R98). -/

namespace Sys2Proof.Machine

/-- Whether a key's next press may be taken (R196). -/
def Keys.isOpen (k : Keys) : Key → Bool
  | .toll => k.toll
  | .silence => k.silence
  | .lights => k.lights
  | .stop => k.stop

/-- Set whether a key's next press may be taken. -/
def Keys.set (k : Keys) (o : Bool) : Key → Keys
  | .toll => { k with toll := o }
  | .silence => { k with silence := o }
  | .lights => { k with lights := o }
  | .stop => { k with stop := o }

/-- A press is taken once; a further one waits for the input to have been open (R196). -/
def press (k : Key) (body : State → State) (s : State) : State :=
  if s.keys.isOpen k then body { s with keys := s.keys.set false k } else s

/-- A record is the panel toll (R122). -/
def isPanelToll (p : Perf) : Bool :=
  decide (p.source = .panel) && decide (p.state ≠ .stopping) && match p.kind with
    | .toll _ => true
    | _ => false

/-- The Toll key (R122). -/
def tollPressed (s : State) : State :=
  match s.perfs.find? isPanelToll with
  | some p => finishPerf p.id s
  | none =>
    let c := s.cfg.panelToll
    match createPerf (tollPerf s c.bell c.interval 0 c.intensity c.wait c.scene .panel) s with
    | (t, .full) => notify .perf [.word "FULL", .word "PANEL"] t
    | (t, _) => t

/-- The Silence key (R163). -/
def silencePressed (s : State) : State :=
  let on := !s.sched.panelSilence
  notify .entry [.word "PANEL", .word "SILENCE", onOff on] { s with sched := { s.sched with panelSilence := on } }

/-- The Lights key (R179). -/
def lightsPressed (s : State) : State :=
  let on := !s.lights.panelOn
  let s := { s with lights := { s.lights with panelOn := on } }
  let c := s.cfg.site
  let held := allChans.filter fun n => (s.chan n).override.any (·.panel)
  let s :=
    if on then setOverride (some { level := c.panelLevel, mode := .hold, panel := true }) c.panelFade allChans s
    else setOverride none c.panelFade held s
  notify .lamp [.word "PANEL", onOff on] s

/-- What the Stop key does to one record; the flag says whether an offer round is due (R98). -/
def stopRecord (acc : State × Bool) (id : Nat) : State × Bool :=
  match acc.1.perf id with
  | none => acc
  | some p =>
    match p.kind with
    | .tune | .toll _ =>
      let (t, o) := cutPerf id acc.1
      (t, acc.2 || o)
    | .swing _ => (finishPerf id acc.1, acc.2)
    | .clock _ | .test _ => acc

/-- The Stop key: CUT for every TUNE and TOLL, FINISH for every SWING, then the one offer round (R98, log 19). -/
def stopPressed (s : State) : State :=
  let (s, offer) := (s.perfs.map (·.id)).foldl stopRecord (s, false)
  if offer then offerRound s else s

/-- TOLL_KEY -/
def execTollKey (w : Nat) (s : State) : Host.Outcome State Fault Refusal := outside w (press .toll tollPressed) s

/-- SILENCE_KEY -/
def execSilenceKey (w : Nat) (s : State) : Host.Outcome State Fault Refusal := outside w (press .silence silencePressed) s

/-- LIGHTS_KEY -/
def execLightsKey (w : Nat) (s : State) : Host.Outcome State Fault Refusal := outside w (press .lights lightsPressed) s

/-- STOP_KEY -/
def execStopKey (w : Nat) (s : State) : Host.Outcome State Fault Refusal := outside w (press .stop stopPressed) s

/-- KEY_INPUT_OPEN -/
def execKeyInputOpen (w : Nat) (k : Key) (s : State) : Host.Outcome State Fault Refusal :=
  outside w (fun s => { s with keys := s.keys.set true k }) s

end Sys2Proof.Machine
end

