-- ==== Sys2Proof/Machine/Sched.lean ====
section
/-! DEFINITION. The commands of the Schedule Table (chapter 9). -/

namespace Sys2Proof.Machine

/-- Write an entry's state and fields. -/
def setEntry (n : Nat) (e : EntryCfg) (s : State) : State := { s with cfg := { s.cfg with entries := wr s.cfg.entries n e } }

/-- An entry's state's name (R155). -/
def entryStateName : EntryCfg → String
  | .empty => "EMPTY" | .active _ => "ACTIVE" | .suspended _ => "SUSPENDED"

/-- The entry as taken: its action's numbers clamped (R156). -/
def clampEntry (f : EntryFields) : EntryFields := { f with action := clampAction f.action }

/-- ENTRY WRITE (R156). -/
def entryWriteAct (n : Nat) (f : EntryFields) (s : State) : State × Reply :=
  if unitOk 128 n && entryOk f then (setEntry n (.active (clampEntry f)) s, .ok [.word "ACTIVE"]) else refuse .range s

/-- The reply with an entry's state (R157). -/
def entryReply (n : Nat) (s : State) : State × Reply := (s, .ok [.word (entryStateName (s.entry n))])

/-- ENTRY SUSPEND (R157). -/
def entrySuspendAct (n : Nat) (s : State) : State × Reply :=
  if !unitOk 128 n then refuse .range s
  else
    match s.entry n with
    | .empty => refuse .none s
    | .active f => entryReply n (setEntry n (.suspended f) s)
    | .suspended _ => entryReply n s

/-- ENTRY RESUME (R157). -/
def entryResumeAct (n : Nat) (s : State) : State × Reply :=
  if !unitOk 128 n then refuse .range s
  else
    match s.entry n with
    | .empty => refuse .none s
    | .suspended f => entryReply n (setEntry n (.active f) s)
    | .active _ => entryReply n s

/-- ENTRY CLEAR (R157). -/
def entryClearAct (n : Nat) (s : State) : State × Reply :=
  if !unitOk 128 n then refuse .range s else entryReply n (setEntry n .empty s)

/-- A date-minute's fields, or "-" (R170). -/
def stampFields : Option Nat → List Field
  | some m => dateMinuteFields m
  | none => [.absent]

/-- An entry's minute for today and whether its date pattern matches (R170). -/
def todayFields (f : EntryFields) (d : DayValues) : List Field :=
  let m := match f.time with
    | .fixed none _ => Field.word "ANY"
    | _ => match (entryMinutes f d).head? with
      | some m => minuteField m
      | none => .absent
  [m, .word (if dateMatches f d then "MATCH" else "NOMATCH")]

/-- ENTRY READ (R170). -/
def entryReadAct (n : Nat) (s : State) : State × Reply :=
  if !unitOk 128 n then refuse .range s
  else
    match s.entry n with
    | .empty => answer (.word "EMPTY" :: stampFields (s.stamp n)) s
    | .active f => answer (.word "ACTIVE" :: entryFields f ++ stampFields (s.stamp n) ++ todayFields f s.cal.day) s
    | .suspended f => answer (.word "SUSPENDED" :: entryFields f ++ stampFields (s.stamp n) ++ todayFields f s.cal.day) s

/-- A silence end as a local date and hh:mm, or NONE when absent or already passed (R170). -/
def endFields (s : State) (e : Option Nat) : List Field :=
  match e with
  | none => [.word "NONE"]
  | some t => if s.stdUs < t then dateMinuteFields ((t / 1000000 + s.offset) % spanSecs / 60) else [.word "NONE"]

/-- SCHEDULE READ (R170). -/
def scheduleReadAct (s : State) : State × Reply :=
  let es := s.cfg.entries.toList
  let active := (es.filter fun e => match e with | .active _ => true | _ => false).length
  let suspended := (es.filter fun e => match e with | .suspended _ => true | _ => false).length
  answer
    (stampFields s.sched.lastEval ++ endFields s s.sched.strikeEnd ++ endFields s s.sched.tunesEnd ++
      [ onOff s.sched.panelSilence, yesNo (strikeSilent s s.stdUs), yesNo (tunesSilent s s.stdUs)
      , .num (128 - active - suspended : Nat), .num active, .num suspended ]) s

/-- ENTRY_WRITE -/
def execEntryWrite (n : Nat) (f : EntryFields) (s : State) : Host.Outcome State Fault Refusal :=
  request (.entryWrite n f) (entryWriteAct n f) s

/-- ENTRY_SUSPEND -/
def execEntrySuspend (n : Nat) (s : State) : Host.Outcome State Fault Refusal :=
  request (.entrySuspend n) (entrySuspendAct n) s

/-- ENTRY_RESUME -/
def execEntryResume (n : Nat) (s : State) : Host.Outcome State Fault Refusal :=
  request (.entryResume n) (entryResumeAct n) s

/-- ENTRY_CLEAR -/
def execEntryClear (n : Nat) (s : State) : Host.Outcome State Fault Refusal := request (.entryClear n) (entryClearAct n) s

/-- ENTRY_READ -/
def execEntryRead (n : Nat) (s : State) : Host.Outcome State Fault Refusal := request (.entryRead n) (entryReadAct n) s

/-- SCHEDULE_READ -/
def execScheduleRead (s : State) : Host.Outcome State Fault Refusal := request .scheduleRead scheduleReadAct s

end Sys2Proof.Machine
end

