-- ==== Sys2Proof/Machine/Dispatch.lean ====
section
/-! DEFINITION. One arm per command: the one call of its meaning. -/

namespace Sys2Proof.Machine

/-- The effect of a command on everything but the queue. -/
def exec (i : Instr) (s : State) : Host.Outcome State Fault Refusal :=
  match i with
  | .timeSet date time zone => Sys2Proof.Machine.execTimeSet date time zone s
  | .mark date time zone => Sys2Proof.Machine.execMark date time zone s
  | .refOn => Sys2Proof.Machine.execRefOn s
  | .refOff => Sys2Proof.Machine.execRefOff s
  | .timeRead => Sys2Proof.Machine.execTimeRead s
  | .refRead => Sys2Proof.Machine.execRefRead s
  | .summer rule => Sys2Proof.Machine.execSummer rule s
  | .sun k rise st => Sys2Proof.Machine.execSun k rise st s
  | .calendarRead => Sys2Proof.Machine.execCalendarRead s
  | .yearRead y => Sys2Proof.Machine.execYearRead y s
  | .summerRead => Sys2Proof.Machine.execSummerRead s
  | .sunRead k => Sys2Proof.Machine.execSunRead k s
  | .dialConfig n cfg => Sys2Proof.Machine.execDialConfig n cfg s
  | .dialSet n pos pol => Sys2Proof.Machine.execDialSet n pos pol s
  | .dialStop n => Sys2Proof.Machine.execDialStop n s
  | .dialGo n => Sys2Proof.Machine.execDialGo n s
  | .dialRead n => Sys2Proof.Machine.execDialRead n s
  | .bellConfig b cfg => Sys2Proof.Machine.execBellConfig b cfg s
  | .bellSilent b on => Sys2Proof.Machine.execBellSilent b on s
  | .bellClear b => Sys2Proof.Machine.execBellClear b s
  | .bellTest b intensity => Sys2Proof.Machine.execBellTest b intensity s
  | .bellRead b => Sys2Proof.Machine.execBellRead b s
  | .claimRead b => Sys2Proof.Machine.execClaimRead b s
  | .stopFinish id => Sys2Proof.Machine.execStopFinish id s
  | .stopCut id => Sys2Proof.Machine.execStopCut id s
  | .play slot scale wait scene => Sys2Proof.Machine.execPlay slot scale wait scene s
  | .toll bell iv count intensity wait scene => Sys2Proof.Machine.execToll bell iv count intensity wait scene s
  | .perfRead id => Sys2Proof.Machine.execPerfRead id s
  | .clockConfig cfg => Sys2Proof.Machine.execClockConfig cfg s
  | .clockLevels levels => Sys2Proof.Machine.execClockLevels levels s
  | .sheetRead today first => Sys2Proof.Machine.execSheetRead today first s
  | .clockRead => Sys2Proof.Machine.execClockRead s
  | .panelToll cfg => Sys2Proof.Machine.execPanelToll cfg s
  | .panelTollRead => Sys2Proof.Machine.execPanelTollRead s
  | .swingConfig n cfg => Sys2Proof.Machine.execSwingConfig n cfg s
  | .swingClear n => Sys2Proof.Machine.execSwingClear n s
  | .ring drives stagger duration wait => Sys2Proof.Machine.execRing drives stagger duration wait s
  | .swingRead n => Sys2Proof.Machine.execSwingRead n s
  | .slotOpen n tempo division scene title => Sys2Proof.Machine.execSlotOpen n tempo division scene title s
  | .page n k part events => Sys2Proof.Machine.execPage n k part events s
  | .slotClose n count => Sys2Proof.Machine.execSlotClose n count s
  | .slotErase n => Sys2Proof.Machine.execSlotErase n s
  | .slotRead n => Sys2Proof.Machine.execSlotRead n s
  | .storeRead => Sys2Proof.Machine.execStoreRead s
  | .entryWrite n fields => Sys2Proof.Machine.execEntryWrite n fields s
  | .entrySuspend n => Sys2Proof.Machine.execEntrySuspend n s
  | .entryResume n => Sys2Proof.Machine.execEntryResume n s
  | .entryClear n => Sys2Proof.Machine.execEntryClear n s
  | .entryRead n => Sys2Proof.Machine.execEntryRead n s
  | .scheduleRead => Sys2Proof.Machine.execScheduleRead s
  | .lightConfig n cfg => Sys2Proof.Machine.execLightConfig n cfg s
  | .sceneWrite k fade pairs => Sys2Proof.Machine.execSceneWrite k fade pairs s
  | .sceneRead k => Sys2Proof.Machine.execSceneRead k s
  | .lightSite cfg => Sys2Proof.Machine.execLightSite cfg s
  | .light ch level fade md => Sys2Proof.Machine.execLight ch level fade md s
  | .lightRelease ch fade => Sys2Proof.Machine.execLightRelease ch fade s
  | .lightClear n fade => Sys2Proof.Machine.execLightClear n fade s
  | .lightRead n => Sys2Proof.Machine.execLightRead n s
  | .duskRead => Sys2Proof.Machine.execDuskRead s
  | .maskSet cls on => Sys2Proof.Machine.execMaskSet cls on s
  | .lineRate rate => Sys2Proof.Machine.execLineRate rate s
  | .statusRead => Sys2Proof.Machine.execStatusRead s
  | .modeService => Sys2Proof.Machine.execModeService s
  | .modeRun => Sys2Proof.Machine.execModeRun s
  | .save => Sys2Proof.Machine.execSave s
  | .restart => Sys2Proof.Machine.execRestart s
  | .lineReceived wait line => Sys2Proof.Machine.execLineReceived wait line s
  | .lineSent wait => Sys2Proof.Machine.execLineSent wait s
  | .secondEnd => Sys2Proof.Machine.execSecondEnd s
  | .trimUpdate => Sys2Proof.Machine.execTrimUpdate s
  | .refPulse wait => Sys2Proof.Machine.execRefPulse wait s
  | .expectedSecondMissing => Sys2Proof.Machine.execExpectedSecondMissing s
  | .markExpired => Sys2Proof.Machine.execMarkExpired s
  | .backupSecond => Sys2Proof.Machine.execBackupSecond s
  | .dialImpulseStart n => Sys2Proof.Machine.execDialImpulseStart n s
  | .dialImpulseEnd n => Sys2Proof.Machine.execDialImpulseEnd n s
  | .noonClosure wait n => Sys2Proof.Machine.execNoonClosure wait n s
  | .strokeRelease voice => Sys2Proof.Machine.execStrokeRelease voice s
  | .heldStrokeRelease b => Sys2Proof.Machine.execHeldStrokeRelease b s
  | .hammerPulseEnd b => Sys2Proof.Machine.execHammerPulseEnd b s
  | .confirmClosure wait b => Sys2Proof.Machine.execConfirmClosure wait b s
  | .confirmWindowClose b => Sys2Proof.Machine.execConfirmWindowClose b s
  | .eventTakeUp voice => Sys2Proof.Machine.execEventTakeUp voice s
  | .tollStrokeRelease id => Sys2Proof.Machine.execTollStrokeRelease id s
  | .testStrokeRelease id => Sys2Proof.Machine.execTestStrokeRelease id s
  | .driveStart id => Sys2Proof.Machine.execDriveStart id s
  | .performanceEnd id => Sys2Proof.Machine.execPerformanceEnd id s
  | .cutRecordLeaves id => Sys2Proof.Machine.execCutRecordLeaves id s
  | .waitExpiry id => Sys2Proof.Machine.execWaitExpiry id s
  | .quarterEvaluation => Sys2Proof.Machine.execQuarterEvaluation s
  | .bottomPulse wait n => Sys2Proof.Machine.execBottomPulse wait n s
  | .amplitudePulse wait n => Sys2Proof.Machine.execAmplitudePulse wait n s
  | .kickEnd n => Sys2Proof.Machine.execKickEnd n s
  | .brakeKickEnd n => Sys2Proof.Machine.execBrakeKickEnd n s
  | .settleExpiry n => Sys2Proof.Machine.execSettleExpiry n s
  | .noStart n => Sys2Proof.Machine.execNoStart n s
  | .raiseLimit n => Sys2Proof.Machine.execRaiseLimit n s
  | .noBottom n => Sys2Proof.Machine.execNoBottom n s
  | .loweringInstant n => Sys2Proof.Machine.execLoweringInstant n s
  | .pageReadEnd => Sys2Proof.Machine.execPageReadEnd s
  | .pageProgramEnd => Sys2Proof.Machine.execPageProgramEnd s
  | .sectorEraseEnd => Sys2Proof.Machine.execSectorEraseEnd s
  | .directoryWriteEnd => Sys2Proof.Machine.execDirectoryWriteEnd s
  | .fadeStep ch => Sys2Proof.Machine.execFadeStep ch s
  | .lampSlot => Sys2Proof.Machine.execLampSlot s
  | .lampMeasurementEnd code => Sys2Proof.Machine.execLampMeasurementEnd code s
  | .duskSample => Sys2Proof.Machine.execDuskSample s
  | .duskMeasurementEnd code => Sys2Proof.Machine.execDuskMeasurementEnd code s
  | .tollKey wait => Sys2Proof.Machine.execTollKey wait s
  | .silenceKey wait => Sys2Proof.Machine.execSilenceKey wait s
  | .lightsKey wait => Sys2Proof.Machine.execLightsKey wait s
  | .stopKey wait => Sys2Proof.Machine.execStopKey wait s
  | .powerLoss wait => Sys2Proof.Machine.execPowerLoss wait s
  | .powerUp valid => Sys2Proof.Machine.execPowerUp valid s
  | .startValues => Sys2Proof.Machine.execStartValues s
  | .restartEvent => Sys2Proof.Machine.execRestartEvent s
  | .noonContactOpen wait n => Sys2Proof.Machine.execNoonContactOpen wait n s
  | .keyInputOpen wait key => Sys2Proof.Machine.execKeyInputOpen wait key s
  | .pwmPeriod ch => Sys2Proof.Machine.execPwmPeriod ch s

end Sys2Proof.Machine
end

