-- ==== Sys2Proof/Safety.lean ====
section
/-! DEFINITION. The terms in which statements about the part are made: which commands are requests, what a taken request
leaves on the line, and the invariants of the timebase and of the bounded tables. -/

namespace Sys2Proof.Machine

/-- The commands that are requests of the line (11.8); the others are events. -/
def isRequest : Instr → Bool
  | .timeSet _ _ _ | .mark _ _ _ | .refOn | .refOff | .timeRead | .refRead | .summer _ | .sun _ _ _ | .calendarRead
  | .yearRead _ | .summerRead | .sunRead _ | .dialConfig _ _ | .dialSet _ _ _ | .dialStop _ | .dialGo _
  | .dialRead _ | .bellConfig _ _ | .bellSilent _ _ | .bellClear _ | .bellTest _ _ | .bellRead _ | .claimRead _
  | .stopFinish _ | .stopCut _ | .play _ _ _ _ | .toll _ _ _ _ _ _ | .perfRead _ | .clockConfig _ | .clockLevels _
  | .sheetRead _ _ | .clockRead | .panelToll _ | .panelTollRead | .swingConfig _ _ | .swingClear _ | .ring _ _ _ _
  | .swingRead _ | .slotOpen _ _ _ _ _ | .page _ _ _ _ | .slotClose _ _ | .slotErase _ | .slotRead _ | .storeRead
  | .entryWrite _ _ | .entrySuspend _ | .entryResume _ | .entryClear _ | .entryRead _ | .scheduleRead
  | .lightConfig _ _ | .sceneWrite _ _ _ | .sceneRead _ | .lightSite _ | .light _ _ _ _ | .lightRelease _ _
  | .lightClear _ _ | .lightRead _ | .duskRead | .maskSet _ _ | .lineRate _ | .statusRead | .modeService | .modeRun
  | .save | .restart => true
  | .lineReceived _ _ | .lineSent _ | .secondEnd | .trimUpdate | .refPulse _ | .expectedSecondMissing
  | .markExpired | .backupSecond | .dialImpulseStart _ | .dialImpulseEnd _ | .noonClosure _ _ | .strokeRelease _
  | .heldStrokeRelease _ | .hammerPulseEnd _ | .confirmClosure _ _ | .confirmWindowClose _ | .eventTakeUp _
  | .tollStrokeRelease _ | .testStrokeRelease _ | .driveStart _ | .performanceEnd _ | .cutRecordLeaves _
  | .waitExpiry _ | .quarterEvaluation | .bottomPulse _ _ | .amplitudePulse _ _ | .kickEnd _ | .brakeKickEnd _
  | .settleExpiry _ | .noStart _ | .raiseLimit _ | .noBottom _ | .loweringInstant _ | .pageReadEnd
  | .pageProgramEnd | .sectorEraseEnd | .directoryWriteEnd | .fadeStep _ | .lampSlot | .lampMeasurementEnd _
  | .duskSample | .duskMeasurementEnd _ | .tollKey _ | .silenceKey _ | .lightsKey _ | .stopKey _ | .powerLoss _
  | .powerUp _ | .startValues | .restartEvent | .noonContactOpen _ _ | .keyInputOpen _ _ | .pwmPeriod _ => false

/-- The requests that are accepted in SERVICE and refused MODE in RUN (11.8). -/
def isServiceOnly : Instr → Bool
  | .summer _ | .sun _ _ _ | .dialConfig _ _ | .bellConfig _ _ | .bellTest _ _ | .clockConfig _ | .clockLevels _
  | .panelToll _ | .swingConfig _ _ | .lightConfig _ _ | .lightSite _ | .lineRate _ => true
  | _ => false

/-- The requests that read and change nothing (R18, R33, R48, R68, R76, R101, R119, R121, R136, R150, R170, R173, R187,
R195). -/
def isReadout : Instr → Bool
  | .timeRead | .refRead | .calendarRead | .yearRead _ | .summerRead | .sunRead _ | .dialRead _ | .bellRead _
  | .claimRead _ | .perfRead _ | .sheetRead _ _ | .clockRead | .panelTollRead | .swingRead _ | .slotRead _
  | .storeRead | .entryRead _ | .scheduleRead | .sceneRead _ | .lightRead _ | .duskRead | .statusRead => true
  | _ => false

/-- The operands of a readout name something it can read: a unit, a year or a slot in its range, and for PERF READ a
record in the table. -/
def readoutInRange (s : State) : Instr → Bool
  | .yearRead y => decide (2000 ≤ y) && decide (y ≤ 2199)
  | .sunRead k => unitOk 24 k
  | .dialRead n => unitOk 4 n
  | .bellRead b => unitOk 24 b
  | .claimRead b => unitOk 24 b
  | .perfRead (some id) => unitOk 255 id && (s.perf id).isSome
  | .sheetRead _ first => decide (first.getD 0 ≤ 95)
  | .swingRead n => unitOk 4 n
  | .slotRead n => unitOk 64 n
  | .entryRead n => unitOk 128 n
  | .sceneRead k => decide (k ≤ 32)
  | .lightRead n => unitOk 16 n
  | _ => true

/-- The line once request `i` has been taken and its reply `r` is ready: the reply stands in the request's place, and an
idle transmitter begins what is first to be sent (R190, R193). -/
def replyLine (i : Instr) (s : State) (r : Reply) : Line :=
  ((arrived i s).line.answered (.ready r (rateAfter i r))).pumped

/-- The same, where the request raises a notice before its reply is ready. -/
def noticeReplyLine (i : Instr) (s : State) (c : NoticeClass) (detail : List Field) (r : Reply) : Line :=
  (((arrived i s).line.latched c detail).answered (.ready r (rateAfter i r))).pumped

/-- The line after an event that raises one notice. -/
def noticeLine (s : State) (c : NoticeClass) (detail : List Field) : Line := (s.line.latched c detail).pumped

/-- A request is taken and changes nothing but the line: its reply is `r`. -/
def AnsweredOnly (i : Instr) (s : State) (r : Reply) : Prop := exec i s = .next { s with line := replyLine i s r }

/-- The timebase stands in its ranges: standard time lies in the 73,049 days of R1, the subsecond does not pass the end of
its second, T, A and the backup counter's accumulator stand in the ranges of R2, R13 and R19, a pending slew in that of
R12, the length of the second in progress follows from them, and a pending mark lies in the range of dates. -/
structure TimeOk (s : State) : Prop where
  secs : s.tb.secs < spanSecs
  sub : s.tb.sub ≤ 1000000
  trim : -50000 ≤ s.tb.trim ∧ s.tb.trim ≤ 50000
  acc : -999 ≤ s.tb.acc ∧ s.tb.acc ≤ 999
  back : -999 ≤ s.power.backAcc ∧ s.power.backAcc ≤ 999
  slew : ∀ e, s.tb.slew = some e → -1000 ≤ e ∧ e ≤ 1000
  len : 998950 ≤ s.tb.len ∧ s.tb.len ≤ 1001050
  mark : ∀ m, s.ref.mark = some m → m.secs < spanSecs

/-- A performance table holds at most 12 records, no two of one id (R78, R79). -/
structure TableOk (l : List Perf) : Prop where
  room : l.length ≤ 12
  ids : (l.map (·.id)).Nodup

/-- The bounded tables hold no more than the manual gives them: two buffer places and 8 overrun marks (R190), 8 entries of
the store operation queue (R142), 12 performance records of distinct ids (R78, R79). -/
structure BoundsOk (s : State) : Prop where
  places : s.line.places ≤ 2
  marks : s.line.marks ≤ 8
  queue : s.store.queue.length ≤ 8
  perfs : TableOk s.perfs

/-! ### Whole-machine laws -/

/-- The images that an image sector's pages hold. -/
def pageImages (v : ImageSector) : List Image := v.toList.filterMap fun p => p.map (·.2)

/-- The image that an operation of the store writes. -/
def QueueOp.images : QueueOp → List Image
  | .imageProgram _ _ _ im => [im]
  | .program _ _ _ _ | .erase _ _ | .dirWrite _ _ | .imageErase _ => []

/-- The image that the operation in progress reads or writes. -/
def Running.images : Running → List Image
  | .read _ _ src => (src.map (·.2.2)).toList
  | .queued op => op.images
  | .writing _ _ _ _ => []

/-- Every image that the store holds: on the array, in the queue, in the operation in progress, in a load. -/
def Store.images (st : Store) : List Image :=
  pageImages st.imgA ++ pageImages st.imgB ++ st.queue.flatMap QueueOp.images ++
    (st.op.map fun p => p.1.images).getD [] ++ ((st.imgLoad.bind (·.src)).map (·.2.2)).toList

/-- The image that a RESTART has loaded. -/
def Restart.images : Restart → List Image
  | .loaded im => [im]
  | .none | .loading | .building => []

/-- Every configuration the part holds: the working one, and those of all the images it holds anywhere. -/
def State.heldSettings (s : State) : List Settings :=
  s.cfg :: (s.store.images ++ s.line.restart.images).map (·.settings)

/-- A scene's levels lie in 0..4095 (R173). -/
def SceneOk (sc : Scene) : Prop := ∀ n l, unitOk 16 n = true → rd sc.levels n none = some l → l ≤ 4095

/-- A configuration keeps the ranges that its requests check or clamp: the four levels 0..3 (R104), the steps of the dials
(R35), the levels of the scenes (R173) and the panel level (R174). -/
structure SettingsOk (c : Settings) : Prop where
  levels : c.levels.swing ≤ 3 ∧ c.levels.toll ≤ 3 ∧ c.levels.clock ≤ 3 ∧ c.levels.tune ≤ 3
  steps : ∀ n, unitOk 4 n = true → (rd c.dials n defaultDial).step = 30 ∨ (rd c.dials n defaultDial).step = 60
  scenes : ∀ k, unitOk 32 k = true → SceneOk (rd c.scenes k darkScene)
  panel : c.site.panelLevel ≤ 4095

/-- Every configuration the part holds keeps its ranges, and so does the step retained with each dial's record (R52). -/
structure HeldOk (s : State) : Prop where
  settings : ∀ c ∈ s.heldSettings, SettingsOk c
  steps : ∀ n, unitOk 4 n = true → (s.dial n).step = 30 ∨ (s.dial n).step = 60

/-- The claim lists by R69: toward the top, the level numbers strictly fall and the admission orders rise; the levels lie
in 0..3 and the orders are ones already given. The levels of the records in the performance table lie in 0..3 too. -/
structure ClaimListsOk (bells : Vector Bell 24) (nextOrder : Nat) (perfs : List Perf) : Prop where
  falls : ∀ b, unitOk 24 b = true →
    (rd bells b startBell).claims.Pairwise fun x y => x.level < y.level ∧ y.order < x.order
  given : ∀ b, unitOk 24 b = true → ∀ c ∈ (rd bells b startBell).claims, c.level ≤ 3 ∧ c.order < nextOrder
  levels : ∀ p ∈ perfs, p.level ≤ 3

/-- The law of R69 in a state. -/
structure ClaimsOk (s : State) : Prop where
  held : HeldOk s
  lists : ClaimListsOk s.bells s.nextOrder s.perfs

/-- A channel by R175, R180 and R183: its layers, its target and its output lie in 0..4095; during a fade the output lies
between the fade's start and target; a TRIPPED channel outputs 0 and holds no fade. -/
structure ChannelOk (c : Channel) : Prop where
  base : ∀ l, c.base = some l → l ≤ 4095
  perf : ∀ l, c.perf = some l → l ≤ 4095
  override : ∀ o, c.override = some o → o.level ≤ 4095
  target : c.target ≤ 4095
  output : c.output ≤ 4095
  fade : ∀ f, c.fade = some f →
    f.start ≤ 4095 ∧ f.target ≤ 4095 ∧ min f.start f.target ≤ c.output ∧ c.output ≤ max f.start f.target
  tripped : c.lamp = .tripped → c.output = 0 ∧ c.fade = none

/-- The channels and the contributions of the performance layer (R175, R177). -/
structure LightsOk (l : Lights) : Prop where
  chans : ∀ n, unitOk 16 n = true → ChannelOk (rd l.chans n startChannel)
  contribs : ∀ c ∈ l.contribs, SceneOk c.scene

/-- The law of R180 in a state. -/
structure LampsOk (s : State) : Prop where
  held : HeldOk s
  lights : LightsOk s.lights

/-- A read of the directory scan (R153). -/
def Reader.isScan : Reader → Bool
  | .scan _ => true
  | .voice _ | .build _ | .image _ => false

/-- No read of the directory scan stands in the read list or is in progress. -/
def NoScan (st : Store) : Prop :=
  (∀ r ∈ st.reads, r.reader.isScan = false) ∧ ∀ r es src t, st.op = some (.read r es src, t) → r.reader.isScan = false

/-- The dials' positions (R35, R37): a known position lies in 0..P - 1, with P = 43,200 / s, and the step retained with the
record is that of the configuration. -/
structure DialsOk (s : State) : Prop where
  held : HeldOk s
  scan : NoScan s.store
  steps : ∀ n, unitOk 4 n = true → (s.dial n).step = (s.dialCfg n).step
  range : ∀ n p, unitOk 4 n = true → (s.dial n).pos = some p → p < 43200 / (s.dialCfg n).step

/-- The entries of the store's operation queue with the one in progress before them, oldest first (R142). -/
def Store.entries (st : Store) : List QueueOp :=
  (match st.op with
    | some (.queued op, _) => [op]
    | some (.writing n p _ _, _) => [.dirWrite n p]
    | _ => []) ++ st.queue

/-- The sectors by R141: each of the 64 is on the free list or in exactly one slot's sector list. It rests on how slots are
loaded and erased (R146 to R149, R153): the slot of the loading record is WRITING and not yet closing; the erases and the
final directory write of a slot find it ERASING, each sector erased once, and the final write comes after them all; a held
resumption has no entry queued. -/
structure SectorListsOk (st : Store) : Prop where
  shared : (st.free ++ ownedSectors st).Perm (List.range 64)
  empty : ∀ n, unitOk 64 n = true → (rd st.slots n emptyEntry).state = .empty → (rd st.slots n emptyEntry).sectors = []
  loading : ∀ l, st.load = some l → unitOk 64 l.slot = true ∧ (rd st.slots l.slot emptyEntry).state = .writing ∧
    .dirWrite l.slot .closing ∉ st.entries
  closings : ∀ n, .dirWrite n .closing ∈ st.entries →
    unitOk 64 n = true ∧ st.entries.count (.dirWrite n .closing) = 1 ∧
      ((rd st.slots n emptyEntry).state = .writing ∨ (rd st.slots n emptyEntry).state = .erasing)
  erases : ∀ n k, .erase n k ∈ st.entries →
    unitOk 64 n = true ∧ st.entries.count (.erase n k) = 1 ∧ (rd st.slots n emptyEntry).state = .erasing ∧
      k ∈ (rd st.slots n emptyEntry).sectors
  finals : ∀ n a b, st.entries = a ++ .dirWrite n .final :: b →
    unitOk 64 n = true ∧ (rd st.slots n emptyEntry).state = .erasing ∧
      (∀ k ∈ (rd st.slots n emptyEntry).sectors, .erase n k ∈ a) ∧
      .dirWrite n .final ∉ b ∧ .dirWrite n .closing ∉ b
  resume : st.resume.Nodup ∧ ∀ n ∈ st.resume, unitOk 64 n = true ∧ (rd st.slots n emptyEntry).state = .erasing ∧
    .dirWrite n .final ∉ st.entries ∧ ∀ k, .erase n k ∉ st.entries
  scan : NoScan st

/-! ### Commands and pulses -/

/-- The oscillator ticks after which an event from outside comes (log 3); absent for a request and for an event that the
part raises by itself. -/
def placedAfter : Instr → Option Nat
  | .lineReceived w _ | .lineSent w | .refPulse w | .noonClosure w _ | .confirmClosure w _ | .bottomPulse w _
  | .amplitudePulse w _ | .tollKey w | .silenceKey w | .lightsKey w | .stopKey w | .powerLoss w | .noonContactOpen w _
  | .keyInputOpen w _ => some w
  | _ => none

/-- The presence window after one more mark, oldest first, at most 32 (R10). -/
def windowWith (w : List Bool) (valid : Bool) : List Bool := (w ++ [valid]).drop (w.length + 1 - 32)

/-- The pulse falls within 2,000 ticks of the cadence instant (R9, log 12). -/
def OnCadence (s : State) : Prop := ∃ c, s.ref.cadence = some c ∧ c ≤ s.tb.osc + 2000 ∧ s.tb.osc ≤ c + 2000

/-- The pulse is the first within 50,000 µs of a local second boundary (R9). -/
def OnBoundary (s : State) : Prop :=
  (s.tb.sub ≤ 50000 ∧ s.ref.judged = false) ∨ (950000 ≤ s.tb.sub ∧ s.ref.early = false)

/-- A pulse now is a qualifying one: valid, or in ACQUIRING and HOLDOVER a cadence start (R9, R15). -/
def Qualifies (s : State) : Prop :=
  ((s.ref.state = .acquiring ∨ s.ref.state = .holdover) ∧ (s.ref.cadence = none ∨ OnCadence s)) ∨
    (s.ref.state = .locked ∧ OnBoundary s)

/-- The lock criterion on a window: 30 valid marks, no three missing ones in a row, the time SET (R10). -/
def Locks (s : State) (w : List Bool) : Prop :=
  30 ≤ w.count true ∧ (∀ i, ¬(w[i]? = some false ∧ w[i + 1]? = some false ∧ w[i + 2]? = some false)) ∧ s.tb.set = true

/-- The phase error of a pulse now, in µs, but for one exactly between two boundaries (R12). -/
def offsetNow (s : State) : Int := if s.tb.sub < 500000 then s.tb.sub else (s.tb.sub : Int) - 1000000

/-- The standard second of the local second boundary nearest a pulse now (R16). -/
def nearestNow (s : State) : Nat := if s.tb.sub < 500000 then s.tb.secs else (s.tb.secs + 1) % (73049 * 86400)

/-! ### Strokes and their reports -/

/-- The checks of the claims and of the swing drive let a stroke of performance `id` on (R56, R57). -/
structure StrokeAllowed (s : State) (b id : Nat) : Prop where
  claim : ∃ c l, (s.bell b).claims = c :: l ∧ c.perf = id
  swing : unitOk 4 (s.bellCfg b).drive = true → (s.drive (s.bellCfg b).drive).state = .down

/-- The claim check masks a stroke of performance `id`: the top record, if any, is another's (R56). -/
def ClaimMissing (s : State) (b id : Nat) : Prop := ∀ c l, (s.bell b).claims = c :: l → c.perf ≠ id

/-- The swing check masks a stroke: the bell's drive is not DOWN (R57). -/
def Swinging (s : State) (b : Nat) : Prop :=
  unitOk 4 (s.bellCfg b).drive = true ∧ (s.drive (s.bellCfg b).drive).state ≠ .down

/-- Nothing crowds a stroke to bell `b` now: no stroke is held there, and the recovery time has passed (R58). -/
structure Uncrowded (s : State) (b : Nat) : Prop where
  held : (s.bell b).held = none
  rest : ∀ r, (s.bell b).last = some r → r + (s.bellCfg b).recovery ≤ s.now

/-- The state check drives a pulse: a hammer, and READY or, for a test stroke, FAULT (R60). -/
def HammerDriven (s : State) (b : Nat) (test : Bool) : Prop :=
  (s.bellCfg b).hammer = true ∧ ((s.bell b).state = .ready ∨ ((s.bell b).state = .fault ∧ test = true))

/-- The state check records a stroke silent (R60). -/
def HammerSilent (s : State) (b : Nat) : Prop := (s.bellCfg b).hammer = true ∧ (s.bell b).state = .silent

/-- The state check masks a stroke: no hammer, or FAULT for an ordinary stroke (R60). -/
def HammerMasked (s : State) (b : Nat) (test : Bool) : Prop :=
  (s.bellCfg b).hammer = false ∨ ((s.bell b).state = .fault ∧ test = false)

/-- Bell `b`'s record once a driven pulse of a stroke has begun now (R61, R62). -/
def pulsedBell (s : State) (b id : Nat) (i : Intensity) (test : Bool) : Bell :=
  let c := s.bellCfg b
  let x := s.bell b
  { x with
    last := some s.now
    driven := min (x.driven + 1) 65535
    pulse := some (max (x.pulse.getD 0) (s.now + pulseWidth c i))
    windows := if c.confirm then
        x.windows ++ [{ perf := id, opens := s.now + flyTime c i - c.half, closes := s.now + flyTime c i + c.half, test := test }]
      else x.windows }

/-- Bell `b`'s record once a stroke has been masked there. -/
def maskedBell (s : State) (b : Nat) : Bell := { s.bell b with masked := min ((s.bell b).masked + 1) 65535 }

/-- Bell `b`'s record once a stroke has been recorded silent now (R60). -/
def silentBell (s : State) (b : Nat) : Bell :=
  { s.bell b with last := some s.now, silent := min ((s.bell b).silent + 1) 65535 }

/-- The counters by the table of R91. -/
def Counters.counted (c : Counters) : Report → Counters
  | .released => { c with released := min (c.released + 1) 65535 }
  | .silent => { c with silent := min (c.silent + 1) 65535 }
  | .masked => { c with masked := min (c.masked + 1) 65535 }
  | .crowded => { c with crowded := min (c.crowded + 1) 65535 }
  | .delayed => { c with delayed := min (c.delayed + 1) 65535 }
  | .confirmed | .missed => c

/-- A TEST's outcome by R91; the other kinds keep none. -/
def PerfKind.judged (k : PerfKind) (r : Report) : PerfKind :=
  match k, r with
  | .test p, .released => .test { p with outcome := .released }
  | .test p, .silent => .test { p with outcome := .silent }
  | .test p, .masked => .test { p with outcome := .masked }
  | .test p, .crowded => .test { p with outcome := .crowded }
  | .test p, .confirmed => .test { p with outcome := .confirmed }
  | .test p, .missed => .test { p with outcome := .missed }
  | k, _ => k

/-- From `s` to `t` one report of a stroke has reached performance `id`: its counter, a TEST's outcome, the stroke's pulse
end (0 where the report fixes none), and nothing else of any record (R64, R91, R97). `fresh` says that the report answers
the performance's own request, by which an ADMITTED record becomes RUNNING (R80). A report for a performance that has left
the table is discarded. -/
structure Reported (s t : State) (id : Nat) (r : Report) (ends : Nat) (fresh : Bool) : Prop where
  record : ∀ p, s.perf id = some p → t.perf id = some { p with
    state := if fresh = true ∧ p.state = .admitted then .running else p.state
    kind := p.kind.judged r
    counters := p.counters.counted r
    pulseEnd := max p.pulseEnd ends
    drivenEnd := if r = .released then max p.drivenEnd ends else p.drivenEnd }
  gone : s.perf id = none → t.perfs = s.perfs
  others : ∀ j, j ≠ id → t.perf j = s.perf j

/-- A day sheet's slot has counted a masked stroke (R115). -/
def Sheet.maskCounted (sh : Sheet) (k : Nat) : Sheet :=
  let x := rd sh.slots (k + 1) pendingSlot
  { sh with slots := wr sh.slots (k + 1) { x with masked := min (x.masked + 1) 255 } }

/-- A masked report, which for a CLOCK performance is counted in its slot of the day sheets too (R115). -/
structure MaskReported (s t : State) (id ends : Nat) (fresh : Bool) : Prop extends Reported s t id .masked ends fresh where
  today : ∀ p c, s.perf id = some p → p.kind = .clock c → s.clock.today.date = some c.date →
    t.clock = { s.clock with today := s.clock.today.maskCounted c.slot }
  yesterday : ∀ p c, s.perf id = some p → p.kind = .clock c → s.clock.today.date ≠ some c.date →
    s.clock.yesterday.date = some c.date → t.clock = { s.clock with yesterday := s.clock.yesterday.maskCounted c.slot }
  early : ∀ p c x, s.perf id = some p → p.kind = .clock c → s.clock.today.date ≠ some c.date →
    s.clock.yesterday.date ≠ some c.date → s.clock.early = some (c.date, x) →
    t.clock = { s.clock with early := some (c.date, { x with masked := min (x.masked + 1) 255 }) }
  sheets : (∀ p c, s.perf id = some p → p.kind ≠ .clock c) → t.clock = s.clock

/-- A command sends a stroke request: `StrokeSent s c w b id i test` says that command `c` in state `s` sends a stroke of
performance `id` to bell `b`, and `w` is the state at its release instant, the stroke no longer waiting with its sender: a
voice (R87), a toll (R89) or a test (R90). Of a voice's strokes that are due it is the one taken up first: the choice of the
model (log 88). -/
inductive StrokeSent (s : State) : Instr → State → Nat → Nat → Intensity → Bool → Prop where
  | voice {v d id : Nat} {u : State} {x : Stroke} {l : List Stroke} : unitOk 4 v = true → strokeDue v s = some d →
      reachUs d s = some u → (u.voice v).perf = some id →
      takeFirst (fun y => decide (y.due ≤ u.now)) (u.voice v).strokes = some (x, l) →
      StrokeSent s (.strokeRelease v) { u with voices := wr u.voices v { u.voice v with strokes := l } }
        x.bell id x.intensity false
  | toll {id d : Nat} {u : State} {p : Perf} {k : TollParams} : unitOk 255 id = true → tollDue id s = some d →
      reachUs d s = some u → u.perf id = some p → p.kind = .toll k →
      StrokeSent s (.tollStrokeRelease id)
        { u with perfs := u.perfs.map fun q => if q.id = id then { p with kind := .toll { k with sent := k.sent + 1 } } else q }
        k.bell id k.intensity false
  | test {id d : Nat} {u : State} {p : Perf} {k : TestParams} : unitOk 255 id = true → testDue id s = some d →
      reachUs d s = some u → u.perf id = some p → p.kind = .test k →
      StrokeSent s (.testStrokeRelease id)
        { u with perfs := u.perfs.map fun q => if q.id = id then { p with kind := .test { k with sent := true } } else q }
        k.bell id k.intensity true

/-- Bell `b`'s held stroke `h` comes to its planned release in state `s`; `w` is the state at that instant, the stroke no
longer held (R59). -/
inductive HeldSent (s : State) (b : Nat) : State → Held → Prop where
  | held {d : Nat} {u : State} {h : Held} : heldDue b s = some d → reachUs d s = some u → (u.bell b).held = some h →
      HeldSent s b { u with bells := wr u.bells b { u.bell b with held := none } } h

/-- A drive has handed back its arrival, once: the drive is done in the record of its performance, if that stands, and every
other record stands as it was (R135). -/
structure HandedBack (s t : State) (n : Nat) : Prop where
  done : ∀ id p, (s.drive n).perf = some id → s.perf id = some p → t.perf id = some { p with
    kind := match p.kind with
      | .swing w => .swing { w with drives := w.drives.map fun d => if d.drive = n then { d with done := true } else d }
      | k => k }
  gone : ∀ id, (s.drive n).perf = some id → s.perf id = none → t.perfs = s.perfs
  none : (s.drive n).perf = .none → t.perfs = s.perfs
  others : ∀ j, (s.drive n).perf ≠ some j → t.perf j = s.perf j

/-! ### Validation -/

/-- An item of the validation that looks at the units 1..n in turn: it passes where every unit is right, else the lowest that
is not gives the detail (R30, R36, R54). -/
structure FirstBad (n : Nat) (ok : Nat → Prop) (detail : Nat → List Field) (r : Option (List Field)) : Prop where
  passes : (∀ k, unitOk n k = true → ok k) → r = none
  fails : ∀ k, unitOk n k = true → ¬ok k → (∀ j, unitOk n j = true → j < k → ok j) → r = some (detail k)

/-! ### Quarters and day sheets -/

/-- The night silence covers the minute `m` of the local day (R103). -/
def NightCovers (c : ClockCfg) (m : Nat) : Prop :=
  let a := c.nightStartH * 60 + c.nightStartM
  let b := c.nightEndH * 60 + c.nightEndM
  (a < b ∧ a ≤ m ∧ m < b) ∨ (b < a ∧ (a ≤ m ∨ m < b))

/-- Quarter `k` is silenced: the panel silence is on, the strike end lies after the quarter instant, or a night silence covers
it, of scope ALL or at another quarter than xx:00 (R111, third check). -/
def QuarterSilenced (s : State) (k : Nat) : Prop :=
  s.sched.panelSilence = true ∨
    (∃ e : Nat, s.sched.strikeEnd = some e ∧ 1000000 * ((s.tb.secs : Int) + (900 * k : Nat) - s.localSecs) < e) ∨
    (NightCovers s.cfg.clock (k % 96 * 15) ∧ (s.cfg.clock.scope = .all ∨ k % 4 ≠ 0))

/-- No master dial is named, or the named one is IN_STEP (R108, R111). -/
def InStep (s : State) : Prop := s.cfg.clock.master = 0 ∨ dialState s s.cfg.clock.master = .inStep

/-- A shape that strikes hours: FULL HOUR or HOUR ONLY (R108). -/
def StrikesHours (sh : Shape) : Prop := sh = .hourOnly ∨ ∃ n d e, sh = .fullHour n d e

/-- Bell `b` strikes the hours: the hour bell, unless it is in FAULT, else the stand-in, where it is named and READY
(R112). -/
def StrikesOn (s : State) (b : Nat) : Prop :=
  let c := s.cfg.clock
  ((s.bell c.hourBell).state ≠ .fault ∧ b = c.hourBell) ∨
    ((s.bell c.hourBell).state = .fault ∧ unitOk 24 c.standIn = true ∧ (s.bell c.standIn).state = .ready ∧ b = c.standIn)

/-- The checks of R111 let quarter `k` sound: its earliest release is ahead, the time is SET, the mode is RUN, the quarter is
not silenced, and no master dial holds it. -/
structure QuarterPasses (s : State) (k : Nat) : Prop where
  ahead : (s.localMs : Int) < earliestRelease s k
  set : s.tb.set = true
  run : s.line.mode = .run
  heard : ¬QuarterSilenced s k
  step : InStep s

/-- The performance that quarter `k` of shape `sh` creates, with its hours on bell `b` (R85, R108, R109, R111). -/
structure QuarterPerf (s : State) (k : Nat) (sh : Shape) (b : Nat) (p : Perf) : Prop where
  common : p.source = .clock ∧ p.level = s.cfg.levels.clock ∧ p.wait = 0 ∧ p.scene = s.cfg.clock.scene
  chime : ∀ n d e, sh = .quarter n d e ∨ sh = .fullHour n d e →
    p.slot = some n ∧ p.tempo = some (effectiveTempo (s.slot n).tempo 100) ∧ p.division = some (s.slot n).division
  quarter : ∀ n d e, sh = .quarter n d e → p.bells = (s.slot n).bells ∧ p.lead = tuneLead s (s.slot n).bells ∧
    ∃ x, p.kind = .clock x ∧ x.quarter = k % 4 ∧ x.hours = none ∧ x.date = k / 96 % 73049 ∧ x.slot = k % 96 ∧
      x.hourOnly = false ∧ x.carried = false
  fullHour : ∀ n d e, sh = .fullHour n d e → p.bells = (s.slot n).bells ||| bellOne b ∧
    p.lead = max (tuneLead s (s.slot n).bells) (s.bellCfg b).fNormal ∧
    ∃ x, p.kind = .clock x ∧ x.quarter = 4 ∧ x.hours = some (hourCount k) ∧ x.date = k / 96 % 73049 ∧ x.slot = k % 96 ∧
      x.hourOnly = false ∧ x.hourBase = d + 100 * s.cfg.clock.gap ∧ x.spacing = 100 * s.cfg.clock.spacing ∧ x.struck = b ∧
      x.carried = false
  hourOnly : sh = .hourOnly → p.bells = bellOne b ∧ p.lead = (s.bellCfg b).fNormal ∧ p.slot = none ∧
    ∃ x, p.kind = .clock x ∧ x.quarter = 4 ∧ x.hours = some (hourCount k) ∧ x.date = k / 96 % 73049 ∧ x.slot = k % 96 ∧
      x.hourOnly = true ∧ x.hourBase = 0 ∧ x.spacing = 100 * s.cfg.clock.spacing ∧ x.struck = b ∧ x.carried = false

/-- The anchor of quarter `k` of shape `sh`, in ms of local time (R109). -/
def quarterAnchor (c : ClockCfg) (k : Nat) (sh : Shape) : Int :=
  (900000 * k : Nat) + match sh, c.align with
    | .quarter _ d _, .stop => -(d : Int)
    | .fullHour _ d _, .stop => -(100 * c.gap : Nat) - (d : Int)
    | _, _ => 0

/-- A quarter's slot of a day sheet after an outcome has been written (R115). -/
def SheetSlot.recorded (x : SheetSlot) (o : QuarterOutcome) : SheetSlot :=
  { outcome := o, masked := 0, repeated := x.repeated || decide (x.outcome ≠ .pending) }

/-- A day sheet with slot `k` as given. -/
def Sheet.withSlot (sh : Sheet) (k : Nat) (x : SheetSlot) : Sheet := { sh with slots := wr sh.slots (k + 1) x }

/-- From `c` to `d` outcome `o` has been written for quarter `k` of a date: into TODAY, into YESTERDAY, or into the early
slot where the date is the day after TODAY's; for any other date nothing is recorded (R114, R115). -/
structure OutcomeWritten (c d : ClockUnit) (date k : Nat) (o : QuarterOutcome) : Prop where
  today : c.today.date = some date →
    d = { c with today := c.today.withSlot k ((rd c.today.slots (k + 1) pendingSlot).recorded o) }
  yesterday : c.today.date ≠ some date → c.today.date.map (fun d => (d + 1) % 73049) ≠ some date →
    c.yesterday.date = some date →
    d = { c with yesterday := c.yesterday.withSlot k ((rd c.yesterday.slots (k + 1) pendingSlot).recorded o) }
  early : c.today.date.map (fun d => (d + 1) % 73049) = some date → c.yesterday.date ≠ some date →
    (∀ x, c.early = some (date, x) → d = { c with early := some (date, x.recorded o) }) ∧
    ((∀ x, c.early ≠ some (date, x)) → d = { c with early := some (date, pendingSlot.recorded o) })
  other : c.today.date ≠ some date → c.today.date.map (fun d => (d + 1) % 73049) ≠ some date →
    c.yesterday.date ≠ some date →
    (∀ x, c.early ≠ some (date, x)) → d = c

/-- From `s` to `t` the frontier quarter has been evaluated to outcome `o`, and nothing else has changed: the outcome stands
in the sheets, and the frontier is the next quarter (R110, R114). -/
def QuarterRecorded (s t : State) (o : QuarterOutcome) : Prop :=
  let k := s.clock.frontier
  ∃ d, OutcomeWritten s.clock d (k / 96 % 73049) (k % 96) o ∧ t = { s with clock := { d with frontier := k + 1 } }

/-- From `c` to `d` the sheets have met the local date `n` (R116). -/
structure SheetsRolled (c d : ClockUnit) (n : Nat) : Prop where
  next : ∀ m, c.today.date = some m → n = m + 1 → d.yesterday = c.today ∧ d.today.date = some n ∧
    (∀ k, k < 95 → rd d.today.slots (k + 2) default = pendingSlot) ∧
    (∀ x, c.early = some (n, x) → rd d.today.slots 1 default = x ∧ d.early = none) ∧
    ((∀ x, c.early ≠ some (n, x)) → rd d.today.slots 1 default = pendingSlot ∧ d.early = c.early)
  later : ∀ m, c.today.date = some m → m + 1 < n →
    d.yesterday = blankSheet (some (n - 1)) ∧ d.today = blankSheet (some n) ∧ d.early = none
  stays : ∀ m, c.today.date = some m → n ≤ m → d = c
  kept : d = { c with today := d.today, yesterday := d.yesterday, early := d.early }

/-- A slot that has returned to PENDING with its count 0, its repeated flag as it was. -/
def SheetSlot.returned (x : SheetSlot) : SheetSlot := { x with outcome := .pending, masked := 0 }

/-- From `c` to `d` quarter `k` of a date has returned to PENDING with its count 0, where the sheets hold it (R114, R117, R120). A
repeated flag that is set stays set: the reading of the model (log 83). -/
structure SlotReturned (c d : ClockUnit) (date k : Nat) : Prop where
  today : c.today.date = some date →
    d = { c with today := c.today.withSlot k (rd c.today.slots (k + 1) pendingSlot).returned }
  yesterday : c.today.date ≠ some date → c.yesterday.date = some date →
    d = { c with yesterday := c.yesterday.withSlot k (rd c.yesterday.slots (k + 1) pendingSlot).returned }
  early : ∀ x, c.today.date ≠ some date → c.yesterday.date ≠ some date → c.early = some (date, x) →
    d = { c with early := some (date, x.returned) }
  other : c.today.date ≠ some date → c.yesterday.date ≠ some date → (∀ x, c.early ≠ some (date, x)) → d = c

/-- From `a` to `b` at most the masked counts of a day sheet have changed: its date, outcomes and flags stand (R115). -/
def Sheet.Stands (a b : Sheet) : Prop :=
  b.date = a.date ∧ ∀ k, k < 96 → ∃ n, rd b.slots (k + 1) pendingSlot = { rd a.slots (k + 1) pendingSlot with masked := n }

/-- From `c` to `d` at most masked strokes have been counted in the day sheets and in the early slot (R114, R115). -/
structure SheetsStand (c d : ClockUnit) : Prop where
  today : c.today.Stands d.today
  yesterday : c.yesterday.Stands d.yesterday
  noEarly : c.early = none → d.early = none
  early : ∀ n x, c.early = some (n, x) → ∃ m, d.early = some (n, { x with masked := m })
  kept : d = { c with today := d.today, yesterday := d.yesterday, early := d.early }

/-- The CLOCK records of a table in a state, with their quarters. -/
def clocksIn (l : List Perf) (st : PerfState) : List (Perf × ClockParams) :=
  l.filterMap fun p => match p.kind with
    | .clock x => if p.state = st then some (p, x) else none
    | _ => none

/-- The slots of all of these quarters have returned to PENDING, one after the other. -/
def slotsReturned (l : List (Perf × ClockParams)) (c : ClockUnit) : ClockUnit :=
  l.foldl (fun d x => clearOutcome x.2.date x.2.slot d) c

/-- The frontier `k` is `first`, or the earliest of these quarters where that is earlier (R117, R120); while TODAY is the last day
of the range, a quarter of day 0 is one of the day after it (R21). -/
structure FrontierGoesBack (first k : Nat) (l : List (Perf × ClockParams)) (today : Option Nat) : Prop where
  stays : k ≤ first
  least : ∀ x ∈ l, k ≤ quarterNumber today (x.2.date, x.2.slot)
  one : k = first ∨ ∃ x ∈ l, k = quarterNumber today (x.2.date, x.2.slot)

/-- From `s` to `c` a large movement of local time has removed the CLOCK records in ADMITTED and WAITING with outcome CANCELLED
(R94, R117), but for the offer round: the claims and voices of the ADMITTED ones are gone. Where no stroke of theirs is held, as
none of an ADMITTED record is in any run, nothing else of the bells has changed, their slots have returned to PENDING, and a PERF
notice has been raised for each, those that waited first (log 59). -/
structure QuartersCancelled (s c : State) : Prop where
  table : c.perfs = s.perfs.filter fun p => decide (p ∉ (clocksIn s.perfs .admitted).map (·.1)) &&
    decide (p ∉ (clocksIn s.perfs .waiting).map (·.1))
  claims : ∀ b, unitOk 24 b = true → (c.bell b).claims =
    (s.bell b).claims.filter fun k => decide (k.perf ∉ (clocksIn s.perfs .admitted).map (·.1.id))
  voices : ∀ v, unitOk 4 v = true → c.voice v =
    if ∃ x ∈ clocksIn s.perfs .admitted, (s.voice v).perf = some x.1.id then freeVoice else s.voice v
  calm : (∀ b h, unitOk 24 b = true → (s.bell b).held = some h → h.perf ∉ (clocksIn s.perfs .admitted).map (·.1.id)) →
    (∀ b, unitOk 24 b = true → c.bell b = { s.bell b with claims := (c.bell b).claims }) ∧
    c.clock = slotsReturned (clocksIn s.perfs .admitted) s.clock ∧
    c.line = (clocksIn s.perfs .waiting ++ clocksIn s.perfs .admitted).foldl
      (fun l x => l.latched .perf (leavingFields x.1 .cancelled)) s.line
  kept : c = { s with
    bells := c.bells, perfs := c.perfs, voices := c.voices, lights := c.lights, clock := c.clock, line := c.line }

/-- The READY profiles and the hour bell stand in the ranges of R53 and R106: no fly time passes 400 ms, and so no release
offset E lies below -400 or above 0. -/
structure ProfilesOk (s : State) : Prop where
  hourBell : (s.bellCfg s.cfg.clock.hourBell).fNormal ≤ 400
  offsets : ∀ q n d e, unitOk 4 q = true → s.profile q = .ready n d e → -400 ≤ e ∧ e ≤ 0

/-! ### FINISH and CUT -/

/-- A SWING's starts after a FINISH or a CUT: those not yet made are cancelled and count as done (R130, R135). -/
def SwingParams.stopped (w : SwingParams) : SwingParams :=
  { w with drives := w.drives.map fun d => if d.started = true then d else { d with done := true } }

/-- The drives that performance `id` has started and that stand in RAISING or RINGING, in the order they started (R130). -/
def SwingParams.swinging (w : SwingParams) (s : State) (id : Nat) : List Nat :=
  ((w.drives.filter (·.started)).map (·.drive)).filter fun n =>
    decide ((s.drive n).perf = some id ∧ ((s.drive n).state = .raising ∨ (s.drive n).state = .ringing))

/-- From `s` to `t` a FINISH of SWING `id` has lowered its drives: each that swings, the k-th started after (k - 1) staggers from
now, unless its lowering instant is earlier already (R130). -/
def DrivesLowered (s t : State) (id : Nat) (w : SwingParams) : Prop :=
  ∀ i n, (w.swinging s id)[i]? = some n → t.drive n = { s.drive n with lowerAt := some (match (s.drive n).lowerAt with
    | some x => min x (s.now + 1000 * w.stagger * i)
    | none => s.now + 1000 * w.stagger * i) }

/-- From `s` to `t` a CUT of SWING `id` has lowered its drives: those in RAISING or RINGING now, those and the LOWERING ones with
the brake, and no other drive (R130). -/
structure DrivesCut (s t : State) (id : Nat) (w : SwingParams) : Prop where
  swings : ∀ n, n ∈ (w.drives.filter (·.started)).map (·.drive) → (s.drive n).perf = some id →
    ((s.drive n).state = .raising ∨ (s.drive n).state = .ringing) →
    t.drive n = { s.drive n with brake := true, lowerAt := some s.now }
  lowers : ∀ n, n ∈ (w.drives.filter (·.started)).map (·.drive) → (s.drive n).perf = some id →
    (s.drive n).state = .lowering → t.drive n = { s.drive n with brake := true }
  others : ∀ n, unitOk 4 n = true → (n ∉ (w.drives.filter (·.started)).map (·.drive) ∨ (s.drive n).perf ≠ some id ∨
      (s.drive n).state = .down ∨ (s.drive n).state = .settling ∨ (s.drive n).state = .fault) → t.drive n = s.drive n

/-- A SWING's drives are drives of the part, each named once. -/
def SwingOk (w : SwingParams) : Prop := (w.drives.map (·.drive)).Nodup ∧ ∀ d ∈ w.drives, unitOk 4 d.drive = true

/-- Event `k` of a performance's timeline may be its stop point: it carries the phrase-end mark and sounds at or after now on
voice `v` (R96). -/
def Stops (s : State) (p : Perf) (v : Voice) (k : Nat) : Prop :=
  ∃ e, (timeline s p)[k]? = some e ∧ e.phrase = true ∧ s.now ≤ v.soundOf k e.sound

/-- From `s` to `t` a voiced performance `p` has been cut (R97): its claims, its held strokes and its voice are gone, and so is
its record where no pulse of it is driven; else the record stands STOPPING. -/
structure CutTaken (s t : State) (p : Perf) : Prop where
  claims : ∀ b, unitOk 24 b = true → ∀ c ∈ (t.bell b).claims, c.perf ≠ p.id
  held : ∀ b h, unitOk 24 b = true → (t.bell b).held = some h → h.perf ≠ p.id
  voices : ∀ v, unitOk 4 v = true → (t.voice v).perf ≠ some p.id
  gone : p.drivenEnd ≤ s.now → t.perf p.id = none
  stays : s.now < p.drivenEnd → ∃ q, t.perf p.id = some q ∧ q.state = .stopping ∧ q.stop = .cut ∧ q.voice = none ∧
    q.stopPoint = none ∧ q.drivenEnd = p.drivenEnd

/-- A record is the clock's. -/
def Perf.isClock (p : Perf) : Bool :=
  match p.kind with
  | .clock _ => true
  | _ => false

/-- A record is a TUNE or a TOLL. -/
def Perf.isStruck (p : Perf) : Bool :=
  match p.kind with
  | .tune | .toll _ => true
  | _ => false

/-- A record is a SWING. -/
def Perf.isSwung (p : Perf) : Bool :=
  match p.kind with
  | .swing _ => true
  | _ => false

/-- What the Stop key makes of a record that neither leaves nor is cut: a SWING that neither waits nor stands STOPPING takes FINISH,
every other record stands (R96, R98, R130). -/
def Perf.swingFinished (p : Perf) : Perf :=
  match p.kind with
  | .swing x => if p.state = .waiting ∨ p.state = .stopping then p else
      { p with state := .stopping, stop := .finish, kind := .swing x.stopped }
  | _ => p

/-- The Stop key lowers the drives of this SWING (R98, R130). -/
def Lowers (u : State) (p : Perf) (x : SwingParams) : Prop :=
  p ∈ u.perfs ∧ p.kind = .swing x ∧ p.state ≠ .waiting ∧ p.state ≠ .stopping

/-- The ids of the records of a table that a predicate picks. -/
def idsOf (l : List Perf) (f : Perf → Bool) : List Nat := (l.filter f).map (·.id)

/-- From `s` to `c`, but for the offer round, one event has dealt with every record of the table (R98, R118): those that `cut`
picks are cut (R97), their held strokes withdrawn and reported masked (R59) and their scenes withdrawn (R93); those that `gone`
picks, which wait, have left with outcome `o`; every other record is what `after` makes of it. The PERF notices come in table
order (log 59), each with the counters as they stood where no stroke of a cut record was held. -/
structure CutsTaken (s c : State) (cut gone : Perf → Bool) (o : PerfOutcome) (after : Perf → Perf) : Prop where
  cuts : ∀ p ∈ s.perfs, cut p = true → CutTaken s c p
  others : ∀ p ∈ s.perfs, cut p = false → gone p = false → c.perf p.id = some (after p)
  table : c.perfs.map (·.id) = idsOf s.perfs fun p => !gone p && !(cut p && decide (p.drivenEnd ≤ s.now))
  claims : ∀ b, unitOk 24 b = true →
    (c.bell b).claims = (s.bell b).claims.filter fun k => decide (k.perf ∉ idsOf s.perfs cut)
  held : ∀ b h, unitOk 24 b = true → (s.bell b).held = some h → h.perf ∈ idsOf s.perfs cut →
    c.bell b = { s.bell b with held := none, masked := min ((s.bell b).masked + 1) 65535, claims := (c.bell b).claims }
  bells : ∀ b, unitOk 24 b = true → (∀ h, (s.bell b).held = some h → h.perf ∉ idsOf s.perfs cut) →
    c.bell b = { s.bell b with claims := (c.bell b).claims }
  voices : ∀ v, unitOk 4 v = true →
    c.voice v = if ∃ id ∈ idsOf s.perfs cut, (s.voice v).perf = some id then freeVoice else s.voice v
  scenes : c.lights.contribs = s.lights.contribs.filter fun x => decide (x.perf ∉ idsOf s.perfs cut)
  unlit : (∀ x ∈ s.lights.contribs, x.perf ∉ idsOf s.perfs cut) → c.lights = s.lights
  calm : (∀ b h, unitOk 24 b = true → (s.bell b).held = some h → h.perf ∉ idsOf s.perfs cut) → c.clock = s.clock ∧
    (∀ p ∈ s.perfs, cut p = true → s.now < p.drivenEnd →
      c.perf p.id = some { p with state := .stopping, stop := .cut, stopPoint := none, voice := none }) ∧
    c.line = s.perfs.foldl (fun l p =>
      if gone p = true then l.latched .perf (leavingFields p o)
      else if cut p = true ∧ p.drivenEnd ≤ s.now then l.latched .perf (leavingFields p .cut) else l) s.line
  kept : c = { s with
    bells := c.bells, perfs := c.perfs, voices := c.voices, drives := c.drives, lights := c.lights, clock := c.clock
    line := { s.line with latch := c.line.latch } }

/-! ### Page reads -/

/-- A read stands in the read list or is in progress (R143). -/
def ReadAsked (st : Store) (r : ReadReq) : Prop := r ∈ st.reads ∨ ∃ es src t, st.op = some (.read r es src, t)

/-- A load of the image has begun: its six pages are asked for, none has come (R152). -/
def ImageLoadBegun (s t : State) : Prop :=
  ∃ j, s.store.serial < j ∧ t.store.imgLoad = some { serial := j, pages := 0, src := none } ∧
    ∀ p, p < 6 → ReadAsked t.store { reader := .image p, serial := j, slot := 0, page := p }

/-- A page buffer after a page read with serial `n` has ended with events `es`: loaded where it waits for that read, else as it
was (R82). -/
structure BufferFilled (b c : Buffer) (n : Nat) (es : List Event) : Prop where
  waits : ∀ k, b = .reading k n → c = .loaded k es
  stands : (∀ k, b ≠ .reading k n) → c = b

/-- The cumulative step of event `i` (R85). -/
def stepsTo (l : List Event) (i : Nat) : Nat := ((l.take (i + 1)).map (·.delta)).sum

/-- Event `i` lies within the limit of 65,535 steps (R85). -/
def StepCounted (l : List Event) (i : Nat) : Prop := i < l.length ∧ stepsTo l i ≤ 65535

/-- The values of a READY profile of a slot from its events as read (R106): n_last, the duration D at the tune's own tempo, and
the release offset E, the least of 0 and of every stroke's T(n) - F(b, i). -/
structure ProfileRead (s : State) (slot : Nat) (events : List Event) (n d : Nat) (e : Int) : Prop where
  last : let l := events.take (s.slot slot).events
    (∀ i, StepCounted l i → ¬StepCounted l (i + 1) → n = stepsTo l i) ∧ (¬StepCounted l 0 → n = 0)
  duration : d = 60000 * n / (max 20 (min (s.slot slot).tempo 240) * (s.slot slot).division)
  least : let l := events.take (s.slot slot).events
    let t := fun (i : Nat) => (60000 * stepsTo l i / (max 20 (min (s.slot slot).tempo 240) * (s.slot slot).division) : Nat)
    e ≤ 0 ∧
    (∀ i x b, StepCounted l i → l[i]? = some x → unitOk 24 b = true → bellIn x.bells b = true →
      e ≤ (t i : Int) - flyTime (s.bellCfg b) x.intensity) ∧
    (e = 0 ∨ ∃ i x b, StepCounted l i ∧ l[i]? = some x ∧ unitOk 24 b = true ∧ bellIn x.bells b = true ∧
      e = (t i : Int) - flyTime (s.bellCfg b) x.intensity)

/-- The entry the directory scan takes for slot `k`: the valid record with the greater sequence count (R140, R153). -/
def scanEntry (st : Store) (k : Nat) : DirEntry :=
  let a := rd st.recA k blankRecord
  let b := rd st.recB k blankRecord
  if b.valid = true ∧ (a.valid = false ∨ a.seq < b.seq) then b.entry else a.entry

/-- The directory scan has put the directory in order (R153): the entries with double claims settled and WRITING slots
INCOMPLETE, the free list, the loading record free, and for each ERASING slot its resumption, held or in the queue. -/
structure DirectoryScanned (s t : State) : Prop where
  writing : ∀ k, unitOk 64 k = true → (scanEntry s.store k).state = .writing →
    t.slot k = { scanEntry s.store k with state := .incomplete }
  erasing : ∀ k, unitOk 64 k = true → (scanEntry s.store k).state = .erasing →
    ∃ l, t.slot k = { scanEntry s.store k with sectors := l } ∧ l.Sublist (scanEntry s.store k).sectors ∧
      ∀ x, x ∈ l ↔ x ∈ (scanEntry s.store k).sectors ∧ ∀ j, unitOk 64 j = true → j ≠ k →
        x ∈ (scanEntry s.store j).sectors → (scanEntry s.store j).state = .erasing ∧ k < j
  others : ∀ k, unitOk 64 k = true → (scanEntry s.store k).state ≠ .writing → (scanEntry s.store k).state ≠ .erasing →
    t.slot k = scanEntry s.store k
  free : ∀ x, x ∈ t.store.free ↔ x < 64 ∧ ∀ k, unitOk 64 k = true → x ∉ (t.slot k).sectors
  load : t.store.load = none
  resumes : ∀ k, unitOk 64 k = true → (t.slot k).state = .erasing → k ∈ t.store.resume ∨
    (.dirWrite k .final ∈ t.store.entries ∧ ∀ x ∈ (t.slot k).sectors, .erase k x ∈ t.store.entries)

/-! ### Quarter profiles -/

/-- The four quarter profiles have been started anew from the settings of `u` (R107), with the part running: NONE where the
quarter's slot is 0 or not CLOSED, READY with three zeros for a tune without pages (log 42), else BUILDING with its page 0
asked for or being read. Of the store only the reads go on; the day sheets and the frontier stand, unless a quarter's
evaluation instant has come (R110). -/
structure ProfilesRebuilt (s u : State) : Prop where
  none : ∀ q, unitOk 4 q = true → let n := quarterSlot u.cfg.clock q
    (unitOk 64 n = false ∨ (s.slot n).state ≠ .closed) → u.profile q = .none
  empty : ∀ q, unitOk 4 q = true → let n := quarterSlot u.cfg.clock q
    unitOk 64 n = true → (s.slot n).state = .closed → (s.slot n).pages = 0 → u.profile q = .ready 0 0 0
  building : ∀ q, unitOk 4 q = true → let n := quarterSlot u.cfg.clock q
    unitOk 64 n = true → (s.slot n).state = .closed → (s.slot n).pages ≠ 0 → ∃ k, s.store.serial < k ∧
      u.profile q = .building 0 k [] false ∧
      ({ reader := .build q, serial := k, slot := n, page := 0 } ∈ u.store.reads ∨
        ∃ es at', u.store.op = some (.read { reader := .build q, serial := k, slot := n, page := 0 } es .none, at'))
  store : u.store = { s.store with
    serial := u.store.serial, reads := u.store.reads, op := u.store.op, queue := u.store.queue, resume := u.store.resume }
  reads : ∀ x, s.store.op = some x → u.store.op = some x ∧ s.store.reads <+: u.store.reads
  sheets : (s.localMs : Int) < evaluationAt u s.clock.frontier →
    u.clock = { s.clock with profiles := u.clock.profiles }
  frontier : s.clock.frontier ≤ u.clock.frontier

/-! ### Performances and scenes -/

/-- A creation in state `s` has been admitted at once, and `u` is the state after it: the record with its anchor, its
claims on top of every bell of its set, the voice it takes, and nothing else but the lights and the page reads (R70, R81,
R83, R84). -/
structure AdmittedAtOnce (s u : State) (bells : BellSet) (level anchor : Nat) (v : Option Nat) : Prop where
  record : ∃ p, u.perf (nextId s) = some p ∧ p.state = .admitted ∧ p.bells = bells ∧ p.level = level ∧ p.voice = v ∧
    p.order = some s.nextOrder ∧ p.reqAt = s.now ∧ p.anchor = some anchor
  others : ∀ id, id ≠ nextId s → u.perf id = s.perf id
  claims : ∀ b, unitOk 24 b = true → u.bell b = { s.bell b with
    claims := (if bellIn bells b then [{ perf := nextId s, level := level, order := s.nextOrder }] else []) ++
      (s.bell b).claims }
  taken : ∀ w, v = some w → (u.voice w).perf = some (nextId s)
  free : ∀ w, unitOk 4 w = true → v ≠ some w → u.voice w = s.voice w
  kept : u = { s with
    bells := u.bells, perfs := u.perfs, lastId := nextId s, nextOrder := s.nextOrder + 1, voices := u.voices
    lights := u.lights, store := u.store, line := u.line }

/-- The order of the offer round (R74): ascending level, then SWING, TOLL, CLOCK, TUNE, TEST, then ascending request
time. -/
def OfferedBefore (p q : Perf) : Prop :=
  let rank := fun (k : PerfKind) => match k with
    | .swing _ => 0 | .toll _ => 1 | .clock _ => 2 | .tune => 3 | .test _ => 4
  p.level < q.level ∨ (p.level = q.level ∧ (rank p.kind < rank q.kind ∨ (rank p.kind = rank q.kind ∧ p.reqAt < q.reqAt)))

/-- From `c` to `t` every waiting performance has been offered admission once, in the order of R74, those that it does not order
in the order of their creation. -/
def Offered (c t : State) : Prop :=
  let waiting := c.perfs.filter fun q => q.state = .waiting
  ∃ l : List Perf, l.Perm waiting ∧
    l.Pairwise (fun p q => OfferedBefore p q ∨ (¬OfferedBefore q p ∧ [p, q].Sublist waiting)) ∧
    t = (l.map (·.id)).foldl offerTo c

/-- A waiting performance fits at its turn: the claim test, a free voice for every kind but SWING, and for a carried hour
the master in step (R70, R74, R81, R113). -/
def Fits (s : State) (p : Perf) : Prop :=
  claimsOpen s p.level p.bells = true ∧ ((∀ w, p.kind ≠ .swing w) → firstFree s ≠ none) ∧
    ∀ c, p.kind = .clock c → c.carried = true → masterInStep s = true

/-- `k` is the earliest quarter whose evaluation instant lies after the present local time (R117). -/
def FirstAhead (s : State) (k : Nat) : Prop :=
  (s.localMs : Int) < evaluationAt s k ∧ ∀ j, j < k → evaluationAt s j ≤ s.localMs

/-- From `v` to `w` a large movement of local time, announced as `forward` or not, has reached the clock, but for the frontier
loop (R117): the cancellation, the offer round where a record in ADMITTED was among those removed, the roll to the new date, and
the frontier, which stands or goes back. -/
def MovedFar (v w : State) (forward : Bool) : Prop :=
  let admitted := clocksIn v.perfs .admitted
  ∃ (c e : State) (r : ClockUnit), QuartersCancelled v c ∧ (admitted = [] → e = c) ∧ (admitted ≠ [] → Offered c e) ∧
    SheetsRolled c.clock r w.localDay ∧ w = { e with clock := { r with frontier := w.clock.frontier } } ∧
    (forward = true → FrontierGoesBack v.clock.frontier w.clock.frontier admitted v.clock.today.date) ∧
    (forward = false → ProfilesOk v →
      ∃ k, FirstAhead w k ∧ FrontierGoesBack k w.clock.frontier admitted v.clock.today.date)

/-- A channel whose layer value has changed, resolved with fade time `fade` at `now` (R175, R180): the override, else the
performance value, else the base value, else 0; an unchanged target starts no fade, a TRIPPED channel none either. -/
structure ChannelResolved (x y : Channel) (fade now : Nat) : Prop where
  target : y.target = match x.override, x.perf, x.base with
    | some o, _, _ => o.level
    | none, some l, _ => l
    | none, none, some l => l
    | none, none, none => 0
  same : y.target = x.target → y = x
  tripped : y.target ≠ x.target → x.lamp = .tripped → y = { x with target := y.target }
  sudden : y.target ≠ x.target → x.lamp ≠ .tripped → fade = 0 →
    y = { x with target := y.target, output := y.target, fade := none, lastFadeEnd := now }
  fades : y.target ≠ x.target → x.lamp ≠ .tripped → fade ≠ 0 → y = { x with
    target := y.target, fade := some { start := x.output, target := y.target, len := fade, k := 0, next := now + 100 } }

/-- From `s` to `t` the channels of `ns` have been written anew: a measurement in progress of one of them is spoiled where its
output has changed or it stands TRIPPED; any other measurement goes on (R182). -/
structure MeasurementMeets (s t : State) (ns : Nat → Prop) : Prop where
  free : s.lights.conv = none → t.lights.conv = none
  spoiled : ∀ m n, s.lights.conv = some m → m.channel = some n → unitOk 16 n = true → ns n →
    ((t.chan n).output ≠ (s.chan n).output ∨ (t.chan n).lamp = .tripped) → t.lights.conv = some { m with spoiled := true }
  kept : ∀ m, s.lights.conv = some m →
    (∀ n, m.channel = some n → unitOk 16 n = true → ns n → (t.chan n).output = (s.chan n).output ∧ (t.chan n).lamp ≠ .tripped) →
    t.lights.conv = some m

/-- From `s` to `t` the channels of `ns` have taken override `o`, or lost theirs, with a fade time; the other channels stand
(R178, R179). -/
structure OverridesBecome (s t : State) (ns : Nat → Prop) (o : Option Override) (fade : Nat) : Prop where
  named : ∀ n, unitOk 16 n = true → ns n → ChannelResolved { s.chan n with override := o } (t.chan n) fade s.now
  others : ∀ n, unitOk 16 n = true → ¬ns n → t.chan n = s.chan n
  conv : MeasurementMeets s t ns

/-- From `s` to `t` a scene has been laid as a whole base change (R176): every channel takes the scene's level as its base
value, or none, a NEXT override ends, and the channel is resolved with the scene's fade, or with 0 where it has no level. -/
structure SceneLaid (s t : State) (sc : Scene) : Prop where
  chans : ∀ n, unitOk 16 n = true →
    let v := rd sc.levels n none
    ChannelResolved { s.chan n with base := v, override := (s.chan n).override.filter fun o => decide (o.mode ≠ .next) }
      (t.chan n) (if v = none then 0 else sc.fade) s.now
  conv : MeasurementMeets s t fun _ => True

/-- The converter has fallen free in `w`, and a request that waited has taken it: the dusk sample before the lamp slot, and the
lamp slot passes where no channel is eligible (R182). That the dusk sample goes first where both wait, which by R182 no run
reaches, is the model's choice (log 87). -/
structure ConverterFreed (w t : State) : Prop where
  dusk : w.lights.duskWaits = true → t.lights = { w.lights with
    duskWaits := false, conv := some { channel := none, level := 0, ends := w.now + 1, spoiled := false } }
  lamp : ∀ n, w.lights.duskWaits = false → w.lights.lampWaits = true → nextEligible w = some n → t.lights = { w.lights with
    lampWaits := false, lastMeasured := n
    conv := some { channel := some n, level := (w.chan n).output, ends := w.now + 1, spoiled := false } }
  passes : w.lights.duskWaits = false → w.lights.lampWaits = true → nextEligible w = none →
    t.lights = { w.lights with lampWaits := false, conv := none }
  idle : w.lights.duskWaits = false → w.lights.lampWaits = false → t.lights = { w.lights with conv := none }

/-- From `s` to `t` the contribution list has become `l` (R177): a channel's performance value is the level of the first
contribution whose scene holds it, and each channel whose performance value changes is resolved with `fade`. -/
structure ScenesBecome (s t : State) (l : List Contribution) (fade : Nat) : Prop where
  list : t.lights.contribs = l
  values : ∀ n, unitOk 16 n = true →
    let v := l.findSome? fun c => rd c.scene.levels n none
    (v = (s.chan n).perf → t.chan n = s.chan n) ∧
      (v ≠ (s.chan n).perf → ChannelResolved { s.chan n with perf := v } (t.chan n) fade s.now)
  conv : MeasurementMeets s t fun _ => True

/-- From `s` to `t` performance `id`, of a level and an admission order, has been admitted, and its scene, where it has one, has
joined the contribution list in the order of level and admission, with the scene's fade (R93, R177). -/
structure SceneJoined (s t : State) (id level order : Nat) (scene : Option Nat) : Prop where
  none : scene = .none → t.lights = s.lights
  joins : ∀ k, scene = some k →
    let before := fun (a b : Nat × Nat) => a.1 < b.1 ∨ (a.1 = b.1 ∧ a.2 < b.2)
    ∃ l r, s.lights.contribs = l ++ r ∧ (∀ y ∈ l, ¬before (level, order) (y.level, y.order)) ∧
      (∀ y, r.head? = some y → before (level, order) (y.level, y.order)) ∧
      ScenesBecome s t (l ++ { perf := id, level := level, order := order, scene := s.scene k } :: r) (s.scene k).fade

/-! ### The schedule -/

/-- An entry's date pattern matches a date's values (R158). -/
structure DateFits (f : EntryFields) (d : DayValues) : Prop where
  year : ∀ y, f.year = some y → y = d.year
  month : ∀ m, f.month = some m → m = d.month
  day : ∀ n, f.day = some n → n = d.day
  weekday : d.weekday ∈ f.weekdays
  feast : ∀ o, f.feast = some o → o = d.easterDist

/-- One of an entry's minutes for a date is `m` (R159). -/
def MinuteFits (f : EntryFields) (d : DayValues) (m : Nat) : Prop :=
  match f.time with
  | .fixed (some h) k => m = h * 60 + k
  | .fixed none k => ∃ h, h < 24 ∧ m = h * 60 + k
  | .sunrise o => (m : Int) = max 0 (min 1439 ((d.riseLocal : Int) + o))
  | .sunset o _ => (m : Int) = max 0 (min 1439 ((d.setLocal : Int) + o))

/-- An entry matches date-minute `m` of the date whose values are `d` (R159). -/
def EntryMatches (f : EntryFields) (d : DayValues) (m : Nat) : Prop :=
  DateFits f d ∧ ∃ k, MinuteFits f d k ∧ m = 1440 * d.dayNo + k

/-- Entry `n` fires at date-minute `m` of the date in force (R160): it is ACTIVE, it matches, and its stamp is absent or
earlier. -/
def Fires (s : State) (d : DayValues) (m n : Nat) (f : EntryFields) : Prop :=
  unitOk 128 n = true ∧ s.entry n = .active f ∧ EntryMatches f d m ∧ ∀ x, s.stamp n = some x → x < m

/-- Entry `n` fires early at a change into DARK in local date-minute `m` (R166): ACTIVE, SUNSET with its flag set, matching
the date; the minute of the day lies from 60 before the entry's minute `c` to before it, and the stamp is earlier. -/
def FiresEarly (s : State) (m n c : Nat) : Prop :=
  ∃ f o, unitOk 128 n = true ∧ s.entry n = .active f ∧ f.time = .sunset o true ∧ DateFits f s.cal.day ∧
    MinuteFits f s.cal.day c ∧ c ≤ m % 1440 + 60 ∧ m % 1440 < c ∧ ∀ x, s.stamp n = some x → x < m / 1440 * 1440 + c

/-- From `s` to `t` the SILENCE and SCENE entries that fire have been carried out at the instant `at'` of standard time (R161,
R162, R164): each end of a silence is the later of what it was and the ends that the firing entries give, and a channel's base
value is that of the lowest-numbered firing SCENE entry that holds it. -/
structure SilencesAndScenesFire (s t : State) (fires : Nat → EntryFields → Prop) (at' : Nat) : Prop where
  strike : ∀ n f scope d, fires n f → f.action = .silence scope d → scope ≠ .tunes →
    ∃ e, t.sched.strikeEnd = some e ∧ at' + 60000000 * d ≤ e
  tunes : ∀ n f scope d, fires n f → f.action = .silence scope d → scope ≠ .strike →
    ∃ e, t.sched.tunesEnd = some e ∧ at' + 60000000 * d ≤ e
  strikeStays : ∀ e, s.sched.strikeEnd = some e → ∃ x, t.sched.strikeEnd = some x ∧ e ≤ x
  tunesStays : ∀ e, s.sched.tunesEnd = some e → ∃ x, t.sched.tunesEnd = some x ∧ e ≤ x
  strikeFrom : t.sched.strikeEnd ≠ s.sched.strikeEnd → ∃ n f scope d, fires n f ∧ f.action = .silence scope d ∧
    scope ≠ .tunes ∧ t.sched.strikeEnd = some (at' + 60000000 * d)
  tunesFrom : t.sched.tunesEnd ≠ s.sched.tunesEnd → ∃ n f scope d, fires n f ∧ f.action = .silence scope d ∧
    scope ≠ .strike ∧ t.sched.tunesEnd = some (at' + 60000000 * d)
  laid : ∀ c l n f k, unitOk 16 c = true → fires n f → f.action = .scene k → rd (s.scene k).levels c none = some l →
    (∀ j g i, fires j g → g.action = .scene i → j < n → rd (s.scene i).levels c none = none) → (t.chan c).base = some l
  stays : ∀ c, unitOk 16 c = true → (∀ n f k, fires n f → f.action = .scene k → rd (s.scene k).levels c none = none) →
    (t.chan c).base = (s.chan c).base

/-- From `w` to `v` the PLAY, TOLL and RING entries that fire have been carried out at the instant `at'` of standard time, in
ascending order of their numbers (R161). -/
def BellEntriesFire (w v : State) (fires : Nat → EntryFields → Prop) (at' : Nat) : Prop :=
  ∃ es : List (Nat × EntryFields), es.Pairwise (fun x y => x.1 < y.1) ∧
    (∀ n f, (n, f) ∈ es ↔ fires n f ∧ (∀ scope d, f.action ≠ .silence scope d) ∧ ∀ k, f.action ≠ .scene k) ∧
    v = es.foldl (fireAction at') w

/-- A date-minute that a catch-up at `now` takes up for an entry (R168): one of the passed range, or the present one. -/
def Caught (s : State) (f : EntryFields) (m : Nat) : Prop :=
  (EntryMatches f s.cal.day m ∧ m = s.localMinute) ∨
    ∃ l, s.sched.lastEval = some l ∧ l < m ∧ m < s.localMinute ∧
      (EntryMatches f s.cal.day m ∨
        (s.localDay ≠ 0 ∧ EntryMatches f (dayValuesOf s.cfg.summer s.cfg.sun (s.localDay - 1)) m))

end Sys2Proof.Machine
end

