-- ==== Sys2Proof/Certificates/Slice0/Obligations.lean ====
section
/-! DEFINITION. The statements for the provers. Each says, in its docstring, which rule of spec/ it follows. -/

section

open Sys2Proof Sys2Proof.Machine

/-! ### The queue, the outcomes, reset -/

/-- A step with a command at the front of the queue is the effect of that command on the state with the queue's rest. -/
def Obligations.StepRunsTheFrontCommand : Prop :=
  ∀ (c : Instr) (l : List Instr) (s : State), step { s with pending := c :: l } = exec c { s with pending := l }

/-- No command touches the queue: exec's effect is on everything but the queue. With an empty queue and nothing due, one
oscillator tick passes; with something due, one of the things due is put in the queue: the model's choice (log 1). -/
def Obligations.TheQueueAndIdleSteps : Prop :=
  (∀ (c : Instr) (s t : State), exec c s = .next t → t.pending = s.pending) ∧
  (∀ s : State, s.pending = [] →
    (dueNow s = [] → step s = .next { s with tb := s.tb.count 1 }) ∧
    (dueNow s ≠ [] → ∃ c ∈ dueNow s, step s = .next { s with drawn := s.drawn + 1, pending := [c] }))

/-- No command is refused. The only fault of a well-formed command is that of an event from outside which comes beyond the
end of the second in progress: requests and the part's own events never fault. That such an event is to be given within the
second in progress (log 3), and that an event of a unit the part lacks faults (log 32), are the model's choices. -/
def Obligations.EveryCommandHasAMeaning : Prop :=
  ∀ (c : Instr) (s : State), (∀ r : Refusal, exec c s ≠ .refused r) ∧
    (c.wellFormed = true → ∀ f : Fault,
      exec c s = .fault f ↔ f = .pastSecondEnd ∧ ∃ w, placedAfter c = some w ∧ elapse w s = none) ∧
    (isRequest c = true → ∀ f : Fault, exec c s ≠ .fault f)

/-- What a COLD start without a saved image leaves (R20, R34, R52, R77, R102, R120, R137, R154, R171, R188, R203). That
the reference starts in ACQUIRING, and that the array was never used, so that all its sectors are free, are the model's
choice (log 7). The laws that every step keeps hold there: the timebase's ranges (R1, R2, R12, R13, R19), the bounds of the tables
(R78, R142, R190), the claim lists (R69), the lamps (R175, R180), the dials (R37) and the sectors (R141). -/
def Obligations.ResetIsTheColdStart : Prop :=
  let s := State.reset
  (TimeOk s ∧ BoundsOk s ∧ ClaimsOk s ∧ LampsOk s ∧ DialsOk s ∧ SectorListsOk s.store) ∧
  (s.tb.secs = 0 ∧ s.tb.sub = 0 ∧ s.tb.set = false ∧ s.tb.flag = false ∧ s.tb.trim = 0 ∧ s.tb.acc = 0 ∧
    s.tb.slew = none ∧ s.tb.runUs = 0) ∧
  (s.ref.state = .acquiring ∧ s.ref.window = [] ∧ s.ref.cadence = none ∧ s.ref.pullIn = false ∧ s.ref.mark = none) ∧
  (s.cal.day.dayNo = 0 ∧ s.cal.day.weekday = .sat ∧ s.cal.day.easterDist = -113 ∧ s.cal.change = none) ∧
  (∀ n, unitOk 4 n → (s.dial n).pos = none ∧ (s.dial n).stored = .unknown ∧ (s.dial n).pol = .positive ∧
    (s.dial n).isOpen = false ∧ (s.drive n).state = .settling ∧ (s.voice n).perf = none) ∧
  (∀ b, unitOk 24 b → (s.bell b).state = .ready ∧ (s.bell b).miss = 0 ∧ (s.bell b).last = none ∧
    (s.bell b).held = none ∧ (s.bell b).claims = []) ∧
  (s.perfs = [] ∧ s.clock.today.date = some 0 ∧ s.clock.yesterday.date = none ∧ s.clock.early = none ∧
    s.store.op = none ∧ s.store.queue = [] ∧ s.store.reads = [] ∧ s.store.free = List.range 64) ∧
  (∀ k, k < 96 → (rd s.clock.today.slots (k + 1) default).outcome = .pending) ∧
  (∀ n, unitOk 128 n → s.entry n = .empty ∧ s.stamp n = none) ∧
  (s.sched.lastEval = none ∧ s.sched.panelSilence = false ∧ s.lights.dusk = .unknown ∧ s.lights.panelOn = false) ∧
  (∀ n, unitOk 16 n → (s.chan n).lamp = .unchecked ∧ (s.chan n).output = 0 ∧ (s.chan n).override = none) ∧
  (s.line.slots = [] ∧ s.line.mode = .service ∧ s.line.lastStart = .cold ∧ s.line.rate = 9600 ∧
    s.line.lastValidation = none ∧ s.line.mask = Vector.replicate 10 true ∧ s.line.latch = Vector.replicate 10 none) ∧
  s.pending = []

/-- Every step keeps the timebase's ranges: standard time stays in the 73,049 days of R1, T within 50,000 ppb (R13), A
and the backup accumulator within 999 (R2, R19), the slew within 1,000 µs (R12), and the second's length with them; and the bounds
of the tables: two buffer places and 8 marks (R190), 8 queued operations (R142), 12 performances, no two of one id (R78, R79). -/
def Obligations.EveryStepKeepsTimeRangesAndTableBounds : Prop :=
  (∀ s t : State, TimeOk s → step s = .next t → TimeOk t) ∧
  (∀ s t : State, BoundsOk s → step s = .next t → BoundsOk t)

/-- Every step keeps the claim lists as R69 has them: the level numbers strictly fall and the admission orders rise toward
the top, so that a list holds at most four records. While the part runs, every step keeps each of the 64 sectors on the free list
or in exactly one slot's list (R141). -/
def Obligations.EveryStepKeepsClaimAndSectorLists : Prop :=
  (∀ s t : State, ClaimsOk s → step s = .next t → ClaimsOk t) ∧
  (∀ (s : State) (b : Nat), ClaimsOk s → unitOk 24 b = true → (s.bell b).claims.length ≤ 4) ∧
  (∀ s t : State, s.power.phase = .on → SectorListsOk s.store → step s = .next t → SectorListsOk t.store)

/-- Every step keeps the channels in their ranges: layers, targets and outputs in 0..4095, a fade's output between its ends,
a TRIPPED channel at output 0 without a fade (R175, R180, R183). While the part runs, every step keeps each dial's known
position in 0..P - 1 (R35, R37). -/
def Obligations.EveryStepKeepsLampsAndDialsInRange : Prop :=
  (∀ s t : State, LampsOk s → step s = .next t → LampsOk t) ∧
  (∀ s t : State, s.power.phase = .on → DialsOk s → step s = .next t → DialsOk t)

/-! ### Requests in general -/

/-- A request that cannot be taken at once waits in the order of replies while main power is on: in a buffer place, with the
instant of its reception (R15), while fewer than two are held, else as an overrun mark while fewer than 8 stand, else it leaves nothing. It is discarded while the
part does not receive (R189, R190). SYNTAX is the first check: a taken request that is malformed is answered NO SYNTAX and
changes nothing. In RUN the well-formed requests that write configuration, and BELL TEST, are answered NO MODE and change
nothing (R191, 11.5). -/
def Obligations.RequestsWaitOrAreChecked : Prop :=
  (∀ (c : Instr) (s : State), isRequest c = true → canTake c s = false →
    let places := s.line.slots.countP (· ≠ .overrun)
    let marks := s.line.slots.count .overrun
    (s.power.phase = .on → places < 2 → exec c s = .next { s with
      line := { s.line with slots := s.line.slots ++ [LineSlot.waiting c s.now] }.pumped }) ∧
    (s.power.phase = .on → 2 ≤ places → marks < 8 → exec c s = .next { s with
      line := { s.line with slots := s.line.slots ++ [LineSlot.overrun] }.pumped }) ∧
    (s.power.phase = .on → 2 ≤ places → 8 ≤ marks → exec c s = .next { s with line := s.line.pumped }) ∧
    (s.power.phase ≠ .on → exec c s = .next s)) ∧
  (∀ (c : Instr) (s : State), isRequest c = true → canTake c s = true →
    (c.wellFormed = false → AnsweredOnly c s (.no .badSyntax [])) ∧
    (c.wellFormed = true → isServiceOnly c = true → s.line.mode = .run → AnsweredOnly c s (.no .mode [])))

/-- A notice that is raised becomes pending with count 1, or replaces the pending detail and raises the count up to 255;
where its class is OFF nothing is latched, and no other class's entry changes (R192). An idle transmitter takes the oldest
reply or overrun answer that is ready and has none ahead of it, else the pending entry of the first class in the order REF,
TIME, DIAL, BELL, SWING, PERF, STORE, ENTRY, LAMP, DUSK, which empties (R190, R193). -/
def Obligations.NoticesAreLatchedAndSent : Prop :=
  [NoticeClass.ref, .time, .dial, .bell, .swing, .perf, .store, .entry, .lamp, .dusk].map classIndex = List.range' 1 10 ∧
  (∀ (l : Line) (c : NoticeClass) (detail : List Field),
    let entry := fun (l : Line) (c : NoticeClass) => rd l.latch (classIndex c) none
    (rd l.mask (classIndex c) false = false → l.latched c detail = l) ∧
    (rd l.mask (classIndex c) false = true →
      (entry l c = none → entry (l.latched c detail) c = some { detail := detail, count := 1 }) ∧
      (∀ p, entry l c = some p →
        entry (l.latched c detail) c = some { detail := detail, count := min (p.count + 1) 255 }) ∧
      (∀ d, d ≠ c → entry (l.latched c detail) d = entry l d) ∧
      l.latched c detail = { l with latch := (l.latched c detail).latch })) ∧
  (∀ l : Line,
    let entry := fun (c : NoticeClass) => rd l.latch (classIndex c) none
    let ready := (∃ r a q, l.slots = .ready r a :: q) ∨ ∃ q, l.slots = .overrun :: q
    (l.tx ≠ none → l.pumped = l) ∧
    (∀ r a q, l.tx = none → l.slots = .ready r a :: q → l.pumped = { l with tx := some (.reply r a) }) ∧
    (∀ q, l.tx = none → l.slots = .overrun :: q → l.pumped = { l with tx := some .overrun }) ∧
    (∀ c p, l.tx = none → ¬ready → entry c = some p → (∀ d, classIndex d < classIndex c → entry d = none) →
      l.pumped = { l with tx := some (.notice c p.count p.detail), latch := wr l.latch (classIndex c) none }) ∧
    (l.tx = none → ¬ready → (∀ c, entry c = none) → l.pumped = l))

/-- Every readout is answered in every mode and changes nothing but the line: OK with its fields where its operands are
in range, NO where they are not (R18, R33, R48, R68, R76, R101, R119, R121, R136, R150, R170, R187). -/
def Obligations.ReadoutsAnswerAndChangeNothing : Prop :=
  ∀ (c : Instr) (s : State), isReadout c = true → canTake c s = true →
    (readoutInRange s c = true → ∃ f, AnsweredOnly c s (.ok f)) ∧
    (readoutInRange s c = false → ∃ k, AnsweredOnly c s (.no k []))

/-- TIME READ and REF READ give the fields of R18, in its order, and change nothing. (At the very end of a second, where the
subsecond stands at 1,000,000, the milliseconds read 999: the model's choice, log 9, and no part of this statement; nor are
the two words for the three yes-or-no fields of REF READ, log 76: some two words that differ.) -/
def Obligations.TimeAndReferenceReadout : Prop :=
  ∃ said : Bool → Field, said true ≠ said false ∧ ∀ s : State,
    (canTake .timeRead s = true → s.tb.sub < 1000000 → AnsweredOnly .timeRead s (.ok
      [ dayField (s.localSecs / 86400)
      , .tod (s.localSecs / 3600 % 24) (s.localSecs / 60 % 60) (s.localSecs % 60) (s.tb.sub / 1000)
      , .word (weekdayName s.cal.day.weekday), .word (if s.tb.flag then "S" else "N")
      , .word (if s.tb.set then "SET" else "UNSET"), .num (s.tb.runUs / 1000 : Nat) ])) ∧
    (canTake .refRead s = true → AnsweredOnly .refRead s (.ok
      ([ .word (refStateName s.ref.state), .num (validMarks s.ref.window), .num s.ref.window.length
       , .num (missingRun s.ref.window), said s.ref.cadence.isSome, said s.ref.pullIn, .num s.tb.trim, .num s.tb.acc
       , .num s.ref.sum, .num s.ref.cnt, .num s.ref.disagree, said s.ref.mark.isSome ] ++ s.ref.hist.map Field.num)))

/-- DIAL READ gives the fields of R48, in its order, and changes nothing. -/
def Obligations.DialReadout : Prop :=
  ∀ (n : Nat) (s : State), unitOk 4 n = true → canTake (.dialRead n) s = true →
    AnsweredOnly (.dialRead n) s (.ok
      ([.word (dialStateName (dialState s n)), match (s.dial n).pos with | none => .word "UNKNOWN" | some p => .num p] ++
       (match (s.dial n).pos with
        | none => [Field.absent, Field.absent]
        | some p => [Field.num (dialTarget s n), Field.num (dialDiff s n p)]) ++
       [ .word (polarityName (s.dial n).pol), .word (if (s.dial n).isOpen then "OPEN" else "CLOSED")
       , .num (s.dial n).count, .num (s.dial n).slips, .word (noonName (s.dial n).noon) ] ++ dialFields (s.dialCfg n)))

/-- BELL READ gives the fields of R68, in its order, in every mode; CLAIM READ gives the claim records, top first, or NONE,
then the number of waiting performances whose bell set holds the bell, and a bell outside 1..24 is refused RANGE (R76). Both
change nothing. (How BELL READ says whether a stroke is held is the model's choice, log 76, and no part of this statement: some
word before the planned instant, and something that does not begin with it.) -/
def Obligations.BellAndClaimReadout : Prop :=
  (∃ (yes : Field) (no : List Field), no.head? ≠ some yes ∧
   ∀ (b : Nat) (s : State), unitOk 24 b = true → canTake (.bellRead b) s = true →
     AnsweredOnly (.bellRead b) s (.ok
       ([ .word (bellStateName (s.bell b).state), .num (s.bell b).miss
        , match (s.bell b).last with | none => .word "LONGPAST" | some t => .num t ] ++
        (match (s.bell b).held with
         | none => no
         | some h => [yes, Field.num h.due]) ++
        [ .num (s.bell b).windows.length, .num (s.bell b).driven, .num (s.bell b).silent, .num (s.bell b).masked
        , .num (s.bell b).claims.length
        , match (s.bell b).claims with | [] => .absent | c :: _ => .num c.perf ] ++ bellFields (s.bellCfg b)))) ∧
  (∀ (b : Nat) (s : State), canTake (.claimRead b) s = true →
     (unitOk 24 b = false → AnsweredOnly (.claimRead b) s (.no .range [])) ∧
     (unitOk 24 b = true →
       let waiting := (s.perfs.filter fun p => p.state = .waiting && bellIn p.bells b).length
       ((s.bell b).claims = [] → AnsweredOnly (.claimRead b) s (.ok [.word "NONE", .num waiting])) ∧
       ((s.bell b).claims ≠ [] → AnsweredOnly (.claimRead b) s (.ok
         (((s.bell b).claims.flatMap fun c =>
           [ Field.num c.perf, match s.perf c.perf with | some p => .word (kindName p.kind) | none => .absent
           , .num c.level, .num c.order ]) ++ [.num waiting])))))

/-- SWING READ gives the fields of R136, in its order, in every mode; a drive outside 1..4 is refused RANGE. The time to a
lowering instant that has passed reads 0, and the swing flag and the brake chosen flag are given as YES or NO: the model's
choices (logs 49 and 76). STATUS READ gives the fields of R195, in its order;
of the line rate it gives the setting, and the class names stand in the order of R193: the model's choices (logs 6 and 76). Both
change nothing. -/
def Obligations.SwingAndStatusReadout : Prop :=
  (∀ (n : Nat) (s : State), canTake (.swingRead n) s = true →
     (unitOk 4 n = false → AnsweredOnly (.swingRead n) s (.no .range [])) ∧
     (unitOk 4 n = true → AnsweredOnly (.swingRead n) s (.ok
       ([ .word (swingStateName (s.drive n).state), .word (swingCauseName (s.drive n).cause), optNum (s.drive n).perf
        , .num (s.now - (s.drive n).entry : Nat), optNum ((s.drive n).lastBottom.map fun t => s.now - t)
        , optNum (s.drive n).half, .num (s.drive n).run, yesNo (s.drive n).flag
        , optNum ((s.drive n).lowerAt.map fun t => t - s.now), yesNo (s.drive n).brake, onOff (s.drive n).motor.isSome
        , onOff (s.drive n).brakeOut.isSome, .num (s.drive n).swings ] ++ swingFields (s.driveCfg n))))) ∧
  (∀ s : State, canTake .statusRead s = true →
     AnsweredOnly .statusRead s (.ok
       ([ .word (match s.line.mode with | .service => "SERVICE" | .run => "RUN")
        , .word (match s.line.lastStart with | .cold => "COLD" | .warm => "WARM" | .restart => "RESTART")
        , match currentImage s.store with | some (_, q, _) => .num q | none => .word "NONE" ] ++
        (match s.line.lastValidation with | none => [.absent] | some none => [.word "PASS"] | some (some d) => d) ++
        [ .num s.cfg.rate, .words (arrived .statusRead s).line.classesOn, .words (arrived .statusRead s).line.classesPending
        , .num (arrived .statusRead s).line.places, .num (arrived .statusRead s).line.marks, onOff s.sched.panelSilence
        , onOff s.lights.panelOn ])))

/-! ### Time and reference -/

/-- A taken TIME SET sets standard time to the converted instant; the run clock, the tick count and the length of the
second in progress, T and a pending mark stand, and the disagreement count becomes 0 (R4, R6, R17). MARK leaves a pending
mark with its converted standard time and its reception instant, that of its line where it has waited in the receive buffer
(R15, R190; that a mark older than 1,500 ms is pending all the same is the model's reading, log 89); REF ON and REF OFF switch the reference as R11
states: OFF empties the window and the history, drops the cadence and discards S with its count (R12, R13; the last pulse and the
flags by which the model follows the open second go with them, log 11). Of these three nothing else changes but the line. -/
def Obligations.TimeAndReferenceRequests : Prop :=
  (∀ (d : DateF) (t : TimeF) (z : Option Zone) (s : State) (l : Nat),
     canTake (.timeSet d t z) s = true → t.ms ≤ 999 → convert s d t z = some l →
     ∃ u, exec (.timeSet d t z) s = .next u ∧ u.tb.set = true ∧ u.stdUs = 1000000 * l + 1000 * t.ms ∧
       u.tb.runUs = s.tb.runUs ∧ u.tb.tick = s.tb.tick ∧ u.tb.len = s.tb.len ∧ u.tb.trim = s.tb.trim ∧
       u.ref.disagree = 0 ∧ u.ref.mark = s.ref.mark ∧ (s.ref.state = .locked → u.ref.pullIn = true) ∧
       u.cfg = s.cfg ∧ u.dials = s.dials) ∧
  (∀ (d : DateF) (t : TimeF) (z : Option Zone) (s : State) (l : Nat),
    canTake (.mark d t z) s = true → t.ms = 0 → convert s d t z = some l →
    let taken := fun (recv : Nat) => exec (.mark d t z) s = .next
      { s with ref := { s.ref with mark := some { secs := l, recv := recv } }, line := replyLine (.mark d t z) s (.ok []) }
    (s.line.oldestWaiting = none → taken s.now) ∧
    (∀ a b c k, s.line.slots = a ++ .waiting c k :: b → (∀ x ∈ a, ∀ i j, x ≠ .waiting i j) → taken k)) ∧
  (∀ s : State, canTake .refOn s = true →
    (s.ref.state = .off → exec .refOn s = .next { s with
      ref := { s.ref with state := .acquiring, window := [], cadence := none, hist := [] }
      line := noticeReplyLine .refOn s .ref [.word "STATE", .word "ACQUIRING"] (.ok [.word "ACQUIRING"]) }) ∧
    (s.ref.state ≠ .off → AnsweredOnly .refOn s (.ok [.word (refStateName s.ref.state)]))) ∧
  (∀ s : State, canTake .refOff s = true →
    (s.ref.state = .off → AnsweredOnly .refOff s (.ok [.word "OFF"])) ∧
    (s.ref.state ≠ .off → exec .refOff s = .next { s with
      ref := { s.ref with
        state := .off, window := [], cadence := none, cadMiss := 0, hist := [], sum := 0, cnt := 0
        lastValid := none, boundary := false, judged := true, early := false }
      line := noticeReplyLine .refOff s .ref [.word "STATE", .word "OFF"] (.ok [.word "OFF"]) }))

/-- Outside events find a second that began by counting up to its last tick, k = N, and not beyond it (R2). A second that ends
by counting moves standard time on by one second, wrapping after 73,049 days (R1), and fixes the
length of the next from T, A and the pending slew (R2). In LOCKED and not in pull-in S gains the slew applied to the second that
begins, and the count of those seconds rises (R13). After 64 counted seconds T rises by S × 1000 / 128, rounded half away
from zero, within ±50,000, and S and its count become 0 (R13). While main power is off the backup counter counts whole
seconds, trimmed and without a slew (R19). The run clock never goes back: every command but POWER_UP and START_VALUES leaves it
where it was or later (R3). -/
def Obligations.SecondsAndTrim : Prop :=
  (∀ (c : Instr) (s t : State), (∀ v, c ≠ .powerUp v) → c ≠ .startValues → exec c s = .next t →
     s.tb.runUs ≤ t.tb.runUs) ∧
  (∀ (w : Nat) (s : State), 0 < s.tb.len → s.tb.tick ≤ s.tb.len → s.tb.sub = 1000000 * s.tb.tick / s.tb.len → 0 < w →
     ((elapse w s).isSome = true ↔ s.tb.tick + w ≤ s.tb.len)) ∧
  (∀ s : State, s.power.phase = .on →
     ∃ u, exec .secondEnd s = .next u ∧ u.tb.secs = (s.tb.secs + 1) % (73049 * 86400) ∧ u.tb.sub = 0 ∧ u.tb.tick = 0 ∧
       u.tb.len = ((1000000 : Int) + (s.tb.acc + s.tb.trim).tdiv 1000 + s.tb.slew.getD 0).toNat ∧
       u.tb.acc = (s.tb.acc + s.tb.trim) - 1000 * (s.tb.acc + s.tb.trim).tdiv 1000 ∧
       u.tb.slew = none ∧ u.tb.trim = s.tb.trim ∧ u.cfg = s.cfg ∧
       (s.ref.state = .locked → s.ref.pullIn = false →
         u.ref.sum = s.ref.sum + s.tb.slew.getD 0 ∧ u.ref.cnt = s.ref.cnt + 1) ∧
       (s.ref.state ≠ .locked ∨ s.ref.pullIn = true → u.ref.sum = s.ref.sum ∧ u.ref.cnt = s.ref.cnt)) ∧
  (∀ s : State, s.power.phase = .on → 64 ≤ s.ref.cnt →
    let t := max (-50000) (min 50000 (s.tb.trim + roundHalfAway (1000 * s.ref.sum) 128))
    exec .trimUpdate s = .next { s with
      tb := { s.tb with trim := t }
      ref := { s.ref with sum := 0, cnt := 0 }
      line := if t = -50000 ∨ t = 50000 then noticeLine s .ref [.word "TRIM LIMIT", .num t] else s.line.pumped }) ∧
  (∀ s : State, s.power.phase ≠ .on →
    ∃ u, exec .backupSecond s = .next u ∧ u.tb.secs = (s.tb.secs + 1) % (73049 * 86400) ∧ u.tb.sub = 0 ∧ u.tb.tick = 0 ∧
      u.tb.len = ((1000000 : Int) + (s.power.backAcc + s.tb.trim).tdiv 1000).toNat ∧
      u.power.backAcc = (s.power.backAcc + s.tb.trim) - 1000 * (s.power.backAcc + s.tb.trim).tdiv 1000 ∧
      u = { s with tb := u.tb, power := u.power })

/-- What a reference pulse does, with no mark pending (R9, R10, R12): in OFF nothing. In ACQUIRING and HOLDOVER without a
cadence it starts one; within 2,000 ticks of the cadence instant it marks the second valid and anchors the cadence anew;
elsewhere it is stray. In LOCKED, the first within 50,000 µs of a boundary marks its second valid, and its phase error,
limited to 1,000 µs, becomes the pending slew and joins the history; elsewhere it is stray. That the cadence and its tolerance
are counted in ticks is the model's reading (log 12). -/
def Obligations.ReferencePulseIsJudged : Prop :=
  ∀ (w : Nat) (s u : State), elapse w s = some u → u.power.phase = .on → u.ref.mark = none →
    let nothing := exec (.refPulse w) s = .next { u with line := u.line.pumped }
    (u.ref.state = .off → nothing) ∧
    ((u.ref.state = .acquiring ∨ u.ref.state = .holdover) →
      (u.ref.cadence = none → exec (.refPulse w) s = .next
        { u with ref := { u.ref with cadence := some (u.tb.osc + 1000000), cadMiss := 0 }, line := u.line.pumped }) ∧
      (u.ref.cadence ≠ none → ¬OnCadence u → nothing) ∧
      (OnCadence u → ¬Locks u (windowWith u.ref.window true) → exec (.refPulse w) s = .next { u with
        ref := { u.ref with
          window := windowWith u.ref.window true, lastValid := some u.tb.osc
          cadence := some (u.tb.osc + 1000000), cadMiss := 0 }
        line := u.line.pumped })) ∧
    (u.ref.state = .locked →
      (¬OnBoundary u → nothing) ∧
      (OnBoundary u → ∃ t, exec (.refPulse w) s = .next t ∧
        t.tb = { u.tb with slew := some (max (-1000) (min 1000 (offsetNow u))) } ∧
        t.ref.hist = (offsetNow u :: u.ref.hist).take 8 ∧ t.ref.lastValid = some u.tb.osc ∧
        t.ref.window = windowWith u.ref.window true ∧
        t.ref.pullIn = (u.ref.pullIn && decide (1000 < (offsetNow u).natAbs))))

/-- A qualifying pulse applies the pending mark (R16): while the time is UNSET, and in ACQUIRING, the pulse instant reads the
mark's time; in LOCKED, and in HOLDOVER at a cadence start, a mark that names the nearest boundary agrees, another raises the
disagreement count, and the third moves the time to the mark. The run clock stands. On a valid mark that meets the lock
criterion the monitor enters LOCKED with the REF notice: a phase error up to 100,000 µs is left to the slew, with a pull-in
above 1,000 µs; a larger one is stepped away, and no pull-in begins (R10, R12). That no cadence stands in LOCKED (log 55) and
that the cadence is counted in ticks (log 12) are the model's readings. -/
def Obligations.MarksAreAppliedAndLockIsEntered : Prop :=
  (∀ (w : Nat) (s u : State) (m : Mark), elapse w s = some u → u.power.phase = .on → u.ref.mark = some m →
    m.secs < 73049 * 86400 → u.tb.sub ≤ 1000000 → Qualifies u →
    ∃ t, exec (.refPulse w) s = .next t ∧ t.ref.mark = none ∧ t.tb.runUs = u.tb.runUs ∧ t.cfg = u.cfg ∧
      (u.tb.set = false → t.tb.set = true ∧ t.stdUs = 1000000 * m.secs ∧ t.ref.disagree = 0) ∧
      (u.tb.set = true → u.ref.state = .acquiring → t.stdUs = 1000000 * m.secs ∧ t.ref.disagree = 0) ∧
      (u.tb.set = true → (u.ref.state = .locked ∨
          (u.ref.state = .holdover ∧ u.ref.cadence = none ∧ u.tb.sub ≠ 500000)) →
        (nearestNow u = m.secs → t.stdUs = u.stdUs ∧ t.ref.disagree = 0) ∧
        (nearestNow u ≠ m.secs → u.ref.disagree ≠ 2 → t.stdUs = u.stdUs ∧ t.ref.disagree = u.ref.disagree + 1) ∧
        (nearestNow u ≠ m.secs → u.ref.disagree = 2 → t.stdUs = 1000000 * m.secs ∧ t.ref.disagree = 0)) ∧
      (u.tb.set = true → u.ref.state = .holdover → u.ref.cadence = none → u.tb.sub ≠ 500000 →
        nearestNow u ≠ m.secs → u.ref.disagree ≠ 2 →
        t.line = noticeLine u .ref [.word "MARK DISAGREE", .num (u.ref.disagree + 1 : Nat)])) ∧
  (∀ (w : Nat) (s u : State), elapse w s = some u → u.power.phase = .on → u.ref.mark = none →
    (u.ref.state = .acquiring ∨ u.ref.state = .holdover) → OnCadence u → Locks u (windowWith u.ref.window true) →
    u.tb.sub ≠ 500000 → u.tb.secs < 73049 * 86400 →
    let e := offsetNow u
    ∃ t, exec (.refPulse w) s = .next t ∧ t.ref.state = .locked ∧ t.ref.window = windowWith u.ref.window true ∧
      t.ref.cadence = none ∧ t.ref.hist = (e :: u.ref.hist).take 8 ∧ t.ref.sum = 0 ∧ t.ref.cnt = 0 ∧
      t.tb.trim = u.tb.trim ∧
      (e.natAbs ≤ 100000 → t.tb = { u.tb with slew := some (max (-1000) (min 1000 e)) } ∧
        t.ref.pullIn = decide (1000 < e.natAbs) ∧ t.line = noticeLine u .ref [.word "STATE", .word "LOCKED"] ∧
        t = { u with tb := t.tb, ref := t.ref, line := t.line }) ∧
      (100000 < e.natAbs → t.tb.secs = nearestNow u ∧ t.tb.sub = 0 ∧ t.ref.pullIn = false ∧ t.tb.runUs = u.tb.runUs))

/-- A local second boundary without a cadence and without a pulse marks a second missing; so does a cadence instant that no pulse
meets within 2,000 ticks: the next instant follows 1,000,000 ticks after it, and the third miss in a row drops the cadence (R9,
R10; that both are counted in ticks is the model's reading, log 12). In LOCKED the second is missing
when its tolerance of 50,000 µs has ended without a pulse, and after 8 missing in a row, or with fewer than 24 valid marks in
the window, the monitor enters HOLDOVER with the REF notice: S is discarded, T, the window and a pull-in stay, and the cadence
is anchored on the last valid pulse (R10, R12, R13; that its first instant is the next one after now is the model's reading,
log 12). A pending mark expires 1,500 ms after its reception with the REF notice (R15). -/
def Obligations.MissingSecondAndMarkExpiry : Prop :=
  (∀ s : State, s.power.phase = .on → (s.ref.state = .acquiring ∨ s.ref.state = .holdover) → s.ref.boundary = true →
    exec .expectedSecondMissing s = .next { s with
      ref := { s.ref with window := windowWith s.ref.window false, boundary := false }, line := s.line.pumped }) ∧
  (∀ (c : Nat) (s u : State), s.power.phase = .on → (s.ref.state = .acquiring ∨ s.ref.state = .holdover) →
    s.ref.boundary = false → s.ref.cadence = some c → elapse (c + 2001 - s.tb.osc) s = some u →
    let w := windowWith u.ref.window false
    (u.ref.cadMiss < 2 → exec .expectedSecondMissing s = .next { u with
      ref := { u.ref with window := w, cadence := some (c + 1000000), cadMiss := u.ref.cadMiss + 1 }
      line := u.line.pumped }) ∧
    (2 ≤ u.ref.cadMiss → exec .expectedSecondMissing s = .next
      { u with ref := { u.ref with window := w, cadence := none, cadMiss := 0 }, line := u.line.pumped })) ∧
  (∀ s u : State, s.power.phase = .on → s.ref.state = .locked → s.ref.judged = false →
    elapse (s.tb.ticksFor (50001 - s.tb.sub)) s = some u →
    let w := windowWith u.ref.window false
    let lost := 8 ≤ (w.reverse.takeWhile (· = false)).length ∨ w.count true < 24
    (¬lost → exec .expectedSecondMissing s = .next
      { u with ref := { u.ref with window := w, judged := true }, line := u.line.pumped }) ∧
    (lost → exec .expectedSecondMissing s = .next { u with
      ref := { u.ref with
        state := .holdover, window := w, judged := true, boundary := false, cadMiss := 0, sum := 0, cnt := 0
        cadence := u.ref.lastValid.map fun l => l + 1000000 * ((u.tb.osc - l) / 1000000 + 1) }
      line := noticeLine u .ref [.word "STATE", .word "HOLDOVER"] })) ∧
  (∀ (s u : State) (m : Mark), s.power.phase = .on → s.ref.mark = some m → reachUs (1000 * (m.recv + 1500)) s = some u →
    exec .markExpired s = .next
      { u with ref := { u.ref with mark := none }, line := noticeLine u .ref [.word "MARK EXPIRED"] })

/-! ### Calendar -/

/-- A date of the range has one day number, and the day number gives the date back (R21). The weekday of a day number is
the remainder (n + 5) mod 7, 0 for MON (R22), and the manual's worked dates come out: 2025-04-20 is day 9,241 and Easter
Sunday of 2025, Easter 2000 is 2000-04-23 (R21, R25). SUMMER and SUN in SERVICE replace the rule or the anchor, and the flag
and the calendar record follow at once, while standard time, the run clock and the rest of the Timebase stand (R8, R24, R26, R30).
Where the flag stays, nothing else of the part changes. Where it changes, the TIME notice LOCAL gives the movement of local time in
minutes, and the clock meets it as a large movement, forward where the flag is now set: records are cancelled, the sheets roll,
the frontier moves and its loop runs, in SERVICE with no performance made and no entry fired (R7, R110, R111, R117, R167; stated of a
table of distinct ids, as every step keeps it). The
model's readings and choices in it: a rule that changes the offset under a standing flag is not announced, and the notice carries
the movement (log 36); what a large movement does to the clock rests on logs 43, 59 and 83, as in DaySheetsMeetTheTime. -/
def Obligations.DatesSummerAndSun : Prop :=
  ((∀ d : DateF, dateValid d = true → dateOf (dateNumber d) = d) ∧
   (∀ n : Nat, weekdayIndex (weekdayOf n) = (n + 5) % 7) ∧ weekdayOf 0 = .sat ∧ dayNumber 2025 4 20 = 9241 ∧
     easter 2025 = (4, 20) ∧ easter 2000 = (4, 23)) ∧
  (∀ (i : Instr) (c : Settings) (s : State), canTake i s = true → s.line.mode = .service →
    ((∃ r, i = .summer r ∧ summerOk r = true ∧ c = { s.cfg with summer := r }) ∨
      (∃ k rise set, i = .sun k rise set ∧ unitOk 24 k = true ∧ rise ≤ 1439 ∧ set ≤ 1439 ∧
        c = { s.cfg with sun := wr s.cfg.sun k { rise := rise, set := set } })) →
    ∃ u v : State, exec i s = .next u ∧
      v = { s with cfg := c, tb := { s.tb with flag := inForce c.summer s.tb.secs }, cal := v.cal } ∧
      v.cal = calendarOf c.summer c.sun v.localDay (yearOfSecs s.tb.secs) ∧
      v.cal.change = changeInstants c.summer (yearOfSecs s.tb.secs) ∧
      (v.tb.flag = s.tb.flag → u = { v with line := replyLine i s (.ok []) }) ∧
      (v.tb.flag ≠ s.tb.flag → (s.perfs.map (·.id)).Nodup →
        let minutes := fun (flag : Bool) (offset : Nat) => if flag = true then (offset : Int) else 0
        let move := minutes v.tb.flag c.summer.offset - minutes s.tb.flag s.cfg.summer.offset
        ∃ w, MovedFar { v with line := (arrived i s).line.latched .time [.word "LOCAL", .num move] } w v.tb.flag ∧
          u = { w with clock := (frontierLoop w).clock, line := (w.line.answered (.ready (.ok []) none)).pumped }) ∧
      u = { v with
        bells := u.bells, perfs := u.perfs, nextOrder := u.nextOrder, voices := u.voices, lights := u.lights
        clock := u.clock, store := u.store, line := u.line })

/-! ### Dials -/

/-- The target and the difference of R38, and the three reported states of a DERIVED dial by R39. -/
def Obligations.DialTargetDifferenceAndState : Prop :=
  ∀ (s : State) (n p : Nat),
    dialTarget s n = s.localSecs % 43200 / (s.dialCfg n).step ∧
    (p < positions (s.dialCfg n) → dialDiff s n p < positions (s.dialCfg n) ∧
      (dialDiff s n p + p) % positions (s.dialCfg n) = dialTarget s n % positions (s.dialCfg n)) ∧
    ((s.dial n).stored = .derived → (s.dial n).pos = some p →
      (dialDiff s n p ≤ 1 → dialState s n = .inStep) ∧
      (2 ≤ dialDiff s n p → dialDiff s n p ≤ positions (s.dialCfg n) - holdWindow (s.dialCfg n) →
        dialState s n = .advancing) ∧
      (2 ≤ dialDiff s n p → positions (s.dialCfg n) - holdWindow (s.dialCfg n) < dialDiff s n p →
        dialState s n = .holding))

/-- DIAL CONFIG in SERVICE replaces the configuration, clamped, where the step stays or the position is unknown, and where the
noon field changes the dial enters UNKNOWN or SEARCHING as R35 says, a STOPPED one staying STOPPED (log 57, the model's
reading). DIAL SET takes a position, or UNKNOWN (R46); with UNKNOWN a polarity that is given is not taken (log 39, the
model's reading). DIAL STOP keeps the record, and DIAL GO takes a STOPPED dial back by the table of R47. Nothing else changes
but the line. -/
def Obligations.DialRequestsWriteTheRecord : Prop :=
  (∀ (n : Nat) (c : DialCfg) (s : State), canTake (.dialConfig n c) s = true → s.line.mode = .service →
    unitOk 4 n = true → dialOk c = true → (c.step = (s.dialCfg n).step ∨ (s.dial n).pos = none) →
    let old := (s.dialCfg n).noon
    let lost := old = true ∧ c.noon = false ∧
      ((s.dial n).stored = .searching ∨ ((s.dial n).stored = .fault ∧ (s.dial n).pos = none))
    let found := old = false ∧ c.noon = true ∧ (s.dial n).stored = .unknown
    ∃ x, exec (.dialConfig n c) s = .next { s with
      cfg := { s.cfg with dials := wr s.cfg.dials n { c with
        width := min (max c.width 100) 2000 / 10 * 10, interval := min (max c.interval 500) 10000
        hold := min c.hold 180 } }
      dials := wr s.dials n x
      line := replyLine (.dialConfig n c) s (.ok []) } ∧
      (lost → x = { s.dial n with stored := .unknown, step := c.step }) ∧
      (found → x = { s.dial n with stored := .searching, count := 0, step := c.step }) ∧
      (¬lost → ¬found → x = { s.dial n with step := c.step })) ∧
  (∀ (n p : Nat) (q : Option Polarity) (s : State), canTake (.dialSet n (some p) q) s = true → unitOk 4 n = true →
    p < positions (s.dialCfg n) →
    ∃ u, exec (.dialSet n (some p) q) s = .next u ∧
      u = { s with dials := wr s.dials n { s.dial n with
              pos := some p, count := 0, pol := q.getD (s.dial n).pol
              stored := if (s.dial n).stored = .stopped then .stopped else .derived }
                   line := u.line }) ∧
  (∀ (n : Nat) (q : Option Polarity) (s : State), canTake (.dialSet n none q) s = true → unitOk 4 n = true →
    ∃ u, exec (.dialSet n none q) s = .next u ∧
      u = { s with dials := wr s.dials n { s.dial n with
              pos := none, count := 0
              stored := if (s.dial n).stored = .stopped then .stopped
                else if (s.dialCfg n).noon = true then .searching else .unknown }
                   line := u.line }) ∧
  (∀ (n : Nat) (s : State), canTake (.dialStop n) s = true → unitOk 4 n = true →
    exec (.dialStop n) s = .next { s with
      dials := wr s.dials n { s.dial n with stored := .stopped }
      line := replyLine (.dialStop n) s (.ok [.word "STOPPED"]) }) ∧
  (∀ (n : Nat) (s : State), canTake (.dialGo n) s = true → unitOk 4 n = true →
      ∃ u, exec (.dialGo n) s = .next u ∧
        ((s.dial n).stored ≠ .stopped → u = { s with line := u.line }) ∧
        ((s.dial n).stored = .stopped → (s.dial n).pos ≠ none →
          u = { s with dials := wr s.dials n { s.dial n with stored := .derived }, line := u.line }) ∧
        ((s.dial n).stored = .stopped → (s.dial n).pos = none → (s.dialCfg n).noon = true →
          u = { s with dials := wr s.dials n { s.dial n with stored := .searching, count := 0 }, line := u.line }) ∧
        ((s.dial n).stored = .stopped → (s.dial n).pos = none → (s.dialCfg n).noon = false →
          u = { s with dials := wr s.dials n { s.dial n with stored := .unknown }, line := u.line }))

/-- A due impulse counts the position on, toggles the polarity of a polarised dial, raises the count and opens the impulse
for the configured width; at its end the output is released (R41). Where the contact is fitted and the count already stands at
the fault limit, a DERIVED or SEARCHING dial enters FAULT at it, with MISSED and the DIAL notice (R41, R43, R44). A noon closure
of a DERIVED dial is GOOD within the tolerance of 12:00 and a SLIP beyond it (R42); a SEARCHING dial finds 12:00 (R44). A FAULT
dial returns to DERIVED by the same check, or at 12:00 where its position is UNKNOWN, with the RECOVERED notice (R43; that a slip
raises SLIP first is the model's reading, log 39). A contact open again takes the next closure
(R42); that the input is followed so while the contact is not fitted too is the model's choice (log 58). -/
def Obligations.ImpulsesAndNoonClosures : Prop :=
  (∀ (n d : Nat) (s u : State), unitOk 4 n = true → impulseDue n s = some d → reachUs d s = some u →
    let faults := (u.dialCfg n).noon = true ∧ ((u.dial n).stored = .derived ∨ (u.dial n).stored = .searching) ∧
      positions (u.dialCfg n) + (u.dialCfg n).tolerance ≤ (u.dial n).count
    ∃ t, exec (.dialImpulseStart n) s = .next t ∧ (t.dial n).isOpen = true ∧
      (faults → (t.dial n).stored = .fault ∧ (t.dial n).noon = .missed ∧ t.line = noticeLine u .dial
        [.num n, .word "FAULT", match (u.dial n).pos with | some p => .num p | none => .word "UNKNOWN"]) ∧
      (¬faults → (t.dial n).stored = (u.dial n).stored ∧ (t.dial n).noon = (u.dial n).noon ∧ t.line = u.line.pumped) ∧
      (t.dial n).slips = (u.dial n).slips ∧ (t.dial n).armed = (u.dial n).armed ∧ (t.dial n).step = (u.dial n).step ∧
      (t.dial n).pos = (u.dial n).pos.map (fun p => (p + 1) % positions (u.dialCfg n)) ∧
      (t.dial n).count = min ((u.dial n).count + 1) 65535 ∧ (t.dial n).last = some u.now ∧
      (t.dial n).openEnd = u.now + (u.dialCfg n).width ∧
      ((u.dialCfg n).polarised = true → (t.dial n).out = some (u.dial n).pol ∧ (t.dial n).pol ≠ (u.dial n).pol) ∧
      ((u.dialCfg n).polarised = false → (t.dial n).out = some .positive ∧ (t.dial n).pol = (u.dial n).pol) ∧
      t = { u with dials := wr u.dials n (t.dial n), line := t.line }) ∧
  (∀ (n : Nat) (s u : State), unitOk 4 n = true → s.power.phase = .on → (s.dial n).isOpen = true →
    reachUs (1000 * (s.dial n).openEnd) s = some u →
    exec (.dialImpulseEnd n) s = .next { u with
      dials := wr u.dials n { u.dial n with isOpen := false, out := none }, line := u.line.pumped }) ∧
  (∀ (w n p : Nat) (s u : State), unitOk 4 n = true → elapse w s = some u → u.power.phase = .on →
    (u.dialCfg n).noon = true → (u.dial n).armed = true → (u.dial n).stored = .derived → (u.dial n).pos = some p →
    (min p (positions (u.dialCfg n) - p) ≤ (u.dialCfg n).tolerance →
      exec (.noonClosure w n) s = .next { u with
        dials := wr u.dials n { u.dial n with armed := false, count := 0, noon := .good }, line := u.line.pumped }) ∧
    ((u.dialCfg n).tolerance < min p (positions (u.dialCfg n) - p) →
      exec (.noonClosure w n) s = .next { u with
        dials := wr u.dials n { u.dial n with
          armed := false, pos := some 0, slips := min ((u.dial n).slips + 1) 65535, count := 0, noon := .slip }
        line := noticeLine u .dial [.num n, .word "SLIP", .num p] })) ∧
  (∀ (w n : Nat) (s u : State), unitOk 4 n = true → elapse w s = some u → u.power.phase = .on →
    (u.dialCfg n).noon = true → (u.dial n).armed = true → (u.dial n).stored = .searching →
    exec (.noonClosure w n) s = .next { u with
      dials := wr u.dials n { u.dial n with armed := false, pos := some 0, count := 0, stored := .derived, noon := .found }
      line := noticeLine u .dial [.num n, .word "FOUND"] }) ∧
  (∀ (w n : Nat) (s u : State), unitOk 4 n = true → elapse w s = some u → u.power.phase = .on →
    (u.dialCfg n).noon = true → (u.dial n).armed = true → (u.dial n).stored = .fault →
    let recovers := fun (x : Dial) (line : Line) (p : Nat) => exec (.noonClosure w n) s = .next { u with
      dials := wr u.dials n { x with armed := false, count := 0, stored := .derived }
      line := (line.latched .dial [.num n, .word "RECOVERED", .num p]).pumped }
    (∀ p, (u.dial n).pos = some p → min p (positions (u.dialCfg n) - p) ≤ (u.dialCfg n).tolerance →
      recovers { u.dial n with noon := .good } u.line p) ∧
    (∀ p, (u.dial n).pos = some p → (u.dialCfg n).tolerance < min p (positions (u.dialCfg n) - p) →
      recovers { u.dial n with pos := some 0, slips := min ((u.dial n).slips + 1) 65535, noon := .slip }
        (u.line.latched .dial [.num n, .word "SLIP", .num p]) 0) ∧
    ((u.dial n).pos = none → recovers { u.dial n with pos := some 0, noon := .found } u.line 0)) ∧
  (∀ (w n : Nat) (s u : State), unitOk 4 n = true → elapse w s = some u → u.power.phase = .on →
    exec (.noonContactOpen w n) s = .next { u with
      dials := wr u.dials n { u.dial n with armed := true }, line := u.line.pumped })

/-! ### Bells -/

/-- BELL CONFIG in SERVICE replaces the configuration part, clamped, keeps the operational part but for R53's exceptions (on a
bell in FAULT too the miss count becomes M - 1: the model's reading, log 52), and rebuilds the quarter profiles (R107). CLOCK
CONFIG in SERVICE replaces the settings, clamped, and rebuilds the profiles; CLOCK LEVELS replaces the four levels (R103, R104,
R107). The profile of a tune without events is READY at once: the model's reading (log 42). -/
def Obligations.BellAndClockConfigurations : Prop :=
  (∀ (b : Nat) (c : BellCfg) (s : State), canTake (.bellConfig b c) s = true → s.line.mode = .service →
     nameOk 12 c.name = true → unitOk 24 b = true → c.drive ≤ 4 →
     let old := s.bellCfg b
     let new : BellCfg := { c with
       fSoft := min (max c.fSoft 20) 400, fNormal := min (max c.fNormal 20) 400, fStrong := min (max c.fStrong 20) 400
       wSoft := min (max c.wSoft 10) 200, wNormal := min (max c.wNormal 10) 200, wStrong := min (max c.wStrong 10) 200
       recovery := min (max c.recovery 60) 2000, crowd := min c.crowd 250, half := min (max c.half 5) 100
       missLimit := min (max c.missLimit 1) 8 }
     let unfit := (old.confirm && !c.confirm) || (old.hammer && !c.hammer)
     let miss := if unfit then 0 else (s.bell b).miss
     ∃ u, exec (.bellConfig b c) s = .next u ∧ ProfilesRebuilt s u ∧
       u = { s with
         cfg := { s.cfg with bells := wr s.cfg.bells b new }
         bells := wr s.bells b { s.bell b with
           windows := if unfit then [] else (s.bell b).windows
           miss := if new.missLimit ≤ miss then new.missLimit - 1 else miss
           held := (s.bell b).held.map fun h => { h with due := max h.due ((s.bell b).last.getD 0 + new.recovery) } }
         clock := u.clock, store := u.store, line := replyLine (.bellConfig b c) s (.ok []) }) ∧
  (∀ (c : ClockCfg) (s : State), canTake (.clockConfig c) s = true → s.line.mode = .service → clockOk c = true →
    ∃ u, exec (.clockConfig c) s = .next u ∧ ProfilesRebuilt s u ∧ u = { s with
      cfg := { s.cfg with clock := { c with gap := min (max c.gap 10) 100, spacing := min (max c.spacing 10) 60 } }
      clock := u.clock, store := u.store, line := replyLine (.clockConfig c) s (.ok []) }) ∧
  (∀ (l : Levels) (s : State), canTake (.clockLevels l) s = true → s.line.mode = .service →
    l.swing ≤ 3 → l.toll ≤ 3 → l.clock ≤ 3 → l.tune ≤ 3 →
    exec (.clockLevels l) s = .next
      { s with cfg := { s.cfg with levels := l }, line := replyLine (.clockLevels l) s (.ok []) })

/-- BELL SILENT follows the table of R65, BELL CLEAR returns a bell from FAULT with the BELL notice (R66); the claims, the
last release and a held stroke are kept, and nothing else changes. -/
def Obligations.BellSilentAndClear : Prop :=
  (∀ (b : Nat) (on : Bool) (s : State), canTake (.bellSilent b on) s = true → unitOk 24 b = true →
    ∃ x, exec (.bellSilent b on) s = .next
        { s with bells := wr s.bells b x
                 line := replyLine (.bellSilent b on) s (.ok [.word (bellStateName x.state)]) } ∧
      x = { s.bell b with state := x.state, miss := x.miss, windows := x.windows } ∧
      (x.state ≠ (s.bell b).state → x.windows = (s.bell b).windows.filter (·.test)) ∧
      (x.state = (s.bell b).state → x.windows = (s.bell b).windows) ∧
      x.state = (match (s.bell b).state, on with
        | .ready, true => .silent | .ready, false => .ready | .silent, true => .silent | .silent, false => .ready
        | .fault, true => .silent | .fault, false => .fault) ∧
      x.miss = (match (s.bell b).state, on with
        | .silent, false => 0 | .fault, true => 0 | _, _ => (s.bell b).miss)) ∧
  (∀ (b : Nat) (s : State), canTake (.bellClear b) s = true → unitOk 24 b = true →
    ((s.bell b).state ≠ .fault → AnsweredOnly (.bellClear b) s (.ok [.word (bellStateName (s.bell b).state)])) ∧
    ((s.bell b).state = .fault → exec (.bellClear b) s = .next { s with
      bells := wr s.bells b { s.bell b with
        state := .ready, miss := 0, windows := (s.bell b).windows.filter (·.test) }
      line := noticeReplyLine (.bellClear b) s .bell [.num b, .word "READY", .word "CLEAR"] (.ok [.word "READY"]) }))

/-- A stroke that passes the checks is driven at its release, whether a voice, a toll or a test sends it (STROKE_RELEASE,
TOLL_STROKE_RELEASE, TEST_STROKE_RELEASE), or it had been held (HELD_STROKE_RELEASE): the hammer's record takes the release
(R56 to R63), a test stroke on a bell in FAULT too (R60), the performance counts it (R91), and nothing else changes. That of a
voice's strokes with one release instant the one taken up first is sent is the model's choice (log 88). -/
def Obligations.StrokesAreDriven : Prop :=
  (∀ (c : Instr) (s w : State) (b id : Nat) (i : Intensity) (test : Bool), StrokeSent s c w b id i test →
    unitOk 24 b = true → StrokeAllowed w b id → Uncrowded w b → HammerDriven w b test →
    ∃ t, exec c s = .next t ∧ Reported w t id .released (w.now + pulseWidth (w.bellCfg b) i) true ∧
      t = { w with
        bells := wr w.bells b (pulsedBell w b id i test), perfs := t.perfs, line := w.line.pumped }) ∧
  (∀ (s w : State) (b : Nat) (h : Held), unitOk 24 b = true → HeldSent s b w h → StrokeAllowed w b h.perf →
    HammerDriven w b h.test →
    ∃ t, exec (.heldStrokeRelease b) s = .next t ∧
      Reported w t h.perf .released (w.now + pulseWidth (w.bellCfg b) h.intensity) false ∧
      t = { w with
        bells := wr w.bells b (pulsedBell w b h.perf h.intensity h.test), perfs := t.perfs, line := w.line.pumped })

/-- No stroke moves the hammer of a bell whose swing drive is not DOWN: at its release it is masked, the bell's masked
count rises, the performance and a CLOCK performance's day-sheet slot count it, and nothing else changes (R57, R59, R64,
R115; the order of one voice's strokes at one instant is the model's choice, log 88). -/
def Obligations.SwingingBellsAreLockedOut : Prop :=
  (∀ (c : Instr) (s w : State) (b id : Nat) (i : Intensity) (test : Bool), StrokeSent s c w b id i test →
    unitOk 24 b = true → Swinging w b →
    ∃ t, exec c s = .next t ∧ MaskReported w t id (w.now + pulseWidth (w.bellCfg b) i) true ∧
      t = { w with
        bells := wr w.bells b (maskedBell w b), perfs := t.perfs, clock := t.clock, line := w.line.pumped }) ∧
  (∀ (s w : State) (b : Nat) (h : Held), unitOk 24 b = true → HeldSent s b w h → Swinging w b →
    ∃ t, exec (.heldStrokeRelease b) s = .next t ∧
      MaskReported w t h.perf (h.req + pulseWidth (w.bellCfg b) h.intensity) false ∧
      t = { w with
        bells := wr w.bells b (maskedBell w b), perfs := t.perfs, clock := t.clock, line := w.line.pumped })

/-- The other ends of a stroke, sent or held. One whose performance's claim is not on top is masked (R56, R59). One that
comes while a stroke is held, or more than C before the recovery time has passed, is dropped and reported crowded; one at
most C before it is held until then and reported delayed (R58). A SILENT bell records it silent (R60). It is masked without a
hammer, and on a bell in FAULT unless it is a test stroke (R60). Each is reported once to its performance (R64, R91), and
nothing else changes. The order of one voice's strokes at one instant is the model's choice (log 88). -/
def Obligations.StrokesAreJudged : Prop :=
  (∀ (c : Instr) (s w : State) (b id : Nat) (i : Intensity) (test : Bool), StrokeSent s c w b id i test →
    unitOk 24 b = true →
    let width := pulseWidth (w.bellCfg b) i
    let due := fun (r : Nat) => r + (w.bellCfg b).recovery
    let masked := ∃ t, exec c s = .next t ∧ MaskReported w t id (w.now + width) true ∧ t = { w with
      bells := wr w.bells b (maskedBell w b), perfs := t.perfs, clock := t.clock, line := w.line.pumped }
    let crowded := ∃ t, exec c s = .next t ∧ Reported w t id .crowded (w.now + width) true ∧
      t = { w with perfs := t.perfs, line := w.line.pumped }
    (ClaimMissing w b id → masked) ∧
    (StrokeAllowed w b id → (w.bell b).held ≠ none → crowded) ∧
    (∀ r, StrokeAllowed w b id → (w.bell b).held = none → (w.bell b).last = some r → w.now < due r →
      ((w.bellCfg b).crowd < due r - w.now → crowded) ∧
      (due r - w.now ≤ (w.bellCfg b).crowd → ∃ t, exec c s = .next t ∧ Reported w t id .delayed 0 true ∧ t = { w with
        bells := wr w.bells b { w.bell b with
          held := some { perf := id, intensity := i, test := test, req := w.now, due := due r } }
        perfs := t.perfs, line := w.line.pumped })) ∧
    (StrokeAllowed w b id → Uncrowded w b → HammerSilent w b →
      ∃ t, exec c s = .next t ∧ Reported w t id .silent (w.now + width) true ∧
        t = { w with bells := wr w.bells b (silentBell w b), perfs := t.perfs, line := w.line.pumped }) ∧
    (StrokeAllowed w b id → Uncrowded w b → HammerMasked w b test → masked)) ∧
  (∀ (s w : State) (b : Nat) (h : Held), unitOk 24 b = true → HeldSent s b w h →
    let width := pulseWidth (w.bellCfg b) h.intensity
    let masked := ∃ t, exec (.heldStrokeRelease b) s = .next t ∧ MaskReported w t h.perf (h.req + width) false ∧
      t = { w with
        bells := wr w.bells b (maskedBell w b), perfs := t.perfs, clock := t.clock, line := w.line.pumped }
    (ClaimMissing w b h.perf → masked) ∧
    (StrokeAllowed w b h.perf → HammerSilent w b →
      ∃ t, exec (.heldStrokeRelease b) s = .next t ∧ Reported w t h.perf .silent (w.now + width) false ∧
        t = { w with bells := wr w.bells b (silentBell w b), perfs := t.perfs, line := w.line.pumped }) ∧
    (StrokeAllowed w b h.perf → HammerMasked w b h.test → masked))

/-- A pulse ends (R61). A closure inside an open window confirms its stroke to its performance and clears the miss count, a
stray one changes nothing (R62); a confirmed test window returns a bell from FAULT to READY with the BELL notice (R67). A
missed window counts and is reported missed, and at the miss limit the bell enters FAULT with the BELL notice (R63); a test
window missed in FAULT leaves the count (R67). That a test window missed on a SILENT bell counts as any other is the model's
reading (log 25). -/
def Obligations.PulsesAndConfirmWindows : Prop :=
  (∀ (b d : Nat) (s u : State), unitOk 24 b = true → pulseDue b s = some d → reachUs d s = some u →
    exec (.hammerPulseEnd b) s = .next
      { u with bells := wr u.bells b { u.bell b with pulse := none }, line := u.line.pumped }) ∧
  (∀ (w b : Nat) (s u : State), unitOk 24 b = true → elapse w s = some u → u.power.phase = .on →
    let inside := fun (k : Window) => decide (k.opens ≤ u.now) && decide (u.now ≤ k.closes)
    (takeFirst inside (u.bell b).windows = none →
      exec (.confirmClosure w b) s = .next { u with line := u.line.pumped }) ∧
    (∀ k l, takeFirst inside (u.bell b).windows = some (k, l) →
      ∃ t, exec (.confirmClosure w b) s = .next t ∧ Reported u t k.perf .confirmed 0 false ∧
        (((u.bell b).state ≠ .fault ∨ k.test = false) → t = { u with
          bells := wr u.bells b { u.bell b with miss := 0, windows := l }, perfs := t.perfs, line := u.line.pumped }) ∧
        ((u.bell b).state = .fault → k.test = true → t = { u with
          bells := wr u.bells b { u.bell b with state := .ready, miss := 0, windows := l.filter (·.test) }
          perfs := t.perfs, line := noticeLine u .bell [.num b, .word "READY", .word "TEST"] }))) ∧
  (∀ (b d : Nat) (s u : State) (k : Window) (l : List Window), unitOk 24 b = true → windowDue b s = some d →
    reachUs d s = some u → takeFirst (fun y => y.closes ≤ u.now) (u.bell b).windows = some (k, l) →
    let m := (u.bellCfg b).missLimit
    ∃ t, exec (.confirmWindowClose b) s = .next t ∧ Reported u t k.perf .missed 0 false ∧
      ((u.bell b).state = .fault →
        t = { u with bells := wr u.bells b { u.bell b with windows := l }, perfs := t.perfs, line := u.line.pumped }) ∧
      ((u.bell b).state ≠ .fault → (u.bell b).miss + 1 < m →
        t = { u with
          bells := wr u.bells b { u.bell b with windows := l, miss := (u.bell b).miss + 1 }
          perfs := t.perfs, line := u.line.pumped }) ∧
      ((u.bell b).state ≠ .fault → m ≤ (u.bell b).miss + 1 →
        t = { u with
          bells := wr u.bells b { u.bell b with windows := l.filter (·.test), miss := m, state := .fault }
          perfs := t.perfs, line := noticeLine u .bell [.num b, .word "FAULT", .num m] }))

/-! ### Performances -/

/-- PLAY, TOLL, RING and BELL TEST create a performance that is admitted at once when the table has room, the claim test
passes and, where one is needed, a voice is FREE (R67, R70, R79, R81, R83, R84, R99, R100, R134). -/
def Obligations.CreationsAreAdmittedAtOnce : Prop :=
  (∀ (n v : Nat) (scale wait scene : Option Nat) (s : State), canTake (.play n scale wait scene) s = true →
    unitOk 64 n = true → sceneOk scene = true → (s.slot n).state = .closed → s.perfs.length < 12 →
    claimsOpen s s.cfg.levels.tune (s.slot n).bells = true → firstFree s = some v →
    let e := s.slot n
    let lead := tuneLead s e.bells
    ∃ u, exec (.play n scale wait scene) s = .next u ∧
      AdmittedAtOnce s u e.bells s.cfg.levels.tune (s.now + lead + 100) (some v) ∧
      u.perf (nextId s) = some { newPerf .tune .line s.cfg.levels.tune e.bells lead (min (wait.getD 0) 600)
          (match scene with | some k => some k | none => e.scene) with
        id := nextId s, reqAt := s.now, state := .admitted, order := some s.nextOrder, voice := some v
        anchor := some (s.now + lead + 100), slot := some n, division := some e.division
        tempo := some (max 20 (min 240 (roundHalfAway (e.tempo * max 50 (min 200 (scale.getD 100)) : Nat) 100).toNat)) } ∧
      u.line = replyLine (.play n scale wait scene) s (.ok [.num (nextId s), .word "ADMITTED"])) ∧
  (∀ (b interval count v : Nat) (i : Intensity) (wait scene : Option Nat) (s : State),
    canTake (.toll b interval count i wait scene) s = true → unitOk 24 b = true → count ≤ 999 → sceneOk scene = true →
    s.perfs.length < 12 → claimsOpen s s.cfg.levels.toll (bellOne b) = true → firstFree s = some v →
    let lead := flyTime (s.bellCfg b) i
    ∃ u, exec (.toll b interval count i wait scene) s = .next u ∧
      AdmittedAtOnce s u (bellOne b) s.cfg.levels.toll (s.now + lead + 100) (some v) ∧
      u.perf (nextId s) = some { newPerf
          (.toll { bell := b, interval := max 10 (min 600 interval), count := count, intensity := i, sent := 0
                   limit := if count = 0 then none else some count })
          .line s.cfg.levels.toll (bellOne b) lead (min (wait.getD 0) 600) scene with
        id := nextId s, reqAt := s.now, state := .admitted, order := some s.nextOrder, voice := some v
        anchor := some (s.now + lead + 100) } ∧
      u.line = replyLine (.toll b interval count i wait scene) s (.ok [.num (nextId s), .word "ADMITTED"])) ∧
  (∀ (ds : List Nat) (stagger duration wait : Option Nat) (s : State), canTake (.ring ds stagger duration wait) s = true →
    driveListOk ds = true → (∀ n ∈ ds, unitOk 4 n = true ∧ driveUsable s n = true ∧ (s.drive n).state = .down) →
    s.perfs.length < 12 → claimsOpen s s.cfg.levels.swing (swungBells s ds) = true →
    ∃ u, exec (.ring ds stagger duration wait) s = .next u ∧
      AdmittedAtOnce s u (swungBells s ds) s.cfg.levels.swing (s.now + 100) none ∧
      u.perf (nextId s) = some { newPerf
          (.swing { drives := ds.map fun n => { drive := n, started := false, done := false }
                    stagger := min (stagger.getD 0) 60, duration := min (duration.getD 0) 120 })
          .line s.cfg.levels.swing (swungBells s ds) 0 (min (wait.getD 0) 600) none with
        id := nextId s, reqAt := s.now, state := .admitted, order := some s.nextOrder, anchor := some (s.now + 100) } ∧
      u.line = replyLine (.ring ds stagger duration wait) s (.ok [.num (nextId s), .word "ADMITTED"])) ∧
  (∀ (b v : Nat) (i : Intensity) (s : State), canTake (.bellTest b i) s = true → s.line.mode = .service →
    unitOk 24 b = true → (s.bellCfg b).hammer = true →
    (unitOk 4 (s.bellCfg b).drive = true → (s.drive (s.bellCfg b).drive).state = .down) → s.perfs.length < 12 →
    (s.bell b).claims.all (fun c => decide (0 < c.level)) = true → firstFree s = some v →
    ∃ u, exec (.bellTest b i) s = .next u ∧
      AdmittedAtOnce s u (bellOne b) 0 (s.now + flyTime (s.bellCfg b) i + 100) (some v) ∧
      u.perf (nextId s) = some { newPerf (.test { bell := b, intensity := i, sent := false, outcome := .none })
          .line 0 (bellOne b) (flyTime (s.bellCfg b) i) 0 none with
        id := nextId s, reqAt := s.now, state := .admitted, order := some s.nextOrder, voice := some v
        anchor := some (s.now + flyTime (s.bellCfg b) i + 100) } ∧
      u.line = replyLine (.bellTest b i) s (.ok [.num (nextId s), .word "ADMITTED"]))

/-- A TOLL from the line that is not admitted: FULL with 12 records in the table, WAITING with a wait limit above 0,
YIELDED and gone without one (R79, R100). Its id is the next that no record holds. -/
def Obligations.CreationsThatAreNotAdmitted : Prop :=
  (∀ s : State, s.perfs.length < 12 → s.perf (nextId s) = none ∧ unitOk 255 (nextId s) = true) ∧
  (∀ (b interval count : Nat) (i : Intensity) (wait scene : Option Nat) (s : State),
    canTake (.toll b interval count i wait scene) s = true → unitOk 24 b = true → count ≤ 999 → sceneOk scene = true →
    (12 ≤ s.perfs.length → AnsweredOnly (.toll b interval count i wait scene) s (.no .full [])) ∧
    (s.perfs.length < 12 → (claimsOpen s s.cfg.levels.toll (bellOne b) = false ∨ firstFree s = none) →
      (wait.getD 0 = 0 → exec (.toll b interval count i wait scene) s = .next { s with
        lastId := nextId s
        line := replyLine (.toll b interval count i wait scene) s (.ok [.num (nextId s), .word "YIELDED"]) }) ∧
      (0 < wait.getD 0 → ∃ p : Perf, exec (.toll b interval count i wait scene) s = .next { s with
          lastId := nextId s, perfs := s.perfs ++ [p]
          line := replyLine (.toll b interval count i wait scene) s (.ok [.num (nextId s), .word "WAITING"]) } ∧
        p.id = nextId s ∧ p.state = .waiting ∧ p.reqAt = s.now ∧ p.wait = min (wait.getD 0) 600 ∧ p.voice = none ∧
        p.anchor = none ∧ p.bells = bellOne b)))

/-- STOP FINISH and STOP CUT, for every state and kind of R96 and R97: a WAITING record is removed with outcome STOPPED and
no offer round; FINISH puts an admitted record into STOPPING, a toll with its next stroke the last; CUT takes the claims
and the voice of a voiced performance at once, and its record where no pulse of it is driven, and lets a SWING keep its
claims; a record already STOPPING with FINISH, or cut, is not changed. FINISH of a TUNE or CLOCK fixes the stop point, the
earliest event that sounds at or after now and carries the phrase-end mark, and discards the strokes taken up from later events
(that it is kept as a place in the timeline is the model's choice, log 74; that during a stall it is found with the anchor not yet
moved is the model's reading, log 41). FINISH of a SWING gives the drives that swing for it
their staggered lowering instants, CUT lowers them now with the brake, and the starts not yet made are cancelled (R130). -/
def Obligations.StopFinishAndCut : Prop :=
  (∀ (id : Nat) (s : State) (p : Perf), unitOk 255 id = true → s.perf id = some p → p.state = .waiting →
    (canTake (.stopFinish id) s = true → exec (.stopFinish id) s = .next { s with
      perfs := s.perfs.filter fun q => q.id ≠ id
      line := noticeReplyLine (.stopFinish id) s .perf (leavingFields p .stopped) (.ok [.num id, .word "REMOVED"]) }) ∧
    (canTake (.stopCut id) s = true → exec (.stopCut id) s = .next { s with
      perfs := s.perfs.filter fun q => q.id ≠ id
      line := noticeReplyLine (.stopCut id) s .perf (leavingFields p .stopped) (.ok [.num id, .word "REMOVED"]) })) ∧
  (∀ (id : Nat) (s : State) (p : Perf), unitOk 255 id = true → s.perf id = some p → canTake (.stopFinish id) s = true →
    (p.state = .stopping → AnsweredOnly (.stopFinish id) s (.ok [.num id, .word "STOPPING"])) ∧
    ((p.state = .admitted ∨ p.state = .running) → ∃ u q, exec (.stopFinish id) s = .next u ∧ u.perf id = some q ∧
      q = { p with state := .stopping, stop := .finish, kind := q.kind, stopPoint := q.stopPoint } ∧
      (∀ k, p.kind = .toll k → q.stopPoint = p.stopPoint ∧ u.voices = s.voices ∧ u.drives = s.drives ∧ q.kind =
        .toll { k with limit := some (match k.limit with | some n => min n (k.sent + 1) | none => k.sent + 1) }) ∧
      (∀ k, p.kind = .test k →
        q.kind = p.kind ∧ q.stopPoint = p.stopPoint ∧ u.voices = s.voices ∧ u.drives = s.drives) ∧
      (p.kind = .tune ∨ (∃ k, p.kind = .clock k) → q.kind = p.kind ∧ u.drives = s.drives ∧
        ∀ n, p.voice = some n → unitOk 4 n = true → let v := s.voice n
          ((∀ k, ¬Stops s p v k) → q.stopPoint = none ∧ u.voices = s.voices) ∧
          (∀ k, Stops s p v k → (∀ j, j < k → ¬Stops s p v j) → q.stopPoint = some k ∧
            u.voices = wr s.voices n { v with strokes := v.strokes.filter fun x => x.idx ≤ k })) ∧
      (∀ w, p.kind = .swing w → SwingOk w → q.kind = .swing w.stopped ∧ q.stopPoint = p.stopPoint ∧ u.voices = s.voices ∧
        DrivesLowered s u id w ∧ ∀ n, unitOk 4 n = true → n ∉ w.swinging s id → u.drive n = s.drive n) ∧
      u = { s with
        perfs := s.perfs.map fun x => if x.id = id then q else x, voices := u.voices, drives := u.drives
        line := replyLine (.stopFinish id) s (.ok [.num id, .word "STOPPING"]) })) ∧
  (∀ (id : Nat) (s : State) (p : Perf), unitOk 255 id = true → s.perf id = some p → p.state ≠ .waiting →
    canTake (.stopCut id) s = true →
    (p.stop = .cut → AnsweredOnly (.stopCut id) s (.ok [.num id, .word (perfStateName p.state)])) ∧
    (p.stop ≠ .cut → (∀ w, p.kind ≠ .swing w) →
      ∃ u, exec (.stopCut id) s = .next u ∧ CutTaken s u p ∧
        u.cfg = s.cfg ∧ u.tb = s.tb ∧ u.dials = s.dials ∧ u.drives = s.drives ∧ u.sched = s.sched) ∧
    (p.stop ≠ .cut → ∀ w, p.kind = .swing w → SwingOk w →
      ∃ u q, exec (.stopCut id) s = .next u ∧
        q = { p with state := .stopping, stop := .cut, kind := .swing w.stopped } ∧ DrivesCut s u id w ∧
        u = { s with
          perfs := s.perfs.map fun x => if x.id = id then q else x, drives := u.drives
          line := replyLine (.stopCut id) s (.ok [.num id, .word "STOPPING"]) }))

/-- A voice takes up its next event when its page is there, and stalls when it is not (R87, R88). A stall begins at the take-up
instant, the sound instant less the lead and 50 ms; where that would lie below run clock 0 the stall begins at 0: the model's
choice (log 64). -/
def Obligations.EventsAreTakenUp : Prop :=
  ∀ (v d : Nat) (s u : State) (p : Perf) (e : TimeEvent), unitOk 4 v = true → takeUpDue v s = some d →
    reachUs d s = some u → voicePerf u v = some p → nextEvent u p (u.voice v) = some e →
    ((u.voice v).hasPage e.page = true → ∃ t, exec (.eventTakeUp v) s = .next t ∧
      (t.voice v).idx = (u.voice v).idx + 1 ∧ (t.voice v).cum = e.cum ∧ (t.voice v).perf = (u.voice v).perf ∧
      (t.voice v).strokes = (u.voice v).strokes ++ (bellList e.bells).map (fun b =>
        { bell := b, intensity := e.intensity
          due := max u.now (e.sound - flyTime (u.bellCfg b) e.intensity), idx := (u.voice v).idx }) ∧
      t = { u with voices := wr u.voices v (t.voice v), store := t.store, line := u.line.pumped }) ∧
    ((u.voice v).hasPage e.page = false → exec (.eventTakeUp v) s = .next
      { u with voices := wr u.voices v { u.voice v with stall := some (e.sound - (p.lead + 50)) }, line := u.line.pumped })

/-- A waiting record expires with outcome EXPIRED, a cut record leaves with outcome CUT when its last driven pulse has
ended, and a performance whose timeline is complete ends: record, claims and voice are gone (R75, R92, R94, R97). -/
def Obligations.PerformancesLeaveTheTable : Prop :=
  (∀ (id d : Nat) (s u : State) (p : Perf), unitOk 255 id = true → expiryDue id s = some d → reachUs d s = some u →
    u.perf id = some p → exec (.waitExpiry id) s = .next { u with
      perfs := u.perfs.filter fun q => q.id ≠ id, line := noticeLine u .perf (leavingFields p .expired) }) ∧
  (∀ (id d : Nat) (s u : State) (p : Perf), unitOk 255 id = true → cutDue id s = some d → reachUs d s = some u →
    u.perf id = some p → exec (.cutRecordLeaves id) s = .next { u with
      perfs := u.perfs.filter fun q => q.id ≠ id, line := noticeLine u .perf (leavingFields p .cut) }) ∧
  (∀ (id d : Nat) (s u : State), unitOk 255 id = true → endDue id s = some d → reachUs d s = some u →
    ∃ t, exec (.performanceEnd id) s = .next t ∧ t.perf id = none ∧
      (∀ b, unitOk 24 b = true → ∀ c ∈ (t.bell b).claims, c.perf ≠ id) ∧
      (∀ v, unitOk 4 v = true → (t.voice v).perf ≠ some id) ∧
      t.cfg = u.cfg ∧ t.tb = u.tb ∧ t.dials = u.dials ∧ t.drives = u.drives ∧ t.sched = u.sched)

/-- The end of a performance is one event with one offer round (R92): claims removed, voice freed, scene withdrawn, notice
raised, record gone, and then every waiting performance is offered admission once, in the order of R74. One that fits at its
turn is admitted, its anchor counted from now (R83); one that does not fit stays as it was. -/
def Obligations.WaitingPerformancesAreOffered : Prop :=
  (∀ (id d : Nat) (s u : State) (p : Perf), unitOk 255 id = true → endDue id s = some d → reachUs d s = some u →
    u.perf id = some p → ∃ c t : State,
      c = { u with
        bells := u.bells.map fun x => { x with claims := x.claims.filter fun k => k.perf ≠ id }
        voices := u.voices.map fun x => if x.perf = some id then freeVoice else x
        perfs := u.perfs.filter fun q => q.id ≠ id
        lights := c.lights
        line := u.line.latched .perf (leavingFields p (match p.stop with
          | .none => .done | .finish => .finished | .cut => .cut)) } ∧
      Offered c t ∧ exec (.performanceEnd id) s = .next { t with line := t.line.pumped }) ∧
  (∀ (s : State) (q : Perf), s.perf q.id = some q → q.state = .waiting →
    (¬Fits s q → offerTo s q.id = s) ∧
    (Fits s q → let t := offerTo s q.id
      t.perf q.id = some { q with
        state := .admitted, order := some s.nextOrder
        voice := match q.kind with | .swing _ => none | _ => firstFree s
        anchor := some (q.anchor.getD (s.now + q.lead + 100)) } ∧
      (∀ id, id ≠ q.id → t.perf id = s.perf id) ∧ t.nextOrder = s.nextOrder + 1 ∧
      (∀ b, unitOk 24 b = true → t.bell b = { s.bell b with
        claims := (if bellIn q.bells b then [{ perf := q.id, level := q.level, order := s.nextOrder }] else []) ++
          (s.bell b).claims }) ∧
      (∀ v, (∀ w, q.kind ≠ .swing w) → firstFree s = some v → (t.voice v).perf = some q.id) ∧
      t = { s with
        bells := t.bells, perfs := t.perfs, nextOrder := t.nextOrder, voices := t.voices, lights := t.lights
        clock := t.clock, store := t.store }))

/-- A performance with a scene hands it over at its admission and withdraws it at its end (R93, R177): the contribution
stands in the order of level and admission, a channel's performance value is that of the first contribution that holds it,
and each channel whose value changes takes the fade of the scene that joins or leaves. So at an admission at once, of a TOLL and
of a PLAY, whose scene is the one named or else that of its slot, of a quarter and of a carried hour, with the clock's scene
(R111), and of any other creation, and at an admission in an offer round. -/
def Obligations.ScenesJoinAndLeave : Prop :=
  (∀ (b interval count : Nat) (i : Intensity) (wait scene : Option Nat) (s : State),
    let c := Instr.toll b interval count i wait scene
    canTake c s = true → unitOk 24 b = true → count ≤ 999 → sceneOk scene = true → s.perfs.length < 12 →
    claimsOpen s s.cfg.levels.toll (bellOne b) = true → firstFree s ≠ none →
    ∃ u, exec c s = .next u ∧ SceneJoined s u (nextId s) s.cfg.levels.toll s.nextOrder scene) ∧
  (∀ (n : Nat) (scale wait scene : Option Nat) (s : State), canTake (.play n scale wait scene) s = true →
    unitOk 64 n = true → sceneOk scene = true → (s.slot n).state = .closed → s.perfs.length < 12 →
    claimsOpen s s.cfg.levels.tune (s.slot n).bells = true → firstFree s ≠ none →
    ∃ u, exec (.play n scale wait scene) s = .next u ∧ SceneJoined s u (nextId s) s.cfg.levels.tune s.nextOrder
      (match scene with | some k => some k | none => (s.slot n).scene)) ∧
  (∀ (s : State) (b : Nat) (p : Perf),
    let k := s.clock.frontier
    let sh := shapeOf s k
    QuarterPasses s k → sh ≠ .noneByMode → sh ≠ .noneMissing → (StrikesHours sh → StrikesOn s b) → QuarterPerf s k sh b p →
    s.perfs.length < 12 → firstFree s ≠ none →
    (claimsOpen s s.cfg.levels.clock p.bells = true →
      SceneJoined s (evaluateFrontier s) (nextId s) s.cfg.levels.clock s.nextOrder s.cfg.clock.scene) ∧
    (claimsOpen s s.cfg.levels.clock p.bells = false → s.cfg.clock.carry = true → StrikesHours sh →
      claimsOpen s s.cfg.levels.clock (bellOne b) = true → SceneJoined s (evaluateFrontier s)
        (nextId { s with lastId := nextId s }) s.cfg.levels.clock s.nextOrder s.cfg.clock.scene)) ∧
  (∀ (p : Perf) (s u : State) (r : Created), createPerf p s = (u, r) →
    (∀ id, r = .admitted id → SceneJoined s u id p.level s.nextOrder p.scene) ∧
    ((∀ id, r ≠ .admitted id) → u.lights = s.lights)) ∧
  (∀ (s : State) (q : Perf), s.perf q.id = some q → q.state = .waiting → Fits s q →
    SceneJoined s (offerTo s q.id) q.id q.level s.nextOrder q.scene) ∧
  (∀ (id d : Nat) (s u : State), unitOk 255 id = true → endDue id s = some d → reachUs d s = some u →
    (∀ q ∈ u.perfs, q.state ≠ .waiting) →
    ∃ t, exec (.performanceEnd id) s = .next t ∧
      (∀ x, u.lights.contribs.find? (fun y => y.perf = id) = some x →
        ScenesBecome u t (u.lights.contribs.filter fun y => y.perf ≠ id) x.scene.fade) ∧
      ((∀ x ∈ u.lights.contribs, x.perf ≠ id) → t.lights = u.lights))

/-! ### Clock -/

/-- The shape of a quarter and its earliest release follow from the settings and the profiles as R108 and R109 say: QUARTER,
FULL HOUR, HOUR ONLY, or none by the mode or for want of a tune; the evaluation instant lies 5 s before the earliest release,
and the hour count is the local hour in 12-hour form. With the profiles in their ranges the evaluation instants come in the
order of the quarters (R109). -/
def Obligations.QuarterShapesAndReleases : Prop :=
  (∀ (s : State) (k : Nat),
    let c := s.cfg.clock
    let q := if k % 4 = 0 then 4 else k % 4
    let n := if q = 1 then c.q1 else if q = 2 then c.q2 else if q = 3 then c.q3 else c.q4
    let night := c.scope = .quarters ∧ NightCovers c (k % 96 * 15)
    let fits := fun (d : Nat) (e : Int) =>
      (∃ x, s.profile q = .ready x d e) ∧ (if q = 4 then d + 100 * c.gap else d) ≤ 840000
    let bare := q = 4 ∧ (c.mode = .hoursOnly ∨ (c.mode = .all ∧ (c.q4 = 0 ∨ night)))
    let f := (s.bellCfg c.hourBell).fNormal
    let h := k % 96 / 4 % 12
    let gives := fun (sh : Shape) (x : Int) => shapeOf s k = sh ∧ earliestRelease s k = (900000 * k : Nat) + x ∧
      evaluationAt s k = (900000 * k : Nat) + x - 5000
    (c.mode = .all → ¬night → n ≠ 0 → ∀ d e, fits d e →
      (q ≠ 4 → c.align = .start → gives (.quarter n d e) e) ∧
      (q ≠ 4 → c.align = .stop → gives (.quarter n d e) (e - d)) ∧
      (q = 4 → c.align = .start → gives (.fullHour n d e) (min e (d + (100 * c.gap : Nat) - f))) ∧
      (q = 4 → c.align = .stop →
        gives (.fullHour n d e) (min e (d + (100 * c.gap : Nat) - f) - (100 * c.gap : Nat) - d))) ∧
    (bare → gives .hourOnly (-(f : Int))) ∧
    ((c.mode = .off ∨ (c.mode = .hoursOnly ∧ q ≠ 4)) → gives .noneByMode 0) ∧
    (c.mode = .all → ¬bare → (n = 0 ∨ night ∨ ∀ d e, ¬fits d e) → gives .noneMissing 0) ∧
    (h = 0 → hourCount k = 12) ∧ (h ≠ 0 → hourCount k = h)) ∧
  (∀ (s : State) (k : Nat), ProfilesOk s → evaluationAt s k < evaluationAt s (k + 1) ∧
    (900000 * k : Nat) - 845400 ≤ evaluationAt s k ∧ evaluationAt s k ≤ (900000 * k : Nat) - 5000)

/-- At its evaluation instant the frontier quarter is evaluated, the frontier advances by one, and the evaluations go on while
the new frontier's instant is reached too (R110). The outcome is SKIPPED where the earliest release is not ahead, else the first
of the table of R111 that applies: UNSET, OFF, SILENCED, WITHHELD, MISSING and FAULTED create no performance, and but for the
outcome in the sheets (R114, R115) and the frontier nothing changes. -/
def Obligations.QuarterEvaluationAdvances : Prop :=
  (∀ (d : Nat) (s u : State), quarterDue s = some d → reachUs d s = some u →
    let t := evaluateFrontier u
    exec .quarterEvaluation s = .next { t with line := t.line.pumped } ∧ t.clock.frontier = u.clock.frontier + 1 ∧
      t.cfg = u.cfg ∧ t.tb = u.tb ∧ t.ref = u.ref ∧ t.cal = u.cal ∧ t.dials = u.dials ∧ t.drives = u.drives ∧
      t.sched = u.sched) ∧
  (∀ s : State,
    let k := s.clock.frontier
    let sh := shapeOf s k
    let out := QuarterRecorded s (evaluateFrontier s)
    (earliestRelease s k ≤ s.localMs → out .skipped) ∧
    ((s.localMs : Int) < earliestRelease s k →
      (s.tb.set = false → out .unset) ∧
      (s.tb.set = true → (s.line.mode = .service ∨ sh = .noneByMode) → out .off) ∧
      (s.tb.set = true → s.line.mode = .run → sh ≠ .noneByMode →
        (QuarterSilenced s k → out .silenced) ∧
        (¬QuarterSilenced s k → ¬InStep s → out .withheld) ∧
        (¬QuarterSilenced s k → InStep s → sh = .noneMissing → out .missing) ∧
        (¬QuarterSilenced s k → InStep s → StrikesHours sh → (∀ b, ¬StrikesOn s b) → out .faulted)))) ∧
  (∀ s : State, s.power.phase = .on → ProfilesOk s → s.tb.sub ≤ 1000000 →
    ∃ n, frontierLoop s = Nat.repeat evaluateFrontier n s ∧
      (∀ i, i < n → let w := Nat.repeat evaluateFrontier i s
        evaluationAt w w.clock.frontier ≤ w.localMs) ∧
      let w := Nat.repeat evaluateFrontier n s
      (w.localMs : Int) < evaluationAt w w.clock.frontier)

/-- A quarter that passes the checks of R111 creates its CLOCK performance, whose bells, lead, hours and anchor follow from
its shape and the struck bell (R108, R109, R112). Admitted at once, the quarter is SOUNDED; with a full table, or not admitted,
it is YIELDED, and the record is gone. With hour carry ON a yielded hour is carried in the same evaluation: LATE where the
hour-only performance is admitted, anchored at now and its lead and 100 ms, else it waits for up to 600 s and the slot keeps
YIELDED (R113). The local instant of the anchor is taken to the run clock in whole milliseconds of both: the model's reading (log
15). -/
def Obligations.QuartersSoundYieldAndCarry : Prop :=
  ∀ (s : State) (b : Nat),
    let k := s.clock.frontier
    let sh := shapeOf s k
    let t := evaluateFrontier s
    let level := s.cfg.levels.clock
    let recorded := fun (o : QuarterOutcome) =>
      ∃ d, OutcomeWritten s.clock d (k / 96 % 73049) (k % 96) o ∧ t.clock = { d with frontier := k + 1 }
    QuarterPasses s k → sh ≠ .noneByMode → sh ≠ .noneMissing → (StrikesHours sh → StrikesOn s b) →
    (12 ≤ s.perfs.length → QuarterRecorded s t .yielded) ∧
    (s.perfs.length < 12 → ∃ p : Perf, QuarterPerf s k sh b p ∧
      (∀ v, claimsOpen s level p.bells = true → firstFree s = some v →
        let anchor := ((s.now : Int) + quarterAnchor s.cfg.clock k sh - s.localMs).toNat
        AdmittedAtOnce s { t with clock := s.clock } p.bells level anchor (some v) ∧ t.line = s.line ∧
        t.perf (nextId s) = some { p with
          id := nextId s, state := .admitted, reqAt := s.now, order := some s.nextOrder, voice := some v
          anchor := some anchor } ∧
        recorded .sounded) ∧
      (claimsOpen s level p.bells = false ∨ firstFree s = none →
        let w := { s with lastId := nextId s }
        (s.cfg.clock.carry = false ∨ ¬StrikesHours sh → QuarterRecorded w t .yielded) ∧
        (s.cfg.clock.carry = true → StrikesHours sh → ∃ x : Perf,
          QuarterPerf s k .hourOnly b { x with
            kind := match x.kind with | .clock y => .clock { y with carried := false } | y => y, wait := 0 } ∧
          (∃ y, x.kind = .clock y ∧ y.carried = true) ∧
          (∀ v, claimsOpen s level (bellOne b) = true → firstFree s = some v →
            let anchor := s.now + (s.bellCfg b).fNormal + 100
            AdmittedAtOnce w { t with clock := s.clock } (bellOne b) level anchor (some v) ∧ t.line = s.line ∧
            t.perf (nextId w) = some { x with
              id := nextId w, state := .admitted, reqAt := s.now, order := some s.nextOrder, voice := some v
              anchor := some anchor } ∧
            recorded .late) ∧
          (claimsOpen s level (bellOne b) = false ∨ firstFree s = none →
            x.id = nextId w ∧ x.state = .waiting ∧ x.wait = 600 ∧ x.reqAt = s.now ∧ x.anchor = none ∧ x.voice = none ∧
            recorded .yielded ∧
            t = { s with lastId := nextId w, perfs := s.perfs ++ [x], clock := t.clock }))))

/-- The day sheets meet the local date: at a second that counting brings to local midnight, and at every step of the time, the
sheets roll (R116). A small step leaves the frontier, and a forward one runs the frontier loop. A large one first removes the
CLOCK records in ADMITTED, whose slots return to PENDING, and the carried hours that wait, each with a PERF notice of outcome
CANCELLED, whatever else is in the table; where one in ADMITTED is among them the others that wait are offered admission; the frontier
then stands, or goes back to the earliest quarter ahead, and the earliest cancelled quarter where that is earlier; then the loop
runs, and the Schedule Table answers (R94, R117, R167); in SERVICE the table stays as it then is. At the first setting TODAY and YESTERDAY are dated anew, the quarters before the set time are UNSET and the others
PENDING, the frontier is the earliest quarter not before the set time, and the loop runs (R118). The step of R4 comes by TIME
SET, without a change of the summer-time flag. The model's readings and choices in it: a repeated flag that is set stays set at the
return to PENDING (log 83), the flags and counts of a sheet dated anew are clear (log 90), the carried hours go first (log 59), a
carried hour that stands ADMITTED is cancelled as any other (log 43), and the Clock Strike Unit takes
an announcement before the Schedule Table, so that the loop finds the silence ends as they stood (log 16). -/
def Obligations.DaySheetsMeetTheTime : Prop :=
  (∀ s : State, s.power.phase = .on → s.tb.secs + 1 < 73049 * 86400 → inForce s.cfg.summer (s.tb.secs + 1) = s.tb.flag →
    (s.tb.secs + 1 + s.offset) % (73049 * 86400) % 86400 = 0 →
    ∃ t, exec .secondEnd s = .next t ∧
      SheetsRolled s.clock t.clock ((s.tb.secs + 1 + s.offset) % (73049 * 86400) / 86400)) ∧
  (∀ (d : DateF) (tm : TimeF) (z : Option Zone) (s : State) (l : Nat), canTake (.timeSet d tm z) s = true →
    tm.ms ≤ 999 → convert s d tm z = some l → inForce s.cfg.summer l = s.tb.flag → ProfilesOk s →
    let move := (1000000 * l + 1000 * tm.ms : Nat) - (s.stdUs : Int)
    let kept := fun (w : State) => w.tb = { s.tb with secs := l, sub := 1000 * tm.ms } ∧
      w = { s with tb := w.tb, ref := w.ref, cal := w.cal, clock := w.clock, line := w.line }
    ∃ t, exec (.timeSet d tm z) s = .next t ∧
      let runs := fun (w : State) => t.clock = (frontierLoop w).clock ∧ (s.line.mode = .service → t.perfs = w.perfs) ∧
        let x := schedLarge (decide (0 < move)) (frontierLoop w)
        t = { x with ref := t.ref, line := (x.line.answered (.ready (.ok [.num (roundHalfAway move 1000)]) none)).pumped }
      (s.tb.set = true → move ≠ 0 → move.natAbs < 1000000 → ∃ w, kept w ∧
        SheetsRolled s.clock w.clock w.localDay ∧
        (0 < move → t.clock = (frontierLoop w).clock) ∧ (move < 0 → t.clock = w.clock)) ∧
      (s.tb.set = true → 1000000 ≤ move.natAbs →
        (∀ p x, p ∈ s.perfs → p.kind = .clock x → p.state ≠ .admitted ∧ p.state ≠ .waiting) → ∃ w r, kept w ∧
        SheetsRolled s.clock r w.localDay ∧ w.clock = { r with frontier := w.clock.frontier } ∧
        (0 < move → w.clock.frontier = s.clock.frontier) ∧ (move < 0 → FirstAhead w w.clock.frontier) ∧ runs w) ∧
      (s.tb.set = true → 1000000 ≤ move.natAbs → (s.perfs.map (·.id)).Nodup → ∃ v w,
        v = { s with
          tb := { s.tb with secs := l, sub := 1000 * tm.ms }, ref := v.ref, cal := v.cal
          line := (arrived (.timeSet d tm z) s).line.latched .time
            [.word "STEP", .num (roundHalfAway move 1000), .word "LINE"] } ∧
        MovedFar v w (decide (0 < move)) ∧ runs w)) ∧
  (∀ (c : ClockUnit) (date k : Nat), k < 96 → SlotReturned c (clearOutcome date k c) date k) ∧
  (∀ (d : DateF) (tm : TimeF) (z : Option Zone) (s : State) (l : Nat), canTake (.timeSet d tm z) s = true →
    tm.ms ≤ 999 → convert s d tm z = some l → s.tb.set = false →
    let unset : SheetSlot := { outcome := .unset, masked := 0, repeated := false }
    ∃ t w, exec (.timeSet d tm z) s = .next t ∧
      w.tb = { s.tb with secs := l, sub := 1000 * tm.ms, set := true, flag := w.tb.flag } ∧
      w = { s with tb := w.tb, cal := w.cal, clock := w.clock, line := w.line } ∧
      w.clock.today.date = some w.localDay ∧ w.clock.early = none ∧
      (0 < w.localDay → w.clock.yesterday.date = some (w.localDay - 1)) ∧
      (∀ k, k < 96 → rd w.clock.yesterday.slots (k + 1) default = unset ∧
        (1000000 * (86400 * w.localDay + 900 * k) < w.localUs → rd w.clock.today.slots (k + 1) default = unset) ∧
        (w.localUs ≤ 1000000 * (86400 * w.localDay + 900 * k) →
          rd w.clock.today.slots (k + 1) default = pendingSlot)) ∧
      w.localUs ≤ 900000000 * w.clock.frontier ∧
      (∀ j, j < w.clock.frontier → 900000000 * j < w.localUs) ∧
      w.clock = { s.clock with
        today := w.clock.today, yesterday := w.clock.yesterday, early := none, frontier := w.clock.frontier } ∧
      t.clock = (frontierLoop w).clock)

/-! ### Swinging -/

/-- A SWING's start that finds its drive DOWN or SETTLING takes it into RAISING with its first kick and its lowering instant,
with the SWING notice; a drive in any other state stays as it is and is done at once. The start counts as made, and the record
is RUNNING (R80, R127, R130, R135; that a performance for which the drive was settling is not told is the model's reading, log
51). Kicks end (R125), a lowering instant takes a drive to LOWERING (R131), and a drive that has settled enters DOWN and hands
its arrival back (R126, R135). The three faults of a swinging drive release its outputs, record their cause, raise the SWING
notice and hand back (R128, R129, R131, R132, R135); SWING CLEAR returns a still drive to DOWN and refuses a moving one ACTIVE
(R133). -/
def Obligations.SwingStartsTimersAndFaults : Prop :=
  (∀ (id d j : Nat) (s u : State) (p : Perf) (w : SwingParams) (x : SwingStart), unitOk 255 id = true →
     startDue id s = some d → reachUs d s = some u → u.perf id = some p → p.kind = .swing w →
     w.coming.head? = some (x, j) → unitOk 4 x.drive = true →
     let made := fun (t : State) (done : Bool) => ∃ q, t.perf id = some q ∧
       q = { p with
         state := if p.state = .admitted then .running else p.state
         kind := .swing { w with drives := w.drives.map fun y =>
           if y.drive = x.drive then { y with started := true, done := y.done || done } else y } } ∧
       (∀ k, k ≠ id → t.perf k = u.perf k)
     ∃ t, exec (.driveStart id) s = .next t ∧
       ((u.drive x.drive).state = .down ∨ (u.drive x.drive).state = .settling → made t false ∧ t = { u with
         drives := wr u.drives x.drive { u.drive x.drive with
           state := .raising, perf := some id, entry := u.now, run := 0, flag := false, seen := false
           lowerAt := if w.duration = 0 then none else some (u.now + 60000 * w.duration)
           motor := some (u.now + (u.driveCfg x.drive).half * 25) }
         perfs := t.perfs, line := noticeLine u .swing [.num x.drive, .word "RAISING"] }) ∧
       ((u.drive x.drive).state = .fault ∨ (u.drive x.drive).state = .raising ∨ (u.drive x.drive).state = .ringing ∨
         (u.drive x.drive).state = .lowering → made t true ∧ t = { u with perfs := t.perfs, line := u.line.pumped })) ∧
  (∀ (n d : Nat) (s u : State), unitOk 4 n = true → kickDue n s = some d → reachUs d s = some u →
    exec (.kickEnd n) s = .next { u with drives := wr u.drives n { u.drive n with motor := none }, line := u.line.pumped }) ∧
  (∀ (n d : Nat) (s u : State), unitOk 4 n = true → brakeDue n s = some d → reachUs d s = some u →
    exec (.brakeKickEnd n) s = .next
      { u with drives := wr u.drives n { u.drive n with brakeOut := none }, line := u.line.pumped }) ∧
  (∀ (n d : Nat) (s u : State), unitOk 4 n = true → lowerDue n s = some d → reachUs d s = some u →
    exec (.loweringInstant n) s = .next { u with
      drives := wr u.drives n { u.drive n with state := .lowering, entry := u.now, motor := none, run := 0 }
      line := noticeLine u .swing [.num n, .word "LOWERING"] }) ∧
  (∀ (n d : Nat) (s u : State), unitOk 4 n = true → settleDue n s = some d → reachUs d s = some u →
    ∃ t, exec (.settleExpiry n) s = .next t ∧ HandedBack u t n ∧
      t = { u with
        drives := wr u.drives n { u.drive n with
          state := .down, entry := u.now, motor := none, brakeOut := none, perf := none }
        perfs := t.perfs, line := u.line.pumped }) ∧
  (∀ (n d : Nat) (s u : State), unitOk 4 n = true → reachUs d s = some u →
    let faulted := fun (cause : SwingCause) (t : State) => HandedBack u t n ∧
      t = { u with
        drives := wr u.drives n { u.drive n with
          state := .fault, cause := cause, entry := u.now, motor := none, brakeOut := none, lowerAt := none
          brake := false, perf := none }
        perfs := t.perfs, line := noticeLine u .swing [.num n, .word "FAULT", .word (swingCauseName cause)] }
    (noStartDue n s = some d → ∃ t, exec (.noStart n) s = .next t ∧ faulted .noStart t) ∧
    (raiseDue n s = some d → ∃ t, exec (.raiseLimit n) s = .next t ∧ faulted .raiseLimit t) ∧
    (noBottomDue n s = some d → ∃ t, exec (.noBottom n) s = .next t ∧ faulted .noBottom t)) ∧
  (∀ (n : Nat) (s : State), unitOk 4 n = true → canTake (.swingClear n) s = true →
    let still := ∀ t, (s.drive n).lastBottom = some t → t + 1000 * (s.driveCfg n).settle ≤ s.now
    ((s.drive n).state ≠ .fault → AnsweredOnly (.swingClear n) s (.ok [.word (swingStateName (s.drive n).state)])) ∧
    ((s.drive n).state = .fault → ¬still → AnsweredOnly (.swingClear n) s (.no .active [])) ∧
    ((s.drive n).state = .fault → still → exec (.swingClear n) s = .next { s with
      drives := wr s.drives n { s.drive n with state := .down, cause := .none, entry := s.now }
      line := noticeReplyLine (.swingClear n) s .swing [.num n, .word "DOWN", .word "CLEAR"] (.ok [.word "DOWN"]) }))

/-- Every bottom pulse times the swing, counts it and clears the swing flag (R125). In RAISING each gives a kick but the one that
takes the drive to RINGING, after four full swings in a row (R128); in RINGING a swing that fell short gives one (R129); in DOWN
the drive enters SETTLING (R126). In LOWERING four clear swings in a row take the drive to SETTLING, and before that each pulse
gives a brake kick where the brake is chosen and fitted (R131; that the first pulse is judged too where the drive was lowered
before any is the model's reading, log 67). An amplitude pulse sets the flag but in DOWN and FAULT (R125). -/
def Obligations.SwingPulses : Prop :=
  (∀ (w n : Nat) (s u : State), unitOk 4 n = true → elapse w s = some u → u.power.phase = .on →
    let x := u.drive n
    let kick := some (u.now + (u.driveCfg n).half * 25)
    let becomes := fun (y : Drive) (line : Line) => exec (.bottomPulse w n) s = .next { u with
      drives := wr u.drives n { y with
        half := (match x.lastBottom with | some l => some (u.now - l) | none => x.half)
        lastBottom := some u.now, swings := min (x.swings + 1) 65535, flag := false }
      line := line }
    let notice := fun (word : String) => noticeLine u .swing [.num n, .word word]
    (x.state = .down → becomes { x with state := .settling, entry := u.now } (notice "MOVING")) ∧
    (x.state = .settling ∨ x.state = .fault → becomes x u.line.pumped) ∧
    (x.state = .raising →
      (x.seen = false → becomes { x with seen := true, motor := kick } u.line.pumped) ∧
      (x.seen = true → x.flag = false → becomes { x with run := 0, motor := kick } u.line.pumped) ∧
      (x.seen = true → x.flag = true → x.run ≠ 3 → becomes { x with run := x.run + 1, motor := kick } u.line.pumped) ∧
      (x.seen = true → x.flag = true → x.run = 3 →
        becomes { x with run := 4, state := .ringing, entry := u.now, motor := none } (notice "RINGING"))) ∧
    (x.state = .ringing →
      (x.flag = true → becomes x u.line.pumped) ∧ (x.flag = false → becomes { x with motor := kick } u.line.pumped)) ∧
    (x.state = .lowering →
      let brake := if x.brake = true ∧ (u.driveCfg n).brake = true then kick else x.brakeOut
      (x.flag = true → becomes { x with run := 0, brakeOut := brake } u.line.pumped) ∧
      (x.flag = false → x.run ≠ 3 → becomes { x with run := x.run + 1, brakeOut := brake } u.line.pumped) ∧
      (x.flag = false → x.run = 3 → becomes { x with
        run := 4, state := .settling, entry := u.now, motor := none, brakeOut := none, brake := false, lowerAt := none }
        (notice "SETTLING")))) ∧
  (∀ (w n : Nat) (s u : State), unitOk 4 n = true → elapse w s = some u → u.power.phase = .on →
    (((u.drive n).state = .down ∨ (u.drive n).state = .fault) →
      exec (.amplitudePulse w n) s = .next { u with line := u.line.pumped }) ∧
    ((u.drive n).state ≠ .down → (u.drive n).state ≠ .fault → exec (.amplitudePulse w n) s = .next
      { u with drives := wr u.drives n { u.drive n with flag := true }, line := u.line.pumped }))

/-- PANEL TOLL, SWING CONFIG, LIGHT CONFIG and LINE RATE in SERVICE write their settings, clamped, and nothing else but
what the rule of each names (R121, R123, R172, R182, R194). SCENE WRITE replaces a scene and touches no copy of it (R173);
LIGHT SITE writes the site settings, and while the time is UNSET applies the fallback afresh (R174, R186). -/
def Obligations.SettingsAndScenesAreWritten : Prop :=
  (∀ (c : PanelTollCfg) (s : State), canTake (.panelToll c) s = true → s.line.mode = .service →
    unitOk 24 c.bell = true → sceneOk c.scene = true → exec (.panelToll c) s = .next { s with
      cfg := { s.cfg with panelToll := { c with interval := min (max c.interval 10) 600, wait := min c.wait 600 } }
      line := replyLine (.panelToll c) s (.ok []) }) ∧
  (∀ (n : Nat) (c : SwingCfg) (s : State), canTake (.swingConfig n c) s = true → s.line.mode = .service →
    unitOk 4 n = true → c.bell ≤ 24 →
    ((s.drive n).state ≠ .down → AnsweredOnly (.swingConfig n c) s (.no .active [])) ∧
    ((s.drive n).state = .down → exec (.swingConfig n c) s = .next { s with
      cfg := { s.cfg with swings := wr s.cfg.swings n { c with
        raise := min (max c.raise 60) 600, settle := min (max c.settle 10) 120, half := min (max c.half 5) 30 } }
      line := replyLine (.swingConfig n c) s (.ok []) })) ∧
  (∀ (n : Nat) (c : LightCfg) (s : State), canTake (.lightConfig n c) s = true → s.line.mode = .service →
    nameOk 12 c.name = true → unitOk 16 n = true → c.nominal ≤ 255 →
    exec (.lightConfig n c) s = .next { s with
      cfg := { s.cfg with lights := wr s.cfg.lights n { c with
        lampout := min (max c.lampout 40) 90, overPct := min (max c.overPct 120) 250
        floor := min (max c.floor 256) 4095 } }
      lights := { s.lights with
        chans := wr s.lights.chans n { s.chan n with
          run := none, lamp := if (s.chan n).lamp = .tripped then .tripped else .unchecked }
        conv := s.lights.conv.map fun m => if m.channel = some n then { m with spoiled := true } else m }
      line := replyLine (.lightConfig n c) s (.ok []) }) ∧
  (∀ (r : Nat) (s : State), canTake (.lineRate r) s = true → s.line.mode = .service →
    (r = 9600 ∨ r = 19200 ∨ r = 38400) → exec (.lineRate r) s = .next
      { s with cfg := { s.cfg with rate := r }, line := replyLine (.lineRate r) s (.ok []) }) ∧
  (∀ (k fade : Nat) (ps : List (Nat × Nat)) (s : State), canTake (.sceneWrite k fade ps) s = true →
    (Instr.sceneWrite k fade ps).wellFormed = true → unitOk 32 k = true → ps.all (fun p => unitOk 16 p.1) = true →
    ∃ sc, exec (.sceneWrite k fade ps) s = .next { s with
        cfg := { s.cfg with scenes := wr s.cfg.scenes k sc }, line := replyLine (.sceneWrite k fade ps) s (.ok []) } ∧
      sc.fade = min fade 6000 ∧ (∀ n l, (n, l) ∈ ps → rd sc.levels n none = some (min l 4095)) ∧
      (∀ n, unitOk 16 n = true → (∀ l, (n, l) ∉ ps) → rd sc.levels n none = none)) ∧
  (∀ (c : SiteCfg) (s : State), canTake (.lightSite c) s = true → s.line.mode = .service →
    c.fallback ≤ 32 → c.threshold ≤ 255 → c.hysteresis ≤ 64 →
    let site := { c with panelLevel := min c.panelLevel 4095, panelFade := min c.panelFade 6000 }
    (s.tb.set = true → exec (.lightSite c) s = .next { s with
      cfg := { s.cfg with site := site }, line := replyLine (.lightSite c) s (.ok []) }) ∧
    (s.tb.set = false → ∃ u, exec (.lightSite c) s = .next u ∧
      SceneLaid s u (if s.lights.dusk = .dark then s.scene c.fallback else darkScene) ∧
      u = { s with
        cfg := { s.cfg with site := site }, lights := { s.lights with chans := u.lights.chans, conv := u.lights.conv }
        line := replyLine (.lightSite c) s (.ok []) }))

/-! ### Tune store -/

/-- SLOT OPEN, PAGE and SLOT CLOSE load a tune: the slot is WRITING and holds the loading record, each part joins it and a
new sector is allocated where a page begins one, and the close records the counts (R141, R146, R147, R148). What each adds to the
operation queue: the open and each new sector a directory write, the last part of a page its program, filled with the empty
event, and the close the program of a page begun, with the closing directory write. -/
def Obligations.TuneLoading : Prop :=
  let filled := fun (es : List Event) => es ++ List.replicate (32 - es.length) Event.empty
  (∀ (n tempo division : Nat) (scene : Option Nat) (title : String) (s : State),
    canTake (.slotOpen n tempo division scene title) s = true → nameOk 24 title = true → unitOk 64 n = true →
    20 ≤ tempo → tempo ≤ 240 → divisionOk division = true → sceneOk scene = true → (s.slot n).state = .empty →
    s.store.load = none → hasRoom 1 s = true →
    ∃ u, exec (.slotOpen n tempo division scene title) s = .next u ∧
      u.slot n = { state := .writing, title := title, tempo := tempo, division := division, scene := scene
                   bells := 0#24, events := 0, pages := 0, sectors := [] } ∧
      u.store.load = some { slot := n, page := 0, part := 1, received := 0, bells := 0#24, openPage := [], ended := false } ∧
      (∀ m, unitOk 64 m = true → m ≠ n → u.slot m = s.slot m) ∧ u.store.free = s.store.free ∧
      u.store.entries = s.store.entries ++ [.dirWrite n .plain] ∧
      u = { s with store := u.store, line := replyLine (.slotOpen n tempo division scene title) s (.ok []) }) ∧
  (∀ (n k part : Nat) (es : List EventWord) (s : State) (l : Loading), canTake (.page n k part es) s = true →
    (Instr.page n k part es).wellFormed = true → unitOk 64 n = true → s.store.load = some l → l.slot = n →
    l.ended = false → l.page = k → l.part = part → k ≤ 255 → unitOk 4 part = true →
    (newSector k part = true ∨ part = 4 → hasRoom 1 s = true) →
    (newSector k part = true → (s.slot n).sectors.length < 4 ∧ s.store.free ≠ []) →
    ∃ u, exec (.page n k part es) s = .next u ∧
      u.store.load = some { l with
        received := l.received + es.length
        bells := (es.map Event.ofWord).foldl (fun m e => m ||| e.bells) l.bells
        ended := decide (es.length < 8)
        page := if part = 4 then k + 1 else k
        part := if part = 4 then 1 else part + 1
        openPage := if part = 4 then [] else l.openPage ++ es.map Event.ofWord } ∧
      (newSector k part = true → ∃ sec free, s.store.free = sec :: free ∧
        u.slot n = { s.slot n with sectors := (s.slot n).sectors ++ [sec] } ∧ u.store.free = free) ∧
      (newSector k part = false → u.slot n = s.slot n ∧ u.store.free = s.store.free) ∧
      (∀ m, unitOk 64 m = true → m ≠ n → u.slot m = s.slot m) ∧
      (newSector k part = true → u.store.entries = s.store.entries ++ [.dirWrite n .plain]) ∧
      (∀ sec, part = 4 → (s.slot n).sectors[k / 16]? = some sec → u.store.entries = s.store.entries ++
        [.program n sec (k % 16) (filled (l.openPage ++ es.map Event.ofWord))]) ∧
      (newSector k part = false → part ≠ 4 → s.store.resume = [] → u.store.entries = s.store.entries) ∧
      u = { s with store := u.store, line := replyLine (.page n k part es) s (.ok [.num (l.received + es.length : Nat)]) }) ∧
  (∀ (n count : Nat) (s : State) (l : Loading), canTake (.slotClose n count) s = true → unitOk 64 n = true →
    count ≤ 2048 → s.store.load = some l → l.slot = n →
    (count ≠ l.received → AnsweredOnly (.slotClose n count) s (.no .count [])) ∧
    (count = l.received → hasRoom (if l.openPage = [] then 1 else 2) s = true →
      ∃ u, exec (.slotClose n count) s = .next u ∧ u.store.load = none ∧
      u.slot n = { s.slot n with events := count, pages := (count + 31) / 32, bells := l.bells } ∧
      (∀ m, unitOk 64 m = true → m ≠ n → u.slot m = s.slot m) ∧ u.store.free = s.store.free ∧
      (l.openPage = [] → u.store.entries = s.store.entries ++ [.dirWrite n .closing]) ∧
      (∀ sec, l.openPage ≠ [] → (s.slot n).sectors[l.page / 16]? = some sec → u.store.entries = s.store.entries ++
        [.program n sec (l.page % 16) (filled l.openPage), .dirWrite n .closing]) ∧
      u = { s with
        store := u.store, line := replyLine (.slotClose n count) s (.ok [.num ((count + 31) / 32 : Nat)]) }))

/-- SLOT ERASE refuses a slot that a record names, answers for an EMPTY or ERASING one, and puts any other into ERASING with
its entries queued: the ERASING record, each sector's erase, the closing record; it abandons the load of a WRITING slot, and
a CLOSED slot's profiles become NONE (R107, R149). SAVE queues the erase of its target and six programs of the image as it
stands now, and answers its sequence, one above the greatest (R152, R199); with no VALID sector and no SAVE taken, that is 1:
the model's reading (log 33). -/
def Obligations.SlotEraseAndSave : Prop :=
  (∀ (n : Nat) (s : State), canTake (.slotErase n) s = true → unitOk 64 n = true →
    let x := s.slot n
    let held := ∃ l, s.store.load = some l ∧ l.slot = n
    let added : List QueueOp := if x.sectors = [] then [.dirWrite n .final]
      else .dirWrite n .plain :: x.sectors.map (QueueOp.erase n) ++ [.dirWrite n .final]
    let kept := s.store.queue.filter fun q => match q with
      | .program k _ _ _ => k ≠ n
      | .dirWrite k _ => k ≠ n
      | _ => true
    let erased := fun (u : State) (load : Option Loading) (queue : List QueueOp) =>
      u.slot n = { x with state := .erasing } ∧ (∀ m, unitOk 64 m = true → m ≠ n → u.slot m = s.slot m) ∧
      u.store.load = load ∧ u.store.free = s.store.free ∧
      u.store.entries = ({ s.store with queue := queue } : Store).entries ++ added
    let room := fun (queue : List QueueOp) => s.store.resume = [] ∧ queue.length + added.length ≤ 8
    (slotUsers s n ≠ 0 → AnsweredOnly (.slotErase n) s (.no .used [])) ∧
    (slotUsers s n = 0 → x.state = .empty → AnsweredOnly (.slotErase n) s (.ok [.word "EMPTY"])) ∧
    (slotUsers s n = 0 → x.state = .erasing → AnsweredOnly (.slotErase n) s (.ok [.word "ERASING"])) ∧
    (slotUsers s n = 0 → (x.state = .closed ∨ x.state = .incomplete ∨ (x.state = .writing ∧ ¬held)) →
      ¬room s.store.queue → AnsweredOnly (.slotErase n) s (.no .busy [])) ∧
    (slotUsers s n = 0 → x.state = .writing → held → ¬room kept → AnsweredOnly (.slotErase n) s (.no .busy [])) ∧
    (slotUsers s n = 0 → (x.state = .incomplete ∨ (x.state = .writing ∧ ¬held)) → room s.store.queue →
      ∃ u, exec (.slotErase n) s = .next u ∧ erased u s.store.load s.store.queue ∧
        u = { s with store := u.store, line := replyLine (.slotErase n) s (.ok [.word "ERASING"]) }) ∧
    (slotUsers s n = 0 → x.state = .writing → held → room kept →
      ∃ u, exec (.slotErase n) s = .next u ∧ erased u none kept ∧
        u = { s with store := u.store, line := replyLine (.slotErase n) s (.ok [.word "ERASING"]) }) ∧
    (slotUsers s n = 0 → x.state = .closed → room s.store.queue →
      ∃ u, exec (.slotErase n) s = .next u ∧ erased u s.store.load s.store.queue ∧
        (∀ q, unitOk 4 q = true → quarterSlot s.cfg.clock q = n → u.profile q = .none) ∧
        (∀ q, unitOk 4 q = true → quarterSlot s.cfg.clock q ≠ n → u.profile q = s.profile q) ∧
        u.cfg = s.cfg ∧ u.tb = s.tb ∧ u.dials = s.dials ∧ u.drives = s.drives ∧ u.sched = s.sched ∧
        u.line = replyLine (.slotErase n) s (.ok [.word "ERASING"]))) ∧
  (∀ s : State, canTake .save s = true →
    ((s.store.resume ≠ [] ∨ 1 < s.store.queue.length) → AnsweredOnly .save s (.no .busy [])) ∧
    (s.store.resume = [] → s.store.queue.length ≤ 1 → ∃ u b q, exec .save s = .next u ∧
      u.store.saveSeq = some q ∧ u.store.saveTarget = some b ∧
      (∀ a p im, imageOf (imageSector a s.store) = some (p, im) → p < q) ∧ (∀ p, s.store.saveSeq = some p → p < q) ∧
      (q = 1 ∨ (∃ a im, imageOf (imageSector a s.store) = some (q - 1, im)) ∨ s.store.saveSeq = some (q - 1)) ∧
      (∀ a, s.store.saveTarget = some a → b = !a) ∧
      (∀ a p im, s.store.saveTarget = none → currentImage s.store = some (a, p, im) → b = !a) ∧
      (s.store.saveTarget = none → currentImage s.store = none → b = false) ∧
      u.store.entries = s.store.entries ++ .imageErase b :: (List.range 6).map (fun p =>
        QueueOp.imageProgram b p q { refOn := decide (s.ref.state ≠ .off), settings := s.cfg }) ∧
      u.store.slots = s.store.slots ∧ u.store.free = s.store.free ∧
      u = { s with store := u.store, line := replyLine .save s (.ok [.num q]) }))

/-- The four ends of operations: a read fills the page buffer that waits for it, a program writes its page, an erase blanks
its sector, takes it out of its slot's list and gives it back to the free list, a directory write puts its record on the array
and, the closing one, a WRITING slot into CLOSED, the final one an ERASING slot into EMPTY, each with its STORE notice (R82, R138,
R140 to R143, R148, R149). A write whose slot has left that state moves nothing (R140). An image erase blanks the target sector,
an image program puts one page of the image into it, and the sixth raises the STORE notice SAVED with the sequence (R152; that
each page carries the sequence and the whole content is the model's choice, log 22). Of the store nothing else changes but that
the next operation may begin, held resumptions may join the queue, and at CLOSED profile builds may ask for reads (R107, R142, R153). -/
def Obligations.StoreOperationsEnd : Prop :=
  -- `x` as the next operation leaves it: entries and reads may have begun, held resumptions may have joined the queue
  let goesOn := fun (x y : Store) => y = { x with op := y.op, queue := y.queue, reads := y.reads, resume := y.resume }
  let sent := fun (u t : State) => u.power.phase = .on → t.line = u.line.pumped
  (∀ (d v at' k : Nat) (s u : State) (q : ReadReq) (es : List Event) (src : Option (Bool × Nat × Image)),
    opDue isRead s = some d → reachUs d s = some u → u.store.op = some (.read q es src, at') → q.reader = .voice v →
    unitOk 4 v = true → (u.voice v).stall = none → (u.voice v).current = .reading k q.serial →
    ∃ t, exec .pageReadEnd s = .next t ∧ (t.voice v).current = .loaded k es ∧ (t.voice v).idx = (u.voice v).idx ∧
      goesOn u.store t.store ∧ sent u t ∧
      t = { u with voices := wr u.voices v (t.voice v), store := t.store, line := t.line }) ∧
  (∀ (d n sec pg at' : Nat) (s u : State) (es : List Event), opDue isProgram s = some d → reachUs d s = some u →
    u.store.op = some (.queued (.program n sec pg es), at') → sec < 64 → pg < 16 →
    ∃ t, exec .pageProgramEnd s = .next t ∧ pageAt t.store sec pg = es ∧
      (∀ a b, (a < 64 ∧ b < 16) → (a ≠ sec ∨ b ≠ pg) → pageAt t.store a b = pageAt u.store a b) ∧
      goesOn { u.store with sectors := t.store.sectors } t.store ∧ sent u t ∧
      t = { u with store := t.store, line := t.line }) ∧
  (∀ (d n sec at' : Nat) (s u : State), opDue isErase s = some d → reachUs d s = some u →
    u.store.op = some (.queued (.erase n sec), at') → unitOk 64 n = true → sec < 64 →
    ∃ t, exec .sectorEraseEnd s = .next t ∧
      t.slot n = { u.slot n with sectors := (u.slot n).sectors.filter (· ≠ sec) } ∧
      (∀ m, unitOk 64 m = true → m ≠ n → t.slot m = u.slot m) ∧
      (sec ∉ u.store.free → t.store.free.Perm (sec :: u.store.free)) ∧ (sec ∈ u.store.free → t.store.free = u.store.free) ∧
      (∀ pg, pg < 16 → pageAt t.store sec pg = List.replicate 32 Event.empty) ∧
      (∀ a pg, a < 64 → pg < 16 → a ≠ sec → pageAt t.store a pg = pageAt u.store a pg) ∧
      goesOn { u.store with sectors := t.store.sectors, slots := t.store.slots, free := t.store.free } t.store ∧ sent u t ∧
      t = { u with store := t.store, line := t.line }) ∧
  (∀ (d at' : Nat) (b : Bool) (s u : State), opDue isErase s = some d → reachUs d s = some u →
    u.power.phase = .on → u.store.op = some (.queued (.imageErase b), at') →
    ∃ t, exec .sectorEraseEnd s = .next t ∧ (∀ p, unitOk 6 p = true → rd (imageSector b t.store) p none = none) ∧
      imageSector (!b) t.store = imageSector (!b) u.store ∧
      goesOn { u.store with imgA := t.store.imgA, imgB := t.store.imgB } t.store ∧
      t = { u with store := t.store, line := u.line.pumped }) ∧
  (∀ (d pg seq at' : Nat) (b : Bool) (im : Image) (s u : State), opDue isProgram s = some d → reachUs d s = some u →
    u.power.phase = .on → u.store.op = some (.queued (.imageProgram b pg seq im), at') → pg < 6 →
    ∃ t, exec .pageProgramEnd s = .next t ∧ rd (imageSector b t.store) (pg + 1) none = some (seq, im) ∧
      (∀ p, unitOk 6 p = true → p ≠ pg + 1 → rd (imageSector b t.store) p none = rd (imageSector b u.store) p none) ∧
      imageSector (!b) t.store = imageSector (!b) u.store ∧
      goesOn { u.store with imgA := t.store.imgA, imgB := t.store.imgB } t.store ∧
      t = { u with
        store := t.store
        line := if pg = 5 then noticeLine u .store [.word "SAVED", .num seq] else u.line.pumped }) ∧
  (∀ (d n at' : Nat) (p : DirPurpose) (second : Bool) (r : DirRecord) (s u : State), opDue isWrite s = some d →
    reachUs d s = some u → u.store.op = some (.writing n p second r, at') → unitOk 64 n = true →
    ∃ t, exec .directoryWriteEnd s = .next t ∧
      (if second then rd t.store.recB n blankRecord = r ∧ t.store.recA = u.store.recA
       else rd t.store.recA n blankRecord = r ∧ t.store.recB = u.store.recB) ∧
      (∀ m, unitOk 64 m = true → m ≠ n → t.slot m = u.slot m ∧ rd t.store.recA m blankRecord = rd u.store.recA m blankRecord ∧
        rd t.store.recB m blankRecord = rd u.store.recB m blankRecord) ∧
      let recorded := { u.store with recA := t.store.recA, recB := t.store.recB }
      let noticed := fun (w : String) => u.power.phase = .on → t.line = noticeLine u .store [.num n, .word w]
      (p = .closing → (u.slot n).state = .writing → t.slot n = { u.slot n with state := .closed } ∧ noticed "CLOSED" ∧
        goesOn { recorded with slots := t.store.slots, serial := t.store.serial } t.store ∧
        t = { u with
          bells := t.bells, perfs := t.perfs, lastId := t.lastId, nextOrder := t.nextOrder, voices := t.voices
          clock := t.clock, lights := t.lights, store := t.store, line := t.line }) ∧
      (p = .final → (u.slot n).state = .erasing → t.slot n = emptyEntry ∧ noticed "EMPTY" ∧
        goesOn { recorded with slots := t.store.slots } t.store ∧ t = { u with store := t.store, line := t.line }) ∧
      ((p = .plain ∨ (p = .closing ∧ (u.slot n).state ≠ .writing) ∨ (p = .final ∧ (u.slot n).state ≠ .erasing)) →
        goesOn recorded t.store ∧ sent u t ∧ t = { u with store := t.store, line := t.line }))

/-- A page read for a voice fills the buffer that waits for it, and is discarded where none does (R82, R143). Where the voice is
stalled and the page of its event is there now, the stall ends: the anchor moves later by the stall's length, the stall counter
rises, and the event is taken up, its strokes due at their moved releases (R88). A page read for a quarter profile asks for the
next page, or makes the profile READY with n_last, D and E; a read of an abandoned build is discarded (R106, R107). Where the
stop point lies before the stalled event, or the performance is cut, the end of the stall still moves the anchor and counts the
stall, and takes up nothing: the model's reading (log 41). -/
def Obligations.PageReadsFillBuffersAndProfiles : Prop :=
  (∀ (d v at' : Nat) (s u : State) (q : ReadReq) (es : List Event) (src : Option (Bool × Nat × Image)),
    opDue isRead s = some d → reachUs d s = some u → u.power.phase = .on →
    u.store.op = some (.read q es src, at') → q.reader = .voice v → unitOk 4 v = true →
    let x := u.voice v
    ∃ t y, exec .pageReadEnd s = .next t ∧ BufferFilled x.current y.current q.serial es ∧
      BufferFilled x.next y.next q.serial es ∧ y = { x with current := y.current, next := y.next } ∧
      let fills := t = { u with voices := wr u.voices v y, store := t.store, line := u.line.pumped }
      ((x.stall = none ∨ x.perf = none) → fills) ∧
      (∀ p a c e, x.stall = some a → voicePerf u v = some p → p.anchor = some c → (timeline u p)[x.idx]? = some e →
        let len := u.now - a
        let ended := t.perf p.id = some { p with
            anchor := some (c + len), counters := { p.counters with stalls := min (p.counters.stalls + 1) 65535 } } ∧
          (∀ j, j ≠ p.id → t.perf j = u.perf j) ∧ (t.voice v).stall = none ∧
          (t.voice v).moves = x.moves ++ [(x.idx, len)] ∧
          t = { u with
            perfs := t.perfs, voices := wr u.voices v (t.voice v), store := t.store, line := u.line.pumped }
        (y.hasPage e.page = false → fills) ∧
        (y.hasPage e.page = true → p.stop ≠ .cut → (∀ k, p.stopPoint = some k → x.idx ≤ k) →
          ended ∧ (t.voice v).idx = x.idx + 1 ∧ (t.voice v).cum = e.cum ∧
          (t.voice v).strokes = x.strokes ++ (bellList e.bells).map (fun b =>
            { bell := b, intensity := e.intensity
              due := max u.now (e.sound + len - flyTime (u.bellCfg b) e.intensity), idx := x.idx })) ∧
        (y.hasPage e.page = true → (p.stop = .cut ∨ ∃ k, p.stopPoint = some k ∧ k < x.idx) →
          ended ∧ (t.voice v).idx = x.idx ∧ (t.voice v).strokes = x.strokes))) ∧
  (∀ (d n at' pg k : Nat) (s u : State) (q : ReadReq) (es es0 : List Event) (src : Option (Bool × Nat × Image)) (aw : Bool),
    opDue isRead s = some d → reachUs d s = some u → u.power.phase = .on → u.line.restart ≠ .building →
    u.store.op = some (.read q es src, at') → q.reader = .build n → unitOk 4 n = true →
    u.profile n = .building pg k es0 aw →
    let m := quarterSlot u.cfg.clock n
    ∃ t, exec .pageReadEnd s = .next t ∧
      let becomes := fun (x : Profile) =>
        let w := { u with clock := { u.clock with profiles := wr u.clock.profiles n x } }
        t.profile n = x ∧ ((u.localMs : Int) < evaluationAt w u.clock.frontier →
          t = { w with store := t.store, line := u.line.pumped })
      (k ≠ q.serial → becomes (u.profile n)) ∧
      (k = q.serial → pg + 1 < (u.slot m).pages → ∃ j, u.store.serial < j ∧
        becomes (.building (pg + 1) j (es0 ++ es) aw) ∧
        ReadAsked t.store { reader := .build n, serial := j, slot := m, page := pg + 1 }) ∧
      (k = q.serial → (u.slot m).pages ≤ pg + 1 → ∃ a b c, becomes (.ready a b c) ∧
        ProfileRead u m (es0 ++ es) a b c))

/-- The last read of the directory scan puts the directory in order (R153), and then the load of the image begins, or without an
image the defaults are in force (R202); an earlier one hands over nothing. A page read of an image load counts it; the sixth from
one sector and sequence gives the image, to a RESTART or to the start-up; where the current image has changed meanwhile the load
begins again (R152, R200; also where the earlier one is VALID still: the model's reading, log 78). That the scan takes 64 reads, so
that of slot 64 is its last (log 21), and that without an image the reference setting is ON (log 7), are the model's choices. -/
def Obligations.ScansAndImageLoadsEnd : Prop :=
  (∀ (d n at' : Nat) (s u : State) (q : ReadReq) (es : List Event) (src : Option (Bool × Nat × Image)),
    opDue isRead s = some d → reachUs d s = some u → u.store.op = some (.read q es src, at') → q.reader = .scan n →
    ∃ t, exec .pageReadEnd s = .next t ∧
      (n ≠ 64 → t.store.slots = u.store.slots ∧ t.store.free = u.store.free ∧
        t = { u with store := t.store, line := t.line }) ∧
      (n = 64 → DirectoryScanned u t ∧ t.power.scanned = some
          (((List.range' 1 64).filter fun k => decide ((t.slot k).state = .incomplete)).length,
           ((List.range' 1 64).filter fun k => decide ((t.slot k).state = .erasing)).length) ∧
        (currentImage u.store ≠ none → ImageLoadBegun u t ∧
          t = { u with store := t.store, power := { u.power with scanned := t.power.scanned }, line := t.line }) ∧
        (currentImage u.store = none → u.power.kind = .cold → t.cfg = defaultSettings ∧
          t = { u with
            cfg := t.cfg, store := t.store, line := t.line
            clock := { u.clock with profiles := Vector.replicate 4 .none }
            power := { u.power with
              scanned := t.power.scanned, refOn := true, building := false, mode := .service, validation := none
              ready := true } }))) ∧
  (∀ (d p at' sq : Nat) (b : Bool) (im : Image) (s u : State) (q : ReadReq) (es : List Event)
    (src : Option (Bool × Nat × Image)) (ld : ImageLoad), opDue isRead s = some d → reachUs d s = some u →
    u.store.op = some (.read q es src, at') → q.reader = .image p → u.store.imgLoad = some ld →
    ∃ t, exec .pageReadEnd s = .next t ∧
      (ld.serial ≠ q.serial → t.store.imgLoad = some ld ∧ t = { u with store := t.store, line := t.line }) ∧
      (ld.serial = q.serial →
        let same := src = some (b, sq, im) ∧ (ld.pages = 0 ∨ ∃ x, ld.src = some (b, sq, x))
        (same → ld.pages ≠ 5 → t.store.imgLoad = some { ld with pages := ld.pages + 1, src := src } ∧
          t = { u with store := t.store, line := t.line }) ∧
        (same → ld.pages = 5 → t.store.imgLoad = none ∧
          (u.power.phase = .on →
            t = { u with store := t.store, line := { u.line with restart := .loaded im }.pumped }) ∧
          (u.power.phase = .starting → u.power.kind = .cold →
            t.cfg = im.settings ∧ t.power.refOn = im.refOn ∧ t.line = u.line ∧ t.dials = u.dials)) ∧
        ((src = none ∨ (ld.pages ≠ 0 ∧ ∀ i j x y z, src = some (i, j, x) → ld.src ≠ some (i, y, z) ∨ y ≠ j)) →
          ImageLoadBegun u t ∧ t = { u with store := t.store, line := t.line })))

/-! ### Schedule -/

/-- ENTRY WRITE makes the entry ACTIVE with its action clamped, SUSPEND, RESUME and CLEAR move its state; the stamp is kept
and nothing else changes (R155, R156, R157). -/
def Obligations.EntryRequests : Prop :=
  (∀ (n : Nat) (f : EntryFields) (s : State), canTake (.entryWrite n f) s = true → f.wellFormed = true →
    unitOk 128 n = true → entryOk f = true → exec (.entryWrite n f) s = .next { s with
      cfg := { s.cfg with entries := wr s.cfg.entries n (.active { f with action := match f.action with
        | .play slot scale scene => .play slot (min (max scale 50) 200) scene
        | .toll b interval count i => .toll b (min (max interval 10) 600) count i
        | .ring ds stagger duration => .ring ds (min stagger 60) (min duration 120)
        | .scene k => .scene k
        | .silence scope duration => .silence scope (min (max duration 1) 1440) }) }
      line := replyLine (.entryWrite n f) s (.ok [.word "ACTIVE"]) }) ∧
  (∀ (n : Nat) (s : State), unitOk 128 n = true →
    (canTake (.entrySuspend n) s = true →
      (s.entry n = .empty → AnsweredOnly (.entrySuspend n) s (.no .none [])) ∧
      (∀ f, s.entry n = .suspended f → AnsweredOnly (.entrySuspend n) s (.ok [.word "SUSPENDED"])) ∧
      (∀ f, s.entry n = .active f → exec (.entrySuspend n) s = .next { s with
        cfg := { s.cfg with entries := wr s.cfg.entries n (.suspended f) }
        line := replyLine (.entrySuspend n) s (.ok [.word "SUSPENDED"]) })) ∧
    (canTake (.entryResume n) s = true →
      (s.entry n = .empty → AnsweredOnly (.entryResume n) s (.no .none [])) ∧
      (∀ f, s.entry n = .active f → AnsweredOnly (.entryResume n) s (.ok [.word "ACTIVE"])) ∧
      (∀ f, s.entry n = .suspended f → exec (.entryResume n) s = .next { s with
        cfg := { s.cfg with entries := wr s.cfg.entries n (.active f) }
        line := replyLine (.entryResume n) s (.ok [.word "ACTIVE"]) })) ∧
    (canTake (.entryClear n) s = true → exec (.entryClear n) s = .next { s with
      cfg := { s.cfg with entries := wr s.cfg.entries n .empty }
      line := replyLine (.entryClear n) s (.ok [.word "EMPTY"]) }))

/-- A minute boundary that counting reaches in RUN with the time SET is evaluated (R158 to R160): every ACTIVE entry that
matches it and whose stamp is absent or earlier fires, takes the boundary's date-minute as its stamp, and no other stamp
moves; the last evaluated minute is the boundary's. The strike and tunes ends are the later of what they were and the ends
that the firing SILENCE entries give (R162); a channel's base value is that of the lowest-numbered firing SCENE entry that
holds it (R161, R164). Once those two groups are done, the firing PLAY, TOLL and RING entries are carried out in ascending order
of their numbers (R161). In SERVICE, or while UNSET, the schedule stands. What a firing PLAY, TOLL or RING entry does, and the
notice it raises, follows the table of R165. -/
def Obligations.ScheduleFiresAtABoundary : Prop :=
  (∀ s : State, s.power.phase = .on → s.tb.secs + 1 < 73049 * 86400 →
    inForce s.cfg.summer (s.tb.secs + 1) = s.tb.flag → (s.tb.secs + 1 + s.offset) % (73049 * 86400) % 60 = 0 →
    ∃ t, exec .secondEnd s = .next t ∧ t.cfg = s.cfg ∧ t.tb.secs = s.tb.secs + 1 ∧
      t.cal = calendarOf s.cfg.summer s.cfg.sun t.localDay (yearOfSecs t.tb.secs) ∧
      ((s.tb.set = false ∨ s.line.mode = .service) → t.sched = s.sched ∧ t.perfs = s.perfs ∧ t.lights = s.lights) ∧
      (s.tb.set = true → s.line.mode = .run →
        let m := t.localMinute
        let fires := Fires s t.cal.day m
        let at' := 1000000 * t.tb.secs
        t.sched.lastEval = some m ∧ t.sched.panelSilence = s.sched.panelSilence ∧
        (∃ w v : State, BellEntriesFire w v fires at' ∧ w.sched = { t.sched with lastEval := s.sched.lastEval } ∧
          w = { s with
            tb := t.tb, ref := w.ref, cal := t.cal, clock := w.clock, sched := w.sched, lights := w.lights, line := w.line } ∧
          t = { v with sched := t.sched, line := v.line.pumped }) ∧
        (∀ n f, fires n f → t.stamp n = some m) ∧
        (∀ n, unitOk 128 n = true → (∀ f, ¬fires n f) → t.stamp n = s.stamp n) ∧
        SilencesAndScenesFire s t fires at')) ∧
  (∀ (at' n : Nat) (f : EntryFields) (s : State),
    let silent := s.sched.panelSilence = true ∨ ∃ e, s.sched.tunesEnd = some e ∧ at' < e
    let notice := fun (w : String) => fireAction at' s (n, f) =
      { s with line := s.line.latched .entry [.num n, .word w] }
    let created := fun (p : Perf) =>
      (12 ≤ s.perfs.length → notice "FULL") ∧
      (s.perfs.length < 12 → ∃ u r, createPerf p s = (u, r) ∧
        (r = .admitted (nextId s) ∨ r = .waiting (nextId s) → fireAction at' s (n, f) =
          { u with line := u.line.latched .entry [.num n, .word "FIRED", .num (nextId s)] }) ∧
        (r = .yielded (nextId s) → fireAction at' s (n, f) =
          { u with line := u.line.latched .entry [.num n, .word "YIELDED"] }) ∧
        (r = .admitted (nextId s) ∨ r = .waiting (nextId s) ∨ r = .yielded (nextId s)))
    (∀ slot scale scene, f.action = .play slot scale scene →
      (silent → notice "SILENCED") ∧ (¬silent → (s.slot slot).state ≠ .closed → notice "MISSING") ∧
      (¬silent → (s.slot slot).state = .closed → created (tunePerf s slot scale 60 scene (.schedule n)))) ∧
    (∀ b interval count i, f.action = .toll b interval count i →
      (silent → notice "SILENCED") ∧ (¬silent → created (tollPerf s b interval count i 0 none (.schedule n)))) ∧
    (∀ ds stagger duration, f.action = .ring ds stagger duration →
      ((∃ k ∈ ds, driveUsable s k = false) → notice "INVALID") ∧
      ((∀ k ∈ ds, driveUsable s k = true) → (∃ k ∈ ds, (s.drive k).state ≠ .down) → notice "ACTIVE") ∧
      ((∀ k ∈ ds, driveUsable s k = true) → (∀ k ∈ ds, (s.drive k).state = .down) →
        created (swingPerf s ds stagger duration 0 (.schedule n)))))

/-- At a change of the dusk state into DARK, in RUN with the time SET, the SUNSET entries with the dusk-early flag whose
minute today lies at most 60 minutes ahead fire: their stamps take that minute, and their actions are carried out in the groups
and the order of R161, at the instant of the change (R162, R164, R165). No other stamp and not the last evaluated
minute moves, and in SERVICE or while UNSET the schedule stands (R166; at the very end of a second log 9 speaks, and of LIGHT
SITE taken during the sample log 84). Entry to RUN
with the time SET makes the catch-up (R168): each ACTIVE entry's stamp rises to the latest date-minute it matches in the
passed range or at the present minute (an absent stamp counts as the earliest, log 44), a SILENCE window of today that is still
open is opened (its end counted from the earlier occurrence of a repeated local minute: the model's reading, log 18), no base
value is left where no SCENE entry is ACTIVE (the replay of scenes is no part of this statement), and the last evaluated minute
is the present one. -/
def Obligations.DuskFiresEarlyAndCatchUp : Prop :=
  (∀ (d ends : Nat) (code : ConvCode) (s u : State), duskEndDue s = some d → reachUs d s = some u →
    u.lights.conv = some { channel := none, level := 0, ends := ends, spoiled := false } → u.tb.sub < 1000000 →
    code.toNat < u.cfg.site.threshold → 59 ≤ u.lights.darkRun → u.lights.dusk ≠ .dark →
    ∃ t, exec (.duskMeasurementEnd code) s = .next t ∧ t.lights.dusk = .dark ∧
      ((u.tb.set = false ∨ u.line.mode = .service) → t.sched = u.sched ∧ t.perfs = u.perfs) ∧
      (u.tb.set = true → u.line.mode = .run →
        let m := u.localMinute
        t.sched.lastEval = u.sched.lastEval ∧
        (∀ n c, FiresEarly u m n c → t.stamp n = some (m / 1440 * 1440 + c)) ∧
        (∀ n, unitOk 128 n = true → (∀ c, ¬FiresEarly u m n c) → t.stamp n = u.stamp n) ∧
        let fires := fun (n : Nat) (f : EntryFields) => u.entry n = .active f ∧ ∃ c, FiresEarly u m n c
        SilencesAndScenesFire u t fires u.stdUs ∧
        ∃ w v : State, BellEntriesFire w v fires u.stdUs ∧ ConverterFreed v t ∧ w.sched = t.sched ∧
          w = { u with sched := w.sched, lights := w.lights, line := w.line } ∧
          t = { v with lights := t.lights, line := v.line.pumped })) ∧
  (∀ s : State, canTake .modeRun s = true → s.line.mode = .service → validation s = none → s.tb.set = true →
    s.cal.day.dayNo = s.localDay →
    ∃ t, exec .modeRun s = .next t ∧ t.line.mode = .run ∧ t.sched.lastEval = some s.localMinute ∧
      (∀ n, unitOk 128 n = true → (∀ f, s.entry n ≠ .active f) → t.stamp n = s.stamp n) ∧
      (∀ n f, unitOk 128 n = true → s.entry n = .active f → entryTimeOk f.time = true →
        (∀ m, Caught s f m → ∃ x, t.stamp n = some x ∧ m ≤ x) ∧
        (∀ y, s.stamp n = some y → ∃ x, t.stamp n = some x ∧ y ≤ x) ∧
        (t.stamp n ≠ s.stamp n → ∃ m, Caught s f m ∧ t.stamp n = some m)) ∧
      (∀ n f scope k m, unitOk 128 n = true → s.entry n = .active f → f.action = .silence scope k →
        EntryMatches f s.cal.day m → m ≤ s.localMinute →
        let e := 1000000 * (passedInstant s.cfg.summer (m * 60) + k * 60)
        s.stdUs < e →
        (scope ≠ .tunes → ∃ x, t.sched.strikeEnd = some x ∧ e ≤ x) ∧
        (scope ≠ .strike → ∃ x, t.sched.tunesEnd = some x ∧ e ≤ x)) ∧
      (∀ e, s.sched.strikeEnd = some e → ∃ x, t.sched.strikeEnd = some x ∧ e ≤ x) ∧
      (∀ e, s.sched.tunesEnd = some e → ∃ x, t.sched.tunesEnd = some x ∧ e ≤ x) ∧
      ((∀ n f k, unitOk 128 n = true → s.entry n = .active f → f.action ≠ .scene k) →
        ∀ c, unitOk 16 c = true → (t.chan c).base = none))

/-! ### Lights -/

/-- LIGHT sets an override on one channel or on all, LIGHT RELEASE makes it absent: each channel named is resolved, override
first, with the given fade, and no other changes (R175, R178, R180). LIGHT CLEAR returns a TRIPPED channel, which fades from 0 to
its target (R184). A measurement in progress is spoiled where its channel's output changes (R182). -/
def Obligations.OverrideRequests : Prop :=
  (∀ (ch : Option Nat) (level : Nat) (fade : Option Nat) (mode : OverrideMode) (s : State),
    canTake (.light ch level fade mode) s = true → (∀ n, ch = some n → unitOk 16 n = true) →
    let l := min level 4095
    ∃ u, exec (.light ch level fade mode) s = .next u ∧
      OverridesBecome s u (fun n => ch = none ∨ ch = some n) (some { level := l, mode := mode, panel := false })
        (min (fade.getD 0) 6000) ∧
      u = { s with
        lights := { s.lights with chans := u.lights.chans, conv := u.lights.conv }
        line := replyLine (.light ch level fade mode) s (.ok [.num l]) }) ∧
  (∀ (ch : Option Nat) (fade : Option Nat) (s : State), canTake (.lightRelease ch fade) s = true →
    (∀ n, ch = some n → unitOk 16 n = true) →
    ∃ u, exec (.lightRelease ch fade) s = .next u ∧
      OverridesBecome s u (fun n => ch = none ∨ ch = some n) none (min (fade.getD 0) 6000) ∧
      u = { s with
        lights := { s.lights with chans := u.lights.chans, conv := u.lights.conv }
        line := replyLine (.lightRelease ch fade) s (.ok [.num (u.chan (ch.getD 1)).target]) }) ∧
  (∀ (n : Nat) (fade : Option Nat) (s : State), canTake (.lightClear n fade) s = true → unitOk 16 n = true →
    let c := s.chan n
    let f := min (fade.getD 0) 6000
    (c.lamp ≠ .tripped → AnsweredOnly (.lightClear n fade) s (.ok [.word (lampName c.lamp)])) ∧
    (c.lamp = .tripped → ∃ u x, exec (.lightClear n fade) s = .next u ∧
      (f = 0 → x = { c with
        lamp := .unchecked, run := none, output := c.target, fade := none, lastFadeEnd := s.now }) ∧
      (f ≠ 0 → x = { c with
        lamp := .unchecked, run := none, output := 0
        fade := some { start := 0, target := c.target, len := f, k := 0, next := s.now + 100 } }) ∧
      MeasurementMeets s u (· = n) ∧
      u = { s with
        lights := { s.lights with chans := wr s.lights.chans n x, conv := u.lights.conv }
        line := noticeReplyLine (.lightClear n fade) s .lamp [.num n, .word "CLEAR"] (.ok [.word "UNCHECKED"]) }))

/-- A fade moves its channel one step, and to its target at its last step (R180); a modulator period takes the output as
it stands and drives m slots (R181). A fade step spoils a measurement in progress whose channel's output it changes, and a
modulator period none but of a TRIPPED channel (R182). -/
def Obligations.FadeStepsAndModulation : Prop :=
  (∀ (n d : Nat) (s u : State) (f : Fade), unitOk 16 n = true → fadeDue n s = some d → reachUs d s = some u →
    (u.chan n).fade = some f →
    ∃ t x, exec (.fadeStep n) s = .next t ∧ MeasurementMeets u t (· = n) ∧
      (f.k + 1 < f.len → x = { u.chan n with
        output := ((f.start : Int) + (((f.target : Int) - f.start) * (f.k + 1)).tdiv f.len).toNat
        fade := some { f with k := f.k + 1, next := f.next + 100 } }) ∧
      (f.len ≤ f.k + 1 → x = { u.chan n with output := f.target, fade := none, lastFadeEnd := u.now }) ∧
      t = { u with
        lights := { u.lights with chans := wr u.lights.chans n x, conv := t.lights.conv }, line := u.line.pumped }) ∧
  (∀ (n d : Nat) (s u : State), unitOk 16 n = true → pwmDue n s = some d → reachUs d s = some u →
    let c := u.chan n
    let j := (c.pwmJ + 1) % 32
    ∃ t, exec (.pwmPeriod n) s = .next t ∧ MeasurementMeets u t (· = n) ∧ t = { u with
      lights := { u.lights with
        chans := wr u.lights.chans n { c with
          pwmJ := j, pwmNext := c.pwmNext + 10, pwmLevel := c.output
          pwmSlots := c.output / 32 + if j * (c.output % 32) / 32 < (j + 1) * (c.output % 32) / 32 then 1 else 0 }
        conv := t.lights.conv }
      line := u.line.pumped })

/-- The converter takes one measurement at a time (R182). A lamp code gives a verdict, and the third of a kind in a row is
confirmed: GOOD, LOW and OVER act by the table of R183 with their LAMP notices. A photocell code moves the runs, and the
sixtieth of a kind changes the dusk state with the DUSK notice, while the time is UNSET with the fallback scene too (R185, R186;
what a change into DARK fires in RUN is stated with the schedule). A spoiled measurement changes nothing (R182). A dusk sample
is judged by the settings in force as its measurement ends: the model's reading, where LIGHT SITE was taken during it (log 84).
That the dusk sample goes first where a lamp slot waits too (log 87) and that at a trip the slots of the running modulator period
stand (log 62) are the model's choices; that a trip leaves the last fade end is its reading (log 49). -/
def Obligations.MeasurementsAreTakenAndJudged : Prop :=
  (∀ (d : Nat) (s u : State), lampDue s = some d → reachUs d s = some u →
    let l := { u.lights with lampNext := u.lights.lampNext + 100 }
    let gives := fun (x : Lights) => exec .lampSlot s = .next { u with lights := x, line := u.line.pumped }
    (u.lights.conv ≠ none → gives { l with lampWaits := true }) ∧
    (u.lights.conv = none → (∀ n, unitOk 16 n = true → eligible u n = false) → gives l) ∧
    (∀ n, u.lights.conv = none → nextEligible u = some n → gives { l with
      lastMeasured := n
      conv := some { channel := some n, level := (u.chan n).output, ends := u.now + 1, spoiled := false } })) ∧
  (∀ (d : Nat) (s u : State), duskDue s = some d → reachUs d s = some u →
    exec .duskSample s = .next { u with
      lights := (if u.lights.conv = none then { u.lights with
          duskNext := u.lights.duskNext + 1000
          conv := some { channel := none, level := 0, ends := u.now + 1, spoiled := false } }
        else { u.lights with duskNext := u.lights.duskNext + 1000, duskWaits := true })
      line := u.line.pumped }) ∧
  (∀ (d n l ends : Nat) (code : ConvCode) (s u : State), lampEndDue s = some d → reachUs d s = some u →
    u.lights.conv = some { channel := some n, level := l, ends := ends, spoiled := false } → unitOk 16 n = true →
    let g := u.lightCfg n
    let c := u.chan n
    let m := code.toNat
    let v : Verdict := if m * 100 < g.nominal * l / 4095 * g.lampout then .low
      else if g.nominal * g.overPct < m * 100 then .tooHigh else .good
    let k := match c.run with
      | some (w, k) => if w = v then min (k + 1) 3 else 1
      | none => 1
    let x := { c with code := some m, run := some (v, k) }
    ∃ t, exec (.lampMeasurementEnd code) s = .next t ∧
      let becomes := fun (y : Channel) (line : Line) =>
        ConverterFreed { u with lights := { u.lights with chans := wr u.lights.chans n y } } t ∧
        t = { u with lights := t.lights, line := line }
      (k < 3 → becomes x u.line.pumped) ∧
      (k = 3 → v = .good → (c.lamp = .unchecked ∨ c.lamp = .ok) → becomes { x with lamp := .ok } u.line.pumped) ∧
      (k = 3 → v = .good → c.lamp = .low → becomes { x with lamp := .ok } (noticeLine u .lamp [.num n, .word "OK"])) ∧
      (k = 3 → v = .low → (c.lamp = .unchecked ∨ c.lamp = .ok) →
        becomes { x with lamp := .low } (noticeLine u .lamp [.num n, .word "LOW", .num m])) ∧
      (k = 3 → v = .low → c.lamp = .low → becomes x u.line.pumped) ∧
      (k = 3 → v = .tooHigh → c.lamp ≠ .tripped → becomes { x with lamp := .tripped, output := 0, fade := none, run := none }
        (noticeLine u .lamp [.num n, .word "TRIPPED", .num m]))) ∧
  (∀ (d ends : Nat) (code : ConvCode) (s u : State), duskEndDue s = some d → reachUs d s = some u →
    u.lights.conv = some { channel := none, level := 0, ends := ends, spoiled := false } →
    let c := u.cfg.site
    let m := code.toNat
    let isDark := m < c.threshold
    let isLight := c.threshold + c.hysteresis < m
    let l := { u.lights with
      duskCode := some m
      darkRun := if isDark then min (u.lights.darkRun + 1) 60 else 0
      lightRun := if isLight then min (u.lights.lightRun + 1) 60 else 0 }
    let toDark := isDark ∧ 59 ≤ u.lights.darkRun ∧ u.lights.dusk ≠ .dark
    let toLight := isLight ∧ 59 ≤ u.lights.lightRun ∧ u.lights.dusk ≠ .light
    ∃ t, exec (.duskMeasurementEnd code) s = .next t ∧ t.cfg = u.cfg ∧ t.tb = u.tb ∧
      t.lights.duskCode = some m ∧ t.lights.darkRun = l.darkRun ∧ t.lights.lightRun = l.lightRun ∧
      let becomes := fun (x : DuskState) (line : Line) =>
        ConverterFreed { u with lights := { l with dusk := x } } t ∧ t = { u with lights := t.lights, line := line }
      let falls := fun (x : DuskState) (sc : Scene) (line : Line) => ∃ w,
        SceneLaid { u with lights := { l with dusk := x } } w sc ∧
        w = { u with lights := { l with dusk := x, chans := w.lights.chans, conv := w.lights.conv } } ∧
        ConverterFreed w t ∧ t = { u with lights := t.lights, line := line }
      (¬toDark → ¬toLight → becomes u.lights.dusk u.line.pumped) ∧
      (toLight → u.tb.set = true → becomes .light (noticeLine u .dusk [.word "LIGHT", .num m])) ∧
      (toLight → u.tb.set = false → falls .light darkScene (noticeLine u .dusk [.word "LIGHT", .num m])) ∧
      (toDark → t.lights.dusk = .dark) ∧
      (toDark → u.tb.set = true → u.line.mode = .service →
        becomes .dark (noticeLine u .dusk [.word "DARK", .num m])) ∧
      (toDark → u.tb.set = false →
        falls .dark (u.scene c.fallback) (noticeLine u .dusk [.word "DARK", .num m]))) ∧
  (∀ (d l ends : Nat) (ch : Option Nat) (code : ConvCode) (s u : State), reachUs d s = some u →
    u.lights.conv = some { channel := ch, level := l, ends := ends, spoiled := true } →
    let discards := fun (i : Instr) =>
      ∃ t, exec i s = .next t ∧ ConverterFreed u t ∧ t = { u with lights := t.lights, line := u.line.pumped }
    (lampEndDue s = some d → discards (.lampMeasurementEnd code)) ∧
    (duskEndDue s = some d → discards (.duskMeasurementEnd code)))

/-! ### Line, modes, panel and power -/

/-- MASK sets the mask flag of the class it names, or of all; a class turned OFF loses its pending entry, and those of the other
classes stand; the reply names the classes that are ON (R194), in the order of R193: the model's choice (log 76). A framed line
that reads as a request waits in a buffer place, else as an overrun mark (R189, R190). When a reply or an overrun answer has been
sent it leaves the order of replies, and with a reply its place is free and a new line rate is taken up; a notice that has been
sent leaves the transmitter idle; LINE_SENT with no line being sent changes nothing (R190, R193, R194; the last is the model's
choice, log 6). -/
def Obligations.LinesAndMasks : Prop :=
  (∀ (cls : Option NoticeClass) (on : Bool) (s : State), canTake (.maskSet cls on) s = true →
    let named := fun c => cls = none ∨ cls = some c
    let order : List NoticeClass := [.ref, .time, .dial, .bell, .swing, .perf, .store, .entry, .lamp, .dusk]
    ∃ (m : Vector Bool 10) (l : Vector (Option Pending) 10),
      (∀ c, named c → rd m (classIndex c) false = on) ∧
      (∀ c, ¬named c → rd m (classIndex c) false = rd s.line.mask (classIndex c) false) ∧
      (∀ c, on = false → named c → rd l (classIndex c) none = none) ∧
      (∀ c, (on = true ∨ ¬named c) → rd l (classIndex c) none = rd s.line.latch (classIndex c) none) ∧
      exec (.maskSet cls on) s = .next { s with
        line := ({ (arrived (.maskSet cls on) s).line with mask := m, latch := l }.answered
          (.ready (.ok [.words ((order.filter fun c => rd m (classIndex c) false).map className)]) none)).pumped }) ∧
  (∀ (w : Nat) (l : RawLine) (s u : State), elapse w s = some u → u.power.phase = .on →
    (ignored l = true → exec (.lineReceived w l) s = .next { u with line := u.line.pumped }) ∧
    (∀ i, framed l = true → l.text ≠ [] → parseRequest l.text = some i →
      exec (.lineReceived w l) s = .next { u with line := (u.line.placed (.waiting i u.now)).pumped }) ∧
    (ignored l = false → (framed l = false ∨ parseRequest l.text = none) → exec (.lineReceived w l) s = .next
      { u with line := (u.line.placed (.ready (.no .badSyntax []) none)).pumped })) ∧
  (∀ (w : Nat) (s u : State), elapse w s = some u → u.power.phase = .on →
    (∀ r rate, u.line.tx = some (.reply r rate) → exec (.lineSent w) s = .next { u with
      line := { u.line with tx := none, slots := u.line.slots.drop 1, rate := rate.getD u.line.rate }.pumped }) ∧
    (u.line.tx = some .overrun → exec (.lineSent w) s = .next { u with
      line := { u.line with tx := none, slots := u.line.slots.drop 1 }.pumped }) ∧
    (∀ c k f, u.line.tx = some (.notice c k f) → exec (.lineSent w) s = .next { u with
      line := { u.line with tx := none }.pumped }) ∧
    (u.line.tx = none → exec (.lineSent w) s = .next { u with line := u.line.pumped }))

/-- MODE SERVICE is refused ACTIVE while a drive is not DOWN, else takes the part into SERVICE (R197), whatever the table holds, its
ids distinct, as every step keeps them:
every CLOCK record that does not wait is cut as R97 says, unless it was cut before, one that waits is removed, each that leaves
with its PERF notice of outcome CUT, and every other record stands; where one was cut, those that then wait are offered admission
(R92, R97, R118); of the day sheets the outcomes and the flags stay. The notices come in table order, and one offer round serves
the whole event: the model's reading and choice (logs 59 and 19). MODE RUN takes the part into RUN when the validation passes, and
answers NO INVALID when it does not (R198). -/
def Obligations.ModeRequests : Prop :=
  (∀ s : State, canTake .modeService s = true →
    (s.line.mode = .service → AnsweredOnly .modeService s (.ok [.word "SERVICE"])) ∧
    (s.line.mode = .run → (∃ n, unitOk 4 n = true ∧ (s.drive n).state ≠ .down) →
      AnsweredOnly .modeService s (.no .active [])) ∧
    (s.line.mode = .run → (∀ n, unitOk 4 n = true → (s.drive n).state = .down) → (s.perfs.map (·.id)).Nodup →
      let cut := fun (p : Perf) => p.isClock && decide (p.state ≠ .waiting) && decide (p.stop ≠ .cut)
      ∃ c t, CutsTaken { s with line := { (arrived .modeService s).line with mode := .service } } c cut
          (fun p => p.isClock && decide (p.state = .waiting)) .cut id ∧ c.drives = s.drives ∧ SheetsStand s.clock c.clock ∧
        ((∃ p ∈ s.perfs, cut p = true) → Offered c t) ∧ ((∀ p ∈ s.perfs, cut p = false) → t = c) ∧
        t = { c with
          bells := t.bells, perfs := t.perfs, nextOrder := t.nextOrder, voices := t.voices, lights := t.lights
          store := t.store } ∧
        exec .modeService s = .next { t with
          line := (t.line.answered (.ready (.ok [.word "SERVICE"]) none)).pumped })) ∧
  (∀ s : State, canTake .modeRun s = true →
    (s.line.mode = .run → AnsweredOnly .modeRun s (.ok [.word "RUN"])) ∧
    (∀ d, s.line.mode = .service → validation s = some d → exec .modeRun s = .next { s with line :=
      ({ (arrived .modeRun s).line with lastValidation := some (some d) }.answered
        (.ready (.no .invalid d) none)).pumped }) ∧
    (s.line.mode = .service → validation s = none →
      ∃ u, exec .modeRun s = .next u ∧ u.line.mode = .run ∧ u.line.lastValidation = some none ∧ u.cfg = s.cfg ∧
        u.tb = s.tb ∧ u.dials = s.dials ∧ (s.tb.set = true → u.sched.lastEval = some s.localMinute) ∧
        (s.tb.set = false → u = { s with line :=
          ({ (arrived .modeRun s).line with mode := .run, lastValidation := some none }.answered
            (.ready (.ok [.word "RUN"]) none)).pumped })))

/-- The validation names the first of its six items that fails, in their order (R198). SUN: an anchor whose sunrise is not before
its sunset (R30). SUMMER: an offset with change dates that differ and lie in one month (R29). DIAL: an interval shorter than the
width and 200 ms (R36). RECOVERY: a recovery shorter than some pulse width and 20 ms (R54). HOURBELL: with the quarters not OFF,
the hour bell or a named stand-in without a hammer. QUARTER: with mode ALL, the first quarter whose CLOSED slot holds a bell
without a hammer, or whose profile is not READY or over the limit (R105, R106). The lowest unit that fails gives the detail; of
several bells without a hammer in one quarter's set it is the lowest: the model's choice (log 66). -/
def Obligations.ValidationNamesTheFirstFailure : Prop :=
  ∀ s : State, ∃ (sun summer dial recovery hourBell : Option (List Field)) (quarter : Nat → Option (List Field)),
    validation s = ([sun, summer, dial, recovery, hourBell] ++
      if s.cfg.clock.mode = .all then [quarter 1, quarter 2, quarter 3, quarter 4] else []).findSome? id ∧
    FirstBad 24 (fun k => (rd s.cfg.sun k default).rise < (rd s.cfg.sun k default).set) (fun (k:Nat) => [.word "SUN", .num k]) sun ∧
    summer = (if s.cfg.summer.offset ≠ 0 ∧ s.cfg.summer.start ≠ s.cfg.summer.stop ∧
      s.cfg.summer.start.month = s.cfg.summer.stop.month then some [.word "SUMMER"] else none) ∧
    FirstBad 4 (fun n => (s.dialCfg n).width + 200 ≤ (s.dialCfg n).interval) (fun n => [.word "DIAL", .num n]) dial ∧
    FirstBad 24 (fun b => (s.bellCfg b).wSoft + 20 ≤ (s.bellCfg b).recovery ∧
      (s.bellCfg b).wNormal + 20 ≤ (s.bellCfg b).recovery ∧ (s.bellCfg b).wStrong + 20 ≤ (s.bellCfg b).recovery)
      (fun b => [.word "RECOVERY", .num b]) recovery ∧
    (let c := s.cfg.clock
     let bare := fun b => (s.bellCfg b).hammer = false
     (c.mode = .off → hourBell = none) ∧
     (c.mode ≠ .off → bare c.hourBell → hourBell = some [.word "HOURBELL", .num c.hourBell]) ∧
     (c.mode ≠ .off → ¬bare c.hourBell → unitOk 24 c.standIn = true → bare c.standIn →
       hourBell = some [.word "HOURBELL", .num c.standIn]) ∧
     (¬bare c.hourBell → (unitOk 24 c.standIn = false ∨ ¬bare c.standIn) → hourBell = none)) ∧
    (∀ q, unitOk 4 q = true →
      let n := quarterSlot s.cfg.clock q
      let bare := fun b => bellIn (s.slot n).bells b = true ∧ (s.bellCfg b).hammer = false
      let named := fun (l : List Field) => some ([.word "QUARTER", .num q] ++ l)
      ((unitOk 64 n = false ∨ (s.slot n).state ≠ .closed) → quarter q = none) ∧
      (unitOk 64 n = true → (s.slot n).state = .closed →
        (∀ b, unitOk 24 b = true → bare b → (∀ c, unitOk 24 c = true → c < b → ¬bare c) →
          quarter q = named [.word "HAMMER", .num b]) ∧
        ((∀ b, unitOk 24 b = true → ¬bare b) →
          ((∀ k d e, s.profile q ≠ .ready k d e) → quarter q = named [.word "BUILDING"]) ∧
          (∀ k d e, s.profile q = .ready k d e →
            let long := 840000 < (if q = 4 then d + 100 * s.cfg.clock.gap else d)
            (long → quarter q = named [.word "LENGTH"]) ∧ (¬long → quarter q = none)))))

/-- RESTART without an image is refused NONE, else it is in progress from the instant it is taken; at the restart event the
loaded configuration is in force, but for the step of a dial that knows its position, and the time and the reference run on
(R20, R52, R200, R203). The bells, the swing drives, the lights and the schedule take their RESTART columns (R77, R137, R171,
R188), the lights the fallback while the time is UNSET (R186); each quarter still ADMITTED goes back to PENDING, the
frontier goes back to the earliest of them, and the loop runs (R120). Unless the validation takes the part to RUN with the time SET,
where the catch-up is made, the performance table stays empty (R102, R168). The model's readings and choices in it: the code of the
last dusk sample and the modulators run on as they stand (log 26), a repeated flag that is set stays set at the return to PENDING
(log 83). -/
def Obligations.RestartReloadsTheImage : Prop :=
  (∀ s : State, canTake .restart s = true →
    (currentImage s.store = none → AnsweredOnly .restart s (.no .none [])) ∧
    (currentImage s.store ≠ none → ∃ u, exec .restart s = .next u ∧ u.line.restart = .loading ∧
      u.line.mode = s.line.mode ∧ u = { s with store := u.store, line := u.line })) ∧
  (∀ (s : State) (im : Image), s.line.restart = .loaded im →
    ∃ u, exec .restartEvent s = .next u ∧ u.cfg = { im.settings with dials := u.cfg.dials } ∧
      (∀ n, unitOk 4 n = true → u.dialCfg n =
        if (s.dial n).pos.isSome then { rd im.settings.dials n defaultDial with step := (s.dialCfg n).step }
        else rd im.settings.dials n defaultDial) ∧
      (∀ n, unitOk 4 n = true → (u.dial n).pos = (s.dial n).pos ∧ (u.dial n).slips = (s.dial n).slips) ∧
      u.tb = { s.tb with flag := u.tb.flag } ∧ u.ref = s.ref ∧ u.line.lastStart = .restart ∧
      u.line.mask = Vector.replicate 10 true ∧
      let still := u.line.mode = .service ∨ s.tb.set = false
      let cleared := fun (c : Channel) => { c with
        base := none, perf := none, override := none, target := 0, output := 0, fade := none, lastFadeEnd := s.now
        lamp := if c.lamp = .tripped then .tripped else .unchecked, run := none, code := none }
      let w := { s with cfg := u.cfg, lights := { s.lights with
        chans := s.lights.chans.map cleared, contribs := [], panelOn := false, lastMeasured := 16
        conv := s.lights.conv.map fun m => { m with spoiled := true } } }
      let admitted := clocksIn s.perfs .admitted
      (still → u.perfs = [] ∧ u.lastId = 0 ∧ u.nextOrder = 1 ∧ ∀ v, unitOk 4 v = true → u.voice v = freeVoice) ∧
      (∀ b, unitOk 24 b = true → u.bell b = { s.bell b with
        state := if (s.bell b).state = .silent then .silent else .ready, miss := 0, held := none, windows := []
        driven := 0, silent := 0, masked := 0, claims := (u.bell b).claims } ∧ (still → (u.bell b).claims = [])) ∧
      (∀ n, unitOk 4 n = true →
        let x := { s.drive n with perf := none, lowerAt := none, swings := 0, motor := none }
        ((s.drive n).state = .raising ∨ (s.drive n).state = .ringing →
          u.drive n = { x with state := .lowering, entry := s.now, run := 0, brake := false }) ∧
        ((s.drive n).state ≠ .raising → (s.drive n).state ≠ .ringing → u.drive n = x)) ∧
      u.lights = { w.lights with chans := u.lights.chans, contribs := u.lights.contribs } ∧
      (∀ n, unitOk 16 n = true → (u.chan n).override = none ∧ (u.chan n).lamp = (w.chan n).lamp ∧ (u.chan n).run = none ∧
        (u.chan n).code = none) ∧
      (s.tb.set = true → u.line.mode = .service → u.lights = w.lights) ∧
      (s.tb.set = false → u.lights.contribs = [] ∧
        SceneLaid w u (if s.lights.dusk = .dark then u.scene im.settings.site.fallback else darkScene)) ∧
      u.sched.panelSilence = s.sched.panelSilence ∧ (still → u.sched = s.sched) ∧
      (u.line.mode = .run → s.tb.set = true → u.sched.lastEval = some u.localMinute) ∧
      (inForce im.settings.summer s.tb.secs = s.tb.flag → ∃ v : State, v.perfs = [] ∧ v.cfg = u.cfg ∧ v.tb = s.tb ∧
        v.line.mode = .service ∧ v.power = s.power ∧
        v.clock = { slotsReturned admitted s.clock with frontier := v.clock.frontier, profiles := v.clock.profiles } ∧
        FrontierGoesBack s.clock.frontier v.clock.frontier admitted s.clock.today.date ∧
        u.clock = (frontierLoop v).clock))

/-- A press of any of the four keys acts only when its input has been open since the last (R196). The Silence key toggles the
panel silence (R163), the Lights key the panel override, with the panel fade on the channels that take or lose it (R179), the
Toll key gives the panel toll that stands FINISH, by which one that waits leaves with outcome STOPPED, and where none stands, one in
STOPPING being none, creates one, which is admitted at once, waits or leaves by its wait limit; with a full table the press is
discarded (R79, R83, R122); at most one panel toll stands. The Stop key acts on every record, whatever the table holds, its ids
distinct, as every step keeps them: it gives CUT to every TUNE and TOLL and FINISH to every SWING, one of them that waits leaves with outcome STOPPED, and CLOCK and TEST
records are left alone; where one was cut, those that then wait, a CLOCK record among them, are offered admission (R96, R97, R98).
The notices come in table order, and one offer round serves the whole press: the model's choice and reading (logs 59 and 19). -/
def Obligations.PanelKeys : Prop :=
  (∀ (w : Nat) (s u : State), elapse w s = some u → u.power.phase = .on →
    let nothing := fun (c : Instr) => exec c s = .next { u with line := u.line.pumped }
    (u.keys.silence = false → nothing (.silenceKey w)) ∧ (u.keys.lights = false → nothing (.lightsKey w)) ∧
    (u.keys.toll = false → nothing (.tollKey w)) ∧ (u.keys.stop = false → nothing (.stopKey w)) ∧
    (u.keys.silence = true → exec (.silenceKey w) s = .next { u with
      keys := { u.keys with silence := false }
      sched := { u.sched with panelSilence := !u.sched.panelSilence }
      line := noticeLine u .entry [.word "PANEL", .word "SILENCE", onOff (!u.sched.panelSilence)] }) ∧
    (u.keys.lights = true → ∃ t, exec (.lightsKey w) s = .next t ∧
      (u.lights.panelOn = false → OverridesBecome u t (fun _ => True)
        (some { level := u.cfg.site.panelLevel, mode := .hold, panel := true }) u.cfg.site.panelFade) ∧
      (u.lights.panelOn = true → OverridesBecome u t (fun n => ∃ o, (u.chan n).override = some o ∧ o.panel = true)
        none u.cfg.site.panelFade) ∧
      t = { u with
        keys := { u.keys with lights := false }
        lights := { u.lights with panelOn := !u.lights.panelOn, chans := t.lights.chans, conv := t.lights.conv }
        line := noticeLine u .lamp [.word "PANEL", onOff (!u.lights.panelOn)] }) ∧
    (u.keys.toll = true →
      let stands := fun (p : Perf) => p.source = .panel ∧ (∃ k, p.kind = .toll k) ∧ p.state ≠ .stopping
      let pressed := { u.keys with toll := false }
      let c := u.cfg.panelToll
      let level := u.cfg.levels.toll
      let x := { newPerf (.toll { bell := c.bell, interval := c.interval, count := 0, intensity := c.intensity, sent := 0
                                  limit := none })
          .panel level (bellOne c.bell) (flyTime (u.bellCfg c.bell) c.intensity) c.wait c.scene with
        id := nextId u, reqAt := u.now }
      (∀ p k, u.perf p.id = some p → p.kind = .toll k → stands p → (∀ q ∈ u.perfs, stands q → q = p) →
        (p.state = .waiting → exec (.tollKey w) s = .next { u with
          keys := pressed, perfs := u.perfs.filter fun q => q.id ≠ p.id
          line := noticeLine u .perf (leavingFields p .stopped) }) ∧
        (p.state ≠ .waiting → exec (.tollKey w) s = .next { u with
          keys := pressed
          perfs := u.perfs.map fun q => if q.id = p.id then { p with
            state := .stopping, stop := .finish
            kind := .toll { k with
              limit := some (match k.limit with | some n => min n (k.sent + 1) | none => k.sent + 1) } } else q
          line := u.line.pumped })) ∧
      ((∀ q ∈ u.perfs, ¬stands q) →
        (12 ≤ u.perfs.length → exec (.tollKey w) s = .next { u with
          keys := pressed, line := noticeLine u .perf [.word "FULL", .word "PANEL"] }) ∧
        (∀ v, u.perfs.length < 12 → claimsOpen u level x.bells = true → firstFree u = some v →
          ∃ t, exec (.tollKey w) s = .next t ∧
            AdmittedAtOnce u { t with keys := u.keys, line := u.line } x.bells level (u.now + x.lead + 100) (some v) ∧
            t.perf (nextId u) = some { x with
              state := .admitted, order := some u.nextOrder, voice := some v, anchor := some (u.now + x.lead + 100) } ∧
            SceneJoined u t (nextId u) level u.nextOrder c.scene ∧ t.keys = pressed ∧ t.line = u.line.pumped) ∧
        (u.perfs.length < 12 → (claimsOpen u level x.bells = false ∨ firstFree u = none) →
          exec (.tollKey w) s = .next { u with
            keys := pressed, lastId := nextId u, perfs := if 0 < c.wait then u.perfs ++ [x] else u.perfs
            line := u.line.pumped })))) ∧
  (∀ (w : Nat) (s u : State), elapse w s = some u → u.power.phase = .on → u.keys.stop = true →
    (u.perfs.map (·.id)).Nodup →
    let cut := fun (p : Perf) => p.isStruck && decide (p.state ≠ .waiting) && decide (p.stop ≠ .cut)
    ∃ c t, CutsTaken { u with keys := { u.keys with stop := false } } c cut
        (fun p => (p.isStruck || p.isSwung) && decide (p.state = .waiting)) .stopped Perf.swingFinished ∧
      c.clock = u.clock ∧ (∀ p x, Lowers u p x → SwingOk x → DrivesLowered u c p.id x) ∧
      (∀ n, unitOk 4 n = true → (∀ p x, Lowers u p x → n ∉ x.swinging u p.id) → c.drive n = u.drive n) ∧
      ((∃ p ∈ u.perfs, cut p = true) → Offered c t) ∧ ((∀ p ∈ u.perfs, cut p = false) → t = c) ∧
      t = { c with
        bells := t.bells, perfs := t.perfs, nextOrder := t.nextOrder, voices := t.voices, lights := t.lights
        clock := t.clock, store := t.store } ∧
      exec (.stopKey w) s = .next { t with line := t.line.pumped }) ∧
  (∀ (w : Nat) (k : Key) (s u : State), elapse w s = some u → u.power.phase = .on →
    exec (.keyInputOpen w k) s = .next { u with
      keys := { toll := u.keys.toll || decide (k = .toll), silence := u.keys.silence || decide (k = .silence)
                lights := u.keys.lights || decide (k = .lights), stop := u.keys.stop || decide (k = .stop) }
      line := u.line.pumped })

/-- A power loss leaves every output undriven, empties the line and the store's queues, and keeps the standard time it came
at (R19, R140, R142, R201); power-up decides WARM or COLD by the check (R201); the start values are those of the decided
column, WARM with the time kept, and the run clock begins at 0 (R20, R202). The model's readings and choices in it: the second
in progress goes on without its slew (log 14), a program or an erase of the tune area that is cut off leaves the array as it
was (log 24), a COLD start begins at 00:00:00 of standard time, whatever the rule in force (log 82), the run
clock's count serves from power-up on, and the start values come at a whole second of the backup counter (log 30). -/
def Obligations.PowerLossAndStart : Prop :=
  (∀ (w : Nat) (s u : State), elapse w s = some u → u.power.phase = .on →
    ∃ t, exec (.powerLoss w) s = .next t ∧ t.power.phase = .off ∧ t.power.lostAt = u.tb.secs ∧
      t.tb = { u.tb with slew := none } ∧ t.cfg = u.cfg ∧ t.cal = u.cal ∧ t.clock = u.clock ∧ t.sched = u.sched ∧
      t.store.sectors = u.store.sectors ∧ t.store.slots = u.store.slots ∧
      t.line.slots = [] ∧ t.line.tx = none ∧ t.store.op = none ∧ t.store.queue = [] ∧ t.store.reads = [] ∧
      (∀ n, unitOk 4 n = true → t.dial n = { u.dial n with out := none } ∧
        t.drive n = { u.drive n with motor := none, brakeOut := none }) ∧
      (∀ b, unitOk 24 b = true → t.bell b = { u.bell b with pulse := none }) ∧
      (∀ n, unitOk 16 n = true → (t.chan n).output = 0 ∧ (t.chan n).pwmSlots = 0)) ∧
  (∀ (valid : Bool) (s : State), s.power.phase = .off →
    ∃ u, exec (.powerUp valid) s = .next u ∧ u.power.phase = .starting ∧ u.power.ready = false ∧
      u.power.kind = (if valid = true ∧ s.tb.set = true then .warm else .cold) ∧
      u.tb = { s.tb with runUs := 0 } ∧ u.cfg = s.cfg ∧ u.dials = s.dials ∧ u.clock = s.clock ∧ u.sched = s.sched) ∧
  (∀ s : State, startDueNow s = true →
    ∃ u, exec .startValues s = .next u ∧ u.power.phase = .on ∧ u.tb.runUs = 0 ∧ u.tb.sub = 0 ∧ u.tb.tick = 0 ∧
      u.tb.acc = 0 ∧ u.tb.slew = none ∧ u.tb.flag = inForce s.cfg.summer u.tb.secs ∧ u.cfg = s.cfg ∧
      u.ref.window = [] ∧ u.ref.mark = none ∧ u.line.lastStart = s.power.kind ∧ u.line.mode = s.power.mode ∧
      (s.power.kind = .cold → u.tb.secs = 0 ∧ u.tb.set = false ∧ u.tb.trim = 0 ∧ u.perfs = []) ∧
      (s.power.kind = .warm → u.tb.secs = s.tb.secs ∧ u.tb.set = true ∧ u.tb.trim = s.tb.trim ∧
        ∀ n, unitOk 4 n = true → (u.dial n).pos = (s.dial n).pos ∧ (u.dial n).pol = (s.dial n).pol ∧
          (u.dial n).isOpen = false))

end
end

