-- ==== Sys2Proof/Laws/Tables.lean ====
section
/-! SUPPORT. Reading and writing one record of a numbered table, and the units' numbers. -/

namespace Sys2Proof

/-- A unit number is in range exactly when it stands in 1..`n`. -/
theorem unitOk_iff {n k : Nat} : unitOk n k = true ↔ 1 ≤ k ∧ k ≤ n := by simp [unitOk]

namespace Machine

variable {α β : Type} {n : Nat}

/-- The record just written is read back. -/
theorem rd_wr_same {v : Vector α n} {i : Nat} {a d : α} (h : unitOk n i = true) : rd (wr v i a) i d = a := by
  obtain ⟨h1, h2⟩ := unitOk_iff.mp h
  have hi : i - 1 < n := by omega
  simp [rd, wr, h1, hi]

/-- Every other record reads as before. -/
theorem rd_wr_ne {v : Vector α n} {i j : Nat} {a d : α} (hj : 1 ≤ j) (h : j ≠ i) : rd (wr v i a) j d = rd v j d := by
  by_cases h1 : 1 ≤ i
  · have : i - 1 ≠ j - 1 := by omega
    simp [rd, wr, h1, Vector.getElem?_setIfInBounds_ne, this]
  · simp [wr, h1]

/-- Of two writes of one record the second stands. -/
@[simp] theorem wr_wr {v : Vector α n} {i : Nat} {a b : α} : wr (wr v i a) i b = wr v i b := by
  by_cases h1 : 1 ≤ i <;> simp [wr, h1]

/-- Writing what a record holds changes nothing. -/
theorem wr_rd {v : Vector α n} {i : Nat} {d : α} (h : unitOk n i = true) : wr v i (rd v i d) = v := by
  obtain ⟨h1, h2⟩ := unitOk_iff.mp h
  have hi : i - 1 < n := by omega
  ext j hj
  by_cases e : i - 1 = j
  · subst e; simp [wr, rd, h1, hi]
  · simp [wr, h1, e]

/-- A record of a table changed throughout. -/
theorem rd_map {v : Vector α n} {i : Nat} {f : α → β} {d : α} {e : β} (h : unitOk n i = true) :
    rd (v.map f) i e = f (rd v i d) := by
  obtain ⟨h1, h2⟩ := unitOk_iff.mp h
  have hi : i - 1 < n := by omega
  simp [rd, hi]

/-- A record of a table of equal records. -/
theorem rd_replicate {a d : α} {i : Nat} (h : unitOk n i = true) : rd (Vector.replicate n a) i d = a := by
  obtain ⟨h1, h2⟩ := unitOk_iff.mp h
  have hi : i - 1 < n := by omega
  simp [rd, hi]

/-- A record of a table made from its numbers. -/
theorem rd_tableOf {f : Nat → α} {d : α} {i : Nat} (h : unitOk n i = true) : rd (tableOf n f) i d = f i := by
  obtain ⟨h1, h2⟩ := unitOk_iff.mp h
  have hi : i - 1 < n := by omega
  have e : i - 1 + 1 = i := by omega
  simp [rd, tableOf, hi, e]

end Machine

end Sys2Proof
end

