-- ==== Sys2Proof/Laws/State.lean ====
section
/-! SUPPORT. One lemma per field per update of State, each true by rfl, and the records read back after a write, so that no
proof unfolds a record update. -/

namespace Sys2Proof.Machine

/-! ### Raising a notice -/

@[simp] theorem notify_tb (c : NoticeClass) (f : List Field) (s : State) : (notify c f s).tb = s.tb := rfl
@[simp] theorem notify_ref (c : NoticeClass) (f : List Field) (s : State) : (notify c f s).ref = s.ref := rfl
@[simp] theorem notify_cal (c : NoticeClass) (f : List Field) (s : State) : (notify c f s).cal = s.cal := rfl
@[simp] theorem notify_cfg (c : NoticeClass) (f : List Field) (s : State) : (notify c f s).cfg = s.cfg := rfl
@[simp] theorem notify_dials (c : NoticeClass) (f : List Field) (s : State) : (notify c f s).dials = s.dials := rfl
@[simp] theorem notify_bells (c : NoticeClass) (f : List Field) (s : State) : (notify c f s).bells = s.bells := rfl
@[simp] theorem notify_perfs (c : NoticeClass) (f : List Field) (s : State) : (notify c f s).perfs = s.perfs := rfl
@[simp] theorem notify_lastId (c : NoticeClass) (f : List Field) (s : State) : (notify c f s).lastId = s.lastId := rfl
@[simp] theorem notify_nextOrder (c : NoticeClass) (f : List Field) (s : State) : (notify c f s).nextOrder = s.nextOrder := rfl
@[simp] theorem notify_voices (c : NoticeClass) (f : List Field) (s : State) : (notify c f s).voices = s.voices := rfl
@[simp] theorem notify_clock (c : NoticeClass) (f : List Field) (s : State) : (notify c f s).clock = s.clock := rfl
@[simp] theorem notify_drives (c : NoticeClass) (f : List Field) (s : State) : (notify c f s).drives = s.drives := rfl
@[simp] theorem notify_store (c : NoticeClass) (f : List Field) (s : State) : (notify c f s).store = s.store := rfl
@[simp] theorem notify_sched (c : NoticeClass) (f : List Field) (s : State) : (notify c f s).sched = s.sched := rfl
@[simp] theorem notify_lights (c : NoticeClass) (f : List Field) (s : State) : (notify c f s).lights = s.lights := rfl
@[simp] theorem notify_line (c : NoticeClass) (f : List Field) (s : State) : (notify c f s).line = s.line.latched c f := rfl
@[simp] theorem notify_keys (c : NoticeClass) (f : List Field) (s : State) : (notify c f s).keys = s.keys := rfl
@[simp] theorem notify_power (c : NoticeClass) (f : List Field) (s : State) : (notify c f s).power = s.power := rfl
@[simp] theorem notify_drawn (c : NoticeClass) (f : List Field) (s : State) : (notify c f s).drawn = s.drawn := rfl
@[simp] theorem notify_pending (c : NoticeClass) (f : List Field) (s : State) : (notify c f s).pending = s.pending := rfl

/-! ### Writing a bell -/

@[simp] theorem setBell_tb (b : Nat) (x : Bell) (s : State) : (setBell b x s).tb = s.tb := rfl
@[simp] theorem setBell_ref (b : Nat) (x : Bell) (s : State) : (setBell b x s).ref = s.ref := rfl
@[simp] theorem setBell_cal (b : Nat) (x : Bell) (s : State) : (setBell b x s).cal = s.cal := rfl
@[simp] theorem setBell_cfg (b : Nat) (x : Bell) (s : State) : (setBell b x s).cfg = s.cfg := rfl
@[simp] theorem setBell_dials (b : Nat) (x : Bell) (s : State) : (setBell b x s).dials = s.dials := rfl
@[simp] theorem setBell_bells (b : Nat) (x : Bell) (s : State) : (setBell b x s).bells = wr s.bells b x := rfl
@[simp] theorem setBell_perfs (b : Nat) (x : Bell) (s : State) : (setBell b x s).perfs = s.perfs := rfl
@[simp] theorem setBell_lastId (b : Nat) (x : Bell) (s : State) : (setBell b x s).lastId = s.lastId := rfl
@[simp] theorem setBell_nextOrder (b : Nat) (x : Bell) (s : State) : (setBell b x s).nextOrder = s.nextOrder := rfl
@[simp] theorem setBell_voices (b : Nat) (x : Bell) (s : State) : (setBell b x s).voices = s.voices := rfl
@[simp] theorem setBell_clock (b : Nat) (x : Bell) (s : State) : (setBell b x s).clock = s.clock := rfl
@[simp] theorem setBell_drives (b : Nat) (x : Bell) (s : State) : (setBell b x s).drives = s.drives := rfl
@[simp] theorem setBell_store (b : Nat) (x : Bell) (s : State) : (setBell b x s).store = s.store := rfl
@[simp] theorem setBell_sched (b : Nat) (x : Bell) (s : State) : (setBell b x s).sched = s.sched := rfl
@[simp] theorem setBell_lights (b : Nat) (x : Bell) (s : State) : (setBell b x s).lights = s.lights := rfl
@[simp] theorem setBell_line (b : Nat) (x : Bell) (s : State) : (setBell b x s).line = s.line := rfl
@[simp] theorem setBell_keys (b : Nat) (x : Bell) (s : State) : (setBell b x s).keys = s.keys := rfl
@[simp] theorem setBell_power (b : Nat) (x : Bell) (s : State) : (setBell b x s).power = s.power := rfl
@[simp] theorem setBell_drawn (b : Nat) (x : Bell) (s : State) : (setBell b x s).drawn = s.drawn := rfl
@[simp] theorem setBell_pending (b : Nat) (x : Bell) (s : State) : (setBell b x s).pending = s.pending := rfl

/-! ### Writing a dial -/

@[simp] theorem setDial_tb (n : Nat) (x : Dial) (s : State) : (setDial n x s).tb = s.tb := rfl
@[simp] theorem setDial_ref (n : Nat) (x : Dial) (s : State) : (setDial n x s).ref = s.ref := rfl
@[simp] theorem setDial_cal (n : Nat) (x : Dial) (s : State) : (setDial n x s).cal = s.cal := rfl
@[simp] theorem setDial_cfg (n : Nat) (x : Dial) (s : State) : (setDial n x s).cfg = s.cfg := rfl
@[simp] theorem setDial_dials (n : Nat) (x : Dial) (s : State) : (setDial n x s).dials = wr s.dials n x := rfl
@[simp] theorem setDial_bells (n : Nat) (x : Dial) (s : State) : (setDial n x s).bells = s.bells := rfl
@[simp] theorem setDial_perfs (n : Nat) (x : Dial) (s : State) : (setDial n x s).perfs = s.perfs := rfl
@[simp] theorem setDial_lastId (n : Nat) (x : Dial) (s : State) : (setDial n x s).lastId = s.lastId := rfl
@[simp] theorem setDial_nextOrder (n : Nat) (x : Dial) (s : State) : (setDial n x s).nextOrder = s.nextOrder := rfl
@[simp] theorem setDial_voices (n : Nat) (x : Dial) (s : State) : (setDial n x s).voices = s.voices := rfl
@[simp] theorem setDial_clock (n : Nat) (x : Dial) (s : State) : (setDial n x s).clock = s.clock := rfl
@[simp] theorem setDial_drives (n : Nat) (x : Dial) (s : State) : (setDial n x s).drives = s.drives := rfl
@[simp] theorem setDial_store (n : Nat) (x : Dial) (s : State) : (setDial n x s).store = s.store := rfl
@[simp] theorem setDial_sched (n : Nat) (x : Dial) (s : State) : (setDial n x s).sched = s.sched := rfl
@[simp] theorem setDial_lights (n : Nat) (x : Dial) (s : State) : (setDial n x s).lights = s.lights := rfl
@[simp] theorem setDial_line (n : Nat) (x : Dial) (s : State) : (setDial n x s).line = s.line := rfl
@[simp] theorem setDial_keys (n : Nat) (x : Dial) (s : State) : (setDial n x s).keys = s.keys := rfl
@[simp] theorem setDial_power (n : Nat) (x : Dial) (s : State) : (setDial n x s).power = s.power := rfl
@[simp] theorem setDial_drawn (n : Nat) (x : Dial) (s : State) : (setDial n x s).drawn = s.drawn := rfl
@[simp] theorem setDial_pending (n : Nat) (x : Dial) (s : State) : (setDial n x s).pending = s.pending := rfl

/-! ### Writing a drive -/

@[simp] theorem setDrive_tb (n : Nat) (x : Drive) (s : State) : (setDrive n x s).tb = s.tb := rfl
@[simp] theorem setDrive_ref (n : Nat) (x : Drive) (s : State) : (setDrive n x s).ref = s.ref := rfl
@[simp] theorem setDrive_cal (n : Nat) (x : Drive) (s : State) : (setDrive n x s).cal = s.cal := rfl
@[simp] theorem setDrive_cfg (n : Nat) (x : Drive) (s : State) : (setDrive n x s).cfg = s.cfg := rfl
@[simp] theorem setDrive_dials (n : Nat) (x : Drive) (s : State) : (setDrive n x s).dials = s.dials := rfl
@[simp] theorem setDrive_bells (n : Nat) (x : Drive) (s : State) : (setDrive n x s).bells = s.bells := rfl
@[simp] theorem setDrive_perfs (n : Nat) (x : Drive) (s : State) : (setDrive n x s).perfs = s.perfs := rfl
@[simp] theorem setDrive_lastId (n : Nat) (x : Drive) (s : State) : (setDrive n x s).lastId = s.lastId := rfl
@[simp] theorem setDrive_nextOrder (n : Nat) (x : Drive) (s : State) : (setDrive n x s).nextOrder = s.nextOrder := rfl
@[simp] theorem setDrive_voices (n : Nat) (x : Drive) (s : State) : (setDrive n x s).voices = s.voices := rfl
@[simp] theorem setDrive_clock (n : Nat) (x : Drive) (s : State) : (setDrive n x s).clock = s.clock := rfl
@[simp] theorem setDrive_drives (n : Nat) (x : Drive) (s : State) : (setDrive n x s).drives = wr s.drives n x := rfl
@[simp] theorem setDrive_store (n : Nat) (x : Drive) (s : State) : (setDrive n x s).store = s.store := rfl
@[simp] theorem setDrive_sched (n : Nat) (x : Drive) (s : State) : (setDrive n x s).sched = s.sched := rfl
@[simp] theorem setDrive_lights (n : Nat) (x : Drive) (s : State) : (setDrive n x s).lights = s.lights := rfl
@[simp] theorem setDrive_line (n : Nat) (x : Drive) (s : State) : (setDrive n x s).line = s.line := rfl
@[simp] theorem setDrive_keys (n : Nat) (x : Drive) (s : State) : (setDrive n x s).keys = s.keys := rfl
@[simp] theorem setDrive_power (n : Nat) (x : Drive) (s : State) : (setDrive n x s).power = s.power := rfl
@[simp] theorem setDrive_drawn (n : Nat) (x : Drive) (s : State) : (setDrive n x s).drawn = s.drawn := rfl
@[simp] theorem setDrive_pending (n : Nat) (x : Drive) (s : State) : (setDrive n x s).pending = s.pending := rfl

/-! ### Writing a voice -/

@[simp] theorem setVoice_tb (v : Nat) (x : Voice) (s : State) : (setVoice v x s).tb = s.tb := rfl
@[simp] theorem setVoice_ref (v : Nat) (x : Voice) (s : State) : (setVoice v x s).ref = s.ref := rfl
@[simp] theorem setVoice_cal (v : Nat) (x : Voice) (s : State) : (setVoice v x s).cal = s.cal := rfl
@[simp] theorem setVoice_cfg (v : Nat) (x : Voice) (s : State) : (setVoice v x s).cfg = s.cfg := rfl
@[simp] theorem setVoice_dials (v : Nat) (x : Voice) (s : State) : (setVoice v x s).dials = s.dials := rfl
@[simp] theorem setVoice_bells (v : Nat) (x : Voice) (s : State) : (setVoice v x s).bells = s.bells := rfl
@[simp] theorem setVoice_perfs (v : Nat) (x : Voice) (s : State) : (setVoice v x s).perfs = s.perfs := rfl
@[simp] theorem setVoice_lastId (v : Nat) (x : Voice) (s : State) : (setVoice v x s).lastId = s.lastId := rfl
@[simp] theorem setVoice_nextOrder (v : Nat) (x : Voice) (s : State) : (setVoice v x s).nextOrder = s.nextOrder := rfl
@[simp] theorem setVoice_voices (v : Nat) (x : Voice) (s : State) : (setVoice v x s).voices = wr s.voices v x := rfl
@[simp] theorem setVoice_clock (v : Nat) (x : Voice) (s : State) : (setVoice v x s).clock = s.clock := rfl
@[simp] theorem setVoice_drives (v : Nat) (x : Voice) (s : State) : (setVoice v x s).drives = s.drives := rfl
@[simp] theorem setVoice_store (v : Nat) (x : Voice) (s : State) : (setVoice v x s).store = s.store := rfl
@[simp] theorem setVoice_sched (v : Nat) (x : Voice) (s : State) : (setVoice v x s).sched = s.sched := rfl
@[simp] theorem setVoice_lights (v : Nat) (x : Voice) (s : State) : (setVoice v x s).lights = s.lights := rfl
@[simp] theorem setVoice_line (v : Nat) (x : Voice) (s : State) : (setVoice v x s).line = s.line := rfl
@[simp] theorem setVoice_keys (v : Nat) (x : Voice) (s : State) : (setVoice v x s).keys = s.keys := rfl
@[simp] theorem setVoice_power (v : Nat) (x : Voice) (s : State) : (setVoice v x s).power = s.power := rfl
@[simp] theorem setVoice_drawn (v : Nat) (x : Voice) (s : State) : (setVoice v x s).drawn = s.drawn := rfl
@[simp] theorem setVoice_pending (v : Nat) (x : Voice) (s : State) : (setVoice v x s).pending = s.pending := rfl

/-! ### Writing a slot -/

@[simp] theorem setSlot_tb (n : Nat) (x : DirEntry) (s : State) : (setSlot n x s).tb = s.tb := rfl
@[simp] theorem setSlot_ref (n : Nat) (x : DirEntry) (s : State) : (setSlot n x s).ref = s.ref := rfl
@[simp] theorem setSlot_cal (n : Nat) (x : DirEntry) (s : State) : (setSlot n x s).cal = s.cal := rfl
@[simp] theorem setSlot_cfg (n : Nat) (x : DirEntry) (s : State) : (setSlot n x s).cfg = s.cfg := rfl
@[simp] theorem setSlot_dials (n : Nat) (x : DirEntry) (s : State) : (setSlot n x s).dials = s.dials := rfl
@[simp] theorem setSlot_bells (n : Nat) (x : DirEntry) (s : State) : (setSlot n x s).bells = s.bells := rfl
@[simp] theorem setSlot_perfs (n : Nat) (x : DirEntry) (s : State) : (setSlot n x s).perfs = s.perfs := rfl
@[simp] theorem setSlot_lastId (n : Nat) (x : DirEntry) (s : State) : (setSlot n x s).lastId = s.lastId := rfl
@[simp] theorem setSlot_nextOrder (n : Nat) (x : DirEntry) (s : State) : (setSlot n x s).nextOrder = s.nextOrder := rfl
@[simp] theorem setSlot_voices (n : Nat) (x : DirEntry) (s : State) : (setSlot n x s).voices = s.voices := rfl
@[simp] theorem setSlot_clock (n : Nat) (x : DirEntry) (s : State) : (setSlot n x s).clock = s.clock := rfl
@[simp] theorem setSlot_drives (n : Nat) (x : DirEntry) (s : State) : (setSlot n x s).drives = s.drives := rfl
@[simp] theorem setSlot_store (n : Nat) (x : DirEntry) (s : State) : (setSlot n x s).store = { s.store with slots := wr s.store.slots n x } := rfl
@[simp] theorem setSlot_sched (n : Nat) (x : DirEntry) (s : State) : (setSlot n x s).sched = s.sched := rfl
@[simp] theorem setSlot_lights (n : Nat) (x : DirEntry) (s : State) : (setSlot n x s).lights = s.lights := rfl
@[simp] theorem setSlot_line (n : Nat) (x : DirEntry) (s : State) : (setSlot n x s).line = s.line := rfl
@[simp] theorem setSlot_keys (n : Nat) (x : DirEntry) (s : State) : (setSlot n x s).keys = s.keys := rfl
@[simp] theorem setSlot_power (n : Nat) (x : DirEntry) (s : State) : (setSlot n x s).power = s.power := rfl
@[simp] theorem setSlot_drawn (n : Nat) (x : DirEntry) (s : State) : (setSlot n x s).drawn = s.drawn := rfl
@[simp] theorem setSlot_pending (n : Nat) (x : DirEntry) (s : State) : (setSlot n x s).pending = s.pending := rfl

/-! ### Writing a profile -/

@[simp] theorem setProfile_tb (q : Nat) (x : Profile) (s : State) : (setProfile q x s).tb = s.tb := rfl
@[simp] theorem setProfile_ref (q : Nat) (x : Profile) (s : State) : (setProfile q x s).ref = s.ref := rfl
@[simp] theorem setProfile_cal (q : Nat) (x : Profile) (s : State) : (setProfile q x s).cal = s.cal := rfl
@[simp] theorem setProfile_cfg (q : Nat) (x : Profile) (s : State) : (setProfile q x s).cfg = s.cfg := rfl
@[simp] theorem setProfile_dials (q : Nat) (x : Profile) (s : State) : (setProfile q x s).dials = s.dials := rfl
@[simp] theorem setProfile_bells (q : Nat) (x : Profile) (s : State) : (setProfile q x s).bells = s.bells := rfl
@[simp] theorem setProfile_perfs (q : Nat) (x : Profile) (s : State) : (setProfile q x s).perfs = s.perfs := rfl
@[simp] theorem setProfile_lastId (q : Nat) (x : Profile) (s : State) : (setProfile q x s).lastId = s.lastId := rfl
@[simp] theorem setProfile_nextOrder (q : Nat) (x : Profile) (s : State) : (setProfile q x s).nextOrder = s.nextOrder := rfl
@[simp] theorem setProfile_voices (q : Nat) (x : Profile) (s : State) : (setProfile q x s).voices = s.voices := rfl
@[simp] theorem setProfile_clock (q : Nat) (x : Profile) (s : State) : (setProfile q x s).clock = { s.clock with profiles := wr s.clock.profiles q x } := rfl
@[simp] theorem setProfile_drives (q : Nat) (x : Profile) (s : State) : (setProfile q x s).drives = s.drives := rfl
@[simp] theorem setProfile_store (q : Nat) (x : Profile) (s : State) : (setProfile q x s).store = s.store := rfl
@[simp] theorem setProfile_sched (q : Nat) (x : Profile) (s : State) : (setProfile q x s).sched = s.sched := rfl
@[simp] theorem setProfile_lights (q : Nat) (x : Profile) (s : State) : (setProfile q x s).lights = s.lights := rfl
@[simp] theorem setProfile_line (q : Nat) (x : Profile) (s : State) : (setProfile q x s).line = s.line := rfl
@[simp] theorem setProfile_keys (q : Nat) (x : Profile) (s : State) : (setProfile q x s).keys = s.keys := rfl
@[simp] theorem setProfile_power (q : Nat) (x : Profile) (s : State) : (setProfile q x s).power = s.power := rfl
@[simp] theorem setProfile_drawn (q : Nat) (x : Profile) (s : State) : (setProfile q x s).drawn = s.drawn := rfl
@[simp] theorem setProfile_pending (q : Nat) (x : Profile) (s : State) : (setProfile q x s).pending = s.pending := rfl

/-! ### Writing a record -/

@[simp] theorem setPerf_tb (p : Perf) (s : State) : (setPerf p s).tb = s.tb := rfl
@[simp] theorem setPerf_ref (p : Perf) (s : State) : (setPerf p s).ref = s.ref := rfl
@[simp] theorem setPerf_cal (p : Perf) (s : State) : (setPerf p s).cal = s.cal := rfl
@[simp] theorem setPerf_cfg (p : Perf) (s : State) : (setPerf p s).cfg = s.cfg := rfl
@[simp] theorem setPerf_dials (p : Perf) (s : State) : (setPerf p s).dials = s.dials := rfl
@[simp] theorem setPerf_bells (p : Perf) (s : State) : (setPerf p s).bells = s.bells := rfl
@[simp] theorem setPerf_perfs (p : Perf) (s : State) : (setPerf p s).perfs = s.perfs.map fun q => if q.id = p.id then p else q := rfl
@[simp] theorem setPerf_lastId (p : Perf) (s : State) : (setPerf p s).lastId = s.lastId := rfl
@[simp] theorem setPerf_nextOrder (p : Perf) (s : State) : (setPerf p s).nextOrder = s.nextOrder := rfl
@[simp] theorem setPerf_voices (p : Perf) (s : State) : (setPerf p s).voices = s.voices := rfl
@[simp] theorem setPerf_clock (p : Perf) (s : State) : (setPerf p s).clock = s.clock := rfl
@[simp] theorem setPerf_drives (p : Perf) (s : State) : (setPerf p s).drives = s.drives := rfl
@[simp] theorem setPerf_store (p : Perf) (s : State) : (setPerf p s).store = s.store := rfl
@[simp] theorem setPerf_sched (p : Perf) (s : State) : (setPerf p s).sched = s.sched := rfl
@[simp] theorem setPerf_lights (p : Perf) (s : State) : (setPerf p s).lights = s.lights := rfl
@[simp] theorem setPerf_line (p : Perf) (s : State) : (setPerf p s).line = s.line := rfl
@[simp] theorem setPerf_keys (p : Perf) (s : State) : (setPerf p s).keys = s.keys := rfl
@[simp] theorem setPerf_power (p : Perf) (s : State) : (setPerf p s).power = s.power := rfl
@[simp] theorem setPerf_drawn (p : Perf) (s : State) : (setPerf p s).drawn = s.drawn := rfl
@[simp] theorem setPerf_pending (p : Perf) (s : State) : (setPerf p s).pending = s.pending := rfl

/-! ### Dropping a record -/

@[simp] theorem dropPerf_tb (id : Nat) (s : State) : (dropPerf id s).tb = s.tb := rfl
@[simp] theorem dropPerf_ref (id : Nat) (s : State) : (dropPerf id s).ref = s.ref := rfl
@[simp] theorem dropPerf_cal (id : Nat) (s : State) : (dropPerf id s).cal = s.cal := rfl
@[simp] theorem dropPerf_cfg (id : Nat) (s : State) : (dropPerf id s).cfg = s.cfg := rfl
@[simp] theorem dropPerf_dials (id : Nat) (s : State) : (dropPerf id s).dials = s.dials := rfl
@[simp] theorem dropPerf_bells (id : Nat) (s : State) : (dropPerf id s).bells = s.bells := rfl
@[simp] theorem dropPerf_perfs (id : Nat) (s : State) : (dropPerf id s).perfs = s.perfs.filter fun q => q.id ≠ id := rfl
@[simp] theorem dropPerf_lastId (id : Nat) (s : State) : (dropPerf id s).lastId = s.lastId := rfl
@[simp] theorem dropPerf_nextOrder (id : Nat) (s : State) : (dropPerf id s).nextOrder = s.nextOrder := rfl
@[simp] theorem dropPerf_voices (id : Nat) (s : State) : (dropPerf id s).voices = s.voices := rfl
@[simp] theorem dropPerf_clock (id : Nat) (s : State) : (dropPerf id s).clock = s.clock := rfl
@[simp] theorem dropPerf_drives (id : Nat) (s : State) : (dropPerf id s).drives = s.drives := rfl
@[simp] theorem dropPerf_store (id : Nat) (s : State) : (dropPerf id s).store = s.store := rfl
@[simp] theorem dropPerf_sched (id : Nat) (s : State) : (dropPerf id s).sched = s.sched := rfl
@[simp] theorem dropPerf_lights (id : Nat) (s : State) : (dropPerf id s).lights = s.lights := rfl
@[simp] theorem dropPerf_line (id : Nat) (s : State) : (dropPerf id s).line = s.line := rfl
@[simp] theorem dropPerf_keys (id : Nat) (s : State) : (dropPerf id s).keys = s.keys := rfl
@[simp] theorem dropPerf_power (id : Nat) (s : State) : (dropPerf id s).power = s.power := rfl
@[simp] theorem dropPerf_drawn (id : Nat) (s : State) : (dropPerf id s).drawn = s.drawn := rfl
@[simp] theorem dropPerf_pending (id : Nat) (s : State) : (dropPerf id s).pending = s.pending := rfl

/-! ### Removing claims -/

@[simp] theorem removeClaims_tb (id : Nat) (s : State) : (removeClaims id s).tb = s.tb := rfl
@[simp] theorem removeClaims_ref (id : Nat) (s : State) : (removeClaims id s).ref = s.ref := rfl
@[simp] theorem removeClaims_cal (id : Nat) (s : State) : (removeClaims id s).cal = s.cal := rfl
@[simp] theorem removeClaims_cfg (id : Nat) (s : State) : (removeClaims id s).cfg = s.cfg := rfl
@[simp] theorem removeClaims_dials (id : Nat) (s : State) : (removeClaims id s).dials = s.dials := rfl
@[simp] theorem removeClaims_bells (id : Nat) (s : State) : (removeClaims id s).bells = s.bells.map fun x => { x with claims := x.claims.filter fun c => c.perf ≠ id } := rfl
@[simp] theorem removeClaims_perfs (id : Nat) (s : State) : (removeClaims id s).perfs = s.perfs := rfl
@[simp] theorem removeClaims_lastId (id : Nat) (s : State) : (removeClaims id s).lastId = s.lastId := rfl
@[simp] theorem removeClaims_nextOrder (id : Nat) (s : State) : (removeClaims id s).nextOrder = s.nextOrder := rfl
@[simp] theorem removeClaims_voices (id : Nat) (s : State) : (removeClaims id s).voices = s.voices := rfl
@[simp] theorem removeClaims_clock (id : Nat) (s : State) : (removeClaims id s).clock = s.clock := rfl
@[simp] theorem removeClaims_drives (id : Nat) (s : State) : (removeClaims id s).drives = s.drives := rfl
@[simp] theorem removeClaims_store (id : Nat) (s : State) : (removeClaims id s).store = s.store := rfl
@[simp] theorem removeClaims_sched (id : Nat) (s : State) : (removeClaims id s).sched = s.sched := rfl
@[simp] theorem removeClaims_lights (id : Nat) (s : State) : (removeClaims id s).lights = s.lights := rfl
@[simp] theorem removeClaims_line (id : Nat) (s : State) : (removeClaims id s).line = s.line := rfl
@[simp] theorem removeClaims_keys (id : Nat) (s : State) : (removeClaims id s).keys = s.keys := rfl
@[simp] theorem removeClaims_power (id : Nat) (s : State) : (removeClaims id s).power = s.power := rfl
@[simp] theorem removeClaims_drawn (id : Nat) (s : State) : (removeClaims id s).drawn = s.drawn := rfl
@[simp] theorem removeClaims_pending (id : Nat) (s : State) : (removeClaims id s).pending = s.pending := rfl

/-! ### Freeing a voice -/

@[simp] theorem releaseVoice_tb (id : Nat) (s : State) : (releaseVoice id s).tb = s.tb := rfl
@[simp] theorem releaseVoice_ref (id : Nat) (s : State) : (releaseVoice id s).ref = s.ref := rfl
@[simp] theorem releaseVoice_cal (id : Nat) (s : State) : (releaseVoice id s).cal = s.cal := rfl
@[simp] theorem releaseVoice_cfg (id : Nat) (s : State) : (releaseVoice id s).cfg = s.cfg := rfl
@[simp] theorem releaseVoice_dials (id : Nat) (s : State) : (releaseVoice id s).dials = s.dials := rfl
@[simp] theorem releaseVoice_bells (id : Nat) (s : State) : (releaseVoice id s).bells = s.bells := rfl
@[simp] theorem releaseVoice_perfs (id : Nat) (s : State) : (releaseVoice id s).perfs = s.perfs := rfl
@[simp] theorem releaseVoice_lastId (id : Nat) (s : State) : (releaseVoice id s).lastId = s.lastId := rfl
@[simp] theorem releaseVoice_nextOrder (id : Nat) (s : State) : (releaseVoice id s).nextOrder = s.nextOrder := rfl
@[simp] theorem releaseVoice_voices (id : Nat) (s : State) : (releaseVoice id s).voices = s.voices.map fun v => if v.perf = some id then freeVoice else v := rfl
@[simp] theorem releaseVoice_clock (id : Nat) (s : State) : (releaseVoice id s).clock = s.clock := rfl
@[simp] theorem releaseVoice_drives (id : Nat) (s : State) : (releaseVoice id s).drives = s.drives := rfl
@[simp] theorem releaseVoice_store (id : Nat) (s : State) : (releaseVoice id s).store = s.store := rfl
@[simp] theorem releaseVoice_sched (id : Nat) (s : State) : (releaseVoice id s).sched = s.sched := rfl
@[simp] theorem releaseVoice_lights (id : Nat) (s : State) : (releaseVoice id s).lights = s.lights := rfl
@[simp] theorem releaseVoice_line (id : Nat) (s : State) : (releaseVoice id s).line = s.line := rfl
@[simp] theorem releaseVoice_keys (id : Nat) (s : State) : (releaseVoice id s).keys = s.keys := rfl
@[simp] theorem releaseVoice_power (id : Nat) (s : State) : (releaseVoice id s).power = s.power := rfl
@[simp] theorem releaseVoice_drawn (id : Nat) (s : State) : (releaseVoice id s).drawn = s.drawn := rfl
@[simp] theorem releaseVoice_pending (id : Nat) (s : State) : (releaseVoice id s).pending = s.pending := rfl

/-! ### Moving the frontier -/

@[simp] theorem setFrontier_tb (k : Nat) (s : State) : (setFrontier k s).tb = s.tb := rfl
@[simp] theorem setFrontier_ref (k : Nat) (s : State) : (setFrontier k s).ref = s.ref := rfl
@[simp] theorem setFrontier_cal (k : Nat) (s : State) : (setFrontier k s).cal = s.cal := rfl
@[simp] theorem setFrontier_cfg (k : Nat) (s : State) : (setFrontier k s).cfg = s.cfg := rfl
@[simp] theorem setFrontier_dials (k : Nat) (s : State) : (setFrontier k s).dials = s.dials := rfl
@[simp] theorem setFrontier_bells (k : Nat) (s : State) : (setFrontier k s).bells = s.bells := rfl
@[simp] theorem setFrontier_perfs (k : Nat) (s : State) : (setFrontier k s).perfs = s.perfs := rfl
@[simp] theorem setFrontier_lastId (k : Nat) (s : State) : (setFrontier k s).lastId = s.lastId := rfl
@[simp] theorem setFrontier_nextOrder (k : Nat) (s : State) : (setFrontier k s).nextOrder = s.nextOrder := rfl
@[simp] theorem setFrontier_voices (k : Nat) (s : State) : (setFrontier k s).voices = s.voices := rfl
@[simp] theorem setFrontier_clock (k : Nat) (s : State) : (setFrontier k s).clock = { s.clock with frontier := k } := rfl
@[simp] theorem setFrontier_drives (k : Nat) (s : State) : (setFrontier k s).drives = s.drives := rfl
@[simp] theorem setFrontier_store (k : Nat) (s : State) : (setFrontier k s).store = s.store := rfl
@[simp] theorem setFrontier_sched (k : Nat) (s : State) : (setFrontier k s).sched = s.sched := rfl
@[simp] theorem setFrontier_lights (k : Nat) (s : State) : (setFrontier k s).lights = s.lights := rfl
@[simp] theorem setFrontier_line (k : Nat) (s : State) : (setFrontier k s).line = s.line := rfl
@[simp] theorem setFrontier_keys (k : Nat) (s : State) : (setFrontier k s).keys = s.keys := rfl
@[simp] theorem setFrontier_power (k : Nat) (s : State) : (setFrontier k s).power = s.power := rfl
@[simp] theorem setFrontier_drawn (k : Nat) (s : State) : (setFrontier k s).drawn = s.drawn := rfl
@[simp] theorem setFrontier_pending (k : Nat) (s : State) : (setFrontier k s).pending = s.pending := rfl

/-! ### Writing an outcome -/

@[simp] theorem recordQuarter_tb (o : QuarterOutcome) (k : Nat) (s : State) : (recordQuarter o k s).tb = s.tb := rfl
@[simp] theorem recordQuarter_ref (o : QuarterOutcome) (k : Nat) (s : State) : (recordQuarter o k s).ref = s.ref := rfl
@[simp] theorem recordQuarter_cal (o : QuarterOutcome) (k : Nat) (s : State) : (recordQuarter o k s).cal = s.cal := rfl
@[simp] theorem recordQuarter_cfg (o : QuarterOutcome) (k : Nat) (s : State) : (recordQuarter o k s).cfg = s.cfg := rfl
@[simp] theorem recordQuarter_dials (o : QuarterOutcome) (k : Nat) (s : State) : (recordQuarter o k s).dials = s.dials := rfl
@[simp] theorem recordQuarter_bells (o : QuarterOutcome) (k : Nat) (s : State) : (recordQuarter o k s).bells = s.bells := rfl
@[simp] theorem recordQuarter_perfs (o : QuarterOutcome) (k : Nat) (s : State) : (recordQuarter o k s).perfs = s.perfs := rfl
@[simp] theorem recordQuarter_lastId (o : QuarterOutcome) (k : Nat) (s : State) : (recordQuarter o k s).lastId = s.lastId := rfl
@[simp] theorem recordQuarter_nextOrder (o : QuarterOutcome) (k : Nat) (s : State) : (recordQuarter o k s).nextOrder = s.nextOrder := rfl
@[simp] theorem recordQuarter_voices (o : QuarterOutcome) (k : Nat) (s : State) : (recordQuarter o k s).voices = s.voices := rfl
@[simp] theorem recordQuarter_clock (o : QuarterOutcome) (k : Nat) (s : State) : (recordQuarter o k s).clock = writeOutcome o (quarterDate k) (k % 96) s.clock := rfl
@[simp] theorem recordQuarter_drives (o : QuarterOutcome) (k : Nat) (s : State) : (recordQuarter o k s).drives = s.drives := rfl
@[simp] theorem recordQuarter_store (o : QuarterOutcome) (k : Nat) (s : State) : (recordQuarter o k s).store = s.store := rfl
@[simp] theorem recordQuarter_sched (o : QuarterOutcome) (k : Nat) (s : State) : (recordQuarter o k s).sched = s.sched := rfl
@[simp] theorem recordQuarter_lights (o : QuarterOutcome) (k : Nat) (s : State) : (recordQuarter o k s).lights = s.lights := rfl
@[simp] theorem recordQuarter_line (o : QuarterOutcome) (k : Nat) (s : State) : (recordQuarter o k s).line = s.line := rfl
@[simp] theorem recordQuarter_keys (o : QuarterOutcome) (k : Nat) (s : State) : (recordQuarter o k s).keys = s.keys := rfl
@[simp] theorem recordQuarter_power (o : QuarterOutcome) (k : Nat) (s : State) : (recordQuarter o k s).power = s.power := rfl
@[simp] theorem recordQuarter_drawn (o : QuarterOutcome) (k : Nat) (s : State) : (recordQuarter o k s).drawn = s.drawn := rfl
@[simp] theorem recordQuarter_pending (o : QuarterOutcome) (k : Nat) (s : State) : (recordQuarter o k s).pending = s.pending := rfl

/-! ### Setting a stamp -/

@[simp] theorem setStamp_tb (n m : Nat) (s : State) : (setStamp n m s).tb = s.tb := rfl
@[simp] theorem setStamp_ref (n m : Nat) (s : State) : (setStamp n m s).ref = s.ref := rfl
@[simp] theorem setStamp_cal (n m : Nat) (s : State) : (setStamp n m s).cal = s.cal := rfl
@[simp] theorem setStamp_cfg (n m : Nat) (s : State) : (setStamp n m s).cfg = s.cfg := rfl
@[simp] theorem setStamp_dials (n m : Nat) (s : State) : (setStamp n m s).dials = s.dials := rfl
@[simp] theorem setStamp_bells (n m : Nat) (s : State) : (setStamp n m s).bells = s.bells := rfl
@[simp] theorem setStamp_perfs (n m : Nat) (s : State) : (setStamp n m s).perfs = s.perfs := rfl
@[simp] theorem setStamp_lastId (n m : Nat) (s : State) : (setStamp n m s).lastId = s.lastId := rfl
@[simp] theorem setStamp_nextOrder (n m : Nat) (s : State) : (setStamp n m s).nextOrder = s.nextOrder := rfl
@[simp] theorem setStamp_voices (n m : Nat) (s : State) : (setStamp n m s).voices = s.voices := rfl
@[simp] theorem setStamp_clock (n m : Nat) (s : State) : (setStamp n m s).clock = s.clock := rfl
@[simp] theorem setStamp_drives (n m : Nat) (s : State) : (setStamp n m s).drives = s.drives := rfl
@[simp] theorem setStamp_store (n m : Nat) (s : State) : (setStamp n m s).store = s.store := rfl
@[simp] theorem setStamp_sched (n m : Nat) (s : State) : (setStamp n m s).sched = { s.sched with stamps := wr s.sched.stamps n (some m) } := rfl
@[simp] theorem setStamp_lights (n m : Nat) (s : State) : (setStamp n m s).lights = s.lights := rfl
@[simp] theorem setStamp_line (n m : Nat) (s : State) : (setStamp n m s).line = s.line := rfl
@[simp] theorem setStamp_keys (n m : Nat) (s : State) : (setStamp n m s).keys = s.keys := rfl
@[simp] theorem setStamp_power (n m : Nat) (s : State) : (setStamp n m s).power = s.power := rfl
@[simp] theorem setStamp_drawn (n m : Nat) (s : State) : (setStamp n m s).drawn = s.drawn := rfl
@[simp] theorem setStamp_pending (n m : Nat) (s : State) : (setStamp n m s).pending = s.pending := rfl

/-! ### Writing an entry -/

@[simp] theorem setEntry_tb (n : Nat) (e : EntryCfg) (s : State) : (setEntry n e s).tb = s.tb := rfl
@[simp] theorem setEntry_ref (n : Nat) (e : EntryCfg) (s : State) : (setEntry n e s).ref = s.ref := rfl
@[simp] theorem setEntry_cal (n : Nat) (e : EntryCfg) (s : State) : (setEntry n e s).cal = s.cal := rfl
@[simp] theorem setEntry_cfg (n : Nat) (e : EntryCfg) (s : State) : (setEntry n e s).cfg = { s.cfg with entries := wr s.cfg.entries n e } := rfl
@[simp] theorem setEntry_dials (n : Nat) (e : EntryCfg) (s : State) : (setEntry n e s).dials = s.dials := rfl
@[simp] theorem setEntry_bells (n : Nat) (e : EntryCfg) (s : State) : (setEntry n e s).bells = s.bells := rfl
@[simp] theorem setEntry_perfs (n : Nat) (e : EntryCfg) (s : State) : (setEntry n e s).perfs = s.perfs := rfl
@[simp] theorem setEntry_lastId (n : Nat) (e : EntryCfg) (s : State) : (setEntry n e s).lastId = s.lastId := rfl
@[simp] theorem setEntry_nextOrder (n : Nat) (e : EntryCfg) (s : State) : (setEntry n e s).nextOrder = s.nextOrder := rfl
@[simp] theorem setEntry_voices (n : Nat) (e : EntryCfg) (s : State) : (setEntry n e s).voices = s.voices := rfl
@[simp] theorem setEntry_clock (n : Nat) (e : EntryCfg) (s : State) : (setEntry n e s).clock = s.clock := rfl
@[simp] theorem setEntry_drives (n : Nat) (e : EntryCfg) (s : State) : (setEntry n e s).drives = s.drives := rfl
@[simp] theorem setEntry_store (n : Nat) (e : EntryCfg) (s : State) : (setEntry n e s).store = s.store := rfl
@[simp] theorem setEntry_sched (n : Nat) (e : EntryCfg) (s : State) : (setEntry n e s).sched = s.sched := rfl
@[simp] theorem setEntry_lights (n : Nat) (e : EntryCfg) (s : State) : (setEntry n e s).lights = s.lights := rfl
@[simp] theorem setEntry_line (n : Nat) (e : EntryCfg) (s : State) : (setEntry n e s).line = s.line := rfl
@[simp] theorem setEntry_keys (n : Nat) (e : EntryCfg) (s : State) : (setEntry n e s).keys = s.keys := rfl
@[simp] theorem setEntry_power (n : Nat) (e : EntryCfg) (s : State) : (setEntry n e s).power = s.power := rfl
@[simp] theorem setEntry_drawn (n : Nat) (e : EntryCfg) (s : State) : (setEntry n e s).drawn = s.drawn := rfl
@[simp] theorem setEntry_pending (n : Nat) (e : EntryCfg) (s : State) : (setEntry n e s).pending = s.pending := rfl

/-! ### Letting the store go on -/

@[simp] theorem kick_tb (s : State) : (kick s).tb = s.tb := rfl
@[simp] theorem kick_ref (s : State) : (kick s).ref = s.ref := rfl
@[simp] theorem kick_cal (s : State) : (kick s).cal = s.cal := rfl
@[simp] theorem kick_cfg (s : State) : (kick s).cfg = s.cfg := rfl
@[simp] theorem kick_dials (s : State) : (kick s).dials = s.dials := rfl
@[simp] theorem kick_bells (s : State) : (kick s).bells = s.bells := rfl
@[simp] theorem kick_perfs (s : State) : (kick s).perfs = s.perfs := rfl
@[simp] theorem kick_lastId (s : State) : (kick s).lastId = s.lastId := rfl
@[simp] theorem kick_nextOrder (s : State) : (kick s).nextOrder = s.nextOrder := rfl
@[simp] theorem kick_voices (s : State) : (kick s).voices = s.voices := rfl
@[simp] theorem kick_clock (s : State) : (kick s).clock = s.clock := rfl
@[simp] theorem kick_drives (s : State) : (kick s).drives = s.drives := rfl
@[simp] theorem kick_sched (s : State) : (kick s).sched = s.sched := rfl
@[simp] theorem kick_lights (s : State) : (kick s).lights = s.lights := rfl
@[simp] theorem kick_line (s : State) : (kick s).line = s.line := rfl
@[simp] theorem kick_keys (s : State) : (kick s).keys = s.keys := rfl
@[simp] theorem kick_power (s : State) : (kick s).power = s.power := rfl
@[simp] theorem kick_drawn (s : State) : (kick s).drawn = s.drawn := rfl
@[simp] theorem kick_pending (s : State) : (kick s).pending = s.pending := rfl

/-! ### Reading records back -/

@[simp] theorem bell_setBell {b : Nat} {x : Bell} {s : State} (h : unitOk 24 b = true) : (setBell b x s).bell b = x :=
  rd_wr_same h

@[simp] theorem dial_setDial {n : Nat} {x : Dial} {s : State} (h : unitOk 4 n = true) : (setDial n x s).dial n = x :=
  rd_wr_same h

@[simp] theorem drive_setDrive {n : Nat} {x : Drive} {s : State} (h : unitOk 4 n = true) :
    (setDrive n x s).drive n = x := rd_wr_same h

@[simp] theorem voice_setVoice {v : Nat} {x : Voice} {s : State} (h : unitOk 4 v = true) :
    (setVoice v x s).voice v = x := rd_wr_same h

@[simp] theorem slot_setSlot {n : Nat} {x : DirEntry} {s : State} (h : unitOk 64 n = true) : (setSlot n x s).slot n = x :=
  rd_wr_same h

@[simp] theorem profile_setProfile {q : Nat} {x : Profile} {s : State} (h : unitOk 4 q = true) :
    (setProfile q x s).profile q = x := rd_wr_same h

@[simp] theorem setBell_setBell {b : Nat} {x y : Bell} {s : State} : setBell b y (setBell b x s) = setBell b y s := by
  simp [setBell]

@[simp] theorem setDrive_setDrive {n : Nat} {x y : Drive} {s : State} :
    setDrive n y (setDrive n x s) = setDrive n y s := by simp [setDrive]

@[simp] theorem setDial_setDial {n : Nat} {x y : Dial} {s : State} : setDial n y (setDial n x s) = setDial n y s := by
  simp [setDial]

@[simp] theorem setVoice_setVoice {v : Nat} {x y : Voice} {s : State} :
    setVoice v y (setVoice v x s) = setVoice v y s := by simp [setVoice]

/-! ### The record of the performance table with an id -/

/-- A record found by its id carries it. -/
theorem perf_id {s : State} {id : Nat} {p : Perf} (h : s.perf id = some p) : p.id = id := by
  have := List.find?_some h
  simpa using this

/-- A record found by its id stands in the table. -/
theorem perf_mem {s : State} {id : Nat} {p : Perf} (h : s.perf id = some p) : p ∈ s.perfs := List.mem_of_find?_eq_some h

/-- The record written over one that stands is found. -/
theorem perf_setPerf_same {s : State} {p q : Perf} (h : s.perf p.id = some q) : (setPerf p s).perf p.id = some p := by
  have key : ∀ l : List Perf, (l.find? fun x => x.id = p.id) = some q →
      ((l.map fun x => if x.id = p.id then p else x).find? fun x => x.id = p.id) = some p := by
    intro l
    induction l with
    | nil => simp
    | cons a l ih =>
      intro e
      by_cases ha : a.id = p.id
      · simp [ha]
      · simp only [List.find?_cons, ha, decide_false] at e
        simpa [ha] using ih e
  exact key s.perfs h

/-- Writing a record leaves those with other ids. -/
theorem perf_setPerf_ne {s : State} {p : Perf} {id : Nat} (h : id ≠ p.id) : (setPerf p s).perf id = s.perf id := by
  have key : ∀ l : List Perf, ((l.map fun x => if x.id = p.id then p else x).find? fun x => x.id = id) =
      l.find? fun x => x.id = id := by
    intro l
    induction l with
    | nil => simp
    | cons a l ih =>
      by_cases ha : a.id = p.id
      · have h1 : ¬ p.id = id := fun e => h e.symm
        simp [ha, h1, ih]
      · by_cases hb : a.id = id
        · simp [hb, h]
        · simp [ha, hb, ih]
  exact key s.perfs

/-- A dropped record is gone. -/
theorem perf_dropPerf_same {s : State} {id : Nat} : (dropPerf id s).perf id = none := by
  simp [State.perf, dropPerf]

/-- Dropping a record leaves those with other ids. -/
theorem perf_dropPerf_ne {s : State} {id k : Nat} (h : k ≠ id) : (dropPerf id s).perf k = s.perf k := by
  have key : ∀ l : List Perf, ((l.filter fun q => decide (q.id ≠ id)).find? fun x => x.id = k) =
      l.find? fun x => x.id = k := by
    intro l
    induction l with
    | nil => simp
    | cons a l ih =>
      by_cases ha : a.id = id
      · have h1 : ¬ a.id = k := fun e => h (e ▸ ha)
        have h2 : ¬ id = k := fun e => h e.symm
        simpa [ha, h1, h2] using ih
      · by_cases hb : a.id = k
        · simp [hb, h]
        · simpa [ha, hb] using ih
  exact key s.perfs

end Sys2Proof.Machine
end

