-- ==== Sys2Proof/Laws/Requests.lean ====
section
/-! SUPPORT. What the shared frames of the commands can do: a request (R190, R191), a time-driven event, an event from
outside, an event of a numbered unit, and the passing of time within a second. -/

namespace Sys2Proof.Machine

/-! ### The transmitter's turn -/

/-- With main power on, the answer of a command is its state with the line after the transmitter's turn. -/
theorem done_on {s : State} (h : s.power.phase = .on) : done s = .next { s with line := s.line.pumped } := by
  simp [done, pump, h]

/-- The transmitter's turn touches nothing but the line. -/
theorem pump_eq (s : State) : pump s = { s with line := (pump s).line } := by
  simp only [pump]; split <;> rfl

/-- The line after the transmitter's turn. -/
theorem pump_line (s : State) : (pump s).line = if s.power.phase = .on then s.line.pumped else s.line := by
  simp only [pump]; split <;> rfl

/-- The transmitter's turn changes only what is being sent and, where a notice begins, its pending entry. -/
theorem pumped_eq (l : Line) : l.pumped = { l with tx := l.pumped.tx, latch := l.pumped.latch } := by
  simp only [Line.pumped]
  split
  · rfl
  · split
    · rfl
    · rfl
    · split <;> rfl

@[simp] theorem pumped_slots (l : Line) : l.pumped.slots = l.slots := by rw [pumped_eq]
@[simp] theorem pumped_mask (l : Line) : l.pumped.mask = l.mask := by rw [pumped_eq]
@[simp] theorem pumped_rate (l : Line) : l.pumped.rate = l.rate := by rw [pumped_eq]
@[simp] theorem pumped_mode (l : Line) : l.pumped.mode = l.mode := by rw [pumped_eq]
@[simp] theorem pumped_lastStart (l : Line) : l.pumped.lastStart = l.lastStart := by rw [pumped_eq]
@[simp] theorem pumped_lastValidation (l : Line) : l.pumped.lastValidation = l.lastValidation := by rw [pumped_eq]
@[simp] theorem pumped_restart (l : Line) : l.pumped.restart = l.restart := by rw [pumped_eq]

/-- A latched notice changes only the latch. -/
theorem latched_eq (l : Line) (c : NoticeClass) (f : List Field) :
    l.latched c f = { l with latch := (l.latched c f).latch } := by
  simp only [Line.latched]; split <;> rfl

@[simp] theorem latched_slots (l : Line) (c : NoticeClass) (f : List Field) : (l.latched c f).slots = l.slots := by
  rw [latched_eq]
@[simp] theorem latched_tx (l : Line) (c : NoticeClass) (f : List Field) : (l.latched c f).tx = l.tx := by
  rw [latched_eq]
@[simp] theorem latched_mask (l : Line) (c : NoticeClass) (f : List Field) : (l.latched c f).mask = l.mask := by
  rw [latched_eq]
@[simp] theorem latched_rate (l : Line) (c : NoticeClass) (f : List Field) : (l.latched c f).rate = l.rate := by
  rw [latched_eq]
@[simp] theorem latched_mode (l : Line) (c : NoticeClass) (f : List Field) : (l.latched c f).mode = l.mode := by
  rw [latched_eq]
@[simp] theorem latched_restart (l : Line) (c : NoticeClass) (f : List Field) :
    (l.latched c f).restart = l.restart := by rw [latched_eq]
@[simp] theorem latched_lastStart (l : Line) (c : NoticeClass) (f : List Field) :
    (l.latched c f).lastStart = l.lastStart := by rw [latched_eq]

/-! ### Requests -/

/-- A line placed changes only the order of replies. -/
theorem placed_eq (l : Line) (x : LineSlot) : l.placed x = { l with slots := (l.placed x).slots } := by
  simp only [Line.placed]; repeat' split
  all_goals rfl

/-- A request that arrives touches nothing but the line. -/
theorem arrived_eq (i : Instr) (s : State) : arrived i s = { s with line := (arrived i s).line } := by
  simp only [arrived]; split <;> rfl

/-- A request that arrives changes only the order of replies. -/
theorem arrived_line (i : Instr) (s : State) :
    (arrived i s).line = { s.line with slots := (arrived i s).line.slots } := by
  simp only [arrived]; split
  · rfl
  · exact placed_eq _ _

/-- A request that arrives and is taken at once has been received now (R15). -/
theorem arrived_receivedAt {i : Instr} {s : State} (h : s.line.oldestWaiting = none) : (arrived i s).receivedAt = s.now := by
  have w : s.line.oldestRecv = none := by
    simp only [Line.oldestWaiting, List.findSome?_eq_none_iff] at h
    simp only [Line.oldestRecv, List.findSome?_eq_none_iff]
    intro x hx
    have := h x hx
    cases x <;> simp_all
  simp only [arrived, h, Option.isSome_none, Bool.false_eq_true, if_false, Line.placed]
  split
  · simp only [State.receivedAt, Line.oldestRecv, List.findSome?_append] at w ⊢
    rw [w]; rfl
  · split
    all_goals
      simp only [State.receivedAt, Line.oldestRecv, List.findSome?_append] at w ⊢
      rw [w]; rfl

@[simp] theorem arrived_tb (i : Instr) (s : State) : (arrived i s).tb = s.tb := by rw [arrived_eq]
@[simp] theorem arrived_ref (i : Instr) (s : State) : (arrived i s).ref = s.ref := by rw [arrived_eq]
@[simp] theorem arrived_cal (i : Instr) (s : State) : (arrived i s).cal = s.cal := by rw [arrived_eq]
@[simp] theorem arrived_cfg (i : Instr) (s : State) : (arrived i s).cfg = s.cfg := by rw [arrived_eq]
@[simp] theorem arrived_dials (i : Instr) (s : State) : (arrived i s).dials = s.dials := by rw [arrived_eq]
@[simp] theorem arrived_bells (i : Instr) (s : State) : (arrived i s).bells = s.bells := by rw [arrived_eq]
@[simp] theorem arrived_perfs (i : Instr) (s : State) : (arrived i s).perfs = s.perfs := by rw [arrived_eq]
@[simp] theorem arrived_lastId (i : Instr) (s : State) : (arrived i s).lastId = s.lastId := by rw [arrived_eq]
@[simp] theorem arrived_nextOrder (i : Instr) (s : State) : (arrived i s).nextOrder = s.nextOrder := by rw [arrived_eq]
@[simp] theorem arrived_voices (i : Instr) (s : State) : (arrived i s).voices = s.voices := by rw [arrived_eq]
@[simp] theorem arrived_clock (i : Instr) (s : State) : (arrived i s).clock = s.clock := by rw [arrived_eq]
@[simp] theorem arrived_drives (i : Instr) (s : State) : (arrived i s).drives = s.drives := by rw [arrived_eq]
@[simp] theorem arrived_store (i : Instr) (s : State) : (arrived i s).store = s.store := by rw [arrived_eq]
@[simp] theorem arrived_sched (i : Instr) (s : State) : (arrived i s).sched = s.sched := by rw [arrived_eq]
@[simp] theorem arrived_lights (i : Instr) (s : State) : (arrived i s).lights = s.lights := by rw [arrived_eq]
@[simp] theorem arrived_keys (i : Instr) (s : State) : (arrived i s).keys = s.keys := by rw [arrived_eq]
@[simp] theorem arrived_power (i : Instr) (s : State) : (arrived i s).power = s.power := by rw [arrived_eq]
@[simp] theorem arrived_drawn (i : Instr) (s : State) : (arrived i s).drawn = s.drawn := by rw [arrived_eq]
@[simp] theorem arrived_pending (i : Instr) (s : State) : (arrived i s).pending = s.pending := by rw [arrived_eq]
@[simp] theorem arrived_mode (i : Instr) (s : State) : (arrived i s).line.mode = s.line.mode := by rw [arrived_line]
@[simp] theorem arrived_mask (i : Instr) (s : State) : (arrived i s).line.mask = s.line.mask := by rw [arrived_line]

/-- A request is taken only with main power on. -/
theorem canTake_on {i : Instr} {s : State} (h : canTake i s = true) : s.power.phase = .on := by
  simp only [canTake, Bool.and_eq_true, decide_eq_true_eq] at h
  exact h.1.1

/-- A taken, well-formed request has its effect, and its reply stands in its place. -/
theorem request_taken {i : Instr} {act : State → State × Reply} {s t : State} {r : Reply} (h : canTake i s = true)
    (w : i.wellFormed = true) (e : act (arrived i s) = (t, r)) (p : t.power = s.power) :
    request i act s = .next { t with line := (t.line.answered (.ready r (rateAfter i r))).pumped } := by
  simp only [request, h, w, e, if_true]
  exact done_on (by simpa [p] using canTake_on h)

/-- A taken, well-formed request: its effect on the state with the request in the order of replies, then its reply in its
place. -/
theorem request_run {i : Instr} {act : State → State × Reply} {s : State} (h : canTake i s = true)
    (w : i.wellFormed = true) : request i act s =
      done { (act { s with line := (arrived i s).line }).1 with
        line := (act { s with line := (arrived i s).line }).1.line.answered
          (.ready (act { s with line := (arrived i s).line }).2
            (rateAfter i (act { s with line := (arrived i s).line }).2)) } := by
  have e : arrived i s = { s with line := (arrived i s).line } := arrived_eq i s
  simp only [request, h, w, if_true]
  rw [← e]

/-- A taken request whose effect leaves the line as it found it. -/
theorem request_writes {i : Instr} {act : State → State × Reply} {s t : State} {r : Reply} (h : canTake i s = true)
    (w : i.wellFormed = true) (e : act (arrived i s) = ({ t with line := (arrived i s).line }, r))
    (p : t.power = s.power) : request i act s = .next { t with line := replyLine i s r } := by
  rw [request_taken h w e p]; rfl

/-- A taken request that only answers. -/
theorem request_answers {i : Instr} {act : State → State × Reply} {s : State} {r : Reply} (h : canTake i s = true)
    (w : i.wellFormed = true) (e : act (arrived i s) = (arrived i s, r)) :
    request i act s = .next { s with line := replyLine i s r } := by
  refine request_writes (t := s) h w ?_ rfl
  rw [e, ← arrived_eq]

/-- A taken request that is malformed is answered NO SYNTAX. -/
theorem request_malformed {i : Instr} {act : State → State × Reply} {s : State} (h : canTake i s = true)
    (w : i.wellFormed = false) : request i act s = .next { s with line := replyLine i s (.no .badSyntax []) } := by
  have p : (arrived i s).power.phase = .on := by simpa using canTake_on h
  simp only [request, h, w, if_true, Bool.false_eq_true, if_false]
  rw [done_on (by simpa using canTake_on h), arrived_eq]
  simp only [replyLine]

/-- A request that cannot be taken waits in the order of replies while main power is on. -/
theorem request_waits {i : Instr} {act : State → State × Reply} {s : State} (h : canTake i s = false)
    (p : s.power.phase = .on) :
    request i act s = .next { s with line := (s.line.placed (.waiting i s.now)).pumped } := by
  simp only [request, h, p, Bool.false_eq_true, if_false, if_true]
  exact done_on p

/-- Characters are discarded while the part does not receive. -/
theorem request_discarded {i : Instr} {act : State → State × Reply} {s : State} (h : canTake i s = false)
    (p : s.power.phase ≠ .on) : request i act s = .next s := by
  simp [request, h, p]

/-- All that a request can do: it is taken, and answers with its effect or NO SYNTAX; it waits; or it is discarded. -/
theorem request_next {i : Instr} {act : State → State × Reply} {s t : State} (h : request i act s = .next t) :
    (canTake i s = true ∧ i.wellFormed = true ∧ t = pump { (act (arrived i s)).1 with
      line := (act (arrived i s)).1.line.answered (.ready (act (arrived i s)).2 (rateAfter i (act (arrived i s)).2)) }) ∨
    (t = { s with line := t.line }) := by
  cases c : canTake i s
  · right
    by_cases p : s.power.phase = .on
    · rw [request_waits c p] at h; cases h; rfl
    · rw [request_discarded c p] at h; cases h; rfl
  · cases w : i.wellFormed
    · right; rw [request_malformed c w] at h; cases h; rfl
    · left
      simp only [request, c, w, if_true, done] at h
      cases h
      exact ⟨rfl, rfl, rfl⟩

/-- A request neither faults nor is refused. -/
theorem request_ok {i : Instr} {act : State → State × Reply} {s : State} : ∃ t, request i act s = .next t := by
  simp only [request, done]; repeat' split
  all_goals exact ⟨_, rfl⟩

/-- A configuration request in SERVICE has its effect. -/
theorem serviceOnly_service {act : State → State × Reply} {s : State} (h : s.line.mode = .service) :
    serviceOnly act s = act s := by simp [serviceOnly, h]

/-- A configuration request in RUN is refused MODE. -/
theorem serviceOnly_run {act : State → State × Reply} {s : State} (h : s.line.mode = .run) :
    serviceOnly act s = (s, .no .mode []) := by simp [serviceOnly, h]

/-! ### Events -/

/-- An event of a unit that exists. -/
theorem ofUnit_ok {n k : Nat} {o : Host.Outcome State Fault Refusal} (h : unitOk n k = true) : ofUnit n k o = o := by
  simp [ofUnit, h]

/-- A time-driven event whose instant is reached has its effect then. -/
theorem timed_due {d : Nat} {body : State → State} {s u : State} (h : reachUs d s = some u) :
    timed (some d) body s = done (body u) := by simp [timed, h]

/-- All that a time-driven event can do. -/
theorem timed_next {due : Option Nat} {body : State → State} {s t : State} (h : timed due body s = .next t) :
    t = s ∨ ∃ d u, due = some d ∧ reachUs d s = some u ∧ t = pump (body u) := by
  unfold timed at h
  split at h
  · cases h; exact .inl rfl
  · split at h
    · cases h; exact .inl rfl
    · cases h; exact .inr ⟨_, _, rfl, ‹_›, rfl⟩

/-- A time-driven event neither faults nor is refused. -/
theorem timed_ok {due : Option Nat} {body : State → State} {s : State} : ∃ t, timed due body s = .next t := by
  simp only [timed, done]; repeat' split
  all_goals exact ⟨_, rfl⟩

/-- An event from outside, taken while main power is on. -/
theorem outside_on {w : Nat} {body : State → State} {s u : State} (h : elapse w s = some u)
    (p : u.power.phase = .on) : outside w body s = done (body u) := by simp [outside, h, p]

/-- All that an event from outside can do. -/
theorem outside_next {w : Nat} {body : State → State} {s t : State} (h : outside w body s = .next t) :
    ∃ u, elapse w s = some u ∧ (t = u ∨ (u.power.phase = .on ∧ t = pump (body u))) := by
  unfold outside at h
  split at h
  · cases h
  · split at h
    · cases h; exact ⟨_, ‹_›, .inr ⟨‹_›, rfl⟩⟩
    · cases h; exact ⟨_, ‹_›, .inl rfl⟩

/-- An event from outside is never refused, and faults only beyond the second in progress. -/
theorem outside_stops {w : Nat} {body : State → State} {s : State} :
    (∃ t, outside w body s = .next t) ∨ outside w body s = .fault .pastSecondEnd := by
  simp only [outside, done]; repeat' split
  · exact .inr rfl
  all_goals exact .inl ⟨_, rfl⟩

/-! ### Time -/

/-- Reaching an instant lets oscillator ticks pass and changes nothing else. -/
theorem reachUs_eq {d : Nat} {s u : State} (h : reachUs d s = some u) : u = s ∨ ∃ j, u = { s with tb := s.tb.count j } := by
  unfold reachUs at h
  repeat' split at h
  all_goals cases h
  · exact .inl rfl
  · exact .inr ⟨_, rfl⟩

/-- The passing of oscillator ticks changes nothing but the timebase. -/
theorem elapse_eq {w : Nat} {s u : State} (h : elapse w s = some u) : u = s ∨ u = { s with tb := s.tb.count w } := by
  unfold elapse at h
  repeat' split at h
  all_goals cases h
  · exact .inl rfl
  · exact .inr rfl

/-- Main power stands as it stood when an instant is reached. -/
theorem reachUs_power {d : Nat} {s u : State} (h : reachUs d s = some u) : u.power = s.power := by
  obtain rfl | ⟨j, rfl⟩ := reachUs_eq h <;> rfl

/-- The subsecond after `j` more ticks. Rewrite with this and the next; a definitional check of the sum can make the
kernel count to a million. -/
theorem count_sub_eq (t : Timebase) (j : Nat) : (t.count j).sub =
    t.sub + min (gained (t.tick + j) t.len - gained t.tick t.len) (1000000 - t.sub) := rfl

/-- The run clock after `j` more ticks. -/
theorem count_runUs_eq (t : Timebase) (j : Nat) : (t.count j).runUs =
    t.runUs + min (gained (t.tick + j) t.len - gained t.tick t.len) (1000000 - t.sub) := rfl

@[simp] theorem count_secs (t : Timebase) (j : Nat) : (t.count j).secs = t.secs := rfl
@[simp] theorem count_set (t : Timebase) (j : Nat) : (t.count j).set = t.set := rfl
@[simp] theorem count_flag (t : Timebase) (j : Nat) : (t.count j).flag = t.flag := rfl
@[simp] theorem count_trim (t : Timebase) (j : Nat) : (t.count j).trim = t.trim := rfl
@[simp] theorem count_acc (t : Timebase) (j : Nat) : (t.count j).acc = t.acc := rfl
@[simp] theorem count_slew (t : Timebase) (j : Nat) : (t.count j).slew = t.slew := rfl
@[simp] theorem count_len (t : Timebase) (j : Nat) : (t.count j).len = t.len := rfl
@[simp] theorem count_tick (t : Timebase) (j : Nat) : (t.count j).tick = t.tick + j := rfl
@[simp] theorem count_osc (t : Timebase) (j : Nat) : (t.count j).osc = t.osc + j := rfl

/-- The run clock never goes back by counting. -/
theorem count_runUs_le (t : Timebase) (j : Nat) : t.runUs ≤ (t.count j).runUs := by rw [count_runUs_eq]; omega

/-- Standard time stands at the end of its second until the second end is taken. -/
theorem count_sub {t : Timebase} (h : t.sub ≤ 1000000) (j : Nat) : (t.count j).sub ≤ 1000000 := by
  rw [count_sub_eq]; omega

/-- Standard time and the run clock gain the same microseconds (R3). -/
theorem count_gains (t : Timebase) (j : Nat) : (t.count j).sub + t.runUs = t.sub + (t.count j).runUs := by
  rw [count_sub_eq, count_runUs_eq]; omega

end Sys2Proof.Machine
end

