-- ==== Sys2Proof/Laws/Invariants.lean ====
section
/-! SUPPORT. The laws of claim lists (R69), channels (R175, R180) and sectors (R141) under the writes that touch them: what
each write asks for, and that it keeps the law. -/

namespace Sys2Proof.Machine

/-! ### Claims -/

/-- The bells of a set are those in it, in 1..24. -/
theorem mem_bellList {m : BellSet} {b : Nat} : b ∈ bellList m ↔ unitOk 24 b = true ∧ bellIn m b = true := by
  simp only [bellList, List.mem_filterMap, List.mem_range, unitOk_iff, bellIn, Bool.and_eq_true, decide_eq_true_eq]
  constructor
  · rintro ⟨i, hi, e⟩
    split at e <;> cases e
    rename_i hb
    exact ⟨⟨by omega, by omega⟩, by omega, by simpa using hb⟩
  · rintro ⟨⟨h1, h2⟩, -, h3⟩
    exact ⟨b - 1, by omega, by simp [h3]; omega⟩

/-- The bells of a set are listed once each. -/
theorem bellList_nodup (m : BellSet) : (bellList m).Nodup := by
  refine List.Nodup.filterMap ?_ List.nodup_range
  intro a b c ha hb
  split at ha <;> split at hb <;> simp_all
  omega

/-- A placed record stands on top of the claim list of every bell of the set, and nothing else of a bell changes (R70). -/
theorem bell_placeClaims {c : Claim} {m : BellSet} {s : State} {b : Nat} (h : unitOk 24 b = true) :
    (placeClaims c m s).bell b =
      { s.bell b with claims := (if bellIn m b = true then [c] else []) ++ (s.bell b).claims } := by
  have key : ∀ (l : List Nat) (t : State), l.Nodup → (∀ x ∈ l, unitOk 24 x = true) →
      (l.foldl (fun t b => setBell b { t.bell b with claims := c :: (t.bell b).claims } t) t).bell b =
        { t.bell b with claims := (if b ∈ l then [c] else []) ++ (t.bell b).claims } := by
    intro l
    induction l with
    | nil => intro t _ _; simp
    | cons a l ih =>
      intro t nd ok
      rw [List.foldl_cons, ih _ (List.nodup_cons.mp nd).2 fun x hx => ok x (List.mem_cons_of_mem _ hx)]
      have oka := ok a List.mem_cons_self
      by_cases e : b = a
      · subst e
        rw [bell_setBell h]
        simp [(List.nodup_cons.mp nd).1]
      · have : (setBell a { t.bell a with claims := c :: (t.bell a).claims } t).bell b = t.bell b :=
          rd_wr_ne (unitOk_iff.mp h).1 e
        rw [this]
        simp [e]
  have e : bellIn m b = true ↔ b ∈ bellList m := by simp [mem_bellList, h]
  rw [placeClaims, key _ _ (bellList_nodup m) fun x hx => (mem_bellList.mp hx).1]
  by_cases k : bellIn m b = true
  · simp [k, e.mp k]
  · have : b ∉ bellList m := fun x => k (e.mpr x)
    simp [k, this]

/-- Claims placed touch only the bells (R70). -/
theorem placeClaims_eq (c : Claim) (m : BellSet) (s : State) :
    placeClaims c m s = { s with bells := (placeClaims c m s).bells } := by
  simp only [placeClaims]
  generalize bellList m = l
  induction l generalizing s with
  | nil => rfl
  | cons a l ih => rw [List.foldl_cons, ih]; rfl

/-- The claim lists once a performance's records are gone (R72). -/
theorem bell_removeClaims {id : Nat} {s : State} {b : Nat} (h : unitOk 24 b = true) :
    (removeClaims id s).bell b = { s.bell b with claims := (s.bell b).claims.filter fun c => c.perf ≠ id } :=
  rd_map h

/-- The law stands where records leave the lists and the table, and their levels stay. -/
theorem ClaimListsOk.mono {bells bells' : Vector Bell 24} {o o' : Nat} {ps ps' : List Perf} (h : ClaimListsOk bells o ps)
    (sub : ∀ b, unitOk 24 b = true → (rd bells' b startBell).claims.Sublist (rd bells b startBell).claims) (ho : o ≤ o')
    (lv : ∀ p ∈ ps', p.level ≤ 3) : ClaimListsOk bells' o' ps' where
  falls := fun b hb => (h.falls b hb).sublist (sub b hb)
  given := fun b hb c hc => ⟨(h.given b hb c ((sub b hb).mem hc)).1, Nat.lt_of_lt_of_le (h.given b hb c ((sub b hb).mem hc)).2 ho⟩
  levels := lv

/-- A write of a bell's record that keeps its claims keeps the law. -/
theorem ClaimListsOk.bell {s : State} {b : Nat} {x : Bell} (e : x.claims = (s.bell b).claims)
    (h : ClaimListsOk s.bells s.nextOrder s.perfs) : ClaimListsOk (wr s.bells b x) s.nextOrder s.perfs := by
  refine h.mono (fun k hk => ?_) (Nat.le_refl _) h.levels
  by_cases he : k = b
  · subst he; rw [rd_wr_same hk, e]; exact List.Sublist.refl _
  · rw [rd_wr_ne (unitOk_iff.mp hk).1 he]

/-- An admission keeps the law: the claim test has found every bell of the set open, and the order is a new one (R70). -/
theorem ClaimListsOk.place {s : State} {c : Claim} {m : BellSet} (h : ClaimListsOk s.bells c.order s.perfs)
    (l : c.level ≤ 3) (t : claimsOpen s c.level m = true) :
    ClaimListsOk (placeClaims c m s).bells (c.order + 1) s.perfs := by
  have e : ∀ b, unitOk 24 b = true → (rd (placeClaims c m s).bells b startBell).claims =
      (if bellIn m b = true then [c] else []) ++ (rd s.bells b startBell).claims := fun b hb =>
    congrArg Bell.claims (bell_placeClaims (c := c) (m := m) (s := s) hb)
  refine { falls := fun b hb => ?_, given := fun b hb x hx => ?_, levels := h.levels }
  · rw [e b hb]
    split
    · rename_i hm
      have o : claimOpen s c.level b = true := (List.all_eq_true.mp t) b (mem_bellList.mpr ⟨hb, hm⟩)
      refine List.pairwise_cons.mpr ⟨fun y hy => ⟨?_, (h.given b hb y hy).2⟩, h.falls b hb⟩
      have f := h.falls b hb
      cases k : (rd s.bells b startBell).claims with
      | nil => rw [k] at hy; cases hy
      | cons z zs =>
        have : c.level < z.level := by simpa [claimOpen, State.bell, k] using o
        rw [k] at hy f
        rcases List.mem_cons.mp hy with rfl | hy
        · exact this
        · exact Nat.lt_trans this ((List.pairwise_cons.mp f).1 y hy).1
    · exact h.falls b hb
  · rw [e b hb] at hx
    rcases List.mem_append.mp hx with hx | hx
    · split at hx
      · rw [List.mem_singleton.mp hx]; exact ⟨l, Nat.lt_succ_self _⟩
      · cases hx
    · exact ⟨(h.given b hb x hx).1, Nat.lt_succ_of_lt (h.given b hb x hx).2⟩

/-! ### Channels and scenes -/

theorem darkScene_ok : SceneOk darkScene := by
  intro n l h e
  rw [darkScene, rd_replicate h] at e
  cases e; exact Nat.zero_le _

/-- Every scene that a request or an entry names keeps its levels in range (R173). -/
theorem SettingsOk.scene {s : State} (h : SettingsOk s.cfg) (k : Nat) : SceneOk (s.scene k) := by
  unfold State.scene
  split
  · exact darkScene_ok
  · by_cases hk : unitOk 32 k = true
    · exact h.scenes k hk
    · have : rd s.cfg.scenes k darkScene = darkScene := by
        have : ¬k - 1 < 32 := fun h => hk (unitOk_iff.mpr ⟨by omega, by omega⟩)
        simp [rd, this]
      rw [this]; exact darkScene_ok

theorem ChannelOk.resolved_le {c : Channel} (h : ChannelOk c) : c.resolved ≤ 4095 := by
  unfold Channel.resolved
  split
  · exact h.override _ ‹_›
  · cases hp : c.perf with
    | some l => exact h.perf l hp
    | none =>
      cases hb : c.base with
      | some l => exact h.base l hb
      | none => exact Nat.zero_le _

theorem ChannelOk.startFade {c : Channel} (h : ChannelOk c) {tg n now : Nat} (l : tg ≤ 4095) : ChannelOk (c.startFade tg n now) := by
  unfold Channel.startFade
  split
  · exact { h with target := l }
  · rename_i nt
    split
    · exact { h with target := l, output := l, fade := (fun _ e => nomatch e), tripped := fun e => absurd e nt }
    · refine { h with target := l, fade := ?_, tripped := fun e => absurd e nt }
      intro f e; cases e
      exact ⟨h.output, l, Nat.min_le_left _ _, Nat.le_max_left _ _⟩

theorem ChannelOk.resolve {c : Channel} (h : ChannelOk c) (n now : Nat) : ChannelOk (c.resolve n now) := by
  unfold Channel.resolve
  split
  · exact h
  · exact h.startFade h.resolved_le

theorem ChannelOk.baseChange {c : Channel} (h : ChannelOk c) {base : Option Nat} (l : ∀ x, base = some x → x ≤ 4095)
    (n now : Nat) : ChannelOk (c.baseChange base n now) := by
  unfold Channel.baseChange
  refine ChannelOk.resolve ?_ _ _
  exact
    { base := l, perf := h.perf, target := h.target, output := h.output, fade := h.fade, tripped := h.tripped
      override := by
        intro o e
        cases k : c.override with
        | none => simp only [k] at e; cases e
        | some x =>
          simp only [k] at e
          split at e <;> cases e
          exact h.override _ k }

/-- A write of one channel that keeps the law. -/
theorem LightsOk.chan {s : State} (h : LightsOk s.lights) {n : Nat} {c : Channel} (k : ChannelOk c) :
    LightsOk (setChan n c s).lights where
  chans := by
    intro m hm
    by_cases e : m = n
    · subst e; rw [show rd (setChan m c s).lights.chans m startChannel = c from rd_wr_same hm]; exact k
    · rw [show rd (setChan n c s).lights.chans m startChannel = rd s.lights.chans m startChannel from
        rd_wr_ne (unitOk_iff.mp hm).1 e]
      exact h.chans m hm
  contribs := h.contribs

/-- A change of channels in turn that keeps each channel's law. -/
theorem LightsOk.onChans {f : Nat → Channel → Channel} {ns : List Nat} {s : State} (u : ∀ n ∈ ns, unitOk 16 n = true)
    (k : ∀ n ∈ ns, ∀ c, ChannelOk c → ChannelOk (f n c)) (h : LightsOk s.lights) : LightsOk (onChans f ns s).lights := by
  induction ns generalizing s with
  | nil => exact h
  | cons n ns ih =>
    exact ih (s := setChan n (f n (s.chan n)) s) (fun m hm => u m (List.mem_cons_of_mem _ hm))
      (fun m hm => k m (List.mem_cons_of_mem _ hm)) (h.chan (k n List.mem_cons_self _ (h.chans n (u n List.mem_cons_self))))

/-- A change of channels in turn touches only the lights. -/
theorem onChans_eq (f : Nat → Channel → Channel) (ns : List Nat) (s : State) :
    onChans f ns s = { s with lights := (onChans f ns s).lights } := by
  simp only [onChans]
  induction ns generalizing s with
  | nil => rfl
  | cons n ns ih => rw [List.foldl_cons, ih]; rfl

theorem allChans_unit {n : Nat} (h : n ∈ allChans) : unitOk 16 n = true := by
  simp only [allChans, List.mem_map, List.mem_range] at h
  obtain ⟨i, hi, rfl⟩ := h
  exact unitOk_iff.mpr ⟨by omega, by omega⟩

theorem mem_insertBy {α : Type} {lt : α → α → Bool} {a x : α} {l : List α} (h : x ∈ insertBy lt a l) : x = a ∨ x ∈ l := by
  induction l with
  | nil => exact .inl (List.mem_singleton.mp h)
  | cons b l ih =>
    simp only [insertBy] at h
    split at h
    · exact List.mem_cons.mp h
    · rcases List.mem_cons.mp h with h | h
      · exact .inr (List.mem_cons.mpr (.inl h))
      · exact (ih h).imp id (List.mem_cons_of_mem _)

theorem contributed_le {l : List Contribution} (h : ∀ c ∈ l, SceneOk c.scene) {n x : Nat} (hn : unitOk 16 n = true)
    (e : contributed l n = some x) : x ≤ 4095 := by
  obtain ⟨c, hc, e⟩ := List.exists_of_findSome?_eq_some e
  exact h c hc n x hn e

/-- A new content of the contribution list keeps the law where its scenes do (R177). -/
theorem LightsOk.setContribs {l : List Contribution} {fade : Nat} {s : State} (k : ∀ c ∈ l, SceneOk c.scene)
    (h : LightsOk s.lights) : LightsOk (setContribs l fade s).lights := by
  refine LightsOk.onChans (s := { s with lights := { s.lights with contribs := l } }) (fun _ => allChans_unit) ?_
    { chans := h.chans, contribs := k }
  intro n hn c hc
  split
  · exact hc
  · exact ChannelOk.resolve (c := { c with perf := contributed l n })
      { base := hc.base, perf := fun x e => contributed_le k (allChans_unit hn) e, override := hc.override
        target := hc.target, output := hc.output, fade := hc.fade, tripped := hc.tripped } _ _

theorem LightsOk.joinScene {p level order : Nat} {k : Option Nat} {s : State} (c : SettingsOk s.cfg) (h : LightsOk s.lights) :
    LightsOk (joinScene p level order k s).lights := by
  simp only [Machine.joinScene]
  split
  · exact h
  · refine LightsOk.setContribs (fun x hx => ?_) h
    rcases mem_insertBy hx with rfl | hx
    · exact c.scene _
    · exact h.contribs x hx

theorem LightsOk.leaveScene {p : Nat} {s : State} (h : LightsOk s.lights) : LightsOk (leaveScene p s).lights := by
  simp only [Machine.leaveScene]
  split
  · exact h
  · exact LightsOk.setContribs (fun x hx => h.contribs x (List.mem_of_mem_filter hx)) h

theorem LightsOk.partialBase {sc : Scene} {s : State} (k : SceneOk sc) (h : LightsOk s.lights) :
    LightsOk (partialBase sc s).lights := by
  refine LightsOk.onChans (fun _ => allChans_unit) (fun n hn c hc => ?_) h
  split
  · rename_i l e
    exact hc.baseChange (fun x ex => by cases ex; exact k n _ (allChans_unit hn) e) _ _
  · exact hc

theorem LightsOk.wholeBase {v : Vector (Option (Nat × Nat)) 16} {s : State}
    (k : ∀ n l f, unitOk 16 n = true → rd v n none = some (l, f) → l ≤ 4095) (h : LightsOk s.lights) :
    LightsOk (wholeBase v s).lights := by
  refine LightsOk.onChans (fun _ => allChans_unit) (fun n hn c hc => ?_) h
  split
  · rename_i l f e
    exact hc.baseChange (fun x ex => by cases ex; exact k n _ _ (allChans_unit hn) e) _ _
  · exact hc.baseChange (by intro _ e; cases e) _ _

theorem sceneBase_ok {sc : Scene} (k : SceneOk sc) (n l f : Nat) (h : unitOk 16 n = true)
    (e : rd (sceneBase sc) n none = some (l, f)) : l ≤ 4095 := by
  rw [sceneBase, rd_map (d := none) h] at e
  cases x : rd sc.levels n none with
  | none => rw [x] at e; cases e
  | some y => rw [x] at e; cases e; exact k n _ h x

theorem LightsOk.applyFallback {s : State} (c : SettingsOk s.cfg) (h : LightsOk s.lights) :
    LightsOk (applyFallback s).lights := by
  refine LightsOk.wholeBase (sceneBase_ok ?_) h
  split
  · exact c.scene _
  · exact darkScene_ok

theorem LightsOk.setOverride {o : Option Override} {fade : Nat} {ns : List Nat} {s : State}
    (k : ∀ x, o = some x → x.level ≤ 4095) (u : ∀ n ∈ ns, unitOk 16 n = true) (h : LightsOk s.lights) :
    LightsOk (setOverride o fade ns s).lights :=
  LightsOk.onChans u (fun _ _ c hc => ChannelOk.resolve (c := { c with override := o })
    { base := hc.base, perf := hc.perf, override := k, target := hc.target, output := hc.output, fade := hc.fade
      tripped := hc.tripped } _ _) h

/-! ### The store's operations -/

/-- A read that begins is the read that was asked for. -/
theorem beginRead_read (st : Store) (q : ReadReq) : ∃ es src, beginRead st q = .read q es src := by
  unfold beginRead
  split <;> (try split) <;> exact ⟨_, _, rfl⟩

/-- What is in progress stands before the queue: that the head of the queue begins changes no entry (R142). -/
theorem begun_entries (st : Store) (now : Nat) : (st.begun now).entries = st.entries := by
  simp only [Store.begun]
  split
  · rfl
  · rename_i ho
    split
    · rename_i q l _
      obtain ⟨es, src, e⟩ := beginRead_read st q
      simp only [Store.entries, ho, e]
    · split
      · rename_i q l hq
        simp only [Store.entries, ho, hq]
        cases q <;> rfl
      · rfl

/-- The sectors' law speaks of the directory, the free list, the loading record, the entries and the resumptions alone. -/
theorem SectorListsOk.congr {st st' : Store} (h : SectorListsOk st) (slots : st'.slots = st.slots) (free : st'.free = st.free)
    (load : st'.load = st.load) (entries : st'.entries = st.entries) (resume : st'.resume = st.resume) (scan : NoScan st') :
    SectorListsOk st' := by
  constructor
  · rw [ownedSectors, slots, free]; exact h.shared
  · rw [slots]; exact h.empty
  · rw [slots, load, entries]; exact h.loading
  · rw [slots, entries]; exact h.closings
  · rw [slots, entries]; exact h.erases
  · rw [slots, entries]; exact h.finals
  · rw [slots, entries, resume]; exact h.resume
  · exact scan

/-- A read that begins comes from the read list; no scan begins where none was asked for. -/
theorem NoScan.begun {st : Store} (h : NoScan st) (now : Nat) : NoScan (st.begun now) := by
  simp only [Store.begun]
  split
  · exact h
  · split
    · rename_i ho q l hl
      refine ⟨fun r hr => h.1 r (by rw [hl]; exact List.mem_cons_of_mem _ hr), ?_⟩
      intro r es src t e
      have hq : q.reader.isScan = false := h.1 q (by rw [hl]; exact List.mem_cons_self)
      obtain ⟨es', src', hb⟩ := beginRead_read st q
      simp only [hb] at e
      cases e
      exact hq
    · split
      · rename_i ho _ q l hq
        refine ⟨h.1, ?_⟩
        intro r es src t e
        cases q <;> cases e
      · exact h

theorem SectorListsOk.begun {st : Store} (h : SectorListsOk st) (now : Nat) : SectorListsOk (st.begun now) := by
  have f : (st.begun now).slots = st.slots ∧ (st.begun now).free = st.free ∧ (st.begun now).load = st.load ∧
      (st.begun now).resume = st.resume := by
    simp only [Store.begun]
    repeat' split
    all_goals exact ⟨rfl, rfl, rfl, rfl⟩
  exact h.congr f.1 f.2.1 f.2.2.1 (begun_entries _ _) f.2.2.2 (h.scan.begun now)

/-- A slot's sectors are named once. -/
theorem SectorListsOk.nodup {st : Store} (h : SectorListsOk st) {n : Nat} (hn : unitOk 64 n = true) :
    (rd st.slots n emptyEntry).sectors.Nodup := by
  have nd : (ownedSectors st).Nodup := ((List.nodup_append.mp (h.shared.nodup_iff.mpr List.nodup_range)).2.1)
  obtain ⟨h1, h2⟩ := unitOk_iff.mp hn
  have hi : n - 1 < 64 := by omega
  have e : rd st.slots n emptyEntry = st.slots[n - 1] := by simp [rd, hi]
  rw [e]
  exact (List.nodup_flatMap.mp nd).1 _ (by simp)

theorem entries_append (st : Store) (l : List QueueOp) :
    ({ st with queue := st.queue ++ l } : Store).entries = st.entries ++ l := by
  simp only [Store.entries, List.append_assoc]

theorem entries_withResume (st : Store) (l : List Nat) : ({ st with resume := l } : Store).entries = st.entries := rfl

/-- An erase resumption joins the queue: its slot has no entry there, so that its erases and its final write are the only
ones (R153). -/
theorem SectorListsOk.join {st : Store} {n : Nat} {l : List Nat} (h : SectorListsOk { st with resume := n :: l }) :
    SectorListsOk { st with queue := st.queue ++ resumption st n, resume := l } := by
  obtain ⟨nd, all⟩ := h.resume
  obtain ⟨hn, er, nf, ne⟩ := all n List.mem_cons_self
  have nl : n ∉ l := (List.nodup_cons.mp nd).1
  have sn : (rd st.slots n emptyEntry).sectors.Nodup := h.nodup hn
  have old : ({ st with resume := n :: l } : Store).entries = st.entries := rfl
  have new : ({ st with queue := st.queue ++ resumption st n, resume := l } : Store).entries =
      st.entries ++ resumption st n := entries_append st _
  rw [old] at nf ne
  have inNew : ∀ q, q ∈ resumption st n ↔ (∃ k ∈ (rd st.slots n emptyEntry).sectors, q = .erase n k) ∨ q = .dirWrite n .final := by
    intro q
    simp only [resumption, List.mem_append, List.mem_map, List.mem_singleton]
    constructor
    · rintro (⟨k, hk, rfl⟩ | rfl)
      · exact .inl ⟨k, hk, rfl⟩
      · exact .inr rfl
    · rintro (⟨k, hk, rfl⟩ | rfl)
      · exact .inl ⟨k, hk, rfl⟩
      · exact .inr rfl
  have noClosing : ∀ m, QueueOp.dirWrite m .closing ∉ resumption st n := by
    intro m hm
    rcases (inNew _).mp hm with ⟨k, -, e⟩ | e <;> cases e
  have cnt : ∀ k, k ∈ (rd st.slots n emptyEntry).sectors → (resumption st n).count (.erase n k) = 1 := by
    intro k hk
    rw [resumption, List.count_append, List.count_eq_zero_of_not_mem (l := [_]) (by simp), Nat.add_zero,
      List.count_map_of_injective _ _ (fun a b e => by injection e) k]
    exact List.count_eq_one_of_mem sn hk
  constructor
  · exact h.shared
  · exact h.empty
  · intro x hx
    obtain ⟨a, b, c⟩ := h.loading x hx
    refine ⟨a, b, ?_⟩
    rw [new]
    intro hm
    rcases List.mem_append.mp hm with hm | hm
    · exact c hm
    · exact noClosing _ hm
  · intro m hm
    rw [new] at hm ⊢
    rcases List.mem_append.mp hm with hm | hm
    · obtain ⟨a, b, c⟩ := h.closings m hm
      refine ⟨a, ?_, c⟩
      rw [List.count_append, List.count_eq_zero_of_not_mem (noClosing m), Nat.add_zero]
      exact b
    · exact absurd hm (noClosing m)
  · intro m k hm
    rw [new] at hm ⊢
    rcases List.mem_append.mp hm with hm | hm
    · obtain ⟨a, b, c, d⟩ := h.erases m k hm
      refine ⟨a, ?_, c, d⟩
      have : QueueOp.erase m k ∉ resumption st n := by
        intro hm'
        rcases (inNew _).mp hm' with ⟨k', -, e⟩ | e <;> cases e
        exact ne k hm
      rw [List.count_append, List.count_eq_zero_of_not_mem this, Nat.add_zero]
      exact b
    · rcases (inNew _).mp hm with ⟨k', hk, e⟩ | e <;> cases e
      refine ⟨hn, ?_, er, hk⟩
      rw [List.count_append, List.count_eq_zero_of_not_mem (ne k), Nat.zero_add]
      exact cnt k hk
  · intro m a b e
    rw [new] at e
    have last : resumption st n = ((rd st.slots n emptyEntry).sectors.map (QueueOp.erase n)) ++ [.dirWrite n .final] := rfl
    rcases List.append_eq_append_iff.mp e with ⟨a', ha, hb⟩ | ⟨c', ha, hb⟩
    · -- the final write stands in the resumption
      rw [last] at hb
      have mn : m = n ∧ b = [] ∧ a' = (rd st.slots n emptyEntry).sectors.map (QueueOp.erase n) := by
        rcases List.append_eq_append_iff.mp hb with ⟨c, h1, h2⟩ | ⟨c, h1, h2⟩
        · cases c with
          | nil => simp only [List.nil_append, List.cons.injEq] at h2; simp only [List.append_nil] at h1
                   exact ⟨by injection h2.1 with h; exact h.symm, h2.2.symm, h1⟩
          | cons y ys => simp at h2
        · cases c with
          | nil => simp only [List.nil_append, List.cons.injEq] at h2; simp only [List.append_nil] at h1
                   exact ⟨by injection h2.1, h2.2, h1.symm⟩
          | cons y ys =>
            have : QueueOp.dirWrite m .final ∈ (rd st.slots n emptyEntry).sectors.map (QueueOp.erase n) := by
              rw [h1]; exact List.mem_append_right _ (by injection h2 with h2 _; rw [h2]; exact List.mem_cons_self)
            obtain ⟨k, -, e⟩ := List.mem_map.mp this
            cases e
      obtain ⟨rfl, rfl, rfl⟩ := mn
      refine ⟨hn, er, ?_, by simp, by simp⟩
      intro k hk
      rw [ha]
      exact List.mem_append_right _ (List.mem_map.mpr ⟨k, hk, rfl⟩)
    · cases c' with
      | nil =>
        simp only [List.nil_append] at hb
        simp only [List.append_nil] at ha
        rw [last] at hb
        cases k : (rd st.slots n emptyEntry).sectors with
        | nil =>
          rw [k] at hb
          simp only [List.map_nil, List.nil_append, List.cons.injEq] at hb
          obtain ⟨h1, h2⟩ := hb
          cases h1; cases h2
          exact ⟨hn, er, (by intro x hx; rw [k] at hx; cases hx), by simp, by simp⟩
        | cons y ys => rw [k] at hb; cases hb
      | cons y ys =>
        have hy : y = .dirWrite m .final ∧ b = ys ++ resumption st n := by
          injection hb with h1 h2; exact ⟨h1.symm, h2⟩
        obtain ⟨rfl, rfl⟩ := hy
        obtain ⟨h1, h2, h3, h4, h5⟩ := h.finals m a ys ha
        refine ⟨h1, h2, h3, ?_, ?_⟩
        · intro hm
          rcases List.mem_append.mp hm with hm | hm
          · exact h4 hm
          · rcases (inNew _).mp hm with ⟨k', -, e⟩ | e
            · cases e
            · injection e with e _
              subst e
              exact nf (by rw [show st.entries = a ++ _ from ha]; simp)
        · intro hm
          rcases List.mem_append.mp hm with hm | hm
          · exact h5 hm
          · exact noClosing m hm
  · refine ⟨(List.nodup_cons.mp nd).2, ?_⟩
    intro m hm
    obtain ⟨h1, h2, h3, h4⟩ := all m (List.mem_cons_of_mem _ hm)
    have mn : m ≠ n := fun e => nl (e ▸ hm)
    rw [old] at h3 h4
    rw [new]
    refine ⟨h1, h2, ?_, ?_⟩
    · intro x
      rcases List.mem_append.mp x with x | x
      · exact h3 x
      · rcases (inNew _).mp x with ⟨k', -, e⟩ | e
        · cases e
        · injection e with e _; exact mn e
    · intro k x
      rcases List.mem_append.mp x with x | x
      · exact h4 k x
      · rcases (inNew _).mp x with ⟨k', -, e⟩ | e
        · injection e with e _; exact mn e
        · cases e
  · exact h.scan

theorem SectorListsOk.joinResumptions {st : Store} {l : List Nat} (h : SectorListsOk { st with resume := l }) :
    SectorListsOk (joinResumptions st l) := by
  induction l generalizing st with
  | nil => exact h
  | cons n l ih =>
    simp only [Machine.joinResumptions]
    split
    · exact ih (st := { st with queue := st.queue ++ resumption st n }) h.join
    · exact h

theorem joinResumptions_scan {st : Store} {l : List Nat} (h : NoScan st) : NoScan (joinResumptions st l) := by
  induction l generalizing st with
  | nil => exact h
  | cons n l ih =>
    simp only [joinResumptions]
    split
    · exact ih (st := { st with queue := st.queue ++ resumption st n }) h
    · exact h

/-- The images that the store holds come from those it held. -/
theorem joinResumptions_images (st : Store) (l : List Nat) : (joinResumptions st l).images = st.images := by
  induction l generalizing st with
  | nil => rfl
  | cons n l ih =>
    simp only [joinResumptions]
    split
    · rw [ih]
      have : (resumption st n).flatMap QueueOp.images = [] := by
        simp only [resumption, List.flatMap_append, List.append_eq_nil_iff, List.flatMap_eq_nil_iff, List.mem_map,
          forall_exists_index, and_imp]
        refine ⟨?_, ?_⟩
        · rintro q k - rfl; rfl
        · intro q hq; rw [List.mem_singleton.mp hq]; rfl
      simp only [Store.images, List.flatMap_append, this, List.append_nil]
    · rfl

theorem imageOf_mem {v : ImageSector} {q : Nat} {im : Image} (h : imageOf v = some (q, im)) : im ∈ pageImages v := by
  unfold imageOf at h
  split at h
  · cases h
  · rename_i p i e
    split at h
    · cases h
      refine List.mem_filterMap.mpr ⟨some (q, im), ?_, rfl⟩
      have : v[0]? = some (some (q, im)) := by
        have : rd v 1 none = (v[0]?).getD none := rfl
        rw [this] at e
        simpa using e
      exact Vector.mem_toList_iff.mpr (Vector.mem_of_getElem? this)
    · cases h

theorem currentImage_mem {st : Store} {b : Bool} {q : Nat} {im : Image} (h : currentImage st = some (b, q, im)) :
    im ∈ st.images := by
  have a : im ∈ pageImages st.imgA ∨ im ∈ pageImages st.imgB := by
    unfold currentImage at h
    split at h
    · rename_i p x q' y ha hb
      split at h <;> cases h
      · exact .inr (imageOf_mem hb)
      · exact .inl (imageOf_mem ha)
    · cases h; exact .inl (imageOf_mem ‹_›)
    · cases h; exact .inr (imageOf_mem ‹_›)
    · cases h
  simp only [Store.images, List.mem_append]
  rcases a with a | a
  · exact .inl (.inl (.inl (.inl a)))
  · exact .inl (.inl (.inl (.inr a)))

theorem begun_images (st : Store) (now : Nat) : ∀ im ∈ (st.begun now).images, im ∈ st.images := by
  intro im h
  simp only [Store.begun] at h
  split at h
  · exact h
  · rename_i ho
    split at h
    · rename_i q l hl
      simp only [Store.images, Option.map_some, Option.getD_some, List.mem_append] at h
      rcases h with ((h | h) | h) | h
      · simp only [Store.images, List.mem_append]; exact .inl (.inl (.inl h))
      · simp only [Store.images, List.mem_append]; exact .inl (.inl (.inr h))
      · unfold beginRead at h
        split at h
        · split at h <;> cases h
        · split at h <;> cases h
        · cases h
        · cases k : currentImage st with
          | none => rw [k] at h; cases h
          | some x =>
            obtain ⟨b, q, i⟩ := x
            rw [k] at h
            rw [show im = i from List.mem_singleton.mp h]
            exact currentImage_mem k
      · simp only [Store.images, List.mem_append]; exact .inr h
    · split at h
      · rename_i q l hq
        simp only [Store.images, Option.map_some, Option.getD_some, List.mem_append] at h
        have inQueue : im ∈ st.queue.flatMap QueueOp.images → im ∈ st.images := by
          intro h; simp only [Store.images, List.mem_append]; exact .inl (.inl (.inr h))
        rcases h with ((h | h) | h) | h
        · simp only [Store.images, List.mem_append]; exact .inl (.inl (.inl h))
        · refine inQueue ?_
          rw [hq, List.flatMap_cons]; exact List.mem_append_right _ h
        · refine inQueue ?_
          rw [hq, List.flatMap_cons]
          refine List.mem_append_left _ ?_
          cases q <;> exact h
        · simp only [Store.images, List.mem_append]; exact .inr h
      · exact h

/-! ### The next id -/

/-- While the table holds fewer than 255 records the next id is in 1..255 and no record holds it (R79). -/
theorem nextId_fresh {s : State} (h : s.perfs.length < 255) : s.perf (nextId s) = none ∧ unitOk 255 (nextId s) = true := by
  set l := (List.range 255).map fun i => (s.lastId + i) % 255 + 1 with hl
  have nd : l.Nodup := by
    refine (List.nodup_map_iff_inj_on List.nodup_range).mpr ?_
    intro a ha b hb e
    simp only [List.mem_range] at ha hb
    omega
  have ex : ∃ k ∈ l, s.perf k = none := by
    by_contra hn
    push Not at hn
    have sub : l ⊆ s.perfs.map (·.id) := by
      intro k hk
      obtain ⟨p, hp⟩ := Option.ne_none_iff_exists'.mp (hn k hk)
      exact List.mem_map.mpr ⟨p, perf_mem hp, perf_id hp⟩
    have := (List.subperm_of_subset nd sub).length_le
    simp [hl] at this
    omega
  obtain ⟨k, hk, hn⟩ := ex
  have fs : (l.find? fun id => (s.perf id).isNone).isSome = true :=
    List.find?_isSome.mpr ⟨k, hk, by simp [hn]⟩
  obtain ⟨m, hm⟩ := Option.isSome_iff_exists.mp fs
  have em : nextId s = m := by simp only [nextId, ← hl, hm, Option.getD_some]
  have hmem : m ∈ l := List.mem_of_find?_eq_some hm
  have hnone : (s.perf m).isNone = true := by simpa using List.find?_some hm
  rw [em]
  refine ⟨by simpa using hnone, ?_⟩
  rw [hl] at hmem
  obtain ⟨i, -, rfl⟩ := List.mem_map.mp hmem
  exact unitOk_iff.mpr ⟨by omega, by omega⟩

/-! ### The ids of the table -/

/-- A record written over another of the same id leaves the ids of the table. -/
theorem ids_setPerf (p : Perf) (s : State) : (setPerf p s).perfs.map (·.id) = s.perfs.map (·.id) := by
  simp only [setPerf, List.map_map]
  refine List.map_congr_left fun q _ => ?_
  simp only [Function.comp_apply]
  split
  · rename_i h; exact h.symm
  · rfl

theorem ids_dropPerf (id : Nat) (s : State) :
    (dropPerf id s).perfs.map (·.id) = (s.perfs.map (·.id)).filter fun k => decide (k ≠ id) := by
  simp only [dropPerf, List.filter_map]
  rfl

/-- The table keeps its bound and its ids where the ids are of those that stood. -/
theorem TableOk.sub {l m : List Perf} (h : TableOk l) (s : (m.map (·.id)).Sublist (l.map (·.id))) : TableOk m :=
  ⟨by have := s.length_le; simp only [List.length_map] at this; exact this.trans h.room, h.ids.sublist s⟩

/-- A record joins the table under the next id (R79). -/
theorem TableOk.add {s : State} (h : TableOk s.perfs) (r : s.perfs.length < 12) {p : Perf} (e : p.id = nextId s) :
    TableOk (s.perfs ++ [p]) := by
  refine ⟨by simp; omega, ?_⟩
  have f := (nextId_fresh (s := s) (by omega)).1
  simp only [State.perf, List.find?_eq_none, decide_eq_true_eq] at f
  simp only [List.map_append, List.map_cons, List.map_nil, List.nodup_append]
  refine ⟨h.ids, by simp, fun a ha b hb => ?_⟩
  obtain ⟨q, hq, rfl⟩ := List.mem_map.mp ha
  simp only [List.mem_singleton] at hb
  rw [hb, e]
  exact f q hq

end Sys2Proof.Machine
end

