-- ==== Sys2Proof/Laws/Quiet.lean ====
section
/-! SUPPORT. What the blocks' operations leave alone, said once for each operation: `Struck s t` for those that strike,
light and read pages, `Quiet s t` where the schedule's ends and stamps or the swing drives may change too. -/

namespace Sys2Proof.Machine

/-- From `s` to `t` the timebase, the reference, the calendar, the configuration, the dials, the keys, main power, the
queue of commands and the values drawn are untouched; of the line only the latch may change, of the store only its reads
and its queue; the bounded tables stay within their bounds (R78, R142), and the laws of the claim lists (R69), the lamps
(R175, R180) and the sectors (R141) stay. -/
structure Quiet (s t : State) : Prop where
  tb : t.tb = s.tb
  ref : t.ref = s.ref
  cal : t.cal = s.cal
  cfg : t.cfg = s.cfg
  dials : t.dials = s.dials
  keys : t.keys = s.keys
  power : t.power = s.power
  drawn : t.drawn = s.drawn
  pending : t.pending = s.pending
  line : t.line = { s.line with latch := t.line.latch }
  array : t.store = { s.store with
    serial := t.store.serial, op := t.store.op, queue := t.store.queue, reads := t.store.reads, resume := t.store.resume }
  perfs : TableOk s.perfs → TableOk t.perfs
  queue : s.store.queue.length ≤ 8 → t.store.queue.length ≤ 8
  room : s.store.resume = [] → t.store.resume = [] ∧ t.store.queue.length ≤ s.store.queue.length
  claims : SettingsOk s.cfg → ClaimListsOk s.bells s.nextOrder s.perfs → ClaimListsOk t.bells t.nextOrder t.perfs
  lamps : SettingsOk s.cfg → LightsOk s.lights → LightsOk t.lights
  sectors : SectorListsOk s.store → SectorListsOk t.store
  scan : NoScan s.store → NoScan t.store
  images : ∀ im ∈ t.store.images, im ∈ s.store.images

/-- Quiet, and the schedule and the swing drives are untouched too. -/
structure Struck (s t : State) : Prop extends Quiet s t where
  sched : t.sched = s.sched
  drives : t.drives = s.drives

theorem Quiet.rfl {s : State} : Quiet s s :=
  { tb := Eq.refl _, ref := Eq.refl _, cal := Eq.refl _, cfg := Eq.refl _, dials := Eq.refl _, keys := Eq.refl _
    power := Eq.refl _, drawn := Eq.refl _, pending := Eq.refl _, line := Eq.refl _, array := Eq.refl _
    perfs := id, queue := id, room := fun h => ⟨h, Nat.le_refl _⟩, claims := fun _ h => h, lamps := fun _ h => h
    sectors := id, scan := id, images := fun _ h => h }

theorem Quiet.trans {s t u : State} (h : Quiet s t) (k : Quiet t u) : Quiet s u where
  tb := k.tb.trans h.tb
  ref := k.ref.trans h.ref
  cal := k.cal.trans h.cal
  cfg := k.cfg.trans h.cfg
  dials := k.dials.trans h.dials
  keys := k.keys.trans h.keys
  power := k.power.trans h.power
  drawn := k.drawn.trans h.drawn
  pending := k.pending.trans h.pending
  line := by rw [k.line, h.line]
  array := by rw [k.array, h.array]
  perfs := k.perfs ∘ h.perfs
  queue := k.queue ∘ h.queue
  room := fun e =>
    ⟨(k.room (h.room e).1).1, Nat.le_trans (k.room (h.room e).1).2 (h.room e).2⟩
  claims := fun c x => k.claims (h.cfg ▸ c) (h.claims c x)
  lamps := fun c x => k.lamps (h.cfg ▸ c) (h.lamps c x)
  sectors := k.sectors ∘ h.sectors
  scan := k.scan ∘ h.scan
  images := fun im x => h.images im (k.images im x)

theorem Struck.rfl {s : State} : Struck s s := { Quiet.rfl with sched := Eq.refl _, drives := Eq.refl _ }

theorem Struck.trans {s t u : State} (h : Struck s t) (k : Struck t u) : Struck s u :=
  { h.toQuiet.trans k.toQuiet with sched := k.sched.trans h.sched, drives := k.drives.trans h.drives }

/-- A fold of operations each of which is quiet. -/
theorem Quiet.fold {α : Type} {f : State → α → State} (h : ∀ s a, Quiet s (f s a)) (l : List α) (s : State) :
    Quiet s (l.foldl f s) := by
  induction l generalizing s with
  | nil => exact Quiet.rfl
  | cons a l ih => exact (h s a).trans (ih _)

/-- A fold of operations each of which only strikes. -/
theorem Struck.fold {α : Type} {f : State → α → State} (h : ∀ s a, Struck s (f s a)) (l : List α) (s : State) :
    Struck s (l.foldl f s) := by
  induction l generalizing s with
  | nil => exact Struck.rfl
  | cons a l ih => exact (h s a).trans (ih _)

/-! ### Writes -/

/-- A write of fields that are neither kept nor bounded. -/
theorem Struck.free {s : State} {bells : Vector Bell 24} {perfs : List Perf} {lastId nextOrder : Nat}
    {voices : Vector Voice 4} {clock : ClockUnit} {lights : Lights} (h : TableOk s.perfs → TableOk perfs)
    (c : SettingsOk s.cfg → ClaimListsOk s.bells s.nextOrder s.perfs → ClaimListsOk bells nextOrder perfs := by
      exact fun _ h => h)
    (l : SettingsOk s.cfg → LightsOk s.lights → LightsOk lights := by exact fun _ h => h) :
    Struck s { s with bells := bells, perfs := perfs, lastId := lastId, nextOrder := nextOrder, voices := voices
                      clock := clock, lights := lights } :=
  { tb := Eq.refl _, ref := Eq.refl _, cal := Eq.refl _, cfg := Eq.refl _, dials := Eq.refl _, keys := Eq.refl _
    power := Eq.refl _, drawn := Eq.refl _, pending := Eq.refl _, line := Eq.refl _, array := Eq.refl _
    perfs := h, queue := id, room := fun e => ⟨e, Nat.le_refl _⟩, sched := Eq.refl _, drives := Eq.refl _
    claims := c, lamps := l, sectors := id, scan := id, images := fun _ h => h }

theorem notify_struck (c : NoticeClass) (f : List Field) (s : State) : Struck s (notify c f s) :=
  { Struck.rfl (s := s) with line := latched_eq _ _ _ }

/-- A bell's record that keeps its claims. -/
theorem setBell_struck (b : Nat) (x : Bell) (s : State) (e : x.claims = (s.bell b).claims := by rfl) :
    Struck s (setBell b x s) := Struck.free id (fun _ h => h.bell e)
theorem setVoice_struck (v : Nat) (x : Voice) (s : State) : Struck s (setVoice v x s) := Struck.free id
theorem setProfile_struck (q : Nat) (x : Profile) (s : State) : Struck s (setProfile q x s) := Struck.free id

/-- A record that keeps the level of one in the table. -/
theorem setPerf_struck (p : Perf) (s : State)
    (e : ∃ q ∈ s.perfs, p.level = q.level) : Struck s (setPerf p s) := by
  obtain ⟨q, hq, e⟩ := e
  refine Struck.free (fun h => h.sub (by rw [← ids_setPerf p s]; exact List.Sublist.refl _))
    fun _ h => h.mono (fun _ _ => List.Sublist.refl _) (Nat.le_refl _) ?_
  intro x hx
  obtain ⟨y, hy, rfl⟩ := List.mem_map.mp hx
  split
  · rw [e]; exact h.levels q hq
  · exact h.levels y hy

/-- A record of the table written back with its level. -/
theorem setPerf_of {id : Nat} {q : Perf} {s : State} (h : s.perf id = some q) (p : Perf) (e : p.level = q.level) :
    Struck s (setPerf p s) := setPerf_struck p s ⟨q, perf_mem h, e⟩

theorem dropPerf_struck (id : Nat) (s : State) : Struck s (dropPerf id s) :=
  Struck.free (fun h => h.sub (List.filter_sublist.map _)) fun _ h =>
    h.mono (fun _ _ => List.Sublist.refl _) (Nat.le_refl _) fun p hp => h.levels p (List.mem_of_mem_filter hp)

theorem setDrive_quiet (n : Nat) (x : Drive) (s : State) : Quiet s (setDrive n x s) := { Quiet.rfl (s := s) with }
theorem setStamp_quiet (n m : Nat) (s : State) : Quiet s (setStamp n m s) := { Quiet.rfl (s := s) with }

/-! ### Store -/

/-- Resumptions join within the bound of the queue, and touch nothing else (R153). -/
theorem joinResumptions_eq (st : Store) (l : List Nat) :
    joinResumptions st l = { st with queue := (joinResumptions st l).queue, resume := (joinResumptions st l).resume } ∧
      (st.queue.length ≤ 8 → (joinResumptions st l).queue.length ≤ 8) := by
  induction l generalizing st with
  | nil => exact ⟨rfl, id⟩
  | cons n l ih =>
    simp only [joinResumptions]
    split
    · rename_i h
      obtain ⟨e, k⟩ := ih { st with queue := st.queue ++ resumption st n }
      exact ⟨by rw [e], fun _ => k (by simpa using h)⟩
    · exact ⟨rfl, id⟩

/-- The operation that begins leaves the read list or the queue (R142). -/
theorem begun_eq (st : Store) (now : Nat) :
    st.begun now = { st with op := (st.begun now).op, queue := (st.begun now).queue, reads := (st.begun now).reads } ∧
      (st.queue.length ≤ 8 → (st.begun now).queue.length ≤ 8) := by
  simp only [Store.begun]
  split
  · exact ⟨rfl, id⟩
  · split
    · exact ⟨rfl, id⟩
    · split
      · rename_i h _ _ e
        exact ⟨rfl, fun k => by simp only [e, List.length_cons] at k; simp only; omega⟩
      · exact ⟨rfl, id⟩

/-- All that letting the store go on can do to it. -/
theorem kick_store (s : State) :
    (kick s).store = { s.store with
      op := (kick s).store.op, queue := (kick s).store.queue, reads := (kick s).store.reads
      resume := (kick s).store.resume } ∧
      (s.store.queue.length ≤ 8 → (kick s).store.queue.length ≤ 8) := by
  obtain ⟨e1, k1⟩ := joinResumptions_eq s.store s.store.resume
  obtain ⟨e2, k2⟩ := begun_eq (joinResumptions s.store s.store.resume) s.now
  obtain ⟨e3, k3⟩ := joinResumptions_eq ((joinResumptions s.store s.store.resume).begun s.now)
    ((joinResumptions s.store s.store.resume).begun s.now).resume
  refine ⟨?_, fun h => k3 (k2 (k1 h))⟩
  have : (kick s).store = joinResumptions ((joinResumptions s.store s.store.resume).begun s.now)
    ((joinResumptions s.store s.store.resume).begun s.now).resume := rfl
  rw [this, e3, e2, e1]

/-- With no resumption waiting, letting the store go on can only take from its queue. -/
theorem kick_room {s : State} (h : s.store.resume = []) :
    (kick s).store.resume = [] ∧ (kick s).store.queue.length ≤ s.store.queue.length := by
  have b : ∀ (st : Store) (now : Nat), (st.begun now).resume = st.resume ∧
      (st.begun now).queue.length ≤ st.queue.length := by
    intro st now
    simp only [Store.begun]
    repeat' split
    all_goals first
      | exact ⟨rfl, Nat.le_refl _⟩
      | (rename_i e; refine ⟨rfl, ?_⟩; simp only [e, List.length_cons]; omega)
  have n : ∀ st : Store, st.resume = [] → joinResumptions st [] = st := by
    intro st h
    rw [joinResumptions, ← h]
  obtain ⟨e, k⟩ := b s.store s.now
  have j : (kick s).store = s.store.begun s.now := by
    have : (kick s).store = joinResumptions ((joinResumptions s.store s.store.resume).begun s.now)
      ((joinResumptions s.store s.store.resume).begun s.now).resume := rfl
    rw [this, h, n _ h, e, h, n _ (e.trans h)]
  rw [j]
  exact ⟨e.trans h, k⟩

theorem kick_struck (s : State) : Struck s (kick s) :=
  { Struck.rfl (s := s) with
    array := by rw [(kick_store s).1]
    queue := (kick_store s).2
    room := kick_room
    sectors := fun h =>
      have b := (SectorListsOk.joinResumptions (l := s.store.resume) h).begun s.now
      SectorListsOk.joinResumptions (l := ((joinResumptions s.store s.store.resume).begun s.now).resume) b
    scan := fun h => joinResumptions_scan ((joinResumptions_scan h).begun s.now)
    images := fun im h => by
      have h : im ∈ (joinResumptions ((joinResumptions s.store s.store.resume).begun s.now)
        ((joinResumptions s.store s.store.resume).begun s.now).resume).images := h
      rw [joinResumptions_images] at h
      have := begun_images _ _ im h
      rwa [joinResumptions_images] at this }

/-- All that asking for a page read can do (R143). -/
theorem askRead_struck (r : Reader) (slot page : Nat) (s : State) (e : r.isScan = false := by rfl) :
    Struck s (askRead r slot page s).1 :=
  (show Struck s { s with store := { s.store with
      serial := s.store.serial + 1
      reads := s.store.reads ++ [{ reader := r, serial := s.store.serial + 1, slot := slot, page := page }] } } from
    have n : NoScan s.store → NoScan { s.store with
        serial := s.store.serial + 1
        reads := s.store.reads ++ [{ reader := r, serial := s.store.serial + 1, slot := slot, page := page }] } := fun h =>
      ⟨fun x hx => (List.mem_append.mp hx).elim (h.1 x) fun hx => by rw [List.mem_singleton.mp hx]; exact e, h.2⟩
    { Struck.rfl (s := s) with
      array := Eq.refl _, queue := id, room := fun e => ⟨e, Nat.le_refl _⟩
      sectors := fun h => h.congr rfl rfl rfl rfl rfl (n h.scan)
      scan := n, images := fun _ h => h }).trans (kick_struck _)

/-- A page fetched into a buffer (R82). -/
theorem fetchPage_struck (v slot page : Nat) (s : State) : Struck s (fetchPage v slot page s).1 := by
  simp only [fetchPage]
  split
  · exact askRead_struck _ _ _ _
  · exact Struck.rfl

/-! ### Lights -/

/-- A channel that keeps its law. -/
theorem setChan_struck (n : Nat) (c : Channel) (s : State)
    (k : SettingsOk s.cfg → LightsOk s.lights → ChannelOk c) : Struck s (setChan n c s) :=
  Struck.free id (l := fun x h => h.chan (k x h))

/-- A change of the lights alone; `k` is the law it keeps. -/
theorem Struck.light {s t : State} (e : t = { s with lights := t.lights })
    (k : SettingsOk s.cfg → LightsOk s.lights → LightsOk t.lights) : Struck s t := by
  rw [e]
  exact Struck.free id (l := k)

theorem setContribs_struck (l : List Contribution) (fade : Nat) (s : State)
    (k : SettingsOk s.cfg → LightsOk s.lights → ∀ c ∈ l, SceneOk c.scene) : Struck s (setContribs l fade s) :=
  .light (by simp only [setContribs]; rw [onChans_eq]) fun c h => LightsOk.setContribs (k c h) h

theorem joinScene_struck (p level order : Nat) (k : Option Nat) (s : State) : Struck s (joinScene p level order k s) := by
  simp only [joinScene]
  split
  · exact Struck.rfl
  · refine setContribs_struck _ _ _ fun c h x hx => ?_
    rcases mem_insertBy hx with rfl | hx
    · exact c.scene _
    · exact h.contribs x hx

theorem leaveScene_struck (p : Nat) (s : State) : Struck s (leaveScene p s) := by
  simp only [leaveScene]
  split
  · exact Struck.rfl
  · exact setContribs_struck _ _ _ fun _ h x hx => h.contribs x (List.mem_of_mem_filter hx)

theorem partialBase_struck (sc : Scene) (s : State) (k : SettingsOk s.cfg → SceneOk sc) : Struck s (partialBase sc s) :=
  .light (onChans_eq _ _ s) fun c h => h.partialBase (k c)
theorem wholeBase_struck (v : Vector (Option (Nat × Nat)) 16) (s : State)
    (k : SettingsOk s.cfg → ∀ n l f, unitOk 16 n = true → rd v n none = some (l, f) → l ≤ 4095) : Struck s (wholeBase v s) :=
  .light (onChans_eq _ _ s) fun c h => h.wholeBase (k c)
theorem applyFallback_struck (s : State) : Struck s (applyFallback s) :=
  .light (by unfold applyFallback; exact onChans_eq _ _ s) fun c h => h.applyFallback c

theorem setOverride_struck (o : Option Override) (fade : Nat) (ns : List Nat) (s : State)
    (k : SettingsOk s.cfg → ∀ x, o = some x → x.level ≤ 4095) (u : ∀ n ∈ ns, unitOk 16 n = true) :
    Struck s (setOverride o fade ns s) :=
  .light (onChans_eq _ _ s) fun c h => h.setOverride (k c) u

/-! ### Bells -/

theorem report_struck (id : Nat) (r : Report) (e : Nat) (s : State) : Struck s (report id r e s) := by
  simp only [report]
  split
  · exact Struck.rfl
  · rename_i p h
    have k := setPerf_struck (p.reported r e) s ⟨p, perf_mem h, rfl⟩
    split
    · exact k.trans (Struck.free (fun h => h))
    · exact k

theorem maskStroke_struck (b id e : Nat) (s : State) : Struck s (maskStroke b id e s) :=
  (setBell_struck _ _ _).trans (report_struck _ _ _ _)

theorem stateCheck_struck (b id : Nat) (i : Intensity) (t : Bool) (r : Nat) (s : State) :
    Struck s (stateCheck b id i t r s) := by
  simp only [stateCheck]
  repeat' split
  · exact maskStroke_struck _ _ _ _
  all_goals exact (setBell_struck _ _ _).trans (report_struck _ _ _ _)

theorem strokeRequest_struck (b id : Nat) (i : Intensity) (t : Bool) (s : State) :
    Struck s (strokeRequest b id i t s) := by
  simp only [strokeRequest]
  repeat' split
  · exact maskStroke_struck _ _ _ _
  · exact report_struck _ _ _ _
  · exact stateCheck_struck _ _ _ _ _ _
  · exact stateCheck_struck _ _ _ _ _ _
  · exact (setBell_struck _ _ _).trans (report_struck _ _ _ _)
  · exact report_struck _ _ _ _

theorem releaseHeld_struck (b : Nat) (s : State) : Struck s (releaseHeld b s) := by
  simp only [releaseHeld]
  repeat' split
  · exact Struck.rfl
  · exact (setBell_struck _ _ _).trans (maskStroke_struck _ _ _ _)
  · exact (setBell_struck _ _ _).trans (stateCheck_struck _ _ _ _ _ _)

theorem withdrawHeld_struck (id : Nat) (s : State) : Struck s (withdrawHeld id s) := by
  refine Struck.fold (fun s b => ?_) _ _
  simp only [withdrawAt]
  repeat' split
  · exact (setBell_struck _ _ _).trans (maskStroke_struck _ _ _ _)
  all_goals exact Struck.rfl

theorem enter_claims (x : Bell) (st : BellState) : (x.enter st).claims = x.claims := by
  unfold Bell.enter; split <;> rfl

/-- A judged window: the bell's record, which keeps its claims, and the report to the performance (R64, R65). -/
theorem judged_struck (b id e : Nat) (r : Report) (x : Bell) (s : State) (h : x.claims = (s.bell b).claims) :
    Struck s (report id r e (setBell b x s)) :=
  (setBell_struck b x s h).trans (report_struck _ _ _ _)

theorem confirm_struck (b : Nat) (s : State) : Struck s (confirm b s) := by
  simp only [confirm]
  repeat' split
  · exact Struck.rfl
  all_goals first
    | exact judged_struck _ _ _ _ _ _ rfl
    | exact (judged_struck b _ _ _ _ _ (by rw [enter_claims])).trans (notify_struck _ _ _)

theorem missWindow_struck (b : Nat) (s : State) : Struck s (missWindow b s) := by
  simp only [missWindow]
  repeat' split
  · exact Struck.rfl
  all_goals first
    | exact judged_struck _ _ _ _ _ _ rfl
    | exact (judged_struck b _ _ _ _ _ (by rw [enter_claims])).trans (notify_struck _ _ _)

/-- The claims of an admission are placed with the next admission order (R70). -/
theorem placeClaims_struck (c : Claim) (bells : BellSet) (s : State) (o : c.order = s.nextOrder)
    (l : SettingsOk s.cfg → ClaimListsOk s.bells s.nextOrder s.perfs → c.level ≤ 3)
    (t : claimsOpen s c.level bells = true) :
    Struck s (placeClaims c bells { s with nextOrder := s.nextOrder + 1 }) := by
  rw [placeClaims_eq]
  refine Struck.free id fun x h => ?_
  have := ClaimListsOk.place (s := { s with nextOrder := s.nextOrder + 1 }) (c := c) (m := bells) (by rw [o]; exact h) (l x h) t
  rw [o] at this
  exact this

theorem removeClaims_struck (id : Nat) (s : State) : Struck s (removeClaims id s) :=
  Struck.free (fun h => h) fun _ h => h.mono (fun b hb =>
    show List.Sublist ((removeClaims id s).bell b).claims (s.bell b).claims by
      rw [bell_removeClaims hb]; exact List.filter_sublist) (Nat.le_refl _) h.levels
theorem releaseVoice_struck (id : Nat) (s : State) : Struck s (releaseVoice id s) := Struck.free (fun h => h)

/-! ### Performances -/

theorem leave_struck (id : Nat) (o : PerfOutcome) (s : State) : Struck s (leave id o s) := by
  simp only [leave]
  split
  · exact Struck.rfl
  · exact (notify_struck _ _ _).trans (dropPerf_struck _ _)

theorem takeVoice_struck (v id : Nat) (slot : Option Nat) (s : State) : Struck s (takeVoice v id slot s) := by
  simp only [takeVoice]
  split
  · exact setVoice_struck _ _ _
  · exact ((fetchPage_struck _ _ _ _).trans (fetchPage_struck _ _ _ _)).trans (setVoice_struck _ _ _)

/-- An admission: the claim test has passed, and the level is a legal one (R70, R83). -/
theorem admitPerf_struck (p : Perf) (s : State) (m : p ∈ s.perfs) (t : claimsOpen s p.level p.bells = true) :
    Struck s (admitPerf p s) := by
  have key : ∀ q : Perf, q.level = p.level → Struck s (joinScene p.id p.level s.nextOrder p.scene
      (placeClaims { perf := p.id, level := p.level, order := s.nextOrder } p.bells
        { setPerf q s with nextOrder := s.nextOrder + 1 })) := fun q e =>
    have a := setPerf_struck q s ⟨p, m, e⟩
    have b : Struck (setPerf q s) (placeClaims { perf := p.id, level := p.level, order := s.nextOrder } p.bells
        { setPerf q s with nextOrder := (setPerf q s).nextOrder + 1 }) :=
      placeClaims_struck _ _ _ rfl (fun _ h => by
        by_cases k : ∃ x ∈ s.perfs, x.id = q.id
        · obtain ⟨x, hx, k⟩ := k
          exact e ▸ h.levels q (List.mem_map.mpr ⟨x, hx, if_pos k⟩)
        · refine h.levels p (List.mem_map.mpr ⟨p, m, if_neg fun e => k ⟨p, m, e⟩⟩)) t
    (a.trans b).trans (joinScene_struck _ _ _ _ _)
  have late : ∀ u : State, Struck s u → Struck s (match p.kind with
      | .clock c => if c.carried = true then { u with clock := writeLate c.date c.slot u.clock } else u
      | _ => u) := by
    intro u h
    split
    · split
      · exact h.trans (Struck.free (fun h => h))
      · exact h
    · exact h
  refine late _ ?_
  have k := key { p with
    state := .admitted, order := some s.nextOrder, voice := if needsVoice p.kind then firstFree s else none
    anchor := some (p.anchor.getD (s.now + p.lead + 100)) } rfl
  split
  · exact k.trans (takeVoice_struck _ _ _ _)
  · exact k

/-- A record that is admitted has passed the claim test (R74). -/
theorem canAdmit_claims {s : State} {p : Perf} (h : canAdmit s p = true) : claimsOpen s p.level p.bells = true := by
  simp only [canAdmit, Bool.and_eq_true] at h
  exact h.1.1

/-- A creation, whose level is a legal one (R79). -/
theorem createPerf_struck (p : Perf) (s : State) (l : SettingsOk s.cfg → p.level ≤ 3) : Struck s (createPerf p s).1 := by
  simp only [createPerf]
  split
  · exact Struck.rfl
  · rename_i h
    have add : Struck s { s with lastId := nextId s, perfs := s.perfs ++ [{ p with id := nextId s, reqAt := s.now }] } :=
      Struck.free (fun t => t.add (by omega) rfl) fun c h =>
        h.mono (fun _ _ => List.Sublist.refl _) (Nat.le_refl _) fun x hx =>
          (List.mem_append.mp hx).elim (h.levels x) fun hx => by rw [List.mem_singleton.mp hx]; exact l c
    repeat' split
    · rename_i a
      exact add.trans (admitPerf_struck _ _ (by simp) (canAdmit_claims a))
    · exact add
    · exact add.trans (dropPerf_struck _ _)

theorem offerRound_struck (s : State) : Struck s (offerRound s) := by
  refine Struck.fold (fun s id => ?_) _ _
  simp only [offerTo]
  repeat' split
  · rename_i e a
    exact admitPerf_struck _ _ (perf_mem e) (canAdmit_claims (Bool.and_eq_true_iff.mp a).2)
  all_goals exact Struck.rfl

theorem closePerf_struck (id : Nat) (o : PerfOutcome) (s : State) : Struck s (closePerf id o s) :=
  (((removeClaims_struck _ _).trans (releaseVoice_struck _ _)).trans (leaveScene_struck _ _)).trans (leave_struck _ _ _)

theorem cancelPerf_struck (id : Nat) (s : State) : Struck s (cancelPerf id s) :=
  (withdrawHeld_struck _ _).trans (closePerf_struck _ _ _)

theorem performanceEnd_struck (id : Nat) (s : State) : Struck s (performanceEnd id s) := by
  simp only [performanceEnd]
  split
  · exact Struck.rfl
  · exact (closePerf_struck _ _ _).trans (offerRound_struck _)

theorem cutVoiced_struck (id : Nat) (s : State) : Struck s (cutVoiced id s) := by
  simp only [cutVoiced]
  split
  · exact Struck.rfl
  · rename_i p h
    have k := ((((setPerf_struck { p with state := .stopping, stop := .cut, stopPoint := none, voice := none } s
      ⟨p, perf_mem h, rfl⟩).trans (releaseVoice_struck id _)).trans (withdrawHeld_struck id _)).trans
      (removeClaims_struck id _)).trans (leaveScene_struck id _)
    split
    · exact k.trans (leave_struck _ _ _)
    · exact k

theorem takeUp_struck (v : Nat) (p : Perf) (e : TimeEvent) (s : State) : Struck s (takeUp v p e s) := by
  have move : ∀ (slot page : Nat) (t : State), Struck t (movePage v slot page t) := by
    intro slot page t
    simp only [movePage]
    split
    · exact (fetchPage_struck _ _ _ _).trans (setVoice_struck _ _ _)
    · exact Struck.rfl
  simp only [takeUp]
  repeat' split
  · exact (setVoice_struck _ _ _).trans (move _ _ _)
  all_goals exact setVoice_struck _ _ _

theorem stallOver_struck (v : Nat) (p : Perf) (d : Nat) (s : State) (m : p ∈ s.perfs) : Struck s (stallOver v p d s) :=
  (setPerf_struck (p.stalled d) s ⟨p, m, rfl⟩).trans (setVoice_struck _ _ _)

theorem voicePerf_mem {s : State} {v : Nat} {p : Perf} (h : voicePerf s v = some p) : p ∈ s.perfs := by
  obtain ⟨id, -, e⟩ := Option.bind_eq_some_iff.mp h
  exact perf_mem e

theorem endStall_struck (v : Nat) (s : State) : Struck s (endStall v s) := by
  simp only [endStall]
  split
  · split
    · exact (stallOver_struck _ _ _ _ (voicePerf_mem ‹_›)).trans (takeUp_struck _ _ _ _)
    · exact stallOver_struck _ _ _ _ (voicePerf_mem ‹_›)
  · exact Struck.rfl

theorem voicePageRead_struck (v k : Nat) (es : List Event) (s : State) : Struck s (voicePageRead v k es s) := by
  simp only [voicePageRead]
  repeat' split
  · exact (setVoice_struck _ _ _).trans (endStall_struck _ _)
  all_goals exact setVoice_struck _ _ _

theorem sendStroke_struck (b id : Nat) (i : Intensity) (t : Bool) (s : State) : Struck s (sendStroke b id i t s) := by
  simp only [sendStroke]
  repeat' split
  · rename_i p h _
    exact (setPerf_of h { p with state := .running } rfl).trans (strokeRequest_struck _ _ _ _ _)
  all_goals exact strokeRequest_struck _ _ _ _ _

/-! ### Swing drives -/

theorem driveDone_struck (id n : Nat) (s : State) : Struck s (driveDone id n s) := by
  simp only [driveDone]
  split
  · rename_i p h
    exact setPerf_of h { p with kind := p.kind.withDone n } rfl
  · exact Struck.rfl

theorem handBack_quiet (n : Nat) (s : State) : Quiet s (handBack n s) := by
  simp only [handBack]
  split
  · exact (setDrive_quiet _ _ _).trans (driveDone_struck _ _ _).toQuiet
  · exact Quiet.rfl

theorem enterRaising_quiet (n id d : Nat) (s : State) : Quiet s (enterRaising n id d s) :=
  (setDrive_quiet _ _ _).trans (notify_struck _ _ _).toQuiet
theorem enterRinging_quiet (n : Nat) (s : State) : Quiet s (enterRinging n s) :=
  (setDrive_quiet _ _ _).trans (notify_struck _ _ _).toQuiet
theorem enterLowering_quiet (n : Nat) (s : State) : Quiet s (enterLowering n s) :=
  (setDrive_quiet _ _ _).trans (notify_struck _ _ _).toQuiet
theorem enterSettling_quiet (n : Nat) (s : State) : Quiet s (enterSettling n s) :=
  (setDrive_quiet _ _ _).trans (notify_struck _ _ _).toQuiet
theorem enterMoving_quiet (n : Nat) (s : State) : Quiet s (enterMoving n s) :=
  (setDrive_quiet _ _ _).trans (notify_struck _ _ _).toQuiet
theorem enterDown_quiet (n : Nat) (s : State) : Quiet s (enterDown n s) :=
  (setDrive_quiet _ _ _).trans (handBack_quiet _ _)
theorem enterFault_quiet (n : Nat) (c : SwingCause) (s : State) : Quiet s (enterFault n c s) :=
  ((setDrive_quiet _ _ _).trans (notify_struck _ _ _).toQuiet).trans (handBack_quiet _ _)

theorem judgeSwing_quiet (n : Nat) (s : State) : Quiet s (judgeSwing n s) := by
  simp only [judgeSwing]
  repeat' split
  all_goals first
    | exact Quiet.rfl
    | exact enterMoving_quiet _ _
    | exact (setDrive_quiet _ _ _).trans (setDrive_quiet _ _ _)
    | exact (setDrive_quiet _ _ _).trans (enterRinging_quiet _ _)
    | exact (setDrive_quiet _ _ _).trans (enterSettling_quiet _ _)
    | exact setDrive_quiet _ _ _

theorem bottomPulse_quiet (n : Nat) (s : State) : Quiet s (bottomPulse n s) :=
  (judgeSwing_quiet _ _).trans (setDrive_quiet _ _ _)

theorem lowerStaggered_quiet (g t : Nat) (l : List Nat) (s : State) : Quiet s (lowerStaggered g t l s) := by
  induction l generalizing t s with
  | nil => exact Quiet.rfl
  | cons n l ih => exact (setDrive_quiet _ _ _).trans (ih _ _)

theorem finishDrives_quiet (id : Nat) (p : SwingParams) (s : State) : Quiet s (finishDrives id p s) :=
  lowerStaggered_quiet _ _ _ _

theorem cutDrives_quiet (id : Nat) (p : SwingParams) (s : State) : Quiet s (cutDrives id p s) := by
  refine Quiet.fold (fun s n => ?_) _ _
  simp only [cutDrive]
  repeat' split
  all_goals first | exact Quiet.rfl | exact setDrive_quiet _ _ _

theorem driveStart_quiet (id : Nat) (s : State) : Quiet s (driveStart id s) := by
  have now : ∀ (n d : Nat) (t : State), Quiet t (startDriveNow id n d t) := by
    intro n d t
    simp only [startDriveNow]
    split
    all_goals first | exact enterRaising_quiet _ _ _ _ | exact (driveDone_struck _ _ _).toQuiet
  simp only [driveStart]
  repeat' split
  all_goals first | exact Quiet.rfl | exact .trans (setPerf_of (by assumption) _ (by rfl)).toQuiet (now _ _ _)

/-! ### FINISH and CUT -/

theorem finishPerf_quiet (id : Nat) (s : State) : Quiet s (finishPerf id s) := by
  simp only [finishPerf]
  repeat' split
  all_goals first
    | exact Quiet.rfl
    | exact (leave_struck _ _ _).toQuiet
    | exact .trans (setPerf_of (by assumption) _ (by rfl)).toQuiet (setVoice_struck _ _ _).toQuiet
    | exact .trans (setPerf_of (by assumption) _ (by rfl)).toQuiet (finishDrives_quiet _ _ _)
    | exact (setPerf_of (by assumption) _ (by rfl)).toQuiet

theorem cutPerf_quiet (id : Nat) (s : State) : Quiet s (cutPerf id s).1 := by
  simp only [cutPerf]
  repeat' split
  all_goals first
    | exact Quiet.rfl
    | exact (leave_struck _ _ _).toQuiet
    | exact .trans (setPerf_of (by assumption) _ (by rfl)).toQuiet (cutDrives_quiet _ _ _)
    | exact (cutVoiced_struck _ _).toQuiet

/-- A fold that carries a flag beside the state. -/
theorem Quiet.foldFlag {α : Type} {f : State × Bool → α → State × Bool} (h : ∀ p a, Quiet p.1 (f p a).1) (l : List α)
    (p : State × Bool) : Quiet p.1 (l.foldl f p).1 := by
  induction l generalizing p with
  | nil => exact Quiet.rfl
  | cons a l ih => exact (h p a).trans (ih _)

theorem offerIf_quiet (b : Bool) (s : State) : Quiet s (if b = true then offerRound s else s) := by
  split
  · exact (offerRound_struck _).toQuiet
  · exact Quiet.rfl

theorem cutAll_quiet (ids : List Nat) (s : State) : Quiet s (cutAll ids s) :=
  (Quiet.foldFlag (f := fun p id => ((cutPerf id p.1).1, p.2 || (cutPerf id p.1).2)) (fun p a => cutPerf_quiet a p.1) ids
    (s, false)).trans (offerIf_quiet _ _)

/-! ### Clock -/

theorem recordQuarter_struck (o : QuarterOutcome) (k : Nat) (s : State) : Struck s (recordQuarter o k s) := Struck.free id
theorem setFrontier_struck (k : Nat) (s : State) : Struck s (setFrontier k s) := Struck.free id
theorem pendQuarter_struck (q : Nat × Nat) (s : State) : Struck s (pendQuarter s q) := Struck.free id

theorem startBuild_struck (w : Bool) (s : State) (q : Nat) : Struck s (startBuild w s q) := by
  simp only [startBuild]
  repeat' split
  · exact setProfile_struck _ _ _
  · exact setProfile_struck _ _ _
  · exact (askRead_struck _ _ _ _).trans (setProfile_struck _ _ _)

theorem startBuilds_struck (w : Bool) (s : State) : Struck s (startBuilds w s) := Struck.fold (startBuild_struck w) _ _

theorem buildPageRead_struck (q k : Nat) (es : List Event) (s : State) : Struck s (buildPageRead q k es s) := by
  simp only [buildPageRead]
  repeat' split
  · exact Struck.rfl
  · exact (askRead_struck _ _ _ _).trans (setProfile_struck _ _ _)
  · exact setProfile_struck _ _ _
  · exact Struck.rfl

theorem clockPerf_level (s : State) (k : Nat) (sh : Shape) (b : Nat) : (clockPerf s k sh b).level = s.cfg.levels.clock := by
  cases sh <;> rfl

theorem soundQuarter_struck (k : Nat) (sh : Shape) (b : Nat) (s : State) : Struck s (soundQuarter k sh b s) := by
  have h := createPerf_struck (clockPerf s k sh b) s fun c => by rw [clockPerf_level]; exact c.levels.2.2.1
  simp only [soundQuarter]
  split
  · rename_i e; rw [e] at h; exact h.trans (recordQuarter_struck _ _ _)
  · rename_i e; rw [e] at h; exact h.trans (recordQuarter_struck _ _ _)
  · rename_i e
    rw [e] at h
    split
    · exact (h.trans (recordQuarter_struck _ _ _)).trans (createPerf_struck _ _ fun c => c.levels.2.2.1)
    · exact h.trans (recordQuarter_struck _ _ _)

theorem evaluateQuarter_struck (k : Nat) (s : State) : Struck s (evaluateQuarter k s) := by
  simp only [evaluateQuarter]
  repeat' split
  all_goals first | exact recordQuarter_struck _ _ _ | exact soundQuarter_struck _ _ _ _

theorem evaluateFrontier_struck (s : State) : Struck s (evaluateFrontier s) :=
  (evaluateQuarter_struck _ _).trans (Struck.free id)

theorem frontierRounds_struck (n : Nat) (s : State) : Struck s (frontierRounds n s) := by
  induction n generalizing s with
  | zero => exact Struck.rfl
  | succ n ih =>
    simp only [frontierRounds]
    split
    · exact (evaluateFrontier_struck _).trans (ih _)
    · exact Struck.rfl

/-- All that the frontier loop can do (R110). -/
theorem frontierLoop_struck (s : State) : Struck s (frontierLoop s) := by
  simp only [frontierLoop]
  split
  · exact frontierRounds_struck _ _
  · exact Struck.rfl

theorem cancelQuarters_struck (s : State) : Struck s (cancelQuarters s).1 := by
  have h := ((Struck.fold (fun t id => leave_struck id .cancelled t) ((s.perfs.filter fun p => p.state = .waiting &&
      (match p.kind with | .clock _ => true | _ => false)).map (·.id)) s).trans
    (Struck.fold (fun t id => cancelPerf_struck id t) ((s.perfs.filter fun p => (admittedQuarter p).isSome).map (·.id)) _)).trans
    (Struck.fold (fun t k => pendQuarter_struck k t) (s.perfs.filterMap admittedQuarter) _)
  simp only [cancelQuarters]
  split
  · exact h
  · exact h.trans (offerRound_struck _)

theorem clockLarge_struck (forward : Bool) (s : State) : Struck s (clockLarge forward s) :=
  (((cancelQuarters_struck s).trans (Struck.free id)).trans (setFrontier_struck _ _)).trans (frontierLoop_struck _)

theorem clockSmall_struck (forward : Bool) (s : State) : Struck s (clockSmall forward s) := by
  simp only [clockSmall]
  split
  · exact (Struck.free id).trans (frontierLoop_struck _)
  · exact Struck.free id

theorem clockSet_struck (s : State) : Struck s (clockSet s) := (Struck.free id).trans (frontierLoop_struck _)
theorem clockBoundary_struck (s : State) : Struck s (clockBoundary s) := Struck.free id

theorem cutClock_quiet (s : State) : Quiet s (cutClock s) := by
  refine (Quiet.foldFlag (fun p id => ?_) (clockIds s) (s, false)).trans (offerIf_quiet _ _)
  split
  · split
    · exact (leave_struck _ _ _).toQuiet
    · exact cutPerf_quiet _ _
  · exact Quiet.rfl

/-! ### Schedule -/

theorem fireCreation_struck (n : Nat) (p : Perf) (s : State) (l : SettingsOk s.cfg → p.level ≤ 3) :
    Struck s (fireCreation n p s) := by
  have h := createPerf_struck p s l
  simp only [fireCreation]
  split
  all_goals
    rename_i e
    rw [e] at h
    exact h.trans (notify_struck _ _ _)

theorem openSilence_quiet (sc : SilenceScope) (t : Nat) (s : State) : Quiet s (openSilence sc t s) :=
  { Quiet.rfl (s := s) with }

theorem entryNotice_struck (n : Nat) (f : List Field) (s : State) : Struck s (entryNotice n f s) := notify_struck _ _ _

theorem fireAction_quiet (t : Nat) (s : State) (e : Nat × EntryFields) : Quiet s (fireAction t s e) := by
  obtain ⟨n, f⟩ := e
  cases h : f.action with
  | silence scope d =>
    simp only [fireAction, h]
    exact (openSilence_quiet _ _ _).trans (entryNotice_struck _ _ _).toQuiet
  | scene k =>
    simp only [fireAction, h]
    exact (partialBase_struck _ _ fun c => c.scene _).toQuiet.trans (entryNotice_struck _ _ _).toQuiet
  | play slot scale scene =>
    simp only [fireAction, h]
    repeat' split
    · exact (entryNotice_struck _ _ _).toQuiet
    · exact (entryNotice_struck _ _ _).toQuiet
    · exact (fireCreation_struck _ _ _ fun c => c.levels.2.2.2).toQuiet
  | toll b i c k =>
    simp only [fireAction, h]
    split
    · exact (entryNotice_struck _ _ _).toQuiet
    · exact (fireCreation_struck _ _ _ fun c => c.levels.2.1).toQuiet
  | ring ds g d =>
    simp only [fireAction, h]
    repeat' split
    · exact (entryNotice_struck _ _ _).toQuiet
    · exact (entryNotice_struck _ _ _).toQuiet
    · exact (fireCreation_struck _ _ _ fun c => c.levels.1).toQuiet

theorem fireAll_quiet (t : Nat) (l : List (Nat × EntryFields × Nat)) (s : State) : Quiet s (fireAll t l s) :=
  (Quiet.fold (fun u e => setStamp_quiet e.1 e.2.2 u) l s).trans (Quiet.fold (fireAction_quiet t) _ _)

theorem evaluateMinute_quiet (s : State) : Quiet s (evaluateMinute s) := fireAll_quiet _ _ _
theorem markEvaluated_quiet (s : State) : Quiet s (markEvaluated s) := { Quiet.rfl (s := s) with }

theorem schedBoundary_quiet (s : State) : Quiet s (schedBoundary s) := by
  simp only [schedBoundary]
  split
  · exact (evaluateMinute_quiet _).trans (markEvaluated_quiet _)
  · exact Quiet.rfl

theorem duskFiring_quiet (s : State) : Quiet s (duskFiring s) := by
  simp only [duskFiring]
  split
  · exact fireAll_quiet _ _ _
  · exact Quiet.rfl

/-- A scene laid over a base change whose levels are in range keeps them so (R168). -/
theorem layScene_le {v : Vector (Option (Nat × Nat)) 16} {sc : Scene} (k : SceneOk sc)
    (h : ∀ n l f, unitOk 16 n = true → rd v n none = some (l, f) → l ≤ 4095) :
    ∀ n l f, unitOk 16 n = true → rd (layScene v sc) n none = some (l, f) → l ≤ 4095 := by
  have key : ∀ (ns : List Nat) (u : Vector (Option (Nat × Nat)) 16), (∀ n ∈ ns, unitOk 16 n = true) →
      (∀ n l f, unitOk 16 n = true → rd u n none = some (l, f) → l ≤ 4095) →
      ∀ n l f, unitOk 16 n = true → rd (ns.foldl (fun u n =>
        match rd sc.levels n none with
        | some l => wr u n (some (l, sc.fade))
        | none => u) u) n none = some (l, f) → l ≤ 4095 := by
    intro ns
    induction ns with
    | nil => intro u _ h; exact h
    | cons a ns ih =>
      intro u ok h
      refine ih _ (fun n hn => ok n (List.mem_cons_of_mem _ hn)) ?_
      intro n l f hn e
      dsimp only at e
      split at e
      · rename_i x ex
        by_cases g : n = a
        · subst g; rw [rd_wr_same hn] at e; cases e; exact k n _ hn ex
        · rw [rd_wr_ne (unitOk_iff.mp hn).1 g] at e; exact h n l f hn e
      · exact h n l f hn e
  exact key _ v (fun _ => allChans_unit) h

theorem replayBase_struck (s : State) : Struck s (replayBase s) := by
  refine wholeBase_struck _ _ fun c => ?_
  have key : ∀ (ks : List Nat) (v : Vector (Option (Nat × Nat)) 16),
      (∀ n l f, unitOk 16 n = true → rd v n none = some (l, f) → l ≤ 4095) →
      ∀ n l f, unitOk 16 n = true → rd (ks.foldl (fun v k => layScene v (s.scene k)) v) n none = some (l, f) → l ≤ 4095 := by
    intro ks
    induction ks with
    | nil => intro v h; exact h
    | cons a ks ih => intro v h; exact ih _ (layScene_le (c.scene a) h)
  refine key _ _ ?_
  intro n l f hn e
  rw [rd_replicate hn] at e; cases e

/-- All that the catch-up can do (R168). -/
theorem catchUp_quiet (s : State) : Quiet s (catchUp s) := by
  have silence : ∀ (days : List DayValues) (t : State) (e : Nat × EntryFields), Quiet t (catchSilence days t e) := by
    intro days t e
    simp only [catchSilence]
    split
    · refine Quiet.fold (fun u m => ?_) _ _
      split
      · exact openSilence_quiet _ _ _
      · exact Quiet.rfl
    · exact Quiet.rfl
  have skip : ∀ (days : List DayValues) (t : State) (e : Nat × EntryFields), Quiet t (catchSkip days t e) := by
    intro days t e
    simp only [catchSkip]
    repeat' split
    all_goals first | exact Quiet.rfl | exact (notify_struck _ _ _).toQuiet
  have stamp : ∀ (days : List DayValues) (t : State) (e : Nat × EntryFields), Quiet t (catchStamp days t e) := by
    intro days t e
    simp only [catchStamp]
    repeat' split
    all_goals first | exact Quiet.rfl | exact setStamp_quiet _ _ _
  exact (((((Quiet.fold (silence _) _ _).trans (replayBase_struck _).toQuiet).trans (Quiet.fold (skip _) _ _)).trans
    (Quiet.fold (stamp _) _ _)).trans (evaluateMinute_quiet _)).trans (markEvaluated_quiet _)

theorem schedLarge_quiet (forward : Bool) (s : State) : Quiet s (schedLarge forward s) := by
  simp only [schedLarge]
  repeat' split
  · exact catchUp_quiet _
  · exact markEvaluated_quiet _
  · exact Quiet.rfl

theorem schedSet_quiet (s : State) : Quiet s (schedSet s) := by
  simp only [schedSet]
  split
  · exact catchUp_quiet _
  · exact Quiet.rfl

/-! ### Announcements -/

theorem announceStep_quiet (f l : Bool) (s : State) : Quiet s (announceStep f l s) := by
  simp only [announceStep]
  split
  · exact (clockLarge_struck _ _).toQuiet.trans (schedLarge_quiet _ _)
  · exact (clockSmall_struck _ _).toQuiet

theorem announceLocal_quiet (f : Bool) (s : State) : Quiet s (announceLocal f s) :=
  (clockLarge_struck _ _).toQuiet.trans (schedLarge_quiet _ _)
theorem announceSet_quiet (s : State) : Quiet s (announceSet s) := (clockSet_struck _).toQuiet.trans (schedSet_quiet _)
theorem announceBoundary_quiet (s : State) : Quiet s (announceBoundary s) :=
  (clockBoundary_struck _).toQuiet.trans (schedBoundary_quiet _)

theorem localChange_quiet (old : Bool) (o : Nat) (s : State) : Quiet s (localChange old o s) := by
  simp only [localChange]
  split
  · exact Quiet.rfl
  · exact (notify_struck _ _ _).toQuiet.trans (announceLocal_quiet _ _)

@[simp] theorem wrapSchedule_false (s : State) : wrapSchedule false s = s := rfl

/-- At a wrap of the date the schedule's stamps, last evaluated minute and ends go, and nothing else changes (R160). -/
theorem wrapSchedule_true (s : State) : wrapSchedule true s = { s with sched := { s.sched with
    stamps := Vector.replicate 128 none, lastEval := none, strikeEnd := none, tunesEnd := none } } := rfl

theorem wrapSchedule_quiet (w : Bool) (s : State) : Quiet s (wrapSchedule w s) := by
  cases w
  · exact Quiet.rfl
  · exact { Quiet.rfl (s := s) with }

theorem announceWrap_quiet (w : Bool) (s : State) : Quiet s (announceWrap w s) := by
  simp only [announceWrap]
  split
  · exact (notify_struck _ _ _).toQuiet.trans (announceSet_quiet _)
  · exact Quiet.rfl

end Sys2Proof.Machine
end

