-- ==== Sys2Proof/Laws/Effects.lean ====
section
/-! SUPPORT. The shared operations of bells, drives and performances, each as the fields it writes and nothing else. -/

namespace Sys2Proof.Machine

/-! ### Time-driven events -/

/-- An event that is due is due with main power on. -/
theorem dueMs_on {s : State} {t : Option Nat} {d : Nat} (h : s.dueMs t = some d) : s.power.phase = .on := by
  unfold State.dueMs at h
  split at h <;> simp_all

/-- Main power is on when the instant of an event that is due is reached. -/
theorem reached_on {s u : State} {t : Option Nat} {d : Nat} (h : s.dueMs t = some d) (r : reachUs d s = some u) :
    u.power.phase = .on := by rw [reachUs_power r]; exact dueMs_on h

/-! ### Records of performances -/

/-- A report writes the record it is for, and for a masked stroke of a CLOCK performance the day sheets (R64, R91,
R115). -/
theorem report_eq (id : Nat) (r : Report) (e : Nat) (s : State) :
    report id r e s = { s with perfs := (report id r e s).perfs, clock := (report id r e s).clock } := by
  simp only [report]
  repeat' split
  all_goals rfl

/-- Only a masked report counts in a day sheet (R115). -/
theorem report_clock {id : Nat} {r : Report} {e : Nat} {s : State} (h : r ≠ .masked) :
    (report id r e s).clock = s.clock := by
  simp only [report]
  split
  · rfl
  · split
    · exact absurd rfl h
    · rfl

/-- The record a report is for, after it (R91). -/
theorem perf_report_same {id : Nat} {r : Report} {e : Nat} {s : State} {p : Perf} (h : s.perf id = some p) :
    (report id r e s).perf id = some (p.reported r e) := by
  have i : (p.reported r e).id = id := show p.id = id from perf_id h
  have k : (setPerf (p.reported r e) s).perf id = some (p.reported r e) := by
    have := perf_setPerf_same (s := s) (p := p.reported r e) (q := p) (by rw [i]; exact h)
    rwa [i] at this
  simp only [report, h]
  split <;> exact k

/-- The records a report is not for. -/
theorem perf_report_ne {id k : Nat} {r : Report} {e : Nat} {s : State} (h : k ≠ id) :
    (report id r e s).perf k = s.perf k := by
  simp only [report]
  split
  · rfl
  · rename_i p hp
    have i : (p.reported r e).id = id := show p.id = id from perf_id hp
    have := perf_setPerf_ne (s := s) (p := p.reported r e) (id := k) (by rw [i]; exact h)
    split <;> exact this

/-- A report for a record that is gone is discarded (R64). -/
theorem report_gone {id : Nat} {r : Report} {e : Nat} {s : State} (h : s.perf id = none) : report id r e s = s := by
  simp only [report, h]

/-! ### Drives -/

/-- A hand-back clears the drive's performance field and marks the drive done in the record, if that stands (R135). -/
theorem handBack_eq {n : Nat} {s : State} (h : unitOk 4 n = true) : handBack n s =
    { s with drives := wr s.drives n { s.drive n with perf := none }, perfs := (handBack n s).perfs } := by
  simp only [handBack]
  split
  · simp only [driveDone]
    split <;> rfl
  · rename_i e
    have : ({ s.drive n with perf := none } : Drive) = s.drive n := by
      cases hd : s.drive n; rw [hd] at e; cases e; rfl
    rw [this, State.drive, wr_rd h]

/-! ### The record just added -/

/-- The record just added under a fresh id is found, and dropping it gives the table back (R79). -/
theorem perf_append {s : State} {p : Perf} {o : Nat} (h : s.perf p.id = none) :
    ({ s with lastId := o, perfs := s.perfs ++ [p] } : State).perf p.id = some p := by
  have h' : s.perfs.find? (fun q => q.id = p.id) = none := h
  simp [State.perf, List.find?_append, h']

/-- Ids other than the added one. -/
theorem perf_append_ne {s : State} {p : Perf} {o k : Nat} (h : k ≠ p.id) :
    ({ s with lastId := o, perfs := s.perfs ++ [p] } : State).perf k = s.perf k := by
  have : ¬ p.id = k := fun e => h e.symm
  simp [State.perf, List.find?_append, this]

end Sys2Proof.Machine
end

