-- ==== Sys2Proof/Laws/Admission.lean ====
section
/-! SUPPORT. All that a creation does when it is admitted at once (R70, R79, R81, R83, R84). -/

namespace Sys2Proof.Machine

/-- A page read asked for touches nothing but the store (R143). -/
theorem fetchPage_eq (v n k : Nat) (s : State) : (fetchPage v n k s).1 = { s with store := (fetchPage v n k s).1.store } := by
  simp only [fetchPage]
  split
  · rfl
  · rfl

/-- A voice taken: its own record, and the page reads in the store (R81, R82). -/
theorem takeVoice_eq (v id : Nat) (slot : Option Nat) (s : State) : takeVoice v id slot s =
    { s with voices := (takeVoice v id slot s).voices, store := (takeVoice v id slot s).store } := by
  simp only [takeVoice]
  split
  · rfl
  · rename_i n
    rw [fetchPage_eq v n 1, fetchPage_eq v n 0]
    rfl

/-- The voice taken is the performance's (R81). -/
theorem voice_takeVoice {v id : Nat} {slot : Option Nat} {s : State} (h : unitOk 4 v = true) :
    ((takeVoice v id slot s).voice v).perf = some id := by
  simp only [takeVoice]
  split
  · rw [voice_setVoice h]
  · rw [voice_setVoice h]

/-- The other voices stand. -/
theorem voice_takeVoice_ne {v w id : Nat} {slot : Option Nat} {s : State} (h : unitOk 4 w = true) (e : w ≠ v) :
    (takeVoice v id slot s).voice w = s.voice w := by
  have k : ∀ (x : Voice) (t : State), (setVoice v x t).voice w = t.voice w := fun x t =>
    rd_wr_ne (unitOk_iff.mp h).1 e
  simp only [takeVoice]
  split
  · rw [k]
  · rw [k, fetchPage_eq _ _ 1, fetchPage_eq _ _ 0]
    rfl

/-- A scene joined touches only the lights (R177). -/
theorem joinScene_eq (p level order : Nat) (k : Option Nat) (s : State) :
    joinScene p level order k s = { s with lights := (joinScene p level order k s).lights } := by
  have fold : ∀ (f : Nat → Channel → Channel) (ns : List Nat) (t : State),
      onChans f ns t = { t with lights := (onChans f ns t).lights } := by
    intro f ns
    induction ns with
    | nil => intro t; rfl
    | cons n l ih => 
      intro t
      have := ih (setChan n (f n (t.chan n)) t)
      simp only [onChans, List.foldl_cons] at this ⊢
      rw [this]
      rfl
  simp only [joinScene]
  split
  · rfl
  · simp only [setContribs]
    rw [fold]

/-- The record as an admission leaves it (R83). -/
def admittedRecord (p : Perf) (s : State) : Perf :=
  { p with
    state := .admitted, order := some s.nextOrder, voice := if needsVoice p.kind then firstFree s else none
    anchor := some (p.anchor.getD (s.now + p.lead + 100)) }

/-- The state of an admission before its voice is taken (R83). -/
def admittedUnvoiced (p : Perf) (s : State) : State :=
  joinScene p.id p.level s.nextOrder p.scene
    (placeClaims { perf := p.id, level := p.level, order := s.nextOrder } p.bells
      { setPerf (admittedRecord p s) s with nextOrder := s.nextOrder + 1 })

/-- An admission that fills no late slot: the record, the claims and the scene, then the voice (R83). -/
theorem admitPerf_eq {p : Perf} {s : State} (k : ∀ c, p.kind = .clock c → c.carried = false) : admitPerf p s =
    match (admittedRecord p s).voice with
    | some v => takeVoice v p.id p.slot (admittedUnvoiced p s)
    | none => admittedUnvoiced p s := by
  have fin : ∀ u : State, (match p.kind with
      | .clock c => if c.carried = true then { u with clock := writeLate c.date c.slot u.clock } else u
      | _ => u) = u := by
    intro u
    split
    · rename_i c e; simp [k c e]
    · rfl
  exact fin _

/-- What an admission touches before its voice is taken. -/
theorem admittedUnvoiced_eq (p : Perf) (s : State) : admittedUnvoiced p s =
    { s with
      bells := (admittedUnvoiced p s).bells, perfs := (setPerf (admittedRecord p s) s).perfs
      nextOrder := s.nextOrder + 1, lights := (admittedUnvoiced p s).lights } := by
  rw [admittedUnvoiced, joinScene_eq, placeClaims_eq]
  rfl

/-- The admitted performance's claim stands on top at the bells of its set (R70). -/
theorem bell_admittedUnvoiced {p : Perf} {s : State} {b : Nat} (h : unitOk 24 b = true) :
    (admittedUnvoiced p s).bell b = { s.bell b with
      claims := (if bellIn p.bells b = true then [{ perf := p.id, level := p.level, order := s.nextOrder }] else []) ++
        (s.bell b).claims } := by
  rw [admittedUnvoiced, joinScene_eq]
  exact bell_placeClaims h

/-- The lowest free voice is one of the four (R81). -/
theorem firstFree_ok {s : State} {v : Nat} (h : firstFree s = some v) : unitOk 4 v = true := by
  have := List.mem_of_find?_eq_some h
  simp at this
  rcases this with rfl | rfl | rfl | rfl <;> rfl

/-- A creation that is offered and takes its admission at once (R79, R83). -/
theorem createPerf_admitted {p : Perf} {s : State} (room : s.perfs.length < 12)
    (k : ∀ c, p.kind = .clock c → c.carried = false) (c : claimsOpen s p.level p.bells = true)
    (v : needsVoice p.kind = true → firstFree s ≠ none) :
    ∃ u, createPerf p s = (u, .admitted (nextId s)) ∧ u.line = s.line ∧
      AdmittedAtOnce s u p.bells p.level (p.anchor.getD (s.now + p.lead + 100))
        (if needsVoice p.kind then firstFree s else none) := by
  obtain ⟨fresh, -⟩ := nextId_fresh (s := s) (by omega)
  have no : ¬ 12 ≤ s.perfs.length := by omega
  set q : Perf := { p with id := nextId s, reqAt := s.now } with hq
  set s1 : State := { s with lastId := nextId s, perfs := s.perfs ++ [q] } with hs
  have can : canAdmit s1 q = true := by
    have f : firstFree s1 = firstFree s := rfl
    have c' : claimsOpen s1 q.level q.bells = true := c
    have y : carryPasses s1 q.kind = true := by
      show carryPasses s1 p.kind = true
      cases e : p.kind <;> simp [carryPasses]
      rename_i x; exact .inl (k x e)
    simp only [canAdmit, c', y, f, Bool.true_and, Bool.and_true, Bool.or_eq_true, Bool.not_eq_true']
    cases n : needsVoice p.kind
    · exact .inl rfl
    · exact .inr (Option.isSome_iff_ne_none.mpr (v n))
  refine ⟨admitPerf q s1, by simp only [createPerf, no, if_false]; rw [if_pos can], ?_, ?_⟩
  · rw [admitPerf_eq (p := q) (s := s1) k]
    split
    · rw [takeVoice_eq, admittedUnvoiced_eq]
    · rw [admittedUnvoiced_eq]
  have got : s1.perf (nextId s) = some q := perf_append (p := q) (o := nextId s) fresh
  have same : (setPerf (admittedRecord q s1) s1).perf (nextId s) = some (admittedRecord q s1) :=
    perf_setPerf_same (p := admittedRecord q s1) (q := q) got
  have ne : ∀ id, id ≠ nextId s → (setPerf (admittedRecord q s1) s1).perf id = s.perf id := fun id h =>
    (perf_setPerf_ne (p := admittedRecord q s1) h).trans (perf_append_ne (p := q) h)
  have eq := admitPerf_eq (p := q) (s := s1) k
  set t := admittedUnvoiced q s1 with ht
  have te := admittedUnvoiced_eq q s1
  rw [← ht] at te
  have tp : t.perfs = (setPerf (admittedRecord q s1) s1).perfs := by rw [te]
  have vo : (admittedRecord q s1).voice = if needsVoice p.kind then firstFree s else none := rfl
  rw [vo] at eq
  have perfOf : ∀ (x : State) (id : Nat), x.perfs = t.perfs →
      x.perf id = (setPerf (admittedRecord q s1) s1).perf id := by
    intro x id e; simp only [State.perf, e, tp]
  have key : ∀ (x : State) (w : Option Nat), x.perfs = t.perfs → x.bells = t.bells →
      (∀ y, w = some y → (x.voice y).perf = some (nextId s)) →
      (∀ y, unitOk 4 y = true → w ≠ some y → x.voice y = s.voice y) →
      x = { t with voices := x.voices, store := x.store } →
      w = (if needsVoice p.kind then firstFree s else none) → AdmittedAtOnce s x p.bells p.level (p.anchor.getD (s.now + p.lead + 100)) w := by
    intro x w hp hb hv hf hx hw
    refine { record := ⟨admittedRecord q s1, (perfOf x _ hp).trans same, rfl, rfl, rfl, hw ▸ rfl, rfl, rfl, ?_⟩
             others := fun id h => (perfOf x _ hp).trans (ne id h), claims := ?_, taken := hv, free := hf, kept := ?_ }
    · rfl
    · intro b h
      have := bell_admittedUnvoiced (p := q) (s := s1) h
      rw [← ht] at this
      simp only [State.bell, hb] at this ⊢
      exact this
    · rw [hx, te]
  split at eq
  · rename_i y hy
    have oy : unitOk 4 y = true := by
      split at hy
      · exact firstFree_ok hy
      · cases hy
    rw [eq]
    refine key _ _ (by rw [takeVoice_eq]) (by rw [takeVoice_eq]) ?_ ?_ ?_ rfl
    · intro z hz; rw [hy] at hz; cases hz; exact voice_takeVoice oy
    · intro z hz e
      rw [voice_takeVoice_ne hz (fun h => e (by rw [hy, h])), te]; rfl
    · exact takeVoice_eq _ _ _ _
  · rename_i hy
    rw [eq]
    refine key _ _ rfl rfl ?_ ?_ rfl rfl
    · intro z hz; rw [hy] at hz; cases hz
    · intro z _ _; rw [te]; rfl
end Sys2Proof.Machine
end

