-- ==== Sys2Proof/Laws/Lights.lean ====
section
/-! SUPPORT. A change of channels says what it does to each channel and to the measurement in progress (R175, R182). -/

namespace Sys2Proof.Machine

theorem chan_setChan {n : Nat} {c : Channel} {s : State} (h : unitOk 16 n = true) : (setChan n c s).chan n = c := rd_wr_same h

theorem chan_setChan_ne {n k : Nat} {c : Channel} {s : State} (h : unitOk 16 k = true) (e : k ≠ n) :
    (setChan n c s).chan k = s.chan k := rd_wr_ne (unitOk_iff.mp h).1 e

/-- A change of channels in turn, none twice, gives each of them its new record and leaves the others. -/
theorem chan_onChans {f : Nat → Channel → Channel} {ns : List Nat} {s : State} (d : ns.Nodup) {n : Nat}
    (h : unitOk 16 n = true) : (onChans f ns s).chan n = if n ∈ ns then f n (s.chan n) else s.chan n := by
  induction ns generalizing s with
  | nil => rfl
  | cons k l ih =>
    rw [List.nodup_cons] at d
    refine (ih d.2 (s := setChan k (f k (s.chan k)) s)).trans ?_
    by_cases e : n = k
    · subst e; simp [d.1, chan_setChan h]
    · simp [e, chan_setChan_ne h e]

/-- A change of channels in turn writes the channels and the measurement in progress, and nothing else. -/
theorem onChans_lights (f : Nat → Channel → Channel) (ns : List Nat) (s : State) : onChans f ns s = { s with
    lights := { s.lights with chans := (onChans f ns s).lights.chans, conv := (onChans f ns s).lights.conv } } := by
  simp only [onChans]
  induction ns generalizing s with
  | nil => rfl
  | cons n ns ih => rw [List.foldl_cons, ih]; rfl

/-- The measurement in progress after a write of one channel (R182). -/
theorem meets_setChan {n : Nat} {c : Channel} {s : State} (h : unitOk 16 n = true) :
    MeasurementMeets s (setChan n c s) (· = n) where
  free e := by simp [setChan, e]
  spoiled m k e ek _ hk x := by
    subst hk
    rw [chan_setChan h] at x
    simp only [setChan, e, Option.map_some, ek]
    simp [x]
  kept m e k := by
    simp only [setChan, e, Option.map_some]
    split
    · rename_i y
      have := k n y.1 h rfl
      rw [chan_setChan h] at this
      simp [this] at y
    · rfl

/-- The measurement in progress after a change of channels in turn, none twice (R182). -/
theorem meets_onChans {f : Nat → Channel → Channel} {ns : List Nat} {s : State} (d : ns.Nodup)
    (u : ∀ n ∈ ns, unitOk 16 n = true) : MeasurementMeets s (onChans f ns s) (· ∈ ns) := by
  induction ns generalizing s with
  | nil => exact ⟨id, (fun _ _ _ _ _ h => nomatch h), fun _ e _ => e⟩
  | cons n l ih =>
    have hn := u n List.mem_cons_self
    have ul := fun k hk => u k (List.mem_cons_of_mem _ hk)
    rw [List.nodup_cons] at d
    have h := meets_setChan (c := f n (s.chan n)) (s := s) hn
    have k := ih d.2 ul (s := setChan n (f n (s.chan n)) s)
    have other : ∀ j ∈ l, (setChan n (f n (s.chan n)) s).chan j = s.chan j := fun j hj =>
      chan_setChan_ne (ul j hj) fun e => d.1 (e ▸ hj)
    have same : (onChans f (n :: l) s).chan n = (setChan n (f n (s.chan n)) s).chan n := by
      refine (chan_onChans d.2 hn (s := setChan n (f n (s.chan n)) s)).trans ?_
      simp [d.1]
    refine ⟨fun e => k.free (h.free e), ?_, ?_⟩
    · intro m j e ej hu hj x
      rcases List.mem_cons.mp hj with rfl | hl
      · rw [same] at x
        refine k.kept _ (h.spoiled m j e ej hu rfl x) fun i ei _ hi => ?_
        cases ej.symm.trans ei
        exact absurd hi d.1
      · refine k.spoiled m j (h.kept m e ?_) ej hu hl ?_
        · rintro i ei _ rfl
          cases ej.symm.trans ei
          exact absurd hl d.1
        · rw [other j hl]; exact x
    · intro m e x
      refine k.kept m (h.kept m e ?_) ?_
      · rintro i ei _ rfl
        have := x i ei hn List.mem_cons_self
        rwa [same] at this
      · intro j ej hu hj
        rw [other j hj]
        exact x j ej hu (List.mem_cons_of_mem _ hj)

/-- What holds of a measurement in progress rests on the channels alone. -/
theorem MeasurementMeets.congr {s s' t t' : State} {ns ms : Nat → Prop} (h : MeasurementMeets s t ns)
    (e : ∀ n, unitOk 16 n = true → (ns n ↔ ms n)) (a : s'.lights.chans = s.lights.chans) (b : t'.lights.chans = t.lights.chans)
    (a' : s'.lights.conv = s.lights.conv) (b' : t'.lights.conv = t.lights.conv) : MeasurementMeets s' t' ms := by
  have c : ∀ n, s'.chan n = s.chan n := fun n => by simp only [State.chan, a]
  have d : ∀ n, t'.chan n = t.chan n := fun n => by simp only [State.chan, b]
  refine ⟨?_, ?_, ?_⟩ <;> rw [a', b']
  · exact h.free
  · intro m n x y u z w
    rw [c, d] at w
    exact h.spoiled m n x y u ((e n u).mpr z) w
  · intro m x k
    exact h.kept m x fun n y u z => by have := k n y u ((e n u).mp z); rwa [c, d] at this

theorem allChans_nodup : allChans.Nodup := by decide

theorem mem_allChans {n : Nat} (h : unitOk 16 n = true) : n ∈ allChans := by
  rw [unitOk_iff] at h
  exact List.mem_map.mpr ⟨n - 1, List.mem_range.mpr (by omega), by omega⟩

/-- A channel resolved after a change of its layers (R175, R180). -/
theorem resolve_resolved (c : Channel) (n now : Nat) : ChannelResolved c (c.resolve n now) n now := by
  have t : (c.resolve n now).target = c.resolved := by
    simp only [Channel.resolve]
    split
    · rename_i h; exact h.symm
    · simp only [Channel.startFade]; split
      · rfl
      · split <;> rfl
  constructor
  · rw [t]; simp only [Channel.resolved]; cases c.override <;> cases c.perf <;> cases c.base <;> rfl
  · intro h
    rw [t] at h
    exact if_pos h
  all_goals
    intro h
    rw [t] at h
    simp only [Channel.resolve, if_neg h, Channel.startFade]
    intros
    simp_all

/-- Overrides of a list of channels, none twice, are set or removed (R178, R179). -/
theorem setOverride_becomes {o : Option Override} {fade : Nat} {ns : List Nat} {s : State} (d : ns.Nodup)
    (u : ∀ n ∈ ns, unitOk 16 n = true) : OverridesBecome s (setOverride o fade ns s) (· ∈ ns) o fade where
  named n h hn := by
    simp only [setOverride]
    rw [chan_onChans d h, if_pos hn]
    exact resolve_resolved _ _ _
  others n h hn := by
    simp only [setOverride]
    rw [chan_onChans d h, if_neg hn]
  conv := meets_onChans d u

/-- What an override does rests on the channels alone. -/
theorem OverridesBecome.congr {s s' t t' : State} {ns ms : Nat → Prop} {o : Option Override} {fade : Nat}
    (h : OverridesBecome s t ns o fade) (e : ∀ n, unitOk 16 n = true → (ns n ↔ ms n)) (a : s'.lights = s.lights)
    (b : t'.lights = t.lights) (c : s'.now = s.now) : OverridesBecome s' t' ms o fade where
  named n u k := by
    have := h.named n u ((e n u).mpr k)
    simp only [State.chan, a, b, c] at this ⊢
    exact this
  others n u k := by
    have := h.others n u fun x => k ((e n u).mp x)
    simp only [State.chan, a, b] at this ⊢
    exact this
  conv := h.conv.congr e (by rw [a]) (by rw [b]) (by rw [a]) (by rw [b])

/-- What a base change does to one channel (R176). -/
theorem baseChange_eq (c : Channel) (b : Option Nat) (n now : Nat) : c.baseChange b n now =
    Channel.resolve { c with base := b, override := c.override.filter fun o => decide (o.mode ≠ .next) } n now := by
  have : (match c.override with
      | some o => if o.mode = .next then none else some o
      | none => none) = c.override.filter fun o => decide (o.mode ≠ .next) := by
    cases c.override with
    | none => rfl
    | some o => by_cases m : o.mode = .next <;> simp [m, Option.filter]
  rw [← this]
  rfl

/-- A scene laid as a whole base change (R176). -/
theorem sceneBase_laid (sc : Scene) (s : State) : SceneLaid s (wholeBase (sceneBase sc) s) sc where
  chans n h := by
    have e : rd (sceneBase sc) n none = (rd sc.levels n none).map fun x => (x, sc.fade) := rd_map h
    simp only [wholeBase]
    rw [chan_onChans allChans_nodup h, if_pos (mem_allChans h), e]
    cases rd sc.levels n none with
    | none => simp only [Option.map_none, baseChange_eq, if_true]; exact resolve_resolved _ _ _
    | some l => simp only [Option.map_some, baseChange_eq, reduceCtorEq, if_false]; exact resolve_resolved _ _ _
  conv := (meets_onChans allChans_nodup fun _ => allChans_unit).congr (fun _ h => by simp [mem_allChans h]) rfl rfl rfl rfl

/-- A new content of the contribution list (R177). -/
theorem setContribs_become (l : List Contribution) (fade : Nat) (s : State) : ScenesBecome s (setContribs l fade s) l fade where
  list := by
    have := onChans_lights (fun n c =>
      if contributed l n = c.perf then c else Channel.resolve { c with perf := contributed l n } fade s.now) allChans
      { s with lights := { s.lights with contribs := l } }
    simp only [setContribs]
    rw [this]
  values n h := by
    simp only [setContribs]
    rw [chan_onChans allChans_nodup h, if_pos (mem_allChans h)]
    refine ⟨fun e => if_pos e, fun e => ?_⟩
    split
    · rename_i k; exact absurd k e
    · exact resolve_resolved _ _ _
  conv := (meets_onChans (s := { s with lights := { s.lights with contribs := l } }) allChans_nodup
    fun _ => allChans_unit).congr (fun _ h => by simp [mem_allChans h]) rfl rfl rfl rfl

end Sys2Proof.Machine
end

