-- ==== Sys2Proof/Laws/Quarters.lean ====
section
/-! SUPPORT. What the Clock Strike Unit's operations do, once for each: the checks of an evaluation (R103, R111, R112), a write
into the day sheets (R114, R115), the roll (R116); and the lowering of swing drives by FINISH and CUT (R130). -/

namespace Sys2Proof.Machine

/-! ### Evaluation -/

theorem nightCovers_iff {c : ClockCfg} {m : Nat} : nightCovers c m = true ↔ NightCovers c m := by
  simp only [nightCovers, NightCovers]
  split
  · simp; omega
  · split <;> simp <;> omega

/-- The third check of R111. -/
theorem quarterSilenced_iff {s : State} {k : Nat} : quarterSilenced s k = true ↔ QuarterSilenced s k := by
  have : quarterNo k ≠ 4 ↔ k % 4 ≠ 0 := by simp only [quarterNo]; split <;> omega
  simp [quarterSilenced, QuarterSilenced, nightCovers_iff, Option.any_eq_true, this]
  rw [or_assoc]

/-- The fourth check of R111. -/
theorem masterInStep_iff {s : State} : masterInStep s = true ↔ InStep s := by simp [masterInStep, InStep]

theorem strikesHours_iff {sh : Shape} : strikesHours sh = true ↔ StrikesHours sh := by
  cases sh <;> simp [strikesHours, StrikesHours]

/-- The table of R112. -/
theorem struckBell_iff {s : State} {b : Nat} : struckBell s = some b ↔ StrikesOn s b := by
  simp only [struckBell, StrikesOn]
  by_cases h : (s.bell s.cfg.clock.hourBell).state = .fault
  · rw [if_neg (not_not_intro h)]
    split
    · rename_i r
      simp only [Bool.and_eq_true, decide_eq_true_eq] at r
      rw [Option.some.injEq]
      exact ⟨fun e => .inr ⟨h, r.1, r.2, e.symm⟩, fun e => e.elim (fun e => absurd h e.1) fun e => e.2.2.2.symm⟩
    · rename_i r
      simp only [Bool.and_eq_true, decide_eq_true_eq] at r
      exact ⟨nofun, fun e => e.elim (fun e => absurd h e.1) fun e => absurd ⟨e.2.1, e.2.2.1⟩ r⟩
  · rw [if_pos h]
    simp only [Option.some.injEq]
    exact ⟨fun e => .inl ⟨h, e.symm⟩, fun e => e.elim (fun e => e.2.symm) fun e => absurd e.1 h⟩

/-! ### Day sheets -/

/-- No day is the day after itself (R21). -/
theorem nextDay_ne (d : Nat) : nextDay d ≠ d := by simp only [nextDay, spanDays]; omega

/-- All that a write of an outcome does to the sheets (R114, R115). -/
theorem writeOutcome_written (o : QuarterOutcome) (date k : Nat) (c : ClockUnit) :
    OutcomeWritten c (writeOutcome o date k c) date k o where
  today h := by
    have : claimEarly date c = c := if_neg fun e => by
      rw [h] at e
      exact absurd (Option.some.inj e.1) (nextDay_ne date)
    simp only [writeOutcome, this, onSheetSlot, h, if_true]; rfl
  yesterday h1 h2 h3 := by
    have : claimEarly date c = c := if_neg fun e => h2 e.1
    simp only [writeOutcome, this, onSheetSlot, h1, h3, if_true, if_false]; rfl
  early h1 h2 := by
    have h0 : c.today.date ≠ some date := by
      intro e
      rw [e] at h1
      exact absurd (Option.some.inj h1) (nextDay_ne date)
    constructor
    · intro x hx
      have : claimEarly date c = c := by simp [claimEarly, hx]
      simp only [writeOutcome, this, onSheetSlot, h0, h2, hx, if_true, if_false]; rfl
    · intro hx
      have : claimEarly date c = { c with early := some (date, pendingSlot) } := by
        simp only [claimEarly]
        rw [if_pos]
        refine ⟨h1, ?_⟩
        rcases e : c.early with _ | ⟨d, x⟩
        · simp
        · intro y; simp at y; subst y; exact hx x e
      simp only [writeOutcome, this, onSheetSlot, h0, h2, if_true, if_false]; rfl
  other h1 h2 h3 h4 := by
    have : claimEarly date c = c := if_neg fun e => h2 e.1
    simp only [writeOutcome, this, onSheetSlot, h1, h3, if_false]
    split
    · rename_i d x e
      split
      · subst d; exact absurd e (h4 x)
      · rfl
    · rfl

/-- All that a new local date does to the sheets (R116). -/
theorem rollTo_rolled (n : Nat) (c : ClockUnit) : SheetsRolled c (rollTo n c) n where
  next m h e := by
    have blank : ∀ k, k < 96 → rd (blankSheet (some n)).slots (k + 1) default = pendingSlot := fun k hk =>
      rd_replicate (unitOk_iff.mpr ⟨by omega, by omega⟩)
    subst e
    rcases ce : c.early with _ | ⟨d, x⟩
    · have r : rollTo (m + 1) c = { c with yesterday := c.today, today := blankSheet (some (m + 1)) } := by simp [rollTo, h, ce]
      rw [r]
      exact ⟨rfl, rfl, fun k hk => blank (k + 1) (by omega), nofun, fun _ => ⟨blank 0 (by omega), ce⟩⟩
    · by_cases hd : d = m + 1
      · subst hd
        have r : rollTo (m + 1) c =
            { c with yesterday := c.today, today := onSlot (fun _ => x) 0 (blankSheet (some (m + 1))), early := none } := by
          simp [rollTo, h, ce]
        rw [r]
        refine ⟨rfl, rfl, fun k hk => ?_, fun y hy => ?_, fun y => absurd rfl (y x)⟩
        · exact (rd_wr_ne (by omega) (by omega)).trans (blank (k + 1) (by omega))
        · cases hy
          exact ⟨rd_wr_same (by decide), rfl⟩
      · have r : rollTo (m + 1) c = { c with yesterday := c.today, today := blankSheet (some (m + 1)) } := by
          simp [rollTo, h, ce, hd]
        rw [r]
        refine ⟨rfl, rfl, fun k hk => blank (k + 1) (by omega), fun y hy => ?_, fun _ => ⟨blank 0 (by omega), ce⟩⟩
        cases hy; exact absurd rfl hd
  later m h e := by
    have h1 : ¬n = m + 1 := by omega
    have h2 : m < n := by omega
    simp [rollTo, h, h1, h2]
  stays m h e := by
    have h1 : ¬n = m + 1 := by omega
    have h2 : ¬m < n := by omega
    simp [rollTo, h, h1, h2]
  kept := by
    simp only [rollTo]
    repeat' split
    all_goals rfl

/-! ### Lowering -/

/-- Lowering drives at instants a stagger apart: the i-th of them lowers at the i-th instant, or earlier where it was to, and
nothing else changes (R130). -/
theorem lowerStaggered_drives (stagger t : Nat) (l : List Nat) (s : State) (u : ∀ n ∈ l, unitOk 4 n = true) (d : l.Nodup) :
    (∀ i n, l[i]? = some n → (lowerStaggered stagger t l s).drive n = { s.drive n with
      lowerAt := some (match (s.drive n).lowerAt with
        | some x => min x (t + 1000 * stagger * i)
        | none => t + 1000 * stagger * i) }) ∧
    (∀ n, unitOk 4 n = true → n ∉ l → (lowerStaggered stagger t l s).drive n = s.drive n) ∧
    lowerStaggered stagger t l s = { s with drives := (lowerStaggered stagger t l s).drives } := by
  induction l generalizing t s with
  | nil => exact ⟨fun _ _ h => (nomatch h), fun _ _ _ => rfl, rfl⟩
  | cons k l ih =>
    rw [List.nodup_cons] at d
    have uk := u k (by simp)
    simp only [lowerStaggered]
    generalize hx : ({ s.drive k with lowerAt := some (match (s.drive k).lowerAt with
        | some u => min u t
        | none => t) } : Drive) = x
    obtain ⟨a, b, c⟩ := ih (t + 1000 * stagger) (setDrive k x s) (fun n h => u n (by simp [h])) d.2
    have same : (setDrive k x s).drive k = x := rd_wr_same uk
    have ne : ∀ n, unitOk 4 n = true → n ≠ k → (setDrive k x s).drive n = s.drive n := fun n h e =>
      rd_wr_ne (unitOk_iff.mp h).1 e
    refine ⟨?_, ?_, by rw [c]; rfl⟩
    · intro i n h
      cases i with
      | zero =>
        simp only [List.getElem?_cons_zero, Option.some.injEq] at h
        subst h
        rw [b k uk d.1, same, ← hx]
        rfl
      | succ i =>
        simp only [List.getElem?_cons_succ] at h
        have hn : n ∈ l := List.mem_of_getElem? h
        have e : n ≠ k := fun e => d.1 (e ▸ hn)
        rw [a i n h, ne n (u n (by simp [hn])) e]
        have : t + 1000 * stagger + 1000 * stagger * i = t + 1000 * stagger * (i + 1) := by rw [Nat.mul_add]; omega
        rw [this]
    · intro n h hn
      simp only [List.mem_cons, not_or] at hn
      rw [b n h hn.2, ne n h hn.1]

/-- FINISH of a SWING lowers the drives that swing for it, and no other (R130). -/
theorem finishDrives_lowered {id : Nat} {w : SwingParams} {s : State} (h : SwingOk w) :
    DrivesLowered s (finishDrives id w s) id w ∧
    (∀ n, unitOk 4 n = true → n ∉ w.swinging s id → (finishDrives id w s).drive n = s.drive n) ∧
    finishDrives id w s = { s with drives := (finishDrives id w s).drives } := by
  have e : w.startedDrives.filter (swingingFor s id) = w.swinging s id := by
    simp only [SwingParams.startedDrives, SwingParams.swinging]
    congr 1
    funext n
    simp [swingingFor]
  have sub : (w.swinging s id).Sublist (w.drives.map (·.drive)) :=
    List.filter_sublist.trans (List.filter_sublist.map _)
  simp only [finishDrives, e, DrivesLowered]
  refine lowerStaggered_drives _ _ _ _ ?_ (h.1.sublist sub)
  intro n hn
  obtain ⟨d, hd, rfl⟩ := List.mem_map.mp (sub.subset hn)
  exact h.2 d hd

/-- What CUT makes of a drive is read from that drive and the run clock alone. -/
theorem cutDrive_congr {id n : Nat} {t s : State} (d : t.drive n = s.drive n) (now : t.now = s.now) (hn : unitOk 4 n = true) :
    (cutDrive id t n).drive n = (cutDrive id s n).drive n := by
  simp only [cutDrive, d, now]
  by_cases hp : (s.drive n).perf ≠ some id
  · rw [if_pos hp, if_pos hp, d]
  · rw [if_neg hp, if_neg hp]
    cases (s.drive n).state <;> first | exact d | (rw [drive_setDrive hn, drive_setDrive hn])

/-- CUT of a SWING lowers its drives at once, with the brake, and touches no other (R130). -/
theorem cutDrives_cut {id : Nat} {w : SwingParams} {s : State} (h : SwingOk w) : DrivesCut s (cutDrives id w s) id w := by
  have sub : w.startedDrives.Sublist (w.drives.map (·.drive)) := List.filter_sublist.map _
  have u : ∀ n ∈ w.startedDrives, unitOk 4 n = true := by
    intro n hn
    obtain ⟨d, hd, rfl⟩ := List.mem_map.mp (sub.subset hn)
    exact h.2 d hd
  have one : ∀ (t : State) (k n : Nat), unitOk 4 n = true → n ≠ k → (cutDrive id t k).drive n = t.drive n := by
    intro t k n hn e
    simp only [cutDrive]
    repeat' split
    all_goals first | rfl | exact rd_wr_ne (unitOk_iff.mp hn).1 e
  have now : ∀ (t : State) (k : Nat), (cutDrive id t k).now = t.now := by
    intro t k
    simp only [cutDrive]
    repeat' split
    all_goals rfl
  have all : ∀ (l : List Nat) (t : State), (∀ n ∈ l, unitOk 4 n = true) → l.Nodup → ∀ n, unitOk 4 n = true →
      (l.foldl (cutDrive id) t).drive n = if n ∈ l then (cutDrive id t n).drive n else t.drive n := by
    intro l
    induction l with
    | nil => intro t _ _ n _; rfl
    | cons k l ih =>
      intro t ul d n hn
      rw [List.nodup_cons] at d
      rw [List.foldl_cons, ih _ (fun n h => ul n (by simp [h])) d.2 n hn]
      by_cases e : n = k
      · subst e; simp [d.1]
      · have g : (cutDrive id (cutDrive id t k) n).drive n = (cutDrive id t n).drive n := by
          have v : (cutDrive id t k).drive n = t.drive n := one t k n hn e
          exact cutDrive_congr v (now t k) hn
        simp only [List.mem_cons, e, false_or, one t k n hn e, g]
  have at' := all w.startedDrives s u (h.1.sublist sub)
  refine ⟨fun n hn hp hs => ?_, fun n hn hp hs => ?_, fun n hn ho => ?_⟩
  · have un := u n hn
    rw [cutDrives, at' n un, if_pos (show n ∈ w.startedDrives from hn), cutDrive]
    rcases hs with hs | hs <;> simp [hp, hs, drive_setDrive un]
  · have un := u n hn
    rw [cutDrives, at' n un, if_pos (show n ∈ w.startedDrives from hn), cutDrive]
    simp [hp, hs, drive_setDrive un]
  · rw [cutDrives, at' n hn]
    split
    · rename_i hm
      rw [cutDrive]
      rcases ho with ho | ho | ho | ho | ho
      · exact absurd hm ho
      all_goals simp [ho]
    · rfl

end Sys2Proof.Machine
end

