-- ==== Sys2Proof/Laws/Cuts.lean ====
section
/-! SUPPORT. What an event that deals with every record of the table does, once for all records: the withdrawal of held strokes
(R59), of scenes (R93), the cut of a voiced performance (R97), and the fold over the table (R98, R118). -/

namespace Sys2Proof.Machine

/-! ### The day sheets -/

theorem Sheet.Stands.rfl {a : Sheet} : a.Stands a := ⟨Eq.refl _, fun _ _ => ⟨_, Eq.refl _⟩⟩

theorem Sheet.Stands.trans {a b c : Sheet} (h : a.Stands b) (k : b.Stands c) : a.Stands c := by
  refine ⟨k.1.trans h.1, fun i hi => ?_⟩
  obtain ⟨n, e⟩ := h.2 i hi
  obtain ⟨m, f⟩ := k.2 i hi
  exact ⟨m, by rw [f, e]⟩

theorem SheetsStand.rfl {c : ClockUnit} : SheetsStand c c := ⟨.rfl, .rfl, id, fun _ x h => ⟨x.masked, h⟩, Eq.refl _⟩

theorem SheetsStand.trans {c d e : ClockUnit} (h : SheetsStand c d) (k : SheetsStand d e) : SheetsStand c e where
  today := h.today.trans k.today
  yesterday := h.yesterday.trans k.yesterday
  noEarly i := k.noEarly (h.noEarly i)
  early n x i := by
    obtain ⟨m, j⟩ := h.early n x i
    obtain ⟨m', k⟩ := k.early n _ j
    exact ⟨m', k⟩
  kept := by rw [k.kept, h.kept]

theorem stands_onSlot {f : SheetSlot → SheetSlot} (hf : ∀ x, ∃ m, f x = { x with masked := m }) (k : Nat) (a : Sheet) :
    a.Stands (onSlot f k a) := by
  refine ⟨rfl, fun i hi => ?_⟩
  by_cases e : i = k
  · subst e
    obtain ⟨m, h⟩ := hf (rd a.slots (i + 1) pendingSlot)
    exact ⟨m, by rw [onSlot, rd_wr_same (unitOk_iff.mpr ⟨by omega, by omega⟩), h]⟩
  · exact ⟨_, rd_wr_ne (by omega) (by omega)⟩

/-- A masked stroke counts in the day sheets and changes nothing else of them (R115). -/
theorem countMasked_stand (date k : Nat) (c : ClockUnit) : SheetsStand c (countMasked date k c) := by
  have f : ∀ x : SheetSlot, ∃ m, (fun x : SheetSlot => { x with masked := min (x.masked + 1) 255 }) x =
      { x with masked := m } := fun x => ⟨_, rfl⟩
  simp only [countMasked, onSheetSlot]
  split
  · exact ⟨stands_onSlot f k c.today, Sheet.Stands.rfl, fun h => h, fun _ x h => ⟨x.masked, h⟩, rfl⟩
  · split
    · exact ⟨Sheet.Stands.rfl, stands_onSlot f k c.yesterday, fun h => h, fun _ x h => ⟨x.masked, h⟩, rfl⟩
    · split
      · rename_i d x e
        split
        · exact ⟨Sheet.Stands.rfl, Sheet.Stands.rfl, (fun h => nomatch e.symm.trans h), (fun n y h => by cases e.symm.trans h; exact ⟨_, rfl⟩), rfl⟩
        · exact SheetsStand.rfl
      · exact SheetsStand.rfl

/-! ### Held strokes -/

/-- Of a record, reports of masked strokes change only what is not named here (R91). -/
structure SameBut (p q : Perf) : Prop where
  id : q.id = p.id
  state : q.state = p.state
  stop : q.stop = p.stop
  stopPoint : q.stopPoint = p.stopPoint
  voice : q.voice = p.voice
  drivenEnd : q.drivenEnd = p.drivenEnd
  clock : q.isClock = p.isClock

theorem SameBut.rfl {p : Perf} : SameBut p p := ⟨Eq.refl _, Eq.refl _, Eq.refl _, Eq.refl _, Eq.refl _, Eq.refl _, Eq.refl _⟩

theorem reported_same {p : Perf} {r : Report} {e : Nat} (h : r ≠ .released) : SameBut p (p.reported r e) := by
  refine ⟨rfl, rfl, rfl, rfl, rfl, if_neg h, ?_⟩
  simp only [Perf.isClock, Perf.reported]
  cases p.kind <;> rfl

theorem ids_report (id : Nat) (r : Report) (e : Nat) (s : State) :
    (report id r e s).perfs.map (·.id) = s.perfs.map (·.id) := by
  simp only [report]
  split
  · rfl
  · split <;> exact ids_setPerf _ _

theorem report_stand (id : Nat) (r : Report) (e : Nat) (s : State) : SheetsStand s.clock (report id r e s).clock := by
  simp only [report]
  split
  · exact SheetsStand.rfl
  · split
    · exact countMasked_stand _ _ _
    · exact SheetsStand.rfl

/-- A report for a record that is not the clock's leaves the day sheets (R115). -/
theorem report_unclocked {id : Nat} {r : Report} {e : Nat} {s : State} (h : ∀ p, s.perf id = some p → p.isClock = false) :
    (report id r e s).clock = s.clock := by
  simp only [report]
  split
  · rfl
  · rename_i p hp
    have k := h p hp
    split
    · rename_i c e; simp [Perf.isClock, e] at k
    · rfl

/-- What a withdrawal of performance `id`'s held strokes does (R59). -/
structure HeldWithdrawn (s t : State) (id : Nat) (bs : List Nat) : Prop where
  bells : ∀ b, unitOk 24 b = true → t.bell b = if b ∈ bs ∧ (s.bell b).held.map (·.perf) = some id then
    { s.bell b with held := none, masked := sat16 ((s.bell b).masked + 1) } else s.bell b
  record : ∀ p, s.perf id = some p → ∃ q, t.perf id = some q ∧ SameBut p q
  others : ∀ k, k ≠ id → t.perf k = s.perf k
  ids : t.perfs.map (·.id) = s.perfs.map (·.id)
  sheets : SheetsStand s.clock t.clock
  unclocked : (∀ p, s.perf id = some p → p.isClock = false) → t.clock = s.clock
  calm : (∀ b ∈ bs, (s.bell b).held.map (·.perf) ≠ some id) → t = s
  kept : t = { s with bells := t.bells, perfs := t.perfs, clock := t.clock }

theorem withdrawAt_withdrawn (id b : Nat) (s : State) (hb : unitOk 24 b = true) : HeldWithdrawn s (withdrawAt id s b) id [b] := by
  by_cases h : (s.bell b).held.map (·.perf) = some id
  · obtain ⟨x, hx, hi⟩ := Option.map_eq_some_iff.mp h
    have e : withdrawAt id s b = report id .masked 0
        (setBell b { s.bell b with held := none, masked := sat16 ((s.bell b).masked + 1) } s) := by
      simp [withdrawAt, hx, hi, maskStroke, bell_setBell hb]
    rw [e]
    generalize hy : ({ s.bell b with held := none, masked := sat16 ((s.bell b).masked + 1) } : Bell) = y
    have k := report_eq id .masked 0 (setBell b y s)
    refine ⟨fun c hc => ?_, fun p hp => ?_, fun k hk => ?_, ids_report _ _ _ (setBell b y s),
      report_stand _ _ _ (setBell b y s), fun n => report_unclocked (s := setBell b y s) n, fun n => ?_, ?_⟩
    · have : (report id .masked 0 (setBell b y s)).bell c = (setBell b y s).bell c := by rw [k]; rfl
      rw [this]
      by_cases q : c = b
      · subst q; simp [h, bell_setBell hb, hy]
      · rw [if_neg (by simp [q])]; exact rd_wr_ne (unitOk_iff.mp hc).1 q
    · exact ⟨_, perf_report_same (s := setBell b y s) hp, reported_same (by decide)⟩
    · exact perf_report_ne hk
    · exact absurd h (n b (by simp))
    · rw [k]; rfl
  · have e : withdrawAt id s b = s := by
      simp only [withdrawAt]
      split
      · rename_i x hx
        rw [hx] at h
        exact if_neg fun i => h (by simp [i])
      · rfl
    rw [e]
    refine ⟨fun c _ => ?_, fun p hp => ⟨p, hp, .rfl⟩, fun _ _ => rfl, rfl, SheetsStand.rfl, fun _ => rfl,
      fun _ => rfl, rfl⟩
    rw [if_neg]
    rintro ⟨m, i⟩
    simp only [List.mem_singleton] at m
    subst m
    exact h i

/-- A performance's held strokes are withdrawn at every bell of a list, none twice (R59). -/
theorem withdraw_withdrawn (id : Nat) (bs : List Nat) (s : State) (u : ∀ b ∈ bs, unitOk 24 b = true) (d : bs.Nodup) :
    HeldWithdrawn s (bs.foldl (withdrawAt id) s) id bs := by
  induction bs generalizing s with
  | nil =>
    exact ⟨fun b _ => by simp, fun p hp => ⟨p, hp, .rfl⟩, fun _ _ => rfl, rfl, SheetsStand.rfl, fun _ => rfl,
      fun _ => rfl, rfl⟩
  | cons b bs ih =>
    rw [List.nodup_cons] at d
    have h := withdrawAt_withdrawn id b s (u b (by simp))
    have k := ih (withdrawAt id s b) (fun c hc => u c (by simp [hc])) d.2
    rw [List.foldl_cons]
    refine ⟨fun c hc => ?_, fun p hp => ?_, fun j hj => (k.others j hj).trans (h.others j hj), k.ids.trans h.ids,
      h.sheets.trans k.sheets, fun n => ?_, fun n => ?_, ?_⟩
    · rw [k.bells c hc, h.bells c hc]
      by_cases e : c = b
      · subst e; simp [d.1]
      · simp [e]
    · obtain ⟨q, hq, a⟩ := h.record p hp
      obtain ⟨r, hr, c⟩ := k.record q hq
      exact ⟨r, hr, c.id.trans a.id, c.state.trans a.state, c.stop.trans a.stop, c.stopPoint.trans a.stopPoint,
        c.voice.trans a.voice, c.drivenEnd.trans a.drivenEnd, c.clock.trans a.clock⟩
    · refine (k.unclocked fun q hq => ?_).trans (h.unclocked n)
      cases hp : s.perf id with
      | none =>
        have := h.ids
        have none : (withdrawAt id s b).perf id = none := by
          simp only [State.perf, List.find?_eq_none, decide_eq_true_eq] at hp ⊢
          intro q hq e
          have : q.id ∈ s.perfs.map (·.id) := by rw [← h.ids]; exact List.mem_map_of_mem hq
          obtain ⟨r, hr, re⟩ := List.mem_map.mp this
          exact hp r hr (re.trans e)
        rw [none] at hq; cases hq
      | some p =>
        obtain ⟨r, hr, sb⟩ := h.record p hp
        rw [hr] at hq
        cases hq
        rw [sb.clock]; exact n p hp
    · have e := h.calm fun c hc => n c (by simp_all)
      rw [e] at k ⊢
      exact k.calm fun c hc => n c (by simp [hc])
    · rw [k.kept, h.kept]

theorem withdrawHeld_withdrawn (id : Nat) (s : State) : HeldWithdrawn s (withdrawHeld id s) id allBells :=
  withdraw_withdrawn id allBells s (by decide) (by decide)

theorem mem_allBells {b : Nat} (h : unitOk 24 b = true) : b ∈ allBells := by
  rw [unitOk_iff] at h
  exact List.mem_map.mpr ⟨b - 1, List.mem_range.mpr (by omega), by omega⟩

/-! ### Scenes -/

/-- A withdrawn scene: the contribution is gone, and only the lights change (R93, R177). -/
theorem leaveScene_lights (id : Nat) (s : State) :
    (leaveScene id s).lights.contribs = s.lights.contribs.filter (fun x => decide (x.perf ≠ id)) ∧
    ((∀ x ∈ s.lights.contribs, x.perf ≠ id) → leaveScene id s = s) ∧
    leaveScene id s = { s with lights := (leaveScene id s).lights } := by
  simp only [leaveScene]
  split
  · rename_i h
    have n : ∀ x ∈ s.lights.contribs, x.perf ≠ id := fun x hx => by simpa using List.find?_eq_none.mp h x hx
    refine ⟨(List.filter_eq_self.mpr fun x hx => by simp [n x hx]).symm, fun _ => rfl, rfl⟩
  · rename_i c h
    refine ⟨(setContribs_become _ _ s).list, fun n => ?_, ?_⟩
    · exact absurd (by simpa using List.find?_some h) (n c (List.mem_of_find?_eq_some h))
    · simp only [setContribs]; rw [onChans_eq]

/-! ### One record -/

/-- What the cut of one voiced performance does to the bells, the voices and the lights, and to which parts it keeps (R97). -/
structure VoicedCut (s t : State) (p : Perf) : Prop where
  bells : ∀ b, unitOk 24 b = true → t.bell b =
    { (if (s.bell b).held.map (·.perf) = some p.id then
        { s.bell b with held := none, masked := sat16 ((s.bell b).masked + 1) } else s.bell b) with
      claims := (s.bell b).claims.filter fun k => decide (k.perf ≠ p.id) }
  voices : ∀ v, unitOk 4 v = true → t.voice v = if (s.voice v).perf = some p.id then freeVoice else s.voice v
  scenes : t.lights.contribs = s.lights.contribs.filter fun x => decide (x.perf ≠ p.id)
  unlit : (∀ x ∈ s.lights.contribs, x.perf ≠ p.id) → t.lights = s.lights
  others : ∀ k, k ≠ p.id → t.perf k = s.perf k
  gone : p.drivenEnd ≤ s.now → t.perf p.id = none ∧ t.perfs.map (·.id) = (s.perfs.map (·.id)).filter fun k => decide (k ≠ p.id)
  stays : s.now < p.drivenEnd → t.perfs.map (·.id) = s.perfs.map (·.id) ∧ ∃ q, t.perf p.id = some q ∧
    SameBut { p with state := .stopping, stop := .cut, stopPoint := none, voice := none } q
  sheets : SheetsStand s.clock t.clock
  unclocked : p.isClock = false → t.clock = s.clock
  calm : (∀ b, unitOk 24 b = true → (s.bell b).held.map (·.perf) ≠ some p.id) → t.clock = s.clock ∧
    (s.now < p.drivenEnd → t.line = s.line ∧
      t.perf p.id = some { p with state := .stopping, stop := .cut, stopPoint := none, voice := none }) ∧
    (p.drivenEnd ≤ s.now → t.line = s.line.latched .perf (leavingFields p .cut))
  kept : ∃ l, t = { s with
    bells := t.bells, perfs := t.perfs, voices := t.voices, lights := t.lights, clock := t.clock
    line := { s.line with latch := l } }

theorem latched_latch (l : Line) (c : NoticeClass) (f : List Field) :
    l.latched c f = { l with latch := (l.latched c f).latch } := by
  unfold Line.latched; split <;> rfl

theorem leavingFields_stopping (p : Perf) : leavingFields { p with state := .stopping, stop := .cut, stopPoint := none, voice := none } .cut =
    leavingFields p .cut := rfl

/-- The cut of one record, with what stands before its withdrawals (`a`), after that of its held strokes (`w`), and before it leaves
(`l`). -/
theorem voicedCut_of {s a w l : State} {p : Perf} (h : s.perf p.id = some p)
    (ha : a = releaseVoice p.id (setPerf { p with state := .stopping, stop := .cut, stopPoint := none, voice := none } s))
    (W : HeldWithdrawn a w p.id allBells) (hl : l = leaveScene p.id (removeClaims p.id w)) :
    VoicedCut s (if p.drivenEnd ≤ l.now then leave p.id .cut l else l) p ∧ l.now = s.now := by
  obtain ⟨l1, l2, l3⟩ := leaveScene_lights p.id (removeClaims p.id w)
  rw [← hl] at l1 l2 l3
  clear hl
  have pa : a.perf p.id = some { p with state := .stopping, stop := .cut, stopPoint := none, voice := none } := by
    rw [ha]; exact perf_setPerf_same (p := { p with state := .stopping, stop := .cut, stopPoint := none, voice := none }) h
  have oa : ∀ k, k ≠ p.id → a.perf k = s.perf k := fun k hk => by
    rw [ha]; exact perf_setPerf_ne (p := { p with state := .stopping, stop := .cut, stopPoint := none, voice := none }) hk
  have ia : a.perfs.map (·.id) = s.perfs.map (·.id) := by rw [ha]; exact ids_setPerf _ s
  have ba : ∀ b, a.bell b = s.bell b := fun b => by rw [ha]; rfl
  have va : ∀ v, unitOk 4 v = true → a.voice v = if (s.voice v).perf = some p.id then freeVoice else s.voice v := fun v hv => by
    rw [ha]; exact rd_map hv
  have ka : a = { s with perfs := a.perfs, voices := a.voices } := by rw [ha]; rfl
  clear ha
  obtain ⟨q, hq, sb⟩ := W.record _ pa
  have kw : w = { s with bells := w.bells, perfs := w.perfs, voices := w.voices, clock := w.clock } := by
    rw [W.kept, ka]
  have vw : ∀ v, w.voice v = a.voice v := fun v => by rw [W.kept]; rfl
  have lperf : ∀ k, l.perf k = w.perf k := fun k => by rw [l3]; rfl
  have lids : l.perfs.map (·.id) = s.perfs.map (·.id) := by
    have : l.perfs = w.perfs := by rw [l3]; rfl
    rw [this, W.ids, ia]
  have lk : l = { s with
      bells := l.bells, perfs := l.perfs, voices := l.voices, lights := l.lights, clock := l.clock } := by
    rw [l3, removeClaims, kw]
  have bells : ∀ b, unitOk 24 b = true → l.bell b =
      { (if (s.bell b).held.map (·.perf) = some p.id then
          { s.bell b with held := none, masked := sat16 ((s.bell b).masked + 1) } else s.bell b) with
        claims := (s.bell b).claims.filter fun k => decide (k.perf ≠ p.id) } := by
    intro b hb
    have : l.bell b = (removeClaims p.id w).bell b := by rw [l3]; rfl
    rw [this, bell_removeClaims hb, W.bells b hb, ba b]
    by_cases c : (s.bell b).held.map (·.perf) = some p.id
    · rw [if_pos ⟨mem_allBells hb, c⟩, if_pos c]
    · rw [if_neg fun x => c x.2, if_neg c]
  have voices : ∀ v, unitOk 4 v = true → l.voice v = if (s.voice v).perf = some p.id then freeVoice else s.voice v := by
    intro v hv
    have : l.voice v = w.voice v := by rw [l3]; rfl
    rw [this, vw, va v hv]
  have lights : (removeClaims p.id w).lights = s.lights := by show w.lights = _; rw [kw]
  have line : l.line = s.line := by rw [lk]
  have clock : l.clock = w.clock := by rw [l3]; rfl
  have sheets : SheetsStand s.clock l.clock := by
    have : a.clock = s.clock := by rw [ka]
    rw [clock, ← this]; exact W.sheets
  have lq : l.perf p.id = some q := (lperf _).trans hq
  have calm : (∀ b, unitOk 24 b = true → (s.bell b).held.map (·.perf) ≠ some p.id) → w = a := fun c =>
    W.calm fun b hb => by
      rw [ba]
      refine c b ?_
      simp only [allBells, List.mem_map, List.mem_range] at hb
      obtain ⟨i, hi, rfl⟩ := hb
      exact unitOk_iff.mpr ⟨by omega, by omega⟩
  have cclock : (∀ b, unitOk 24 b = true → (s.bell b).held.map (·.perf) ≠ some p.id) → l.clock = s.clock := fun c => by
    rw [clock, calm c, ka]
  have cq : (∀ b, unitOk 24 b = true → (s.bell b).held.map (·.perf) ≠ some p.id) →
      q = { p with state := .stopping, stop := .cut, stopPoint := none, voice := none } := fun c => by
    rw [calm c, pa] at hq; exact (Option.some.inj hq).symm
  have unlit : (∀ x ∈ s.lights.contribs, x.perf ≠ p.id) → l.lights = s.lights := fun n => by
    rw [← lights] at n ⊢
    exact congrArg State.lights (l2 n)
  have unclocked : p.isClock = false → l.clock = s.clock := fun n => by
    rw [clock, W.unclocked fun x hx => ?_, ka]
    rw [pa] at hx; cases hx; exact n
  have now : l.now = s.now := by rw [lk]; rfl
  have others : ∀ k, k ≠ p.id → l.perf k = s.perf k := fun k hk => (lperf k).trans ((W.others k hk).trans (oa k hk))
  refine ⟨?_, now⟩
  rw [now]
  by_cases g : p.drivenEnd ≤ s.now
  · rw [if_pos g]
    have lv : leave p.id .cut l = dropPerf p.id (notify .perf (leavingFields q .cut) l) := by simp only [leave, lq]
    rw [lv]
    refine ⟨bells, voices, l1.trans (by rw [lights]), unlit, fun k hk => ?_, fun _ => ⟨perf_dropPerf_same, ?_⟩,
      fun n => absurd g (by omega), sheets, unclocked, fun c => ⟨cclock c, fun n => absurd g (by omega), fun _ => ?_⟩,
      (l.line.latched .perf (leavingFields q .cut)).latch, ?_⟩
    · rw [perf_dropPerf_ne hk]; exact others k hk
    · rw [ids_dropPerf]; show (l.perfs.map (·.id)).filter _ = _; rw [lids]
    · show l.line.latched .perf (leavingFields q .cut) = _
      rw [line, cq c, leavingFields_stopping]
    · simp only [dropPerf, notify]
      rw [latched_latch, line]
      conv_lhs => rw [lk]
  · rw [if_neg g]
    refine ⟨bells, voices, l1.trans (by rw [lights]), unlit, others, fun n => absurd n g, fun _ => ⟨lids, q, lq, sb⟩,
      sheets, unclocked, fun c => ⟨cclock c, fun _ => ⟨line, ?_⟩, fun n => absurd n g⟩, s.line.latch, lk⟩
    rw [lq, cq c]

theorem cutVoiced_cut {s : State} {p : Perf} (h : s.perf p.id = some p) : VoicedCut s (cutVoiced p.id s) p := by
  obtain ⟨v, n⟩ := voicedCut_of h rfl (withdrawHeld_withdrawn p.id _) rfl
  simp only [cutVoiced, h]
  exact v

/-! ### Every record -/

/-- What an event does to record `p`, which stands in `c` as it stood at first: it is cut, or leaves, or becomes `after p`. -/
structure RecordDealt (c d : State) (p : Perf) (cut gone : Perf → Bool) (o : PerfOutcome) (after : Perf → Perf) : Prop where
  cuts : cut p = true → VoicedCut c d p
  goes : gone p = true → d = dropPerf p.id (notify .perf (leavingFields p o) c)
  stays : cut p = false → gone p = false → d.perf p.id = some (after p) ∧ (∀ k, k ≠ p.id → d.perf k = c.perf k) ∧
    d.perfs.map (·.id) = c.perfs.map (·.id) ∧ d = { c with perfs := d.perfs, drives := d.drives }

/-- The PERF notice of a record that leaves at once, among the notices of the event. -/
def leaveLine (cut gone : Perf → Bool) (o : PerfOutcome) (now : Nat) (l : Line) (p : Perf) : Line :=
  if gone p = true then l.latched .perf (leavingFields p o)
  else if cut p = true ∧ p.drivenEnd ≤ now then l.latched .perf (leavingFields p .cut) else l

/-- The event has dealt with the records of `l` and not yet with those of `r`. -/
structure CutsSoFar (s c : State) (cut gone : Perf → Bool) (o : PerfOutcome) (after : Perf → Perf) (l r : List Perf) : Prop where
  cuts : ∀ p ∈ l, cut p = true → CutTaken s c p
  others : ∀ p ∈ l, cut p = false → gone p = false → c.perf p.id = some (after p)
  ahead : ∀ p ∈ r, c.perf p.id = some p
  table : c.perfs.map (·.id) = idsOf l (fun p => !gone p && !(cut p && decide (p.drivenEnd ≤ s.now))) ++ r.map (·.id)
  claims : ∀ b, unitOk 24 b = true →
    (c.bell b).claims = (s.bell b).claims.filter fun k => decide (k.perf ∉ idsOf l cut)
  held : ∀ b h, unitOk 24 b = true → (s.bell b).held = some h → h.perf ∈ idsOf l cut →
    c.bell b = { s.bell b with held := none, masked := min ((s.bell b).masked + 1) 65535, claims := (c.bell b).claims }
  bells : ∀ b, unitOk 24 b = true → (∀ h, (s.bell b).held = some h → h.perf ∉ idsOf l cut) →
    c.bell b = { s.bell b with claims := (c.bell b).claims }
  voices : ∀ v, unitOk 4 v = true →
    c.voice v = if ∃ id ∈ idsOf l cut, (s.voice v).perf = some id then freeVoice else s.voice v
  scenes : c.lights.contribs = s.lights.contribs.filter fun x => decide (x.perf ∉ idsOf l cut)
  unlit : (∀ x ∈ s.lights.contribs, x.perf ∉ idsOf l cut) → c.lights = s.lights
  sheets : SheetsStand s.clock c.clock
  calm : (∀ b h, unitOk 24 b = true → (s.bell b).held = some h → h.perf ∉ idsOf l cut) → c.clock = s.clock ∧
    (∀ p ∈ l, cut p = true → s.now < p.drivenEnd →
      c.perf p.id = some { p with state := .stopping, stop := .cut, stopPoint := none, voice := none }) ∧
    c.line = l.foldl (leaveLine cut gone o s.now) s.line
  kept : ∃ x, c = { s with
    bells := c.bells, perfs := c.perfs, voices := c.voices, drives := c.drives, lights := c.lights, clock := c.clock
    line := { s.line with latch := x } }

theorem idsOf_snoc (l : List Perf) (p : Perf) (f : Perf → Bool) :
    idsOf (l ++ [p]) f = idsOf l f ++ if f p = true then [p.id] else [] := by
  simp only [idsOf, List.filter_append, List.map_append]
  by_cases h : f p = true <;> simp [h]

theorem idsOf_mem {l : List Perf} {f : Perf → Bool} {k : Nat} : k ∈ idsOf l f ↔ ∃ p ∈ l, f p = true ∧ p.id = k := by
  simp [idsOf, and_assoc]

theorem CutsSoFar.step {s c d : State} {cut gone : Perf → Bool} {o : PerfOutcome} {after : Perf → Perf} {l r : List Perf} {p : Perf}
    (nd : ((l ++ p :: r).map (·.id)).Nodup) (xor : cut p = true → gone p = false)
    (I : CutsSoFar s c cut gone o after l (p :: r)) (D : RecordDealt c d p cut gone o after) :
    CutsSoFar s d cut gone o after (l ++ [p]) r := by
  rw [List.map_append, List.map_cons, List.nodup_append] at nd
  obtain ⟨-, nd2, dis⟩ := nd
  rw [List.nodup_cons] at nd2
  have nl : ∀ q ∈ l, q.id ≠ p.id := fun q hq => dis q.id (List.mem_map_of_mem hq) p.id (by simp)
  have nr : ∀ q ∈ r, q.id ≠ p.id := fun q hq e => nd2.1 (e ▸ List.mem_map_of_mem hq)
  have pl : p.id ∉ idsOf l cut := fun h => by
    obtain ⟨q, hq, -, e⟩ := idsOf_mem.mp h
    exact nl q hq e
  have now : c.now = s.now := by obtain ⟨x, e⟩ := I.kept; rw [e]; rfl
  by_cases hc : cut p = true
  · have hg := xor hc
    have V := D.cuts hc
    have ids : idsOf (l ++ [p]) cut = idsOf l cut ++ [p.id] := by rw [idsOf_snoc, if_pos hc]
    have claims : ∀ b, unitOk 24 b = true → (d.bell b).claims = (c.bell b).claims.filter fun k => decide (k.perf ≠ p.id) :=
      fun b hb => by rw [V.bells b hb]
    have heldOf : ∀ b, unitOk 24 b = true → ∀ h, (d.bell b).held = some h → (c.bell b).held = some h ∧ h.perf ≠ p.id := by
      intro b hb h e
      rw [V.bells b hb] at e
      by_cases x : (c.bell b).held.map (·.perf) = some p.id
      · rw [if_pos x] at e; exact nomatch e
      · rw [if_neg x] at e
        exact ⟨e, fun y => x (by rw [show (c.bell b).held = some h from e]; simp [y])⟩
    have keep : ∀ q ∈ l, CutTaken s c q → CutTaken s d q := by
      intro q hq T
      refine ⟨fun b hb k hk => ?_, fun b h hb e => T.held b h hb (heldOf b hb h e).1, fun v hv => ?_, fun g => ?_, fun g => ?_⟩
      · rw [claims b hb] at hk
        exact T.claims b hb k (List.mem_of_mem_filter hk)
      · rw [V.voices v hv]
        split
        · exact nofun
        · exact T.voices v hv
      · rw [V.others _ (nl q hq)]; exact T.gone g
      · rw [V.others _ (nl q hq)]; exact T.stays g
    have new : CutTaken s d p := by
      refine ⟨fun b hb k hk => ?_, fun b h hb e => (heldOf b hb h e).2, fun v hv => ?_, fun g => ?_, fun g => ?_⟩
      · rw [claims b hb] at hk
        simpa using (List.mem_filter.mp hk).2
      · rw [V.voices v hv]
        split
        · exact nofun
        · assumption
      · exact (V.gone (by rw [now]; exact g)).1
      · obtain ⟨-, q, hq, sb⟩ := V.stays (by rw [now]; exact g)
        exact ⟨q, hq, sb.state, sb.stop, sb.voice, sb.stopPoint, sb.drivenEnd⟩
    -- the stroke a bell holds in `c` is the one it held in `s`, unless a record before took it
    have heldC : ∀ b, unitOk 24 b = true → (c.bell b).held = if ∃ k ∈ idsOf l cut, (s.bell b).held.map (·.perf) = some k then
        none else (s.bell b).held := by
      intro b hb
      by_cases x : ∃ k ∈ idsOf l cut, (s.bell b).held.map (·.perf) = some k
      · obtain ⟨k, hk, e⟩ := x
        obtain ⟨h, eh, rfl⟩ := Option.map_eq_some_iff.mp e
        rw [if_pos ⟨_, hk, e⟩, I.held b h hb eh hk]
      · rw [if_neg x, I.bells b hb fun h eh m => x ⟨_, m, by rw [eh]; rfl⟩]
    constructor
    · intro q hq cq
      rcases List.mem_append.mp hq with m | m
      · exact keep q m (I.cuts q m cq)
      · simp only [List.mem_singleton] at m; subst m; exact new
    · intro q hq cq gq
      rcases List.mem_append.mp hq with m | m
      · rw [V.others _ (nl q m)]; exact I.others q m cq gq
      · simp only [List.mem_singleton] at m; subst m; rw [hc] at cq; cases cq
    · intro q hq
      rw [V.others _ (nr q hq)]; exact I.ahead q (by simp [hq])
    · rw [idsOf_snoc]
      by_cases g : p.drivenEnd ≤ s.now
      · rw [(V.gone (by rw [now]; exact g)).2, I.table]
        simp only [hc, hg, g, List.filter_append, List.map_cons]
        rw [List.filter_eq_self.mpr, List.filter_cons_of_neg (by simp), List.filter_eq_self.mpr]
        · simp
        · intro k hk; simpa using fun e : k = p.id => nd2.1 (e ▸ hk)
        · intro k hk
          obtain ⟨q, hq, -, rfl⟩ := idsOf_mem.mp hk
          simpa using nl q hq
      · rw [(V.stays (by rw [now]; omega)).1, I.table]
        simp [hg, g]
    · intro b hb
      rw [claims b hb, I.claims b hb, List.filter_filter, ids]
      refine List.filter_congr fun k _ => ?_
      simp [not_or, Bool.and_comm]
    · intro b h hb e m
      rw [ids] at m
      rcases List.mem_append.mp m with m | m
      · have := I.held b h hb e m
        have ch : (c.bell b).held = none := by rw [this]
        have : d.bell b = { c.bell b with claims := (d.bell b).claims } := by
          rw [V.bells b hb, ch, if_neg (by simp)]
        rw [this, I.held b h hb e m]
      · simp only [List.mem_singleton] at m
        have x : ¬∃ k ∈ idsOf l cut, (s.bell b).held.map (·.perf) = some k := by
          rintro ⟨k, hk, ek⟩
          rw [e] at ek
          simp only [Option.map_some, Option.some.injEq] at ek
          exact pl (by rw [← m, ek]; exact hk)
        have cb := I.bells b hb fun h' e' m' => x ⟨_, m', by rw [e']; rfl⟩
        have ch : (c.bell b).held.map (·.perf) = some p.id := by rw [heldC b hb, if_neg x, e, ← m]; rfl
        have : d.bell b = { c.bell b with
            held := none, masked := sat16 ((c.bell b).masked + 1), claims := (d.bell b).claims } := by
          rw [V.bells b hb, if_pos ch]
        rw [this, cb]
        rfl
    · intro b hb n
      simp only [ids, List.mem_append, not_or, List.mem_singleton] at n
      have cb := I.bells b hb fun h e => (n h e).1
      have ch : (c.bell b).held.map (·.perf) ≠ some p.id := by
        rw [cb]
        intro e
        obtain ⟨h, eh, ep⟩ := Option.map_eq_some_iff.mp e
        exact (n h eh).2 ep
      have : d.bell b = { c.bell b with claims := (d.bell b).claims } := by rw [V.bells b hb, if_neg ch]
      rw [this, cb]
    · intro v hv
      rw [V.voices v hv, I.voices v hv, ids]
      by_cases x : ∃ id ∈ idsOf l cut, (s.voice v).perf = some id
      · rw [if_pos x]
        obtain ⟨k, hk, e⟩ := x
        rw [if_neg (by exact nofun), if_pos ⟨k, by simp [hk], e⟩]
      · rw [if_neg x]
        by_cases y : (s.voice v).perf = some p.id
        · rw [if_pos y, if_pos ⟨p.id, by simp, y⟩]
        · rw [if_neg y, if_neg]
          rintro ⟨k, hk, e⟩
          rcases List.mem_append.mp hk with m | m
          · exact x ⟨k, m, e⟩
          · simp only [List.mem_singleton] at m; subst m; exact y e
    · rw [V.scenes, I.scenes, List.filter_filter, ids]
      refine List.filter_congr fun k _ => ?_
      simp [not_or, Bool.and_comm]
    · intro n
      simp only [ids, List.mem_append, not_or, List.mem_singleton] at n
      have e := I.unlit fun x hx => (n x hx).1
      rw [V.unlit (by rw [e]; exact fun x hx => (n x hx).2), e]
    · exact I.sheets.trans V.sheets
    · intro n
      simp only [ids, List.mem_append, not_or, List.mem_singleton] at n
      obtain ⟨c1, c2, c3⟩ := I.calm fun b h hb e => (n b h hb e).1
      have none : ∀ b, unitOk 24 b = true → (c.bell b).held.map (·.perf) ≠ some p.id := by
        intro b hb
        rw [I.bells b hb fun h e => (n b h hb e).1]
        intro e
        obtain ⟨h, eh, ep⟩ := Option.map_eq_some_iff.mp e
        exact (n b h hb eh).2 ep
      obtain ⟨v1, v2, v3⟩ := V.calm none
      rw [now] at v2 v3
      refine ⟨v1.trans c1, fun q hq cq g => ?_, ?_⟩
      · rcases List.mem_append.mp hq with m | m
        · rw [V.others _ (nl q m)]; exact c2 q m cq g
        · simp only [List.mem_singleton] at m; subst m; exact (v2 g).2
      · rw [List.foldl_append, ← c3]
        simp only [List.foldl_cons, List.foldl_nil, leaveLine, hg, hc, true_and, Bool.false_eq_true, if_false]
        split
        · rename_i g; exact v3 g
        · rename_i g; exact (v2 (by omega)).1
    · obtain ⟨x, ex⟩ := I.kept
      obtain ⟨y, ey⟩ := V.kept
      exact ⟨y, by rw [ey, ex]⟩
  · have hc : cut p = false := by simpa using hc
    have ids : idsOf (l ++ [p]) cut = idsOf l cut := by rw [idsOf_snoc, hc]; simp
    have snoc : ∀ {P : Perf → Prop}, (∀ q ∈ l, P q) → P p → ∀ q ∈ l ++ [p], P q := by
      intro P a b q hq
      rcases List.mem_append.mp hq with m | m
      · exact a q m
      · simp only [List.mem_singleton] at m; subst m; exact b
    by_cases hg : gone p = true
    · have E := D.goes hg
      have ne : ∀ k, k ≠ p.id → d.perf k = c.perf k := fun k hk => by rw [E]; exact perf_dropPerf_ne hk
      have db : ∀ b, d.bell b = c.bell b := fun b => by rw [E]; rfl
      have dv : ∀ v, d.voice v = c.voice v := fun v => by rw [E]; rfl
      have dl : d.lights = c.lights := by rw [E]; rfl
      have dc : d.clock = c.clock := by rw [E]; rfl
      constructor
      · refine snoc (fun q hq cq => ?_) (fun h => by rw [hc] at h; cases h)
        have T := I.cuts q hq cq
        refine ⟨?_, ?_, ?_, ?_, ?_⟩
        · simpa only [db] using T.claims
        · simpa only [db] using T.held
        · simpa only [dv] using T.voices
        · rw [ne _ (nl q hq)]; exact T.gone
        · rw [ne _ (nl q hq)]; exact T.stays
      · exact snoc (fun q hq cq gq => by rw [ne _ (nl q hq)]; exact I.others q hq cq gq)
          (fun _ g => by rw [hg] at g; cases g)
      · intro q hq; rw [ne _ (nr q hq)]; exact I.ahead q (by simp [hq])
      · rw [E, ids_dropPerf]
        show (c.perfs.map (·.id)).filter _ = _
        rw [I.table, idsOf_snoc]
        simp only [hg, List.filter_append, List.map_cons]
        rw [List.filter_eq_self.mpr, List.filter_cons_of_neg (by simp), List.filter_eq_self.mpr]
        · simp
        · intro k hk; simpa using fun e : k = p.id => nd2.1 (e ▸ hk)
        · intro k hk
          obtain ⟨q, hq, -, rfl⟩ := idsOf_mem.mp hk
          simpa using nl q hq
      · simpa only [db, ids] using I.claims
      · simpa only [db, ids] using I.held
      · simpa only [db, ids] using I.bells
      · simpa only [dv, ids] using I.voices
      · simpa only [dl, ids] using I.scenes
      · simpa only [dl, ids] using I.unlit
      · rw [dc]; exact I.sheets
      · rw [ids, dc]
        intro n
        obtain ⟨c1, c2, c3⟩ := I.calm n
        refine ⟨c1, snoc (fun q hq cq g => by rw [ne _ (nl q hq)]; exact c2 q hq cq g) (fun h => by rw [hc] at h; cases h), ?_⟩
        rw [List.foldl_append, ← c3, E]
        simp only [List.foldl_cons, List.foldl_nil, leaveLine, hg, if_true]
        rfl
      · obtain ⟨x, ex⟩ := I.kept
        refine ⟨(c.line.latched .perf (leavingFields p o)).latch, ?_⟩
        have cl : c.line = { s.line with latch := x } := by rw [ex]
        rw [E]
        simp only [dropPerf, notify]
        rw [latched_latch, cl]
        conv_lhs => rw [ex]
    · have hg : gone p = false := by simpa using hg
      obtain ⟨s1, s2, s3, E⟩ := D.stays hc hg
      have db : ∀ b, d.bell b = c.bell b := fun b => by rw [E]; rfl
      have dv : ∀ v, d.voice v = c.voice v := fun v => by rw [E]; rfl
      have dl : d.lights = c.lights := by rw [E]
      have dc : d.clock = c.clock := by rw [E]
      constructor
      · refine snoc (fun q hq cq => ?_) (fun h => by rw [hc] at h; cases h)
        have T := I.cuts q hq cq
        refine ⟨?_, ?_, ?_, ?_, ?_⟩
        · simpa only [db] using T.claims
        · simpa only [db] using T.held
        · simpa only [dv] using T.voices
        · rw [s2 _ (nl q hq)]; exact T.gone
        · rw [s2 _ (nl q hq)]; exact T.stays
      · exact snoc (fun q hq cq gq => by rw [s2 _ (nl q hq)]; exact I.others q hq cq gq) (fun _ _ => s1)
      · intro q hq; rw [s2 _ (nr q hq)]; exact I.ahead q (by simp [hq])
      · rw [s3, I.table, idsOf_snoc]
        simp [hc, hg]
      · simpa only [db, ids] using I.claims
      · simpa only [db, ids] using I.held
      · simpa only [db, ids] using I.bells
      · simpa only [dv, ids] using I.voices
      · simpa only [dl, ids] using I.scenes
      · simpa only [dl, ids] using I.unlit
      · rw [dc]; exact I.sheets
      · rw [ids, dc]
        intro n
        obtain ⟨c1, c2, c3⟩ := I.calm n
        refine ⟨c1, snoc (fun q hq cq g => by rw [s2 _ (nl q hq)]; exact c2 q hq cq g) (fun h => by rw [hc] at h; cases h), ?_⟩
        rw [List.foldl_append, ← c3, E]
        simp [leaveLine, hg, hc]
      · obtain ⟨x, ex⟩ := I.kept
        exact ⟨x, by rw [E, ex]⟩

/-- A fold that deals with each record of the table in turn, and notes whether it has cut one, deals with the whole table; so does
a further property `J` that each turn carries on. -/
theorem cutsTaken_fold {s : State} {cut gone : Perf → Bool} {o : PerfOutcome} {after : Perf → Perf} (J : List Perf → State → Prop)
    {f : State × Bool → Perf → State × Bool} (nd : (s.perfs.map (·.id)).Nodup) (xor : ∀ p, cut p = true → gone p = false)
    (deals : ∀ a p, p ∈ s.perfs → a.1.perf p.id = some p → RecordDealt a.1 (f a p).1 p cut gone o after ∧
      (f a p).2 = (a.2 || cut p))
    (j0 : J [] s) (js : ∀ l r a p, l ++ p :: r = s.perfs → a.1.perf p.id = some p → a.1.now = s.now → J l a.1 →
      J (l ++ [p]) (f a p).1) :
    let a := s.perfs.foldl f (s, false)
    CutsTaken s a.1 cut gone o after ∧ SheetsStand s.clock a.1.clock ∧ J s.perfs a.1 ∧ a.2 = s.perfs.any cut := by
  have go : ∀ r l a, l ++ r = s.perfs → CutsSoFar s a.1 cut gone o after l r → J l a.1 →
      CutsSoFar s (r.foldl f a).1 cut gone o after s.perfs [] ∧ J s.perfs (r.foldl f a).1 ∧
        (r.foldl f a).2 = (a.2 || r.any cut) := by
    intro r
    induction r with
    | nil => intro l a e I j; rw [List.append_nil] at e; subst e; exact ⟨I, j, by simp⟩
    | cons p r ih =>
      intro l a e I j
      have now : a.1.now = s.now := by obtain ⟨x, e⟩ := I.kept; rw [e]; rfl
      obtain ⟨D, fl⟩ := deals a p (by rw [← e]; simp) (I.ahead p (by simp))
      have k := ih (l ++ [p]) (f a p) (by simpa using e) (I.step (by rw [e]; exact nd) (xor p) D)
        (js l r a p e (I.ahead p (by simp)) now j)
      rw [List.foldl_cons]
      refine ⟨k.1, k.2.1, ?_⟩
      rw [k.2.2, fl, List.any_cons, Bool.or_assoc]
  have find : ∀ p ∈ s.perfs, s.perf p.id = some p := by
    intro p hp
    simp only [State.perf]
    generalize s.perfs = l at nd hp
    induction l with
    | nil => cases hp
    | cons q l ih =>
      rw [List.map_cons, List.nodup_cons] at nd
      rcases List.mem_cons.mp hp with rfl | m
      · simp
      · rw [List.find?_cons_of_neg (by simpa using fun e : q.id = p.id => nd.1 (e ▸ List.mem_map_of_mem m))]
        exact ih nd.2 m
  have start : CutsSoFar s s cut gone o after [] s.perfs := by
    constructor
    case sheets => exact SheetsStand.rfl
    case calm => exact fun _ => ⟨rfl, (fun _ h => nomatch h), rfl⟩
    case kept => exact ⟨s.line.latch, rfl⟩
    case ahead => exact find
    case unlit => exact fun _ => rfl
    all_goals simp [idsOf]
  obtain ⟨I, j, fl⟩ := go s.perfs [] (s, false) rfl start j0
  refine ⟨⟨I.cuts, I.others, ?_, I.claims, I.held, I.bells, I.voices, I.scenes, I.unlit, I.calm, ?_⟩, I.sheets, j, by simpa using fl⟩
  · simpa using I.table
  · obtain ⟨x, e⟩ := I.kept
    have : (s.perfs.foldl f (s, false)).1.line.latch = x := by rw [e]
    rw [this]; exact e

/-- A record that waits leaves (R94). -/
theorem leave_eq {p : Perf} {o : PerfOutcome} {s : State} (h : s.perf p.id = some p) :
    leave p.id o s = dropPerf p.id (notify .perf (leavingFields p o) s) := by simp only [leave, h]

/-- What a CUT of a record of a voiced kind does (R97). -/
theorem cutPerf_voiced {s : State} {p : Perf} (h : s.perf p.id = some p) (v : ∀ w, p.kind ≠ .swing w) (w : p.state ≠ .waiting)
    (c : p.stop ≠ .cut) : cutPerf p.id s = (cutVoiced p.id s, true) := by
  simp only [cutPerf, h, if_neg w, if_neg c]
  split
  · rename_i x e; exact absurd e (v x)
  all_goals rfl

/-- A CUT of a record that has been cut does nothing more (R97). -/
theorem cutPerf_again {s : State} {p : Perf} (h : s.perf p.id = some p) (w : p.state ≠ .waiting) (c : p.stop = .cut) :
    cutPerf p.id s = (s, false) := by simp only [cutPerf, h, if_neg w, if_pos c]

/-- All that a change to SERVICE does to the table, but for the line's mode (R118). -/
theorem cutClock_taken {s : State} (nd : (s.perfs.map (·.id)).Nodup) :
    let cut := fun (p : Perf) => p.isClock && decide (p.state ≠ .waiting) && decide (p.stop ≠ .cut)
    ∃ c, CutsTaken s c cut (fun p => p.isClock && decide (p.state = .waiting)) .cut id ∧ c.drives = s.drives ∧
      SheetsStand s.clock c.clock ∧ cutClock s = if s.perfs.any cut = true then offerRound c else c := by
  intro cut
  let g := fun (a : State × Bool) (id : Nat) => match a.1.perf id with
    | some x => if x.state = PerfState.waiting then (leave id .cut a.1, a.2) else ((cutPerf id a.1).1, a.2 || (cutPerf id a.1).2)
    | none => a
  let f := fun (a : State × Bool) (x : Perf) => if x.isClock = true then g a x.id else a
  have e : cutClock s = if (s.perfs.foldl f (s, false)).2 = true then offerRound (s.perfs.foldl f (s, false)).1
      else (s.perfs.foldl f (s, false)).1 := by
    have k : (clockIds s).foldl g (s, false) = s.perfs.foldl f (s, false) := by
      rw [clockIds, List.foldl_map, List.foldl_filter]
      rfl
    rw [← k]
    rfl
  have deals : ∀ a p, p ∈ s.perfs → a.1.perf p.id = some p → (RecordDealt a.1 (f a p).1 p cut
      (fun p => p.isClock && decide (p.state = .waiting)) .cut id ∧ (f a p).2 = (a.2 || cut p)) ∧
      (f a p).1.drives = a.1.drives := by
    intro a p hp h
    by_cases k : p.isClock = true
    · by_cases w : p.state = .waiting
      · have : f a p = (leave p.id .cut a.1, a.2) := by simp [f, g, k, h, w]
        rw [this]
        refine ⟨⟨⟨fun x => by simp [cut, w] at x, fun _ => leave_eq h, fun _ x => by simp [k, w] at x⟩, by simp [cut, w]⟩, ?_⟩
        rw [leave_eq h]; rfl
      · have nv : ∀ w, p.kind ≠ .swing w := fun w e => by simp [Perf.isClock, e] at k
        by_cases c : p.stop = .cut
        · have : f a p = a := by simp [f, g, k, h, w, cutPerf_again h w c]
          rw [this]
          exact ⟨⟨⟨fun x => by simp [cut, c] at x, fun x => by simp [w] at x, fun _ _ => ⟨h, fun _ _ => rfl, rfl, rfl⟩⟩,
            by simp [cut, c]⟩, rfl⟩
        · have : f a p = (cutVoiced p.id a.1, true) := by simp [f, g, k, h, w, cutPerf_voiced h nv w c]
          rw [this]
          refine ⟨⟨⟨fun _ => cutVoiced_cut h, fun x => by simp [w] at x, fun x => by simp [cut, c, w, k] at x⟩,
            by simp [cut, c, w, k]⟩, ?_⟩
          obtain ⟨x, e⟩ := (cutVoiced_cut h).kept
          rw [e]
    · have : f a p = a := by simp [f, k]
      rw [this]
      exact ⟨⟨⟨fun x => by simp [cut, k] at x, fun x => by simp [k] at x, fun _ _ => ⟨h, fun _ _ => rfl, rfl, rfl⟩⟩,
        by simp [cut, k]⟩, rfl⟩
  obtain ⟨C, S, J, A⟩ := cutsTaken_fold (fun _ c => c.drives = s.drives) nd
    (fun p h => by simp [cut] at h ⊢; simp [h]) (fun a p hp h => (deals a p hp h).1) rfl
    (fun l r a p e h _ j => (deals a p (by rw [← e]; simp) h).2.trans j)
  exact ⟨_, C, J, S, by rw [e, A]⟩

/-- A number outside 1..4 reads as drive 1 or as no drive's record. -/
theorem drive_ok_or (n : Nat) :
    (∃ k, unitOk 4 k = true ∧ ∀ s : State, s.drive n = s.drive k) ∨ ∀ s : State, s.drive n = startDrive := by
  by_cases z : n = 0
  · exact .inl ⟨1, rfl, fun s => by subst z; rfl⟩
  · by_cases k : n ≤ 4
    · exact .inl ⟨n, unitOk_iff.mpr ⟨by omega, k⟩, fun _ => rfl⟩
    · refine .inr fun s => ?_
      simp only [State.drive, rd]
      rw [Vector.getElem?_eq_none (by omega)]
      rfl

/-- Lowering a list of drives changes their lowering instants alone, and no other drive. -/
theorem lowerStaggered_others (stagger t : Nat) (l : List Nat) (s : State) :
    (∀ n, unitOk 4 n = true → n ∉ l → (lowerStaggered stagger t l s).drive n = s.drive n) ∧
    (∀ n, ∃ x, (lowerStaggered stagger t l s).drive n = { s.drive n with lowerAt := x }) ∧
    lowerStaggered stagger t l s = { s with drives := (lowerStaggered stagger t l s).drives } := by
  induction l generalizing t s with
  | nil => exact ⟨fun _ _ _ => rfl, fun _ => ⟨_, rfl⟩, rfl⟩
  | cons k l ih =>
    simp only [lowerStaggered]
    generalize hx : ({ s.drive k with lowerAt := some (match (s.drive k).lowerAt with
        | some u => min u t
        | none => t) } : Drive) = x
    obtain ⟨a, b, c⟩ := ih (t + 1000 * stagger) (setDrive k x s)
    have ne : ∀ n, unitOk 4 n = true → n ≠ k → (setDrive k x s).drive n = s.drive n := fun n h e =>
      rd_wr_ne (unitOk_iff.mp h).1 e
    refine ⟨fun n h hn => ?_, fun n => ?_, by rw [c]; rfl⟩
    · simp only [List.mem_cons, not_or] at hn
      rw [a n h hn.2, ne n h hn.1]
    · rcases drive_ok_or n with ⟨m, hm, e⟩ | e
      · rw [e, e]
        obtain ⟨y, z⟩ := b m
        rw [z]
        by_cases q : m = k
        · subst q; rw [drive_setDrive hm, ← hx]; exact ⟨_, rfl⟩
        · rw [ne m hm q]; exact ⟨_, rfl⟩
      · rw [e, e]; exact ⟨_, rfl⟩

theorem lowerStaggered_setPerf (stagger t : Nat) (l : List Nat) (p : Perf) (s : State) :
    lowerStaggered stagger t l (setPerf p s) = setPerf p (lowerStaggered stagger t l s) := by
  induction l generalizing t s with
  | nil => rfl
  | cons k l ih => exact ih _ (setDrive k _ s)

theorem finishDrives_drives (id : Nat) (x : SwingParams) (p : Perf) (s : State) :
    finishDrives id x (setPerf p s) = setPerf p (finishDrives id x s) := lowerStaggered_setPerf _ _ _ _ _

/-- What a FINISH of a SWING does to the drives, whatever it names (R130). -/
theorem finishDrives_others (id : Nat) (x : SwingParams) (s : State) :
    (∀ n, unitOk 4 n = true → n ∉ x.swinging s id → (finishDrives id x s).drive n = s.drive n) ∧
    (∀ n, ∃ y, (finishDrives id x s).drive n = { s.drive n with lowerAt := y }) ∧
    finishDrives id x s = { s with drives := (finishDrives id x s).drives } := by
  have e : x.startedDrives.filter (swingingFor s id) = x.swinging s id := by
    simp only [SwingParams.startedDrives, SwingParams.swinging]
    congr 1
    funext n
    simp [swingingFor]
  simp only [finishDrives, e]
  exact lowerStaggered_others _ _ _ _

/-- The drives that swing for a record are read from what no lowering changes. -/
theorem swinging_congr {s t : State} (h : ∀ n, ∃ y, t.drive n = { s.drive n with lowerAt := y }) (x : SwingParams) (id : Nat) :
    x.swinging t id = x.swinging s id := by
  simp only [SwingParams.swinging]
  congr 1
  funext n
  obtain ⟨y, e⟩ := h n
  rw [e]

/-- All that the Stop key does to the table (R98). -/
theorem stopPressed_taken {s : State} (nd : (s.perfs.map (·.id)).Nodup) :
    let cut := fun (p : Perf) => p.isStruck && decide (p.state ≠ .waiting) && decide (p.stop ≠ .cut)
    ∃ c, CutsTaken s c cut (fun p => (p.isStruck || p.isSwung) && decide (p.state = .waiting)) .stopped Perf.swingFinished ∧
      c.clock = s.clock ∧ (∀ p x, Lowers s p x → SwingOk x → DrivesLowered s c p.id x) ∧
      (∀ n, unitOk 4 n = true → (∀ p x, Lowers s p x → n ∉ x.swinging s p.id) → c.drive n = s.drive n) ∧
      stopPressed s = if s.perfs.any cut = true then offerRound c else c := by
  intro cut
  let f := fun (a : State × Bool) (x : Perf) => stopRecord a x.id
  have e : stopPressed s = if (s.perfs.foldl f (s, false)).2 = true then offerRound (s.perfs.foldl f (s, false)).1
      else (s.perfs.foldl f (s, false)).1 := by
    simp only [stopPressed, List.foldl_map]
    rfl
  -- a turn's drives: lowered where the record is a SWING that the key lowers, else as they stand
  have deals : ∀ a p, p ∈ s.perfs → a.1.perf p.id = some p → (RecordDealt a.1 (f a p).1 p cut
      (fun p => (p.isStruck || p.isSwung) && decide (p.state = .waiting)) .stopped Perf.swingFinished ∧
        (f a p).2 = (a.2 || cut p)) ∧
      (f a p).1.clock = a.1.clock ∧ ((∃ x, Lowers s p x ∧ (f a p).1.drives = (finishDrives p.id x a.1).drives) ∨
        ((∀ x, ¬Lowers s p x) ∧ (f a p).1.drives = a.1.drives)) := by
    intro a p hp h
    by_cases k : p.isStruck = true
    · have fk : f a p = ((cutPerf p.id a.1).1, a.2 || (cutPerf p.id a.1).2) := by
        simp only [f, stopRecord, h]
        cases kk : p.kind <;> simp_all [Perf.isStruck]
      have nv : ∀ w, p.kind ≠ .swing w := fun w e => by simp [Perf.isStruck, e] at k
      have nl : ∀ x, ¬Lowers s p x := fun x e => nv x e.2.1
      have sf : p.swingFinished = p := by
        simp only [Perf.swingFinished]
      by_cases w : p.state = .waiting
      · have : cutPerf p.id a.1 = (leave p.id .stopped a.1, false) := by simp [cutPerf, h, w]
        rw [fk, this]
        refine ⟨⟨⟨fun x => by simp [cut, w] at x, fun _ => leave_eq h, fun _ x => by simp [k, w] at x⟩, by simp [cut, w]⟩,
          ?_, .inr ⟨nl, ?_⟩⟩ <;> rw [leave_eq h] <;> rfl
      · by_cases c : p.stop = .cut
        · rw [fk, cutPerf_again h w c]
          exact ⟨⟨⟨fun x => by simp [cut, c] at x, fun x => by simp [w] at x,
            fun _ _ => ⟨by rw [sf]; exact h, fun _ _ => rfl, rfl, rfl⟩⟩, by simp [cut, c]⟩, rfl, .inr ⟨nl, rfl⟩⟩
        · rw [fk, cutPerf_voiced h nv w c]
          refine ⟨⟨⟨fun _ => cutVoiced_cut h, fun x => by simp [w] at x, fun x => by simp [cut, c, w, k] at x⟩,
            by simp [cut, c, w, k]⟩, (cutVoiced_cut h).unclocked ?_, .inr ⟨nl, ?_⟩⟩
          · simp only [Perf.isClock]; split
            · rename_i e; simp [Perf.isStruck, e] at k
            · rfl
          obtain ⟨x, e⟩ := (cutVoiced_cut h).kept
          rw [e]
    · have nc : ¬cut p = true := by simp [cut, k]
      by_cases v : p.isSwung = true
      · obtain ⟨x, kx⟩ : ∃ x, p.kind = .swing x := by
          simp only [Perf.isSwung] at v
          split at v
          · rename_i x e; exact ⟨x, e⟩
          · cases v
        have fk : f a p = (finishPerf p.id a.1, a.2) := by simp only [f, stopRecord, h, kx]
        rw [fk]
        by_cases w : p.state = .waiting
        · have : finishPerf p.id a.1 = leave p.id .stopped a.1 := by simp [finishPerf, h, w]
          rw [this]
          refine ⟨⟨⟨fun x => absurd x nc, fun _ => leave_eq h, fun _ x => by simp [v, w] at x⟩, by simp [nc]⟩,
            ?_, .inr ⟨fun x l => l.2.2.1 w, ?_⟩⟩ <;> rw [leave_eq h] <;> rfl
        · by_cases st : p.state = .stopping
          · have : finishPerf p.id a.1 = a.1 := by simp [finishPerf, h, st]
            rw [this]
            exact ⟨⟨⟨fun x => absurd x nc, fun x => by simp [w] at x,
              fun _ _ => ⟨by simpa [Perf.swingFinished, kx, st] using h, fun _ _ => rfl, rfl, rfl⟩⟩, by simp [nc]⟩,
              rfl, .inr ⟨fun x l => l.2.2.2 st, rfl⟩⟩
          · have fin : p.swingFinished = { p with state := .stopping, stop := .finish, kind := .swing x.cancelled } := by
              simp [Perf.swingFinished, kx, w, st, SwingParams.stopped, SwingParams.cancelled]
            have q : finishPerf p.id a.1 = finishDrives p.id x (setPerf p.swingFinished a.1) := by
              rw [fin]
              simp only [finishPerf, h]
              cases sp : p.state <;> simp_all
            obtain ⟨-, -, m⟩ := finishDrives_others p.id x (setPerf p.swingFinished a.1)
            have i : p.swingFinished.id = p.id := by rw [fin]
            rw [q]
            refine ⟨⟨⟨fun x => absurd x nc, fun x => by simp [w] at x, fun _ _ => ⟨?_, fun j hj => ?_, ?_, ?_⟩⟩,
              by simp [nc]⟩, ?_, .inl ⟨x, ⟨hp, kx, w, st⟩, ?_⟩⟩
            · rw [m]
              have := perf_setPerf_same (p := p.swingFinished) (q := p) (s := a.1) (by rw [i]; exact h)
              rw [i] at this
              exact this
            · rw [m]
              exact perf_setPerf_ne (p := p.swingFinished) (by rw [i]; exact hj)
            · rw [m]; exact ids_setPerf _ a.1
            · rw [m]; rfl
            · rw [m]; rfl
            · rw [finishDrives_drives]; rfl
      · have fk : f a p = a := by
          simp only [f, stopRecord, h]
          cases kk : p.kind <;> simp_all [Perf.isStruck, Perf.isSwung]
        have sf : p.swingFinished = p := by
          simp only [Perf.swingFinished]
          split
          · rename_i x e; simp [Perf.isSwung, e] at v
          · rfl
        rw [fk]
        exact ⟨⟨⟨fun x => absurd x nc, fun x => by simp [k, v] at x,
          fun _ _ => ⟨by rw [sf]; exact h, fun _ _ => rfl, rfl, rfl⟩⟩, by simp [nc]⟩,
          rfl, .inr ⟨fun x l => by simp [Perf.isSwung, l.2.1] at v, rfl⟩⟩
  have dis : ∀ (l r : List Perf) p, l ++ p :: r = s.perfs → ∀ q ∈ l, q.id ≠ p.id := by
    intro l r p e q hq
    rw [← e, List.map_append, List.map_cons, List.nodup_append] at nd
    exact nd.2.2 q.id (List.mem_map_of_mem hq) p.id (by simp)
  obtain ⟨C, -, ⟨j0, j1, j2, j3⟩, A⟩ := cutsTaken_fold (fun l c => c.clock = s.clock ∧ (∀ n, ∃ y, c.drive n = { s.drive n with lowerAt := y }) ∧
      (∀ p x, p ∈ l → Lowers s p x → SwingOk x → DrivesLowered s c p.id x) ∧
      (∀ n, unitOk 4 n = true → (∀ p x, p ∈ l → Lowers s p x → n ∉ x.swinging s p.id) → c.drive n = s.drive n)) nd
    (fun p h => by simp [cut] at h ⊢; simp [h]) (fun a p hp h => (deals a p hp h).1)
    ⟨rfl, fun _ => ⟨_, rfl⟩, (fun _ _ h => nomatch h), fun _ _ _ => rfl⟩ (by
      intro l r a p e h now ⟨j0, j1, j2, j3⟩
      obtain ⟨-, ck, D⟩ := deals a p (by rw [← e]; simp) h
      refine ⟨ck.trans j0, ?_⟩
      obtain ⟨x, L, d⟩ | ⟨n, d⟩ := D
      · have dd : ∀ n, (f a p).1.drive n = (finishDrives p.id x a.1).drive n := fun n => by simp only [State.drive, d]
        obtain ⟨f1, f2, -⟩ := finishDrives_others p.id x a.1
        rw [swinging_congr j1] at f1
        refine ⟨fun n => ?_, fun q y hq M ok => ?_, fun n hn k => ?_⟩
        · obtain ⟨u, eu⟩ := f2 n
          obtain ⟨v, ev⟩ := j1 n
          exact ⟨u, by rw [dd, eu, ev]⟩
        · intro i n hi
          have mem := List.mem_of_getElem? hi
          simp only [SwingParams.swinging, List.mem_filter, List.mem_map, decide_eq_true_eq] at mem
          obtain ⟨⟨z, hz, rfl⟩, mp, -⟩ := mem
          have un := ok.2 z hz.1
          rcases List.mem_append.mp hq with m | m
          · rw [dd, f1 _ un, j2 q y m M ok i _ hi]
            intro x
            simp only [SwingParams.swinging, List.mem_filter, decide_eq_true_eq] at x
            rw [mp] at x
            exact dis l r p e q m (Option.some.inj x.2.1)
          · simp only [List.mem_singleton] at m
            subst m
            obtain rfl : x = y := by simpa using L.2.1.symm.trans M.2.1
            have same : a.1.drive z.drive = s.drive z.drive := j3 _ un fun p' x' hp' _ hm => by
              simp only [SwingParams.swinging, List.mem_filter, decide_eq_true_eq] at hm
              rw [mp] at hm
              exact dis l r _ e p' hp' (Option.some.inj hm.2.1).symm
            rw [dd, (finishDrives_lowered ok).1 i z.drive (by rw [swinging_congr j1]; exact hi), same, now]
        · rw [dd, f1 n hn (k p x (by simp) L)]
          exact j3 n hn fun q y hq => k q y (by simp [hq])
      · have dd : ∀ n, (f a p).1.drive n = a.1.drive n := fun n => by simp only [State.drive, d]
        refine ⟨fun n => by rw [dd]; exact j1 n, fun q y hq M ok => ?_, fun m hm k => ?_⟩
        · rcases List.mem_append.mp hq with m | m
          · intro i k hi
            rw [dd]; exact j2 q y m M ok i k hi
          · simp only [List.mem_singleton] at m
            subst m; exact absurd M (n y)
        · rw [dd]; exact j3 m hm fun q y hq => k q y (by simp [hq]))
  refine ⟨_, C, j0, fun p x L => j2 p x L.1 L, fun n hn k => j3 n hn fun p x _ => k p x, by rw [e, A]⟩

/-! ### The offer round -/

/-- What an admission touches; it is of the sheets only where a carried hour is admitted (R83, R113). -/
theorem admitPerf_frame (p : Perf) (s : State) : admitPerf p s = { s with
      bells := (admitPerf p s).bells, perfs := (setPerf (admittedRecord p s) s).perfs, nextOrder := (admitPerf p s).nextOrder
      voices := (admitPerf p s).voices, lights := (admitPerf p s).lights, clock := (admitPerf p s).clock
      store := (admitPerf p s).store } ∧
    (p.isClock = false → (admitPerf p s).clock = s.clock) := by
  have e : ∃ u, (u = admittedUnvoiced p s ∨ ∃ v, u = takeVoice v p.id p.slot (admittedUnvoiced p s)) ∧
      admitPerf p s = match p.kind with
        | .clock c => if c.carried then { u with clock := writeLate c.date c.slot u.clock } else u
        | _ => u := by
    refine ⟨match (admittedRecord p s).voice with
      | some v => takeVoice v p.id p.slot (admittedUnvoiced p s)
      | none => admittedUnvoiced p s, ?_, rfl⟩
    split
    · exact .inr ⟨_, rfl⟩
    · exact .inl rfl
  obtain ⟨u, hu, e⟩ := e
  have ku : u = { s with
      bells := u.bells, perfs := (setPerf (admittedRecord p s) s).perfs, nextOrder := u.nextOrder, voices := u.voices
      lights := u.lights, store := u.store } := by
    rcases hu with h | ⟨v, h⟩
    · rw [h]; conv_lhs => rw [admittedUnvoiced_eq]
      rw [admittedUnvoiced_eq]
    · rw [h, takeVoice_eq]; conv_lhs => rw [admittedUnvoiced_eq]
      rw [admittedUnvoiced_eq]
  rw [e]
  clear e hu
  constructor
  · split
    · split <;> (rw [ku])
    · rw [ku]
  · intro n
    split
    · rename_i e; simp [Perf.isClock, e] at n
    · rw [ku]

/-- What an offer round touches; of the day sheets nothing where no CLOCK record waits (R74, R113). -/
theorem offerRound_frame (s : State) : offerRound s = { s with
      bells := (offerRound s).bells, perfs := (offerRound s).perfs, nextOrder := (offerRound s).nextOrder
      voices := (offerRound s).voices, lights := (offerRound s).lights, clock := (offerRound s).clock
      store := (offerRound s).store } ∧
    ((∀ p ∈ s.perfs, p.isClock = true → p.state ≠ .waiting) → (offerRound s).clock = s.clock) := by
  simp only [offerRound]
  generalize (sortBy offeredBefore (s.perfs.filter fun p => p.state = .waiting)).map (·.id) = l
  induction l generalizing s with
  | nil => exact ⟨rfl, fun _ => rfl⟩
  | cons k l ih =>
    rw [List.foldl_cons]
    obtain ⟨a, b⟩ := ih (offerTo s k)
    simp only [offerTo] at a b ⊢
    cases h : s.perf k with
    | none => simp only [h] at a b ⊢; exact ⟨a, b⟩
    | some p =>
      simp only [h] at a b ⊢
      by_cases w : (decide (p.state = .waiting) && canAdmit s p) = true
      · rw [if_pos w] at a b ⊢
        obtain ⟨c, d⟩ := admitPerf_frame p s
        refine ⟨by rw [a, c], fun n => ?_⟩
        have pc : p.isClock = false := by
          by_contra x
          exact n p (perf_mem h) (by simpa using x) (by simp at w; exact w.1)
        rw [b ?_, d pc]
        intro q hq qc
        rw [c] at hq
        simp only [setPerf, List.mem_map] at hq
        obtain ⟨r, hr, rfl⟩ := hq
        split
        · exact nofun
        · rename_i e
          rw [if_neg e] at qc
          exact n r hr qc
      · rw [if_neg w] at a b ⊢
        exact ⟨a, b⟩

end Sys2Proof.Machine
end

