-- ==== Sys2Proof/Laws/PerInstr.lean ====
section
/-! SUPPORT. What holds of every command as syntax, one lemma for each: which commands are requests, which of them only
SERVICE accepts and which only read (11.8). -/

namespace Sys2Proof.Laws.Kinds

/-- What SERVICE alone accepts and what only reads are requests, and no request is both (11.8). -/
def Statement (i : Instr) : Prop :=
  (!Machine.isServiceOnly i || Machine.isRequest i) = true ∧
    (!Machine.isReadout i || Machine.isRequest i && !Machine.isServiceOnly i) = true

theorem timeSet (date : DateF) (time : TimeF) (zone : Option Zone) : Statement (.timeSet date time zone) := ⟨rfl, rfl⟩
theorem mark (date : DateF) (time : TimeF) (zone : Option Zone) : Statement (.mark date time zone) := ⟨rfl, rfl⟩
theorem refOn : Statement (.refOn) := ⟨rfl, rfl⟩
theorem refOff : Statement (.refOff) := ⟨rfl, rfl⟩
theorem timeRead : Statement (.timeRead) := ⟨rfl, rfl⟩
theorem refRead : Statement (.refRead) := ⟨rfl, rfl⟩
theorem summer (rule : SummerRule) : Statement (.summer rule) := ⟨rfl, rfl⟩
theorem sun (k rise set : Nat) : Statement (.sun k rise set) := ⟨rfl, rfl⟩
theorem calendarRead : Statement (.calendarRead) := ⟨rfl, rfl⟩
theorem yearRead (y : Nat) : Statement (.yearRead y) := ⟨rfl, rfl⟩
theorem summerRead : Statement (.summerRead) := ⟨rfl, rfl⟩
theorem sunRead (k : Nat) : Statement (.sunRead k) := ⟨rfl, rfl⟩
theorem dialConfig (n : Nat) (cfg : DialCfg) : Statement (.dialConfig n cfg) := ⟨rfl, rfl⟩
theorem dialSet (n : Nat) (pos : Option Nat) (pol : Option Polarity) : Statement (.dialSet n pos pol) := ⟨rfl, rfl⟩
theorem dialStop (n : Nat) : Statement (.dialStop n) := ⟨rfl, rfl⟩
theorem dialGo (n : Nat) : Statement (.dialGo n) := ⟨rfl, rfl⟩
theorem dialRead (n : Nat) : Statement (.dialRead n) := ⟨rfl, rfl⟩
theorem bellConfig (b : Nat) (cfg : BellCfg) : Statement (.bellConfig b cfg) := ⟨rfl, rfl⟩
theorem bellSilent (b : Nat) (on : Bool) : Statement (.bellSilent b on) := ⟨rfl, rfl⟩
theorem bellClear (b : Nat) : Statement (.bellClear b) := ⟨rfl, rfl⟩
theorem bellTest (b : Nat) (intensity : Intensity) : Statement (.bellTest b intensity) := ⟨rfl, rfl⟩
theorem bellRead (b : Nat) : Statement (.bellRead b) := ⟨rfl, rfl⟩
theorem claimRead (b : Nat) : Statement (.claimRead b) := ⟨rfl, rfl⟩
theorem stopFinish (id : Nat) : Statement (.stopFinish id) := ⟨rfl, rfl⟩
theorem stopCut (id : Nat) : Statement (.stopCut id) := ⟨rfl, rfl⟩
theorem play (slot : Nat) (scale wait scene : Option Nat) : Statement (.play slot scale wait scene) := ⟨rfl, rfl⟩
theorem toll (bell interval count : Nat) (intensity : Intensity) (wait scene : Option Nat) : Statement (.toll bell interval count intensity wait scene) := ⟨rfl, rfl⟩
theorem perfRead (id : Option Nat) : Statement (.perfRead id) := ⟨rfl, rfl⟩
theorem clockConfig (cfg : ClockCfg) : Statement (.clockConfig cfg) := ⟨rfl, rfl⟩
theorem clockLevels (levels : Levels) : Statement (.clockLevels levels) := ⟨rfl, rfl⟩
theorem sheetRead (today : Bool) (first : Option Nat) : Statement (.sheetRead today first) := ⟨rfl, rfl⟩
theorem clockRead : Statement (.clockRead) := ⟨rfl, rfl⟩
theorem panelToll (cfg : PanelTollCfg) : Statement (.panelToll cfg) := ⟨rfl, rfl⟩
theorem panelTollRead : Statement (.panelTollRead) := ⟨rfl, rfl⟩
theorem swingConfig (n : Nat) (cfg : SwingCfg) : Statement (.swingConfig n cfg) := ⟨rfl, rfl⟩
theorem swingClear (n : Nat) : Statement (.swingClear n) := ⟨rfl, rfl⟩
theorem ring (drives : List Nat) (stagger duration wait : Option Nat) : Statement (.ring drives stagger duration wait) := ⟨rfl, rfl⟩
theorem swingRead (n : Nat) : Statement (.swingRead n) := ⟨rfl, rfl⟩
theorem slotOpen (n tempo division : Nat) (scene : Option Nat) (title : String) : Statement (.slotOpen n tempo division scene title) := ⟨rfl, rfl⟩
theorem page (n k part : Nat) (events : List EventWord) : Statement (.page n k part events) := ⟨rfl, rfl⟩
theorem slotClose (n count : Nat) : Statement (.slotClose n count) := ⟨rfl, rfl⟩
theorem slotErase (n : Nat) : Statement (.slotErase n) := ⟨rfl, rfl⟩
theorem slotRead (n : Nat) : Statement (.slotRead n) := ⟨rfl, rfl⟩
theorem storeRead : Statement (.storeRead) := ⟨rfl, rfl⟩
theorem entryWrite (n : Nat) (fields : EntryFields) : Statement (.entryWrite n fields) := ⟨rfl, rfl⟩
theorem entrySuspend (n : Nat) : Statement (.entrySuspend n) := ⟨rfl, rfl⟩
theorem entryResume (n : Nat) : Statement (.entryResume n) := ⟨rfl, rfl⟩
theorem entryClear (n : Nat) : Statement (.entryClear n) := ⟨rfl, rfl⟩
theorem entryRead (n : Nat) : Statement (.entryRead n) := ⟨rfl, rfl⟩
theorem scheduleRead : Statement (.scheduleRead) := ⟨rfl, rfl⟩
theorem lightConfig (n : Nat) (cfg : LightCfg) : Statement (.lightConfig n cfg) := ⟨rfl, rfl⟩
theorem sceneWrite (k fade : Nat) (pairs : List (Nat × Nat)) : Statement (.sceneWrite k fade pairs) := ⟨rfl, rfl⟩
theorem sceneRead (k : Nat) : Statement (.sceneRead k) := ⟨rfl, rfl⟩
theorem lightSite (cfg : SiteCfg) : Statement (.lightSite cfg) := ⟨rfl, rfl⟩
theorem light (ch : Option Nat) (level : Nat) (fade : Option Nat) (mode : OverrideMode) : Statement (.light ch level fade mode) := ⟨rfl, rfl⟩
theorem lightRelease (ch : Option Nat) (fade : Option Nat) : Statement (.lightRelease ch fade) := ⟨rfl, rfl⟩
theorem lightClear (n : Nat) (fade : Option Nat) : Statement (.lightClear n fade) := ⟨rfl, rfl⟩
theorem lightRead (n : Nat) : Statement (.lightRead n) := ⟨rfl, rfl⟩
theorem duskRead : Statement (.duskRead) := ⟨rfl, rfl⟩
theorem maskSet (cls : Option NoticeClass) (on : Bool) : Statement (.maskSet cls on) := ⟨rfl, rfl⟩
theorem lineRate (rate : Nat) : Statement (.lineRate rate) := ⟨rfl, rfl⟩
theorem statusRead : Statement (.statusRead) := ⟨rfl, rfl⟩
theorem modeService : Statement (.modeService) := ⟨rfl, rfl⟩
theorem modeRun : Statement (.modeRun) := ⟨rfl, rfl⟩
theorem save : Statement (.save) := ⟨rfl, rfl⟩
theorem restart : Statement (.restart) := ⟨rfl, rfl⟩
theorem lineReceived (wait : Nat) (line : RawLine) : Statement (.lineReceived wait line) := ⟨rfl, rfl⟩
theorem lineSent (wait : Nat) : Statement (.lineSent wait) := ⟨rfl, rfl⟩
theorem secondEnd : Statement (.secondEnd) := ⟨rfl, rfl⟩
theorem trimUpdate : Statement (.trimUpdate) := ⟨rfl, rfl⟩
theorem refPulse (wait : Nat) : Statement (.refPulse wait) := ⟨rfl, rfl⟩
theorem expectedSecondMissing : Statement (.expectedSecondMissing) := ⟨rfl, rfl⟩
theorem markExpired : Statement (.markExpired) := ⟨rfl, rfl⟩
theorem backupSecond : Statement (.backupSecond) := ⟨rfl, rfl⟩
theorem dialImpulseStart (n : Nat) : Statement (.dialImpulseStart n) := ⟨rfl, rfl⟩
theorem dialImpulseEnd (n : Nat) : Statement (.dialImpulseEnd n) := ⟨rfl, rfl⟩
theorem noonClosure (wait n : Nat) : Statement (.noonClosure wait n) := ⟨rfl, rfl⟩
theorem strokeRelease (voice : Nat) : Statement (.strokeRelease voice) := ⟨rfl, rfl⟩
theorem heldStrokeRelease (b : Nat) : Statement (.heldStrokeRelease b) := ⟨rfl, rfl⟩
theorem hammerPulseEnd (b : Nat) : Statement (.hammerPulseEnd b) := ⟨rfl, rfl⟩
theorem confirmClosure (wait b : Nat) : Statement (.confirmClosure wait b) := ⟨rfl, rfl⟩
theorem confirmWindowClose (b : Nat) : Statement (.confirmWindowClose b) := ⟨rfl, rfl⟩
theorem eventTakeUp (voice : Nat) : Statement (.eventTakeUp voice) := ⟨rfl, rfl⟩
theorem tollStrokeRelease (id : Nat) : Statement (.tollStrokeRelease id) := ⟨rfl, rfl⟩
theorem testStrokeRelease (id : Nat) : Statement (.testStrokeRelease id) := ⟨rfl, rfl⟩
theorem driveStart (id : Nat) : Statement (.driveStart id) := ⟨rfl, rfl⟩
theorem performanceEnd (id : Nat) : Statement (.performanceEnd id) := ⟨rfl, rfl⟩
theorem cutRecordLeaves (id : Nat) : Statement (.cutRecordLeaves id) := ⟨rfl, rfl⟩
theorem waitExpiry (id : Nat) : Statement (.waitExpiry id) := ⟨rfl, rfl⟩
theorem quarterEvaluation : Statement (.quarterEvaluation) := ⟨rfl, rfl⟩
theorem bottomPulse (wait n : Nat) : Statement (.bottomPulse wait n) := ⟨rfl, rfl⟩
theorem amplitudePulse (wait n : Nat) : Statement (.amplitudePulse wait n) := ⟨rfl, rfl⟩
theorem kickEnd (n : Nat) : Statement (.kickEnd n) := ⟨rfl, rfl⟩
theorem brakeKickEnd (n : Nat) : Statement (.brakeKickEnd n) := ⟨rfl, rfl⟩
theorem settleExpiry (n : Nat) : Statement (.settleExpiry n) := ⟨rfl, rfl⟩
theorem noStart (n : Nat) : Statement (.noStart n) := ⟨rfl, rfl⟩
theorem raiseLimit (n : Nat) : Statement (.raiseLimit n) := ⟨rfl, rfl⟩
theorem noBottom (n : Nat) : Statement (.noBottom n) := ⟨rfl, rfl⟩
theorem loweringInstant (n : Nat) : Statement (.loweringInstant n) := ⟨rfl, rfl⟩
theorem pageReadEnd : Statement (.pageReadEnd) := ⟨rfl, rfl⟩
theorem pageProgramEnd : Statement (.pageProgramEnd) := ⟨rfl, rfl⟩
theorem sectorEraseEnd : Statement (.sectorEraseEnd) := ⟨rfl, rfl⟩
theorem directoryWriteEnd : Statement (.directoryWriteEnd) := ⟨rfl, rfl⟩
theorem fadeStep (ch : Nat) : Statement (.fadeStep ch) := ⟨rfl, rfl⟩
theorem lampSlot : Statement (.lampSlot) := ⟨rfl, rfl⟩
theorem lampMeasurementEnd (code : ConvCode) : Statement (.lampMeasurementEnd code) := ⟨rfl, rfl⟩
theorem duskSample : Statement (.duskSample) := ⟨rfl, rfl⟩
theorem duskMeasurementEnd (code : ConvCode) : Statement (.duskMeasurementEnd code) := ⟨rfl, rfl⟩
theorem tollKey (wait : Nat) : Statement (.tollKey wait) := ⟨rfl, rfl⟩
theorem silenceKey (wait : Nat) : Statement (.silenceKey wait) := ⟨rfl, rfl⟩
theorem lightsKey (wait : Nat) : Statement (.lightsKey wait) := ⟨rfl, rfl⟩
theorem stopKey (wait : Nat) : Statement (.stopKey wait) := ⟨rfl, rfl⟩
theorem powerLoss (wait : Nat) : Statement (.powerLoss wait) := ⟨rfl, rfl⟩
theorem powerUp (valid : Bool) : Statement (.powerUp valid) := ⟨rfl, rfl⟩
theorem startValues : Statement (.startValues) := ⟨rfl, rfl⟩
theorem restartEvent : Statement (.restartEvent) := ⟨rfl, rfl⟩
theorem noonContactOpen (wait n : Nat) : Statement (.noonContactOpen wait n) := ⟨rfl, rfl⟩
theorem keyInputOpen (wait : Nat) (key : Key) : Statement (.keyInputOpen wait key) := ⟨rfl, rfl⟩
theorem pwmPeriod (ch : Nat) : Statement (.pwmPeriod ch) := ⟨rfl, rfl⟩

end Sys2Proof.Laws.Kinds
end

