-- ==== Sys2Proof/Tests/Slice0.lean ====
section
/-! SUPPORT. Small tests: ill-formed commands, request lines, witnesses for the statements' hypotheses, and single steps
whose results the manual gives. -/

namespace Sys2Proof.Machine

-- One test after the other: as parallel tasks they would all wait on the kernel at once, each with a stack of its own.
set_option Elab.async false

/-! ### Ill-formed commands, one for each check -/

theorem test_wf_markMs : (Instr.mark ⟨2025, 4, 20⟩ ⟨10, 0, 0, 1⟩ none).wellFormed = false := by decide
theorem test_wf_timeSetMs : (Instr.timeSet ⟨2025, 4, 20⟩ ⟨10, 0, 0, 1000⟩ none).wellFormed = false := by decide
theorem test_wf_bellName : (Instr.bellConfig 1 { defaultBell 1 with name := "THIRTEENCHARS" }).wellFormed = false := by decide
theorem test_wf_lightName : (Instr.lightConfig 1 { defaultLight 1 with name := "A B" }).wellFormed = false := by decide
theorem test_wf_title : (Instr.slotOpen 1 80 2 none "").wellFormed = false := by decide
theorem test_wf_pageEmpty : (Instr.page 1 0 1 []).wellFormed = false := by decide
theorem test_wf_pageLong : (Instr.page 1 0 1 (List.replicate 9 0#36)).wellFormed = false := by decide
theorem test_wf_pageIntensity : (Instr.page 1 0 1 [3#36]).wellFormed = false := by decide
theorem test_wf_pageFlag : (Instr.page 1 0 1 [8#36]).wellFormed = false := by decide
theorem test_wf_ringTwice : (Instr.ring [2, 2] none none none).wellFormed = false := by decide
theorem test_wf_ringFive : (Instr.ring [1, 2, 3, 4, 5] none none none).wellFormed = false := by decide
theorem test_wf_scenePairs : (Instr.sceneWrite 1 0 [(3, 1), (3, 2)]).wellFormed = false := by decide
theorem test_wf_sceneEmpty : (Instr.sceneWrite 1 0 []).wellFormed = false := by decide
theorem test_wf_lineFeed : (Instr.lineReceived 0 ⟨[10#8], true, false⟩).wellFormed = false := by decide
theorem test_wf_dial : (Instr.dialImpulseStart 5).wellFormed = false := by decide
theorem test_wf_voice : (Instr.strokeRelease 0).wellFormed = false := by decide
theorem test_wf_bell : (Instr.confirmClosure 0 25).wellFormed = false := by decide
theorem test_wf_perf : (Instr.waitExpiry 256).wellFormed = false := by decide
theorem test_wf_drive : (Instr.bottomPulse 0 5).wellFormed = false := by decide
theorem test_wf_channel : (Instr.fadeStep 17).wellFormed = false := by decide

/-- An entry on 24 December, for tests. -/
def eveEntry : EntryFields :=
  { year := none, month := some 12, day := some 24, weekdays := [.sat], feast := none
    time := .fixed (some 17) 30, action := .scene 4 }

theorem test_wf_entryDays : (Instr.entryWrite 1 { eveEntry with weekdays := [] }).wellFormed = false := by decide
theorem test_wf_entryDaysTwice : (Instr.entryWrite 1 { eveEntry with weekdays := [.sat, .sat] }).wellFormed = false := by decide
theorem test_wf_entryDrives :
    (Instr.entryWrite 1 { eveEntry with action := .ring [] 0 0 }).wellFormed = false := by decide

/-! ### Request lines -/

/-- The characters of a line. -/
def lineOf (t : String) : List CharCode := t.toList.map fun c => BitVec.ofNat 8 c.toNat

theorem test_parse_timeSet : parseRequest (lineOf "TIME SET 2025-04-20 10:00:00.250 S") =
    some (.timeSet ⟨2025, 4, 20⟩ ⟨10, 0, 0, 250⟩ (some .summer)) := by decide +kernel

/-- The example of R173. -/
theorem test_parse_scene : parseRequest (lineOf "SCENE WRITE 4 50 1:3000 2:3000 3:3000") =
    some (.sceneWrite 4 50 [(1, 3000), (2, 3000), (3, 3000)]) := by decide +kernel

theorem test_parse_ring : parseRequest (lineOf "  RING 1,3  20 ") = some (.ring [1, 3] (some 20) none none) := by
  decide +kernel

theorem test_parse_entry : parseRequest (lineOf "ENTRY WRITE 9 ANY 12 24 SAT NONE FIXED 17 30 SCENE 4") =
    some (.entryWrite 9 eveEntry) := by decide +kernel

/-- The example of R156. -/
theorem test_parse_easter : parseRequest (lineOf "ENTRY WRITE 40 ANY ANY ANY ALL +49 FIXED 10 0 RING 1,2 20 15") =
    some (.entryWrite 40
      { year := none, month := none, day := none, weekdays := [.mon, .tue, .wed, .thu, .fri, .sat, .sun], feast := some 49
        time := .fixed (some 10) 0, action := .ring [1, 2] 20 15 }) := by decide +kernel

theorem test_parse_sunset : parseRequest (lineOf "ENTRY WRITE 2 ANY ANY ANY MON,SUN -2 SUNSET -15 EARLY SCENE 0") =
    some (.entryWrite 2
      { year := none, month := none, day := none, weekdays := [.mon, .sun], feast := some (-2)
        time := .sunset (-15) true, action := .scene 0 }) := by decide +kernel

/-- Nine hexadecimal digits make an event group (R145). -/
theorem test_parse_page : parseRequest (lineOf "PAGE 3 0 1 000000A01") = some (.page 3 0 1 [0xA01#36]) := by decide +kernel

theorem test_parse_unknown : parseRequest (lineOf "TIME TELL") = none := by decide +kernel
theorem test_parse_mark : parseRequest (lineOf "MARK 2025-04-20 10:00:00.000") = none := by decide +kernel

/-! ### Witnesses: states that meet the hypotheses of the statements -/

/-- The state after reset. -/
def r : State := State.reset
/-- In RUN. -/
def running : State := { r with line := { r.line with mode := .run } }
/-- With the time set. -/
def timed2025 : State := { r with tb := { r.tb with set := true, secs := 798_336_000 } }
/-- Without main power. -/
def dark : State := { r with power := { r.power with phase := .off } }
/-- A line waits ahead. -/
def behind : State := { r with line := { r.line with slots := [.waiting .refRead 0, .overrun] } }
/-- A reference state and the microseconds since the boundary. -/
def reference (st : RefState) (us : Nat) : State :=
  { r with ref := { r.ref with state := st, judged := false }, tb := { r.tb with sub := us, tick := us } }
/-- Dial 1 as given, with its noon contact fitted and a hold window of 180 min, at 00:00 with the time set. -/
def withDial (x : Dial) : State :=
  { r with
    tb := { r.tb with set := true }
    dials := wr r.dials 1 x
    cfg := { r.cfg with dials := wr r.cfg.dials 1 { defaultDial with noon := true, hold := 180 } } }
/-- A dial at a position, DERIVED. -/
def derivedAt (p : Nat) : Dial := { coldDial defaultDial with pos := some p, stored := .derived }
/-- Bell 1 with a hammer and a confirm contact, and its operational part; drive 1 swings it, and stands as given. -/
def withBell (x : Bell) (d : SwingState) : State :=
  { r with
    bells := wr r.bells 1 x
    drives := Vector.replicate 4 { startDrive with state := d }
    cfg := { r.cfg with
      bells := wr r.cfg.bells 1 { defaultBell 1 with hammer := true, confirm := true, drive := 1 }
      swings := wr r.cfg.swings 1 { defaultSwing with bell := 1 } } }
/-- A toll on bell 1. -/
def tollOne : TollParams := { bell := 1, interval := 10, count := 2, intensity := .normal, sent := 0, limit := some 2 }
/-- A quarter of slot 95 of day 0. -/
def hourOne : ClockParams :=
  { quarter := 3, hours := none, date := 0, slot := 95, hourOnly := false, hourBase := 0, spacing := 0, struck := 0
    carried := false }
/-- A record of the given kind and state, on bell 1 with voice 1, its first sound at 200 ms. -/
def rec1 (k : PerfKind) (st : PerfState) : Perf :=
  { newPerf k .line 1 (bellOne 1) 100 5 none with id := 1, state := st, voice := some 1, anchor := some 200 }
/-- Bell 1 claimed by performance 1. -/
def claimed : Bell := { startBell with claims := [{ perf := 1, level := 1, order := 1 }] }
/-- One record, with its claim on bell 1, under a drive in the given state. -/
def playing (p : Perf) (d : SwingState) : State :=
  { withBell claimed d with
    perfs := [p], lastId := 1
    voices := wr r.voices 1 { freeVoice with perf := some 1 } }

/-- Whether a command gives a next state. -/
def runs (c : Instr) (s : State) : Bool :=
  match exec c s with
  | .next _ => true
  | _ => false

/-- The state a command leaves, where it gives one. -/
def after (c : Instr) (s : State) : Option State :=
  match exec c s with
  | .next t => some t
  | _ => none

theorem test_witness_TheQueueAndIdleSteps : r.pending = [] ∧ dueNow dark = [] ∧ dueNow r ≠ [] ∧
    runs .timeRead r = true ∧ runs .secondEnd r = true := by
  refine ⟨rfl, ?_, ?_, ?_, ?_⟩ <;> decide +kernel
theorem test_witness_EveryCommandHasAMeaning : (Instr.confirmClosure 0 24).wellFormed = true ∧
    placedAfter (.refPulse 1000001) = some 1000001 ∧ elapse 1000001 r = none ∧ isRequest .save = true := by decide +kernel
theorem test_witness_ResetIsTheColdStart : unitOk 4 4 = true ∧ unitOk 24 24 = true ∧ unitOk 128 128 = true ∧ unitOk 16 1 = true := by
  decide

/-- The timebase at the edges of its ranges. -/
def edge : State :=
  { r with
    tb := { r.tb with secs := spanSecs - 1, sub := 1000000, trim := -50000, acc := 999, slew := some (-1000), len := 998950 }
    power := { r.power with backAcc := -999 }
    ref := { r.ref with mark := some { secs := spanSecs - 1, recv := 0 } } }

/-- The tables at their bounds. -/
def full : State :=
  { r with
    line := { r.line with slots := [.waiting .save 0, .ready (.ok []) none] ++ List.replicate 8 .overrun }
    store := { r.store with queue := List.replicate 8 (.dirWrite 1 .plain) }
    perfs := (List.range 12).map fun i => { rec1 (.toll tollOne) .waiting with id := i + 1 } }

theorem test_witness_EveryStepKeepsTimeRangesAndTableBounds :
    (TimeOk edge ∧ runs .secondEnd edge = true) ∧
    (BoundsOk full ∧ runs (.lineReceived 0 ⟨lineOf "SAVE", true, false⟩) full = true) :=
  ⟨⟨{ secs := by decide +kernel, sub := by decide +kernel, trim := by decide +kernel, acc := by decide +kernel
      back := by decide +kernel, slew := by intro e h; cases h; decide, len := by decide +kernel
      mark := by intro m h; cases h; decide +kernel }, by decide +kernel⟩
  , { places := by decide +kernel, marks := by decide +kernel, queue := by decide +kernel
      perfs := ⟨by decide +kernel, by decide +kernel⟩ }
  , by decide +kernel⟩

/-- What holds of each unit's number holds of every number that names a unit. -/
theorem units_all {k : Nat} {P : Nat → Prop} (h : ∀ n ∈ List.range' 1 k, P n) (n : Nat) (hn : unitOk k n = true) : P n :=
  h n (by simp only [unitOk, Bool.and_eq_true, decide_eq_true_eq] at hn; simp only [List.mem_range'_1]; omega)

theorem settings_ok {c : Settings} (l : c.levels = defaultSettings.levels)
    (d : ∀ n ∈ List.range' 1 4, (rd c.dials n defaultDial).step = 30 ∨ (rd c.dials n defaultDial).step = 60)
    (sc : c.scenes = defaultSettings.scenes) (p : c.site = defaultSettings.site) : SettingsOk c where
  levels := by rw [l]; decide
  steps := units_all d
  scenes := by
    rw [sc]
    intro k hk
    rw [units_all (k := 32) (P := fun k => rd defaultSettings.scenes k darkScene = darkScene) (by decide +kernel) k hk]
    exact darkScene_ok
  panel := by rw [p]; decide

/-- With no image anywhere, the working configuration is the only one held. -/
theorem held_ok {s : State} (h : s.heldSettings = [s.cfg]) (c : SettingsOk s.cfg)
    (d : ∀ n ∈ List.range' 1 4, (s.dial n).step = 30 ∨ (s.dial n).step = 60) : HeldOk s :=
  ⟨by rw [h]; simpa using c, units_all d⟩

/-- One place held; both, with 7 marks and with 8; none held while a RESTART is in progress; no main power (R190). An
ill-formed request, and one that RUN refuses (R191). -/
theorem test_witness_RequestsWaitOrAreChecked :
    let held := fun (k : Nat) => { r with line := { r.line with
      slots := [.waiting .refRead 0, .ready (.ok []) none] ++ List.replicate k .overrun } }
    isRequest .save = true ∧ canTake .save behind = false ∧ behind.line.slots.countP (· ≠ .overrun) = 1 ∧
    canTake .save (held 7) = false ∧ (held 7).line.slots.countP (· ≠ .overrun) = 2 ∧ (held 7).line.slots.count .overrun = 7 ∧
    canTake .save (held 8) = false ∧ (held 8).line.slots.count .overrun = 8 ∧
    canTake .save { r with line := { r.line with restart := .loading } } = false ∧
    canTake .save dark = false ∧ dark.power.phase ≠ .on ∧ canTake (.ring [1, 1] none none none) r = true ∧
    (Instr.ring [1, 1] none none none).wellFormed = false ∧ canTake (.lineRate 9600) running = true ∧
    isServiceOnly (.lineRate 9600) = true := by decide +kernel

/-- The line with one class pending with a count, or turned OFF. -/
def pendingLine (on : Bool) (k : Nat) : Line :=
  { r.line with mask := wr r.line.mask 10 on, latch := wr r.line.latch 10 (some { detail := [], count := k }) }
theorem test_witness_NoticesAreLatchedAndSent :
    rd (pendingLine false 1).mask (classIndex .dusk) false = false ∧ rd r.line.mask (classIndex .ref) false = true ∧
    rd r.line.latch (classIndex .ref) none = none ∧
    rd (pendingLine true 255).latch (classIndex .dusk) none = some { detail := [], count := 255 } ∧
    (pendingLine true 255).tx = none ∧ (pendingLine true 255).slots = [] ∧
    (∀ d, classIndex d < classIndex .dusk → rd (pendingLine true 255).latch (classIndex d) none = none) := by
  refine ⟨by decide +kernel, by decide +kernel, by decide +kernel, by decide +kernel, rfl, rfl, ?_⟩
  intro d; cases d <;> decide +kernel
theorem test_witness_ReadoutsAnswerAndChangeNothing : canTake (.bellRead 24) r = true ∧ readoutInRange r (.bellRead 24) = true ∧
    readoutInRange r (.bellRead 25) = false ∧ canTake (.perfRead (some 1)) r = true ∧
    readoutInRange r (.perfRead (some 1)) = false := by decide +kernel
theorem test_witness_TimeAndReferenceReadout : canTake .timeRead (reference .locked 999999) = true ∧
    (reference .locked 999999).tb.sub < 1000000 ∧ canTake .refRead running = true := by decide +kernel
theorem test_witness_DialReadout : unitOk 4 4 = true ∧ canTake (.dialRead 4) r = true := by decide +kernel
theorem test_witness_BellAndClaimReadout : unitOk 24 24 = true ∧ canTake (.bellRead 24) r = true ∧
    canTake (.claimRead 1) r = true ∧ (r.bell 1).claims = [] ∧ unitOk 24 25 = false ∧
    ((playing (rec1 (.toll tollOne) .running) .down).bell 1).claims ≠ [] := by decide +kernel
theorem test_witness_SwingAndStatusReadout : canTake (.swingRead 4) r = true ∧ unitOk 4 4 = true ∧ unitOk 4 5 = false ∧
    canTake .statusRead running = true := by decide +kernel

/-- A MARK whose line came at 3,000 ms and is taken at 5,000 ms, behind a RESTART's reply (R15, R190, R200). -/
def lastMark : Instr := .mark ⟨2199, 12, 31⟩ ⟨23, 59, 59, 0⟩ none
def markWaits : State :=
  { r with
    tb := { r.tb with runUs := 5000000 }
    line := { r.line with slots := [.ready (.ok []) none, .waiting lastMark 3000] } }

/-- 2025-04-20 10:00:00 is second 798,458,400 (R21: day 9,241). -/
theorem test_witness_TimeAndReferenceRequests :
    canTake (.timeSet ⟨2025, 4, 20⟩ ⟨10, 0, 0, 999⟩ none) (reference .locked 0) = true ∧
    convert (reference .locked 0) ⟨2025, 4, 20⟩ ⟨10, 0, 0, 999⟩ none = some 798_458_400 ∧
    canTake (.mark ⟨2199, 12, 31⟩ ⟨23, 59, 59, 0⟩ none) r = true ∧
    convert r ⟨2199, 12, 31⟩ ⟨23, 59, 59, 0⟩ none = some (spanSecs - 1) ∧ r.line.oldestWaiting = none ∧
    (canTake lastMark markWaits = true ∧ markWaits.line.slots = [.ready (.ok []) none] ++ .waiting lastMark 3000 :: []) ∧
    canTake .refOn (reference .off 0) = true ∧
    canTake .refOn r = true ∧ r.ref.state ≠ .off ∧ canTake .refOff r = true ∧ canTake .refOff (reference .off 0) = true := by
  decide +kernel
/-- With the reference as given. -/
def withRef (x : RefMon) : State := { r with ref := x }

theorem test_witness_SecondsAndTrim : edge.power.phase = .on ∧
    (withRef { r.ref with cnt := 64, sum := -64 }).power.phase = .on ∧
    64 ≤ (withRef { r.ref with cnt := 64, sum := -64 }).ref.cnt ∧ dark.power.phase ≠ .on ∧ 0 < r.tb.len ∧
    r.tb.tick ≤ r.tb.len ∧ r.tb.sub = 1000000 * r.tb.tick / r.tb.len ∧ runs .secondEnd r = true ∧
    Instr.secondEnd ≠ .startValues ∧
    ((reference .locked 0).ref.state = .locked ∧ (reference .locked 0).ref.pullIn = false) ∧
    (withRef { r.ref with state := .locked, pullIn := true }).ref.pullIn = true ∧ r.ref.state ≠ .locked := by decide +kernel

/-- A second of 1,000,006 ticks has a 1,000,006th and no 1,000,007th (R2). -/
theorem test_second_has_its_ticks : (elapse 1000006 { r with tb := { r.tb with len := 1000006 } }).isSome = true ∧
    elapse 1000007 { r with tb := { r.tb with len := 1000006 } } = none := by decide +kernel

/-- The example of R119. -/
theorem test_slotField : slotField { outcome := .withheld, masked := 0, repeated := true } = .quarter "WITHHELD" 0 true := rfl

/-- An entry's weekdays are read back as ENTRY WRITE takes them (R156, R170). -/
theorem test_entry_read_weekdays : weekdayField [.sat, .sun] = .words ["SAT", "SUN"] ∧
    weekdayField [.mon, .tue, .wed, .thu, .fri, .sat, .sun] = .word "ALL" := by decide

/-- No tick passes: an event from outside with wait 0 comes in the state itself. -/
theorem elapse_zero (s : State) : elapse 0 s = some s := rfl

/-- The reference in a state with a cadence instant at tick 1,000,000 and `k` valid marks, at a tick and a subsecond. -/
def cadenced (st : RefState) (osc us k : Nat) : State :=
  { r with
    tb := { r.tb with osc := osc, sub := us, tick := us, set := true }
    ref := { r.ref with state := st, cadence := some 1000000, window := List.replicate k true, lastValid := some 0 } }

/-- 30 valid marks lock, 29 do not (R10). -/
theorem locks_30 (st : RefState) (osc us : Nat) :
    Locks (cadenced st osc us 29) (windowWith (cadenced st osc us 29).ref.window true) :=
  have e : windowWith (cadenced st osc us 29).ref.window true = List.replicate 30 true := rfl
  e ▸ ⟨by decide, fun _ h => absurd (List.mem_of_getElem? h.1) (by decide), rfl⟩
theorem not_locks_29 (st : RefState) (osc us : Nat) :
    ¬Locks (cadenced st osc us 28) (windowWith (cadenced st osc us 28).ref.window true) :=
  have e : windowWith (cadenced st osc us 28).ref.window true = List.replicate 29 true := rfl
  e ▸ fun h => absurd h.1 (by decide)

/-- A pulse in OFF; a cadence start; one at the edge of the cadence's tolerance and one beyond it; LOCKED ones at both edges
of a boundary's span and beyond it (R9). -/
theorem test_witness_ReferencePulseIsJudged :
    ((reference .off 0).ref.mark = none ∧ (reference .off 0).ref.state = .off) ∧
    (r.ref.state = .acquiring ∧ r.ref.cadence = none ∧ r.power.phase = .on) ∧
    (OnCadence (cadenced .holdover 1002000 0 28) ∧ (cadenced .holdover 1002000 0 28).ref.state = .holdover) ∧
    (¬OnCadence (cadenced .acquiring 1002001 0 28) ∧ (cadenced .acquiring 1002001 0 28).ref.cadence ≠ none) ∧
    ¬Locks (cadenced .holdover 1002000 0 28) (windowWith (cadenced .holdover 1002000 0 28).ref.window true) ∧
    (OnBoundary (reference .locked 50000) ∧ OnBoundary (reference .locked 950000) ∧ ¬OnBoundary (reference .locked 50001)) := by
  refine ⟨⟨rfl, rfl⟩, ⟨rfl, rfl, rfl⟩, ⟨⟨1000000, rfl, by decide, by decide⟩, rfl⟩, ⟨?_, by decide⟩, not_locks_29 _ _ _
    , .inl ⟨by decide, rfl⟩, .inr ⟨by decide, rfl⟩, ?_⟩
  · rintro ⟨c, h, h1, h2⟩; cases h; exact absurd h2 (by decide)
  · rintro (⟨h, -⟩ | ⟨h, -⟩) <;> exact absurd h (by decide)

/-- A pending mark for a standard second, with a disagreement count. -/
def marked (m : Nat) (dis : Nat) (s : State) : State :=
  { s with ref := { s.ref with mark := some { secs := m, recv := 0 }, disagree := dis } }

/-- Marks while UNSET, in ACQUIRING, in LOCKED that agree and disagree, and in HOLDOVER at a cadence start; then lock entry
at a phase error of 100,000 µs and beyond it (R10, R12, R16). -/
theorem test_witness_MarksAreAppliedAndLockIsEntered :
    (Qualifies (marked (spanSecs - 1) 0 r) ∧ r.tb.set = false) ∧
    (Qualifies (marked 5 1 (cadenced .acquiring 998000 0 0)) ∧ (cadenced .acquiring 998000 0 0).tb.set = true) ∧
    (Qualifies (marked 1 2 (cadenced .locked 0 950000 30)) ∧ nearestNow (marked 1 2 (cadenced .locked 0 950000 30)) = 1 ∧
      nearestNow (marked 0 2 (cadenced .locked 0 950000 30)) ≠ 0 ∧ nearestNow (marked 0 2 (cadenced .locked 0 50000 30)) = 0) ∧
    (Qualifies (marked 7 0 { timed2025 with ref := { r.ref with state := .holdover } }) ∧
      nearestNow (marked 7 0 { timed2025 with ref := { r.ref with state := .holdover } }) ≠ 7) ∧
    (OnCadence (cadenced .acquiring 1000000 100000 29) ∧ offsetNow (cadenced .acquiring 1000000 100000 29) = 100000 ∧
      offsetNow (cadenced .holdover 1000000 899999 29) = -100001 ∧
      Locks (cadenced .holdover 1000000 899999 29) (windowWith (cadenced .holdover 1000000 899999 29).ref.window true)) := by
  refine ⟨⟨.inl ⟨.inl rfl, .inl rfl⟩, rfl⟩, ⟨.inl ⟨.inl rfl, .inr ⟨1000000, rfl, by decide, by decide⟩⟩, rfl⟩
    , ⟨.inr ⟨rfl, .inr ⟨by decide, rfl⟩⟩, by decide, by decide, by decide⟩, ⟨.inl ⟨.inr rfl, .inl rfl⟩, by decide⟩
    , ⟨1000000, rfl, by decide, by decide⟩, by decide, by decide, locks_30 _ _ _⟩

/-- LOCKED with a window. -/
def lockedWith (w : List Bool) : State :=
  { reference .locked 0 with ref := { r.ref with state := .locked, judged := false, window := w, lastValid := some 0 } }
/-- Whether the missing mark to come ends the lock. -/
def losing (w : List Bool) : Option Bool :=
  (elapse ((lockedWith w).tb.ticksFor (50001 - (lockedWith w).tb.sub)) (lockedWith w)).map fun u =>
    decide (8 ≤ ((windowWith u.ref.window false).reverse.takeWhile (· = false)).length ∨
      (windowWith u.ref.window false).count true < 24)
/-- At tick 1,000,000 with a cadence instant there, of which `k` before it were missed. -/
def missed (st : RefState) (k : Nat) : State :=
  { cadenced st 1000000 0 0 with ref := { (cadenced st 1000000 0 0).ref with cadMiss := k, boundary := false } }
/-- 24 valid marks stay and 23 do not; 8 missing in a row do not (R10). The second miss keeps the cadence and the third drops it
(R9). -/
theorem test_witness_MissingSecondAndMarkExpiry :
    (withRef { r.ref with boundary := true }).power.phase = .on ∧ (withRef { r.ref with boundary := true }).ref.state = .acquiring ∧
    (withRef { r.ref with boundary := true }).ref.boundary = true ∧
    (∀ st ∈ [RefState.acquiring, .holdover], ∀ k ∈ [1, 2], (missed st k).power.phase = .on ∧ (missed st k).ref.state = st ∧
      (missed st k).ref.boundary = false ∧ (missed st k).ref.cadence = some 1000000 ∧
      (elapse (1000000 + 2001 - (missed st k).tb.osc) (missed st k)).any (fun u => u.ref.cadMiss = k) = true) ∧
    (lockedWith []).ref.state = .locked ∧ (lockedWith []).ref.judged = false ∧
    losing (List.replicate 24 true) = some false ∧ losing (List.replicate 23 true) = some true ∧
    losing (List.replicate 24 true ++ List.replicate 6 false) = some false ∧
    losing (List.replicate 24 true ++ List.replicate 7 false) = some true ∧
    (reachUs (1000 * (0 + 1500)) { withRef { r.ref with mark := some { secs := 0, recv := 0 } } with
      tb := { r.tb with runUs := 1000000 } }).isSome = true := by decide +kernel
/-- The summer-time rule of the worked cases of 2.4. -/
def northRule : SummerRule :=
  { offset := 60, start := { month := 3, ordinal := .last, weekday := .sun, hour := 2 }
    stop := { month := 10, ordinal := .last, weekday := .sun, hour := 2 } }
/-- The southern rule of 2.4. -/
def southRule : SummerRule :=
  { offset := 60, start := { month := 10, ordinal := .nth 1, weekday := .sun, hour := 2 }
    stop := { month := 4, ordinal := .nth 1, weekday := .sun, hour := 3 } }
/-- The flag stays under a new rule or anchor, and changes: forward under the southern rule on 1 January, back where it was set; with
an empty table, and with a CLOCK record in ADMITTED (R24, R26, R117). -/
theorem test_witness_DatesSummerAndSun : dateValid ⟨2199, 12, 31⟩ = true ∧ dateValid ⟨2000, 2, 29⟩ = true ∧
    dateValid ⟨2100, 2, 29⟩ = false ∧ canTake (.summer r.cfg.summer) r = true ∧ r.line.mode = .service ∧
    summerOk r.cfg.summer = true ∧ canTake (.sun 24 0 1439) r = true ∧ unitOk 24 24 = true ∧
    summerOk southRule = true ∧ inForce r.cfg.summer r.tb.secs = r.tb.flag ∧ r.tb.flag = false ∧
    inForce southRule r.tb.secs = true ∧ (∀ l ∈ [[], [rec1 (.clock hourOne) .admitted]], (l.map (·.id)).Nodup ∧
      canTake (.summer southRule) { r with perfs := l } = true ∧
      canTake (.summer r.cfg.summer) { r with perfs := l, tb := { r.tb with flag := true } } = true) ∧
    (∀ q ∈ [1, 2, 3, 4], r.profile q = .none) ∧ (r.bellCfg r.cfg.clock.hourBell).fNormal ≤ 400 := by decide +kernel

/-- The three derived states meet at d = 1, 2 and P − h (R39); here P is 720 and h is 180. -/
theorem test_witness_DialTargetDifferenceAndState :
    ((withDial (derivedAt 719)).dial 1).pos = some 719 ∧ dialDiff (withDial (derivedAt 719)) 1 719 = 1 ∧
    dialDiff (withDial (derivedAt 718)) 1 718 = 2 ∧ dialDiff (withDial (derivedAt 180)) 1 180 = 540 ∧
    dialDiff (withDial (derivedAt 179)) 1 179 = 541 ∧
    positions ((withDial (derivedAt 0)).dialCfg 1) - holdWindow ((withDial (derivedAt 0)).dialCfg 1) = 540 := by
  decide +kernel
/-- The contact removed from a SEARCHING and from a FAULT dial, newly fitted to an UNKNOWN one, removed from a STOPPED one
(R35); and the other requests. -/
theorem test_witness_DialRequestsWriteTheRecord : canTake (.dialConfig 4 defaultDial) r = true ∧ dialOk defaultDial = true ∧
    (r.dial 4).pos = none ∧ (r.dial 4).stored = .unknown ∧ (r.dialCfg 4).noon = false ∧
    dialOk { defaultDial with noon := true } = true ∧
    (∀ x ∈ [DialStored.searching, .fault, .stopped],
      ((withDial { derivedAt 0 with pos := none, stored := x }).dial 1).stored = x ∧
      ((withDial { derivedAt 0 with pos := none, stored := x }).dial 1).pos = none ∧
      ((withDial { derivedAt 0 with pos := none, stored := x }).dialCfg 1).noon = true) ∧
    canTake (.dialSet 1 (some 719) none) r = true ∧ 719 < positions (r.dialCfg 1) ∧
    canTake (.dialStop 1) r = true ∧ canTake (.dialGo 1) r = true ∧ canTake (.dialSet 1 none none) r = true := by
  decide +kernel
/-- A DERIVED or SEARCHING dial at the fault limit of 722 impulses, and one before it (R43, R44). -/
def counted (st : DialStored) (k : Nat) : State := withDial { derivedAt 719 with stored := st, count := k }
/-- A dial in FAULT, with its position or without. -/
def faulted (p : Option Nat) : State := withDial { derivedAt 0 with pos := p, stored := .fault }
/-- The tolerance of 2 is met at 718 and passed at 717 (R42). -/
theorem test_witness_ImpulsesAndNoonClosures :
    ((impulseDue 1 (withDial (derivedAt 719))).bind fun d => reachUs d (withDial (derivedAt 719))).isSome = true ∧
    (reachUs (1000 * 500) (withDial { derivedAt 0 with isOpen := true, openEnd := 500 })).isSome = true ∧
    ((elapse 3 (withDial (derivedAt 718))).any fun u => (u.dialCfg 1).noon && (u.dial 1).armed &&
      min 718 (positions (u.dialCfg 1) - 718) ≤ (u.dialCfg 1).tolerance) = true ∧
    ((elapse 3 (withDial (derivedAt 717))).any fun u => (u.dial 1).stored = .derived &&
      (u.dialCfg 1).tolerance < min 717 (positions (u.dialCfg 1) - 717)) = true ∧
    ((elapse 3 (withDial { derivedAt 0 with pos := none, stored := .searching })).any fun u =>
      (u.dial 1).stored = .searching && (u.dial 1).armed) = true ∧
    (∀ st ∈ [DialStored.derived, .searching], ∀ k ∈ [721, 722], ((impulseDue 1 (counted st k)).bind fun d =>
      reachUs d (counted st k)).any (fun u => (u.dialCfg 1).noon && (u.dial 1).stored = st && (u.dial 1).count = k &&
        decide (positions (u.dialCfg 1) + (u.dialCfg 1).tolerance ≤ k) = decide (k = 722)) = true) ∧
    (∀ p ∈ [some 718, some 717, none], (elapse 3 (faulted p)).any (fun u => (u.dialCfg 1).noon && (u.dial 1).armed &&
      (u.dial 1).stored = .fault && (u.dial 1).pos = p) = true) := by decide +kernel
theorem test_witness_BellAndClockConfigurations : canTake (.bellConfig 24 { defaultBell 24 with drive := 4 }) r = true ∧
    nameOk 12 (defaultBell 24).name = true ∧ unitOk 24 24 = true ∧ canTake (.clockConfig defaultClock) r = true ∧
    clockOk defaultClock = true ∧ canTake (.clockLevels { swing := 3, toll := 0, clock := 3, tune := 0 }) r = true := by
  decide +kernel
theorem test_witness_BellSilentAndClear : canTake (.bellSilent 1 true) running = true ∧ canTake (.bellClear 1) r = true ∧
    ((withBell { startBell with state := .fault } .down).bell 1).state = .fault ∧ (r.bell 1).state ≠ .fault := by
  decide +kernel

/-- A stroke of performance 1 for bell 1. -/
def strokeOne : Stroke := { bell := 1, intensity := .normal, due := 0, idx := 0 }
/-- At 2 s of the run clock: voice 1 with its strokes, and bell 1 with a hammer or without, a recovery of 500 ms and a crowd
window of 50 ms. -/
def asking (l : List Stroke) (x : Bell) (d : SwingState) (hammer : Bool) : State :=
  { playing (rec1 .tune .admitted) d with
    tb := { r.tb with runUs := 2000000 }
    bells := wr r.bells 1 x
    cfg := { r.cfg with bells := wr r.cfg.bells 1 { defaultBell 1 with hammer := hammer, confirm := true, drive := 1 } }
    voices := wr r.voices 1 { freeVoice with perf := some 1, strokes := l } }
/-- Performance 1 tests bell 1. -/
def testOne : TestParams := { bell := 1, intensity := .normal, sent := false, outcome := .none }
/-- A held stroke of performance 1. -/
def heldOne : Held := { perf := 1, intensity := .soft, test := false, req := 1900, due := 2000 }

/-- The same with a toll or a test in the table. -/
def asks (k : PerfKind) (x : Bell) : State := { asking [] x .down true with perfs := [rec1 k .admitted] }

theorem asking_sends (x : Bell) (d : SwingState) (h : Bool) :
    StrokeSent (asking [strokeOne] x d h) (.strokeRelease 1) (asking [] x d h) 1 1 .normal false :=
  .voice (u := asking [strokeOne] x d h) (x := strokeOne) (l := []) rfl rfl rfl rfl rfl
theorem asking_holds (x : Bell) (d : SwingState) (h : Bool) (e : x.held = none) :
    HeldSent (asking [] { x with held := some heldOne } d h) 1 (asking [] x d h) heldOne := by
  have : asking [] x d h = { asking [] { x with held := some heldOne } d h with
      bells := wr (asking [] { x with held := some heldOne } d h).bells 1
        { (asking [] { x with held := some heldOne } d h).bell 1 with held := none } } := by
    obtain ⟨_, _, _, _, _, _, _, _, _, _⟩ := x
    cases e; rfl
  rw [this]
  exact .held rfl rfl rfl

/-- The checks let performance 1's stroke on, or the claim check masks it. -/
theorem allowed (x : Bell) (h : Bool) (e : x.claims = claimed.claims) : StrokeAllowed (asking [] x .down h) 1 1 :=
  ⟨⟨_, _, e, rfl⟩, units_all (P := fun k => (rd (Vector.replicate 4 { startDrive with state := .down }) k startDrive).state = .down)
    (by decide +kernel) _⟩

/-- A voice, a toll and a test send; a held stroke comes to its release; the recovery time of 500 ms has just passed. -/
theorem test_witness_StrokesAreDriven :
    (∃ w, StrokeSent (asking [strokeOne] { claimed with last := some 1500 } .down true) (.strokeRelease 1) w 1 1 .normal false ∧
      StrokeAllowed w 1 1 ∧ Uncrowded w 1 ∧ HammerDriven w 1 false) ∧
    (∃ w, StrokeSent (asks (.toll tollOne) claimed) (.tollStrokeRelease 1)
      w 1 1 .normal false ∧ StrokeAllowed w 1 1 ∧ Uncrowded w 1 ∧ HammerDriven w 1 false) ∧
    (∃ w, StrokeSent (asks (.test testOne) { claimed with state := .fault }) (.testStrokeRelease 1) w 1 1 .normal true ∧
      StrokeAllowed w 1 1 ∧ Uncrowded w 1 ∧ HammerDriven w 1 true) ∧
    (∃ w, HeldSent (asking [] { claimed with held := some heldOne } .down true) 1 w heldOne ∧ StrokeAllowed w 1 heldOne.perf ∧
      HammerDriven w 1 heldOne.test) :=
  ⟨⟨_, asking_sends _ _ _, allowed _ _ rfl, ⟨rfl, by intro r h; cases h; decide +kernel⟩, by decide +kernel, .inl rfl⟩
  , ⟨_, .toll (u := asks (.toll tollOne) claimed) (p := rec1 (.toll tollOne) .admitted) (k := tollOne) rfl rfl (if_pos (by decide +kernel)) rfl rfl
    , ⟨(allowed claimed true rfl).claim, (allowed claimed true rfl).swing⟩, ⟨rfl, (fun _ h => nomatch h)⟩, by decide +kernel, .inl rfl⟩
  , ⟨_, .test (u := asks (.test testOne) { claimed with state := .fault }) (p := rec1 (.test testOne) .admitted) (k := testOne)
      rfl rfl (if_pos (by decide +kernel)) rfl rfl
    , ⟨(allowed { claimed with state := .fault } true rfl).claim, (allowed { claimed with state := .fault } true rfl).swing⟩
    , ⟨rfl, (fun _ h => nomatch h)⟩, by decide +kernel, .inr ⟨rfl, rfl⟩⟩
  , ⟨_, asking_holds claimed .down true rfl, allowed _ _ rfl, by decide +kernel, .inl rfl⟩⟩

theorem test_witness_SwingingBellsAreLockedOut :
    (∃ w, StrokeSent (asking [strokeOne] claimed .lowering true) (.strokeRelease 1) w 1 1 .normal false ∧ Swinging w 1) ∧
    (∃ w, HeldSent (asking [] { claimed with held := some heldOne } .fault true) 1 w heldOne ∧ Swinging w 1) :=
  ⟨⟨_, asking_sends _ _ _, by decide +kernel, by decide +kernel⟩, ⟨_, asking_holds claimed .fault true rfl, by decide +kernel, by decide +kernel⟩⟩

/-- No claim on top; a stroke held; 51 ms and 50 ms short of the recovery (R58); SILENT; no hammer; FAULT. -/
theorem test_witness_StrokesAreJudged :
    (∃ w, StrokeSent (asking [strokeOne] startBell .down true) (.strokeRelease 1) w 1 1 .normal false ∧ ClaimMissing w 1 1) ∧
    (∃ w, StrokeSent (asking [strokeOne] { claimed with held := some heldOne } .down true) (.strokeRelease 1) w 1 1 .normal false ∧
      StrokeAllowed w 1 1 ∧ (w.bell 1).held ≠ none) ∧
    (∃ w, StrokeSent (asking [strokeOne] { claimed with last := some 1551 } .down true) (.strokeRelease 1) w 1 1 .normal false ∧
      StrokeAllowed w 1 1 ∧ (w.bell 1).held = none ∧ (w.bell 1).last = some 1551 ∧ w.now < 1551 + (w.bellCfg 1).recovery ∧
      (w.bellCfg 1).crowd < 1551 + (w.bellCfg 1).recovery - w.now ∧
      1550 + (w.bellCfg 1).recovery - w.now ≤ (w.bellCfg 1).crowd ∧ w.now < 1550 + (w.bellCfg 1).recovery) ∧
    (∃ w, StrokeSent (asking [strokeOne] { claimed with state := .silent } .down true) (.strokeRelease 1) w 1 1 .normal false ∧
      StrokeAllowed w 1 1 ∧ Uncrowded w 1 ∧ HammerSilent w 1) ∧
    (∃ w, StrokeSent (asking [strokeOne] { claimed with state := .fault } .down true) (.strokeRelease 1) w 1 1 .normal false ∧
      StrokeAllowed w 1 1 ∧ Uncrowded w 1 ∧ HammerMasked w 1 false) ∧
    (∃ w, HeldSent (asking [] { startBell with held := some heldOne } .down true) 1 w heldOne ∧ ClaimMissing w 1 1) ∧
    (∃ w, HeldSent (asking [] { claimed with state := .silent, held := some heldOne } .down true) 1 w heldOne ∧
      StrokeAllowed w 1 1 ∧ HammerSilent w 1) ∧
    (∃ w, HeldSent (asking [] { claimed with held := some heldOne } .down false) 1 w heldOne ∧
      StrokeAllowed w 1 1 ∧ HammerMasked w 1 false) :=
  ⟨⟨_, asking_sends _ _ _, fun _ _ h => nomatch h⟩
  , ⟨_, asking_sends _ _ _, allowed _ _ rfl, by decide +kernel⟩
  , ⟨_, asking_sends _ _ _, allowed _ _ rfl, rfl, rfl, by decide +kernel⟩
  , ⟨_, asking_sends _ _ _, allowed _ _ rfl, ⟨rfl, (fun _ h => nomatch h)⟩, by decide +kernel, rfl⟩
  , ⟨_, asking_sends _ _ _, allowed _ _ rfl, ⟨rfl, (fun _ h => nomatch h)⟩, .inr ⟨rfl, rfl⟩⟩
  , ⟨_, asking_holds startBell .down true rfl, fun _ _ h => nomatch h⟩
  , ⟨_, asking_holds { claimed with state := .silent } .down true rfl, allowed _ _ rfl, by decide +kernel, rfl⟩
  , ⟨_, asking_holds claimed .down false rfl, allowed _ _ rfl, .inl (by decide +kernel)⟩⟩

/-- Bell 1 with one confirm window that closes at 0, a pulse that ends at 20 ms, and a miss count. -/
def confirming (m : Nat) (st : BellState) (test : Bool) : State :=
  withBell { startBell with
    state := st, miss := m, pulse := some 20, windows := [{ perf := 1, opens := 0, closes := 0, test := test }] } .down
/-- Whether bell 1's window closes now in a state with a property. -/
def closing (s : State) (p : State → Bool) : Bool := ((windowDue 1 s).bind fun d => reachUs d s).any p

/-- One miss short of the limit of 3, at it, and in FAULT; a closure in a window that is a single instant, of an ordinary
stroke and of a test stroke on a bell in FAULT, and one outside it (R62, R63, R67). -/
theorem test_witness_PulsesAndConfirmWindows :
    let inside := fun (u : State) (k : Window) => decide (k.opens ≤ u.now) && decide (u.now ≤ k.closes)
    ((pulseDue 1 (confirming 0 .ready false)).bind fun d => reachUs d (confirming 0 .ready false)).isSome = true ∧
    (elapse 0 (confirming 0 .ready false)).any (fun u => (takeFirst (inside u) (u.bell 1).windows).isSome) = true ∧
    (elapse 2000 (confirming 0 .ready false)).any (fun u => (takeFirst (inside u) (u.bell 1).windows).isNone) = true ∧
    (elapse 0 (confirming 0 .fault true)).any (fun u => (u.bell 1).state = .fault &&
      (takeFirst (inside u) (u.bell 1).windows).any fun k => k.1.test) = true ∧
    closing (confirming 1 .ready false) (fun u => (u.bell 1).miss + 1 < (u.bellCfg 1).missLimit) = true ∧
    closing (confirming 2 .silent true) (fun u =>
      (u.bellCfg 1).missLimit ≤ (u.bell 1).miss + 1 && (u.bell 1).state ≠ .fault) = true ∧
    closing (confirming 3 .fault true) (fun u => (u.bell 1).state = .fault &&
      (takeFirst (fun y => y.closes ≤ u.now) (u.bell 1).windows).isSome) = true := by decide +kernel

/-- Slot 1 closed with a tune of one event for bell 1, and bell 1 with drive 1 DOWN. -/
def tuneSlot : DirEntry :=
  { emptyEntry with state := .closed, title := "T", tempo := 80, division := 2, bells := bellOne 1, events := 1, pages := 1, sectors := [0] }
/-- The tune's one event, at cumulative step 0. -/
def tuneOne : Event := { delta := 0, bells := bellOne 1, intensity := .normal, phrase := true }
/-- The tune on the array and in the directory. -/
def withTune (s : State) : State :=
  { s with store := { s.store with
      slots := wr s.store.slots 1 tuneSlot
      sectors := wr s.store.sectors 1 (wr blankSector 1 (some (padPage [tuneOne]))) } }

theorem test_witness_CreationsAreAdmittedAtOnce :
    let s := withTune (withBell startBell .down)
    canTake (.play 1 none none none) s = true ∧ (s.slot 1).state = .closed ∧ s.perfs.length < 12 ∧
    claimsOpen s s.cfg.levels.tune (s.slot 1).bells = true ∧ firstFree s = some 1 ∧
    canTake (.toll 1 10 999 .normal none (some 32)) s = true ∧ sceneOk (some 32) = true ∧
    claimsOpen s s.cfg.levels.toll (bellOne 1) = true ∧ canTake (.ring [1] none none none) s = true ∧
    driveUsable s 1 = true ∧ (s.drive 1).state = .down ∧ claimsOpen s s.cfg.levels.swing (swungBells s [1]) = true ∧
    canTake (.bellTest 1 .soft) s = true ∧ (s.bellCfg 1).hammer = true ∧
    (s.bell 1).claims.all (fun c => decide (0 < c.level)) = true := by decide +kernel

/-- Twelve records, a claim above the toll's level, and no free voice (R79). -/
theorem test_witness_CreationsThatAreNotAdmitted :
    12 ≤ ({ full with line := r.line } : State).perfs.length ∧
    canTake (.toll 24 10 0 .soft (some 600) none) { full with line := r.line } = true ∧
    claimsOpen (playing (rec1 (.toll tollOne) .running) .down) 1 (bellOne 1) = false ∧
    canTake (.toll 1 10 0 .soft none none) (playing (rec1 (.toll tollOne) .running) .down) = true ∧
    firstFree { r with voices := Vector.replicate 4 { freeVoice with perf := some 1 } } = none := by decide +kernel
/-- A SWING on drive 1 whose start has come. -/
def swingOne : SwingParams := { drives := [{ drive := 1, started := false, done := false }], stagger := 0, duration := 120 }

/-- A SWING that has started drive 1 and not yet drive 2. -/
def swingTwo : SwingParams :=
  { drives := [{ drive := 1, started := true, done := false }, { drive := 2, started := false, done := false }]
    stagger := 20, duration := 0 }
theorem swingTwo_ok : SwingOk swingTwo := by unfold SwingOk; decide
/-- It runs, with its drives in a state. -/
def swingsIn (d : SwingState) : State :=
  { playing (rec1 (.swing swingTwo) .running) d with
    drives := Vector.replicate 4 { startDrive with state := d, perf := some 1 } }
/-- A tune of one event, which carries the phrase-end mark and sounds at 200 ms, plays. -/
def phrase : Perf := { rec1 .tune .running with slot := some 1, tempo := some 80, division := some 2 }
def phrased : State := withTune (playing phrase .down)
theorem stops_phrased : Stops phrased phrase (phrased.voice 1) 0 :=
  ⟨{ sound := 200, bells := bellOne 1, intensity := .normal, phrase := true, page := some 0, cum := 0 }
  , by decide +kernel, rfl, by decide +kernel⟩

/-- Waiting, running, stopping, with a driven pulse and without, cut, and a SWING with a drive that swings. -/
theorem test_witness_StopFinishAndCut : unitOk 255 1 = true ∧
    SwingOk swingTwo ∧ swingTwo.swinging (swingsIn .ringing) 1 = [1] ∧
    (swingsIn .lowering).perf 1 = some (rec1 (.swing swingTwo) .running) ∧
    canTake (.stopFinish 1) (swingsIn .ringing) = true ∧ canTake (.stopCut 1) (swingsIn .lowering) = true ∧
    Stops phrased phrase (phrased.voice 1) 0 ∧ canTake (.stopFinish 1) phrased = true ∧ phrased.perf 1 = some phrase ∧
    phrase.voice = some 1 ∧
    (playing (rec1 .tune .waiting) .down).perf 1 = some (rec1 .tune .waiting) ∧
    canTake (.stopFinish 1) (playing (rec1 .tune .waiting) .down) = true ∧
    canTake (.stopCut 1) (playing (rec1 .tune .waiting) .down) = true ∧
    (playing (rec1 (.swing swingOne) .running) .down).perf 1 = some (rec1 (.swing swingOne) .running) ∧
    (rec1 (.swing swingOne) .running).stop ≠ .cut ∧ (rec1 (.toll tollOne) .stopping).state = .stopping ∧
    (rec1 (.toll tollOne) .running).drivenEnd ≤ (playing (rec1 (.toll tollOne) .running) .down).now ∧
    (playing (rec1 .tune .running) .down).now < ({ rec1 .tune .running with drivenEnd := 1 } : Perf).drivenEnd ∧
    canTake (.stopCut 1) (playing { rec1 .tune .stopping with stop := .cut } .down) = true :=
  ⟨rfl, swingTwo_ok, by decide +kernel, by decide +kernel, by decide +kernel, by decide +kernel, stops_phrased, by decide +kernel⟩

/-- The tune of slot 1 plays on voice 1, with or without its page. -/
def voiced (b : Buffer) : State :=
  { withTune (playing { rec1 .tune .admitted with slot := some 1, tempo := some 80, division := some 2 } .down) with
    voices := wr r.voices 1 { freeVoice with perf := some 1, current := b } }

theorem test_witness_EventsAreTakenUp :
    ((takeUpDue 1 (voiced (.loaded 0 (padPage [tuneOne])))).bind fun d =>
      reachUs d (voiced (.loaded 0 (padPage [tuneOne])))).any (fun u => (voicePerf u 1).any fun p =>
        (nextEvent u p (u.voice 1)).any fun e => (u.voice 1).hasPage e.page) = true ∧
    ((takeUpDue 1 (voiced (.reading 0 1))).bind fun d => reachUs d (voiced (.reading 0 1))).any (fun u =>
      (voicePerf u 1).any fun p => (nextEvent u p (u.voice 1)).any fun e => !(u.voice 1).hasPage e.page) = true := by
  decide +kernel

/-- A waiting record at its limit, a cut record whose pulse has ended, and a toll whose strokes are all sent. -/
theorem test_witness_PerformancesLeaveTheTable :
    ((expiryDue 1 (playing { rec1 .tune .waiting with wait := 0 } .down)).bind fun d =>
      reachUs d (playing { rec1 .tune .waiting with wait := 0 } .down)).any (fun u => (u.perf 1).isSome) = true ∧
    ((cutDue 1 (playing { rec1 .tune .stopping with stop := .cut } .down)).bind fun d =>
      reachUs d (playing { rec1 .tune .stopping with stop := .cut } .down)).any (fun u => (u.perf 1).isSome) = true ∧
    ((endDue 1 (playing (rec1 (.toll { tollOne with sent := 2 }) .running) .down)).bind fun d =>
      reachUs d (playing (rec1 (.toll { tollOne with sent := 2 }) .running) .down)).isSome = true := by decide +kernel

/-- A toll that is complete, its claim still on bell 1, a scene contribution of it, and a waiting record 2. -/
def ended : State := playing (rec1 (.toll { tollOne with sent := 2 }) .running) .down
def lit : State :=
  { ended with lights := { r.lights with contribs := [{ perf := 1, level := 1, order := 1, scene := { darkScene with fade := 50 } }] } }
def waiter : Perf := { rec1 .tune .waiting with id := 2, voice := none, anchor := none }
def queued : State := { ended with perfs := ended.perfs ++ [waiter] }

/-- The waiting record does not fit under a claim of its own level, and fits when the claim is gone. -/
theorem test_witness_WaitingPerformancesAreOffered :
    ((endDue 1 queued).bind fun d => reachUs d queued).any (fun u => (u.perf 1).isSome && (u.perf 2).isSome) = true ∧
    queued.perf waiter.id = some waiter ∧ ¬Fits queued waiter ∧
    ({ queued with bells := r.bells } : State).perf waiter.id = some waiter ∧ Fits { queued with bells := r.bells } waiter :=
  ⟨by decide +kernel, by decide +kernel, fun h => absurd h.1 (by decide +kernel), by decide +kernel
  , by decide +kernel, fun _ => by decide +kernel, fun _ h => nomatch h⟩
/-- In RUN with the time set, six seconds before 01:00, with clock settings, the hour bell in a state, and a profile of the
fourth quarter. -/
def beforeHour (c : ClockCfg) (b : BellState) (p : Profile) : State :=
  { running with
    tb := { r.tb with secs := 3594, set := true }
    bells := wr r.bells 24 { startBell with state := b }
    cfg := { r.cfg with clock := c }
    clock := { r.clock with frontier := 4, profiles := wr r.clock.profiles 4 p } }

/-- A claim of the clock's level on bell 1, by the chime of an hour, and none on the hour bell; the clock has a scene. -/
def chimed : State :=
  let s := withTune (beforeHour { defaultClock with q4 := 1, carry := true, scene := some 3 } .ready (.ready 1 100 0))
  { s with bells := wr s.bells 1 { startBell with claims := [{ perf := 9, level := r.cfg.levels.clock, order := 1 }] } }
theorem chimed_passes : QuarterPasses chimed 4 :=
  { ahead := by decide +kernel, set := rfl, run := rfl, step := .inl rfl
    heard := by
      rintro (x | ⟨e, x, -⟩ | ⟨-, x | x⟩)
      · cases x
      · cases x
      · cases x
      · exact x rfl }
theorem chimed_perf : QuarterPerf chimed 4 (.fullHour 1 100 0) 24 (clockPerf chimed 4 (.fullHour 1 100 0) 24) where
  common := by decide +kernel
  chime := by rintro n d e (h | h) <;> cases h; decide +kernel
  quarter := fun _ _ _ h => nomatch h
  fullHour := by intro n d e h; cases h; exact ⟨by decide +kernel, by decide +kernel, _, rfl, by decide +kernel⟩
  hourOnly := fun h => nomatch h

theorem test_witness_ScenesJoinAndLeave :
    (QuarterPasses chimed 4 ∧ (StrikesHours (shapeOf chimed 4) ∧ StrikesOn chimed 24) ∧
      QuarterPerf chimed 4 (.fullHour 1 100 0) 24 (clockPerf chimed 4 (.fullHour 1 100 0) 24)) ∧
    let tune := withTune (withBell startBell .down)
    (canTake (.play 1 none none none) tune = true ∧ canTake (.play 1 none none (some 4)) tune = true ∧ (tune.slot 1).state = .closed ∧
      claimsOpen tune tune.cfg.levels.tune (tune.slot 1).bells = true ∧ firstFree tune ≠ none ∧ tune.perfs.length < 12) ∧
    (createPerf (tollPerf r 1 10 0 .normal 0 (some 3) .panel) r).2 = .admitted 1 ∧
    (createPerf (tollPerf full 1 10 0 .normal 0 (some 3) .panel) full).2 = .full ∧
    (({ queued with bells := r.bells } : State).perf waiter.id = some waiter) ∧
    (chimed.perfs.length < 12 ∧ firstFree chimed ≠ none ∧ shapeOf chimed 4 = .fullHour 1 100 0 ∧
      claimsOpen chimed chimed.cfg.levels.clock ((chimed.slot 1).bells ||| bellOne 24) = false ∧ chimed.cfg.clock.carry = true ∧
      claimsOpen chimed chimed.cfg.levels.clock (bellOne 24) = true) ∧
    canTake (.toll 1 10 999 .normal none (some 32)) r = true ∧ canTake (.toll 1 10 999 .normal none none) r = true ∧
    r.perfs.length < 12 ∧ claimsOpen r r.cfg.levels.toll (bellOne 1) = true ∧ firstFree r ≠ none ∧
    ((endDue 1 lit).bind fun d => reachUs d lit).any (fun u => u.perfs.all (fun q => q.state ≠ .waiting) &&
      (u.lights.contribs.find? fun y => y.perf = 1).isSome) = true ∧
    ((endDue 1 ended).bind fun d => reachUs d ended).any (fun u => u.lights.contribs.all fun x => x.perf ≠ 1) = true :=
  ⟨⟨chimed_passes, ⟨.inr ⟨1, 100, 0, by decide +kernel⟩, .inl (by decide +kernel)⟩, chimed_perf⟩, by decide +kernel⟩

/-- Five seconds before 00:15 the quarter is evaluated, in SERVICE with the time set (R109, R111). -/
def beforeQuarter : State := { r with tb := { r.tb with secs := 894, set := true } }

theorem profilesOk_of {s : State} (h : (s.bellCfg s.cfg.clock.hourBell).fNormal ≤ 400)
    (p : ∀ q ∈ List.range' 1 4, s.profile q = .none ∨ s.profile q = .ready 0 838000 (-100)) : ProfilesOk s :=
  ⟨h, fun q n d e hq hp => by
    rcases units_all p q hq with x | x <;> rw [x] at hp <;> cases hp
    decide⟩

/-- The chime and the gap make just 840,000 ms, and one ms more (R106); HOUR ONLY at 01:00 and no quarter at 00:45 in
HOURS_ONLY (R108). -/
theorem test_witness_QuarterShapesAndReleases :
    ProfilesOk (beforeHour { defaultClock with q4 := 1 } .ready (.ready 0 838000 (-100))) ∧
    shapeOf (beforeHour { defaultClock with q4 := 1 } .ready (.ready 0 838000 (-100))) 4 = .fullHour 1 838000 (-100) ∧
    shapeOf (beforeHour { defaultClock with q4 := 1 } .ready (.ready 0 838001 (-100))) 4 = .noneMissing ∧
    shapeOf (beforeHour { defaultClock with mode := .hoursOnly } .ready .none) 4 = .hourOnly ∧
    shapeOf (beforeHour { defaultClock with mode := .hoursOnly } .ready .none) 3 = .noneByMode ∧
    hourCount 0 = 12 ∧ hourCount 48 = 12 ∧ hourCount 52 = 1 :=
  ⟨profilesOk_of (by decide +kernel) (by decide +kernel), by decide +kernel⟩

/-- Nothing silences 01:00 but the night silence where it covers that minute. -/
theorem not_silenced (c : ClockCfg) (b : BellState) (p : Profile) (h : c.scope ≠ .all) :
    ¬QuarterSilenced (beforeHour c b p) 4 := by
  rintro (x | ⟨e, x, -⟩ | ⟨-, x | x⟩)
  · cases x
  · cases x
  · exact h x
  · exact x rfl

/-- In SERVICE; UNSET; then in RUN the hour before and after its release (R111): silenced by the panel, withheld, missing, the
hour bell in FAULT with no stand-in. -/
theorem test_witness_QuarterEvaluationAdvances :
    ((quarterDue beforeQuarter).bind fun d => reachUs d beforeQuarter).any (fun u => u.line.mode = .service && u.tb.set &&
      (u.localMs : Int) < earliestRelease u u.clock.frontier && u.clock.today.date = some (u.clock.frontier / 96)) = true ∧
    earliestRelease { beforeHour defaultClock .ready .none with tb := { r.tb with secs := 3600, set := true } } 4 ≤ 3600000 ∧
    ((beforeHour defaultClock .ready .none).localMs : Int) < earliestRelease (beforeHour defaultClock .ready .none) 4 ∧
    QuarterSilenced { beforeHour defaultClock .ready .none with sched := { r.sched with panelSilence := true } } 4 ∧
    (¬QuarterSilenced (beforeHour { defaultClock with master := 1 } .ready .none) 4 ∧
      ¬InStep (beforeHour { defaultClock with master := 1 } .ready .none)) ∧
    (InStep (beforeHour { defaultClock with q4 := 1 } .ready .none) ∧
      shapeOf (beforeHour { defaultClock with q4 := 1 } .ready .none) 4 = .noneMissing) ∧
    (StrikesHours (shapeOf (beforeHour defaultClock .fault .none) 4) ∧
      ∀ b, ¬StrikesOn (beforeHour defaultClock .fault .none) b) ∧
    ProfilesOk (beforeHour defaultClock .ready .none) ∧ frontierReached (beforeHour defaultClock .ready .none) = false :=
  ⟨by decide +kernel, by decide +kernel, by decide +kernel, .inl rfl
  , ⟨not_silenced _ _ _ (by decide), by unfold InStep; decide +kernel⟩, ⟨.inl rfl, by decide +kernel⟩
  , ⟨.inl (by decide +kernel), by
      rintro b (⟨x, -⟩ | ⟨-, x, -⟩)
      · exact x (by decide +kernel)
      · exact absurd x (by decide)⟩
  , profilesOk_of (by decide +kernel) (by decide +kernel), by decide +kernel⟩

theorem passes (c : ClockCfg) (b : BellState) (p : Profile) (h : c.scope ≠ .all) (m : c.master = 0)
    (a : ((beforeHour c b p).localMs : Int) < earliestRelease (beforeHour c b p) 4) : QuarterPasses (beforeHour c b p) 4 :=
  { ahead := a, set := rfl, run := rfl, heard := not_silenced c b p h, step := .inl m }

/-- With carry: an hour that may sound, on the hour bell and on a stand-in; twelve records; no free voice (R112, R113). -/
theorem test_witness_QuartersSoundYieldAndCarry :
    let s := beforeHour { defaultClock with carry := true } .ready .none
    QuarterPasses s 4 ∧ shapeOf s 4 = .hourOnly ∧ StrikesHours (shapeOf s 4) ∧ StrikesOn s 24 ∧
    StrikesOn (beforeHour { defaultClock with standIn := 1 } .fault .none) 1 ∧
    QuarterPasses (beforeHour { defaultClock with q4 := 1 } .ready (.ready 0 838000 (-100))) 4 ∧
    s.perfs.length < 12 ∧ firstFree s = some 1 ∧ claimsOpen s s.cfg.levels.clock (bellOne 24) = true ∧
    firstFree { s with voices := Vector.replicate 4 { freeVoice with perf := some 1 } } = none ∧
    12 ≤ ({ s with perfs := full.perfs } : State).perfs.length :=
  ⟨passes _ _ _ (by decide) rfl (by decide +kernel), by decide +kernel, .inl (by decide +kernel), .inl (by decide +kernel)
  , .inr (by decide +kernel), passes _ _ _ (by decide) rfl (by decide +kernel), by decide +kernel⟩

/-- A CLOCK record of slot 95 of day 0. -/
def clockRec (st : PerfState) : Perf := rec1 (.clock hourOne) st
/-- Half a second after an hour, with the time set. -/
def halfPast (h : Nat) : State := { r with tb := { r.tb with secs := 3600 * h, sub := 500000, set := true } }

/-- The last second of day 0; a small step back and on, the smallest large ones, a CLOCK record in ADMITTED and in WAITING; the
first setting (R116 to R118). -/
theorem test_witness_DaySheetsMeetTheTime :
    (inForce r.cfg.summer 86400 = r.tb.flag ∧
      (86400 + ({ r with tb := { r.tb with secs := 86399 } } : State).offset) % (73049 * 86400) % 86400 = 0) ∧
    (∀ ms ∈ [0, 999], canTake (.timeSet ⟨2000, 1, 1⟩ ⟨1, 0, 0, ms⟩ none) (halfPast 1) = true ∧
      convert (halfPast 1) ⟨2000, 1, 1⟩ ⟨1, 0, 0, ms⟩ none = some 3600) ∧
    convert (halfPast 1) ⟨2000, 1, 1⟩ ⟨1, 0, 1, 500⟩ none = some 3601 ∧
    convert (halfPast 1) ⟨2000, 1, 1⟩ ⟨0, 59, 59, 500⟩ none = some 3599 ∧ (halfPast 1).stdUs = 3600500000 ∧
    inForce r.cfg.summer 3600 = false ∧ ProfilesOk (halfPast 1) ∧
    (∀ l ∈ [[], [clockRec .admitted], [clockRec .waiting], [clockRec .admitted, waiter, { clockRec .waiting with id := 3 }]],
      (l.map (·.id)).Nodup ∧
        canTake (.timeSet ⟨2025, 4, 20⟩ ⟨10, 0, 0, 0⟩ none) { halfPast 1 with perfs := l } = true) ∧
    (r.clock.today.date = some 0 ∧ r.tb.set = false ∧ canTake (.timeSet ⟨2025, 4, 20⟩ ⟨10, 0, 0, 999⟩ none) r = true ∧
      convert r ⟨2025, 4, 20⟩ ⟨10, 0, 0, 999⟩ none = some 798_458_400) :=
  ⟨by decide +kernel, by decide +kernel, by decide +kernel, by decide +kernel, by decide +kernel, by decide +kernel
  , profilesOk_of (by decide +kernel) (by decide +kernel), by decide +kernel, by decide +kernel⟩

/-- Drive 1 in the given state. -/
def withDrive (d : Drive) : State := { r with drives := wr r.drives 1 d }

theorem test_witness_SwingPulses :
    (elapse 7 (withDrive { startDrive with state := .ringing, flag := true })).any (fun u => (u.drive 1).state = .ringing) = true ∧
    (elapse 7 (withDrive { startDrive with state := .down, lastBottom := some 0 })).any (fun u => (u.drive 1).state = .down) = true ∧
    (elapse 7 (withDrive { startDrive with state := .raising, seen := true, flag := true, run := 3 })).any (fun u =>
      (u.drive 1).seen && (u.drive 1).flag && (u.drive 1).run = 3) = true ∧
    (elapse 7 (withDrive { startDrive with state := .fault })).any (fun u => (u.drive 1).state = .fault) = true ∧
    (∀ x ∈ [(SwingState.raising, false, false, 0), (.raising, true, false, 3), (.raising, true, true, 2), (.ringing, true, false, 4),
        (.lowering, true, true, 3), (.lowering, true, false, 2), (.lowering, false, false, 3), (.settling, true, false, 0)],
      let d := { startDrive with state := x.1, seen := x.2.1, flag := x.2.2.1, run := x.2.2.2, brake := true }
      (elapse 7 (withDrive d)).any (fun u => u.power.phase = .on && u.drive 1 = d) = true) := by
  decide +kernel
/-- At 299.5 s of the run clock. -/
def late (d : Drive) : State := { withDrive d with tb := { r.tb with runUs := 299500000 } }

/-- The start, the timers, the three faults, and the two sides of the settle time of 60 s for SWING CLEAR (R128, R131,
R133). -/
theorem test_witness_SwingStartsTimersAndFaults :
    ((startDue 1 (playing { rec1 (.swing swingOne) .admitted with anchor := some 0 } .down)).bind fun d =>
      reachUs d (playing { rec1 (.swing swingOne) .admitted with anchor := some 0 } .down)).any (fun u =>
        (u.perf 1).isSome && (u.drive 1).state = .down) = true ∧
    (∀ d ∈ [SwingState.settling, .fault, .raising, .ringing, .lowering],
      let s := playing { rec1 (.swing swingOne) .admitted with anchor := some 0 } d
      ((startDue 1 s).bind fun t => reachUs t s).any (fun u => (u.perf 1).isSome && (u.drive 1).state = d) = true) ∧
    swingOne.coming.head? = some ({ drive := 1, started := false, done := false }, 0) ∧
    ((kickDue 1 (withDrive { startDrive with motor := some 500 })).bind fun d =>
      reachUs d (withDrive { startDrive with motor := some 500 })).isSome = true ∧
    ((brakeDue 1 (withDrive { startDrive with brakeOut := some 1000 })).bind fun d =>
      reachUs d (withDrive { startDrive with brakeOut := some 1000 })).isSome = true ∧
    ((lowerDue 1 (withDrive { startDrive with state := .raising, lowerAt := some 0 })).bind fun d =>
      reachUs d (withDrive { startDrive with state := .raising, lowerAt := some 0 })).isSome = true ∧
    ((settleDue 1 { r with tb := { r.tb with runUs := 59500000 } }).bind fun d =>
      reachUs d { r with tb := { r.tb with runUs := 59500000 } }).isSome = true ∧
    ((noStartDue 1 (late { startDrive with state := .raising, entry := 295000 })).bind fun d =>
      reachUs d (late { startDrive with state := .raising, entry := 295000 })).isSome = true ∧
    ((raiseDue 1 (late { startDrive with state := .raising })).bind fun d =>
      reachUs d (late { startDrive with state := .raising })).isSome = true ∧
    ((noBottomDue 1 (late { startDrive with state := .ringing, lastBottom := some 294000 })).bind fun d =>
      reachUs d (late { startDrive with state := .ringing, lastBottom := some 294000 })).isSome = true ∧
    canTake (.swingClear 1) (late { startDrive with state := .fault, lastBottom := some 239500 }) = true ∧
    239500 + 1000 * ((late startDrive).driveCfg 1).settle ≤ (late startDrive).now ∧
    ¬ 239501 + 1000 * ((late startDrive).driveCfg 1).settle ≤ (late startDrive).now := by decide +kernel
theorem test_witness_SettingsAndScenesAreWritten : canTake (.panelToll { defaultPanelToll with scene := some 32 }) r = true ∧
    sceneOk (some 32) = true ∧ sceneOk (some 33) = false ∧ canTake (.swingConfig 4 { defaultSwing with bell := 24 }) r = true ∧
    (r.drive 4).state ≠ .down ∧ ((withDrive { startDrive with state := .down }).drive 1).state = .down ∧
    canTake (.lightConfig 16 { defaultLight 16 with nominal := 255 }) r = true ∧ nameOk 12 (defaultLight 16).name = true ∧
    canTake (.lineRate 38400) r = true ∧
    canTake (.sceneWrite 32 6000 [(16, 4095)]) r = true ∧ (Instr.sceneWrite 32 6000 [(16, 4095)]).wellFormed = true ∧
    [(16, 4095)].all (fun p => unitOk 16 p.1) = true ∧
    canTake (.lightSite { defaultSite with fallback := 32, threshold := 255, hysteresis := 64 }) r = true ∧
    r.tb.set = false ∧ timed2025.tb.set = true := by decide +kernel

/-- Slot 1 is being loaded: the next part is the given one. -/
def loadingAt (k part : Nat) (received : Nat) : State :=
  { r with store := { r.store with
      slots := wr r.store.slots 1 { tuneSlot with state := .writing, events := 0, sectors := if k = 0 ∧ part = 1 then [] else [0] }
      load := some { slot := 1, page := k, part := part, received := received, bells := 0#24, openPage := [], ended := false } } }

/-- One event has come, and the page has its events yet to be programmed. -/
def beginning (es : List Event) : State :=
  { loadingAt 0 2 1 with store := { (loadingAt 0 2 1).store with
      load := some { slot := 1, page := 0, part := 2, received := 1, bells := 1#24, openPage := es, ended := true } } }

theorem test_witness_TuneLoading :
    canTake (.slotOpen 64 240 2 none "T") r = true ∧ nameOk 24 "T" = true ∧ divisionOk 2 = true ∧
    (r.slot 64).state = .empty ∧ r.store.load = none ∧ hasRoom 1 r = true ∧
    canTake (.page 1 0 1 [0#36]) (loadingAt 0 1 0) = true ∧ (Instr.page 1 0 1 [0#36]).wellFormed = true ∧
    newSector 0 1 = true ∧ ((loadingAt 0 1 0).slot 1).sectors.length < 4 ∧ (loadingAt 0 1 0).store.free ≠ [] ∧
    newSector 15 4 = false ∧ hasRoom 1 (loadingAt 15 4 504) = true ∧
    canTake (.slotClose 1 2048) (loadingAt 64 1 2048) = true ∧ hasRoom 1 (loadingAt 64 1 2048) = true ∧
    ((loadingAt 15 4 504).slot 1).sectors[15 / 16]? = some 0 ∧ newSector 15 3 = false ∧ (loadingAt 15 3 496).store.resume = [] ∧
    canTake (.page 1 15 3 [0#36]) (loadingAt 15 3 496) = true ∧
    (∀ es ∈ [[], [tuneOne]], (beginning es).store.load.any (fun l => l.openPage = es && l.received = 1) = true ∧
      canTake (.slotClose 1 1) (beginning es) = true ∧ hasRoom (if es = [] then 1 else 2) (beginning es) = true ∧
      ((beginning es).slot 1).sectors[0 / 16]? = some 0) := by decide +kernel
/-- The operation queue as given. -/
def queueing (l : List QueueOp) (s : State) : State := { s with store := { s.store with queue := l } }

/-- Slots that a record names, EMPTY, ERASING, CLOSED, INCOMPLETE, WRITING with and without the loading record, each with
room for its entries and without (R149); SAVE with one entry queued and with two (R199). -/
theorem test_witness_SlotEraseAndSave :
    let slot := fun (x : SlotState) => setSlot 1 { tuneSlot with state := x } r
    let full := List.replicate 6 (QueueOp.dirWrite 2 .plain)
    slotUsers (voiced .empty) 1 ≠ 0 ∧ canTake (.slotErase 1) (voiced .empty) = true ∧ slotUsers r 1 = 0 ∧
    canTake (.slotErase 1) (slot .closed) = true ∧ (r.slot 1).state = .empty ∧ ((slot .erasing).slot 1).state = .erasing ∧
    ((slot .closed).slot 1).state = .closed ∧ (slot .closed).store.resume = [] ∧ (slot .closed).store.queue = [] ∧
    ((slot .incomplete).slot 1).sectors = [0] ∧ ¬(queueing full (slot .closed)).store.queue.length + 3 ≤ 8 ∧
    ((slot .writing).slot 1).state = .writing ∧ (slot .writing).store.load = none ∧
    (loadingAt 0 1 0).store.load.any (fun l => l.slot = 1) = true ∧ ((loadingAt 0 1 0).slot 1).state = .writing ∧
    ((queueing (List.replicate 8 (.dirWrite 2 .plain)) (loadingAt 0 1 0)).store.queue.filter fun q => match q with
      | .program k _ _ _ => k ≠ 1
      | .dirWrite k _ => k ≠ 1
      | _ => true).length = 8 ∧
    canTake .save r = true ∧ (queueing [.dirWrite 1 .plain] r).store.queue.length ≤ 1 ∧
    1 < (queueing [.dirWrite 1 .plain, .dirWrite 2 .plain] r).store.queue.length ∧
    quarterSlot { defaultClock with q4 := 1 } 4 = 1 := by decide +kernel

/-- The store with one operation that ends at 1 ms. -/
def operating (op : Running) (s : State) : State := { s with store := { s.store with op := some (op, 1) } }
/-- A page read for voice 1. -/
def readOne : ReadReq := { reader := .voice 1, serial := 1, slot := 1, page := 0 }

theorem test_witness_StoreOperationsEnd :
    ((opDue isRead (operating (.read readOne [] none) (voiced (.reading 0 1)))).bind fun d =>
      reachUs d (operating (.read readOne [] none) (voiced (.reading 0 1)))).any (fun u =>
        (u.voice 1).stall.isNone && (u.voice 1).current = .reading 0 1) = true ∧
    ((opDue isProgram (operating (.queued (.program 1 63 15 [])) r)).bind fun d =>
      reachUs d (operating (.queued (.program 1 63 15 [])) r)).isSome = true ∧
    ((opDue isErase (operating (.queued (.erase 1 63)) r)).bind fun d =>
      reachUs d (operating (.queued (.erase 1 63)) r)).isSome = true ∧
    ((opDue isWrite (operating (.writing 64 .closing true blankRecord) r)).bind fun d =>
      reachUs d (operating (.writing 64 .closing true blankRecord) r)).isSome = true ∧
    (∀ x ∈ [true, false], let u := operating (.queued (.erase 1 63)) { r with store := { r.store with
        free := if x then [63] else [] } }
      (63 ∈ u.store.free ↔ x = true) ∧ u.power.phase = .on) ∧
    (∀ p ∈ [DirPurpose.closing, .final, .plain], ∀ st ∈ [SlotState.writing, .erasing, .closed],
      let s := operating (.writing 64 p true blankRecord) (setSlot 64 { tuneSlot with state := st } r)
      ((opDue isWrite s).bind fun d => reachUs d s).any (fun u => (u.slot 64).state = st && u.power.phase = .on) = true) ∧
    (∀ b ∈ [true, false], ((opDue isErase (operating (.queued (.imageErase b)) r)).bind fun d =>
      reachUs d (operating (.queued (.imageErase b)) r)).any (fun u => u.power.phase = .on) = true ∧
      ∀ pg ∈ [0, 5],
        let s := operating (.queued (.imageProgram b pg 2 { refOn := true, settings := defaultSettings })) r
        ((opDue isProgram s).bind fun d => reachUs d s).any (fun u => u.power.phase = .on) = true) := by decide +kernel

/-- The voice has stalled since 0 ms at its one event, whose page is being read. -/
def stalled : State :=
  let s := voiced (.reading 0 1)
  { operating (.read readOne (padPage [tuneOne]) none) s with
    voices := wr r.voices 1 { s.voice 1 with stall := some 0 } }
/-- A page read for the first quarter's profile, whose tune has one page or two. -/
def profiling (pages : Nat) : State :=
  { operating (.read { readOne with reader := .build 1 } [tuneOne] none) (setSlot 1 { tuneSlot with pages := pages } r) with
    cfg := { r.cfg with clock := { defaultClock with q1 := 1 } }
    clock := { r.clock with profiles := wr r.clock.profiles 1 (.building 0 1 [] false) } }

/-- A buffer that waits, a stalled voice whose page comes, and profile builds. -/
theorem test_witness_PageReadsFillBuffersAndProfiles :
    ((opDue isRead (operating (.read readOne [] none) (voiced (.reading 0 1)))).bind fun d =>
      reachUs d (operating (.read readOne [] none) (voiced (.reading 0 1)))).any (fun u => u.power.phase = .on &&
        (u.voice 1).stall.isNone && (u.voice 1).current = .reading 0 1) = true ∧
    ((opDue isRead stalled).bind fun d => reachUs d stalled).any (fun u => (u.voice 1).stall = some 0 &&
      (voicePerf u 1).any fun p => p.anchor = some 200 && p.stop ≠ .cut && p.stopPoint.isNone &&
        ((timeline u p)[(u.voice 1).idx]?).any fun e => e.page = some 0) = true ∧
    (∀ pages ∈ [1, 2], ((opDue isRead (profiling pages)).bind fun d => reachUs d (profiling pages)).any (fun u =>
      u.profile 1 = .building 0 1 [] false && (u.slot (quarterSlot u.cfg.clock 1)).pages = pages &&
      u.line.restart ≠ .building && frontierReached u = false) = true) := by decide +kernel

/-- The image as its pages are read, and a load that has read some of them. -/
def sourceOne : Option (Bool × Nat × Image) :=
  some (false, 1, { refOn := true, settings := defaultSettings })
def imageLoading (pages : Nat) (src : Option (Bool × Nat × Image)) (p : Phase) : State :=
  { operating (.read { readOne with reader := .image pages } [] src) r with
    store := { r.store with
      op := some (.read { readOne with reader := .image pages } [] src, 1)
      imgLoad := some { serial := 1, pages := pages, src := sourceOne } }
    power := { r.power with phase := p, kind := .cold } }
/-- Slot 1's read, or the last, of the directory scan, with an image or without. -/
def scanning (n : Nat) (img : Bool) : State :=
  { r with
    store := { r.store with
      op := some (.read { readOne with reader := .scan n } [] none, 1)
      imgA := if img then Vector.replicate 6 (some (1, { refOn := true, settings := defaultSettings })) else r.store.imgA }
    power := { r.power with phase := .starting, kind := .cold } }

theorem test_witness_ScansAndImageLoadsEnd :
    (∀ n ∈ [1, 64], ∀ img ∈ [true, false], ((opDue isRead (scanning n img)).bind fun d => reachUs d (scanning n img)).any
      (fun u => (currentImage u.store).isSome = img && u.power.kind = .cold) = true) ∧
    (∀ pages ∈ [0, 4, 5], ∀ p ∈ [Phase.on, .starting],
      ((opDue isRead (imageLoading pages sourceOne p)).bind fun d => reachUs d (imageLoading pages sourceOne p)).any (fun u =>
        u.power.phase = p && u.store.imgLoad.any fun l => l.serial = 1 && l.pages = pages) = true) ∧
    ((opDue isRead (imageLoading 3 none .on)).bind fun d => reachUs d (imageLoading 3 none .on)).isSome = true := by
  decide +kernel

/-- Entry 128 as given. -/
def withEntry (e : EntryCfg) : State := { r with cfg := { r.cfg with entries := wr r.cfg.entries 128 e } }

theorem test_witness_EntryRequests : canTake (.entryWrite 128 eveEntry) r = true ∧ eveEntry.wellFormed = true ∧
    entryOk eveEntry = true ∧ r.entry 128 = .empty ∧ canTake (.entrySuspend 128) r = true ∧
    canTake (.entryResume 128) r = true ∧ canTake (.entryClear 128) r = true ∧
    (withEntry (.active eveEntry)).entry 128 = .active eveEntry ∧
    (withEntry (.suspended eveEntry)).entry 128 = .suspended eveEntry := by decide +kernel
/-- In RUN or SERVICE, the time SET, a second before 00:01, with entry 128. -/
def beforeMinute (m : Mode) (f : EntryFields) : State :=
  { withEntry (.active f) with
    tb := { r.tb with set := true, secs := 59 }, line := { r.line with mode := m } }
/-- An entry of every SAT, at a time of day. -/
def satEntry (t : EntryTime) (a : EntryAction) : EntryFields :=
  { year := none, month := none, day := none, weekdays := [.sat], feast := none, time := t, action := a }
theorem sat_fits (t : EntryTime) (a : EntryAction) : DateFits (satEntry t a) r.cal.day :=
  ⟨(fun _ h => nomatch h), (fun _ h => nomatch h), (fun _ h => nomatch h), List.mem_singleton.mpr (by decide +kernel), (fun _ h => nomatch h)⟩
/-- Silence for a minute at 00:01. -/
def quiet : EntryFields := satEntry (.fixed (some 0) 1) (.silence .all 1)
/-- A toll of two strokes at 00:01. -/
def knell : EntryFields := satEntry (.fixed (some 0) 1) (.toll 1 10 2 .normal)

/-- The boundary 00:01 with an entry that fires there, in both modes; the cases of R165's table. -/
theorem test_witness_ScheduleFiresAtABoundary :
    (∀ m ∈ [Mode.run, .service], (beforeMinute m quiet).power.phase = .on ∧ (beforeMinute m quiet).line.mode = m ∧
      inForce (beforeMinute m quiet).cfg.summer 60 = (beforeMinute m quiet).tb.flag ∧
      ((beforeMinute m quiet).tb.secs + 1 + (beforeMinute m quiet).offset) % (73049 * 86400) % 60 = 0) ∧
    Fires (beforeMinute .run quiet) r.cal.day 1 128 quiet ∧
    Fires (beforeMinute .run knell) r.cal.day 1 128 knell ∧
    (¬12 ≤ r.perfs.length ∧ 12 ≤ full.perfs.length) ∧ ((withTune r).slot 1).state = .closed ∧ (r.slot 1).state ≠ .closed ∧
    r.sched.panelSilence = false ∧ driveUsable r 1 = false ∧ driveUsable (withBell startBell .down) 1 = true ∧
    ((withBell startBell .ringing).drive 1).state ≠ .down ∧ ((withBell startBell .down).drive 1).state = .down :=
  ⟨by decide +kernel
  , ⟨rfl, by decide +kernel, ⟨sat_fits _ _, 1, rfl, by decide +kernel⟩, (fun _ h => nomatch h)⟩
  , ⟨rfl, by decide +kernel, ⟨sat_fits _ _, 1, rfl, by decide +kernel⟩, (fun _ h => nomatch h)⟩
  , by decide +kernel⟩

/-- A site that passes the validation: a hammer on the hour bell and rising suns (R198). -/
def sound : State := { r with cfg := { r.cfg with bells := wr r.cfg.bells 24 { defaultBell 24 with hammer := true } } }

/-- Sunset on day 0 is at 18:00; an entry at sunset and one that fires early 60 min ahead (R166); entry to RUN at 00:01. -/
theorem test_witness_DuskFiresEarlyAndCatchUp :
    let dusk := { beforeMinute .run (satEntry (.sunset 0 true) (.scene 1)) with
      tb := { r.tb with set := true, secs := 61200 }, lights := { r.lights with
        darkRun := 59, conv := some { channel := none, level := 0, ends := 1, spoiled := false } } }
    let entry := { sound with
      tb := { r.tb with set := true, secs := 60 }, cfg := { sound.cfg with entries := wr r.cfg.entries 128 (.active quiet) } }
    ((duskEndDue dusk).bind fun d => reachUs d dusk).any (fun u => u.tb.sub < 1000000 && 39 < u.cfg.site.threshold &&
      59 ≤ u.lights.darkRun && u.lights.dusk ≠ .dark && u.tb.set && u.line.mode = .run && u.localMinute = 1020) = true ∧
    FiresEarly dusk 1020 128 1080 ∧
    canTake .modeRun entry = true ∧ entry.line.mode = .service ∧ validation entry = none ∧ entry.tb.set = true ∧
    entry.cal.day.dayNo = entry.localDay ∧ entry.entry 128 = .active quiet ∧ entryTimeOk quiet.time = true ∧
    Caught entry quiet 1 ∧ entry.stdUs < 1000000 * (passedInstant entry.cfg.summer (1 * 60) + 1 * 60) :=
  ⟨by decide +kernel
  , ⟨satEntry (.sunset 0 true) (.scene 1), 0, rfl, by decide +kernel, rfl, sat_fits _ _, (by decide +kernel : (1080 : Int) = _), by decide +kernel, by decide +kernel
    , (fun _ h => nomatch h)⟩
  , by decide +kernel, by decide +kernel, by decide +kernel, rfl, by decide +kernel, by decide +kernel, by decide +kernel
  , .inl ⟨⟨sat_fits _ _, 1, rfl, by decide +kernel⟩, by decide +kernel⟩, by decide +kernel⟩

/-- Channel 1 as given. -/
def withChan (c : Channel) : State := { r with lights := { r.lights with chans := wr r.lights.chans 1 c } }

theorem test_witness_OverrideRequests : canTake (.light (some 16) 4095 (some 0) .hold) r = true ∧ (r.chan 16).target = 0 ∧
    (r.chan 16).lamp ≠ .tripped ∧ canTake (.light none 1 none .next) r = true ∧ canTake (.lightRelease (some 1) none) r = true ∧
    canTake (.lightRelease none none) r = true ∧
    canTake (.lightClear 1 (some 0)) (withChan { startChannel with lamp := .tripped }) = true ∧
    ((withChan { startChannel with lamp := .tripped }).chan 1).lamp = .tripped := by decide +kernel

/-- A fade of ten steps that has made k of them. -/
def fading (k : Nat) : State :=
  withChan { startChannel with fade := some { start := 0, target := 1000, len := 10, k := k, next := 0 } }

theorem test_witness_FadeStepsAndModulation :
    ((fadeDue 1 (fading 8)).bind fun d => reachUs d (fading 8)).any (fun u => (u.chan 1).fade.any fun f => f.k + 1 < f.len) = true ∧
    ((fadeDue 1 (fading 9)).bind fun d => reachUs d (fading 9)).any (fun u => (u.chan 1).fade.any fun f => f.len ≤ f.k + 1) = true ∧
    ((pwmDue 16 r).bind fun d => reachUs d r).isSome = true := by decide +kernel

/-- The converter measures channel 1 at full output, whose nominal code is 200. -/
def measuring (run : Verdict × Nat) (lamp : LampState) : State :=
  { withChan { startChannel with output := 4095, target := 4095, run := some run, lamp := lamp } with
    cfg := { r.cfg with lights := wr r.cfg.lights 1 { defaultLight 1 with nominal := 200, overPct := 120 } }
    lights := { r.lights with
      chans := wr r.lights.chans 1 { startChannel with output := 4095, target := 4095, run := some run, lamp := lamp }
      conv := some { channel := some 1, level := 4095, ends := 1, spoiled := false } } }
/-- The photocell is being measured. -/
def sampling (darkRun : Nat) : State :=
  { r with lights := { r.lights with
      darkRun := darkRun, lightRun := darkRun, conv := some { channel := none, level := 0, ends := 1, spoiled := false } } }
/-- A spoiled measurement of channel 1, or of the photocell. -/
def spoiling (dusk : Bool) : State :=
  { r with lights := { r.lights with
      conv := some { channel := if dusk then none else some 1, level := 0, ends := 1, spoiled := true } } }

/-- With nominal 200, lampout 70 and over 120 the verdicts meet at 139 and 140, and at 240 and 241 (R183); the dusk
threshold 40 and hysteresis 10 give 39, 40 to 50, and 51 (R185). -/
theorem test_witness_MeasurementsAreTakenAndJudged :
    ((lampDue r).bind fun d => reachUs d r).any (fun u => u.lights.conv.isNone && !eligible u 1 && !eligible u 16) = true ∧
    nextEligible { measuring (.good, 0) .ok with tb := { r.tb with runUs := 2000000 } } = some 1 ∧
    (measuring (.good, 0) .ok).lights.conv ≠ none ∧ ((duskDue r).bind fun d => reachUs d r).isSome = true ∧
    ((lampEndDue (measuring (.tooHigh, 2) .ok)).bind fun d => reachUs d (measuring (.tooHigh, 2) .ok)).any (fun u =>
      139 * 100 < (u.lightCfg 1).nominal * 4095 / 4095 * (u.lightCfg 1).lampout &&
      !(140 * 100 < (u.lightCfg 1).nominal * 4095 / 4095 * (u.lightCfg 1).lampout : Bool) &&
      !((u.lightCfg 1).nominal * (u.lightCfg 1).overPct < 240 * 100 : Bool) &&
      (u.lightCfg 1).nominal * (u.lightCfg 1).overPct < 241 * 100 && (u.chan 1).run = some (.tooHigh, 2)) = true ∧
    (∀ x ∈ [((Verdict.low, 2), LampState.ok), ((.good, 2), .low), ((.good, 2), .unchecked), ((.low, 3), .low)],
      ((lampEndDue (measuring x.1 x.2)).bind fun d => reachUs d (measuring x.1 x.2)).any (fun u =>
        (u.chan 1).run = some x.1 && (u.chan 1).lamp = x.2) = true) ∧
    (∀ dusk ∈ [false, true], ((if dusk then duskEndDue else lampEndDue) (spoiling dusk)).isSome = true) ∧
    (∀ k ∈ [58, 59], ((duskEndDue (sampling k)).bind fun d => reachUs d (sampling k)).any (fun u =>
      39 < u.cfg.site.threshold && u.cfg.site.threshold + u.cfg.site.hysteresis < 51 && u.lights.darkRun = k &&
      u.lights.lightRun = k && u.lights.dusk = .unknown) = true) := by decide +kernel
/-- MASK of all classes and of one; the framings; a sent reply, overrun answer and notice, and no line being sent (R189 to R194). -/
theorem test_witness_LinesAndMasks : canTake (.maskSet none false) r = true ∧ canTake (.maskSet (some .dusk) true) r = true ∧
    ignored ⟨[], true, false⟩ = true ∧ framed ⟨lineOf "SAVE", true, false⟩ = true ∧ parseRequest (lineOf "SAVE") = some .save ∧
    framed ⟨lineOf "SAVE", false, false⟩ = false ∧ ignored ⟨[], false, false⟩ = false ∧
    (elapse 1000000 r).isSome = true ∧ elapse 1000001 r = none ∧
    (elapse 9 { r with line := { r.line with tx := some (.reply (.ok []) (some 19200)) } }).any (fun u =>
      u.power.phase = .on && u.line.tx = some (.reply (.ok []) (some 19200))) = true ∧
    (elapse 9 { r with line := { r.line with tx := some (.notice .ref 255 []) } }).any (fun u =>
      u.line.tx = some (.notice .ref 255 [])) = true ∧
    (∀ x ∈ [some TxLine.overrun, none], (elapse 9 { r with line := { r.line with tx := x } }).any (fun u =>
      u.power.phase = .on && u.line.tx = x) = true) := by decide +kernel

/-- In RUN with every drive DOWN and a table of records. -/
def serving (l : List Perf) : State :=
  { running with drives := Vector.replicate 4 { startDrive with state := .down }, perfs := l }

/-- A carried hour that waits. -/
def carriedRec : Perf := rec1 (.clock { hourOne with carried := true }) .waiting

/-- With an empty table, with one record, and with tables in which a waiting record stands beside others: a carried hour beside a
running performance, a waiting TUNE beside a CLOCK record that is cut, or was (R118). -/
theorem test_witness_ModeRequests :
    canTake .modeService r = true ∧ canTake .modeService running = true ∧ (running.drive 1).state ≠ .down ∧
    (∀ n ∈ [1, 2, 3, 4], (({ running with drives := Vector.replicate 4 { startDrive with state := .down } } : State).drive n).state = .down) ∧
    canTake .modeRun running = true ∧ canTake .modeRun r = true ∧ (validation r).isSome = true ∧ validation sound = none ∧
    (∀ l ∈ [[], [carriedRec], [carriedRec, { rec1 (.toll tollOne) .running with id := 2 }], [clockRec .running, waiter],
        [{ clockRec .stopping with stop := .cut, drivenEnd := 9 }, waiter, { carriedRec with id := 3 }]],
      canTake .modeService (serving l) = true ∧ (serving l).line.mode = .run ∧ (serving l).perfs = l ∧
      (l.map (·.id)).Nodup ∧ ∀ n ∈ [1, 2, 3, 4], ((serving l).drive n).state = .down) := by
  decide +kernel

/-- Each item fails, and passes at its boundary: sunrise at sunset, an offset with both changes in one month, an interval one ms
short, a recovery one ms short, no hammer on the hour bell, and with mode ALL a quarter of a bell without a hammer, one that is
still built, one over the limit by one ms (R29, R30, R36, R54, R105, R106). -/
theorem test_witness_ValidationNamesTheFirstFailure :
    let c := sound.cfg
    let fails := fun (c : Settings) => validation { sound with cfg := c }
    let quarter := fun (p : Profile) (hammer : Bool) => { withTune sound with
      cfg := { sound.cfg with
        clock := { defaultClock with q4 := 1 }, bells := wr sound.cfg.bells 1 { defaultBell 1 with hammer := hammer } }
      clock := { r.clock with profiles := wr r.clock.profiles 4 p } }
    fails { c with sun := wr c.sun 3 { rise := 700, set := 700 } } = some [.word "SUN", .num 3] ∧
    fails { c with summer :=
      { offset := 60, start := { month := 3, ordinal := .last, weekday := .sun, hour := 2 }
        stop := { month := 3, ordinal := .last, weekday := .sun, hour := 3 } } } = some [.word "SUMMER"] ∧
    fails { c with dials := wr c.dials 4 { defaultDial with width := 500, interval := 699 } } =
      some [.word "DIAL", .num 4] ∧
    fails { c with bells := wr c.bells 2 { defaultBell 2 with recovery := 59 } } = some [.word "RECOVERY", .num 2] ∧
    fails { c with
      dials := wr c.dials 4 { defaultDial with width := 500, interval := 700 }
      bells := wr c.bells 2 { defaultBell 2 with recovery := 60 } } = none ∧
    validation r = some [.word "HOURBELL", .num 24] ∧
    validation (quarter .none false) = some [.word "QUARTER", .num 4, .word "HAMMER", .num 1] ∧
    validation (quarter .none true) = some [.word "QUARTER", .num 4, .word "BUILDING"] ∧
    validation (quarter (.ready 0 838001 0) true) = some [.word "QUARTER", .num 4, .word "LENGTH"] ∧
    validation (quarter (.ready 0 838000 0) true) = none := by decide +kernel

/-- The working configuration as an image. -/
def imageOne : Image := { refOn := true, settings := defaultSettings }

/-- With a valid image in sector A, and with the image loaded. -/
def saved : State := { r with store := { r.store with imgA := Vector.replicate 6 (some (1, imageOne)) } }
def reloading : State := { r with line := { r.line with restart := .loaded imageOne } }

/-- The same with bells, drives, lights, the schedule and a quarter at work, SET or UNSET. -/
def restarting (set : Bool) : State :=
  { playing (clockRec .admitted) .ringing with
    line := reloading.line
    tb := { r.tb with set := set }
    bells := wr r.bells 2 { startBell with state := .silent, miss := 2, driven := 5 }
    sched := { r.sched with lastEval := some 3 }
    clock := { r.clock with today := { r.clock.today with
      slots := wr r.clock.today.slots 96 { outcome := .sounded, masked := 2, repeated := false } } }
    lights := { r.lights with chans := wr r.lights.chans 1 { startChannel with lamp := .tripped, output := 9 } } }

theorem test_witness_RestartReloadsTheImage : canTake .restart r = true ∧ currentImage r.store = none ∧
    canTake .restart saved = true ∧ (currentImage saved.store).isSome = true ∧ reloading.line.restart = .loaded imageOne ∧
    (∀ set ∈ [true, false], (restarting set).line.restart = .loaded imageOne ∧
      inForce imageOne.settings.summer (restarting set).tb.secs = (restarting set).tb.flag) := by
  decide +kernel

/-- A panel toll on bell 1 in a state, and another record. -/
def panelTolls (st : PerfState) : State :=
  let s := playing { rec1 (.toll tollOne) st with source := .panel } .down
  { s with perfs := s.perfs ++ [waiter] }
/-- One that stops, whose claim a new one of the panel does not pass, with a wait limit. -/
def yielding (wait : Nat) : State :=
  { panelTolls .stopping with cfg := { (panelTolls .stopping).cfg with panelToll := { r.cfg.panelToll with bell := 1, wait := wait } } }

/-- A table with a waiting TUNE, a running TOLL, a waiting CLOCK record, a TEST, two SWINGs of which one waits, and a TOLL that has
been cut and whose pulse is driven. -/
def mixedTable : List Perf :=
  [ waiter, rec1 (.toll tollOne) .running, { carriedRec with id := 3 }, { rec1 (.test testOne) .running with id := 4 }
  , { rec1 (.swing swingTwo) .waiting with id := 5 }, { rec1 (.swing swingTwo) .running with id := 6 }
  , { rec1 (.toll tollOne) .stopping with id := 7, stop := .cut, drivenEnd := 9 } ]

/-- Every key's input is open at reset, the table is empty and no claim stands on the panel toll's bell. -/
theorem test_witness_PanelKeys :
    (elapse 1 r).any (fun u => u.keys.silence && u.keys.lights && u.keys.toll && u.keys.stop && !u.lights.panelOn &&
      u.perfs.isEmpty && firstFree u = some 1 && claimsOpen u u.cfg.levels.toll (bellOne u.cfg.panelToll.bell)) = true ∧
    (elapse 1 { r with keys := { r.keys with silence := false } }).any (fun u => !u.keys.silence) = true ∧
    (elapse 1 { r with lights := { r.lights with panelOn := true } }).any (fun u => u.lights.panelOn) = true ∧
    (∀ st ∈ [PerfState.waiting, .admitted, .running, .stopping], (elapse 1 (panelTolls st)).any (fun u => u.keys.toll &&
      u.perfs = (panelTolls st).perfs && u.perf 1 = some { rec1 (.toll tollOne) st with source := .panel } &&
      decide (∀ q ∈ u.perfs, q.source = .panel ∧ q.state ≠ .stopping → q.id = 1)) = true) ∧
    (elapse 1 { panelTolls .stopping with perfs := full.perfs }).any (fun u => u.keys.toll && 12 ≤ u.perfs.length &&
      u.perfs.all (fun q => q.source ≠ .panel)) = true ∧
    (∀ k ∈ [0, 1], (elapse 1 (yielding k)).any (fun u => u.cfg.panelToll.wait = k && u.perfs.length < 12 &&
      u.perfs.all (fun q => q.source ≠ .panel ∨ q.state = .stopping) &&
      !claimsOpen u u.cfg.levels.toll (bellOne u.cfg.panelToll.bell)) = true) ∧
    (elapse 1 { r with keys := { toll := false, silence := false, lights := false, stop := false } }).any (fun u =>
      !u.keys.toll && !u.keys.silence && !u.keys.lights && !u.keys.stop) = true ∧
    (elapse 1 (swingsIn .ringing)).any (fun u => u.keys.stop && swingTwo.swinging u 1 = [1]) = true ∧
    (∀ l ∈ [mixedTable, [], [rec1 (.toll tollOne) .waiting], [waiter, { carriedRec with id := 3 }], [rec1 .tune .running]],
      (l.map (·.id)).Nodup ∧ (elapse 1 { playing (rec1 (.toll tollOne) .running) .down with perfs := l }).any (fun u =>
        u.keys.stop && u.perfs = l) = true) := by
  decide +kernel
/-- The waiting TUNE and SWING, and the TOLL no pulse of which is driven, leave; the CLOCK record, the TEST, the SWING that rings and
the record that was cut stand (R97, R98). -/
theorem test_stopKeyOnAMixedTable :
    (after (.stopKey 1) { playing (rec1 (.toll tollOne) .running) .down with perfs := mixedTable }).map
      (fun t => t.perfs.map fun p => (p.id, p.stop)) =
      some [(3, .none), (4, .none), (6, .finish), (7, .cut)] := by decide +kernel
theorem test_witness_PowerLossAndStart :
    (elapse 1000000 r).any (fun u => u.power.phase = .on) = true ∧ dark.power.phase = .off ∧ timed2025.tb.set = true ∧
    startDueNow { r with power := { r.power with phase := .starting, ready := true, kind := .warm } } = true := by
  decide +kernel

/-- Bell 1 holds two claims. -/
def twoClaims : State :=
  { playing (rec1 (.toll tollOne) .running) .down with
    nextOrder := 6
    bells := wr r.bells 1 { startBell with claims := [{ perf := 1, level := 1, order := 5 }, { perf := 2, level := 3, order := 4 }] } }
theorem twoClaims_ok : ClaimsOk twoClaims where
  held := held_ok (by decide +kernel) (settings_ok rfl (by decide +kernel) rfl rfl) (by decide +kernel)
  lists := { falls := units_all (by decide +kernel), given := units_all (by decide +kernel), levels := by decide +kernel }

/-- Channel 1 fades, channel 2 is TRIPPED. -/
def lampsOn : State :=
  { fading 9 with lights := { (fading 9).lights with
      chans := wr (fading 9).lights.chans 2 { startChannel with target := 4095, lamp := .tripped } } }
theorem lampsOn_channels (n : Nat) (h : unitOk 16 n = true) : ChannelOk (lampsOn.chan n) := by
  have : lampsOn.chan n = (fading 9).chan 1 ∨ lampsOn.chan n = lampsOn.chan 2 ∨ lampsOn.chan n = r.chan 16 :=
    units_all (P := fun n => lampsOn.chan n = (fading 9).chan 1 ∨ lampsOn.chan n = lampsOn.chan 2 ∨ lampsOn.chan n = r.chan 16)
      (by decide +kernel) n h
  rcases this with e | e | e <;> rw [e] <;> constructor <;> decide +kernel
theorem test_witness_EveryStepKeepsLampsAndDialsInRange :
    (LampsOk lampsOn ∧ runs (.fadeStep 1) lampsOn = true) ∧
    ((withDial (derivedAt 719)).power.phase = .on ∧ DialsOk (withDial (derivedAt 719)) ∧
      runs (.dialImpulseStart 1) (withDial (derivedAt 719)) = true) :=
  ⟨⟨{ held := held_ok (by decide +kernel) (settings_ok rfl (by decide +kernel) rfl rfl) (by decide +kernel)
      lights := { chans := lampsOn_channels, contribs := fun _ h => nomatch h } }, by decide +kernel⟩
  , rfl
  , { held := held_ok (by decide +kernel) (settings_ok rfl (by decide +kernel) rfl rfl) (by decide +kernel)
      scan := ⟨(fun _ h => nomatch h), (fun _ _ _ _ h => nomatch h)⟩
      steps := units_all (by decide +kernel)
      range := by
        intro n p h
        exact units_all (P := fun n => ∀ p, ((withDial (derivedAt 719)).dial n).pos = some p →
            p < 43200 / ((withDial (derivedAt 719)).dialCfg n).step)
          (by
            intro n hn p
            have : ((withDial (derivedAt 719)).dial n).pos = none ∨ (((withDial (derivedAt 719)).dial n).pos = some 719 ∧
                719 < 43200 / ((withDial (derivedAt 719)).dialCfg n).step) := by
              revert n; decide +kernel
            rcases this with e | ⟨e, l⟩ <;> rw [e] <;> intro h <;> cases h
            exact l) n h p }
  , by decide +kernel⟩

/-- Slot 1 is CLOSED with sector 0, slot 2 ERASING with sectors 1 and 2, whose erases and final write are queued. -/
def sectored : Store :=
  { r.store with
    slots := wr (wr r.store.slots 1 tuneSlot) 2 { tuneSlot with state := .erasing, sectors := [1, 2] }
    free := (List.range 64).drop 3
    queue := [.erase 2 1, .erase 2 2, .dirWrite 2 .final] }
theorem test_witness_EveryStepKeepsClaimAndSectorLists :
    (ClaimsOk twoClaims ∧ runs .secondEnd twoClaims = true ∧ unitOk 24 1 = true) ∧ SectorListsOk sectored ∧
    runs .sectorEraseEnd { r with store := { sectored with op := some (.queued (.erase 2 1), 5), queue := sectored.queue.drop 1 } } = true :=
  ⟨⟨twoClaims_ok, by decide +kernel, rfl⟩
  ,
   { shared := by decide +kernel
     empty := units_all (by decide +kernel)
     loading := fun _ h => nomatch h
     closings := by
      intro n h
      have : False := by simp [Store.entries, sectored, r, State.reset, newStore] at h
      exact this.elim
     erases := by
      intro n k h
      have : QueueOp.erase n k = .erase 2 1 ∨ QueueOp.erase n k = .erase 2 2 ∨ QueueOp.erase n k = .dirWrite 2 .final := by
        simpa [Store.entries, sectored, r, State.reset, newStore] using h
      rcases this with h | h | h <;> cases h <;> decide +kernel
     finals := by
      intro n a b h
      have h : [QueueOp.erase 2 1, .erase 2 2, .dirWrite 2 .final] = a ++ .dirWrite n .final :: b := h
      match a, h with
      | [], h => injection h with h _; cases h
      | [_], h => injection h with _ h; injection h with h _; cases h
      | [x, y], h => injection h with e h; injection h with e' h; injection h with h h'; cases e; cases e'; cases h; cases h'; decide +kernel
      | _ :: _ :: _ :: l, h => injection h with _ h; injection h with _ h; injection h with _ h; cases l <;> cases h
     resume := ⟨List.nodup_nil, fun _ h => nomatch h⟩
     scan := ⟨(fun _ h => nomatch h), (fun _ _ _ _ h => nomatch h)⟩ }
  , by decide +kernel⟩

/-! ### Steps and sums whose results the manual gives -/

/-- The fault a command ends in. -/
def faultOf (c : Instr) (s : State) : Option Fault :=
  match exec c s with
  | .fault f => some f
  | _ => none

/-- The example of R145: bells 1 and 3, NORMAL with the phrase-end mark, after two steps. -/
theorem test_event : Event.ofWord 0x020000055#36 =
    { delta := 2, bells := 0x000005#24, intensity := .normal, phrase := true } := by decide
/-- Bell 24 alone is 800000 (R145). -/
theorem test_event24 : bellOne 24 = 0x800000#24 := by decide
theorem test_noWord : decodeTableWord 16 0x1234 = none := rfl
theorem test_fetchNothing : (r.withFetchWord 16 5).pending = [] := by decide +kernel

/-- With the northern rule. -/
def north : State := { r with cfg := { r.cfg with summer := northRule } }

/-- Worked case: 2025-04-20 is a SUN, and 31 March 2025 is day 9,221, a MON (2.1, 2.4). -/
theorem test_weekdays : weekdayOf 9241 = .sun ∧ dayNumber 2025 3 31 = 9221 ∧ weekdayOf 9221 = .mon := by decide
/-- Worked case: 30 March and 26 October 2025 at 02:00 standard. -/
theorem test_changes : changeInstants northRule 2025 =
    some (86400 * dayNumber 2025 3 30 + 7200, 86400 * dayNumber 2025 10 26 + 7200) := by decide +kernel
/-- Worked case: 5 October 02:00 and 6 April 03:00 standard; on 1 January the flag is set. -/
theorem test_southern : changeInstants southRule 2025 =
    some (86400 * dayNumber 2025 10 5 + 7200, 86400 * dayNumber 2025 4 6 + 10800) ∧
    inForce southRule (86400 * dayNumber 2025 1 1) = true := by decide +kernel
/-- The hour that does not exist, and the one that occurs twice (2.4). -/
theorem test_convert : convert north ⟨2025, 3, 30⟩ ⟨2, 30, 0, 0⟩ none = none ∧
    convert north ⟨2025, 10, 26⟩ ⟨2, 30, 0, 0⟩ none = some (86400 * dayNumber 2025 10 26 + 5400) := by decide +kernel
/-- Worked cases of 2.5: 12.27, −11.54, −10.71 and the exact half 2.5. -/
theorem test_interpolation : interpolate 1071 1094 68 60 75 = 1083 ∧ interpolate 449 424 53 47 60 = 437 ∧
    interpolate 449 424 53 47 61 = 438 ∧ interpolate 483 488 358 350 366 = 486 := by decide

/-- Worked case of 1.4: the first and the sixth window. -/
theorem test_trim :
    (after .trimUpdate { r with ref := { r.ref with sum := 768, cnt := 64 } }).map (·.tb.trim) = some 6000 ∧
    (after .trimUpdate { r with tb := { r.tb with trim := 11625 }, ref := { r.ref with sum := 24, cnt := 64 } }).map (·.tb.trim) =
      some 11813 := by decide +kernel
/-- T = 12,000 adds 12 ticks to every second (1.4). -/
theorem test_secondLength : (after .secondEnd { r with tb := { r.tb with trim := 12000 } }).map (·.tb.len) = some 1000012 := by
  decide +kernel

/-- A dial with step 60 and hold 65 min at a local second of the day. -/
def dialAt (p secs : Nat) : State :=
  { r with
    tb := { r.tb with set := true, secs := secs }
    dials := wr r.dials 1 (derivedAt p)
    cfg := { r.cfg with dials := wr r.cfg.dials 1 { defaultDial with hold := 65, noon := true } } }
/-- Worked cases of 3.8: p = 119 at 03:00 is ADVANCING with d = 61; p = 179 at 02:00 is HOLDING with d = 661. -/
theorem test_dialStates : dialDiff (dialAt 119 10800) 1 119 = 61 ∧ dialState (dialAt 119 10800) 1 = .advancing ∧
    dialDiff (dialAt 179 7200) 1 179 = 661 ∧ dialState (dialAt 179 7200) 1 = .holding := by decide +kernel
/-- Worked case of 3.8, a noon slip at 12:03: the hands stand at 12:00, three behind the record. -/
theorem test_noonSlip : (after (.noonClosure 250 1) (dialAt 3 43380)).map (fun t => ((t.dial 1).pos, (t.dial 1).slips)) =
    some (some 0, 1) := by decide +kernel
/-- The first impulse of a search is positive and counts (3.6). -/
theorem test_searchImpulse : (after (.dialImpulseStart 1) (withDial { derivedAt 0 with pos := none, stored := .searching })).map
    (fun t => ((t.dial 1).count, (t.dial 1).out, (t.dial 1).pol)) = some (1, some .positive, .negative) := by decide +kernel

/-- Bell 7 of the worked case of 4.5 with its last release, asked for a stroke at an instant. -/
def bellSeven (crowd last now : Nat) : State :=
  { r with
    tb := { r.tb with runUs := 1000 * now }
    bells := wr r.bells 7 { claimed with last := if last = 0 then none else some last }
    cfg := { r.cfg with bells := wr r.cfg.bells 7 { defaultBell 7 with
      hammer := true, fNormal := 120, wNormal := 60, recovery := 700, crowd := crowd, confirm := true, half := 15 } } }
/-- Step 4 is released and opens its window; step 5 is held for 33 ms; step 6 is dropped. -/
theorem test_crowding :
    ((strokeRequest 7 1 .normal false (bellSeven 50 0 52546)).bell 7).windows =
      [{ perf := 1, opens := 52651, closes := 52681, test := false }] ∧
    ((strokeRequest 7 1 .normal false (bellSeven 50 52546 53213)).bell 7).held =
      some { perf := 1, intensity := .normal, test := false, req := 53213, due := 53246 } ∧
    (strokeRequest 7 1 .normal false (bellSeven 50 53246 53880)).bell 7 = (bellSeven 50 53246 53880).bell 7 := by
  decide +kernel
/-- With C = 20 step 5 is dropped and step 6 is driven. -/
theorem test_crowding20 :
    (strokeRequest 7 1 .normal false (bellSeven 20 52546 53213)).bell 7 = (bellSeven 20 52546 53213).bell 7 ∧
    ((strokeRequest 7 1 .normal false (bellSeven 20 52546 53880)).bell 7).last = some 53880 := by decide +kernel

/-- Worked case of 5.4. -/
theorem test_stepTimes : stepTime 4 90 1 = 2666 ∧ stepTime 5 90 1 = 3333 ∧ stepTime 19 90 1 = 12666 ∧
    [0, 1, 2, 3].map (fun n => stepTime n 72 2) = [0, 416, 833, 1250] := by decide +kernel
/-- Worked case of 5.10: at 605,000 the toll has sent two strokes; the third becomes its last. -/
theorem test_tollFinish : ((after (.stopFinish 1) (playing { rec1 (.toll { tollOne with count := 0, sent := 2, limit := none }) .running
    with anchor := some 600280 } .down)).bind (·.perf 1)).map (·.kind) =
      some (.toll { tollOne with count := 0, sent := 2, limit := some 3 }) := by decide +kernel
/-- TOLL 24 at 600,000 with F = 180: the anchor is 600,280 (5.10). -/
theorem test_tollAnchor : ((after (.toll 24 40 0 .normal none none) { r with
      tb := { r.tb with runUs := 600000000 }
      cfg := { r.cfg with bells := wr r.cfg.bells 24 { defaultBell 24 with fNormal := 180 } } }).bind (·.perf 1)).map (·.anchor) =
    some (some 600280) := by decide +kernel

/-- The settings of the worked case of 6.3, with its alignment. -/
def hourSettings (a : Align) : ClockCfg := { defaultClock with q4 := 12, align := a, gap := 25 }
/-- X is −15,261 ms with END alignment, and the bell 3 of the first event leads by 95 ms with START. -/
theorem test_hour : releaseX (hourSettings .stop) 180 (.fullHour 12 12666 (-95)) = -15261 ∧
    anchorOffset (hourSettings .stop) (.fullHour 12 12666 (-95)) = -15166 ∧
    releaseX (hourSettings .start) 180 (.fullHour 12 12666 (-95)) = -95 ∧ hourCount 48 = 12 := by decide +kernel

/-- A SILENT bell stays SILENT, a drive that swings is lowered, a TRIPPED lamp stays TRIPPED, the quarter that had not begun goes
back to PENDING and is evaluated anew, and what the schedule retains stands (R77, R120, R137, R171, R188). -/
theorem test_restart_columns : (after .restartEvent (restarting true)).any (fun t =>
    (t.bell 2).state = .silent && (t.drive 1).state = .lowering && (t.chan 1).lamp = .tripped && (t.chan 1).output = 0 &&
      t.perfs.isEmpty && t.sched.lastEval = some 3 && (rd t.clock.today.slots 96 pendingSlot).outcome = .pending) = true := by
  decide +kernel

/-- A mark counts its 1,500 ms from the reception of its line (R15). -/
theorem test_mark_waits : (after lastMark markWaits).map (·.ref.mark.map (·.recv)) = some (some 3000) := by decide +kernel

/-- Standard time wrapped while main power was off, and an entry of minute 0 was never fired: it fires once (R160). -/
theorem test_wrap_fires_once :
    (after .startValues { withEntry (.active (satEntry (.fixed (some 0) 0) (.silence .all 1))) with
      tb := { r.tb with set := true }
      power := { r.power with phase := .starting, ready := true, kind := .warm, wrapped := true, mode := .run } }).map
      (fun t => (t.stamp 128, (rd t.line.latch (classIndex .entry) none).map (·.count))) = some (some 0, some 1) := by
  decide +kernel

/-- The quarter after the last day of the range is 00:00 of day 0 (R1, R21): while that day is TODAY its outcome and its masked
strokes go to the early slot, and once day 0 is TODAY to its slot 0 (R114, R115). -/
theorem test_quarter_after_the_last_day :
    let last := { r.clock with today := blankSheet (some 73048), early := none }
    let early := countMasked (quarterDate (96 * 73049)) 0 (writeOutcome .sounded (quarterDate (96 * 73049)) 0 last)
    quarterDate (96 * 73049) = 0 ∧ early.early = some (0, { outcome := .sounded, masked := 1, repeated := false }) ∧
    (countMasked (quarterDate (96 * 73049)) 0 { early with today := blankSheet (some 0), early := none }).today.slots[0] =
      { pendingSlot with masked := 1 } := by decide +kernel

/-- A drive's first bottom pulse gives no half-period, the next one does (R125). -/
theorem test_halfPeriod :
    (after (.bottomPulse 1000 1) (withDrive startDrive)).map (fun t => ((t.drive 1).half, (t.drive 1).lastBottom)) = some (none, some 1) ∧
    (after (.bottomPulse 5000 1) (withDrive { startDrive with lastBottom := some 0 })).map (fun t => (t.drive 1).half) =
      some (some 5) := by decide +kernel

/-- Worked case of 10.3, downward: N = 4 gives 2250 and N = 7 gives 2572 at the first step. -/
theorem test_fade : fadeOutput { start := 3000, target := 0, len := 4, k := 1, next := 0 } = 2250 ∧
    fadeOutput { start := 3000, target := 0, len := 7, k := 1, next := 0 } = 2572 ∧
    fadeOutput { start := 1000, target := 1200, len := 10, k := 5, next := 0 } = 1100 := by decide
/-- The table of R181: over a cycle the slots add up to the level. -/
theorem test_modulation : [1000, 4095, 17, 64].map (fun l => ((List.range 32).map (slotsDriven l)).sum) = [1000, 4095, 17, 64] ∧
    slotsDriven 4095 0 = 127 ∧ slotsDriven 1000 3 = 32 ∧ slotsDriven 1000 4 = 31 := by decide +kernel

/-- A unit that does not exist, and an event beyond the end of the second. -/
theorem test_faults : faultOf (.confirmClosure 0 25) r = some .noSuchUnit ∧ faultOf (.refPulse 1000001) r = some .pastSecondEnd ∧
    faultOf (.refPulse 1000000) r = none := by decide +kernel
/-- With two places held a third line leaves an overrun mark (R190). -/
theorem test_overrun : (after (.lineReceived 0 ⟨lineOf "SAVE", true, false⟩) { r with
      line := { r.line with slots := [.waiting .save 0, .waiting .save 0] } }).map (·.line.slots) =
    some [.waiting .save 0, .waiting .save 0, .overrun] := by decide +kernel
/-- The reply of TIME READ after reset, and nothing else changed (R18, R20). -/
theorem test_timeRead : (after .timeRead r).map (·.line.tx) = some (some (.reply (.ok
    [ .date 2000 1 1, .tod 0 0 0 0, .word "SAT", .word "N", .word "UNSET", .num 0 ]) none)) := by decide +kernel
/-- A step runs the front command. -/
theorem test_step : (match step { r with pending := [.lineRate 19200] } with
    | .next t => t.cfg.rate = 19200 && t.line.rate = 9600 && t.pending = []
    | _ => false) = true := by decide +kernel

end Sys2Proof.Machine
end

