-- ==== Sys2Proof/Proofs/TimeReadouts.lean ====
section
/-! The readouts of the timebase and of the reference monitor (R18). -/

namespace Sys2Proof.Machine

theorem exec_timeRead (s : State) : exec .timeRead s = request .timeRead timeReadAct s := rfl

theorem exec_refRead (s : State) : exec .refRead s = request .refRead refReadAct s := rfl

/-- A request that arrives leaves the local time as it stands. -/
@[simp] theorem arrived_localSecs (i : Instr) (s : State) : (arrived i s).localSecs = s.localSecs := by rw [arrived_eq]; rfl

/-- A request that arrives leaves the run clock as it stands. -/
@[simp] theorem arrived_now (i : Instr) (s : State) : (arrived i s).now = s.now := by rw [arrived_eq]; rfl

/-- TIME READ's effect before the very end of a second: the milliseconds need no cap there (R18, log 9). -/
theorem timeReadAct_of_sub_lt {s : State} (h : s.tb.sub < 1000000) : timeReadAct s = answer
    [ dayField (s.localSecs / 86400)
    , .tod (s.localSecs / 3600 % 24) (s.localSecs / 60 % 60) (s.localSecs % 60) (s.tb.sub / 1000)
    , .word (weekdayName s.cal.day.weekday), .word (if s.tb.flag then "S" else "N")
    , .word (if s.tb.set then "SET" else "UNSET"), .num s.now ] s := by
  have ms : min (s.tb.sub / 1000) 999 = s.tb.sub / 1000 := by omega
  simp only [timeReadAct, ms]

/-- The two words that REF READ has for its yes-or-no fields differ (log 76). -/
theorem yesNo_true_ne_false : yesNo true ≠ yesNo false := by decide

end Sys2Proof.Machine

open Sys2Proof Sys2Proof.Machine

/-- Settles O11: both effects only answer, and nothing that they read is of the line, which is all that the request's
arrival changes. -/
theorem timeAndReferenceReadout : Obligations.TimeAndReferenceReadout := by
  refine ⟨yesNo, yesNo_true_ne_false, fun s => ⟨fun take sub => ?timeRead, fun take => ?refRead⟩⟩
  case timeRead =>
    have reads := timeReadAct_of_sub_lt (s := arrived .timeRead s) (by rwa [arrived_tb])
    simp only [arrived_localSecs, arrived_now, arrived_tb, arrived_cal] at reads
    exact (exec_timeRead s).trans (request_answers take rfl reads)
  case refRead =>
    refine (exec_refRead s).trans (request_answers take rfl ?_)
    simp only [refReadAct, answer, arrived_ref, arrived_tb]

end

section
/-! The readout of a dial (R48). -/

namespace Sys2Proof.Machine

theorem exec_dialRead (n : Nat) (s : State) : exec (.dialRead n) s = request (.dialRead n) (dialReadAct n) s := rfl

/-- A request that arrives leaves each dial's record as it stands. -/
@[simp] theorem arrived_dial (i : Instr) (s : State) (n : Nat) : (arrived i s).dial n = s.dial n := by
  simp only [State.dial, arrived_dials]

/-- A request that arrives leaves each dial's configuration as it stands. -/
@[simp] theorem arrived_dialCfg (i : Instr) (s : State) (n : Nat) : (arrived i s).dialCfg n = s.dialCfg n := by
  simp only [State.dialCfg, arrived_cfg]

/-- A dial's target position is one of the local time and its step, so a request that arrives leaves it (R38). -/
@[simp] theorem dialTarget_arrived (i : Instr) (s : State) (n : Nat) : dialTarget (arrived i s) n = dialTarget s n := by
  simp only [dialTarget, arrived_localSecs, arrived_dialCfg]

@[simp] theorem dialDiff_arrived (i : Instr) (s : State) (n p : Nat) : dialDiff (arrived i s) n p = dialDiff s n p := by
  simp only [dialDiff, dialTarget_arrived, arrived_dialCfg]

/-- The reported state follows from the record, the configuration and the difference, none of them of the line (R39). -/
@[simp] theorem dialState_arrived (i : Instr) (s : State) (n : Nat) : dialState (arrived i s) n = dialState s n := by
  simp only [dialState, arrived_dial, arrived_dialCfg, dialDiff_arrived]

end Sys2Proof.Machine

open Sys2Proof Sys2Proof.Machine

/-- Settles O12: the position decides what stands for target and difference, and nothing that the effect reads is of the
line, which is all that the request's arrival changes. -/
theorem dialReadout : Obligations.DialReadout := by
  intro n s unit take
  refine (exec_dialRead n s).trans (request_answers take rfl ?_)
  cases pos : (s.dial n).pos with
  | none => simp only [dialReadAct, unit, arrived_dial, arrived_dialCfg, dialState_arrived, pos]; rfl
  | some p =>
    simp only [dialReadAct, unit, arrived_dial, arrived_dialCfg, dialTarget_arrived, dialDiff_arrived, dialState_arrived, pos]
    rfl

end

section
/-! The readouts of a bell and of its claim list (R68, R76). -/

namespace Sys2Proof.Machine

theorem exec_bellRead (b : Nat) (s : State) : exec (.bellRead b) s = request (.bellRead b) (bellReadAct b) s := rfl

theorem exec_claimRead (b : Nat) (s : State) : exec (.claimRead b) s = request (.claimRead b) (claimReadAct b) s := rfl

/-- A request that arrives leaves each bell's operational part as it stands. -/
@[simp] theorem arrived_bell (i : Instr) (s : State) (b : Nat) : (arrived i s).bell b = s.bell b := by
  simp only [State.bell, arrived_bells]

/-- A request that arrives leaves each bell's configuration as it stands. -/
@[simp] theorem arrived_bellCfg (i : Instr) (s : State) (b : Nat) : (arrived i s).bellCfg b = s.bellCfg b := by
  simp only [State.bellCfg, arrived_cfg]

/-- A request that arrives leaves the record under each id as it stands. -/
@[simp] theorem arrived_perf (i : Instr) (s : State) (id : Nat) : (arrived i s).perf id = s.perf id := by
  simp only [State.perf, arrived_perfs]

/-- A claim record is reported with the kind of its performance, so a request that arrives leaves its fields (R76). -/
@[simp] theorem claimFields_arrived (i : Instr) (s : State) : claimFields (arrived i s) = claimFields s := by
  funext c
  simp only [claimFields, arrived_perf]

/-- The last stroke's instant is reported as the statement of R68 writes it. -/
theorem pastField_eq (t : Option Nat) : pastField t = match t with | none => .word "LONGPAST" | some k => .num k := by
  cases t with
  | none => rfl
  | some k => rfl

/-- The holder that BELL READ reports is the performance of the top claim (R68). -/
theorem optNum_topClaim (l : List Claim) :
    optNum (l.head?.map (·.perf)) = match l with | [] => .absent | c :: _ => .num c.perf := by
  cases l with
  | nil => rfl
  | cons c l => rfl

/-- CLAIM READ of a bell that does not exist is refused RANGE (R76). -/
theorem claimReadAct_of_not_unitOk {b : Nat} (s : State) (unit : unitOk 24 b = false) :
    claimReadAct b s = refuse .range s := by
  simp only [claimReadAct, unit, Bool.not_false, if_true]

/-- CLAIM READ of a bell without a claim begins with NONE (R76). -/
theorem claimReadAct_of_no_claim {b : Nat} {s : State} (unit : unitOk 24 b = true) (free : (s.bell b).claims = []) :
    claimReadAct b s = answer
      [.word "NONE", .num (s.perfs.filter fun p => p.state = .waiting && bellIn p.bells b).length] s := by
  simp only [claimReadAct, unit, free, Bool.not_true, Bool.false_eq_true, if_false, List.isEmpty_nil, if_true,
    List.singleton_append]

/-- CLAIM READ of a bell with claims gives each record's fields, in the order of the list (R76). -/
theorem claimReadAct_of_claims {b : Nat} {s : State} (unit : unitOk 24 b = true) (held : (s.bell b).claims ≠ []) :
    claimReadAct b s = answer
      ((s.bell b).claims.flatMap (claimFields s) ++
        [.num (s.perfs.filter fun p => p.state = .waiting && bellIn p.bells b).length]) s := by
  have some_claim : (s.bell b).claims.isEmpty = false := List.isEmpty_eq_false_iff.mpr held
  simp only [claimReadAct, unit, some_claim, Bool.not_true, Bool.false_eq_true, if_false]

end Sys2Proof.Machine

open Sys2Proof Sys2Proof.Machine

/-- Settles O13: a held stroke is reported as YES with its planned instant, no held stroke as NO and "-"; the claim list
decides what CLAIM READ begins with. Nothing that the effects read is of the line, which is all that the request's arrival
changes. -/
theorem bellAndClaimReadout : Obligations.BellAndClaimReadout := by
  refine ⟨⟨.word "YES", [.word "NO", .absent], by decide, fun b s unit take => ?bellRead⟩,
    fun b s take => ⟨fun unit => ?range, fun unit => ⟨fun free => ?none, fun held => ?claims⟩⟩⟩
  case bellRead =>
    refine (exec_bellRead b s).trans (request_answers take rfl ?_)
    simp only [bellReadAct, unit, arrived_bell, arrived_bellCfg, pastField_eq, optNum_topClaim]
    cases (s.bell b).held with
    | none => rfl
    | some h => rfl
  case range => exact (exec_claimRead b s).trans (request_answers take rfl (claimReadAct_of_not_unitOk _ unit))
  case none =>
    have reads := claimReadAct_of_no_claim (s := arrived (.claimRead b) s) unit (by rwa [arrived_bell])
    rw [arrived_perfs] at reads
    exact (exec_claimRead b s).trans (request_answers take rfl reads)
  case claims =>
    have reads := claimReadAct_of_claims (s := arrived (.claimRead b) s) unit (by rwa [arrived_bell])
    rw [arrived_bell, claimFields_arrived, arrived_perfs] at reads
    exact (exec_claimRead b s).trans (request_answers take rfl reads)

end

section
/-! What every command keeps: the laws of the timebase (R1, R2, R12, R13, R19), of the bounded tables (R78, R142, R190), of
the claim lists (R69), the lamps (R175, R180), the dials (R37) and the sectors (R141), said of the fields they are about. -/

namespace Sys2Proof.Machine

/-! ### The laws, by fields -/

/-- The timebase's ranges (`TimeOk`), said of the timebase, the backup accumulator and the pending mark alone. -/
structure TimeRanges (tb : Timebase) (back : Int) (mark : Option Mark) : Prop where
  secs : tb.secs < spanSecs
  sub : tb.sub ≤ 1000000
  trim : -50000 ≤ tb.trim ∧ tb.trim ≤ 50000
  acc : -999 ≤ tb.acc ∧ tb.acc ≤ 999
  back : -999 ≤ back ∧ back ≤ 999
  slew : ∀ e, tb.slew = some e → -1000 ≤ e ∧ e ≤ 1000
  len : 998950 ≤ tb.len ∧ tb.len ≤ 1001050
  mark : ∀ m, mark = some m → m.secs < spanSecs

theorem timeOk_iff {s : State} : TimeOk s ↔ TimeRanges s.tb s.power.backAcc s.ref.mark :=
  ⟨fun ⟨a, b, c, d, e, f, g, h⟩ => ⟨a, b, c, d, e, f, g, h⟩, fun ⟨a, b, c, d, e, f, g, h⟩ => ⟨a, b, c, d, e, f, g, h⟩⟩

/-- At most two places and 8 marks in the order of replies (R190). -/
def SlotBounds (l : List LineSlot) : Prop :=
  (l.filter LineSlot.holdsPlace).length ≤ 2 ∧ (l.filter fun x => !x.holdsPlace).length ≤ 8

theorem boundsOk_iff {s : State} :
    BoundsOk s ↔ SlotBounds s.line.slots ∧ s.store.queue.length ≤ 8 ∧ TableOk s.perfs :=
  ⟨fun ⟨a, b, c, d⟩ => ⟨⟨a, b⟩, c, d⟩, fun ⟨⟨a, b⟩, c, d⟩ => ⟨a, b, c, d⟩⟩

/-- A dial's step is 30 or 60 s (R35). -/
def StepOk (n : Nat) : Prop := n = 30 ∨ n = 60

/-- Every configuration held keeps its ranges (`HeldOk`), said of the fields that hold one. -/
structure HeldRanges (cfg : Settings) (images : List Image) (restart : Restart) (dials : Vector Dial 4) : Prop where
  cfg : SettingsOk cfg
  images : ∀ im ∈ images, SettingsOk im.settings
  restart : ∀ im ∈ restart.images, SettingsOk im.settings
  steps : ∀ n, unitOk 4 n = true → StepOk (rd dials n (coldDial defaultDial)).step

theorem heldOk_iff {s : State} : HeldOk s ↔ HeldRanges s.cfg s.store.images s.line.restart s.dials := by
  constructor
  · rintro ⟨c, d⟩
    simp only [State.heldSettings, List.mem_cons, List.mem_map, List.mem_append] at c
    exact ⟨c _ (.inl rfl), fun im h => c _ (.inr ⟨im, .inl h, rfl⟩), fun im h => c _ (.inr ⟨im, .inr h, rfl⟩), d⟩
  · rintro ⟨c, i, r, d⟩
    refine ⟨fun x hx => ?_, d⟩
    simp only [State.heldSettings, List.mem_cons, List.mem_map, List.mem_append] at hx
    obtain rfl | ⟨im, h | h, rfl⟩ := hx
    · exact c
    · exact i im h
    · exact r im h

/-- The law of the dials' records: the step retained is the configured one, and a known position lies below P (R37). -/
structure DialRanges (cfg : Vector DialCfg 4) (dials : Vector Dial 4) : Prop where
  steps : ∀ n, unitOk 4 n = true → (rd dials n (coldDial defaultDial)).step = (rd cfg n defaultDial).step
  range : ∀ n p, unitOk 4 n = true → (rd dials n (coldDial defaultDial)).pos = some p →
    p < 43200 / (rd cfg n defaultDial).step

theorem dialsOk_iff {s : State} : DialsOk s ↔ HeldOk s ∧ NoScan s.store ∧ DialRanges s.cfg.dials s.dials :=
  ⟨fun ⟨a, b, c, d⟩ => ⟨a, b, c, d⟩, fun ⟨a, b, c, d⟩ => ⟨a, b, c, d⟩⟩

/-! ### What is kept -/

/-- From `s` to `t` the queue of commands stands, and the laws that no phase of main power suspends are kept. -/
structure Always (s t : State) : Prop where
  pending : t.pending = s.pending
  time : TimeRanges s.tb s.power.backAcc s.ref.mark → TimeRanges t.tb t.power.backAcc t.ref.mark
  slots : SlotBounds s.line.slots → SlotBounds t.line.slots
  queue : s.store.queue.length ≤ 8 → t.store.queue.length ≤ 8
  perfs : TableOk s.perfs → TableOk t.perfs
  held : HeldRanges s.cfg s.store.images s.line.restart s.dials → HeldRanges t.cfg t.store.images t.line.restart t.dials
  claims : HeldRanges s.cfg s.store.images s.line.restart s.dials → ClaimListsOk s.bells s.nextOrder s.perfs →
    ClaimListsOk t.bells t.nextOrder t.perfs
  lamps : HeldRanges s.cfg s.store.images s.line.restart s.dials → LightsOk s.lights → LightsOk t.lights

/-- Every law is kept: the dials and the sectors where main power is on. -/
structure Laws (s t : State) : Prop extends Always s t where
  scan : s.power.phase = .on → NoScan s.store → NoScan t.store
  dials : s.power.phase = .on → HeldRanges s.cfg s.store.images s.line.restart s.dials → NoScan s.store →
    DialRanges s.cfg.dials s.dials → DialRanges t.cfg.dials t.dials
  sectors : s.power.phase = .on → SectorListsOk s.store → SectorListsOk t.store

/-- The laws are kept, the run clock does not go back (R3), and main power stays on. -/
structure Keeps (s t : State) : Prop extends Laws s t where
  run : s.tb.runUs ≤ t.tb.runUs
  phase : s.power.phase = .on → t.power.phase = .on

theorem Always.rfl {s : State} : Always s s :=
  { pending := Eq.refl _, time := id, slots := id, queue := id, perfs := id, held := id, claims := fun _ h => h
    lamps := fun _ h => h }

theorem Always.trans {s t u : State} (h : Always s t) (k : Always t u) : Always s u where
  pending := k.pending.trans h.pending
  time := k.time ∘ h.time
  slots := k.slots ∘ h.slots
  queue := k.queue ∘ h.queue
  perfs := k.perfs ∘ h.perfs
  held := k.held ∘ h.held
  claims c l := k.claims (h.held c) (h.claims c l)
  lamps c l := k.lamps (h.held c) (h.lamps c l)

theorem Laws.rfl {s : State} : Laws s s :=
  { Always.rfl with scan := fun _ h => h, dials := fun _ _ _ h => h, sectors := fun _ h => h }

theorem Keeps.rfl {s : State} : Keeps s s := { Laws.rfl with run := Nat.le_refl _, phase := id }

theorem Laws.trans {s t u : State} (h : Laws s t) (k : Laws t u) (on : s.power.phase = .on → t.power.phase = .on) :
    Laws s u :=
  { h.toAlways.trans k.toAlways with
    scan := fun p n => k.scan (on p) (h.scan p n)
    dials := fun p c n d => k.dials (on p) (h.held c) (h.scan p n) (h.dials p c n d)
    sectors := fun p l => k.sectors (on p) (h.sectors p l) }

theorem Keeps.trans {s t u : State} (h : Keeps s t) (k : Keeps t u) : Keeps s u :=
  { h.toLaws.trans k.toLaws h.phase with run := Nat.le_trans h.run k.run, phase := k.phase ∘ h.phase }

/-- The same, the last operation first: where the state before it is read off the state after it. -/
theorem Keeps.after {s t u : State} (k : Keeps t u) (h : Keeps s t) : Keeps s u := h.trans k

/-- An operation that leaves the time, the configuration and the dials alone keeps everything. -/
theorem Quiet.keeps {s t : State} (h : Quiet s t) : Keeps s t where
  pending := h.pending
  time := by rw [h.tb, h.power, h.ref]; exact id
  slots := by rw [h.line]; exact id
  queue := h.queue
  perfs := h.perfs
  held k := by
    rw [h.cfg, h.dials, h.line]
    exact { k with images := fun im hi => k.images im (h.images im hi) }
  claims k := h.claims k.cfg
  lamps k := h.lamps k.cfg
  scan _ := h.scan
  dials _ _ _ := by rw [h.cfg, h.dials]; exact id
  sectors _ := h.sectors
  run := by rw [h.tb]
  phase := by rw [h.power]; exact id

theorem Struck.keeps {s t : State} (h : Struck s t) : Keeps s t := h.toQuiet.keeps

/-! ### Writes that are no law's matter, or one's alone -/

/-- A write of the timebase, or of the reference record: the ranges of R1, R2, R12 and R13 are all it can touch. -/
theorem Keeps.ofTime {s : State} {tb : Timebase} {ref : RefMon} {n : Nat}
    (h : TimeRanges s.tb s.power.backAcc s.ref.mark → TimeRanges tb s.power.backAcc ref.mark)
    (r : s.tb.runUs ≤ tb.runUs) : Keeps s { s with tb := tb, ref := ref, drawn := n } :=
  { Keeps.rfl (s := s) with time := h, run := r }

/-- A write of what the reference monitor follows, the pending mark kept or gone. -/
theorem Keeps.ofRef {s : State} {ref : RefMon} {n : Nat}
    (h : ∀ m, ref.mark = some m → s.ref.mark = some m := by exact fun _ h => h) :
    Keeps s { s with ref := ref, drawn := n } :=
  Keeps.ofTime (fun k => { k with mark := fun m e => k.mark m (h m e) }) (Nat.le_refl _)

/-- A write of the line that keeps its order of replies and any RESTART. -/
theorem Keeps.ofLine {s : State} {l : Line} (h : SlotBounds s.line.slots → SlotBounds l.slots)
    (r : l.restart = s.line.restart) : Keeps s { s with line := l } :=
  { Keeps.rfl (s := s) with slots := h, held := fun k => by rw [r]; exact k }

/-- A write of the calendar, the drives, the schedule, the panel keys or the clock. -/
theorem Keeps.ofFree {s : State} {cal : Calendar} {drives : Vector Drive 4} {sched : Schedule} {keys : Keys}
    {clock : ClockUnit} : Keeps s { s with cal := cal, drives := drives, sched := sched, keys := keys, clock := clock } :=
  { Keeps.rfl (s := s) with }

/-- A write of the lights. -/
theorem Keeps.ofLights {s : State} {l : Lights} (h : SettingsOk s.cfg → LightsOk s.lights → LightsOk l) :
    Keeps s { s with lights := l } :=
  { Keeps.rfl (s := s) with lamps := fun k => h k.cfg }

/-- A write of the configuration that keeps its ranges and the dials' part. -/
theorem Keeps.ofCfg {s : State} {c : Settings} (h : SettingsOk s.cfg → SettingsOk c) (d : c.dials = s.cfg.dials) :
    Keeps s { s with cfg := c } :=
  { Keeps.rfl (s := s) with held := fun k => { k with cfg := h k.cfg }, dials := fun _ _ _ k => by rw [d]; exact k }

/-- A write of the store, where each of its laws is kept. -/
theorem Keeps.ofStore {s : State} {st : Store} (q : s.store.queue.length ≤ 8 → st.queue.length ≤ 8)
    (i : ∀ im ∈ st.images, im ∈ s.store.images) (n : NoScan s.store → NoScan st)
    (l : SectorListsOk s.store → SectorListsOk st) : Keeps s { s with store := st } :=
  { Keeps.rfl (s := s) with
    queue := q, held := fun k => { k with images := fun im h => k.images im (i im h) }, scan := fun _ => n
    sectors := fun _ => l }

/-! ### Time, the line, the frames of the commands -/

/-- Time that passes within the second in progress (R2, R3). -/
theorem count_keeps (s : State) (j : Nat) : Keeps s { s with tb := s.tb.count j } :=
  Keeps.ofTime (ref := s.ref) (n := s.drawn) (fun k => { k with sub := count_sub k.sub j }) (count_runUs_le _ _)

theorem elapse_keeps {w : Nat} {s u : State} (h : elapse w s = some u) : Keeps s u := by
  obtain rfl | rfl := elapse_eq h
  · exact Keeps.rfl
  · exact count_keeps s w

theorem reachUs_keeps {d : Nat} {s u : State} (h : reachUs d s = some u) : Keeps s u := by
  obtain rfl | ⟨j, rfl⟩ := reachUs_eq h
  · exact Keeps.rfl
  · exact count_keeps s j

theorem pumped_keeps (s : State) : Keeps s { s with line := s.line.pumped } :=
  Keeps.ofLine (by rw [pumped_slots]; exact id) (by rw [pumped_eq])

theorem pump_keeps (s : State) : Keeps s (pump s) := by
  rw [pump_eq, pump_line]
  split
  · exact pumped_keeps s
  · exact Keeps.rfl

theorem notify_keeps (c : NoticeClass) (f : List Field) (s : State) : Keeps s (notify c f s) := (notify_struck c f s).keeps

/-- A line that holds a place is placed only while there is one for it, or as a mark while fewer than 8 stand (R190). -/
theorem placed_bounds {l : Line} {x : LineSlot} (hx : x.holdsPlace = true) (h : SlotBounds l.slots) :
    SlotBounds (l.placed x).slots := by
  obtain ⟨places, marks⟩ := h
  simp only [Line.placed]
  split
  next room =>
    simp only [Line.places] at room
    refine ⟨?_, ?_⟩
    · rw [List.filter_append, List.length_append, List.filter_cons_of_pos hx]; exact room
    · rw [List.filter_append, List.length_append, List.filter_cons_of_neg (by simp [hx])]; exact marks
  next full =>
    split
    next room =>
      simp only [Line.marks] at room
      refine ⟨?_, ?_⟩
      · rw [List.filter_append, List.length_append]; exact places
      · rw [List.filter_append, List.length_append]; exact room
    next => exact ⟨places, marks⟩

/-- What is bounded is which of the lines hold a place. -/
theorem SlotBounds.congr {l m : List LineSlot} (e : m.map LineSlot.holdsPlace = l.map LineSlot.holdsPlace)
    (h : SlotBounds l) : SlotBounds m := by
  have places : ∀ k : List LineSlot, (k.filter LineSlot.holdsPlace).length = (k.map LineSlot.holdsPlace).countP id := by
    intro k; rw [List.countP_map, List.countP_eq_length_filter]; rfl
  have marks : ∀ k : List LineSlot,
      (k.filter fun x => !x.holdsPlace).length = (k.map LineSlot.holdsPlace).countP (!·) := by
    intro k; rw [List.countP_map, List.countP_eq_length_filter]; rfl
  simpa only [SlotBounds, places, marks, e] using h

theorem SlotBounds.drop {l : List LineSlot} (n : Nat) (h : SlotBounds l) : SlotBounds (l.drop n) :=
  ⟨Nat.le_trans ((List.drop_sublist n l).filter _).length_le h.1,
    Nat.le_trans ((List.drop_sublist n l).filter _).length_le h.2⟩

/-- The oldest untaken line's place stays a place (R190). -/
theorem takeOldest_holds {x : LineSlot} (hx : x.holdsPlace = true) (l : List LineSlot) :
    (takeOldest x l).map LineSlot.holdsPlace = l.map LineSlot.holdsPlace := by
  induction l with
  | nil => rfl
  | cons y l ih =>
    cases y with
    | waiting i t => rw [takeOldest, List.map_cons, List.map_cons, hx]; rfl
    | busy | ready | overrun => simp only [takeOldest, List.map_cons, ih]

/-- The place of the RESTART in progress stays a place (R200). -/
theorem answerBusy_holds {x : LineSlot} (hx : x.holdsPlace = true) (l : List LineSlot) :
    (answerBusy x l).map LineSlot.holdsPlace = l.map LineSlot.holdsPlace := by
  induction l with
  | nil => rfl
  | cons y l ih =>
    cases y with
    | busy => rw [answerBusy, List.map_cons, List.map_cons, hx]; rfl
    | waiting | ready | overrun => simp only [answerBusy, List.map_cons, ih]

theorem placed_keeps {x : LineSlot} (hx : x.holdsPlace = true) (s : State) :
    Keeps s { s with line := s.line.placed x } :=
  Keeps.ofLine (placed_bounds hx) (by rw [placed_eq])

theorem arrived_keeps (i : Instr) (s : State) : Keeps s (arrived i s) := by
  simp only [arrived]
  split
  · exact Keeps.rfl
  · exact placed_keeps rfl s

theorem answered_keeps (r : Reply) (a : Option Nat) (s : State) :
    Keeps s { s with line := s.line.answered (.ready r a) } :=
  Keeps.ofLine (SlotBounds.congr (takeOldest_holds rfl _)) rfl

/-- A request keeps what its effect keeps: the lines around it are the order of replies (R190). -/
theorem request_keeps {i : Instr} {act : State → State × Reply}
    (h : ∀ s, i.wellFormed = true → Keeps s (act s).1) {s t : State} (e : request i act s = .next t) : Keeps s t := by
  cases c : canTake i s with
  | false =>
    by_cases p : s.power.phase = .on
    · rw [request_waits c p] at e
      cases e
      exact (placed_keeps rfl s).trans (pumped_keeps _)
    · rw [request_discarded c p] at e
      cases e
      exact Keeps.rfl
  | true =>
    cases w : i.wellFormed with
    | false =>
      rw [request_malformed c w] at e
      cases e
      have a := arrived_keeps i s
      rw [arrived_eq] at a
      exact a.trans ((answered_keeps _ _ _).trans (pumped_keeps _))
    | true =>
      simp only [request, c, w, if_true, done] at e
      cases e
      exact (arrived_keeps i s).trans ((h _ w).trans ((answered_keeps _ _ _).trans (pump_keeps _)))

/-- A configuration request keeps what its effect in SERVICE keeps. -/
theorem serviceOnly_keeps {act : State → State × Reply} {s : State} (h : Keeps s (act s).1) :
    Keeps s (serviceOnly act s).1 := by
  simp only [serviceOnly]
  split
  · exact Keeps.rfl
  · exact h

theorem done_keeps {s t : State} (e : done s = .next t) : Keeps s t := by
  cases e
  exact pump_keeps s

theorem timed_keeps {due : Option Nat} {body : State → State} {s t : State} (h : ∀ u, Keeps u (body u))
    (e : timed due body s = .next t) : Keeps s t := by
  obtain rfl | ⟨d, u, -, r, rfl⟩ := timed_next e
  · exact Keeps.rfl
  · exact (reachUs_keeps r).trans ((h u).trans (pump_keeps _))

theorem outside_keeps {w : Nat} {body : State → State} {s t : State} (h : ∀ u, Keeps u (body u))
    (e : outside w body s = .next t) : Keeps s t := by
  obtain ⟨u, r, rfl | ⟨-, rfl⟩⟩ := outside_next e
  · exact elapse_keeps r
  · exact (elapse_keeps r).trans ((h u).trans (pump_keeps _))

theorem ofUnit_next {n k : Nat} {o : Host.Outcome State Fault Refusal} {t : State} (e : ofUnit n k o = .next t) :
    unitOk n k = true ∧ o = .next t := by
  simp only [ofUnit] at e
  split at e
  next u => exact ⟨u, e⟩
  next => cases e

end Sys2Proof.Machine
end

section
/-! The Timebase and the Reference Monitor keep the laws (R1, R2, R4, R9 to R13). -/

namespace Sys2Proof.Machine

/-! ### Arithmetic of the second -/

/-- The remainder of a division that truncates toward zero lies within the divisor, on the side of the dividend (00_scope). -/
theorem truncDiv_rest (a : Int) {b : Nat} (h : 0 < b) :
    (0 ≤ a → 0 ≤ a - b * truncDiv a b ∧ a - b * truncDiv a b < b) ∧
      (a ≤ 0 → -(b : Int) < a - b * truncDiv a b ∧ a - b * truncDiv a b ≤ 0) := by
  simp only [truncDiv]
  split
  next p =>
    have m := Nat.div_add_mod a.toNat b
    have l := Nat.mod_lt a.toNat h
    generalize a.toNat / b = q at *
    have e : ((b * q : Nat) : Int) = b * (q : Int) := by push_cast; rfl
    omega
  next p =>
    have m := Nat.div_add_mod (-a).toNat b
    have l := Nat.mod_lt (-a).toNat h
    generalize (-a).toNat / b = q at *
    have e : ((b * q : Nat) : Int) = b * (q : Int) := by push_cast; rfl
    have e' : (b : Int) * -(q : Int) = -(b * (q : Int)) := by ring
    rw [e']
    omega

/-- A second that begins keeps the ranges: A is the rest of the division, and N follows from T, A and the slew (R2). -/
theorem TimeRanges.nextSecond {tb : Timebase} {back : Int} {m : Option Mark} (h : TimeRanges tb back m) :
    TimeRanges tb.nextSecond back m := by
  have r := truncDiv_rest (tb.acc + tb.trim) (b := 1000) (by decide)
  obtain ⟨secs, -, trim, acc, back, slew, -, mark⟩ := h
  have sl : -1000 ≤ tb.slew.getD 0 ∧ tb.slew.getD 0 ≤ 1000 := by
    cases e : tb.slew with
    | none => decide
    | some x => exact slew x e
  exact
    { secs := Nat.mod_lt _ (by decide), sub := Nat.zero_le _, trim := trim, back := back, slew := nofun, mark := mark
      acc := by simp only [Timebase.nextSecond]; omega
      len := by simp only [Timebase.nextSecond, Timebase.nextLen]; omega }

/-- The pending slew is limited to 1,000 µs (R12). -/
theorem clampI_range (x : Int) {lo hi : Int} (h : lo ≤ hi) : lo ≤ clampI x lo hi ∧ clampI x lo hi ≤ hi := by
  simp only [clampI]; omega

/-- An instant of the 73,049 days is one of their seconds and a subsecond of it (R1). -/
theorem TimeRanges.setStd {s : State} {t : Nat} {m : Option Mark} {c f : Bool} (h : t < spanUs)
    (k : TimeRanges s.tb s.power.backAcc m) :
    TimeRanges { s.tb with secs := t / 1000000, sub := t % 1000000, set := c, flag := f } s.power.backAcc m :=
  { k with
    secs := Nat.div_lt_of_lt_mul h
    sub := Nat.le_of_lt (Nat.mod_lt _ (by decide)) }

/-- The ranges with the mark gone, or kept. -/
theorem TimeRanges.mono {tb : Timebase} {back : Int} {m n : Option Mark} (h : TimeRanges tb back m)
    (k : ∀ x, n = some x → m = some x) : TimeRanges tb back n := { h with mark := fun x e => h.mark x (k x e) }

theorem wrapUs_lt (t : Int) : wrapUs t < spanUs := by
  have : (0 : Int) < spanUs := by decide
  have := Int.emod_lt_of_pos t this
  have := Int.emod_nonneg t (b := spanUs) (by decide)
  simp only [wrapUs]; omega

/-! ### Steps and seconds -/

theorem recalc_keeps (s : State) : Keeps s (recalc s) :=
  (Keeps.ofTime (s := s) (tb := { s.tb with flag := inForce s.cfg.summer s.tb.secs }) (ref := s.ref) (n := s.drawn)
    (fun k => { k with }) (Nat.le_refl _)).trans { Keeps.rfl with }

/-- The minute boundary that a step or a second may reach (R4, R160). -/
theorem announceBoundaryIf_keeps (b : Bool) (s : State) : Keeps s (if b = true then announceBoundary s else s) := by
  split
  · exact (announceBoundary_quiet s).keeps
  · exact Keeps.rfl

@[simp] theorem stepped_mark (r : RefMon) (c : StepCause) (a b : Nat) : (r.stepped c a b).mark = r.mark := by
  simp only [RefMon.stepped]
  repeat' split
  all_goals rfl

/-- A step keeps the laws: standard time wraps within its days, and the announcements are Quiet (R1, R4). -/
theorem stepStd_keeps (d : Int) (c : StepCause) (s : State) : Keeps s (stepStd d c s) := by
  have set : Keeps s { setStd (wrapUs (s.stdUs + d)) s with ref := s.ref.stepped c s.tb.sub (wrapUs (s.stdUs + d) % 1000000) } :=
    Keeps.ofTime (n := s.drawn) (fun k => by rw [stepped_mark]; exact k.setStd (wrapUs_lt _)) (Nat.le_refl _)
  unfold stepStd
  exact set.trans ((recalc_keeps _).trans ((wrapSchedule_quiet _ _).keeps.trans ((notify_keeps _ _ _).trans
    ((announceStep_quiet _ _ _).keeps.trans ((localChange_quiet _ _ _).keeps.trans
    ((announceWrap_quiet _ _).keeps.trans (announceBoundaryIf_keeps _ _)))))))

/-- The first setting keeps the laws, at an instant of the 73,049 days; the pending mark may go with it (R4, R16). -/
theorem firstSetting_keeps {t : Nat} {s : State} {ref : RefMon}
    (h : TimeRanges s.tb s.power.backAcc s.ref.mark → t < spanUs) (c : StepCause)
    (m : ∀ m, ref.mark = some m → s.ref.mark = some m := by exact fun _ h => h) :
    Keeps s (firstSetting t c { s with ref := ref }) := by
  have set : Keeps s { s with tb := { s.tb with secs := t / 1000000, sub := t % 1000000, set := true }, ref := ref } :=
    Keeps.ofTime (n := s.drawn)
      (fun k => (TimeRanges.setStd (h k) k).mono m) (Nat.le_refl _)
  unfold firstSetting
  exact set.trans ((recalc_keeps _).trans ((notify_keeps _ _ _).trans (announceSet_quiet _).keeps))

@[simp] theorem nextSecond_mark (r : RefMon) (e : Int) : (r.nextSecond e).mark = r.mark := by
  simp only [RefMon.nextSecond]
  repeat' split
  all_goals rfl

theorem endSecond_keeps (s : State) : Keeps s (endSecond s) := by
  have next : Keeps s { s with tb := s.tb.nextSecond, ref := s.ref.nextSecond (s.tb.slew.getD 0) } :=
    Keeps.ofTime (n := s.drawn) (fun k => by rw [nextSecond_mark]; exact k.nextSecond) (Nat.le_refl _)
  unfold endSecond
  exact next.trans ((recalc_keeps _).trans ((wrapSchedule_quiet _ _).keeps.trans ((localChange_quiet _ _ _).keeps.trans
    ((announceWrap_quiet _ _).keeps.trans (announceBoundaryIf_keeps _ _)))))

theorem trimUpdated_keeps (s : State) : Keeps s (trimUpdated s) := by
  have trimmed : Keeps s { s with
      tb := { s.tb with trim := clampI (s.tb.trim + roundHalfAway (1000 * s.ref.sum) 128) (-50000) 50000 }
      ref := { s.ref with sum := 0, cnt := 0 } } :=
    Keeps.ofTime (n := s.drawn) (fun k => { k with trim := clampI_range _ (by decide) }) (Nat.le_refl _)
  simp only [trimUpdated]
  split
  · exact trimmed.trans (notify_keeps _ _ _)
  · exact trimmed

theorem backupSecond_keeps (s : State) : Keeps s (backupSecond s) :=
  { Keeps.rfl (s := s) with
    time := fun k => by
      have r := truncDiv_rest (s.power.backAcc + s.tb.trim) (b := 1000) (by decide)
      obtain ⟨-, -, trim, acc, back, -, -, mark⟩ := k
      exact
        { secs := Nat.mod_lt _ (by decide), sub := Nat.zero_le _, trim := trim, acc := acc, slew := nofun, mark := mark
          back := by simp only [backupSecond]; omega
          len := by simp only [backupSecond]; omega } }

/-! ### The Reference Monitor -/

theorem refState_keeps (x : RefState) (s : State) : Keeps s (refState x s) :=
  Keeps.after (notify_keeps _ _ _) (Keeps.ofRef)

theorem phaseError_keeps (s : State) : Keeps s (phaseError s).2 := by
  simp only [phaseError]
  split
  · exact Keeps.ofRef (ref := s.ref)
  · exact Keeps.rfl

theorem measured_keeps (e : Int) (s : State) : Keeps s (measured e s) :=
  Keeps.ofTime (n := s.drawn)
    (fun k => { k with slew := fun x h => by cases h; exact clampI_range e (by decide) }) (Nat.le_refl _)

theorem enterHoldover_keeps (s : State) : Keeps s (enterHoldover s) :=
  Keeps.after (refState_keeps _ _) (Keeps.ofRef)

theorem holdoverTest_keeps (s : State) : Keeps s (holdoverTest s) := by
  simp only [holdoverTest]
  split
  · exact enterHoldover_keeps s
  · exact Keeps.rfl

/-- A phase error taken, with what drawing it leaves. -/
theorem phaseError_eq_keeps {s u : State} {e : Int} (h : phaseError s = (e, u)) : Keeps s u := by
  have := phaseError_keeps s
  rwa [h] at this

theorem enterLocked_keeps (s : State) : Keeps s (enterLocked s) := by
  unfold enterLocked
  cases h : phaseError s with | mk e u
  refine (phaseError_eq_keeps h).trans ?_
  dsimp only
  split
  · exact Keeps.trans Keeps.ofRef ((refState_keeps _ _).trans (measured_keeps _ _))
  · exact Keeps.trans Keeps.ofRef ((refState_keeps _ _).trans (Keeps.trans Keeps.ofRef ((stepStd_keeps _ _ _).trans Keeps.ofRef)))

/-- A mark of a valid second in ACQUIRING and HOLDOVER, where it may meet the lock criterion (R10). -/
theorem lockIf_keeps (s : State) : Keeps s (if lockCriterion s = true then enterLocked s else s) := by
  split
  · exact enterLocked_keeps _
  · exact Keeps.rfl

theorem markValid_keeps (s : State) : Keeps s (markValid s) := by
  unfold markValid
  dsimp only
  split
  · exact Keeps.trans Keeps.ofRef (Keeps.trans Keeps.ofRef (lockIf_keeps _))
  · exact Keeps.trans Keeps.ofRef (Keeps.trans Keeps.ofRef (lockIf_keeps _))
  · exact Keeps.trans Keeps.ofRef ((phaseError_keeps _).trans
      (Keeps.trans Keeps.ofRef ((measured_keeps _ _).trans (holdoverTest_keeps _))))
  · exact Keeps.ofRef

/-- A step of 0 is none (R4, log 37). -/
theorem stepIf_keeps (d : Int) (c : StepCause) (s : State) : Keeps s (if d = 0 then s else stepStd d c s) := by
  split
  · exact Keeps.rfl
  · exact stepStd_keeps _ _ _

/-- A pending mark applied keeps the laws: its time is one of the 73,049 days (R16). -/
theorem applyMark_keeps {m : Mark} {s : State} (h : s.ref.mark = some m) : Keeps s (applyMark m s) := by
  have gone : Keeps s { s with ref := { s.ref with mark := none } } := Keeps.ofRef (n := s.drawn) (h := nofun)
  unfold applyMark
  dsimp only
  split
  · have early : TimeRanges s.tb s.power.backAcc s.ref.mark → 1000000 * m.secs < spanUs := fun k => by
      have := k.mark m h
      simp only [spanUs]; omega
    exact (firstSetting_keeps early .mark (by exact nofun)).trans Keeps.ofRef
  · refine gone.trans ?_
    split
    case h_1 => exact (stepIf_keeps _ _ _).trans Keeps.ofRef
    case h_4 => exact Keeps.rfl
    all_goals
      refine (phaseError_keeps _).trans ?_
      split
      · exact Keeps.ofRef
      · split
        · exact Keeps.trans Keeps.ofRef ((notify_keeps _ _ _).trans ((stepIf_keeps _ _ _).trans Keeps.ofRef))
        · exact Keeps.trans Keeps.ofRef (notify_keeps _ _ _)

/-- What a judged pulse leaves (R9, R10). -/
theorem judged_keeps (j : Judgement) (s : State) : Keeps s (match j with
    | .valid => markValid s
    | .cadenceStart => { s with ref := { s.ref with cadence := some (s.tb.osc + 1000000), cadMiss := 0 } }
    | .stray => s) := by
  cases j with
  | valid => exact markValid_keeps s
  | cadenceStart => exact Keeps.ofRef
  | stray => exact Keeps.rfl

theorem refPulse_keeps (s : State) : Keeps s (refPulse s) := by
  unfold refPulse
  refine Keeps.after (judged_keeps _ _) ?_
  split
  next h _ => exact applyMark_keeps h
  next h _ => exact applyMark_keeps h
  next => exact Keeps.rfl

theorem secondMissing_keeps (s : State) : Keeps s (secondMissing s) := by
  unfold secondMissing
  dsimp only
  split
  · exact Keeps.ofRef
  · exact Keeps.trans Keeps.ofRef (holdoverTest_keeps _)
  all_goals
    split
    · exact Keeps.ofRef
    · split
      · exact Keeps.ofRef
      · exact Keeps.ofRef

theorem markExpired_keeps (s : State) : Keeps s (markExpired s) :=
  (Keeps.ofRef (n := s.drawn) (ref := { s.ref with mark := none }) (h := nofun)).trans (notify_keeps _ _ _)

/-! ### Requests -/

theorem refOffAct_keeps (s : State) : Keeps s (refOffAct s).1 := by
  unfold refOffAct
  split
  · exact Keeps.rfl
  · exact Keeps.trans Keeps.ofRef (refState_keeps _ _)

theorem refOnAct_keeps (s : State) : Keeps s (refOnAct s).1 := by
  unfold refOnAct
  split
  · exact Keeps.trans Keeps.ofRef (refState_keeps _ _)
  · exact Keeps.rfl

/-- A local time that is converted gives an instant of the 73,049 days (R14). -/
theorem localToStd_lt {r : SummerRule} {l t : Nat} {z : Option Zone} (h : localToStd r l z = some t) : t < spanSecs := by
  unfold localToStd at h
  split at h
  · split at h
    next k => cases h; exact k
    next => cases h
  · split at h
    next k => cases h; exact k.2
    next => cases h
  · split at h
    next k => cases h; omega
    next =>
      split at h
      next k => cases h; exact k.1
      next => cases h

theorem convert_lt {s : State} {d : DateF} {t : TimeF} {z : Option Zone} {l : Nat} (h : convert s d t z = some l) :
    l < spanSecs := by
  unfold convert at h
  split at h
  · exact localToStd_lt h
  · cases h

@[simp] theorem timeSet_mark (r : RefMon) : r.timeSet.mark = r.mark := by
  simp only [RefMon.timeSet]
  split <;> rfl

theorem setTime_keeps {t : Nat} (h : t < spanUs) (s : State) : Keeps s (setTime t s).1 := by
  unfold setTime
  split
  · exact (firstSetting_keeps (fun _ => h) _).trans (Keeps.ofRef (h := by rw [timeSet_mark]; exact fun _ h => h))
  · exact (stepIf_keeps _ _ _).trans (Keeps.ofRef (h := by rw [timeSet_mark]; exact fun _ h => h))

theorem timeSetAct_keeps {d : DateF} {t : TimeF} {z : Option Zone} (w : t.ms ≤ 999) (s : State) :
    Keeps s (timeSetAct d t z s).1 := by
  unfold timeSetAct
  split
  · exact Keeps.rfl
  next l e =>
    have := convert_lt e
    exact setTime_keeps (by simp only [spanUs]; omega) s

theorem markAct_keeps (d : DateF) (t : TimeF) (z : Option Zone) (s : State) : Keeps s (markAct d t z s).1 := by
  unfold markAct
  split
  · exact Keeps.rfl
  next l e =>
    exact Keeps.ofTime (n := s.drawn) (fun k => { k with mark := fun m h => by cases h; exact convert_lt e }) (Nat.le_refl _)

end Sys2Proof.Machine
end

section
/-! The requests and events of the calendar, the dials, the bells, the performances, the clock, the swing drives, the
schedule and the line keep the laws. -/

namespace Sys2Proof.Machine

/-! ### Calendar -/

theorem afterRule_keeps (old : Bool) (o : Nat) (s : State) : Keeps s (afterRule old o s) :=
  (recalc_keeps s).trans (localChange_quiet _ _ _).keeps

theorem writeSettings_keeps {c : Settings} {s : State} (h : SettingsOk s.cfg → SettingsOk c)
    (d : c.dials = s.cfg.dials) : Keeps s (writeSettings c s) :=
  (Keeps.ofCfg h d).trans (afterRule_keeps _ _ _)

theorem summerAct_keeps (r : SummerRule) (s : State) : Keeps s (summerAct r s).1 := by
  refine serviceOnly_keeps ?_
  dsimp only
  split
  · exact writeSettings_keeps (fun k => { k with }) rfl
  · exact Keeps.rfl

theorem sunAct_keeps (k rise set : Nat) (s : State) : Keeps s (sunAct k rise set s).1 := by
  refine serviceOnly_keeps ?_
  dsimp only
  split
  · exact writeSettings_keeps (fun k => { k with }) rfl
  · exact Keeps.rfl

/-! ### Dials -/

theorem DialRanges.set {cfg : Vector DialCfg 4} {dials : Vector Dial 4} {n : Nat} {x : Dial} (u : unitOk 4 n = true)
    (h : DialRanges cfg dials) (st : x.step = (rd cfg n defaultDial).step)
    (pos : ∀ p, x.pos = some p → p < 43200 / (rd cfg n defaultDial).step) : DialRanges cfg (wr dials n x) where
  steps k hk := by
    by_cases e : k = n
    · rw [e, rd_wr_same u, st]
    · rw [rd_wr_ne (unitOk_iff.mp hk).1 e, h.steps k hk]
  range k p hk hp := by
    by_cases e : k = n
    · rw [e, rd_wr_same u] at hp
      rw [e]; exact pos p hp
    · rw [rd_wr_ne (unitOk_iff.mp hk).1 e] at hp
      exact h.range k p hk hp

/-- A dial's circle has positions: 720 or 1,440 of them (R35). -/
theorem positions_pos {s : State} {n : Nat} (h : SettingsOk s.cfg) (u : unitOk 4 n = true) :
    0 < positions (s.dialCfg n) := by
  obtain e | e := h.steps n u
  · simp only [positions, State.dialCfg, e]; decide
  · simp only [positions, State.dialCfg, e]; decide

/-- A dial's record written with its retained step, its position still below P, keeps the laws (R37). -/
theorem setDial_keeps {n : Nat} {x : Dial} {s : State} (u : unitOk 4 n = true)
    (st : x.step = (s.dial n).step := by rfl)
    (pos : 0 < positions (s.dialCfg n) → (∀ p, (s.dial n).pos = some p → p < positions (s.dialCfg n)) →
      ∀ p, x.pos = some p → p < positions (s.dialCfg n) := by exact fun _ h => h) : Keeps s (setDial n x s) :=
  { Keeps.rfl (s := s) with
    held := fun k =>
      { k with
        steps := fun m hm => by
          by_cases e : m = n
          · show StepOk (rd (wr s.dials n x) m _).step
            rw [e, rd_wr_same u, st]; exact k.steps n u
          · show StepOk (rd (wr s.dials n x) m _).step
            rw [rd_wr_ne (unitOk_iff.mp hm).1 e]; exact k.steps m hm }
    dials := fun _ k _ d =>
      d.set u (st.trans (d.steps n u)) (pos (positions_pos k.cfg u) fun p => d.range n p u) }

theorem noonFieldChanged_pos (old new : DialCfg) (x : Dial) : (noonFieldChanged old new x).pos = x.pos := by
  simp only [noonFieldChanged]
  repeat' split
  all_goals rfl

theorem SettingsOk.dial {c : Settings} {n : Nat} {x : DialCfg} (h : SettingsOk c) (u : unitOk 4 n = true)
    (k : StepOk x.step) : SettingsOk { c with dials := wr c.dials n x } :=
  { h with
    steps := fun m hm => by
      by_cases e : m = n
      · rw [e, rd_wr_same u]; exact k
      · rw [rd_wr_ne (unitOk_iff.mp hm).1 e]; exact h.steps m hm }

/-- A dial's configuration is taken with a step of 30 or 60 s, the standing one where the position is known (R35). -/
theorem configureDial_keeps {n : Nat} {c : DialCfg} {s : State} (u : unitOk 4 n = true) (k : StepOk c.step)
    (known : (s.dial n).pos.isSome → (s.dialCfg n).step = c.step) : Keeps s (configureDial n c s) :=
  { Keeps.rfl (s := s) with
    held := fun h =>
      { h with
        cfg := h.cfg.dial u k
        steps := fun m hm => by
          by_cases e : m = n
          · show StepOk (rd (wr s.dials n _) m _).step
            rw [e, rd_wr_same u]; exact k
          · show StepOk (rd (wr s.dials n _) m _).step
            rw [rd_wr_ne (unitOk_iff.mp hm).1 e]; exact h.steps m hm }
    dials := fun _ _ _ d =>
      { steps := fun m hm => by
          show (rd (wr s.dials n _) m _).step = (rd (wr s.cfg.dials n c) m _).step
          by_cases e : m = n
          · rw [e, rd_wr_same u, rd_wr_same u]
          · rw [rd_wr_ne (unitOk_iff.mp hm).1 e, rd_wr_ne (unitOk_iff.mp hm).1 e]; exact d.steps m hm
        range := fun m p hm hp => by
          change (rd (wr s.dials n _) m _).pos = some p at hp
          show p < 43200 / (rd (wr s.cfg.dials n c) m _).step
          by_cases e : m = n
          · rw [e, rd_wr_same u] at hp
            rw [e, rd_wr_same u]
            have hp : (s.dial n).pos = some p := (noonFieldChanged_pos _ _ _).symm.trans hp
            have := d.range n p u hp
            rwa [← known (by rw [hp]; rfl)]
          · rw [rd_wr_ne (unitOk_iff.mp hm).1 e] at hp ⊢
            exact d.range m p hm hp } }

theorem dialConfigAct_keeps (n : Nat) (c : DialCfg) (s : State) : Keeps s (dialConfigAct n c s).1 := by
  refine serviceOnly_keeps ?_
  split
  · exact Keeps.rfl
  next ok =>
    split
    · exact Keeps.rfl
    next known =>
      simp only [Bool.or_eq_true, Bool.not_eq_true', not_or, Bool.not_eq_false] at ok
      obtain ⟨u, k⟩ := ok
      have step : StepOk c.step := by
        simp only [dialOk, Bool.and_eq_true, Bool.or_eq_true, decide_eq_true_eq] at k
        exact k.1
      exact configureDial_keeps u step fun p => by
        by_contra ne
        exact known ⟨ne, p⟩

theorem seekOrUnknown_pos (c : DialCfg) (x : Dial) : (seekOrUnknown c x).pos = x.pos ∧ (seekOrUnknown c x).step = x.step := by
  simp only [seekOrUnknown]
  split
  · exact ⟨rfl, rfl⟩
  · exact ⟨rfl, rfl⟩

theorem dialPlaced_pos (c : DialCfg) (p : Option Nat) (pol : Option Polarity) (x : Dial) :
    (dialPlaced c p pol x).pos = p ∧ (dialPlaced c p pol x).step = x.step := by
  simp only [dialPlaced]
  cases p with
  | some p => exact ⟨rfl, rfl⟩
  | none =>
    dsimp only
    split
    · exact ⟨rfl, rfl⟩
    · exact seekOrUnknown_pos _ _

theorem dialSetAct_keeps (n : Nat) (p : Option Nat) (pol : Option Polarity) (s : State) :
    Keeps s (dialSetAct n p pol s).1 := by
  unfold dialSetAct
  split
  · exact Keeps.rfl
  next ok =>
    simp only [Bool.or_eq_true, Bool.not_eq_true', not_or, Bool.not_eq_false] at ok
    obtain ⟨u, below⟩ := ok
    refine setDial_keeps u (dialPlaced_pos _ _ _ _).2 fun _ _ q hq => ?_
    rw [(dialPlaced_pos _ _ _ _).1] at hq
    rw [hq, Option.any_some, decide_eq_true_eq] at below
    omega

theorem dialStopAct_keeps (n : Nat) (s : State) : Keeps s (dialStopAct n s).1 := by
  unfold dialStopAct
  split
  · exact Keeps.rfl
  next u => exact setDial_keeps (by simpa using u)

theorem dialGone_pos (c : DialCfg) (x : Dial) : (dialGone c x).pos = x.pos ∧ (dialGone c x).step = x.step := by
  simp only [dialGone]
  split
  · exact ⟨rfl, rfl⟩
  · split
    · exact ⟨rfl, rfl⟩
    · exact seekOrUnknown_pos _ _

theorem dialGoAct_keeps (n : Nat) (s : State) : Keeps s (dialGoAct n s).1 := by
  unfold dialGoAct
  split
  · exact Keeps.rfl
  next u =>
    exact setDial_keeps (by simpa using u) (dialGone_pos _ _).2 fun _ h => by rw [(dialGone_pos _ _).1]; exact h

theorem startImpulse_pos (c : DialCfg) (now : Nat) (x : Dial) :
    (startImpulse c now x).2.pos = x.pos.map (fun p => (p + 1) % positions c) ∧ (startImpulse c now x).2.step = x.step := by
  simp only [startImpulse]
  split
  · exact ⟨rfl, rfl⟩
  · exact ⟨rfl, rfl⟩

theorem impulseStart_keeps {n : Nat} (u : unitOk 4 n = true) (s : State) : Keeps s (impulseStart n s) := by
  have counted : Keeps s (setDial n (startImpulse (s.dialCfg n) s.now (s.dial n)).2 s) :=
    setDial_keeps u (startImpulse_pos _ _ _).2 fun pos _ p hp => by
      rw [(startImpulse_pos _ _ _).1] at hp
      obtain ⟨q, -, rfl⟩ := Option.map_eq_some_iff.mp hp
      exact Nat.mod_lt _ pos
  unfold impulseStart
  dsimp only
  split
  · exact counted.trans (notify_keeps _ _ _)
  · exact counted

theorem noonCheck_pos (c : DialCfg) (p : Nat) (x : Dial) :
    ((noonCheck c p x).2.pos = x.pos ∨ (noonCheck c p x).2.pos = some 0) ∧ (noonCheck c p x).2.step = x.step := by
  simp only [noonCheck]
  split
  · exact ⟨.inl rfl, rfl⟩
  · exact ⟨.inr rfl, rfl⟩

theorem checkNoon_keeps {n : Nat} (u : unitOk 4 n = true) (p : Nat) (s : State) : Keeps s (checkNoon n p s) := by
  have checked : Keeps s (setDial n (noonCheck (s.dialCfg n) p (s.dial n)).2 s) :=
    setDial_keeps u (noonCheck_pos _ _ _).2 fun pos below q hq => by
      obtain e | e := (noonCheck_pos (s.dialCfg n) p (s.dial n)).1
      · exact below q (e ▸ hq)
      · rw [e] at hq; cases hq; exact pos
  unfold checkNoon
  dsimp only
  split
  · exact checked.trans (notify_keeps _ _ _)
  · exact checked

theorem foundNoon_keeps {n : Nat} (u : unitOk 4 n = true) (s : State) : Keeps s (foundNoon n s) :=
  setDial_keeps u (by rfl) fun pos _ p hp => by cases hp; exact pos

theorem closureActs_keeps {n : Nat} (u : unitOk 4 n = true) (s : State) : Keeps s (closureActs n s) := by
  unfold closureActs
  dsimp only
  split
  · exact checkNoon_keeps u _ _
  · exact Keeps.rfl
  · exact (foundNoon_keeps u _).trans (notify_keeps _ _ _)
  · exact (checkNoon_keeps u _ _).trans ((setDial_keeps u).trans (notify_keeps _ _ _))
  · exact (foundNoon_keeps u _).trans (notify_keeps _ _ _)
  · exact Keeps.rfl
  · exact Keeps.rfl

theorem noonClosure_keeps {n : Nat} (u : unitOk 4 n = true) (s : State) : Keeps s (noonClosure n s) := by
  unfold noonClosure
  dsimp only
  split
  · exact Keeps.rfl
  · exact (setDial_keeps u).trans (closureActs_keeps u _)

/-! ### Bells -/

theorem reconfigured_claims (x : Bell) (old new : BellCfg) : (x.reconfigured old new).claims = x.claims := by
  simp only [Bell.reconfigured]
  repeat' split
  all_goals rfl

theorem bellConfigAct_keeps (b : Nat) (c : BellCfg) (s : State) : Keeps s (bellConfigAct b c s).1 := by
  refine serviceOnly_keeps ?_
  split
  · unfold configureBell
    exact (Keeps.ofCfg (c := { s.cfg with bells := wr s.cfg.bells b (clampBell c) }) (fun k => { k with }) rfl).trans
      ((setBell_struck _ _ _ (reconfigured_claims _ _ _)).trans
        ((startBuilds_struck _ _).trans (frontierLoop_struck _))).keeps
  · exact Keeps.rfl

theorem silenced_claims (x : Bell) (on : Bool) : (x.silenced on).claims = x.claims := by
  simp only [Bell.silenced]
  split
  · exact enter_claims _ _
  · exact enter_claims _ _
  · exact enter_claims _ _
  · rfl

theorem bellSilentAct_keeps (b : Nat) (on : Bool) (s : State) : Keeps s (bellSilentAct b on s).1 := by
  unfold bellSilentAct
  split
  · exact (setBell_struck _ _ _ (silenced_claims _ _)).keeps
  · exact Keeps.rfl

theorem bellClearAct_keeps (b : Nat) (s : State) : Keeps s (bellClearAct b s).1 := by
  unfold bellClearAct
  split
  · exact Keeps.rfl
  · split
    · have cleared := setBell_struck b { (s.bell b).enter .ready with miss := 0 } s (enter_claims _ _)
      exact (cleared.trans (notify_struck _ _ _)).keeps
    · exact Keeps.rfl

theorem createFromLine_keeps {p : Perf} {s : State} (l : SettingsOk s.cfg → p.level ≤ 3) :
    Keeps s (createFromLine p s).1 := (createPerf_struck p s l).keeps

theorem bellTestAct_keeps (b : Nat) (i : Intensity) (s : State) : Keeps s (bellTestAct b i s).1 := by
  refine serviceOnly_keeps ?_
  split
  · exact Keeps.rfl
  · split
    · exact Keeps.rfl
    · split
      · exact Keeps.rfl
      · exact createFromLine_keeps fun _ => Nat.zero_le _

/-! ### Clock and performances -/

theorem clockConfigAct_keeps (c : ClockCfg) (s : State) : Keeps s (clockConfigAct c s).1 := by
  refine serviceOnly_keeps ?_
  split
  · exact (Keeps.ofCfg (c := { s.cfg with clock := clampClock c }) (fun k => { k with }) rfl).trans
      ((startBuilds_struck _ _).trans (frontierLoop_struck _)).keeps
  · exact Keeps.rfl

theorem clockLevelsAct_keeps (l : Levels) (s : State) : Keeps s (clockLevelsAct l s).1 := by
  refine serviceOnly_keeps ?_
  split
  next ok =>
    simp only [Bool.and_eq_true, decide_eq_true_eq] at ok
    obtain ⟨⟨⟨swing, toll⟩, clock⟩, tune⟩ := ok
    exact Keeps.ofCfg (c := { s.cfg with levels := l }) (fun k => { k with levels := ⟨swing, toll, clock, tune⟩ }) rfl
  · exact Keeps.rfl

theorem playAct_keeps (slot : Nat) (scale wait scene : Option Nat) (s : State) :
    Keeps s (playAct slot scale wait scene s).1 := by
  unfold playAct
  split
  · exact Keeps.rfl
  · split
    · exact Keeps.rfl
    · exact createFromLine_keeps fun k => k.levels.2.2.2

theorem tollAct_keeps (bell interval count : Nat) (i : Intensity) (wait scene : Option Nat) (s : State) :
    Keeps s (tollAct bell interval count i wait scene s).1 := by
  unfold tollAct
  split
  · exact Keeps.rfl
  · exact createFromLine_keeps fun k => k.levels.2.1

theorem ringAct_keeps (ds : List Nat) (stagger duration wait : Option Nat) (s : State) :
    Keeps s (ringAct ds stagger duration wait s).1 := by
  unfold ringAct
  split
  · exact Keeps.rfl
  · split
    · exact Keeps.rfl
    · split
      · exact Keeps.rfl
      · exact createFromLine_keeps fun k => k.levels.1

theorem stopFinishAct_keeps (id : Nat) (s : State) : Keeps s (stopFinishAct id s).1 := by
  unfold stopFinishAct
  split
  · exact Keeps.rfl
  · split
    · exact Keeps.rfl
    · exact (finishPerf_quiet id s).keeps

theorem stopCutAct_keeps (id : Nat) (s : State) : Keeps s (stopCutAct id s).1 := by
  unfold stopCutAct
  split
  · exact Keeps.rfl
  · split
    · exact Keeps.rfl
    · exact (cutAll_quiet [id] s).keeps

theorem strokeRelease_keeps (v : Nat) (s : State) : Keeps s (strokeRelease v s) := by
  unfold strokeRelease
  split
  · exact ((setVoice_struck _ _ _).trans (sendStroke_struck _ _ _ _ _)).keeps
  · exact Keeps.rfl

theorem eventTakeUp_keeps (v : Nat) (s : State) : Keeps s (eventTakeUp v s) := by
  unfold eventTakeUp
  split
  · exact Keeps.rfl
  · split
    · exact Keeps.rfl
    · split
      · exact (takeUp_struck _ _ _ _).keeps
      · exact (setVoice_struck _ _ _).keeps

theorem tollRelease_keeps (id : Nat) (s : State) : Keeps s (tollRelease id s) := by
  unfold tollRelease
  split
  · exact Keeps.rfl
  next p h =>
    split
    next x _ => exact ((setPerf_of h { p with kind := .toll { x with sent := x.sent + 1 } } rfl).trans (sendStroke_struck _ _ _ _ _)).keeps
    · exact Keeps.rfl

theorem testRelease_keeps (id : Nat) (s : State) : Keeps s (testRelease id s) := by
  unfold testRelease
  split
  · exact Keeps.rfl
  next p h =>
    split
    next x _ => exact ((setPerf_of h { p with kind := .test { x with sent := true } } rfl).trans (sendStroke_struck _ _ _ _ _)).keeps
    · exact Keeps.rfl

/-! ### Swing drives -/

theorem setDrive_keeps (n : Nat) (x : Drive) (s : State) : Keeps s (setDrive n x s) := (setDrive_quiet n x s).keeps

theorem panelTollAct_keeps (c : PanelTollCfg) (s : State) : Keeps s (panelTollAct c s).1 := by
  refine serviceOnly_keeps ?_
  split
  · exact Keeps.ofCfg (c := { s.cfg with panelToll := clampPanelToll c }) (fun k => { k with }) rfl
  · exact Keeps.rfl

theorem swingConfigAct_keeps (n : Nat) (c : SwingCfg) (s : State) : Keeps s (swingConfigAct n c s).1 := by
  refine serviceOnly_keeps ?_
  split
  · exact Keeps.rfl
  · split
    · exact Keeps.rfl
    · exact Keeps.ofCfg (c := { s.cfg with swings := wr s.cfg.swings n (clampSwing c) }) (fun k => { k with }) rfl

theorem swingClearAct_keeps (n : Nat) (s : State) : Keeps s (swingClearAct n s).1 := by
  unfold swingClearAct
  split
  · exact Keeps.rfl
  · split
    · exact Keeps.rfl
    · split
      · exact Keeps.rfl
      · exact (setDrive_keeps _ _ _).trans (notify_keeps _ _ _)

theorem amplitudePulse_keeps (n : Nat) (s : State) : Keeps s (amplitudePulse n s) := by
  unfold amplitudePulse
  dsimp only
  split
  · exact Keeps.rfl
  · exact setDrive_keeps _ _ _

/-! ### Schedule -/

theorem setEntry_keeps (n : Nat) (e : EntryCfg) (s : State) : Keeps s (setEntry n e s) :=
  Keeps.ofCfg (c := { s.cfg with entries := wr s.cfg.entries n e }) (fun k => { k with }) rfl

theorem entryWriteAct_keeps (n : Nat) (f : EntryFields) (s : State) : Keeps s (entryWriteAct n f s).1 := by
  unfold entryWriteAct
  split
  · exact setEntry_keeps _ _ _
  · exact Keeps.rfl

theorem entrySuspendAct_keeps (n : Nat) (s : State) : Keeps s (entrySuspendAct n s).1 := by
  unfold entrySuspendAct
  split
  · exact Keeps.rfl
  · split
    · exact Keeps.rfl
    · exact setEntry_keeps _ _ _
    · exact Keeps.rfl

theorem entryResumeAct_keeps (n : Nat) (s : State) : Keeps s (entryResumeAct n s).1 := by
  unfold entryResumeAct
  split
  · exact Keeps.rfl
  · split
    · exact Keeps.rfl
    · exact setEntry_keeps _ _ _
    · exact Keeps.rfl

theorem entryClearAct_keeps (n : Nat) (s : State) : Keeps s (entryClearAct n s).1 := by
  unfold entryClearAct
  split
  · exact Keeps.rfl
  · exact setEntry_keeps _ _ _

/-! ### The panel -/

theorem press_keeps (k : Key) {body : State → State} (h : ∀ u, Keeps u (body u)) (s : State) :
    Keeps s (press k body s) := by
  unfold press
  split
  · exact (show Keeps s { s with keys := s.keys.set false k } from { Keeps.rfl with }).trans (h _)
  · exact Keeps.rfl

theorem tollPressed_keeps (s : State) : Keeps s (tollPressed s) := by
  unfold tollPressed
  split
  · exact (finishPerf_quiet _ s).keeps
  · have created := (createPerf_struck (tollPerf s s.cfg.panelToll.bell s.cfg.panelToll.interval 0
      s.cfg.panelToll.intensity s.cfg.panelToll.wait s.cfg.panelToll.scene .panel) s fun k => k.levels.2.1).keeps
    dsimp only
    split
    next t h => rw [h] at created; exact created.trans (notify_keeps _ _ _)
    next t _ _ h => rw [h] at created; exact created

theorem silencePressed_keeps (s : State) : Keeps s (silencePressed s) :=
  (show Keeps s { s with sched := { s.sched with panelSilence := !s.sched.panelSilence } } from { Keeps.rfl with }).trans
    (notify_keeps _ _ _)

theorem stopRecord_quiet (a : State × Bool) (id : Nat) : Quiet a.1 (stopRecord a id).1 := by
  unfold stopRecord
  split
  · exact Quiet.rfl
  · split
    · exact cutPerf_quiet id a.1
    · exact cutPerf_quiet id a.1
    · exact finishPerf_quiet id a.1
    · exact Quiet.rfl
    · exact Quiet.rfl

theorem stopPressed_keeps (s : State) : Keeps s (stopPressed s) := by
  unfold stopPressed
  exact ((Quiet.foldFlag stopRecord_quiet _ (s, false)).trans (offerIf_quiet _ _)).keeps

/-! ### The line -/

/-- A line received is one that waits or a malformed one's reply: each holds a place (R189, R190). -/
theorem lineReceived_keeps (l : RawLine) (s : State) : Keeps s (lineReceived l s) := by
  unfold lineReceived
  split
  · exact Keeps.rfl
  · refine placed_keeps ?_ s
    unfold lineSlot
    split
    · rfl
    · rfl

theorem lineSent_keeps (s : State) : Keeps s (lineSent s) := by
  unfold lineSent Line.sent
  split
  · exact Keeps.rfl
  · exact Keeps.ofLine (SlotBounds.drop 1) rfl
  · exact Keeps.ofLine (SlotBounds.drop 1) rfl
  · exact Keeps.ofLine id rfl

theorem maskAct_keeps (c : Option NoticeClass) (on : Bool) (s : State) : Keeps s (maskAct c on s).1 := by
  unfold maskAct Line.masked
  cases c with
  | some c => exact Keeps.ofLine id rfl
  | none => exact Keeps.ofLine id rfl

theorem lineRateAct_keeps (r : Nat) (s : State) : Keeps s (lineRateAct r s).1 := by
  refine serviceOnly_keeps ?_
  split
  · exact Keeps.ofCfg (c := { s.cfg with rate := r }) (fun k => { k with }) rfl
  · exact Keeps.rfl

theorem modeServiceAct_keeps (s : State) : Keeps s (modeServiceAct s).1 := by
  unfold modeServiceAct
  split
  · exact Keeps.rfl
  · split
    · exact Keeps.rfl
    · exact (Keeps.ofLine (l := { s.line with mode := .service }) id rfl).trans (cutClock_quiet _).keeps

theorem enterMode_keeps (v : Option (List Field)) (s : State) : Keeps s (enterMode v s) := by
  have entered : Keeps s { s with line :=
      { s.line with mode := if v.isNone then .run else .service, lastValidation := some v } } := Keeps.ofLine id rfl
  unfold enterMode
  dsimp only
  split
  · exact entered.trans (catchUp_quiet _).keeps
  · exact entered

theorem modeRunAct_keeps (s : State) : Keeps s (modeRunAct s).1 := by
  unfold modeRunAct
  split
  · exact Keeps.rfl
  · split
    next d _ => exact enterMode_keeps (some d) s
    next => exact enterMode_keeps none s

end Sys2Proof.Machine
end

section
/-! The Lighting Controller and the Measurement Unit keep the laws (R172 to R186). -/

namespace Sys2Proof.Machine

/-! ### Channels -/

theorem startChannel_ok : ChannelOk startChannel where
  base := nofun
  perf := nofun
  override := nofun
  target := Nat.zero_le _
  output := Nat.zero_le _
  fade := nofun
  tripped := nofun

/-- A channel read under any number is one of the part's, or the start value. -/
theorem LightsOk.chan_ok {s : State} (h : LightsOk s.lights) (n : Nat) : ChannelOk (s.chan n) := by
  by_cases u : n - 1 < 16
  · have k := h.chans (n - 1 + 1) (unitOk_iff.mpr ⟨by omega, by omega⟩)
    exact k
  · have e : s.chan n = startChannel := by
      simp only [State.chan, rd]
      rw [Vector.getElem?_eq_none (by omega)]; rfl
    rw [e]; exact startChannel_ok

/-- A part of a way truncated toward zero lies on that way (R180). -/
theorem truncDiv_between (d : Int) {k n : Nat} (h : k ≤ n) :
    min 0 d ≤ truncDiv (d * k) n ∧ truncDiv (d * k) n ≤ max 0 d := by
  have part : ∀ m : Nat, m * k / n ≤ m := fun m => Nat.div_le_of_le_mul (by
    rw [Nat.mul_comm n m]; exact Nat.mul_le_mul_left m h)
  simp only [truncDiv]
  split
  next pos =>
    obtain ⟨m, rfl | rfl⟩ := d.eq_nat_or_neg
    · have e : ((m : Int) * k).toNat = m * k := by rw [← Int.natCast_mul, Int.toNat_natCast]
      have := part m
      rw [e]
      generalize m * k / n = q at this ⊢
      omega
    · have e : -(m : Int) * k = -((m * k : Nat) : Int) := by push_cast; ring
      rw [e] at pos ⊢
      have z : (-((m * k : Nat) : Int)).toNat = 0 := by omega
      rw [z, Nat.zero_div]; omega
  next neg =>
    obtain ⟨m, rfl | rfl⟩ := d.eq_nat_or_neg
    · exact absurd (by positivity) neg
    · have e : (-(-(m : Int) * k)).toNat = m * k := by
        rw [Int.neg_mul, Int.neg_neg, ← Int.natCast_mul, Int.toNat_natCast]
      have := part m
      rw [e]
      generalize m * k / n = q at this ⊢
      omega

/-- The output of a fade lies between its ends (R180). -/
theorem fadeOutput_between {f : Fade} (h : f.k < f.len) :
    min f.start f.target ≤ fadeOutput f ∧ fadeOutput f ≤ max f.start f.target := by
  have b := truncDiv_between ((f.target : Int) - f.start) (Nat.le_of_lt h)
  simp only [fadeOutput]
  omega

/-- A fade's step keeps the channel in its ranges (R180). -/
theorem ChannelOk.faded {c : Channel} (h : ChannelOk c) (now : Nat) : ChannelOk (c.faded now) := by
  unfold Channel.faded
  split
  · exact h
  next f e =>
    obtain ⟨start, target, -, -⟩ := h.fade f e
    have lit : c.lamp ≠ .tripped := fun t => by rw [(h.tripped t).2] at e; cases e
    dsimp only
    split
    next ends => exact { h with output := target, fade := nofun, tripped := fun t => absurd t lit }
    next runs =>
      have b := fadeOutput_between (f := { f with k := f.k + 1, next := f.next + 100 }) (by simp only; omega)
      exact
        { h with
          output := by simp only at b ⊢; omega
          fade := fun g e => by cases e; exact ⟨start, target, b⟩
          tripped := fun t => absurd t lit }

theorem ChannelOk.modulated {c : Channel} (h : ChannelOk c) : ChannelOk c.modulated := { h with }

/-- A channel returned from TRIPPED fades from 0 to its target (R184). -/
theorem ChannelOk.cleared {c : Channel} (h : ChannelOk c) (t : c.lamp = .tripped) (n now : Nat) :
    ChannelOk (clearedChan c n now) := by
  have base : ChannelOk { c with lamp := .unchecked, run := none, output := 0 } :=
    { h with
      output := Nat.zero_le _
      fade := fun f e => by rw [(h.tripped t).2] at e; cases e
      tripped := nofun }
  exact base.startFade h.target

/-- A confirmed verdict keeps the channel in its ranges: OVER trips it, and no other touches a TRIPPED one (R183). -/
theorem ChannelOk.confirmVerdict {c : Channel} (h : ChannelOk c) (v : Verdict) (m n : Nat) :
    ChannelOk (confirmVerdict v m n c).1 := by
  unfold Machine.confirmVerdict
  split
  next l => exact { h with tripped := nofun }
  next l => exact { h with tripped := nofun }
  next l => exact { h with tripped := nofun }
  next l => exact { h with tripped := nofun }
  next l => exact { h with output := Nat.zero_le _, fade := nofun, tripped := fun _ => ⟨rfl, rfl⟩ }
  next l => exact { h with output := Nat.zero_le _, fade := nofun, tripped := fun _ => ⟨rfl, rfl⟩ }
  next l => exact { h with output := Nat.zero_le _, fade := nofun, tripped := fun _ => ⟨rfl, rfl⟩ }
  next => exact h

/-! ### Settings and scenes -/

theorem setChan_keeps {n : Nat} {c : Channel} {s : State} (k : LightsOk s.lights → ChannelOk c) :
    Keeps s (setChan n c s) := (setChan_struck n c s fun _ => k).keeps

theorem spoil_keeps (n : Nat) (s : State) : Keeps s (spoil n s) := Keeps.ofLights fun _ k => { k with }

theorem lightConfigAct_keeps (n : Nat) (c : LightCfg) (s : State) : Keeps s (lightConfigAct n c s).1 := by
  refine serviceOnly_keeps ?_
  split
  · refine (Keeps.ofCfg (c := { s.cfg with lights := wr s.cfg.lights n (clampLight c) }) (fun k => { k with }) rfl).trans
      ((setChan_keeps fun k => ?_).trans (spoil_keeps _ _))
    exact
      { k.chan_ok n with
        tripped := fun e => (k.chan_ok n).tripped (by
          by_contra ne
          exact absurd (e.symm.trans (if_neg ne)) (by decide)) }
  · exact Keeps.rfl

/-- The scene that SCENE WRITE makes holds levels of 0..4095 (R173). -/
theorem sceneOf_ok (fade : Nat) (pairs : List (Nat × Nat)) : SceneOk (sceneOf fade pairs) := by
  have laid : ∀ (v : Vector (Option Nat) 16), (∀ n l, unitOk 16 n = true → rd v n none = some l → l ≤ 4095) →
      ∀ n l, unitOk 16 n = true →
        rd (pairs.foldl (fun v p => wr v p.1 (some (clampN p.2 0 4095))) v) n none = some l → l ≤ 4095 := by
    induction pairs with
    | nil => exact fun v h => h
    | cons p ps ih =>
      refine fun v h => ih _ fun n l u e => ?_
      by_cases c : n = p.1
      · subst c
        rw [rd_wr_same u] at e
        cases e
        exact Nat.min_le_right _ _
      · rw [rd_wr_ne (unitOk_iff.mp u).1 c] at e
        exact h n l u e
  intro n l u e
  exact laid _ (fun n l u e => by rw [rd_replicate u] at e; cases e) n l u e

theorem sceneWriteAct_keeps (k fade : Nat) (pairs : List (Nat × Nat)) (s : State) :
    Keeps s (sceneWriteAct k fade pairs s).1 := by
  unfold sceneWriteAct
  split
  · refine Keeps.ofCfg (c := { s.cfg with scenes := wr s.cfg.scenes k (sceneOf fade pairs) }) (fun h => { h with
      scenes := fun m hm => ?_ }) rfl
    by_cases e : m = k
    · subst e
      rw [rd_wr_same hm]; exact sceneOf_ok _ _
    · rw [rd_wr_ne (unitOk_iff.mp hm).1 e]; exact h.scenes m hm
  · exact Keeps.rfl

theorem applyFallbackIf_keeps (b : Bool) (s : State) : Keeps s (if b = true then s else applyFallback s) := by
  split
  · exact Keeps.rfl
  · exact (applyFallback_struck s).keeps

theorem lightSiteAct_keeps (c : SiteCfg) (s : State) : Keeps s (lightSiteAct c s).1 := by
  refine serviceOnly_keeps ?_
  split
  · exact (Keeps.ofCfg (c := { s.cfg with site := clampSite c }) (fun k => { k with
      panel := Nat.min_le_right _ _ }) rfl).trans (applyFallbackIf_keeps _ _)
  · exact Keeps.rfl

/-! ### Overrides -/

theorem chansOf_unit {ch : Option Nat} (h : chanOk ch = true) : ∀ n ∈ chansOf ch, unitOk 16 n = true := by
  intro n hn
  cases ch with
  | none => exact allChans_unit hn
  | some k => rw [List.mem_singleton.mp hn]; exact h

theorem lightAct_keeps (ch : Option Nat) (level : Nat) (fade : Option Nat) (mode : OverrideMode) (s : State) :
    Keeps s (lightAct ch level fade mode s).1 := by
  unfold lightAct
  split
  next ok =>
    exact (setOverride_struck _ _ _ s (fun _ x e => by cases e; exact Nat.min_le_right _ _) (chansOf_unit ok)).keeps
  · exact Keeps.rfl

theorem lightReleaseAct_keeps (ch fade : Option Nat) (s : State) : Keeps s (lightReleaseAct ch fade s).1 := by
  unfold lightReleaseAct
  split
  next ok => exact (setOverride_struck none _ _ s (fun _ _ => nofun) (chansOf_unit ok)).keeps
  · exact Keeps.rfl

theorem lightClearAct_keeps (n : Nat) (fade : Option Nat) (s : State) : Keeps s (lightClearAct n fade s).1 := by
  unfold lightClearAct
  split
  · exact Keeps.rfl
  · split
    · exact Keeps.rfl
    next t =>
      exact (setChan_keeps fun k => (k.chan_ok n).cleared (not_not.mp t) _ _).trans (notify_keeps _ _ _)

theorem lightsPressed_keeps (s : State) : Keeps s (lightsPressed s) := by
  have turned : Keeps s { s with lights := { s.lights with panelOn := !s.lights.panelOn } } :=
    Keeps.ofLights fun _ k => { k with }
  unfold lightsPressed
  refine turned.trans (Keeps.after (notify_keeps _ _ _) ?_)
  split
  · exact (setOverride_struck _ _ _ _ (fun k x e => by cases e; exact k.panel) fun n h => allChans_unit h).keeps
  · exact (setOverride_struck none _ _ _ (fun _ _ => nofun) fun n h => allChans_unit (List.mem_of_mem_filter h)).keeps

/-! ### Fades, modulation and measurements -/

theorem fadeStep_keeps (n : Nat) (s : State) : Keeps s (fadeStep n s) := setChan_keeps fun k => (k.chan_ok n).faded _

theorem pwmPeriod_keeps (n : Nat) (s : State) : Keeps s (pwmPeriod n s) := setChan_keeps fun k => (k.chan_ok n).modulated

theorem beginLamp_keeps (s : State) : Keeps s (beginLamp s) := by
  unfold beginLamp
  split
  · exact Keeps.rfl
  · exact Keeps.ofLights fun _ k => { k with }

theorem beginDusk_keeps (s : State) : Keeps s (beginDusk s) := Keeps.ofLights fun _ k => { k with }

theorem lampSlot_keeps (s : State) : Keeps s (lampSlot s) := by
  have next : Keeps s { s with lights := { s.lights with lampNext := s.lights.lampNext + 100 } } :=
    Keeps.ofLights fun _ k => { k with }
  unfold lampSlot
  refine next.trans ?_
  dsimp only
  split
  · exact beginLamp_keeps _
  · exact Keeps.ofLights fun _ k => { k with }

theorem duskSample_keeps (s : State) : Keeps s (duskSample s) := by
  have next : Keeps s { s with lights := { s.lights with duskNext := s.lights.duskNext + 1000 } } :=
    Keeps.ofLights fun _ k => { k with }
  unfold duskSample
  refine next.trans ?_
  dsimp only
  split
  · exact beginDusk_keeps _
  · exact Keeps.ofLights fun _ k => { k with }

theorem freeConverter_keeps (s : State) : Keeps s (freeConverter s) := by
  unfold freeConverter
  dsimp only
  split
  · exact Keeps.ofLights fun _ k => { k with }
  · split
    · exact Keeps.trans (Keeps.ofLights (l := { s.lights with conv := none, lampWaits := false }) fun _ k => { k with })
        (beginLamp_keeps _)
    · exact Keeps.ofLights fun _ k => { k with }

theorem judgeLamp_keeps (n l m : Nat) (s : State) : Keeps s (judgeLamp n l m s) := by
  unfold judgeLamp
  dsimp only
  generalize runAfter (s.chan n).run (verdictOf (s.lightCfg n) l m) = r
  have read : LightsOk s.lights → ChannelOk { s.chan n with code := some m, run := some r } := fun k =>
    { k.chan_ok n with }
  split
  · split
    · exact (setChan_keeps fun k => (read k).confirmVerdict _ _ _).trans (notify_keeps _ _ _)
    · exact setChan_keeps fun k => (read k).confirmVerdict _ _ _
  · exact setChan_keeps read

theorem lampMeasured_keeps (code : ConvCode) (s : State) : Keeps s (lampMeasured code s) := by
  unfold lampMeasured
  split
  · exact (judgeLamp_keeps _ _ _ _).trans (freeConverter_keeps _)
  · exact freeConverter_keeps _

theorem duskChanged_keeps (x : DuskState) (d : Nat) (s : State) : Keeps s (duskChanged x d s) := by
  have dusk : Keeps s { s with lights := { s.lights with dusk := x } } := Keeps.ofLights fun _ k => { k with }
  unfold duskChanged
  refine Keeps.after (applyFallbackIf_keeps _ _) ?_
  split
  · exact dusk.trans ((notify_keeps _ _ _).trans (duskFiring_quiet _).keeps)
  · exact dusk.trans (notify_keeps _ _ _)

theorem duskRuns_ok (c : SiteCfg) (d : Nat) {l : Lights} (h : LightsOk l) : LightsOk (duskRuns c d l) := by
  unfold duskRuns
  split
  · exact { h with }
  · split
    · exact { h with }
    · exact { h with }

theorem judgeDusk_keeps (d : Nat) (s : State) : Keeps s (judgeDusk d s) := by
  have runs : Keeps s { s with lights := { duskRuns s.cfg.site d s.lights with duskCode := some d } } :=
    Keeps.ofLights fun _ k => { duskRuns_ok s.cfg.site d k with }
  unfold judgeDusk
  refine runs.trans ?_
  dsimp only
  split
  · exact duskChanged_keeps _ _ _
  · split
    · exact duskChanged_keeps _ _ _
    · exact Keeps.rfl

theorem duskMeasured_keeps (code : ConvCode) (s : State) : Keeps s (duskMeasured code s) := by
  unfold duskMeasured
  split
  · exact (judgeDusk_keeps _ _).trans (freeConverter_keeps _)
  · exact freeConverter_keeps _

end Sys2Proof.Machine
end

section
/-! The sectors' law (R141) slot by slot: it speaks of a slot's entry, of the entries of the queue that concern the slot, and of
whether the slot is loading or resumed; so an operation on one slot has that slot alone to look at. -/

namespace Sys2Proof.Machine

/-- The entries by which the sectors' law knows a slot: its erases, its closing and its final directory write. -/
def concerns (n : Nat) : QueueOp → Bool
  | .erase m _ => decide (m = n)
  | .dirWrite m .closing => decide (m = n)
  | .dirWrite m .final => decide (m = n)
  | .dirWrite _ .plain | .program _ _ _ _ | .imageErase _ | .imageProgram _ _ _ _ => false

/-- The entries of slot `n` in the queue, in their order. -/
def entriesOf (n : Nat) (l : List QueueOp) : List QueueOp := l.filter (concerns n)

@[simp] theorem entriesOf_append (n : Nat) (l m : List QueueOp) : entriesOf n (l ++ m) = entriesOf n l ++ entriesOf n m :=
  List.filter_append l m

@[simp] theorem entriesOf_nil (n : Nat) : entriesOf n [] = [] := rfl

theorem entriesOf_cons (n : Nat) (q : QueueOp) (l : List QueueOp) :
    entriesOf n (q :: l) = if concerns n q = true then q :: entriesOf n l else entriesOf n l := List.filter_cons

theorem entriesOf_none {n : Nat} {l : List QueueOp} (h : ∀ q ∈ l, concerns n q = false) : entriesOf n l = [] :=
  List.filter_eq_nil_iff.mpr fun q hq => by rw [h q hq]; exact Bool.false_ne_true

/-- The law of one slot: its entry `e`, its entries `w`, whether it is loading, whether it waits to be resumed. -/
structure SlotLaw (n : Nat) (e : DirEntry) (w : List QueueOp) (loads resumes : Prop) : Prop where
  unit : w ≠ [] ∨ loads ∨ resumes → unitOk 64 n = true
  empty : unitOk 64 n = true → e.state = .empty → e.sectors = []
  loading : loads → e.state = .writing ∧ .dirWrite n .closing ∉ w
  closing : .dirWrite n .closing ∈ w →
    w.count (.dirWrite n .closing) = 1 ∧ (e.state = .writing ∨ e.state = .erasing)
  erases : ∀ k, .erase n k ∈ w → w.count (.erase n k) = 1 ∧ e.state = .erasing ∧ k ∈ e.sectors
  final : ∀ a b, w = a ++ .dirWrite n .final :: b → e.state = .erasing ∧ (∀ k ∈ e.sectors, .erase n k ∈ a) ∧
    .dirWrite n .final ∉ b ∧ .dirWrite n .closing ∉ b
  resuming : resumes → e.state = .erasing ∧ .dirWrite n .final ∉ w ∧ ∀ k, .erase n k ∉ w

/-- Slot `n` is the one that the loading record names (R144). -/
def Store.loads (st : Store) (n : Nat) : Prop := ∃ l, st.load = some l ∧ l.slot = n

theorem mem_entriesOf {n : Nat} {q : QueueOp} {l : List QueueOp} : q ∈ entriesOf n l ↔ q ∈ l ∧ concerns n q = true :=
  List.mem_filter

@[simp] theorem concerns_erase (n k : Nat) : concerns n (.erase n k) = true := decide_eq_true rfl
@[simp] theorem concerns_closing (n : Nat) : concerns n (.dirWrite n .closing) = true := decide_eq_true rfl
@[simp] theorem concerns_final (n : Nat) : concerns n (.dirWrite n .final) = true := decide_eq_true rfl

/-- The sectors' law is that of the 64 slots, beside the free list, the resumptions and the directory scan. -/
theorem sectorListsOk_iff {st : Store} : SectorListsOk st ↔ (st.free ++ ownedSectors st).Perm (List.range 64) ∧
    st.resume.Nodup ∧ NoScan st ∧
    ∀ n, SlotLaw n (rd st.slots n emptyEntry) (entriesOf n st.entries) (st.loads n) (n ∈ st.resume) := by
  have mem : ∀ {n q}, concerns n q = true → (q ∈ entriesOf n st.entries ↔ q ∈ st.entries) := fun c =>
    ⟨fun h => (mem_entriesOf.mp h).1, fun h => mem_entriesOf.mpr ⟨h, c⟩⟩
  have count : ∀ {n q}, concerns n q = true → (entriesOf n st.entries).count q = st.entries.count q := fun c =>
    List.count_filter c
  constructor
  · intro h
    refine ⟨h.shared, h.resume.1, h.scan, fun n => ?_⟩
    have finals : ∀ a b, entriesOf n st.entries = a ++ .dirWrite n .final :: b → unitOk 64 n = true ∧
        (rd st.slots n emptyEntry).state = .erasing ∧ (∀ k ∈ (rd st.slots n emptyEntry).sectors, .erase n k ∈ a) ∧
        .dirWrite n .final ∉ b ∧ .dirWrite n .closing ∉ b := by
      intro a b e
      obtain ⟨x, y, exy, rfl, hy⟩ := List.filter_eq_append_iff.mp e
      obtain ⟨u, v, rfl, hu, -, rfl⟩ := List.filter_eq_cons_iff.mp hy
      rw [← List.append_assoc] at exy
      obtain ⟨ok, er, all, nf, nc⟩ := h.finals n (x ++ u) v exy
      refine ⟨ok, er, fun k hk => ?_, fun m => nf (mem_entriesOf.mp m).1, fun m => nc (mem_entriesOf.mp m).1⟩
      refine mem_entriesOf.mpr ⟨?_, concerns_erase n k⟩
      refine (List.mem_append.mp (all k hk)).resolve_right fun hm => ?_
      exact hu _ hm (concerns_erase n k)
    refine ⟨?_, h.empty n, ?_, ?_, ?_, fun a b e => (finals a b e).2, ?_⟩
    · rintro (hw | ⟨l, hl, rfl⟩ | hr)
      · obtain ⟨q, hq⟩ := List.exists_mem_of_ne_nil _ hw
        obtain ⟨hq, c⟩ := mem_entriesOf.mp hq
        cases q with
        | erase m k => cases of_decide_eq_true c; exact (h.erases _ k hq).1
        | dirWrite m p =>
          cases p with
          | plain => cases c
          | closing => cases of_decide_eq_true c; exact (h.closings _ hq).1
          | final =>
            cases of_decide_eq_true c
            obtain ⟨a, b, e⟩ := List.append_of_mem hq
            exact (h.finals _ a b e).1
        | program | imageErase | imageProgram => cases c
      · exact (h.loading l hl).1
      · exact (h.resume.2 n hr).1
    · rintro ⟨l, hl, rfl⟩
      obtain ⟨-, wr, nc⟩ := h.loading l hl
      exact ⟨wr, fun m => nc ((mem (concerns_closing _)).mp m)⟩
    · intro hm
      obtain ⟨-, c, st⟩ := h.closings n ((mem (concerns_closing _)).mp hm)
      exact ⟨(count (concerns_closing _)).trans c, st⟩
    · intro k hm
      obtain ⟨-, c, er⟩ := h.erases n k ((mem (concerns_erase _ _)).mp hm)
      exact ⟨(count (concerns_erase _ _)).trans c, er⟩
    · intro hr
      obtain ⟨-, er, nf, ne⟩ := h.resume.2 n hr
      exact ⟨er, fun m => nf ((mem (concerns_final _)).mp m), fun k m => ne k ((mem (concerns_erase _ _)).mp m)⟩
  · rintro ⟨shared, nd, scan, law⟩
    constructor
    · exact shared
    · exact fun n hn => (law n).empty hn
    · intro l hl
      have loads : st.loads l.slot := ⟨l, hl, rfl⟩
      obtain ⟨wr, nc⟩ := (law l.slot).loading loads
      exact ⟨(law l.slot).unit (.inr (.inl loads)), wr, fun m => nc ((mem (concerns_closing _)).mpr m)⟩
    · intro n hm
      have hm := (mem (concerns_closing n)).mpr hm
      obtain ⟨c, st⟩ := (law n).closing hm
      exact ⟨(law n).unit (.inl (List.ne_nil_of_mem hm)), (count (concerns_closing _)).symm.trans c, st⟩
    · intro n k hm
      have hm := (mem (concerns_erase n k)).mpr hm
      obtain ⟨c, er⟩ := (law n).erases k hm
      exact ⟨(law n).unit (.inl (List.ne_nil_of_mem hm)), (count (concerns_erase _ _)).symm.trans c, er⟩
    · intro n a b e
      have split : entriesOf n st.entries = entriesOf n a ++ .dirWrite n .final :: entriesOf n b := by
        rw [e, entriesOf_append, entriesOf_cons, if_pos (concerns_final n)]
      obtain ⟨er, all, nf, nc⟩ := (law n).final _ _ split
      exact ⟨(law n).unit (.inl (by rw [split]; simp)), er, fun k hk => (mem_entriesOf.mp (all k hk)).1,
        fun m => nf (mem_entriesOf.mpr ⟨m, concerns_final n⟩), fun m => nc (mem_entriesOf.mpr ⟨m, concerns_closing n⟩)⟩
    · refine ⟨nd, fun n hr => ?_⟩
      obtain ⟨er, nf, ne⟩ := (law n).resuming hr
      exact ⟨(law n).unit (.inr (.inr hr)), er, fun m => nf ((mem (concerns_final _)).mpr m),
        fun k m => ne k ((mem (concerns_erase _ _)).mpr m)⟩
    · exact scan

/-- A number that is no slot's has no entries, so its law says nothing of an entry. -/
theorem SlotLaw.notUnit {n : Nat} {e e' : DirEntry} {w : List QueueOp} {l r : Prop} (h : SlotLaw n e w l r)
    (u : unitOk 64 n = false) : SlotLaw n e' w l r := by
  have no : ¬(w ≠ [] ∨ l ∨ r) := fun k => absurd (h.unit k) (by rw [u]; exact Bool.false_ne_true)
  have hw : w = [] := by by_contra k; exact no (.inl k)
  subst hw
  exact
    { unit := h.unit
      empty := fun k => absurd k (by rw [u]; exact Bool.false_ne_true)
      loading := fun k => absurd (.inr (.inl k)) no
      closing := nofun
      erases := fun k hm => absurd hm List.not_mem_nil
      final := fun a b e => by simp at e
      resuming := fun k => absurd (.inr (.inr k)) no }

/-- A slot that loads no longer keeps its law. -/
theorem SlotLaw.unload {n : Nat} {e : DirEntry} {w : List QueueOp} {l l' r : Prop} (h : SlotLaw n e w l r)
    (k : l' → l) : SlotLaw n e w l' r :=
  { h with
    unit := fun u => h.unit (u.imp id (Or.imp k id))
    loading := fun x => h.loading (k x) }

/-- The store's slots with one written: every other slot's sectors stand beside its own. -/
theorem ownedSectors_write {st : Store} {n : Nat} (hn : unitOk 64 n = true) :
    ∃ rest, (ownedSectors st).Perm ((rd st.slots n emptyEntry).sectors ++ rest) ∧
      ∀ st' : Store, ∀ e, st'.slots = wr st.slots n e → (ownedSectors st').Perm (e.sectors ++ rest) := by
  obtain ⟨h1, h2⟩ := unitOk_iff.mp hn
  have lt : n - 1 < st.slots.toList.length := by rw [Vector.length_toList]; omega
  have split : ∀ (e : DirEntry), ((st.slots.toList.set (n - 1) e).flatMap (·.sectors)).Perm
      (e.sectors ++ ((st.slots.toList.take (n - 1)).flatMap (·.sectors) ++
        (st.slots.toList.drop (n - 1 + 1)).flatMap (·.sectors))) := by
    intro e
    rw [List.set_eq_take_append_cons_drop, if_pos lt, List.flatMap_append, List.flatMap_cons, ← List.append_assoc,
      ← List.append_assoc]
    exact List.perm_append_comm.append_right _
  refine ⟨(st.slots.toList.take (n - 1)).flatMap (·.sectors) ++
    (st.slots.toList.drop (n - 1 + 1)).flatMap (·.sectors), ?_, fun st' e hs => ?_⟩
  · have here : rd st.slots n emptyEntry = st.slots.toList[n - 1] := by
      have : n - 1 < 64 := by omega
      simp [rd, this]
    have := split (rd st.slots n emptyEntry)
    rw [here, List.set_getElem_self, ← here] at this
    exact this
  · have : st'.slots.toList = st.slots.toList.set (n - 1) e := by
      rw [hs, wr, if_pos h1, Vector.toList_setIfInBounds]
    rw [ownedSectors, this]
    exact split e

/-- An operation on one slot keeps the sectors' law where it keeps that slot's: the other slots' entries, and what concerns them
in the queue, stand. -/
theorem SectorListsOk.atSlot {st st' : Store} (h : SectorListsOk st) {n : Nat} (hn : unitOk 64 n = true) {e : DirEntry}
    (slots : st'.slots = wr st.slots n e)
    (shared : ∀ rest, (st.free ++ ((rd st.slots n emptyEntry).sectors ++ rest)).Perm (List.range 64) →
      (st'.free ++ (e.sectors ++ rest)).Perm (List.range 64))
    (resume : st'.resume = st.resume) (scan : NoScan st')
    (others : ∀ m, m ≠ n → entriesOf m st'.entries = entriesOf m st.entries)
    (loads : ∀ m, m ≠ n → st'.loads m → st.loads m)
    (here : SlotLaw n (rd st.slots n emptyEntry) (entriesOf n st.entries) (st.loads n) (n ∈ st.resume) →
      SlotLaw n e (entriesOf n st'.entries) (st'.loads n) (n ∈ st.resume)) : SectorListsOk st' := by
  obtain ⟨perm, nd, -, law⟩ := sectorListsOk_iff.mp h
  obtain ⟨rest, old, new⟩ := ownedSectors_write (st := st) hn
  refine sectorListsOk_iff.mpr ⟨?_, resume ▸ nd, scan, fun m => ?_⟩
  · exact ((new st' e slots).append_left _).trans (shared rest ((old.symm.append_left _).trans perm))
  · rw [resume, slots]
    by_cases c : m = n
    · subst c
      rw [rd_wr_same hn]
      exact here (law m)
    · rw [others m c]
      cases u : unitOk 64 m with
      | true =>
        rw [rd_wr_ne (unitOk_iff.mp u).1 c]
        exact (law m).unload (loads m c)
      | false => exact ((law m).unload (loads m c)).notUnit u

/-- Entries that concern no slot, the loading record only ever abandoned: the sectors' law stands. -/
theorem SectorListsOk.sameEntries {st st' : Store} (h : SectorListsOk st) (slots : st'.slots = st.slots)
    (free : st'.free = st.free) (resume : st'.resume = st.resume) (scan : NoScan st')
    (entries : ∀ m, entriesOf m st'.entries = entriesOf m st.entries) (loads : ∀ m, st'.loads m → st.loads m) :
    SectorListsOk st' := by
  obtain ⟨perm, nd, -, law⟩ := sectorListsOk_iff.mp h
  refine sectorListsOk_iff.mpr ⟨?_, resume ▸ nd, scan, fun m => ?_⟩
  · rw [ownedSectors, slots, free]; exact perm
  · rw [resume, slots, entries m]
    exact (law m).unload (loads m)

end Sys2Proof.Machine
end

section
/-! The Tune Store's requests and the ends of its operations keep the laws (R138 to R153). -/

namespace Sys2Proof.Machine

/-! ### Slots under the store's operations -/

/-- An operation that joins the queue at its end (R142). -/
theorem entries_queued {st st' : Store} {l : List QueueOp} (op : st'.op = st.op) (q : st'.queue = st.queue ++ l) :
    st'.entries = st.entries ++ l := by
  rw [Store.entries, Store.entries, op, q, List.append_assoc]

/-- Only the read list and the operation in progress are scanned (R153). -/
theorem NoScan.congr {st st' : Store} (h : NoScan st) (reads : st'.reads = st.reads)
    (op : ∀ p, st'.op = some p → st.op = some p) : NoScan st' :=
  ⟨by rw [reads]; exact h.1, fun r es src t e => h.2 r es src t (op _ e)⟩

/-- A slot that is opened has no entry to wait for (R146). -/
theorem SlotLaw.opened {n : Nat} {e e' : DirEntry} {w : List QueueOp} {l r : Prop} (h : SlotLaw n e w l r)
    (hn : unitOk 64 n = true) (old : e.state = .empty) (new : e'.state = .writing) : SlotLaw n e' w True r where
  unit _ := hn
  empty _ k := by rw [new] at k; cases k
  loading _ := ⟨new, fun m => by obtain ⟨-, k | k⟩ := h.closing m <;> rw [old] at k <;> cases k⟩
  closing m := by obtain ⟨-, k | k⟩ := h.closing m <;> rw [old] at k <;> cases k
  erases k m := by obtain ⟨-, k, -⟩ := h.erases k m; rw [old] at k; cases k
  final a b k := by obtain ⟨k, -⟩ := h.final a b k; rw [old] at k; cases k
  resuming k := by obtain ⟨k, -⟩ := h.resuming k; rw [old] at k; cases k

/-- A slot that loads may take sectors: no erase of it is queued (R147). -/
theorem SlotLaw.extended {n : Nat} {e e' : DirEntry} {w : List QueueOp} {l r : Prop} (h : SlotLaw n e w l r) (k : l)
    (st : e'.state = e.state) : SlotLaw n e' w l r := by
  obtain ⟨wr, nc⟩ := h.loading k
  exact
    { unit := h.unit
      empty := fun _ c => by rw [st, wr] at c; cases c
      loading := fun _ => ⟨st.trans wr, nc⟩
      closing := fun m => absurd m nc
      erases := fun j m => by obtain ⟨-, c, -⟩ := h.erases j m; rw [wr] at c; cases c
      final := fun a b c => by obtain ⟨c, -⟩ := h.final a b c; rw [wr] at c; cases c
      resuming := fun c => by obtain ⟨c, -⟩ := h.resuming c; rw [wr] at c; cases c }

/-- A slot that is closed waits for its closing directory write, the only one (R148). -/
theorem SlotLaw.closedUp {n : Nat} {e e' : DirEntry} {w : List QueueOp} {l l' r : Prop} (h : SlotLaw n e w l r) (k : l)
    (st : e'.state = e.state) (no : ¬l') : SlotLaw n e' (w ++ [.dirWrite n .closing]) l' r := by
  obtain ⟨wr, nc⟩ := h.loading k
  have h' := h.extended k st
  have inOld : ∀ q, q ∈ w ++ [.dirWrite n .closing] → q ≠ .dirWrite n .closing → q ∈ w := fun q m ne =>
    (List.mem_append.mp m).resolve_right fun m => ne (List.mem_singleton.mp m)
  exact
    { unit := fun _ => h.unit (.inr (.inl k))
      empty := h'.empty
      loading := fun c => absurd c no
      closing := fun _ => ⟨by rw [List.count_append, List.count_eq_zero_of_not_mem nc, List.count_singleton_self],
        .inl (st.trans wr)⟩
      erases := fun j m => by
        obtain ⟨-, c, -⟩ := h.erases j (inOld _ m nofun); rw [wr] at c; cases c
      final := fun a b c => by
        obtain ⟨x, y, e⟩ := List.append_of_mem (inOld (.dirWrite n .final) (by rw [c]; simp) nofun)
        obtain ⟨c, -⟩ := h.final x y e; rw [wr] at c; cases c
      resuming := fun c => by obtain ⟨c, -⟩ := h.resuming c; rw [wr] at c; cases c }

/-- A slot that is erased waits for the erase of each of its sectors, and then for its final directory write (R149). -/
theorem SlotLaw.erased {n : Nat} {e e' : DirEntry} {w : List QueueOp} {l l' r : Prop} (h : SlotLaw n e w l r)
    (hn : unitOk 64 n = true) (old : e.state ≠ .erasing) (new : e'.state = .erasing) (sec : e'.sectors = e.sectors)
    (nd : e.sectors.Nodup) (no : ¬l') (nr : ¬r) :
    SlotLaw n e' (w ++ (e.sectors.map (QueueOp.erase n) ++ [.dirWrite n .final])) l' r := by
  have notErase : ∀ k, .erase n k ∉ w := fun k m => old (h.erases k m).2.1
  have notFinal : .dirWrite n .final ∉ w := fun m => by
    obtain ⟨x, y, e⟩ := List.append_of_mem m
    exact old (h.final x y e).1
  have ops : ∀ q, q ∈ e.sectors.map (QueueOp.erase n) ++ [.dirWrite n .final] ↔
      (∃ k ∈ e.sectors, q = .erase n k) ∨ q = .dirWrite n .final := by
    intro q
    rw [List.mem_append, List.mem_map, List.mem_singleton]
    exact or_congr ⟨fun ⟨k, hk, e⟩ => ⟨k, hk, e.symm⟩, fun ⟨k, hk, e⟩ => ⟨k, hk, e.symm⟩⟩ Iff.rfl
  have noClosing : .dirWrite n .closing ∉ e.sectors.map (QueueOp.erase n) ++ [.dirWrite n .final] := fun m => by
    obtain ⟨k, -, c⟩ | c := (ops _).mp m <;> cases c
  exact
    { unit := fun _ => hn
      empty := fun _ k => by rw [new] at k; cases k
      loading := fun k => absurd k no
      closing := fun m => by
        have m := (List.mem_append.mp m).resolve_right noClosing
        refine ⟨?_, .inr new⟩
        rw [List.count_append, (h.closing m).1, List.count_eq_zero_of_not_mem noClosing]
      erases := fun k m => by
        have m := (List.mem_append.mp m).resolve_left (notErase k)
        obtain ⟨j, hj, c⟩ | c := (ops _).mp m
        · cases c
          refine ⟨?_, new, sec ▸ hj⟩
          rw [List.count_append, List.count_append, List.count_eq_zero_of_not_mem (notErase k),
            List.count_map_of_injective _ _ (fun a b e => by injection e) k, List.count_eq_one_of_mem nd hj,
            List.count_eq_zero_of_not_mem (l := [_]) (by simp)]
        · cases c
      final := fun a b c => by
        have notIn : .dirWrite n .final ∉ w ++ e.sectors.map (QueueOp.erase n) := fun m => by
          obtain m | m := List.mem_append.mp m
          · exact notFinal m
          · obtain ⟨k, -, c⟩ := List.mem_map.mp m; cases c
        rw [← List.append_assoc] at c
        obtain ⟨rfl, rfl⟩ : a = w ++ e.sectors.map (QueueOp.erase n) ∧ b = [] := by
          obtain ⟨x, ha, hb⟩ | ⟨x, ha, hb⟩ := List.append_eq_append_iff.mp c
          · cases x with
            | nil => exact ⟨by rw [ha, List.append_nil], by injection hb with _ hb; exact hb.symm⟩
            | cons y ys => simp at hb
          · cases x with
            | nil => exact ⟨by rw [ha, List.append_nil], by injection hb⟩
            | cons y ys =>
              injection hb with hy _
              exact absurd (by rw [ha, ← hy]; simp) notIn
        exact ⟨new, fun k hk => List.mem_append_right _ (List.mem_map.mpr ⟨k, sec ▸ hk, rfl⟩), List.not_mem_nil,
          List.not_mem_nil⟩
      resuming := fun k => absurd k nr }

/-- An entry at the front of a slot's that is no erase has ended: what stands behind it stands (R142). -/
theorem SlotLaw.tail {n : Nat} {e : DirEntry} {q : QueueOp} {w : List QueueOp} {l r : Prop} (h : SlotLaw n e (q :: w) l r)
    (ne : ∀ k, q ≠ .erase n k) : SlotLaw n e w l r where
  unit k := h.unit (k.imp (fun _ => by simp) id)
  empty := h.empty
  loading k := (h.loading k).imp id fun nc m => nc (List.mem_cons_of_mem _ m)
  closing m := by
    obtain ⟨c, st⟩ := h.closing (List.mem_cons_of_mem _ m)
    have := List.count_pos_iff.mpr m
    rw [List.count_cons] at c
    split at c
    · omega
    · exact ⟨c, st⟩
  erases k m := by
    obtain ⟨c, st⟩ := h.erases k (List.mem_cons_of_mem _ m)
    rw [List.count_cons_of_ne (ne k)] at c
    exact ⟨c, st⟩
  final a b c := by
    obtain ⟨er, all, nb⟩ := h.final (q :: a) b (by rw [c]; rfl)
    exact ⟨er, fun k hk => (List.mem_cons.mp (all k hk)).resolve_left fun c => ne k c.symm, nb⟩
  resuming k := by
    obtain ⟨er, nf, no⟩ := h.resuming k
    exact ⟨er, fun m => nf (List.mem_cons_of_mem _ m), fun k m => no k (List.mem_cons_of_mem _ m)⟩

/-- A sector that has been erased is taken out of its slot's list (R149). -/
theorem SlotLaw.eraseDone {n k : Nat} {e e' : DirEntry} {w : List QueueOp} {l r : Prop}
    (h : SlotLaw n e (.erase n k :: w) l r) (st : e'.state = e.state)
    (sec : e'.sectors = e.sectors.filter (· ≠ k)) : SlotLaw n e' w l r := by
  obtain ⟨once, er, -⟩ := h.erases k List.mem_cons_self
  rw [List.count_cons_self] at once
  have gone : .erase n k ∉ w := List.count_eq_zero.mp (by omega)
  have kept : ∀ j, j ∈ e.sectors → j ≠ k → j ∈ e'.sectors := fun j hj ne => by
    rw [sec]; exact List.mem_filter.mpr ⟨hj, decide_eq_true ne⟩
  exact
    { unit := fun _ => h.unit (.inl (by simp))
      empty := fun _ c => by rw [st, er] at c; cases c
      loading := fun c => by obtain ⟨c, -⟩ := h.loading c; rw [er] at c; cases c
      closing := fun m => by
        obtain ⟨c, -⟩ := h.closing (List.mem_cons_of_mem _ m)
        rw [List.count_cons_of_ne (show QueueOp.erase n k ≠ .dirWrite n .closing from nofun)] at c
        exact ⟨c, .inr (st.trans er)⟩
      erases := fun j m => by
        have ne : j ≠ k := fun c => gone (c ▸ m)
        obtain ⟨c, -, hj⟩ := h.erases j (List.mem_cons_of_mem _ m)
        rw [List.count_cons_of_ne (fun c => ne (by injection c with _ c; exact c.symm))] at c
        exact ⟨c, st.trans er, kept j hj ne⟩
      final := fun a b c => by
        obtain ⟨-, all, nb⟩ := h.final (.erase n k :: a) b (by rw [c]; rfl)
        refine ⟨st.trans er, fun j hj => ?_, nb⟩
        rw [sec] at hj
        obtain ⟨hj, ne⟩ := List.mem_filter.mp hj
        exact (List.mem_cons.mp (all j hj)).resolve_left fun c =>
          of_decide_eq_true ne (by injection c)
      resuming := fun c => absurd List.mem_cons_self ((h.resuming c).2.2 k) }

/-- The closing directory write has ended: a WRITING slot enters CLOSED (R148). -/
theorem SlotLaw.closed {n : Nat} {e e' : DirEntry} {w : List QueueOp} {l r : Prop}
    (h : SlotLaw n e (.dirWrite n .closing :: w) l r) (old : e.state = .writing) (new : e'.state = .closed) :
    SlotLaw n e' w l r := by
  obtain ⟨once, -⟩ := h.closing List.mem_cons_self
  rw [List.count_cons_self] at once
  have gone : .dirWrite n .closing ∉ w := List.count_eq_zero.mp (by omega)
  exact
    { unit := fun _ => h.unit (.inl (by simp))
      empty := fun _ c => by rw [new] at c; cases c
      loading := fun c => absurd List.mem_cons_self (h.loading c).2
      closing := fun m => absurd m gone
      erases := fun j m => by
        obtain ⟨-, c, -⟩ := h.erases j (List.mem_cons_of_mem _ m); rw [old] at c; cases c
      final := fun a b c => by
        obtain ⟨c, -⟩ := h.final (.dirWrite n .closing :: a) b (by rw [c]; rfl); rw [old] at c; cases c
      resuming := fun c => by obtain ⟨c, -⟩ := h.resuming c; rw [old] at c; cases c }

/-- The final directory write has ended: no sector is left, and the slot is EMPTY (R149). -/
theorem SlotLaw.emptied {n : Nat} {e : DirEntry} {w : List QueueOp} {l r : Prop}
    (h : SlotLaw n e (.dirWrite n .final :: w) l r) : e.sectors = [] ∧ SlotLaw n emptyEntry w l r := by
  obtain ⟨er, all, nf, nc⟩ := h.final [] w rfl
  have none : e.sectors = [] := List.eq_nil_iff_forall_not_mem.mpr fun k hk => List.not_mem_nil (all k hk)
  refine ⟨none, ?_⟩
  exact
    { unit := fun _ => h.unit (.inl (by simp))
      empty := fun _ _ => rfl
      loading := fun c => by obtain ⟨c, -⟩ := h.loading c; rw [er] at c; cases c
      closing := fun m => absurd m nc
      erases := fun j m => by
        obtain ⟨-, -, hj⟩ := h.erases j (List.mem_cons_of_mem _ m); rw [none] at hj; cases hj
      final := fun a b c => absurd (by rw [c]; simp) nf
      resuming := fun c => absurd List.mem_cons_self (h.resuming c).2.1 }

end Sys2Proof.Machine
end

section
/-! The Tune Store's requests and the ends of its operations keep the laws (R138 to R153). -/

namespace Sys2Proof.Machine

/-! ### The store's fields -/

theorem hasRoom_iff {k : Nat} {s : State} :
    hasRoom k s = true ↔ s.store.resume = [] ∧ s.store.queue.length + k ≤ 8 := by
  rw [hasRoom, Bool.and_eq_true, List.isEmpty_iff, decide_eq_true_eq]

/-- The images of a store come from its image sectors, its queue, its operation and its load: each of these with no new one. -/
theorem images_mono {st st' : Store}
    (a : ∀ im ∈ pageImages st'.imgA, im ∈ st.images := by
      exact fun im h => List.mem_append_left _ (List.mem_append_left _ (List.mem_append_left _ (List.mem_append_left _ h))))
    (b : ∀ im ∈ pageImages st'.imgB, im ∈ st.images := by
      exact fun im h => List.mem_append_left _ (List.mem_append_left _ (List.mem_append_left _ (List.mem_append_right _ h))))
    (queue : ∀ q ∈ st'.queue, ∀ im ∈ q.images, im ∈ st.images := by
      exact fun q hq im h => List.mem_append_left _ (List.mem_append_left _
        (List.mem_append_right _ (List.mem_flatMap.mpr ⟨q, hq, h⟩))))
    (op : ∀ p, st'.op = some p → st.op = some p := by exact fun _ h => h)
    (load : ∀ im ∈ ((st'.imgLoad.bind (·.src)).map (·.2.2)).toList, im ∈ st.images := by
      exact fun im h => List.mem_append_right _ h) :
    ∀ im ∈ st'.images, im ∈ st.images := by
  intro im h
  obtain h | h := List.mem_append.mp h
  · obtain h | h := List.mem_append.mp h
    · obtain h | h := List.mem_append.mp h
      · obtain h | h := List.mem_append.mp h
        · exact a im h
        · exact b im h
      · obtain ⟨q, hq, h⟩ := List.mem_flatMap.mp h
        exact queue q hq im h
    · cases e : st'.op with
      | none => rw [e] at h; cases h
      | some p =>
        rw [e] at h
        exact List.mem_append_left _ (List.mem_append_right _ (by rw [op p e]; exact h))
  · exact load im h

/-- The images of the queue of a store. -/
theorem queue_images {st : Store} {q : QueueOp} (hq : q ∈ st.queue) {im : Image} (h : im ∈ q.images) : im ∈ st.images :=
  List.mem_append_left _ (List.mem_append_left _ (List.mem_append_right _ (List.mem_flatMap.mpr ⟨q, hq, h⟩)))

/-- Operations that carry no image join the queue (R142). -/
theorem queued_images {st : Store} {l : List QueueOp} (h : ∀ q ∈ l, q.images = []) :
    ∀ q ∈ st.queue ++ l, ∀ im ∈ q.images, im ∈ st.images := by
  intro q hq im hi
  obtain hq | hq := List.mem_append.mp hq
  · exact queue_images hq hi
  · rw [h q hq] at hi; cases hi

/-- What joins the queue adds its own entries of a slot to those that stand. -/
theorem entriesOf_queue {st st' : Store} {l : List QueueOp} (m : Nat) (op : st'.op = st.op := by rfl)
    (q : st'.queue = st.queue ++ l := by rfl) :
    entriesOf m st'.entries = entriesOf m st.entries ++ entriesOf m l := by
  rw [entries_queued op q, entriesOf_append]

theorem SlotLaw.queue {n : Nat} {e : DirEntry} {st st' : Store} {l : List QueueOp} {x r : Prop}
    (h : SlotLaw n e (entriesOf n st.entries ++ entriesOf n l) x r) (op : st'.op = st.op := by rfl)
    (q : st'.queue = st.queue ++ l := by rfl) : SlotLaw n e (entriesOf n st'.entries) x r := by
  rw [entriesOf_queue n op q]; exact h

/-- Operations that concern no slot join the queue: each slot's entries stand. -/
theorem entriesOf_joined {st st' : Store} {l : List QueueOp} (plain : ∀ q ∈ l, ∀ m, concerns m q = false)
    (m : Nat) (op : st'.op = st.op := by rfl) (q : st'.queue = st.queue ++ l := by rfl) :
    entriesOf m st'.entries = entriesOf m st.entries := by
  rw [entries_queued op q, entriesOf_append, entriesOf_none fun q hq => plain q hq m, List.append_nil]

theorem SlotLaw.joined {n : Nat} {e : DirEntry} {st st' : Store} {l : List QueueOp} {x r : Prop}
    (h : SlotLaw n e (entriesOf n st.entries) x r) (plain : ∀ q ∈ l, ∀ m, concerns m q = false)
    (op : st'.op = st.op := by rfl) (q : st'.queue = st.queue ++ l := by rfl) :
    SlotLaw n e (entriesOf n st'.entries) x r := by
  rw [entriesOf_joined plain n op q]; exact h

/-! ### Loading -/

theorem slotOpenAct_keeps (n tempo division : Nat) (scene : Option Nat) (title : String) (s : State) :
    Keeps s (slotOpenAct n tempo division scene title s).1 := by
  unfold slotOpenAct
  split
  · exact Keeps.rfl
  next range =>
    split
    · exact Keeps.rfl
    next empty =>
      split
      · exact Keeps.rfl
      next free =>
        split
        · exact Keeps.rfl
        next room =>
          simp only [Bool.or_eq_true, Bool.not_eq_true', not_or, Bool.not_eq_false] at range
          obtain ⟨⟨⟨⟨hn, -⟩, -⟩, -⟩, -⟩ := range
          obtain ⟨-, room⟩ := hasRoom_iff.mp (by simpa using room)
          have old : (rd s.store.slots n emptyEntry).state = .empty := not_not.mp empty
          refine Keeps.trans (Keeps.ofStore (fun _ => ?queue) ?images ?scan ?sectors) (kick_struck _).keeps
          case queue => rw [List.length_append]; exact room
          case images => exact images_mono (queue := queued_images fun q hq => by rw [List.mem_singleton.mp hq]; rfl)
          case scan => exact fun k => k.congr rfl fun _ h => h
          case sectors =>
            intro k
            have plain : ∀ q ∈ [QueueOp.dirWrite n .plain], ∀ m, concerns m q = false := fun q hq m => by
              rw [List.mem_singleton.mp hq]; rfl
            refine k.atSlot hn rfl (fun rest p => ?_) rfl (k.scan.congr rfl fun _ h => h)
              (fun m _ => entriesOf_joined plain m) (fun m ne l => ?_)
              fun h => SlotLaw.joined ((h.opened hn old rfl).unload fun _ => trivial) plain
            · rw [k.empty n hn old] at p; exact p
            · obtain ⟨l, hl, e⟩ := l
              cases hl
              exact absurd e.symm ne

/-- A page's program carries no image and concerns no slot (R147). -/
theorem programOf_concerns (s : State) (n k : Nat) (es : List Event) :
    ∀ q ∈ programOf s n k es, q.images = [] ∧ ∀ m, concerns m q = false := by
  intro q hq
  unfold programOf at hq
  split at hq
  · rw [List.mem_singleton.mp hq]; exact ⟨rfl, fun _ => rfl⟩
  · cases hq

/-- A page takes at most one program (R147). -/
theorem programOf_length (s : State) (n k : Nat) (es : List Event) : (programOf s n k es).length ≤ 1 := by
  unfold programOf
  split
  · exact Nat.le_refl _
  · exact Nat.zero_le _

/-- The loading record names the slot a PAGE or SLOT CLOSE is for (R147, R148). -/
theorem loadingOf_some {s : State} {n : Nat} {l : Loading} (h : loadingOf s n = some l) :
    s.store.load = some l ∧ l.slot = n := by
  obtain ⟨a, b⟩ := Option.filter_eq_some_iff.mp h
  exact ⟨a, of_decide_eq_true b⟩

theorem joined_slot (l : Loading) (part : Nat) (es : List Event) : (l.joined part es).slot = l.slot := by
  unfold Loading.joined
  dsimp only
  split <;> rfl

/-- A part of a page that joins the load, with operations that concern no slot: the sectors stand, or the free list's first
goes to the slot (R141, R147). -/
theorem pageJoined_keeps {n : Nat} {s : State} {l m : Loading} {ops : List QueueOp} (hn : unitOk 64 n = true)
    (hl : s.store.load = some l) (hs : l.slot = n) (hm : m.slot = n) (images : ∀ q ∈ ops, q.images = [])
    (plain : ∀ q ∈ ops, ∀ m, concerns m q = false)
    (room : s.store.queue.length ≤ 8 → s.store.queue.length + ops.length ≤ 8) (t : State) (ht : t = s ∨ t = allocate n s) :
    Keeps s { t with store := { t.store with load := some m, queue := t.store.queue ++ ops } } := by
  have loading : s.store.loads n := ⟨l, hl, hs⟩
  have loads : ∀ k, (∃ l', some m = some l' ∧ l'.slot = k) → k = n := by
    rintro k ⟨_, e, rfl⟩
    cases e; exact hm
  have stays : Keeps s { s with store := { s.store with load := some m, queue := s.store.queue ++ ops } } :=
    Keeps.ofStore (fun k => by rw [List.length_append]; exact room k) (images_mono (queue := queued_images images))
      (fun k => k.congr rfl fun _ h => h)
      fun k => k.sameEntries rfl rfl rfl (k.scan.congr rfl fun _ h => h) (entriesOf_joined plain)
        fun k c => by rw [loads k c]; exact loading
  obtain rfl | rfl := ht
  · exact stays
  · unfold allocate
    split
    · exact stays
    next sec rest hf =>
      refine Keeps.ofStore (fun k => by rw [List.length_append]; exact room k)
        (images_mono (queue := queued_images images)) (fun k => k.congr rfl fun _ h => h)
        fun k => k.atSlot hn rfl (fun owned p => ?shared) rfl (k.scan.congr rfl fun _ h => h)
          (fun m _ => entriesOf_joined plain m) (fun m ne c => absurd (loads m c) ne)
          fun h => SlotLaw.joined
            ((h.extended (e' := { s.slot n with sectors := (s.slot n).sectors ++ [sec] }) loading rfl).unload fun _ => loading) plain
      rw [hf] at p
      refine List.Perm.trans ?_ p
      show (rest ++ (((s.slot n).sectors ++ [sec]) ++ owned)).Perm (sec :: rest ++ ((s.slot n).sectors ++ owned))
      rw [List.append_assoc, List.singleton_append, List.cons_append, ← List.append_assoc, ← List.append_assoc]
      exact List.perm_middle

/-- What a part adds to the queue: a directory write for a new sector, a program for a page that is full (R147). -/
theorem pageOps_concern {n : Nat} {a b : Prop} [Decidable a] [Decidable b] {prog : List QueueOp}
    (h : ∀ q ∈ prog, q.images = [] ∧ ∀ m, concerns m q = false) :
    ∀ q ∈ (if a then [QueueOp.dirWrite n .plain] else []) ++ (if b then prog else []),
      q.images = [] ∧ ∀ m, concerns m q = false := by
  intro q hq
  obtain hq | hq := List.mem_append.mp hq
  · split at hq
    · rw [List.mem_singleton.mp hq]; exact ⟨rfl, fun _ => rfl⟩
    · cases hq
  · split at hq
    · exact h q hq
    · cases hq

/-- A part that begins a sector is the first of its page, the last part fills it: never both (R147). -/
theorem pageOps_length {n k part : Nat} {prog : List QueueOp} (h : prog.length ≤ 1) :
    ((if newSector k part = true then [QueueOp.dirWrite n .plain] else []) ++ (if part = 4 then prog else [])).length ≤
      if newSector k part = true ∨ part = 4 then 1 else 0 := by
  have first : newSector k part = true → part = 1 := fun c => by
    simp only [newSector, Bool.and_eq_true, decide_eq_true_eq] at c
    exact c.1
  rw [List.length_append]
  by_cases a : newSector k part = true
  · rw [if_pos a, if_neg (by have := first a; omega), if_pos (.inl a)]; exact Nat.le_refl _
  · rw [if_neg a]
    by_cases b : part = 4
    · rw [if_pos b, if_pos (.inr b), List.length_nil, Nat.zero_add]; exact h
    · rw [if_neg b]; exact Nat.zero_le _

theorem pageAct_keeps (n k part : Nat) (words : List EventWord) (s : State) : Keeps s (pageAct n k part words s).1 := by
  unfold pageAct
  split
  · exact Keeps.rfl
  next range =>
    simp only [Bool.or_eq_true, Bool.not_eq_true', not_or, Bool.not_eq_false] at range
    obtain ⟨⟨hn, -⟩, -⟩ := range
    split
    · exact Keeps.rfl
    next l hl =>
      obtain ⟨hl, hs⟩ := loadingOf_some hl
      split
      · exact Keeps.rfl
      · split
        · exact Keeps.rfl
        · split
          · exact Keeps.rfl
          next busy =>
            have room : s.store.queue.length ≤ 8 →
                s.store.queue.length + (if newSector k part = true ∨ part = 4 then 1 else 0) ≤ 8 := fun bound => by
              split
              next c =>
                by_contra full
                have no : hasRoom 1 s = false := by
                  by_contra r
                  exact full (hasRoom_iff.mp (by simpa using r)).2
                exact busy (by simpa [no] using c)
              next => exact bound
            refine Keeps.trans (pageJoined_keeps hn hl hs ((joined_slot _ _ _).trans hs)
              (fun q hq => (pageOps_concern (programOf_concerns _ _ _ _) q hq).1)
              (fun q hq => (pageOps_concern (programOf_concerns _ _ _ _) q hq).2)
              ?room (if newSector k part = true then allocate n s else s) ?alloc) (kick_struck _).keeps
            case alloc =>
              split
              · exact .inr rfl
              · exact .inl rfl
            case room =>
              exact fun bound => Nat.le_trans
                (Nat.add_le_add_left (pageOps_length (programOf_length _ _ _ _)) _) (room bound)

/-- A slot's entries are of no other slot. -/
theorem entriesOf_other {n m : Nat} {l : List QueueOp} (ne : m ≠ n) (h : ∀ q ∈ l, concerns n q = true ∨ ∀ k, concerns k q = false) :
    entriesOf m l = [] := by
  refine entriesOf_none fun q hq => ?_
  obtain c | c := h q hq
  · cases q with
    | erase k j =>
      cases of_decide_eq_true c
      exact decide_eq_false fun e => ne e.symm
    | dirWrite k p =>
      cases p with
      | plain => rfl
      | closing | final =>
        cases of_decide_eq_true c
        exact decide_eq_false fun e => ne e.symm
    | program | imageErase | imageProgram => rfl
  · exact c m

/-- Operations that join the queue (R142): what the store keeps with them, it keeps when the next may begin. -/
theorem enqueue_keeps {s t : State} {l : List QueueOp}
    (h : Keeps s { t with store := { t.store with queue := t.store.queue ++ l } }) : Keeps s (enqueue l t) :=
  h.trans (kick_struck _).keeps

/-- The load of a slot ends, its closing directory write queued behind the last page's program (R148). -/
theorem slotClosed_keeps {n : Nat} {s : State} {e : DirEntry} {ops : List QueueOp} (hn : unitOk 64 n = true)
    (loading : s.store.loads n) (st : e.state = (s.slot n).state) (sec : e.sectors = (s.slot n).sectors)
    (h : ∀ q ∈ ops, q.images = [] ∧ ∀ m, concerns m q = false) (room : s.store.queue.length + (ops.length + 1) ≤ 8) :
    Keeps s (enqueue (ops ++ [.dirWrite n .closing])
      { setSlot n e s with store := { (setSlot n e s).store with load := none } }) := by
  refine enqueue_keeps (Keeps.ofStore (s := s) (st := { s.store with
    slots := wr s.store.slots n e, load := none, queue := s.store.queue ++ (ops ++ [.dirWrite n .closing]) })
    (fun _ => ?queue) ?images (fun k => k.congr rfl fun _ h => h) fun k => ?sectors)
  case queue =>
    rw [List.length_append, List.length_append]
    exact room
  case images =>
    refine images_mono (queue := queued_images fun q hq => ?_)
    obtain hq | hq := List.mem_append.mp hq
    · exact (h q hq).1
    · rw [List.mem_singleton.mp hq]; rfl
  case sectors =>
    have queued : ∀ m, entriesOf m (ops ++ [.dirWrite n .closing]) = entriesOf m [.dirWrite n .closing] := fun m => by
      rw [entriesOf_append, entriesOf_none (fun q hq => (h q hq).2 m), List.nil_append]
    refine k.atSlot hn rfl (fun rest p => by rw [sec]; exact p) rfl (k.scan.congr rfl fun _ h => h)
      (fun m ne => (entriesOf_queue (st := s.store) m).trans ?_) (fun m ne c => ?_)
      fun h => SlotLaw.queue (st := s.store) (l := ops ++ [.dirWrite n .closing]) ?_
    · rw [queued, entriesOf_other (l := [.dirWrite n .closing]) ne fun q hq => .inl ?_, List.append_nil]
      rw [List.mem_singleton.mp hq]; exact concerns_closing n
    · obtain ⟨_, c, -⟩ := c
      cases c
    · rw [queued, entriesOf_cons, if_pos (concerns_closing n)]
      exact h.closedUp loading st nofun

theorem slotCloseAct_keeps (n count : Nat) (s : State) : Keeps s (slotCloseAct n count s).1 := by
  unfold slotCloseAct
  split
  · exact Keeps.rfl
  next range =>
    simp only [Bool.or_eq_true, Bool.not_eq_true', not_or, Bool.not_eq_false] at range
    obtain ⟨hn, -⟩ := range
    split
    · exact Keeps.rfl
    next l hl =>
      obtain ⟨hl, hs⟩ := loadingOf_some hl
      split
      · exact Keeps.rfl
      · have closed := fun (ops : List QueueOp) h room => slotClosed_keeps (s := s) (ops := ops)
          (e := { s.slot n with events := count, pages := (count + 31) / 32, bells := l.bells }) hn ⟨l, hl, hs⟩ rfl rfl h room
        have one := programOf_length s n l.page l.openPage
        have prog := programOf_concerns s n l.page l.openPage
        generalize programOf s n l.page l.openPage = ops at one prog
        by_cases none : l.openPage.isEmpty = true
        · simp only [if_pos none]
          split
          · exact Keeps.rfl
          next room => exact closed [] (fun _ hq => absurd hq List.not_mem_nil) (hasRoom_iff.mp (by simpa using room)).2
        · simp only [if_neg none]
          split
          · exact Keeps.rfl
          next room =>
            have two := (hasRoom_iff.mp (by simpa using room)).2
            exact closed ops prog (by omega)

/-! ### Erasing -/

/-- An erased slot's entries, and those of no other (R149). -/
theorem eraseOps_concern (n : Nat) (e : DirEntry) :
    (∀ q ∈ eraseOps n e, q.images = [] ∧ (concerns n q = true ∨ ∀ k, concerns k q = false)) ∧
      entriesOf n (eraseOps n e) = e.sectors.map (QueueOp.erase n) ++ [.dirWrite n .final] := by
  have all : entriesOf n (e.sectors.map (QueueOp.erase n) ++ [.dirWrite n .final]) =
      e.sectors.map (QueueOp.erase n) ++ [.dirWrite n .final] := by
    refine List.filter_eq_self.mpr fun q hq => ?_
    obtain hq | hq := List.mem_append.mp hq
    · obtain ⟨k, -, rfl⟩ := List.mem_map.mp hq
      exact concerns_erase n k
    · rw [List.mem_singleton.mp hq]; exact concerns_final n
  have each : ∀ q ∈ e.sectors.map (QueueOp.erase n) ++ [.dirWrite n .final], q.images = [] ∧ concerns n q = true := by
    intro q hq
    obtain hq | hq := List.mem_append.mp hq
    · obtain ⟨k, -, rfl⟩ := List.mem_map.mp hq
      exact ⟨rfl, concerns_erase n k⟩
    · rw [List.mem_singleton.mp hq]; exact ⟨rfl, concerns_final n⟩
  unfold eraseOps
  split
  next c =>
    rw [List.isEmpty_iff.mp c] at all each ⊢
    exact ⟨fun q hq => (each q hq).imp id .inl, all⟩
  next =>
    refine ⟨fun q hq => ?_, all⟩
    obtain rfl | hq := List.mem_cons.mp hq
    · exact ⟨rfl, .inr fun k => rfl⟩
    · exact (each q hq).imp id .inl

/-- Abandoning a load takes what it queued, none of which concerns a slot (R149). -/
theorem abandonLoad_entries (n : Nat) (s : State) :
    abandonLoad n s = s ∨ ((s.slot n).state = .writing ∧ s.store.loads n ∧
      abandonLoad n s = { s with store := { s.store with
        load := none, queue := s.store.queue.filter fun q => !ofLoad n q } }) := by
  unfold abandonLoad
  split
  next c =>
    obtain ⟨l, hl⟩ := Option.isSome_iff_exists.mp c.2
    exact .inr ⟨c.1, ⟨l, loadingOf_some hl⟩, rfl⟩
  next => exact .inl rfl

end Sys2Proof.Machine
end

section
/-! What stands in the operation queue while nothing is queued: asking for page reads lets operations begin, and no more
(R142, R143). -/

namespace Sys2Proof.Machine

/-- With no resumption waiting, the entries of the queue, that in progress among them, stand. -/
def EntriesStand (s t : State) : Prop :=
  s.store.resume = [] → t.store.resume = [] ∧ t.store.entries = s.store.entries

theorem EntriesStand.ofStore {s t : State} (h : t.store = s.store) : EntriesStand s t := fun r => by
  rw [h]; exact ⟨r, rfl⟩

theorem EntriesStand.trans {s t u : State} (h : EntriesStand s t) (k : EntriesStand t u) : EntriesStand s u := fun r =>
  ⟨(k (h r).1).1, (k (h r).1).2.trans (h r).2⟩

/-- The same, the last operation first. -/
theorem EntriesStand.after {s t u : State} (k : EntriesStand t u) (h : EntriesStand s t) : EntriesStand s u := h.trans k

theorem EntriesStand.fold {α : Type} {f : State → α → State} (h : ∀ s a, EntriesStand s (f s a)) (l : List α) (s : State) :
    EntriesStand s (l.foldl f s) := by
  induction l generalizing s with
  | nil => exact .ofStore rfl
  | cons a l ih => exact (h s a).trans (ih _)

theorem kick_entries (s : State) : EntriesStand s (kick s) := fun r => by
  have none : ∀ st : Store, st.resume = [] → joinResumptions st st.resume = st := by
    intro st h
    rw [h, joinResumptions, ← h]
  have begun : (s.store.begun s.now).resume = [] := by
    rw [(begun_eq _ _).1]; exact r
  have e : (kick s).store = s.store.begun s.now := by
    show joinResumptions ((joinResumptions s.store s.store.resume).begun s.now) _ = _
    rw [none s.store r]
    exact none _ begun
  rw [e]
  exact ⟨begun, begun_entries _ _⟩

theorem askRead_entries (r : Reader) (slot page : Nat) (s : State) : EntriesStand s (askRead r slot page s).1 :=
  (kick_entries _).after fun h => ⟨h, rfl⟩

theorem fetchPage_entries (v slot page : Nat) (s : State) : EntriesStand s (fetchPage v slot page s).1 := by
  simp only [fetchPage]
  split
  · exact askRead_entries _ _ _ _
  · exact .ofStore rfl

theorem takeVoice_entries (v id : Nat) (slot : Option Nat) (s : State) : EntriesStand s (takeVoice v id slot s) := by
  cases slot with
  | none => exact .ofStore rfl
  | some n => exact (fetchPage_entries v n 0 s).trans ((fetchPage_entries v n 1 _).trans (.ofStore rfl))

theorem joinScene_store (p level order : Nat) (k : Option Nat) (s : State) :
    (joinScene p level order k s).store = s.store := by
  rw [joinScene_eq]

theorem admitPerf_entries (p : Perf) (s : State) : EntriesStand s (admitPerf p s) := by
  have last : ∀ u, EntriesStand s u → EntriesStand s (match p.kind with
      | .clock c => if c.carried = true then { u with clock := writeLate c.date c.slot u.clock } else u
      | _ => u) := by
    intro u h
    split
    · split
      · exact h.trans (.ofStore rfl)
      · exact h
    · exact h
  refine last _ ?_
  split
  · refine EntriesStand.trans (.ofStore ?_) (takeVoice_entries _ _ _ _)
    rw [joinScene_store, placeClaims_eq]; rfl
  · refine .ofStore ?_
    rw [joinScene_store, placeClaims_eq]; rfl

theorem createPerf_entries (p : Perf) (s : State) : EntriesStand s (createPerf p s).1 := by
  simp only [createPerf]
  split
  · exact .ofStore rfl
  · split
    · exact (admitPerf_entries _ _).after (.ofStore rfl)
    · split
      · exact .ofStore rfl
      · exact .ofStore rfl

theorem soundQuarter_entries (k : Nat) (sh : Shape) (b : Nat) (s : State) : EntriesStand s (soundQuarter k sh b s) := by
  have h := createPerf_entries (clockPerf s k sh b) s
  simp only [soundQuarter]
  generalize createPerf (clockPerf s k sh b) s = c at h ⊢
  obtain ⟨t, o⟩ := c
  have recorded : ∀ q, EntriesStand s (recordQuarter q k t) := fun q => h.trans (.ofStore rfl)
  cases o with
  | full | admitted => exact recorded _
  | waiting | yielded =>
    dsimp only
    split
    · exact (recorded _).trans (createPerf_entries _ _)
    · exact recorded _

theorem evaluateQuarter_entries (k : Nat) (s : State) : EntriesStand s (evaluateQuarter k s) := by
  have recorded : ∀ q, EntriesStand s (recordQuarter q k s) := fun q => .ofStore rfl
  simp only [evaluateQuarter]
  iterate 7
    split
    · first | exact recorded _ | exact soundQuarter_entries _ _ _ _
  split
  · exact recorded _
  · exact soundQuarter_entries _ _ _ _

/-- All that the frontier loop does to the operation queue (R110, R142). -/
theorem frontierLoop_entries (s : State) : EntriesStand s (frontierLoop s) := by
  have rounds : ∀ n s, EntriesStand s (frontierRounds n s) := by
    intro n
    induction n with
    | zero => exact fun s => .ofStore rfl
    | succ n ih =>
      intro s
      simp only [frontierRounds]
      split
      · exact (evaluateQuarter_entries _ _).trans ((ih _).after (.ofStore rfl))
      · exact .ofStore rfl
  simp only [frontierLoop]
  split
  · exact rounds _ _
  · exact .ofStore rfl

theorem dropProfiles_entries (n : Nat) (s : State) : EntriesStand s (dropProfiles n s) :=
  (frontierLoop_entries _).after (.fold (fun t q => .ofStore (setProfile_store q .none t)) _ _)

theorem dropProfiles_struck (n : Nat) (s : State) : Struck s (dropProfiles n s) :=
  (Struck.fold (fun t q => setProfile_struck q .none t) _ _).trans (frontierLoop_struck _)

end Sys2Proof.Machine
end

section
/-! SLOT ERASE and SAVE keep the laws (R149, R152, R199). -/

namespace Sys2Proof.Machine

/-- The store as an operation leaves it, where what it keeps is read off the store before all of it. -/
theorem Keeps.thenStore {s t : State} {st : Store} (k : Keeps s t) (q : st.queue.length ≤ 8)
    (i : ∀ im ∈ st.images, im ∈ t.store.images) (n : NoScan t.store → NoScan st)
    (l : SectorListsOk s.store → SectorListsOk st) : Keeps s { t with store := st } :=
  { k with
    queue := fun _ => q
    held := fun h => { k.held h with images := fun im hi => (k.held h).images im (i im hi) }
    scan := fun p h => n (k.scan p h)
    sectors := fun _ => l }

/-- The operation in progress, as the entry it is of the queue. -/
def Store.current (st : Store) : List QueueOp :=
  match st.op with
  | some (.queued op, _) => [op]
  | some (.writing n p _ _, _) => [.dirWrite n p]
  | _ => []

theorem entries_eq (st : Store) : st.entries = st.current ++ st.queue := rfl

theorem current_congr {st st' : Store} (h : st'.op = st.op) : st'.current = st.current := by
  rw [Store.current, Store.current, h]

/-- An operation of the queue that concerns another slot is none of the load's (R149). -/
theorem ofLoad_other {n m : Nat} {q : QueueOp} (ne : m ≠ n) (h : concerns m q = true) : ofLoad n q = false := by
  cases q with
  | erase | imageErase | imageProgram => rfl
  | program => cases h
  | dirWrite k p =>
    cases p with
    | plain => cases h
    | closing | final =>
      cases of_decide_eq_true h
      exact decide_eq_false ne

/-- What an abandoned load takes from the queue is no other slot's (R149). -/
theorem entriesOf_filter {n m : Nat} {st : Store} (ne : m ≠ n) (l : Option Loading) :
    entriesOf m ({ st with load := l, queue := st.queue.filter fun q => !ofLoad n q } : Store).entries =
      entriesOf m st.entries := by
  rw [entries_eq, entries_eq, current_congr (st := st) rfl, entriesOf_append, entriesOf_append]
  congr 1
  refine (List.filter_filter ..).trans (List.filter_congr fun q _ => ?_)
  cases c : concerns m q with
  | false => rfl
  | true => rw [ofLoad_other ne c]; rfl

/-- A slot that loads has no entry that concerns it (R144). -/
theorem SlotLaw.idle {n : Nat} {e : DirEntry} {st : Store} {l r : Prop} (h : SlotLaw n e (entriesOf n st.entries) l r)
    (k : l) : entriesOf n st.entries = [] := by
  obtain ⟨wr, nc⟩ := h.loading k
  refine List.eq_nil_iff_forall_not_mem.mpr fun q hq => ?_
  have c := (mem_entriesOf.mp hq).2
  cases q with
  | erase m j =>
    cases of_decide_eq_true c
    obtain ⟨-, k, -⟩ := h.erases j hq
    rw [wr] at k; cases k
  | dirWrite m p =>
    cases p with
    | plain => cases c
    | closing => cases of_decide_eq_true c; exact nc hq
    | final =>
      cases of_decide_eq_true c
      obtain ⟨a, b, e⟩ := List.append_of_mem hq
      obtain ⟨k, -⟩ := h.final a b e
      rw [wr] at k; cases k
  | program | imageErase | imageProgram => cases c

theorem abandonLoad_keeps (n : Nat) (s : State) : Keeps s (abandonLoad n s) := by
  obtain e | ⟨-, loading, e⟩ := abandonLoad_entries n s
  · rw [e]; exact Keeps.rfl
  · rw [e]
    refine Keeps.ofStore (fun k => Nat.le_trans (List.length_filter_le _ _) k)
      (images_mono (queue := fun q hq im => queue_images (List.mem_of_mem_filter hq))) (fun k => k.congr rfl fun _ h => h)
      fun k => k.sameEntries rfl rfl rfl (k.scan.congr rfl fun _ h => h) (fun m => ?_) fun m c => ?_
    · by_cases ne : m = n
      · subst ne
        have none := ((sectorListsOk_iff.mp k).2.2.2 m).idle loading
        refine (List.sublist_nil.mp ?_).trans none.symm
        rw [← none, entries_eq, entries_eq, current_congr (st := s.store) rfl]
        exact (List.Sublist.append (List.Sublist.refl _) List.filter_sublist).filter _
      · exact entriesOf_filter ne _
    · obtain ⟨_, c, -⟩ := c
      cases c

/-- After it no WRITING slot of this number loads (R149). -/
theorem abandonLoad_done {n : Nat} {s : State} :
    (abandonLoad n s).slot n = s.slot n ∧ ((s.slot n).state = .writing → ¬(abandonLoad n s).store.loads n) := by
  unfold abandonLoad
  split
  next => exact ⟨rfl, fun _ ⟨_, c, _⟩ => by cases c⟩
  next c =>
    refine ⟨rfl, fun w ⟨l, hl, hn⟩ => c ⟨w, ?_⟩⟩
    rw [loadingOf, hl, Option.filter_some, if_pos (decide_eq_true hn)]
    rfl

/-- A slot that is condemned has no erase queued yet (R149). -/
theorem SlotLaw.condemned {n : Nat} {e e' : DirEntry} {w : List QueueOp} {l r : Prop} (h : SlotLaw n e w l r)
    (old : e.state ≠ .erasing) (new : e'.state = .erasing) (no : ¬l) : SlotLaw n e' w l r where
  unit := h.unit
  empty _ k := by rw [new] at k; cases k
  loading k := absurd k no
  closing m := ⟨(h.closing m).1, .inr new⟩
  erases k m := absurd (h.erases k m).2.1 old
  final a b k := absurd (h.final a b k).1 old
  resuming k := absurd (h.resuming k).1 old

theorem eraseOps_images (n : Nat) (e : DirEntry) : ∀ q ∈ eraseOps n e, q.images = [] := fun q hq =>
  ((eraseOps_concern n e).1 q hq).1

/-- A slot is put into ERASING with its entries queued: the sectors are its own until each erase has ended (R149). `v` is the
part with the slot's record written, and its profiles gone where it was CLOSED. -/
theorem slotErased_keeps {n : Nat} {t v : State} (hn : unitOk 64 n = true) (old : (t.slot n).state ≠ .erasing)
    (no : (t.slot n).state = .writing → ¬t.store.loads n) (res : t.store.resume = [])
    (room : t.store.queue.length + (eraseOps n (t.slot n)).length ≤ 8)
    (q : Struck (setSlot n { t.slot n with state := .erasing } t) v)
    (stand : EntriesStand (setSlot n { t.slot n with state := .erasing } t) v) :
    Keeps t (enqueue (eraseOps n (t.slot n)) v) := by
  obtain ⟨res', same⟩ := stand res
  have unloads : SectorListsOk t.store → ¬t.store.loads n := fun k c =>
    no (((sectorListsOk_iff.mp k).2.2.2 n).loading c).1 c
  have written : Keeps t (setSlot n { t.slot n with state := .erasing } t) := by
    refine Keeps.ofStore id images_mono (fun k => k.congr rfl fun _ h => h)
      fun k => k.atSlot hn rfl (fun rest p => p) rfl (k.scan.congr rfl fun _ h => h) (fun m _ => rfl) (fun m _ c => c)
        fun h => h.condemned old rfl (unloads k)
  have slots : v.store.slots = wr t.store.slots n { t.slot n with state := .erasing } := by rw [q.array]; rfl
  have free : v.store.free = t.store.free := by rw [q.array]; rfl
  have load : v.store.load = t.store.load := by rw [q.array]; rfl
  have entries : ∀ m, entriesOf m
      ({ v.store with queue := v.store.queue ++ eraseOps n (t.slot n) } : Store).entries =
        entriesOf m t.store.entries ++ entriesOf m (eraseOps n (t.slot n)) := fun m => by
    rw [entriesOf_queue (st := v.store) m, same]; rfl
  refine enqueue_keeps ((written.trans q.keeps).thenStore ?_
    (images_mono (queue := queued_images (eraseOps_images n _))) (fun k => k.congr rfl fun _ h => h) fun k => ?_)
  · rw [List.length_append]
    have := (q.room res).2
    simp only [setSlot_store] at this
    omega
  · have scan : NoScan v.store := q.scan (k.scan.congr rfl fun _ h => h)
    refine k.atSlot hn slots (fun rest p => ?_) (res'.trans res.symm) (scan.congr rfl fun _ h => h) (fun m ne => ?_)
      (fun m _ c => ?_) fun h => ?_
    · rw [show ({ v.store with queue := _ } : Store).free = t.store.free from free]; exact p
    · rw [entries, entriesOf_other (l := eraseOps n (t.slot n)) ne fun q hq => ((eraseOps_concern n _).1 q hq).2, List.append_nil]
    · obtain ⟨l, hl, e⟩ := c
      exact ⟨l, load ▸ hl, e⟩
    · rw [entries, (eraseOps_concern n _).2]
      refine h.erased hn old rfl rfl (k.nodup hn) (fun c => ?_) fun c => ?_
      · obtain ⟨l, hl, e⟩ := c
        exact unloads k ⟨l, load ▸ hl, e⟩
      · rw [res] at c; cases c

theorem slotEraseAct_keeps (n : Nat) (s : State) : Keeps s (slotEraseAct n s).1 := by
  unfold slotEraseAct
  split
  · exact Keeps.rfl
  next hn =>
    split
    · exact Keeps.rfl
    · dsimp only
      split
      · exact Keeps.rfl
      next old =>
        split
        · exact Keeps.rfl
        next room =>
          obtain ⟨res, room⟩ := hasRoom_iff.mp (by simpa using room)
          obtain ⟨here, gone⟩ := abandonLoad_done (n := n) (s := s)
          rw [← here] at old room gone ⊢
          refine (abandonLoad_keeps n s).trans (slotErased_keeps (by simpa using hn) (not_or.mp old).2 gone res room ?_ ?_)
          · split
            · exact dropProfiles_struck _ _
            · exact Struck.rfl
          · split
            · exact dropProfiles_entries _ _
            · exact .ofStore rfl

/-- What SAVE queues concerns no slot, and its image is the one captured (R152). -/
theorem saveOps_concern (b : Bool) (k : Nat) (im : Image) :
    ∀ q ∈ (.imageErase b :: (List.range 6).map fun p => QueueOp.imageProgram b p k im),
      (∀ i ∈ q.images, i = im) ∧ ∀ m, concerns m q = false := by
  intro q hq
  obtain rfl | hq := List.mem_cons.mp hq
  · exact ⟨fun i hi => absurd hi List.not_mem_nil, fun _ => rfl⟩
  · obtain ⟨p, -, rfl⟩ := List.mem_map.mp hq
    exact ⟨fun i hi => List.mem_singleton.mp hi, fun _ => rfl⟩

/-- The images of a store whose queue has been joined by operations of one image (R152). -/
theorem joined_images {st : Store} {l : List QueueOp} {x : Image} (h : ∀ q ∈ l, ∀ i ∈ q.images, i = x) {im : Image}
    (k : im ∈ ({ st with queue := st.queue ++ l } : Store).images) : im = x ∨ im ∈ st.images := by
  obtain k | k := List.mem_append.mp k
  · obtain k | k := List.mem_append.mp k
    · obtain k | k := List.mem_append.mp k
      · exact .inr (List.mem_append_left _ (List.mem_append_left _ (List.mem_append_left _ k)))
      · obtain ⟨q, hq, hi⟩ := List.mem_flatMap.mp k
        obtain hq | hq := List.mem_append.mp hq
        · exact .inr (queue_images hq hi)
        · exact .inl (h q hq im hi)
    · exact .inr (List.mem_append_left _ (List.mem_append_right _ k))
  · exact .inr (List.mem_append_right _ k)

/-- The image as it stands joins the queue: the configuration it holds is the one in force (R152). -/
theorem saved_keeps {s : State} {l : List QueueOp} {target : Option Bool} {k : Option Nat}
    (h : ∀ q ∈ l, (∀ i ∈ q.images, i = capture s) ∧ ∀ m, concerns m q = false) (room : s.store.queue.length + l.length ≤ 8) :
    Keeps s { s with store := { s.store with queue := s.store.queue ++ l, saveTarget := target, saveSeq := k } } :=
  { Keeps.rfl (s := s) with
    queue := fun _ => Nat.le_trans (Nat.le_of_eq List.length_append) room
    held := fun c =>
      have images : ∀ im ∈ ({ s.store with queue := s.store.queue ++ l } : Store).images, SettingsOk im.settings := by
        intro im hi
        obtain rfl | hi := joined_images (fun q hq => (h q hq).1) hi
        · exact c.cfg
        · exact c.images im hi
      { c with images := images }
    scan := fun _ c => c.congr rfl fun _ h => h
    sectors := fun _ c => c.sameEntries rfl rfl rfl (c.scan.congr rfl fun _ h => h)
      (entriesOf_joined fun q hq => (h q hq).2) fun _ c => c }

theorem saveAct_keeps (s : State) : Keeps s (saveAct s).1 := by
  unfold saveAct
  split
  · exact Keeps.rfl
  next room =>
    refine enqueue_keeps (saved_keeps (saveOps_concern (targetOf s.store) (greatestSeq s.store + 1) (capture s)) ?_)
    rw [List.length_cons, List.length_map, List.length_range]
    exact (hasRoom_iff.mp (by simpa using room)).2

end Sys2Proof.Machine
end

section
/-! The ends of programs, erases and directory writes keep the laws (R138, R140, R142, R148, R149, R152). -/

namespace Sys2Proof.Machine

theorem SlotLaw.dropped {n : Nat} {e : DirEntry} {c w : List QueueOp} {l r : Prop} (ne : ∀ q ∈ c, ∀ m k, q ≠ .erase m k)
    (h : SlotLaw n e (entriesOf n (c ++ w)) l r) : SlotLaw n e (entriesOf n w) l r := by
  induction c with
  | nil => exact h
  | cons q c ih =>
    refine ih (fun x hx => ne x (List.mem_cons_of_mem _ hx)) ?_
    rw [List.cons_append, entriesOf_cons] at h
    split at h
    · exact h.tail fun k => ne q List.mem_cons_self n k
    · exact h

/-- With no operation in progress the entries are the queue's. -/
theorem entries_idle {st st' : Store} (op : st'.op = none) (queue : st'.queue = st.queue) : st'.entries = st.queue := by
  rw [entries_eq, Store.current, op, queue]; rfl

/-- An operation that ends and is no erase keeps the sectors' law. -/
theorem SectorListsOk.ended {st st' : Store} (h : SectorListsOk st) (ne : ∀ q ∈ st.current, ∀ m k, q ≠ .erase m k)
    (op : st'.op = none) (queue : st'.queue = st.queue) (slots : st'.slots = st.slots) (free : st'.free = st.free)
    (load : st'.load = st.load) (reads : st'.reads = st.reads) (resume : st'.resume = st.resume) : SectorListsOk st' := by
  obtain ⟨perm, nd, scan, law⟩ := sectorListsOk_iff.mp h
  refine sectorListsOk_iff.mpr ⟨?_, resume ▸ nd, scan.congr reads (fun p e => by rw [op] at e; cases e), fun n => ?_⟩
  · rw [ownedSectors, slots, free]; exact perm
  · rw [slots, resume, entries_idle op queue, Store.loads, load]
    refine SlotLaw.dropped (c := st.current) ne ?_
    rw [← entries_eq]
    exact law n

/-- An operation that ends and is no erase keeps every law, where what it wrote is no law's matter. -/
theorem ended_keeps {s : State} {st : Store} (ne : ∀ q ∈ s.store.current, ∀ m k, q ≠ .erase m k)
    (images : ∀ im ∈ st.images, im ∈ s.store.images) (op : st.op = none := by rfl)
    (queue : st.queue = s.store.queue := by rfl) (slots : st.slots = s.store.slots := by rfl)
    (free : st.free = s.store.free := by rfl) (load : st.load = s.store.load := by rfl)
    (reads : st.reads = s.store.reads := by rfl) (resume : st.resume = s.store.resume := by rfl) :
    Keeps s { s with store := st } :=
  Keeps.ofStore (by rw [queue]; exact id) images (fun k => k.congr reads fun p e => by rw [op] at e; cases e)
    fun k => k.ended ne op queue slots free load reads resume

/-- The entry of the queue that an operation in progress is (R142). -/
def Running.entries : Running → List QueueOp
  | .queued op => [op]
  | .writing n p _ _ => [.dirWrite n p]
  | .read _ _ _ => []

theorem current_of {st : Store} {q : Running} {t : Nat} (h : st.op = some (q, t)) : st.current = q.entries := by
  rw [Store.current, h]
  cases q <;> rfl

/-- An operation in progress that is no erase. -/
theorem current_plain {st : Store} {q : Running} {t : Nat} (h : st.op = some (q, t))
    (ne : ∀ x ∈ q.entries, ∀ m k, x ≠ .erase m k) : ∀ x ∈ st.current, ∀ m k, x ≠ .erase m k := by
  rw [current_of h]; exact ne

/-- The image of the operation in progress is one the store holds. -/
theorem op_images {st : Store} {q : Running} {t : Nat} (h : st.op = some (q, t)) {im : Image} (k : im ∈ q.images) :
    im ∈ st.images := by
  refine List.mem_append_left _ (List.mem_append_right _ ?_)
  rw [h]; exact k

/-- An image sector takes a page (R152). -/
theorem pageImages_write {v : ImageSector} {k q : Nat} {x im : Image}
    (h : im ∈ pageImages (wr v k (some (q, x)))) : im = x ∨ im ∈ pageImages v := by
  obtain ⟨p, hp, e⟩ := List.mem_filterMap.mp h
  rw [wr] at hp
  split at hp
  · rw [Vector.toList_setIfInBounds] at hp
    obtain hp | rfl := List.mem_or_eq_of_mem_set hp
    · exact .inr (List.mem_filterMap.mpr ⟨p, hp, e⟩)
    · cases e; exact .inl rfl
  · exact .inr (List.mem_filterMap.mpr ⟨p, hp, e⟩)

/-- An image sector is written: its images are the store's still. -/
theorem setImageSector_images {st st' : Store} {b : Bool} {v : ImageSector} (h : ∀ im ∈ pageImages v, im ∈ st.images)
    (e : st' = setImageSector b v { st with op := none }) : ∀ im ∈ st'.images, im ∈ st.images := by
  subst e
  cases b with
  | false => exact images_mono (a := h) (op := fun _ e => by cases e)
  | true => exact images_mono (b := h) (op := fun _ e => by cases e)

theorem imageSector_images {st : Store} {b : Bool} : ∀ im ∈ pageImages (imageSector b st), im ∈ st.images := by
  intro im h
  cases b with
  | false => exact List.mem_append_left _ (List.mem_append_left _ (List.mem_append_left _ (List.mem_append_left _ h)))
  | true => exact List.mem_append_left _ (List.mem_append_left _ (List.mem_append_left _ (List.mem_append_right _ h)))

/-- An image operation ends: it wrote an image sector (R152). -/
theorem imageWritten_keeps {s : State} {b : Bool} {v : ImageSector} (ne : ∀ q ∈ s.store.current, ∀ m k, q ≠ .erase m k)
    (h : ∀ im ∈ pageImages v, im ∈ s.store.images) :
    Keeps s { s with store := setImageSector b v { s.store with op := none } } := by
  refine ended_keeps ne (setImageSector_images h rfl) ?_ ?_ ?_ ?_ ?_ ?_ ?_ <;> cases b <;> rfl

theorem programEnds_keeps (s : State) : Keeps s (programEnds s) := by
  unfold programEnds
  split
  next h =>
    have ne := current_plain h fun q hq m k e => by rw [List.mem_singleton.mp hq] at e; cases e
    exact (kick_struck _).keeps.after (ended_keeps ne (images_mono (op := fun _ e => by cases e)))
  next b pg seq im t h =>
    have ne := current_plain h fun q hq m k e => by rw [List.mem_singleton.mp hq] at e; cases e
    have written := imageWritten_keeps (b := b) (v := wr (imageSector b s.store) (pg + 1) (some (seq, im))) ne fun i hi => by
      obtain rfl | hi := pageImages_write hi
      · exact op_images h List.mem_cons_self
      · exact imageSector_images i hi
    refine (kick_struck _).keeps.after ?_
    split
    · exact written.trans (notify_keeps _ _ _)
    · exact written
  next => exact Keeps.rfl

/-- A sector given back to the free list stands in its place (R141). -/
theorem insertBy_perm {α : Type} (lt : α → α → Bool) (a : α) (l : List α) : (insertBy lt a l).Perm (a :: l) := by
  induction l with
  | nil => exact List.Perm.refl _
  | cons b l ih =>
    unfold insertBy
    split
    · exact List.Perm.refl _
    · exact (ih.cons b).trans (List.Perm.swap a b l)

theorem freed_perm {sec : Nat} {free own rest : List Nat} (h : (free ++ (own ++ rest)).Perm (List.range 64))
    (m : sec ∈ own) : (freeSector sec free ++ (own.filter (· ≠ sec) ++ rest)).Perm (List.range 64) := by
  have nd := h.nodup_iff.mpr List.nodup_range
  obtain ⟨-, ndOwn, apart⟩ := List.nodup_append.mp nd
  have notFree : free.contains sec = false := by
    by_contra c
    have c : sec ∈ free := by simpa using c
    exact apart sec c sec (List.mem_append_left _ m) rfl
  have own' : own.Perm (sec :: own.filter (· ≠ sec)) := by
    have e := (List.nodup_append.mp ndOwn).1.erase_eq_filter sec
    rw [List.filter_congr (q := (· != sec)) fun x _ => by rw [Bool.eq_iff_iff]; simp, ← e]
    exact List.perm_cons_erase m
  rw [freeSector, notFree, if_neg Bool.false_ne_true]
  refine List.Perm.trans ?_ h
  refine ((insertBy_perm _ sec free).append_right _).trans ?_
  rw [List.cons_append]
  refine List.Perm.trans ?_ ((own'.append_right rest).append_left free).symm
  rw [List.cons_append]
  exact List.perm_middle.symm

/-- A slot's entries as its operation ends: the one in progress goes before those of the queue. -/
theorem entriesOf_current {st : Store} {c : List QueueOp} (h : st.current = c) (m : Nat) :
    entriesOf m st.entries = entriesOf m c ++ entriesOf m st.queue := by
  rw [entries_eq, h, entriesOf_append]

/-- A sector's erase has ended: it leaves its slot's list and is free (R141, R149). -/
theorem erased_keeps {s : State} {n sec t : Nat} {sectors : Vector (Vector (Option (List Event)) 16) 64}
    (h : s.store.op = some (.queued (.erase n sec), t)) :
    Keeps s { s with store := { s.store with
      op := none, sectors := sectors, free := freeSector sec s.store.free
      slots := wr s.store.slots n { s.slot n with sectors := (s.slot n).sectors.filter (· ≠ sec) } } } := by
  have cur : s.store.current = [.erase n sec] := current_of h
  have mem : .erase n sec ∈ s.store.entries := by rw [entries_eq, cur]; exact List.mem_cons_self
  refine Keeps.ofStore id (images_mono (op := fun _ e => by cases e)) (fun k => k.congr rfl fun _ e => by cases e) fun k => ?_
  obtain ⟨hn, -, -, own⟩ := k.erases n sec mem
  refine k.atSlot hn rfl (fun rest p => freed_perm p own) rfl (k.scan.congr rfl fun _ e => by cases e) (fun m ne => ?_) (fun m _ c => c)
    fun law => ?_
  · rw [entriesOf_current cur m, entriesOf_other (l := [_]) ne, List.nil_append]
    · rfl
    · exact fun q hq => .inl (by rw [List.mem_singleton.mp hq]; exact concerns_erase n sec)
  · rw [entriesOf_current cur n, entriesOf_cons, if_pos (concerns_erase n sec)] at law
    exact law.eraseDone rfl rfl

theorem eraseEnds_keeps (s : State) : Keeps s (eraseEnds s) := by
  unfold eraseEnds
  split
  next h => exact (kick_struck _).keeps.after (erased_keeps h)
  next b t h =>
    have ne := current_plain h fun q hq m k e => by rw [List.mem_singleton.mp hq] at e; cases e
    exact (kick_struck _).keeps.after (imageWritten_keeps ne fun _ hi => absurd hi List.not_mem_nil)
  next => exact Keeps.rfl

/-- The directory write that ends moves its slot, and the law of the slot with it (R140, R148, R149). -/
theorem moved_keeps {s : State} {n t : Nat} {p : DirPurpose} {second : Bool} {r : DirRecord} {e : DirEntry}
    {a b : Vector DirRecord 64} (h : s.store.op = some (.writing n p second r, t)) (c : concerns n (.dirWrite n p) = true)
    (law : ∀ {w l x}, SlotLaw n (s.slot n) (.dirWrite n p :: w) l x → e.sectors = (s.slot n).sectors ∧ SlotLaw n e w l x) :
    Keeps s { s with store := { s.store with op := none, recA := a, recB := b, slots := wr s.store.slots n e } } := by
  have cur : s.store.current = [.dirWrite n p] := current_of h
  refine Keeps.ofStore id (images_mono (op := fun _ e => by cases e)) (fun k => k.congr rfl fun _ e => by cases e) fun k => ?_
  have here := (sectorListsOk_iff.mp k).2.2.2 n
  rw [entriesOf_current cur n, entriesOf_cons, if_pos c] at here
  have hn := here.unit (.inl (by simp))
  refine k.atSlot hn rfl (fun rest q => by rw [(law here).1]; exact q) rfl (k.scan.congr rfl fun _ e => by cases e) (fun m ne => ?_)
    (fun m _ c => c) fun _ => (law here).2
  rw [entriesOf_current cur m, entriesOf_other (l := [_]) ne, List.nil_append]
  · rfl
  exact fun q hq => .inl (by rw [List.mem_singleton.mp hq]; exact c)

theorem buildFor_struck (n : Nat) (s : State) : Struck s (buildFor n s) :=
  (Struck.fold (startBuild_struck false) _ _).trans (frontierLoop_struck _)

/-- What a directory write that has ended moves; `a` and `b` are the records as it leaves them (R138). -/
theorem writeMoves_keeps {s : State} {n t : Nat} {p : DirPurpose} {second : Bool} {r : DirRecord}
    {a b : Vector DirRecord 64} (h : s.store.op = some (.writing n p second r, t)) :
    Keeps s (writeMoves n p { s with store := { s.store with op := none, recA := a, recB := b } }) := by
  have cur : s.store.current = [.dirWrite n p] := current_of h
  unfold writeMoves
  split
  next e =>
    refine (buildFor_struck _ _).keeps.after ((notify_keeps _ _ _).after (moved_keeps h (concerns_closing n) fun k => ?_))
    exact ⟨rfl, k.closed e rfl⟩
  next e =>
    refine (notify_keeps _ _ _).after (moved_keeps h (concerns_final n) fun k => ?_)
    obtain ⟨none, k⟩ := k.emptied
    exact ⟨none.symm, k⟩
  next =>
    refine ended_keeps ?_ (images_mono (op := fun _ e => by cases e))
    rw [cur]; exact fun q hq m k e => by rw [List.mem_singleton.mp hq] at e; cases e

theorem writeEnds_keeps (s : State) : Keeps s (writeEnds s) := by
  unfold writeEnds
  split
  next n p second r t h =>
    refine (kick_struck _).keeps.after ?_
    dsimp only
    split
    · exact writeMoves_keeps h
    · exact writeMoves_keeps h
  next => exact Keeps.rfl

end Sys2Proof.Machine
end

section
/-! Start-up, RESTART, power loss and the ends of page reads keep the laws (R20, R52, R77, R102, R153, R200 to R203). -/

namespace Sys2Proof.Machine

/-! ### Configurations that are loaded -/

theorem defaultSettings_ok : SettingsOk defaultSettings where
  levels := by decide
  steps n hn := by
    rw [show defaultSettings.dials = Vector.replicate 4 defaultDial from rfl, rd_replicate hn]; decide
  scenes k hk := by
    rw [show defaultSettings.scenes = Vector.replicate 32 darkScene from rfl, rd_replicate hk]; exact darkScene_ok
  panel := by decide

/-- A dial that knows its position keeps its step when a configuration is loaded (R52). -/
theorem keepSteps_dial {dials : Vector Dial 4} {step : Nat → Nat} {c : Settings} {n : Nat} (u : unitOk 4 n = true) :
    rd (keepSteps dials step c).dials n defaultDial =
      if (rd dials n (coldDial defaultDial)).pos.isSome then { rd c.dials n defaultDial with step := step n }
      else rd c.dials n defaultDial := rd_tableOf u

theorem SettingsOk.keepSteps {dials : Vector Dial 4} {step : Nat → Nat} {c : Settings} (h : SettingsOk c)
    (k : ∀ n, unitOk 4 n = true → StepOk (step n)) : SettingsOk (keepSteps dials step c) :=
  { h with
    steps := fun n u => by
      rw [keepSteps_dial u]
      split
      · exact k n u
      · exact h.steps n u }

/-! ### The start-up -/

/-- Without main power on, only the laws of every phase are at stake. -/
theorem Keeps.ofAlways {s t : State} (h : Always s t) (run : s.tb.runUs ≤ t.tb.runUs) (no : s.power.phase ≠ .on) :
    Keeps s t :=
  { h with
    scan := fun on => absurd on no, dials := fun on => absurd on no, sectors := fun on => absurd on no
    run := run, phase := fun on => absurd on no }

theorem finishStartUp_keeps (s : State) : Keeps s (finishStartUp s) := by
  unfold finishStartUp
  split
  · exact Keeps.rfl
  · exact { Keeps.rfl (s := s) with }

theorem finishStartUp_frame (s : State) :
    (finishStartUp s).tb = s.tb ∧ (finishStartUp s).power.phase = s.power.phase := by
  unfold finishStartUp
  split
  · exact ⟨rfl, rfl⟩
  · exact ⟨rfl, rfl⟩

/-- An image, or the defaults, comes into force at a start-up (R202); `s` is the part before the read that gave it. -/
theorem adoptImage_always {o : Option Image} {s t : State} (a : Always s t)
    (h : HeldRanges s.cfg s.store.images s.line.restart s.dials → ∀ im, o = some im → SettingsOk im.settings) :
    Always s (adoptImage o t) := by
  have ok : HeldRanges s.cfg s.store.images s.line.restart s.dials →
      SettingsOk ((o.map (·.settings)).getD defaultSettings) := fun k => by
    cases o with
    | none => exact defaultSettings_ok
    | some im => exact h k im rfl
  have kept : HeldRanges s.cfg s.store.images s.line.restart s.dials → SettingsOk (if t.power.kind = .warm then
      keepSteps t.dials (fun n => (t.dial n).step) ((o.map (·.settings)).getD defaultSettings)
      else (o.map (·.settings)).getD defaultSettings) := fun k => by
    split
    · exact (ok k).keepSteps (a.held k).steps
    · exact ok k
  unfold adoptImage
  dsimp only
  refine Always.trans ?_ ((startBuilds_struck true _).keeps.trans (finishStartUp_keeps _)).toAlways
  exact { a with held := fun k => { a.held k with cfg := kept k } }

theorem adoptImage_frame (o : Option Image) (s : State) :
    (adoptImage o s).tb = s.tb ∧ (adoptImage o s).power.phase = s.power.phase := by
  unfold adoptImage
  dsimp only
  rw [(finishStartUp_frame _).1, (finishStartUp_frame _).2, (startBuilds_struck true _).tb, (startBuilds_struck true _).power]
  exact ⟨rfl, rfl⟩

/-- Reads of an image join the read list: none of them is the scan's (R143, R153). -/
theorem NoScan.imageReads {st st' : Store} {k : Nat} (h : NoScan st) (op : st'.op = st.op)
    (reads : st'.reads = st.reads ++ (List.range 6).map fun p => { reader := .image p, serial := k, slot := 0, page := p }) :
    NoScan st' := by
  refine ⟨fun r hr => ?_, fun r es src t e => h.2 r es src t (op ▸ e)⟩
  rw [reads] at hr
  obtain hr | hr := List.mem_append.mp hr
  · exact h.1 r hr
  · obtain ⟨p, -, rfl⟩ := List.mem_map.mp hr
    rfl

theorem startImageLoad_keeps (s : State) : Keeps s (startImageLoad s) :=
  (kick_struck _).keeps.after (Keeps.ofStore id (images_mono (load := fun _ hi => absurd hi List.not_mem_nil))
    (fun k => k.imageReads rfl rfl) fun k => k.sameEntries rfl rfl rfl (k.scan.imageReads rfl rfl) (fun _ => rfl) fun _ c => c)

/-- The load of an image goes on, with an image that the store held (R200). -/
theorem loading_keeps {s t : State} {l : Option ImageLoad} (k : Keeps s t)
    (h : ∀ im ∈ ((l.bind (·.src)).map (·.2.2)).toList, im ∈ s.store.images) :
    Keeps s { t with store := { t.store with imgLoad := l } } := by
  have images : ∀ im ∈ ({ t.store with imgLoad := l } : Store).images, im ∈ t.store.images ∨ im ∈ s.store.images := by
    intro im hi
    obtain hi | hi := List.mem_append.mp hi
    · exact .inl (List.mem_append_left _ hi)
    · exact .inr (h im hi)
  exact
    { k with
      held := fun c => { k.held c with images := fun im hi => (images im hi).elim ((k.held c).images im) (c.images im) }
      scan := fun p n => (k.scan p n).congr rfl fun _ h => h
      sectors := fun p c => (k.sectors p c).sameEntries rfl rfl rfl ((k.sectors p c).scan.congr rfl fun _ h => h)
        (fun _ => rfl) fun _ c => c }

/-- A page read of an image load: the image it comes to, if it does, is the one the read was of (R200). `s` is the part before
the read. -/
theorem imagePageRead_keeps {src : Option (Bool × Nat × Image)} {n : Nat} {s t : State} (k : Keeps s t)
    (h : ∀ im ∈ (src.map (·.2.2)).toList, im ∈ s.store.images) :
    Keeps s (imagePageRead src n t).1 ∧ ∀ im, (imagePageRead src n t).2 = some im → im ∈ s.store.images ∧
        (imagePageRead src n t).1.tb = t.tb := by
  unfold imagePageRead
  split
  · exact ⟨k, fun _ e => by cases e⟩
  next ld hl =>
    split
    · exact ⟨k, fun _ e => by cases e⟩
    · split
      next =>
        split
        · split
          · refine ⟨loading_keeps k fun _ hi => absurd hi List.not_mem_nil, fun x hx => ?_⟩
            cases hx
            exact ⟨h _ (List.mem_singleton.mpr rfl), rfl⟩
          · exact ⟨loading_keeps k h, fun _ e => by cases e⟩
        · exact ⟨k.trans (startImageLoad_keeps _), fun _ e => by cases e⟩
      next => exact ⟨k.trans (startImageLoad_keeps _), fun _ e => by cases e⟩

/-- A read that ends leaves the store's entries as they stand (R143). -/
theorem readCleared_keeps {s : State} {q : ReadReq} {es : List Event} {src : Option (Bool × Nat × Image)} {t : Nat}
    (h : s.store.op = some (.read q es src, t)) : Keeps s (clearOp s) :=
  ended_keeps (current_plain h fun _ hx => absurd hx List.not_mem_nil) (images_mono (op := fun _ e => by cases e))

/-- A page of an image has been read: for a start-up or for a RESTART (R200, R202). -/
theorem imageRead_keeps {s : State} {q : ReadReq} {es : List Event} {src : Option (Bool × Nat × Image)} {t : Nat}
    (h : s.store.op = some (.read q es src, t)) : Keeps s (imageRead src q.serial (clearOp s)) := by
  obtain ⟨read, image⟩ := imagePageRead_keeps (n := q.serial) (readCleared_keeps h) fun im hi => op_images h hi
  unfold imageRead
  split
  next t e => rw [e] at read; exact read
  next t im e =>
    rw [e] at read image
    obtain ⟨held, tb⟩ := image im rfl
    split
    next starting =>
      obtain ⟨tb', phase⟩ := adoptImage_frame (some im) t
      refine Keeps.ofAlways (adoptImage_always read.toAlways fun k x hx => ?_) ?_ fun on => ?_
      · cases hx; exact k.images im held
      · rw [tb']; exact read.run
      · rw [read.phase on] at starting; cases starting
    next =>
      have images : ∀ c : HeldRanges s.cfg s.store.images s.line.restart s.dials,
          ∀ x ∈ (Restart.loaded im).images, SettingsOk x.settings := fun c x hx => by
        rw [List.mem_singleton.mp hx]; exact c.images im held
      exact { read with held := fun c => { read.held c with restart := images c } }

/-- The directory scan's last read: the directory is in order, and the image's load begins, or the defaults are in force
(R153, R202). No scan is read while main power is on, so that the laws of the running part are not at stake. -/
theorem scanEnds_keeps {s : State} {q : ReadReq} {es : List Event} {src : Option (Bool × Nat × Image)} {t : Nat}
    (h : s.store.op = some (.read q es src, t)) (r : q.reader.isScan = true) : Keeps s (scanEnds (clearOp s)) := by
  have no : ¬NoScan s.store := fun k => by
    rw [k.2 q es src t h] at r; cases r
  have scanned : Always s { clearOp s with
      store := scanDirectory (clearOp s).store
      power := { s.power with scanned := some ((slotsIn (scanDirectory (clearOp s).store).slots .incomplete).length,
        (slotsIn (scanDirectory (clearOp s).store).slots .erasing).length) } } := by
    have images : ∀ im ∈ (scanDirectory (clearOp s).store).images, im ∈ s.store.images :=
      images_mono (queue := fun _ hq => absurd hq List.not_mem_nil) (op := fun _ e => by cases e)
    exact
      { Always.rfl (s := s) with
        queue := fun _ => Nat.zero_le _, held := fun k => { k with images := fun im hi => k.images im (images im hi) } }
  have kept : ∀ u, Always s u → s.tb.runUs ≤ u.tb.runUs → (s.power.phase = .on → u.power.phase = .on) → Keeps s u :=
    fun u a run phase =>
      { a with
        scan := fun _ n => absurd n no, dials := fun _ _ n => absurd n no, sectors := fun _ k => absurd k.scan no
        run := run, phase := phase }
  unfold scanEnds
  dsimp only
  split
  · exact (kept _ scanned (Nat.le_refl _) id).trans (startImageLoad_keeps _)
  · obtain ⟨tb, phase⟩ := adoptImage_frame none _
    exact kept _ (adoptImage_always scanned fun _ x hx => by cases hx) (Nat.le_of_eq (by rw [tb]; rfl)) (by rw [phase]; exact id)

/-- A profile build's page read may be the last that a RESTART or a start-up waits for (R107, R200, R202). -/
theorem finishRestart_keeps (s : State) : Keeps s (finishRestart s) := by
  unfold finishRestart
  split
  · exact Keeps.rfl
  · refine (enterMode_keeps (validation s) s).trans ?_
    exact
      { Keeps.rfl (s := enterMode (validation s) s) with
        slots := fun k => k.congr (answerBusy_holds rfl _)
        held := fun k => { k with restart := fun _ hi => absurd hi List.not_mem_nil } }

theorem readEnds_keeps (s : State) : Keeps s (readEnds s) := by
  unfold readEnds
  split
  next q es src t h =>
    refine (kick_struck _).keeps.after ?_
    have cleared := readCleared_keeps h
    unfold deliver
    split
    next => exact cleared.trans (voicePageRead_struck _ _ _ _).keeps
    next =>
      exact (finishStartUp_keeps _).after ((finishRestart_keeps _).after
        ((frontierLoop_struck _).keeps.after (cleared.trans (buildPageRead_struck _ _ _ _).keeps)))
    next e =>
      split
      · exact scanEnds_keeps h (by rw [e]; rfl)
      · exact cleared
    next => exact imageRead_keeps h
  next => exact Keeps.rfl

end Sys2Proof.Machine
end

section
/-! RESTART, power loss and start-up keep the laws (R20, R52, R77, R102, R188, R200 to R203). -/

namespace Sys2Proof.Machine

/-! ### RESTART -/

theorem restartTaken_keeps (s : State) : Keeps s (restartTaken s) := by
  refine (startImageLoad_keeps _).after ?_
  exact
    { Keeps.rfl (s := s) with
      slots := fun k => k.congr (takeOldest_holds rfl _)
      held := fun k => { k with restart := fun _ hi => absurd hi List.not_mem_nil } }

theorem restartChannel_ok (now : Nat) (c : Channel) : ChannelOk (restartChannel now c) where
  base := nofun
  perf := nofun
  override := nofun
  target := Nat.zero_le _
  output := Nat.zero_le _
  fade := nofun
  tripped _ := ⟨rfl, rfl⟩

theorem restartClock_struck (s : State) : Struck s (restartClock s) :=
  (Struck.fold (fun t q => pendQuarter_struck q t) _ _).trans (setFrontier_struck _ _)

/-- The records' part of a RESTART: no claim, no record is left, the lights are at their start values, and each dial keeps its
position where it knows it, its step with it (R52, R77, R102, R188). -/
theorem restarted_keeps {s : State} {im : Image} (h : s.line.restart = .loaded im) {voices : Vector Voice 4} {m n : Nat}
    {drives : Vector Drive 4} :
    let cfg := keepSteps s.dials (fun n => (rd s.cfg.dials n defaultDial).step) im.settings
    Keeps s { s with
      perfs := [], lastId := m, nextOrder := n, voices := voices, cfg := cfg
      dials := tableOf 4 fun n => restartDial (rd s.cfg.dials n defaultDial) (rd cfg.dials n defaultDial) (s.dial n)
      bells := s.bells.map restartBell, drives := drives, lights := restartLights s.now s.lights, line := restartLine s.line } := by
  intro cfg
  have ok : HeldRanges s.cfg s.store.images s.line.restart s.dials → SettingsOk cfg := fun k =>
    (k.restart im (by rw [h]; exact List.mem_singleton.mpr rfl)).keepSteps k.cfg.steps
  have dial : ∀ n, unitOk 4 n = true → rd (tableOf 4 fun n => restartDial (rd s.cfg.dials n defaultDial)
      (rd cfg.dials n defaultDial) (s.dial n)) n (coldDial defaultDial) =
        restartDial (rd s.cfg.dials n defaultDial) (rd cfg.dials n defaultDial) (s.dial n) := fun n u => rd_tableOf u
  have claims : ∀ b, unitOk 24 b = true → (rd (s.bells.map restartBell) b startBell).claims = [] := fun b u => by
    rw [rd_map (d := startBell) u]; rfl
  have chans : ∀ n, unitOk 16 n = true → ChannelOk (rd (s.lights.chans.map (restartChannel s.now)) n startChannel) :=
    fun n u => by rw [rd_map (d := startChannel) u]; exact restartChannel_ok _ _
  exact
    { Keeps.rfl (s := s) with
      perfs := fun _ => ⟨Nat.zero_le _, List.nodup_nil⟩
      held := fun k =>
        { cfg := ok k, images := k.images, restart := fun _ hi => absurd hi List.not_mem_nil
          steps := fun n u => by rw [dial n u]; exact (ok k).steps n u }
      claims := fun _ _ =>
        { falls := fun b u => by rw [claims b u]; exact List.Pairwise.nil
          given := fun b u c hc => by rw [claims b u] at hc; cases hc
          levels := fun _ hp => absurd hp List.not_mem_nil }
      lamps := fun _ _ => ⟨chans, fun _ hc => absurd hc List.not_mem_nil⟩
      dials := fun _ _ _ k =>
        { steps := fun n u => by rw [dial n u]; rfl
          range := fun n p u hp => by
            rw [dial n u] at hp
            have hp : (s.dial n).pos = some p := (noonFieldChanged_pos _ _ _).symm.trans hp
            have step : rd cfg.dials n defaultDial =
                { rd im.settings.dials n defaultDial with step := (rd s.cfg.dials n defaultDial).step } := by
              refine (keepSteps_dial u).trans (if_pos ?_)
              rw [show (rd s.dials n (coldDial defaultDial)).pos = some p from hp]; rfl
            rw [step]
            exact k.range n p u hp } }

theorem restartEvent_keeps {s : State} {im : Image} (h : s.line.restart = .loaded im) : Keeps s (restartEvent im s) := by
  have clock := restartClock_struck s
  have line : (restartClock s).line.restart = .loaded im := by rw [clock.line]; exact h
  have records := restarted_keeps line (voices := Vector.replicate 4 freeVoice) (m := 0) (n := 1)
    (drives := (restartClock s).drives.map (restartDrive s.now))
  rw [clock.dials, clock.cfg, show (restartClock s).now = s.now by rw [State.now, clock.tb]; rfl] at records
  have all := clock.keeps.trans records
  unfold restartEvent
  refine (finishRestart_keeps _).after ((frontierLoop_struck _).keeps.after ((afterRule_keeps _ _ _).after
    ((startBuilds_struck true _).keeps.after ((applyFallbackIf_keeps _ _).after ?_))))
  exact all

/-! ### Power loss -/

theorem darkChannel_ok {c : Channel} (h : ChannelOk c) : ChannelOk (darkChannel c) where
  base := h.base
  perf := h.perf
  override := h.override
  target := h.target
  output := Nat.zero_le _
  fade := nofun
  tripped _ := ⟨rfl, rfl⟩

/-- A page of an image that is cut off is gone (R201). -/
theorem pageImages_lost {v : ImageSector} {k : Nat} {im : Image} (h : im ∈ pageImages (wr v k none)) : im ∈ pageImages v := by
  obtain ⟨p, hp, e⟩ := List.mem_filterMap.mp h
  rw [wr] at hp
  split at hp
  · rw [Vector.toList_setIfInBounds] at hp
    obtain hp | rfl := List.mem_or_eq_of_mem_set hp
    · exact List.mem_filterMap.mpr ⟨p, hp, e⟩
    · cases e
  · exact List.mem_filterMap.mpr ⟨p, hp, e⟩

/-- An operation that is cut off leaves the directory's entries and the free list as they were, and no new image (R140,
R201). -/
theorem cutOff_frame (st : Store) : (cutOff st).slots = st.slots ∧ (cutOff st).free = st.free ∧
    (∀ im ∈ pageImages (cutOff st).imgA, im ∈ pageImages st.imgA) ∧
    ∀ im ∈ pageImages (cutOff st).imgB, im ∈ pageImages st.imgB := by
  unfold cutOff
  split
  · dsimp only
    split
    · exact ⟨rfl, rfl, fun _ h => h, fun _ h => h⟩
    · exact ⟨rfl, rfl, fun _ h => h, fun _ h => h⟩
  next b _ _ =>
    cases b with
    | false => exact ⟨rfl, rfl, fun _ h => absurd h List.not_mem_nil, fun _ h => h⟩
    | true => exact ⟨rfl, rfl, fun _ h => h, fun _ h => absurd h List.not_mem_nil⟩
  next b _ _ _ _ _ =>
    cases b with
    | false => exact ⟨rfl, rfl, fun _ h => pageImages_lost h, fun _ h => h⟩
    | true => exact ⟨rfl, rfl, fun _ h => h, fun _ h => pageImages_lost h⟩
  next => exact ⟨rfl, rfl, fun _ h => h, fun _ h => h⟩

/-- A store with nothing queued, loading or to be resumed: what stands of the sectors' law is the lists (R141). -/
theorem SectorListsOk.dropped {st st' : Store} (h : SectorListsOk st) (slots : st'.slots = st.slots) (free : st'.free = st.free)
    (entries : st'.entries = []) (load : st'.load = none) (resume : st'.resume = []) (scan : NoScan st') :
    SectorListsOk st' := by
  obtain ⟨perm, -, -, law⟩ := sectorListsOk_iff.mp h
  refine sectorListsOk_iff.mpr ⟨?_, resume ▸ List.nodup_nil, scan, fun n => ?_⟩
  · rw [ownedSectors, slots, free]; exact perm
  · have loads : ¬st'.loads n := fun ⟨l, c, _⟩ => by rw [load] at c; cases c
    rw [entries, resume, slots, entriesOf_nil]
    exact
      { unit := fun k => by
          obtain k | k | k := k
          · exact absurd rfl k
          · exact absurd k loads
          · cases k
        empty := (law n).empty
        loading := fun k => absurd k loads
        closing := fun m => absurd m List.not_mem_nil
        erases := fun _ m => absurd m List.not_mem_nil
        final := fun a b e => by simp at e
        resuming := fun m => absurd m List.not_mem_nil }

theorem powerFails_laws (s : State) : Laws s (powerFails s) := by
  obtain ⟨slots, free, imgA, imgB⟩ := cutOff_frame s.store
  have images : ∀ im ∈ (dropVolatile (cutOff s.store)).images, im ∈ s.store.images :=
    images_mono
      (a := fun im h => List.mem_append_left _ (List.mem_append_left _ (List.mem_append_left _
        (List.mem_append_left _ (imgA im h)))))
      (b := fun im h => List.mem_append_left _ (List.mem_append_left _ (List.mem_append_left _
        (List.mem_append_right _ (imgB im h)))))
      (queue := fun _ hq => absurd hq List.not_mem_nil) (op := fun _ e => by cases e)
      (load := fun _ hi => absurd hi List.not_mem_nil)
  have scan : NoScan (dropVolatile (cutOff s.store)) :=
    ⟨fun _ hr => absurd hr List.not_mem_nil, fun _ _ _ _ e => by cases e⟩
  have dial : ∀ n, unitOk 4 n = true → rd (powerFails s).dials n (coldDial defaultDial) = { s.dial n with out := none } :=
    fun n u => rd_map u
  have bell : ∀ b, unitOk 24 b = true → (rd (powerFails s).bells b startBell).claims = (s.bell b).claims :=
    fun b u => by rw [show rd (powerFails s).bells b startBell = _ from rd_map (d := startBell) u]; rfl
  have chan : LightsOk s.lights → ∀ n, unitOk 16 n = true → ChannelOk (rd (powerFails s).lights.chans n startChannel) :=
    fun k n u => by rw [show rd (powerFails s).lights.chans n startChannel = _ from rd_map u]; exact darkChannel_ok (k.chans n u)
  have back : ∀ b : Bool, -999 ≤ s.power.backAcc ∧ s.power.backAcc ≤ 999 →
      -999 ≤ (if b = true then 0 else s.power.backAcc) ∧ (if b = true then 0 else s.power.backAcc) ≤ 999 := by
    intro b k
    split
    · decide
    · exact k
  exact
    { Laws.rfl (s := s) with
      time := fun k => { k with back := back _ k.back, slew := nofun }
      slots := fun _ => ⟨Nat.zero_le _, Nat.zero_le _⟩
      queue := fun _ => Nat.zero_le _
      held := fun k =>
        { cfg := k.cfg, images := fun im hi => k.images im (images im hi)
          restart := fun _ hi => absurd hi List.not_mem_nil
          steps := fun n u => by rw [dial n u]; exact k.steps n u }
      claims := fun _ k =>
        { falls := fun b u => by rw [bell b u]; exact k.falls b u
          given := fun b u => by rw [bell b u]; exact k.given b u
          levels := k.levels }
      lamps := fun _ k => ⟨chan k, k.contribs⟩
      scan := fun _ _ => scan
      dials := fun _ _ _ k =>
        { steps := fun n u => by rw [dial n u]; exact k.steps n u
          range := fun n p u => by rw [dial n u]; exact k.range n p u }
      sectors := fun _ k => k.dropped slots free rfl rfl rfl scan }

/-! ### Power-up and the start values -/

/-- Without main power on before it, only the laws of every phase are at stake. -/
theorem Laws.ofAlways {s t : State} (h : Always s t) (no : s.power.phase ≠ .on) : Laws s t :=
  { h with scan := fun on => absurd on no, dials := fun on => absurd on no, sectors := fun on => absurd on no }

theorem powerReturns_always (v : Bool) (s : State) : Always s (powerReturns v s) := by
  refine Always.trans ?_ (kick_struck _).keeps.toAlways
  exact { Always.rfl (s := s) with time := fun k => { k with } }

theorem coldTimebase_ranges : TimeRanges coldTimebase 0 none where
  secs := by decide
  sub := by decide
  trim := by decide
  acc := by decide
  back := by decide
  slew := nofun
  len := by decide
  mark := nofun

theorem startTimebase_ranges {w : Bool} {tb : Timebase} {back : Int} {m : Option Mark} (h : TimeRanges tb back m) :
    TimeRanges (startTimebase w tb) 0 none := by
  cases w with
  | true => exact { coldTimebase_ranges with secs := h.secs, trim := h.trim }
  | false => exact coldTimebase_ranges

theorem startColumns_always (s : State) : Always s (startColumns s) := by
  have dial : ∀ n, unitOk 4 n = true → (rd (tableOf 4 fun n => if decide (s.power.kind = .warm) = true
      then warmDial (s.dialCfg n) (s.dial n) else coldDial (s.dialCfg n)) n (coldDial defaultDial)).step =
        (rd s.cfg.dials n defaultDial).step := fun n u => by
    rw [rd_tableOf u]
    split <;> rfl
  have images : ∀ im ∈ (rebase s.now s.store).images, im ∈ s.store.images := by
    intro im h
    obtain h | h := List.mem_append.mp h
    · obtain h | h := List.mem_append.mp h
      · exact List.mem_append_left _ (List.mem_append_left _ h)
      · refine List.mem_append_left _ (List.mem_append_right _ ?_)
        cases e : s.store.op with
        | none => rw [rebase, e] at h; exact h
        | some p => rw [rebase, e] at h; exact h
    · exact List.mem_append_right _ h
  have bell : ∀ b, unitOk 24 b = true → rd (Vector.replicate 24 startBell) b startBell = startBell := fun b u => rd_replicate u
  have chan : ∀ n, unitOk 16 n = true → rd startLights.chans n startChannel = startChannel := fun n u => rd_replicate u
  unfold startColumns
  refine Always.trans ?_ (recalc_keeps _).toAlways
  exact
    { Always.rfl (s := s) with
      time := startTimebase_ranges
      slots := fun _ => ⟨Nat.zero_le _, Nat.zero_le _⟩
      perfs := fun _ => ⟨Nat.zero_le _, List.nodup_nil⟩
      held := fun k =>
        { cfg := k.cfg, images := fun im hi => k.images im (images im hi)
          restart := fun _ hi => absurd hi List.not_mem_nil
          steps := fun n u => by rw [dial n u]; exact k.cfg.steps n u }
      claims := fun _ _ =>
        { falls := fun b u => by rw [bell b u]; exact List.Pairwise.nil
          given := fun b u c hc => by rw [bell b u] at hc; cases hc
          levels := fun _ hp => absurd hp List.not_mem_nil }
      lamps := fun _ _ =>
        ⟨fun n u => by rw [chan n u]; exact startChannel_ok, fun _ hc => absurd hc List.not_mem_nil⟩ }

/-- What a start finds of the time (R20). -/
theorem startTime_keeps (warm wrapped : Bool) (s : State) :
    Keeps s (if warm = true then announceWrap wrapped (announceWarm wrapped s) else applyFallback s) := by
  split
  · exact (notify_keeps _ _ _).trans ((wrapSchedule_quiet _ _).keeps.trans ((announceStep_quiet _ _ _).keeps.trans
      (announceWrap_quiet _ _).keeps))
  · exact (applyFallback_struck _).keeps

/-- The notice of a directory scan that found something, and then what the start finds of the time (R20, R153). -/
theorem startValues_always (s : State) : Always s (startValues s) := by
  have cols := startColumns_always s
  unfold startValues
  dsimp only
  generalize startColumns s = u at cols ⊢
  have told : Keeps u (match s.power.scanned with
      | some (i, e) => if i + e = 0 then u else notify .store [.word "SCAN", .num i, .num e] u
      | none => u) := by
    split
    · split
      · exact Keeps.rfl
      · exact notify_keeps _ _ _
    · exact Keeps.rfl
  exact (cols.trans told.toAlways).trans (startTime_keeps _ _ _).toAlways

end Sys2Proof.Machine
end

section
/-! What every command keeps, by the table of 11.8 and the events of the part. -/

namespace Sys2Proof.Machine

/-! ### Readouts -/

/-- A readout leaves the part as it is, and answers OK or NO by its operands' range alone. -/
structure Reads (c : Instr) (s : State) (a : State × Reply) : Prop where
  same : a.1 = s
  inRange : readoutInRange s c = true → ∃ f, a.2 = .ok f
  outside : readoutInRange s c = false → ∃ k, a.2 = .no k []

theorem reads_answer {c : Instr} {s : State} {f : List Field} (h : readoutInRange s c = true) : Reads c s (answer f s) where
  same := rfl
  inRange _ := ⟨f, rfl⟩
  outside k := by rw [h] at k; cases k

theorem reads_refuse {c : Instr} {s : State} {k : Code} (h : readoutInRange s c = false) : Reads c s (refuse k s) where
  same := rfl
  inRange k := by rw [h] at k; cases k
  outside _ := ⟨k, rfl⟩

/-- A readout of one unit: refused where the unit's number is out of range. -/
theorem reads_unit {c : Instr} {s : State} {n k : Nat} {f : List Field} (h : readoutInRange s c = unitOk n k) :
    Reads c s (if (!unitOk n k) = true then refuse .range s else answer f s) := by
  split
  next u => exact reads_refuse (by rw [h]; simpa using u)
  next u => exact reads_answer (by rw [h]; simpa using u)

/-- A readout whose operands are in range by `b`. -/
theorem reads_if {c : Instr} {s : State} {p : Prop} [Decidable p] {f : List Field} (h : readoutInRange s c = true ↔ p) :
    Reads c s (if p then answer f s else refuse .range s) := by
  split
  next u => exact reads_answer (h.mpr u)
  next u => exact reads_refuse (by rw [← Bool.not_eq_true]; exact fun k => u (h.mp k))

theorem perfReadAct_reads (id : Option Nat) (s : State) : Reads (.perfRead id) s (perfReadAct id s) := by
  cases id with
  | none => exact reads_answer rfl
  | some k =>
    simp only [perfReadAct]
    split
    next u => exact reads_refuse (by simp only [Bool.not_eq_true'] at u; simp only [readoutInRange, u, Bool.false_and])
    next u =>
      simp only [Bool.not_eq_true', Bool.not_eq_false] at u
      split
      next e => exact reads_refuse (by simp only [readoutInRange, e, Option.isSome_none, Bool.and_false])
      next e => exact reads_answer (by simp only [readoutInRange, e, u, Option.isSome_some, Bool.and_self])

theorem sheetReadAct_reads (today : Bool) (first : Option Nat) (s : State) :
    Reads (.sheetRead today first) s (sheetReadAct today first s) := by
  simp only [sheetReadAct]
  split
  next u => exact reads_refuse (decide_eq_false (Nat.not_le.mpr u))
  next u => exact reads_answer (decide_eq_true (Nat.not_lt.mp u))

theorem entryReadAct_reads (n : Nat) (s : State) : Reads (.entryRead n) s (entryReadAct n s) := by
  simp only [entryReadAct]
  split
  next u => exact reads_refuse (by simpa [readoutInRange] using u)
  next u =>
    have u : readoutInRange s (.entryRead n) = true := by simpa [readoutInRange] using u
    cases s.entry n with
    | empty | active | suspended => exact reads_answer u

/-- Every readout is taken by its own effect, which leaves the part as it is. -/
theorem readout_reads {c : Instr} (h : isReadout c = true) :
    ∃ act, (∀ s, exec c s = request c act s) ∧ ∀ s, Reads c s (act s) := by
  cases c with
  | timeRead => exact ⟨timeReadAct, fun _ => rfl, fun _ => reads_answer rfl⟩
  | refRead => exact ⟨refReadAct, fun _ => rfl, fun _ => reads_answer rfl⟩
  | calendarRead => exact ⟨calendarReadAct, fun _ => rfl, fun _ => reads_answer rfl⟩
  | yearRead y => exact ⟨yearReadAct y, fun _ => rfl, fun _ => reads_if (by simp [readoutInRange])⟩
  | summerRead => exact ⟨fun s => answer (summerFields s.cfg.summer) s, fun _ => rfl, fun _ => reads_answer rfl⟩
  | sunRead k => exact ⟨sunReadAct k, fun _ => rfl, fun _ => reads_if Iff.rfl⟩
  | dialRead n => exact ⟨dialReadAct n, fun _ => rfl, fun _ => reads_unit rfl⟩
  | bellRead b => exact ⟨bellReadAct b, fun _ => rfl, fun _ => reads_unit rfl⟩
  | claimRead b => exact ⟨claimReadAct b, fun _ => rfl, fun _ => reads_unit rfl⟩
  | perfRead id => exact ⟨perfReadAct id, fun _ => rfl, perfReadAct_reads id⟩
  | sheetRead today first => exact ⟨sheetReadAct today first, fun _ => rfl, sheetReadAct_reads today first⟩
  | clockRead => exact ⟨clockReadAct, fun _ => rfl, fun _ => reads_answer rfl⟩
  | panelTollRead => exact ⟨fun s => answer (panelTollFields s.cfg.panelToll) s, fun _ => rfl, fun _ => reads_answer rfl⟩
  | swingRead n => exact ⟨swingReadAct n, fun _ => rfl, fun _ => reads_unit rfl⟩
  | slotRead n => exact ⟨slotReadAct n, fun _ => rfl, fun _ => reads_unit rfl⟩
  | storeRead => exact ⟨storeReadAct, fun _ => rfl, fun _ => reads_answer rfl⟩
  | entryRead n => exact ⟨entryReadAct n, fun _ => rfl, entryReadAct_reads n⟩
  | scheduleRead => exact ⟨scheduleReadAct, fun _ => rfl, fun _ => reads_answer rfl⟩
  | sceneRead k => exact ⟨sceneReadAct k, fun _ => rfl, fun _ => reads_if (by simp [readoutInRange])⟩
  | lightRead n => exact ⟨lightReadAct n, fun _ => rfl, fun _ => reads_unit rfl⟩
  | duskRead => exact ⟨duskReadAct, fun _ => rfl, fun _ => reads_answer rfl⟩
  | statusRead => exact ⟨statusReadAct, fun _ => rfl, fun _ => reads_answer rfl⟩
  | _ => cases h

theorem readout_keeps {c : Instr} {s t : State} (h : isReadout c = true) (e : exec c s = .next t) : Keeps s t := by
  obtain ⟨act, run, reads⟩ := readout_reads h
  rw [run] at e
  exact request_keeps (fun s _ => by rw [(reads s).same]; exact Keeps.rfl) e

/-! ### Every command -/

/-- The requests of 11.8 that are no readouts. -/
theorem request_command_keeps {c : Instr} {s t : State} (h : isRequest c = true) (e : exec c s = .next t) : Keeps s t := by
  cases c with
  | timeSet d t z =>
    refine request_keeps (fun s w => timeSetAct_keeps ?_ s) e
    simpa [Instr.wellFormed] using w
  | mark d t z => exact request_keeps (fun s _ => markAct_keeps d t z s) e
  | refOn => exact request_keeps (fun s _ => refOnAct_keeps s) e
  | refOff => exact request_keeps (fun s _ => refOffAct_keeps s) e
  | summer r => exact request_keeps (fun s _ => summerAct_keeps r s) e
  | sun k rise st => exact request_keeps (fun s _ => sunAct_keeps k rise st s) e
  | dialConfig n c => exact request_keeps (fun s _ => dialConfigAct_keeps n c s) e
  | dialSet n p pol => exact request_keeps (fun s _ => dialSetAct_keeps n p pol s) e
  | dialStop n => exact request_keeps (fun s _ => dialStopAct_keeps n s) e
  | dialGo n => exact request_keeps (fun s _ => dialGoAct_keeps n s) e
  | bellConfig b c => exact request_keeps (fun s _ => bellConfigAct_keeps b c s) e
  | bellSilent b on => exact request_keeps (fun s _ => bellSilentAct_keeps b on s) e
  | bellClear b => exact request_keeps (fun s _ => bellClearAct_keeps b s) e
  | bellTest b i => exact request_keeps (fun s _ => bellTestAct_keeps b i s) e
  | stopFinish id => exact request_keeps (fun s _ => stopFinishAct_keeps id s) e
  | stopCut id => exact request_keeps (fun s _ => stopCutAct_keeps id s) e
  | play slot scale wait scene => exact request_keeps (fun s _ => playAct_keeps slot scale wait scene s) e
  | toll bell iv count i wait scene => exact request_keeps (fun s _ => tollAct_keeps bell iv count i wait scene s) e
  | clockConfig c => exact request_keeps (fun s _ => clockConfigAct_keeps c s) e
  | clockLevels l => exact request_keeps (fun s _ => clockLevelsAct_keeps l s) e
  | panelToll c => exact request_keeps (fun s _ => panelTollAct_keeps c s) e
  | swingConfig n c => exact request_keeps (fun s _ => swingConfigAct_keeps n c s) e
  | swingClear n => exact request_keeps (fun s _ => swingClearAct_keeps n s) e
  | ring ds stagger duration wait => exact request_keeps (fun s _ => ringAct_keeps ds stagger duration wait s) e
  | slotOpen n tempo division scene title =>
    exact request_keeps (fun s _ => slotOpenAct_keeps n tempo division scene title s) e
  | page n k part es => exact request_keeps (fun s _ => pageAct_keeps n k part es s) e
  | slotClose n count => exact request_keeps (fun s _ => slotCloseAct_keeps n count s) e
  | slotErase n => exact request_keeps (fun s _ => slotEraseAct_keeps n s) e
  | entryWrite n f => exact request_keeps (fun s _ => entryWriteAct_keeps n f s) e
  | entrySuspend n => exact request_keeps (fun s _ => entrySuspendAct_keeps n s) e
  | entryResume n => exact request_keeps (fun s _ => entryResumeAct_keeps n s) e
  | entryClear n => exact request_keeps (fun s _ => entryClearAct_keeps n s) e
  | lightConfig n c => exact request_keeps (fun s _ => lightConfigAct_keeps n c s) e
  | sceneWrite k fade pairs => exact request_keeps (fun s _ => sceneWriteAct_keeps k fade pairs s) e
  | lightSite c => exact request_keeps (fun s _ => lightSiteAct_keeps c s) e
  | light ch level fade md => exact request_keeps (fun s _ => lightAct_keeps ch level fade md s) e
  | lightRelease ch fade => exact request_keeps (fun s _ => lightReleaseAct_keeps ch fade s) e
  | lightClear n fade => exact request_keeps (fun s _ => lightClearAct_keeps n fade s) e
  | maskSet cls on => exact request_keeps (fun s _ => maskAct_keeps cls on s) e
  | lineRate rate => exact request_keeps (fun s _ => lineRateAct_keeps rate s) e
  | modeService => exact request_keeps (fun s _ => modeServiceAct_keeps s) e
  | modeRun => exact request_keeps (fun s _ => modeRunAct_keeps s) e
  | save => exact request_keeps (fun s _ => saveAct_keeps s) e
  | restart =>
    simp only [exec, execRestart] at e
    split at e
    · exact (arrived_keeps _ s).trans ((restartTaken_keeps _).trans (done_keeps e))
    · exact request_keeps (fun s _ => Keeps.rfl) e
  | timeRead | refRead | calendarRead | yearRead | summerRead | sunRead | dialRead | bellRead | claimRead | perfRead
  | sheetRead | clockRead | panelTollRead | swingRead | slotRead | storeRead | entryRead | scheduleRead | sceneRead
  | lightRead | duskRead | statusRead => exact readout_keeps rfl e
  | _ => cases h

/-- A timed event of a unit. -/
theorem unit_timed_keeps {n k : Nat} {due : Option Nat} {body : State → State} {s t : State}
    (h : unitOk n k = true → ∀ u, Keeps u (body u)) (e : ofUnit n k (timed due body s) = .next t) : Keeps s t := by
  obtain ⟨u, e⟩ := ofUnit_next e
  exact timed_keeps (h u) e

/-- An event from outside at a unit. -/
theorem unit_outside_keeps {n k w : Nat} {body : State → State} {s t : State}
    (h : unitOk n k = true → ∀ u, Keeps u (body u)) (e : ofUnit n k (outside w body s) = .next t) : Keeps s t := by
  obtain ⟨u, e⟩ := ofUnit_next e
  exact outside_keeps (h u) e

/-- The events, but those of main power that comes and goes. -/
theorem event_keeps {c : Instr} {s t : State} (h : isRequest c = false) (no : ∀ w, c ≠ .powerLoss w)
    (no' : ∀ v, c ≠ .powerUp v) (no'' : c ≠ .startValues) (e : exec c s = .next t) : Keeps s t := by
  cases c with
  | lineReceived w l => exact outside_keeps (lineReceived_keeps l) e
  | lineSent w => exact outside_keeps lineSent_keeps e
  | secondEnd => exact timed_keeps endSecond_keeps e
  | trimUpdate => exact timed_keeps trimUpdated_keeps e
  | refPulse w => exact outside_keeps refPulse_keeps e
  | expectedSecondMissing =>
    simp only [exec, execExpectedSecondMissing] at e
    split at e
    next u r =>
      obtain ⟨w, -, r⟩ := Option.bind_eq_some_iff.mp r
      exact (elapse_keeps r).trans ((secondMissing_keeps u).trans (done_keeps e))
    next => cases e; exact Keeps.rfl
  | markExpired => exact timed_keeps markExpired_keeps e
  | backupSecond => exact timed_keeps backupSecond_keeps e
  | dialImpulseStart n => exact unit_timed_keeps (fun u s => impulseStart_keeps u s) e
  | dialImpulseEnd n => exact unit_timed_keeps (fun u s => setDial_keeps u) e
  | noonClosure w n => exact unit_outside_keeps (fun u s => noonClosure_keeps u s) e
  | noonContactOpen w n => exact unit_outside_keeps (fun u s => setDial_keeps u) e
  | strokeRelease v => exact unit_timed_keeps (fun _ s => strokeRelease_keeps v s) e
  | heldStrokeRelease b => exact unit_timed_keeps (fun _ s => (releaseHeld_struck b s).keeps) e
  | hammerPulseEnd b => exact unit_timed_keeps (fun _ s => (setBell_struck b _ s).keeps) e
  | confirmClosure w b => exact unit_outside_keeps (fun _ s => (confirm_struck b s).keeps) e
  | confirmWindowClose b => exact unit_timed_keeps (fun _ s => (missWindow_struck b s).keeps) e
  | eventTakeUp v => exact unit_timed_keeps (fun _ s => eventTakeUp_keeps v s) e
  | tollStrokeRelease id => exact unit_timed_keeps (fun _ s => tollRelease_keeps id s) e
  | testStrokeRelease id => exact unit_timed_keeps (fun _ s => testRelease_keeps id s) e
  | driveStart id => exact unit_timed_keeps (fun _ s => (driveStart_quiet id s).keeps) e
  | performanceEnd id => exact unit_timed_keeps (fun _ s => (performanceEnd_struck id s).keeps) e
  | cutRecordLeaves id => exact unit_timed_keeps (fun _ s => (leave_struck id .cut s).keeps) e
  | waitExpiry id => exact unit_timed_keeps (fun _ s => (leave_struck id .expired s).keeps) e
  | quarterEvaluation => exact timed_keeps (fun s => (evaluateFrontier_struck s).keeps) e
  | bottomPulse w n => exact unit_outside_keeps (fun _ s => (bottomPulse_quiet n s).keeps) e
  | amplitudePulse w n => exact unit_outside_keeps (fun _ s => amplitudePulse_keeps n s) e
  | kickEnd n => exact unit_timed_keeps (fun _ s => setDrive_keeps n _ s) e
  | brakeKickEnd n => exact unit_timed_keeps (fun _ s => setDrive_keeps n _ s) e
  | settleExpiry n => exact unit_timed_keeps (fun _ s => (enterDown_quiet n s).keeps) e
  | noStart n => exact unit_timed_keeps (fun _ s => (enterFault_quiet n .noStart s).keeps) e
  | raiseLimit n => exact unit_timed_keeps (fun _ s => (enterFault_quiet n .raiseLimit s).keeps) e
  | noBottom n => exact unit_timed_keeps (fun _ s => (enterFault_quiet n .noBottom s).keeps) e
  | loweringInstant n => exact unit_timed_keeps (fun _ s => (enterLowering_quiet n s).keeps) e
  | pageReadEnd => exact timed_keeps readEnds_keeps e
  | pageProgramEnd => exact timed_keeps programEnds_keeps e
  | sectorEraseEnd => exact timed_keeps eraseEnds_keeps e
  | directoryWriteEnd => exact timed_keeps writeEnds_keeps e
  | fadeStep n => exact unit_timed_keeps (fun _ s => fadeStep_keeps n s) e
  | pwmPeriod n => exact unit_timed_keeps (fun _ s => pwmPeriod_keeps n s) e
  | lampSlot => exact timed_keeps lampSlot_keeps e
  | lampMeasurementEnd code => exact timed_keeps (lampMeasured_keeps code) e
  | duskSample => exact timed_keeps duskSample_keeps e
  | duskMeasurementEnd code => exact timed_keeps (duskMeasured_keeps code) e
  | tollKey w => exact outside_keeps (press_keeps .toll tollPressed_keeps) e
  | silenceKey w => exact outside_keeps (press_keeps .silence silencePressed_keeps) e
  | lightsKey w => exact outside_keeps (press_keeps .lights lightsPressed_keeps) e
  | stopKey w => exact outside_keeps (press_keeps .stop stopPressed_keeps) e
  | keyInputOpen w k => exact outside_keeps (fun s => Keeps.ofFree) e
  | restartEvent =>
    simp only [exec, execRestartEvent] at e
    split at e
    next im r => exact (restartEvent_keeps r).trans (done_keeps e)
    next => cases e; exact Keeps.rfl
  | powerLoss w => exact absurd rfl (no w)
  | powerUp v => exact absurd rfl (no' v)
  | startValues => exact absurd rfl no''
  | _ => cases h

/-- Every command but POWER_LOSS, POWER_UP and START_VALUES. -/
theorem exec_keeps {c : Instr} {s t : State} (no : ∀ w, c ≠ .powerLoss w) (no' : ∀ v, c ≠ .powerUp v)
    (no'' : c ≠ .startValues) (e : exec c s = .next t) : Keeps s t := by
  cases h : isRequest c with
  | true => exact request_command_keeps h e
  | false => exact event_keeps h no no' no'' e

end Sys2Proof.Machine
end

section
/-! The laws that every step keeps. -/

namespace Sys2Proof.Machine

theorem readout_wellFormed {c : Instr} (h : isReadout c = true) : c.wellFormed = true := by
  cases c with
  | timeRead | refRead | calendarRead | yearRead | summerRead | sunRead | dialRead | bellRead | claimRead | perfRead
  | sheetRead | clockRead | panelTollRead | swingRead | slotRead | storeRead | entryRead | scheduleRead | sceneRead
  | lightRead | duskRead | statusRead => rfl
  | _ => cases h

theorem readoutInRange_arrived (i c : Instr) (s : State) : readoutInRange (arrived i s) c = readoutInRange s c := by
  cases c with
  | perfRead id => simp only [readoutInRange, arrived_perf]
  | _ => rfl

/-- A power loss, after the time that passes up to it. -/
theorem powerLoss_laws {w : Nat} {s t : State} (e : exec (.powerLoss w) s = .next t) :
    Laws s t ∧ s.tb.runUs ≤ t.tb.runUs := by
  simp only [exec, execPowerLoss] at e
  split at e
  · cases e
  next u r =>
    have passed := elapse_keeps r
    split at e
    · cases e; exact ⟨passed.toLaws, passed.run⟩
    · cases e; exact ⟨passed.toLaws.trans (powerFails_laws u) passed.phase, passed.run⟩

theorem powerUp_laws {v : Bool} {s t : State} (e : exec (.powerUp v) s = .next t) : Laws s t := by
  simp only [exec, execPowerUp] at e
  split at e
  next off =>
    cases e
    exact Laws.ofAlways (powerReturns_always v s) fun on => by rw [on] at off; cases off
  next => cases e; exact Laws.rfl

theorem startValues_laws {s t : State} (e : exec .startValues s = .next t) : Laws s t := by
  simp only [exec, execStartValues] at e
  split at e
  next due =>
    have starting : s.power.phase = .starting := by
      simp only [startDueNow, Bool.and_eq_true, decide_eq_true_eq] at due
      exact due.1.1.1
    exact Laws.ofAlways ((startValues_always s).trans (done_keeps e).toAlways) fun on => by
      rw [on] at starting; cases starting
  next => cases e; exact Laws.rfl

/-- Every command keeps every law. -/
theorem exec_laws {c : Instr} {s t : State} (e : exec c s = .next t) : Laws s t := by
  by_cases loss : ∃ w, c = .powerLoss w
  · obtain ⟨w, rfl⟩ := loss
    exact (powerLoss_laws e).1
  · by_cases up : ∃ v, c = .powerUp v
    · obtain ⟨v, rfl⟩ := up
      exact powerUp_laws e
    · by_cases values : c = .startValues
      · subst values
        exact startValues_laws e
      · exact (exec_keeps (fun w k => loss ⟨w, k⟩) (fun v k => up ⟨v, k⟩) values e).toLaws

/-- The run clock never goes back, but where a start sets it (R3, R20). -/
theorem exec_run {c : Instr} {s t : State} (no : ∀ v, c ≠ .powerUp v) (no' : c ≠ .startValues)
    (e : exec c s = .next t) : s.tb.runUs ≤ t.tb.runUs := by
  by_cases loss : ∃ w, c = .powerLoss w
  · obtain ⟨w, rfl⟩ := loss
    exact (powerLoss_laws e).2
  · exact (exec_keeps (fun w k => loss ⟨w, k⟩) no no' e).run

/-! ### Steps -/

theorem step_of_empty {s : State} (h : s.pending = []) : step s = .next (idle s) := by
  rw [step, h]

/-- Of an empty queue's step: a tick passes where nothing is due, else one of the things due is put in the queue. -/
theorem idle_of_quiet {s : State} (h : dueNow s = []) : idle s = { s with tb := s.tb.count 1 } := by
  rw [idle, h]

theorem idle_of_due {s : State} (h : dueNow s ≠ []) :
    ∃ c ∈ dueNow s, idle s = { s with drawn := s.drawn + 1, pending := s.pending ++ [c] } := by
  rw [idle]
  cases e : dueNow s with
  | nil => exact absurd e h
  | cons i l =>
    have lt : Config.tieChoice s.drawn % (l.length + 1) < (i :: l).length := Nat.mod_lt _ (Nat.succ_pos _)
    refine ⟨(i :: l)[Config.tieChoice s.drawn % (l.length + 1)], List.getElem_mem lt, ?_⟩
    dsimp only
    rw [List.getElem?_eq_getElem lt, Option.getD_some]

/-- The same laws, said of what a step leaves: the queue itself is no law's matter. -/
structure StepKeeps (s t : State) : Prop where
  time : TimeOk s → TimeOk t
  bounds : BoundsOk s → BoundsOk t
  claims : ClaimsOk s → ClaimsOk t
  lamps : LampsOk s → LampsOk t
  dials : s.power.phase = .on → DialsOk s → DialsOk t
  sectors : s.power.phase = .on → SectorListsOk s.store → SectorListsOk t.store

theorem Laws.step {s t : State} (h : Laws s t) : StepKeeps s t where
  time k := timeOk_iff.mpr (h.time (timeOk_iff.mp k))
  bounds k := by
    obtain ⟨slots, queue, perfs⟩ := boundsOk_iff.mp k
    exact boundsOk_iff.mpr ⟨h.slots slots, h.queue queue, h.perfs perfs⟩
  claims k := ⟨heldOk_iff.mpr (h.held (heldOk_iff.mp k.held)), h.claims (heldOk_iff.mp k.held) k.lists⟩
  lamps k := ⟨heldOk_iff.mpr (h.held (heldOk_iff.mp k.held)), h.lamps (heldOk_iff.mp k.held) k.lights⟩
  dials on k := by
    obtain ⟨held, scan, ranges⟩ := dialsOk_iff.mp k
    exact dialsOk_iff.mpr ⟨heldOk_iff.mpr (h.held (heldOk_iff.mp held)), h.scan on scan,
      h.dials on (heldOk_iff.mp held) scan ranges⟩
  sectors := h.sectors

/-- Every step keeps every law. -/
theorem step_laws {s t : State} (e : step s = .next t) : StepKeeps s t := by
  unfold step at e
  split at e
  next none =>
    cases e
    by_cases due : dueNow s = []
    · rw [idle_of_quiet due]
      exact (count_keeps s 1).toLaws.step
    · obtain ⟨c, -, e⟩ := idle_of_due due
      rw [e]
      exact { (Laws.rfl (s := s)).step with
        time := fun k => { k with }, bounds := fun k => { k with }
        claims := fun k => ⟨⟨k.held.settings, k.held.steps⟩, k.lists⟩
        lamps := fun k => ⟨⟨k.held.settings, k.held.steps⟩, k.lights⟩
        dials := fun _ k => ⟨⟨k.held.settings, k.held.steps⟩, k.scan, k.steps, k.range⟩ }
  next c l _ =>
    have h := (exec_laws e).step
    exact
      { time := fun k => h.time { k with }, bounds := fun k => h.bounds { k with }
        claims := fun k => h.claims ⟨⟨k.held.settings, k.held.steps⟩, k.lists⟩
        lamps := fun k => h.lamps ⟨⟨k.held.settings, k.held.steps⟩, k.lights⟩
        dials := fun on k => h.dials on ⟨⟨k.held.settings, k.held.steps⟩, k.scan, k.steps, k.range⟩
        sectors := h.sectors }

/-- Strictly falling level numbers of 0..3: at most four records (R69). -/
theorem claims_length {l : List Claim} (falls : l.Pairwise fun x y => x.level < y.level ∧ y.order < x.order)
    (given : ∀ c ∈ l, c.level ≤ 3) : l.length ≤ 4 := by
  have nd : (l.map (·.level)).Nodup := List.pairwise_map.mpr (falls.imp fun h => Nat.ne_of_lt h.1)
  have sub : l.map (·.level) ⊆ List.range 4 := fun k hk => by
    obtain ⟨c, hc, rfl⟩ := List.mem_map.mp hk
    exact List.mem_range.mpr (Nat.lt_succ_of_le (given c hc))
  have := (nd.subperm sub).length_le
  rwa [List.length_map, List.length_range] at this

end Sys2Proof.Machine

open Sys2Proof Sys2Proof.Machine

/-- Settles O1. -/
theorem stepRunsTheFrontCommand : Obligations.StepRunsTheFrontCommand := fun _ _ _ => rfl

/-- Settles O2: a command's effect keeps the queue (`exec_laws`), and an idle step is `idle`. -/
theorem theQueueAndIdleSteps : Obligations.TheQueueAndIdleSteps := by
  refine ⟨fun c s t e => (exec_laws e).pending, fun s none => ⟨fun due => ?_, fun due => ?_⟩⟩
  · rw [step_of_empty none, idle_of_quiet due]
  · obtain ⟨c, mem, e⟩ := idle_of_due due
    rw [none] at e
    exact ⟨c, mem, by rw [step_of_empty none, e]; rfl⟩

/-- Settles O5, by the laws that every command keeps (`exec_laws`). -/
theorem everyStepKeepsTimeRangesAndTableBounds : Obligations.EveryStepKeepsTimeRangesAndTableBounds :=
  ⟨fun _ _ h e => (step_laws e).time h, fun _ _ h e => (step_laws e).bounds h⟩

/-- Settles O6, by the laws that every command keeps (`exec_laws`). -/
theorem everyStepKeepsClaimAndSectorLists : Obligations.EveryStepKeepsClaimAndSectorLists :=
  ⟨fun _ _ h e => (step_laws e).claims h,
    fun _ b h u => claims_length (h.lists.falls b u) fun c hc => (h.lists.given b u c hc).1,
    fun _ _ on h e => (step_laws e).sectors on h⟩

/-- Settles O7, by the laws that every command keeps (`exec_laws`). -/
theorem everyStepKeepsLampsAndDialsInRange : Obligations.EveryStepKeepsLampsAndDialsInRange :=
  ⟨fun _ _ h e => (step_laws e).lamps h, fun _ _ on h e => (step_laws e).dials on h⟩

/-- Settles O10: every readout's effect leaves the part as it is (`readout_reads`). -/
theorem readoutsAnswerAndChangeNothing : Obligations.ReadoutsAnswerAndChangeNothing := by
  intro c s h take
  obtain ⟨act, run, reads⟩ := readout_reads h
  have answers : ∀ r, (act (arrived c s)).2 = r → AnsweredOnly c s r := fun r e =>
    (run s).trans (request_answers take (readout_wellFormed h) (Prod.ext (reads _).same e))
  refine ⟨fun range => ?_, fun range => ?_⟩
  · obtain ⟨f, e⟩ := (reads (arrived c s)).inRange (by rw [readoutInRange_arrived]; exact range)
    exact ⟨f, answers _ e⟩
  · obtain ⟨k, e⟩ := (reads (arrived c s)).outside (by rw [readoutInRange_arrived]; exact range)
    exact ⟨k, answers _ e⟩

end

section
/-! What a command can end in, and what is common to the requests (R189 to R191, logs 3 and 32). -/

namespace Sys2Proof.Machine

/-! ### Outcomes -/

/-- The outcome of a command: never a refusal; a well-formed command faults only where it is an event from outside that comes
beyond the end of the second in progress. -/
structure Settled (c : Instr) (s : State) (o : Host.Outcome State Fault Refusal) : Prop where
  accepted : ∀ r, o ≠ .refused r
  own : c.wellFormed = true → placedAfter c = none → ∃ t, o = .next t
  late : c.wellFormed = true → ∀ w, placedAfter c = some w → elapse w s = none → o = .fault .pastSecondEnd
  reached : c.wellFormed = true → ∀ w, placedAfter c = some w → elapse w s ≠ none → ∃ t, o = .next t

theorem settled_next {c : Instr} {s t : State} (p : placedAfter c = none) : Settled c s (.next t) where
  accepted := nofun
  own _ _ := ⟨t, rfl⟩
  late _ w k := by rw [p] at k; cases k
  reached _ w k := by rw [p] at k; cases k

theorem timed_runs (due : Option Nat) (body : State → State) (s : State) : ∃ t, timed due body s = .next t := by
  unfold timed
  split
  · exact ⟨s, rfl⟩
  · split
    · exact ⟨s, rfl⟩
    · exact ⟨_, rfl⟩

theorem request_runs (c : Instr) (act : State → State × Reply) (s : State) : ∃ t, request c act s = .next t := by
  unfold request
  split
  · exact ⟨_, rfl⟩
  · split
    · exact ⟨_, rfl⟩
    · exact ⟨s, rfl⟩

theorem settled_runs {c : Instr} {s : State} {o : Host.Outcome State Fault Refusal} (p : placedAfter c = none)
    (h : ∃ t, o = .next t) : Settled c s o := by
  obtain ⟨t, rfl⟩ := h
  exact settled_next p

theorem settled_outside {c : Instr} {s : State} {w : Nat} {body : State → State} (p : placedAfter c = some w) :
    Settled c s (outside w body s) := by
  cases e : elapse w s with
  | none =>
    rw [show outside w body s = .fault .pastSecondEnd by rw [outside, e]]
    exact
      { accepted := nofun
        own := fun _ k => by rw [p] at k; cases k
        late := fun _ _ _ _ => rfl
        reached := fun _ v k l => by rw [p] at k; cases k; exact absurd e l }
  | some u =>
    have runs : ∃ t, outside w body s = .next t := by
      rw [outside, e]
      dsimp only
      split
      · exact ⟨_, rfl⟩
      · exact ⟨_, rfl⟩
    obtain ⟨t, r⟩ := runs
    rw [r]
    exact
      { accepted := nofun
        own := fun _ k => by rw [p] at k; cases k
        late := fun _ v k l => by rw [p] at k; cases k; rw [e] at l; cases l
        reached := fun _ _ _ _ => ⟨t, rfl⟩ }

/-- An event of a unit: a unit that the part lacks is not well formed (log 32). -/
theorem settled_unit {c : Instr} {s : State} {n k : Nat} {o : Host.Outcome State Fault Refusal}
    (w : c.wellFormed = unitOk n k) (h : Settled c s o) : Settled c s (ofUnit n k o) := by
  unfold ofUnit
  split
  · exact h
  next u =>
    have no : c.wellFormed ≠ true := by rw [w]; exact u
    exact
      { accepted := nofun, own := fun k => absurd k no, late := fun k => absurd k no, reached := fun k => absurd k no }

theorem event_settled {c : Instr} (h : isRequest c = false) (s : State) : Settled c s (exec c s) := by
  cases c with
  | lineReceived | lineSent | refPulse | tollKey | silenceKey | lightsKey | stopKey | keyInputOpen => exact settled_outside rfl
  | noonClosure | noonContactOpen | confirmClosure | bottomPulse | amplitudePulse =>
    exact settled_unit rfl (settled_outside rfl)
  | secondEnd | trimUpdate | markExpired | backupSecond | quarterEvaluation | pageReadEnd | pageProgramEnd | sectorEraseEnd
  | directoryWriteEnd | lampSlot | lampMeasurementEnd | duskSample | duskMeasurementEnd =>
    exact settled_runs rfl (timed_runs _ _ _)
  | dialImpulseStart | dialImpulseEnd | strokeRelease | heldStrokeRelease | hammerPulseEnd | confirmWindowClose | eventTakeUp
  | tollStrokeRelease | testStrokeRelease | driveStart | performanceEnd | cutRecordLeaves | waitExpiry | kickEnd
  | brakeKickEnd | settleExpiry | noStart | raiseLimit | noBottom | loweringInstant | fadeStep | pwmPeriod =>
    exact settled_unit rfl (settled_runs rfl (timed_runs _ _ _))
  | expectedSecondMissing =>
    refine settled_runs rfl ?_
    simp only [exec, execExpectedSecondMissing]
    split
    · exact ⟨_, rfl⟩
    · exact ⟨s, rfl⟩
  | powerUp =>
    refine settled_runs rfl ?_
    simp only [exec, execPowerUp]
    split
    · exact ⟨_, rfl⟩
    · exact ⟨s, rfl⟩
  | startValues =>
    refine settled_runs rfl ?_
    simp only [exec, execStartValues]
    split
    · exact ⟨_, rfl⟩
    · exact ⟨s, rfl⟩
  | restartEvent =>
    refine settled_runs rfl ?_
    simp only [exec, execRestartEvent]
    split
    · exact ⟨_, rfl⟩
    · exact ⟨s, rfl⟩
  | powerLoss w =>
    have passed : ∀ u, elapse w s = some u → ∃ t, exec (.powerLoss w) s = .next t := by
      intro u e
      simp only [exec, execPowerLoss, e]
      split
      · exact ⟨_, rfl⟩
      · exact ⟨_, rfl⟩
    cases e : elapse w s with
    | none =>
      rw [show exec (.powerLoss w) s = .fault .pastSecondEnd by simp only [exec, execPowerLoss, e]]
      exact
        { accepted := nofun, own := nofun, late := fun _ _ _ _ => rfl
          reached := fun _ v k l => by cases k; exact absurd e l }
    | some u =>
      obtain ⟨t, r⟩ := passed u e
      rw [r]
      exact
        { accepted := nofun, own := nofun, late := fun _ v k l => by cases k; rw [e] at l; cases l
          reached := fun _ _ _ _ => ⟨t, rfl⟩ }
  | _ => cases h

theorem readout_exec {c : Instr} (h : isReadout c = true) (n : isServiceOnly c = false) :
    ∃ act, (∀ s, exec c s = request c act s) ∧
      (isServiceOnly c = true → ∀ s, s.line.mode = .run → act s = (s, .no .mode [])) := by
  obtain ⟨act, run, -⟩ := readout_reads h
  exact ⟨act, run, fun k => by rw [n] at k; cases k⟩

/-- Every request but RESTART is taken, or waits, with one effect of its own; in RUN those that write configuration are
refused before it (11.8). -/
theorem request_exec {c : Instr} (h : isRequest c = true) (ne : c ≠ .restart) :
    ∃ act, (∀ s, exec c s = request c act s) ∧
      (isServiceOnly c = true → ∀ s, s.line.mode = .run → act s = (s, .no .mode [])) := by
  have service : ∀ {act : State → State × Reply} {f : State → State → State × Reply},
      (∀ s, act s = serviceOnly (f s) s) → ∀ s, s.line.mode = .run → act s = (s, .no .mode []) := by
    intro act f e s run
    rw [e, serviceOnly, if_pos run]
  cases c with
  | summer r => exact ⟨summerAct r, fun _ => rfl, fun _ => service fun _ => rfl⟩
  | sun k rise st => exact ⟨sunAct k rise st, fun _ => rfl, fun _ => service fun _ => rfl⟩
  | dialConfig n c => exact ⟨dialConfigAct n c, fun _ => rfl, fun _ => service fun _ => rfl⟩
  | bellConfig b c => exact ⟨bellConfigAct b c, fun _ => rfl, fun _ => service fun _ => rfl⟩
  | bellTest b i => exact ⟨bellTestAct b i, fun _ => rfl, fun _ => service fun _ => rfl⟩
  | clockConfig c => exact ⟨clockConfigAct c, fun _ => rfl, fun _ => service fun _ => rfl⟩
  | clockLevels l => exact ⟨clockLevelsAct l, fun _ => rfl, fun _ => service fun _ => rfl⟩
  | panelToll c => exact ⟨panelTollAct c, fun _ => rfl, fun _ => service fun _ => rfl⟩
  | swingConfig n c => exact ⟨swingConfigAct n c, fun _ => rfl, fun _ => service fun _ => rfl⟩
  | lightConfig n c => exact ⟨lightConfigAct n c, fun _ => rfl, fun _ => service fun _ => rfl⟩
  | lightSite c => exact ⟨lightSiteAct c, fun _ => rfl, fun _ => service fun _ => rfl⟩
  | lineRate r => exact ⟨lineRateAct r, fun _ => rfl, fun _ => service fun _ => rfl⟩
  | timeSet d t z => exact ⟨timeSetAct d t z, fun _ => rfl, nofun⟩
  | mark d t z => exact ⟨markAct d t z, fun _ => rfl, nofun⟩
  | refOn => exact ⟨refOnAct, fun _ => rfl, nofun⟩
  | refOff => exact ⟨refOffAct, fun _ => rfl, nofun⟩
  | dialSet n p pol => exact ⟨dialSetAct n p pol, fun _ => rfl, nofun⟩
  | dialStop n => exact ⟨dialStopAct n, fun _ => rfl, nofun⟩
  | dialGo n => exact ⟨dialGoAct n, fun _ => rfl, nofun⟩
  | bellSilent b on => exact ⟨bellSilentAct b on, fun _ => rfl, nofun⟩
  | bellClear b => exact ⟨bellClearAct b, fun _ => rfl, nofun⟩
  | stopFinish id => exact ⟨stopFinishAct id, fun _ => rfl, nofun⟩
  | stopCut id => exact ⟨stopCutAct id, fun _ => rfl, nofun⟩
  | play slot scale wait scene => exact ⟨playAct slot scale wait scene, fun _ => rfl, nofun⟩
  | toll bell iv count i wait scene => exact ⟨tollAct bell iv count i wait scene, fun _ => rfl, nofun⟩
  | swingClear n => exact ⟨swingClearAct n, fun _ => rfl, nofun⟩
  | ring ds stagger duration wait => exact ⟨ringAct ds stagger duration wait, fun _ => rfl, nofun⟩
  | slotOpen n tempo division scene title => exact ⟨slotOpenAct n tempo division scene title, fun _ => rfl, nofun⟩
  | page n k part es => exact ⟨pageAct n k part es, fun _ => rfl, nofun⟩
  | slotClose n count => exact ⟨slotCloseAct n count, fun _ => rfl, nofun⟩
  | slotErase n => exact ⟨slotEraseAct n, fun _ => rfl, nofun⟩
  | entryWrite n f => exact ⟨entryWriteAct n f, fun _ => rfl, nofun⟩
  | entrySuspend n => exact ⟨entrySuspendAct n, fun _ => rfl, nofun⟩
  | entryResume n => exact ⟨entryResumeAct n, fun _ => rfl, nofun⟩
  | entryClear n => exact ⟨entryClearAct n, fun _ => rfl, nofun⟩
  | sceneWrite k fade pairs => exact ⟨sceneWriteAct k fade pairs, fun _ => rfl, nofun⟩
  | light ch level fade md => exact ⟨lightAct ch level fade md, fun _ => rfl, nofun⟩
  | lightRelease ch fade => exact ⟨lightReleaseAct ch fade, fun _ => rfl, nofun⟩
  | lightClear n fade => exact ⟨lightClearAct n fade, fun _ => rfl, nofun⟩
  | maskSet cls on => exact ⟨maskAct cls on, fun _ => rfl, nofun⟩
  | modeService => exact ⟨modeServiceAct, fun _ => rfl, nofun⟩
  | modeRun => exact ⟨modeRunAct, fun _ => rfl, nofun⟩
  | save => exact ⟨saveAct, fun _ => rfl, nofun⟩
  | restart => exact absurd rfl ne
  | timeRead | refRead | calendarRead | yearRead | summerRead | sunRead | dialRead | bellRead | claimRead | perfRead
  | sheetRead | clockRead | panelTollRead | swingRead | slotRead | storeRead | entryRead | scheduleRead | sceneRead
  | lightRead | duskRead | statusRead => exact readout_exec rfl rfl
  | _ => cases h

/-- RESTART that cannot be taken is a request like any other. -/
theorem exec_restart_waits {s : State} (h : canTake .restart s = false) :
    exec .restart s = request .restart (refuse .none) s := by
  simp only [exec, execRestart, h, Bool.false_and]
  rfl

theorem request_settled {c : Instr} (h : isRequest c = true) (s : State) : ∃ t, exec c s = .next t := by
  by_cases e : c = .restart
  · subst e
    simp only [exec, execRestart]
    split
    · exact ⟨_, rfl⟩
    · exact request_runs _ _ _
  · obtain ⟨act, run, -⟩ := request_exec h e
    rw [run]
    exact request_runs _ _ _

theorem placedAfter_request {c : Instr} (h : isRequest c = true) : placedAfter c = none := by
  cases c with
  | lineReceived | lineSent | refPulse | tollKey | silenceKey | lightsKey | stopKey | keyInputOpen | noonClosure
  | noonContactOpen | confirmClosure | bottomPulse | amplitudePulse | powerLoss => cases h
  | _ => rfl

/-! ### The order of replies -/

theorem places_eq (l : Line) : l.places = l.slots.countP (· ≠ .overrun) := by
  rw [Line.places, ← List.countP_eq_length_filter]
  exact List.countP_congr fun x _ => by cases x <;> simp [LineSlot.holdsPlace]

theorem marks_eq (l : Line) : l.marks = l.slots.count .overrun := by
  rw [Line.marks, ← List.countP_eq_length_filter, List.count]
  exact List.countP_congr fun x _ => by cases x <;> simp [LineSlot.holdsPlace]

end Sys2Proof.Machine

open Sys2Proof Sys2Proof.Machine

/-- Settles O3: the events by `event_settled`, the requests by `request_settled`. -/
theorem everyCommandHasAMeaning : Obligations.EveryCommandHasAMeaning := by
  intro c s
  have settled : Settled c s (exec c s) := by
    cases h : isRequest c with
    | true => exact settled_runs (placedAfter_request h) (request_settled h s)
    | false => exact event_settled h s
  refine ⟨settled.accepted, fun w f => ⟨fun e => ?_, fun ⟨e, v, p, l⟩ => ?_⟩, fun h f e => ?_⟩
  · cases p : placedAfter c with
    | none =>
      obtain ⟨t, r⟩ := settled.own w p
      rw [r] at e; cases e
    | some v =>
      by_cases l : elapse v s = none
      · rw [settled.late w v p l] at e
        cases e
        exact ⟨rfl, v, rfl, l⟩
      · obtain ⟨t, r⟩ := settled.reached w v p l
        rw [r] at e; cases e
  · rw [e]; exact settled.late w v p l
  · obtain ⟨t, r⟩ := request_settled h s
    rw [r] at e; cases e

/-- Settles O8. -/
theorem requestsWaitOrAreChecked : Obligations.RequestsWaitOrAreChecked := by
  refine ⟨fun c s h take => ?_, fun c s h take => ?_⟩
  · have waits : ∃ act, exec c s = request c act s := by
      by_cases e : c = .restart
      · subst e; exact ⟨_, exec_restart_waits take⟩
      · obtain ⟨act, run, -⟩ := request_exec h e
        exact ⟨act, run s⟩
    obtain ⟨act, run⟩ := waits
    dsimp only
    rw [run, ← places_eq, ← marks_eq]
    refine ⟨fun on room => ?_, fun on full room => ?_, fun on full none => ?_, fun off => request_discarded take off⟩
    · rw [request_waits take on, Line.placed, if_pos room]
    · rw [request_waits take on, Line.placed, if_neg (Nat.not_lt.mpr full), if_pos room]
    · rw [request_waits take on, Line.placed, if_neg (Nat.not_lt.mpr full), if_neg (Nat.not_lt.mpr none)]
  · by_cases e : c = .restart
    · subst e
      exact ⟨nofun, fun _ k => nomatch k⟩
    · obtain ⟨act, run, service⟩ := request_exec h e
      refine ⟨fun bad => (run s).trans (request_malformed take bad), fun good only mode => ?_⟩
      exact (run s).trans (request_answers take good (service only _ ((arrived_mode c s).trans mode)))

end

section
/-! The effects of taken requests, and the requests of the bells, the schedule and the line (R65, R66, R155 to R157, R190,
R193, R194). -/

namespace Sys2Proof.Machine

/-- A taken, well-formed request whose effect leaves the line to its reply. -/
theorem request_does {i : Instr} {act : State → State × Reply} {s t : State} {r : Reply} (take : canTake i s = true)
    (w : i.wellFormed = true) (e : ∀ l : Line, l.mode = s.line.mode → act { s with line := l } = ({ t with line := l }, r))
    (p : t.power = s.power := by rfl) : request i act s = .next { t with line := replyLine i s r } :=
  request_writes take w (by rw [arrived_eq]; exact e _ (arrived_mode i s)) p

/-- A taken, well-formed request that raises one notice. -/
theorem request_notifies {i : Instr} {act : State → State × Reply} {s t : State} {r : Reply} {c : NoticeClass}
    {d : List Field} (take : canTake i s = true) (w : i.wellFormed = true)
    (e : ∀ l : Line, l.mode = s.line.mode → act { s with line := l } = ({ t with line := l.latched c d }, r))
    (p : t.power = s.power := by rfl) : request i act s = .next { t with line := noticeReplyLine i s c d r } := by
  have e := e _ (arrived_mode i s)
  rw [← arrived_eq] at e
  rw [request_taken take w e p]
  rfl

/-- An event from outside that comes within the second in progress, main power on. -/
theorem outside_does {w : Nat} {body : State → State} {s u : State} (e : elapse w s = some u) (on : u.power.phase = .on)
    (p : (body u).power = u.power) : outside w body s = .next { body u with line := (body u).line.pumped } := by
  rw [outside_on e on, done, pump, if_pos (p.symm ▸ on)]

/-! ### Bells -/

theorem Bell.enter_eq (x : Bell) (st : BellState) : x.enter st =
    { x with state := st, windows := if x.state = st then x.windows else x.windows.filter (·.test) } := by
  unfold Bell.enter
  split
  next e => subst e; rfl
  next => rfl

theorem bellSilentAct_at {b : Nat} (unit : unitOk 24 b = true) (on : Bool) (s : State) :
    bellSilentAct b on s = (setBell b ((s.bell b).silenced on) s, .ok [.word (bellStateName ((s.bell b).silenced on).state)]) := by
  rw [bellSilentAct, if_pos unit, bellReply, bell_setBell unit]

/-- BELL SILENT moves a bell's state, its miss count and its windows (R65). -/
theorem silenced_eq (x : Bell) (on : Bool) :
    x.silenced on = { x with
      state := (x.silenced on).state, miss := (x.silenced on).miss, windows := (x.silenced on).windows } ∧
    ((x.silenced on).state ≠ x.state → (x.silenced on).windows = x.windows.filter (·.test)) ∧
    ((x.silenced on).state = x.state → (x.silenced on).windows = x.windows) := by
  unfold Bell.silenced
  split
  next e => rw [Bell.enter_eq, e]; exact ⟨rfl, fun _ => rfl, fun k => by cases k⟩
  next e => rw [Bell.enter_eq, e]; exact ⟨rfl, fun _ => rfl, fun k => by cases k⟩
  next e => rw [Bell.enter_eq, e]; exact ⟨rfl, fun _ => rfl, fun k => by cases k⟩
  next => exact ⟨rfl, fun k => absurd rfl k, fun _ => rfl⟩

theorem bellClearAct_ready {b : Nat} (unit : unitOk 24 b = true) {s : State} (h : (s.bell b).state ≠ .fault) :
    bellClearAct b s = (s, .ok [.word (bellStateName (s.bell b).state)]) := by
  rw [bellClearAct, unit, if_neg (by decide), if_neg h, bellReply]

theorem bellClearAct_fault {b : Nat} (unit : unitOk 24 b = true) {s : State} (h : (s.bell b).state = .fault) :
    bellClearAct b s = (notify .bell [.num b, .word "READY", .word "CLEAR"]
      (setBell b { s.bell b with state := .ready, miss := 0, windows := (s.bell b).windows.filter (·.test) } s),
        .ok [.word "READY"]) := by
  rw [bellClearAct, unit, if_neg (by decide), if_pos h, bellReply, Bell.enter_eq, h]
  simp only [State.bell, notify_bells, setBell_bells, rd_wr_same unit]
  rfl

/-! ### Entries -/

theorem entryAct_empty {n : Nat} (unit : unitOk 128 n = true) {s : State} (e : s.entry n = .empty) :
    entrySuspendAct n s = (s, .no .none []) ∧ entryResumeAct n s = (s, .no .none []) := by
  simp only [entrySuspendAct, entryResumeAct, unit, e]
  exact ⟨rfl, rfl⟩

theorem entryAct_suspended {n : Nat} (unit : unitOk 128 n = true) {s : State} {f : EntryFields} (e : s.entry n = .suspended f) :
    entrySuspendAct n s = (s, .ok [.word "SUSPENDED"]) ∧
      entryResumeAct n s = (setEntry n (.active f) s, .ok [.word "ACTIVE"]) := by
  have written : (setEntry n (.active f) s).entry n = .active f := rd_wr_same unit
  simp only [entrySuspendAct, entryResumeAct, unit, entryReply, written, e]
  exact ⟨rfl, rfl⟩

theorem entryAct_active {n : Nat} (unit : unitOk 128 n = true) {s : State} {f : EntryFields} (e : s.entry n = .active f) :
    entrySuspendAct n s = (setEntry n (.suspended f) s, .ok [.word "SUSPENDED"]) ∧
      entryResumeAct n s = (s, .ok [.word "ACTIVE"]) := by
  have written : (setEntry n (.suspended f) s).entry n = .suspended f := rd_wr_same unit
  simp only [entrySuspendAct, entryResumeAct, unit, entryReply, written, e]
  exact ⟨rfl, rfl⟩

theorem entryClearAct_at {n : Nat} (unit : unitOk 128 n = true) (s : State) :
    entryClearAct n s = (setEntry n .empty s, .ok [.word "EMPTY"]) := by
  rw [entryClearAct, unit, if_neg (by decide)]
  rw [entryReply, show (setEntry n .empty s).entry n = .empty from rd_wr_same unit]
  rfl

/-! ### The line's classes -/

theorem classIndex_unit (c : NoticeClass) : unitOk 10 (classIndex c) = true := by cases c <;> rfl

theorem classIndex_inj {c d : NoticeClass} (h : classIndex c = classIndex d) : c = d := by
  cases c <;> cases d <;> first | rfl | cases h

theorem rd_wr_class {α : Type} {v : Vector α 10} {a x : α} (c d : NoticeClass) :
    rd (wr v (classIndex c) a) (classIndex d) x = if d = c then a else rd v (classIndex d) x := by
  split
  next e => rw [e, rd_wr_same (classIndex_unit c)]
  next e => rw [rd_wr_ne (unitOk_iff.mp (classIndex_unit d)).1 fun k => e (classIndex_inj k)]

/-- The classes stand in the order of their places: those before class `c`, then `c` (R193). -/
theorem allClasses_split (c : NoticeClass) :
    allClasses = allClasses.take (classIndex c - 1) ++ c :: allClasses.drop (classIndex c) := by
  cases c <;> rfl

theorem classIndex_before (c : NoticeClass) : ∀ d ∈ allClasses.take (classIndex c - 1), classIndex d < classIndex c := by
  cases c <;> decide

theorem firstPending_some {l : Line} {c : NoticeClass} {p : Pending} (h : rd l.latch (classIndex c) none = some p)
    (before : ∀ d, classIndex d < classIndex c → rd l.latch (classIndex d) none = none) : l.firstPending = some (c, p) := by
  refine List.findSome?_eq_some_iff.mpr ⟨_, c, _, allClasses_split c, by rw [h]; rfl, fun d hd => ?_⟩
  rw [before d (classIndex_before c d hd)]
  rfl

theorem firstPending_none {l : Line} (h : ∀ c, rd l.latch (classIndex c) none = none) : l.firstPending = none :=
  List.findSome?_eq_none_iff.mpr fun c _ => by rw [h c]; rfl

/-- An idle transmitter with no reply and no overrun answer to send first looks for a notice (R193). -/
theorem pumped_of_not_ready {l : Line} (idle : l.tx = none)
    (h : ¬((∃ r a q, l.slots = .ready r a :: q) ∨ ∃ q, l.slots = .overrun :: q)) :
    (l.firstPending = none → l.pumped = l) ∧ ∀ c p, l.firstPending = some (c, p) →
      l.pumped = { l with tx := some (.notice c p.count p.detail), latch := wr l.latch (classIndex c) none } := by
  unfold Line.pumped
  rw [idle]
  cases e : l.slots with
  | nil => exact ⟨fun k => by rw [k], fun c p k => by rw [k]⟩
  | cons x q =>
    cases x with
    | ready r a => exact absurd (.inl ⟨r, a, q, e⟩) h
    | overrun => exact absurd (.inr ⟨q, e⟩) h
    | waiting | busy => exact ⟨fun k => by rw [k], fun c p k => by rw [k]⟩

/-- What a notice leaves of the latch where its class is ON (R192). -/
theorem latched_on {l : Line} {c : NoticeClass} {f : List Field} (h : rd l.mask (classIndex c) false = true) :
    l.latched c f = { l with latch := wr l.latch (classIndex c) (some { detail := f, count :=
      ((rd l.latch (classIndex c) none).elim 1 fun p => min (p.count + 1) 255) }) } := by
  rw [Line.latched, if_pos h]
  cases rd l.latch (classIndex c) none <;> rfl

theorem latched_off {l : Line} {c : NoticeClass} {f : List Field} (h : rd l.mask (classIndex c) false = false) :
    l.latched c f = l := by
  rw [Line.latched, h]
  rfl

/-- MASK writes the flag of each class it names, and empties the entries of those it turns OFF (R194). -/
theorem masked_at (l : Line) (cls : Option NoticeClass) (on : Bool) (c : NoticeClass) :
    rd (l.masked cls on).mask (classIndex c) false =
      (if cls = none ∨ cls = some c then on else rd l.mask (classIndex c) false) ∧
    rd (l.masked cls on).latch (classIndex c) none =
      if on = false ∧ (cls = none ∨ cls = some c) then none else rd l.latch (classIndex c) none := by
  cases cls with
  | none =>
    simp only [Line.masked]
    refine ⟨by rw [rd_replicate (classIndex_unit c)]; rfl, ?_⟩
    cases on with
    | true => rfl
    | false => exact rd_replicate (classIndex_unit c)
  | some d =>
    simp only [Line.masked]
    refine ⟨?_, ?_⟩
    · rw [rd_wr_class]
      by_cases e : c = d
      · rw [if_pos e, if_pos (.inr (e ▸ rfl))]
      · rw [if_neg e, if_neg (by rintro (k | k) <;> cases k; exact e rfl)]
    · cases on with
      | true => rfl
      | false =>
        simp only [Bool.false_eq_true, if_false]
        rw [rd_wr_class]
        by_cases e : c = d
        · rw [if_pos e, if_pos ⟨trivial, .inr (e ▸ rfl)⟩]
        · rw [if_neg e, if_neg (by rintro ⟨-, k | k⟩ <;> cases k; exact e rfl)]

theorem masked_eq (l : Line) (cls : Option NoticeClass) (on : Bool) :
    l.masked cls on = { l with mask := (l.masked cls on).mask, latch := (l.masked cls on).latch } := by
  cases cls <;> rfl

end Sys2Proof.Machine

open Sys2Proof Sys2Proof.Machine

/-- Settles O25. -/
theorem bellSilentAndClear : Obligations.BellSilentAndClear := by
  refine ⟨fun b on s take unit => ⟨(s.bell b).silenced on, ?_, ?_⟩, fun b s take unit => ⟨fun other => ?_, fun fault => ?_⟩⟩
  · exact request_does (act := bellSilentAct b on) (t := setBell b ((s.bell b).silenced on) s) take rfl
      fun l _ => bellSilentAct_at unit on _
  · obtain ⟨same, moved, stood⟩ := silenced_eq (s.bell b) on
    refine ⟨same, moved, stood, ?_, ?_⟩
    · unfold Bell.silenced
      cases e : (s.bell b).state <;> cases on <;> simp [Bell.enter_eq, e]
    · unfold Bell.silenced
      cases e : (s.bell b).state <;> cases on <;> simp [Bell.enter_eq]
  · exact request_does (act := bellClearAct b) (t := s) take rfl fun l _ => bellClearAct_ready unit other
  · exact request_notifies (act := bellClearAct b) (t := setBell b { s.bell b with
      state := .ready, miss := 0, windows := (s.bell b).windows.filter (·.test) } s) take rfl
      fun l _ => bellClearAct_fault unit fault

/-- Settles O49. -/
theorem entryRequests : Obligations.EntryRequests := by
  refine ⟨fun n f s take good unit ok => ?_, fun n s unit => ⟨fun take => ⟨fun e => ?_, fun f e => ?_, fun f e => ?_⟩,
    fun take => ⟨fun e => ?_, fun f e => ?_, fun f e => ?_⟩, fun take => ?_⟩⟩
  · refine (request_does (act := entryWriteAct n f) (t := setEntry n (.active (clampEntry f)) s)
      (r := .ok [.word "ACTIVE"]) take good
      fun l _ => ?_).trans ?_
    · simp only [entryWriteAct, unit, ok, Bool.and_self, if_true]
      rfl
    · obtain ⟨_, _, _, _, _, _, a⟩ := f
      cases a <;> simp [clampEntry, clampAction, clampN, setEntry]
  · exact request_does (act := entrySuspendAct n) (t := s) take rfl fun l _ => (entryAct_empty unit (s := { s with line := l }) e).1
  · exact request_does (act := entrySuspendAct n) (t := s) take rfl fun l _ => (entryAct_suspended unit (s := { s with line := l }) e).1
  · exact request_does (act := entrySuspendAct n) (t := setEntry n (.suspended f) s) take rfl fun l _ =>
      (entryAct_active unit (s := { s with line := l }) e).1
  · exact request_does (act := entryResumeAct n) (t := s) take rfl fun l _ => (entryAct_empty unit (s := { s with line := l }) e).2
  · exact request_does (act := entryResumeAct n) (t := s) take rfl fun l _ => (entryAct_active unit (s := { s with line := l }) e).2
  · exact request_does (act := entryResumeAct n) (t := setEntry n (.active f) s) take rfl fun l _ =>
      (entryAct_suspended unit (s := { s with line := l }) e).2
  · exact request_does (act := entryClearAct n) (t := setEntry n .empty s) take rfl fun l _ => entryClearAct_at unit _

/-- Settles O14. -/
theorem swingAndStatusReadout : Obligations.SwingAndStatusReadout := by
  refine ⟨fun n s take => ⟨fun unit => ?_, fun unit => ?_⟩, fun s take => ?_⟩
  · refine request_does (act := swingReadAct n) (t := s) take rfl fun l _ => ?_
    simp only [swingReadAct, unit]
    rfl
  · refine request_does (act := swingReadAct n) (t := s) take rfl fun l _ => ?_
    simp only [swingReadAct, unit]
    rfl
  · refine request_answers (act := statusReadAct) take rfl ?_
    have line := arrived_line .statusRead s
    have start : (arrived .statusRead s).line.lastStart = s.line.lastStart := by rw [line]
    have valid : (arrived .statusRead s).line.lastValidation = s.line.lastValidation := by rw [line]
    simp only [statusReadAct, answer, arrived_mode, arrived_store, arrived_cfg, arrived_sched, arrived_lights, start, valid]
    rfl

/-- Settles O9. -/
theorem noticesAreLatchedAndSent : Obligations.NoticesAreLatchedAndSent := by
  refine ⟨rfl, fun l c f => ⟨latched_off, fun on => ?_⟩, fun l => ⟨fun busy => ?_, fun r a q idle e => ?_, fun q idle e => ?_,
    fun c p idle none e before => ?_, fun idle none all => ?_⟩⟩
  · dsimp only
    rw [latched_on on]
    refine ⟨fun e => ?_, fun p e => ?_, fun d ne => ?_, rfl⟩
    · rw [rd_wr_same (classIndex_unit c), e]; rfl
    · rw [rd_wr_same (classIndex_unit c), e]; rfl
    · rw [rd_wr_class, if_neg ne]
  · obtain ⟨x, e⟩ := Option.ne_none_iff_exists'.mp busy
    rw [Line.pumped, e]
  · rw [Line.pumped, idle, e]
  · rw [Line.pumped, idle, e]
  · exact (pumped_of_not_ready idle none).2 c p (firstPending_some e before)
  · exact (pumped_of_not_ready idle none).1 (firstPending_none all)

/-- Settles O55. -/
theorem linesAndMasks : Obligations.LinesAndMasks := by
  refine ⟨fun cls on s take => ?_, fun w l s u e power => ⟨fun no => ?_, fun i good text req => ?_, fun no bad => ?_⟩,
    fun w s u e power => ⟨fun r rate tx => ?_, fun tx => ?_, fun c k f tx => ?_, fun tx => ?_⟩⟩
  · have mask : (arrived (.maskSet cls on) s).line.mask = s.line.mask := arrived_mask _ _
    have latch : (arrived (.maskSet cls on) s).line.latch = s.line.latch := by rw [arrived_line]
    have at' := masked_at (arrived (.maskSet cls on) s).line cls on
    rw [mask, latch] at at'
    refine ⟨((arrived (.maskSet cls on) s).line.masked cls on).mask, ((arrived (.maskSet cls on) s).line.masked cls on).latch,
      fun c k => ?_, fun c k => ?_, fun c off k => ?_, fun c k => ?_, ?_⟩
    · rw [(at' c).1, if_pos k]
    · rw [(at' c).1, if_neg k]
    · rw [(at' c).2, if_pos ⟨off, k⟩]
    · have stands : ¬(on = false ∧ (cls = none ∨ cls = some c)) := fun ⟨off, n⟩ => by
        obtain k | k := k
        · rw [off] at k; cases k
        · exact k n
      rw [(at' c).2, if_neg stands]
    · refine (request_taken (act := maskAct cls on) (t := { s with line := (arrived (.maskSet cls on) s).line.masked cls on })
        take rfl (by conv_lhs => rw [arrived_eq]
                     rfl) rfl).trans ?_
      rw [← masked_eq]
      rfl
  · refine (outside_does (body := lineReceived l) e power ?_).trans ?_
    · rw [lineReceived, if_pos no]
    · rw [lineReceived, if_pos no]
  · have no : ignored l = false := by
      cases h : l.text with
      | nil => exact absurd h text
      | cons => simp [ignored, h]
    have line : lineReceived l u = { u with line := u.line.placed (.waiting i u.now) } := by
      rw [lineReceived, no, lineSlot, good, if_pos rfl, req]
      rfl
    exact (outside_does (body := lineReceived l) e power (by rw [line])).trans (by rw [line])
  · have line : lineReceived l u = { u with line := u.line.placed (.ready (.no .badSyntax []) none) } := by
      have none : (if framed l = true then parseRequest l.text else none) = none := by
        obtain bad | bad := bad
        · rw [bad]; rfl
        · rw [bad, ite_self]
      rw [lineReceived, no, lineSlot, none]
      rfl
    exact (outside_does (body := lineReceived l) e power (by rw [line])).trans (by rw [line])
  · refine (outside_does (body := lineSent) e power rfl).trans ?_
    rw [lineSent, Line.sent, tx]
  · refine (outside_does (body := lineSent) e power rfl).trans ?_
    rw [lineSent, Line.sent, tx]
  · refine (outside_does (body := lineSent) e power rfl).trans ?_
    rw [lineSent, Line.sent, tx]
  · refine (outside_does (body := lineSent) e power rfl).trans ?_
    rw [lineSent, Line.sent, tx]

end

section
/-! What a COLD start leaves (R20, R34, R52, R77, R102, R120, R137, R154, R171, R188, R203). -/

namespace Sys2Proof.Machine

theorem reset_held : HeldRanges State.reset.cfg State.reset.store.images State.reset.line.restart State.reset.dials where
  cfg := defaultSettings_ok
  images := fun im h => absurd h (by rw [show State.reset.store.images = [] by decide +kernel]; exact List.not_mem_nil)
  restart := fun im h => absurd h List.not_mem_nil
  steps n u := by
    rw [show State.reset.dials = Vector.replicate 4 (coldDial defaultDial) from rfl, rd_replicate u]
    exact .inr (by decide)

theorem reset_scan : NoScan State.reset.store :=
  ⟨fun _ h => absurd h List.not_mem_nil, fun _ _ _ _ e => by cases e⟩

theorem reset_sectors : SectorListsOk State.reset.store := by
  have slot : ∀ n, unitOk 64 n = true → rd State.reset.store.slots n emptyEntry = emptyEntry := fun n u => rd_replicate u
  exact
    { shared := by decide +kernel
      empty := fun n u _ => by rw [slot n u]; rfl
      loading := fun _ e => by cases e
      closings := fun _ h => absurd h List.not_mem_nil
      erases := fun _ _ h => absurd h List.not_mem_nil
      finals := fun _ a b e => absurd e.symm (List.append_ne_nil_of_right_ne_nil a (List.cons_ne_nil _ b))
      resume := ⟨List.nodup_nil, fun _ h => absurd h List.not_mem_nil⟩
      scan := reset_scan }

end Sys2Proof.Machine

open Sys2Proof Sys2Proof.Machine

/-- Settles O4. -/
theorem resetIsTheColdStart : Obligations.ResetIsTheColdStart := by
  have dial : ∀ n, unitOk 4 n = true → State.reset.dial n = coldDial defaultDial := fun n u => rd_replicate u
  have bell : ∀ b, unitOk 24 b = true → State.reset.bell b = startBell := fun b u => rd_replicate u
  have chan : ∀ n, unitOk 16 n = true → State.reset.chan n = { startChannel with base := some 0 } := fun n u => rd_replicate u
  have held := heldOk_iff.mpr reset_held
  refine ⟨⟨?time, ?bounds, ?claims, ?lamps, ?dials, reset_sectors⟩, ?tb, ?ref, ?cal, fun n u => ?units, fun b u => ?bells,
    ?tables, fun k hk => ?sheet, fun n u => ?entries, ?sched, fun n u => ?chans, ?line, rfl⟩
  case time => exact timeOk_iff.mpr coldTimebase_ranges
  case bounds => exact boundsOk_iff.mpr ⟨⟨Nat.zero_le _, Nat.zero_le _⟩, Nat.zero_le _, Nat.zero_le _, List.nodup_nil⟩
  case claims =>
    refine ⟨held, fun b u => ?_, fun b u c hc => ?_, fun p hp => absurd hp List.not_mem_nil⟩
    · rw [show rd State.reset.bells b startBell = startBell from bell b u]; exact List.Pairwise.nil
    · rw [show rd State.reset.bells b startBell = startBell from bell b u] at hc; cases hc
  case lamps =>
    refine ⟨held, fun n u => ?_, fun c hc => absurd hc List.not_mem_nil⟩
    rw [show rd State.reset.lights.chans n startChannel = _ from chan n u]
    exact { startChannel_ok with base := fun l e => by cases e; exact Nat.zero_le _ }
  case dials =>
    refine dialsOk_iff.mpr ⟨held, reset_scan, fun n u => ?_, fun n p u h => ?_⟩
    · rw [show rd State.reset.dials n (coldDial defaultDial) = _ from dial n u,
        show rd State.reset.cfg.dials n defaultDial = defaultDial from rd_replicate u]
      rfl
    · rw [show rd State.reset.dials n (coldDial defaultDial) = _ from dial n u] at h; cases h
  case tb => decide
  case ref => decide
  case cal => decide +kernel
  case units =>
    rw [dial n u, show State.reset.drive n = startDrive from rd_replicate u,
      show State.reset.voice n = freeVoice from rd_replicate u]
    decide
  case bells => rw [bell b u]; decide
  case tables => decide +kernel
  case sheet =>
    rw [show State.reset.clock.today.slots = Vector.replicate 96 pendingSlot from rfl,
      rd_replicate (unitOk_iff.mpr ⟨Nat.le_add_left _ _, hk⟩)]
    rfl
  case entries =>
    exact ⟨rd_replicate u, rd_replicate u⟩
  case sched => decide
  case chans => rw [chan n u]; decide
  case line => decide +kernel

end

section
/-! The second's end, steps of the time and the requests that set them (R1 to R4, R11 to R17, R19). -/

namespace Sys2Proof.Machine

/-! ### Seconds -/

theorem truncDiv_eq_tdiv (a : Int) (b : Nat) : truncDiv a b = a.tdiv b := by
  cases a with
  | ofNat m => rfl
  | negSucc m => rw [truncDiv, if_neg (by omega), show (-Int.negSucc m).toNat = m + 1 from rfl]; rfl

theorem truncDiv_thousand (a : Int) : truncDiv a 1000 = a.tdiv 1000 := truncDiv_eq_tdiv a 1000

theorem clampI_eq_max_min {x lo hi : Int} (h : lo ≤ hi) : clampI x lo hi = max lo (min hi x) := by
  simp only [clampI]; omega

/-- Ticks are found in a second that began by counting up to its last one, k = N (R2). -/
theorem elapse_isSome_iff {w : Nat} {s : State} (len : 0 < s.tb.len) (sub : s.tb.sub = gained s.tb.tick s.tb.len)
    (pos : 0 < w) : (elapse w s).isSome = true ↔ s.tb.tick + w ≤ s.tb.len := by
  have mono : gained s.tb.tick s.tb.len ≤ gained (s.tb.tick + (w - 1)) s.tb.len :=
    Nat.div_le_div_right (Nat.mul_le_mul_left _ (Nat.le_add_right _ _))
  have inside : gained (s.tb.tick + (w - 1)) s.tb.len < 1000000 ↔ s.tb.tick + (w - 1) < s.tb.len := by
    rw [gained, Nat.div_lt_iff_lt_mul len]; omega
  rw [elapse, if_neg (by omega), sub, Nat.add_sub_cancel' mono]
  split
  next h => have := inside.mp h; exact ⟨fun _ => by omega, fun _ => rfl⟩
  next h => exact ⟨nofun, fun k => absurd (inside.mpr (by omega)) h⟩

/-- The end of the second in progress is always within it. -/
theorem reachUs_secondEnd (s : State) : ∃ u, reachUs (s.tb.runUs + (1000000 - s.tb.sub)) s = some u := by
  unfold reachUs
  split
  · exact ⟨_, rfl⟩
  · rw [if_pos (by omega)]; exact ⟨_, rfl⟩

theorem reachUs_now (s : State) : reachUs s.tb.runUs s = some s := if_pos (Nat.le_refl _)

/-- The state in which a second that began by counting has ended, before it is announced. -/
def secondEnded (s : State) : State :=
  recalc { s with tb := s.tb.nextSecond, ref := s.ref.nextSecond (s.tb.slew.getD 0) }

theorem announceBoundaryIf_quiet (b : Bool) (s : State) : Quiet s (if b = true then announceBoundary s else s) := by
  split
  · exact announceBoundary_quiet s
  · exact Quiet.rfl

theorem endSecond_quiet (s : State) : Quiet (secondEnded s) (endSecond s) :=
  (wrapSchedule_quiet _ _).trans ((localChange_quiet _ _ _).trans
    ((announceWrap_quiet _ _).trans (announceBoundaryIf_quiet _ _)))

/-- What a counted second adds to S and its count (R13). -/
theorem nextSecond_counts (r : RefMon) (e : Int) :
    (r.state = .locked → r.pullIn = false → (r.nextSecond e).sum = r.sum + e ∧ (r.nextSecond e).cnt = r.cnt + 1) ∧
    (r.state ≠ .locked ∨ r.pullIn = true → (r.nextSecond e).sum = r.sum ∧ (r.nextSecond e).cnt = r.cnt) := by
  unfold RefMon.nextSecond
  split
  next h =>
    dsimp only
    split
    next k => exact ⟨fun _ j => absurd k (by rw [j]; decide), fun _ => ⟨rfl, rfl⟩⟩
    next k => exact ⟨fun _ _ => ⟨rfl, rfl⟩, fun j => (j.elim (absurd h) fun j => absurd j k)⟩
  case h_4 h => exact ⟨fun k => absurd (h.symm.trans k) (by decide), fun _ => ⟨rfl, rfl⟩⟩
  all_goals
    next h =>
    refine ⟨fun k => absurd (h.symm.trans k) (by decide), fun _ => ?_⟩
    split <;> exact ⟨rfl, rfl⟩

/-! ### Steps of the time -/

theorem wrapUs_of_lt {t : Nat} (h : t < spanUs) : wrapUs t = t := by
  rw [wrapUs, Int.emod_eq_of_lt (by omega) (by omega)]; rfl

/-- The time moved by a step, before the step is announced (R4). -/
def movedTime (d : Int) (c : StepCause) (s : State) : State :=
  recalc { setStd (wrapUs (s.stdUs + d)) s with ref := s.ref.stepped c s.tb.sub (wrapUs (s.stdUs + d) % 1000000) }

theorem stepStd_quiet (d : Int) (c : StepCause) (s : State) : Quiet (movedTime d c s) (stepStd d c s) :=
  (wrapSchedule_quiet _ _).trans ((notify_struck _ _ _).toQuiet.trans ((announceStep_quiet _ _ _).trans
    ((localChange_quiet _ _ _).trans ((announceWrap_quiet _ _).trans (announceBoundaryIf_quiet _ _)))))

/-- The time set for the first time, before it is announced (R4). -/
def firstTime (t : Nat) (s : State) : State := recalc { setStd t s with tb := { (setStd t s).tb with set := true } }

theorem firstSetting_quiet (t : Nat) (c : StepCause) (s : State) : Quiet (firstTime t s) (firstSetting t c s) :=
  (notify_struck _ _ _).toQuiet.trans (announceSet_quiet _)

/-- The time stands at `t`; the run clock, the second in progress and T stand, and of the configuration and the dials
nothing changes. -/
structure TimeMoved (t : Nat) (s u : State) : Prop where
  set : u.tb.set = true
  std : u.stdUs = t
  run : u.tb.runUs = s.tb.runUs
  tick : u.tb.tick = s.tb.tick
  len : u.tb.len = s.tb.len
  trim : u.tb.trim = s.tb.trim
  cfg : u.cfg = s.cfg
  dials : u.dials = s.dials
  power : u.power = s.power

theorem setStd_stdUs (t : Nat) (s : State) : (setStd t s).stdUs = t := Nat.div_add_mod t 1000000

theorem TimeMoved.quiet {t : Nat} {s u v : State} (h : TimeMoved t s u) (q : Quiet u v) : TimeMoved t s v where
  set := q.tb.symm ▸ h.set
  std := by rw [← h.std, State.stdUs, q.tb, State.stdUs]
  run := q.tb.symm ▸ h.run
  tick := q.tb.symm ▸ h.tick
  len := q.tb.symm ▸ h.len
  trim := q.tb.symm ▸ h.trim
  cfg := q.cfg.trans h.cfg
  dials := q.dials.trans h.dials
  power := q.power.trans h.power

theorem firstSetting_moved (t : Nat) (c : StepCause) (s : State) : TimeMoved t s (firstSetting t c s) :=
  TimeMoved.quiet (u := firstTime t s)
    { set := rfl, std := setStd_stdUs t s, run := rfl, tick := rfl, len := rfl, trim := rfl, cfg := rfl, dials := rfl, power := rfl }
    (firstSetting_quiet t c s)

/-- A step to the instant `t`, of no length where the time stands there (R4, log 37). -/
theorem stepStd_moved {t : Nat} (h : t < spanUs) {s : State} (set : s.tb.set = true) (c : StepCause) :
    TimeMoved t s (if (t : Int) - s.stdUs = 0 then s else stepStd ((t : Int) - s.stdUs) c s) := by
  split
  next k =>
    exact { set := set, std := by omega, run := rfl, tick := rfl, len := rfl, trim := rfl, cfg := rfl, dials := rfl, power := rfl }
  next =>
    have there : wrapUs (s.stdUs + ((t : Int) - s.stdUs)) = t := by
      rw [add_sub_cancel]; exact wrapUs_of_lt h
    refine TimeMoved.quiet ?_ (stepStd_quiet _ c s)
    refine { set := set, std := ?_, run := rfl, tick := rfl, len := rfl, trim := rfl, cfg := rfl, dials := rfl, power := rfl }
    exact (setStd_stdUs _ s).trans there

theorem stepped_keeps (r : RefMon) (c : StepCause) (a b : Nat) :
    (r.stepped c a b).state = r.state ∧ (r.stepped c a b).disagree = r.disagree := by
  simp only [RefMon.stepped]
  repeat' split
  all_goals exact ⟨rfl, rfl⟩

theorem stepStd_ref (d : Int) (c : StepCause) (s : State) :
    (stepStd d c s).ref = s.ref.stepped c s.tb.sub (wrapUs (s.stdUs + d) % 1000000) := (stepStd_quiet d c s).ref

theorem firstSetting_ref (t : Nat) (c : StepCause) (s : State) : (firstSetting t c s).ref = s.ref :=
  (firstSetting_quiet t c s).ref

theorem timeSet_disagree (r : RefMon) : r.timeSet.disagree = 0 := by
  simp only [RefMon.timeSet]
  split <;> rfl

theorem timeSet_pullIn {r : RefMon} (h : r.state = .locked) : r.timeSet.pullIn = true := by
  rw [RefMon.timeSet]
  exact congrArg RefMon.pullIn (if_pos h)

/-- A TIME SET's step to `t`, with what it leaves of the monitor (R17). -/
theorem setTime_moved {t : Nat} (h : t < spanUs) (s : State) : TimeMoved t s (setTime t s).1 ∧
    (setTime t s).1.ref.disagree = 0 ∧ (setTime t s).1.ref.mark = s.ref.mark ∧
      (s.ref.state = .locked → (setTime t s).1.ref.pullIn = true) := by
  unfold setTime
  split
  next =>
    refine ⟨{ firstSetting_moved t .line s with }, timeSet_disagree _, ?_, fun k => timeSet_pullIn ?_⟩
    · rw [timeSet_mark, firstSetting_ref]
    · rw [firstSetting_ref, k]
  next k =>
    have step := stepStd_moved h (s := s) (by simpa using k) .line
    refine ⟨{ step with }, timeSet_disagree _, ?_, fun k => timeSet_pullIn ?_⟩
    · rw [timeSet_mark]
      split
      · rfl
      · rw [stepStd_ref, stepped_mark]
    · split
      · exact k
      · rw [stepStd_ref, (stepped_keeps _ _ _ _).1, k]

/-! ### Requests of time and reference -/

theorem timeSetAct_of_convert {s : State} {d : DateF} {t : TimeF} {z : Option Zone} {l : Nat} (h : convert s d t z = some l) :
    timeSetAct d t z s = setTime (1000000 * l + 1000 * t.ms) s := by
  rw [timeSetAct, h]

theorem markAct_of_convert {s : State} {d : DateF} {t : TimeF} {z : Option Zone} {l : Nat} (h : convert s d t z = some l) :
    markAct d t z s = ({ s with ref := { s.ref with mark := some { secs := l, recv := s.receivedAt } } }, .ok []) := by
  rw [markAct, h]

/-- The reception instant of a request is that of the oldest line that waits (R15, R190). -/
theorem receivedAt_waiting {i : Instr} {s : State} {a b : List LineSlot} {c : Instr} {k : Nat}
    (e : s.line.slots = a ++ .waiting c k :: b) (first : ∀ x ∈ a, ∀ i j, x ≠ .waiting i j) :
    (arrived i s).receivedAt = k := by
  have instr : s.line.oldestWaiting = some c := by
    rw [Line.oldestWaiting, e, List.findSome?_append, List.findSome?_eq_none_iff.mpr]
    · rfl
    · intro x hx
      cases x with
      | waiting i j => exact absurd rfl (first _ hx i j)
      | ready | overrun | busy => rfl
  have recv : s.line.oldestRecv = some k := by
    rw [Line.oldestRecv, e, List.findSome?_append, List.findSome?_eq_none_iff.mpr]
    · rfl
    · intro x hx
      cases x with
      | waiting i j => exact absurd rfl (first _ hx i j)
      | ready | overrun | busy => rfl
  rw [arrived, instr]
  exact congrArg (Option.getD · s.now) recv

end Sys2Proof.Machine

open Sys2Proof Sys2Proof.Machine

/-- A taken MARK leaves a mark with its reception instant (R15). -/
theorem mark_taken {d : DateF} {t : TimeF} {z : Option Zone} {s : State} {l : Nat} (take : canTake (.mark d t z) s = true)
    (ms : t.ms = 0) (c : convert s d t z = some l) : exec (.mark d t z) s = .next { s with
      ref := { s.ref with mark := some { secs := l, recv := (arrived (.mark d t z) s).receivedAt } }
      line := replyLine (.mark d t z) s (.ok []) } := by
  have act : markAct d t z (arrived (.mark d t z) s) = _ := markAct_of_convert (l := l) (by rw [arrived_eq]; exact c)
  refine request_writes (i := .mark d t z) (act := markAct d t z) (t := { s with
    ref := { s.ref with mark := some { secs := l, recv := (arrived (.mark d t z) s).receivedAt } } })
    take (decide_eq_true ms) ?_ rfl
  rw [act]
  generalize (arrived (.mark d t z) s).receivedAt = k
  rw [arrived_eq]

/-- Settles O15. -/
theorem timeAndReferenceRequests : Obligations.TimeAndReferenceRequests := by
  unfold Obligations.TimeAndReferenceRequests
  refine ⟨fun d t z s l take ms c => ?_, fun d t z s l take ms c => ?_, fun s take => ?_, fun s take => ?_⟩
  · have range : 1000000 * l + 1000 * t.ms < spanUs := by
      have := convert_lt c
      simp only [spanUs]; omega
    obtain ⟨moved, agree, mark, pull⟩ := setTime_moved range (arrived (.timeSet d t z) s)
    have act : timeSetAct d t z (arrived (.timeSet d t z) s) = _ :=
      timeSetAct_of_convert (l := l) (by rw [arrived_eq]; exact c)
    rw [arrived_eq] at moved agree mark pull act
    refine ⟨_, request_taken (act := timeSetAct d t z) take (decide_eq_true ms) (by rw [arrived_eq]; exact act) moved.power,
      moved.set, moved.std, moved.run, moved.tick, moved.len, moved.trim, agree, mark, pull, moved.cfg, moved.dials⟩
  · exact ⟨fun no => by rw [mark_taken take ms c, arrived_receivedAt no],
      fun a b x k e first => by rw [mark_taken take ms c, receivedAt_waiting e first]⟩
  · constructor
    · intro off
      exact request_notifies (act := refOnAct) (t := { s with
        ref := { s.ref with state := .acquiring, window := [], cadence := none, hist := [] } }) take rfl
        fun l _ => by rw [refOnAct, if_pos off]; rfl
    · intro on
      refine request_answers (act := refOnAct) take rfl ?_
      rw [refOnAct, arrived_ref, if_neg on]
      rfl
  · constructor
    · intro off
      refine request_answers (act := refOffAct) take rfl ?_
      rw [refOffAct, arrived_ref, if_pos off]
      rfl
    · intro on
      exact request_notifies (act := refOffAct) (t := { s with ref := { s.ref with
        state := .off, window := [], cadence := none, cadMiss := 0, hist := [], sum := 0, cnt := 0
        lastValid := none, boundary := false, judged := true, early := false } }) take rfl
        fun l _ => by rw [refOffAct, if_neg on]; rfl

/-- Settles O16. -/
theorem secondsAndTrim : Obligations.SecondsAndTrim := by
  unfold Obligations.SecondsAndTrim
  refine ⟨fun c s t no no' e => exec_run no no' e, fun w s len tick sub pos => elapse_isSome_iff len sub pos,
    fun s on => ?_, fun s on cnt => ?_, fun s off => ?_⟩
  · obtain ⟨u, reach⟩ := reachUs_secondEnd s
    have due : secondDue s = some (s.tb.runUs + (1000000 - s.tb.sub)) := if_pos on
    have ends : exec .secondEnd s = done (endSecond u) := by
      change timed (secondDue s) endSecond s = _
      rw [due]; exact timed_due reach
    have q := endSecond_quiet u
    have same : u.tb.secs = s.tb.secs ∧ u.tb.acc = s.tb.acc ∧ u.tb.trim = s.tb.trim ∧ u.tb.slew = s.tb.slew ∧
        u.ref = s.ref ∧ u.cfg = s.cfg ∧ u.power = s.power := by
      rcases reachUs_eq reach with rfl | ⟨j, rfl⟩ <;> exact ⟨rfl, rfl, rfl, rfl, rfl, rfl, rfl⟩
    obtain ⟨secs, acc, trim, slew, ref, cfg, power⟩ := same
    have counts := nextSecond_counts s.ref (s.tb.slew.getD 0)
    have tb : (endSecond u).tb = _ := q.tb
    have ref' : (endSecond u).ref = s.ref.nextSecond (s.tb.slew.getD 0) := by rw [q.ref, ← ref, ← slew]; rfl
    rw [← ref'] at counts
    have k : (endSecond u).power.phase = .on := by rw [q.power, show (secondEnded u).power = s.power from power, on]
    refine ⟨_, ends.trans (done_on k), ?_⟩
    dsimp only
    rw [tb]
    refine ⟨?_, rfl, rfl, ?_, ?_, rfl, trim, q.cfg.trans cfg, counts⟩
    · rw [← secs]; rfl
    · rw [← acc, ← trim, ← slew, ← truncDiv_thousand]; rfl
    · rw [← acc, ← trim, ← truncDiv_thousand]; rfl
  · have due : trimDue s = some s.tb.runUs := if_pos ⟨on, cnt⟩
    have ends : exec .trimUpdate s = done (trimUpdated s) := by
      change timed (trimDue s) trimUpdated s = _
      rw [due]; exact timed_due (reachUs_now s)
    rw [ends]
    dsimp only
    rw [← clampI_eq_max_min (by decide)]
    unfold trimUpdated
    dsimp only
    split
    · exact done_on on
    · exact done_on on
  · obtain ⟨u, reach⟩ := reachUs_secondEnd s
    have due : backupDue s = some (s.tb.runUs + (1000000 - s.tb.sub)) := if_neg off
    have ends : exec .backupSecond s = done (backupSecond u) := by
      change timed (backupDue s) backupSecond s = _
      rw [due]; exact timed_due reach
    have dark : pump (backupSecond u) = backupSecond u := if_neg (by
      rw [show (backupSecond u).power.phase = u.power.phase from rfl, reachUs_power reach]; exact off)
    refine ⟨_, ends.trans (congrArg Host.Outcome.next dark), ?_⟩
    rcases reachUs_eq reach with rfl | ⟨j, rfl⟩
    · exact ⟨rfl, rfl, rfl, by rw [← truncDiv_thousand]; rfl, by rw [← truncDiv_thousand]; rfl, rfl⟩
    · exact ⟨rfl, rfl, rfl, by rw [← truncDiv_thousand]; rfl, by rw [← truncDiv_thousand]; rfl, rfl⟩

end

section
/-! The Reference Monitor's pulses, marks and missing seconds (R9, R10, R12, R13, R15, R16). -/

namespace Sys2Proof.Machine

/-! ### The lock criterion -/

/-- No three missing marks stand in a row (R10). -/
def NoThree (w : List Bool) : Prop := ∀ i, ¬(w[i]? = some false ∧ w[i + 1]? = some false ∧ w[i + 2]? = some false)

theorem noThree_nil : NoThree [] := fun _ h => by simp at h

theorem noThree_cons (x : Bool) (l : List Bool) :
    NoThree (x :: l) ↔ ¬(x = false ∧ l[0]? = some false ∧ l[1]? = some false) ∧ NoThree l := by
  constructor
  · exact fun h => ⟨fun k => h 0 (by simpa using k), fun i k => h (i + 1) (by simpa using k)⟩
  · rintro ⟨first, rest⟩ (_ | i) k
    · exact first (by simpa using k)
    · exact rest i (by simpa using k)

theorem shortRuns_iff (l : List Bool) :
    (shortRuns 0 l = true ↔ NoThree l) ∧ (shortRuns 1 l = true ↔ NoThree (false :: l)) ∧
      (shortRuns 2 l = true ↔ NoThree (false :: false :: l)) := by
  induction l with
  | nil => simp [shortRuns, noThree_cons, noThree_nil]
  | cons x l ih =>
    obtain ⟨zero, one, two⟩ := ih
    cases x with
    | false => simp [shortRuns, one, two, noThree_cons]
    | true => simp [shortRuns, zero, noThree_cons]

theorem validMarks_eq (w : List Bool) : validMarks w = w.count true := by
  rw [validMarks, List.count, List.countP_eq_length_filter]
  exact congrArg (fun f => (w.filter f).length) (funext fun b => by cases b <;> rfl)

theorem lockCriterion_iff (s : State) : lockCriterion s = true ↔ Locks s s.ref.window := by
  rw [lockCriterion, Bool.and_eq_true, Bool.and_eq_true, decide_eq_true_eq, validMarks_eq, (shortRuns_iff _).1]
  exact ⟨fun ⟨⟨a, b⟩, c⟩ => ⟨a, b, c⟩, fun ⟨a, b, c⟩ => ⟨⟨a, b⟩, c⟩⟩

/-! ### Judgements -/

theorem judgePulse_off {s : State} (h : s.ref.state = .off) : judgePulse s = .stray := by rw [judgePulse, h]

/-- In ACQUIRING and HOLDOVER a pulse is judged by the cadence (R9). -/
theorem judgePulse_open {s : State} (h : s.ref.state = .acquiring ∨ s.ref.state = .holdover) :
    (s.ref.cadence = none → judgePulse s = .cadenceStart) ∧ (OnCadence s → judgePulse s = .valid) ∧
      (s.ref.cadence ≠ none → ¬OnCadence s → judgePulse s = .stray) := by
  have k : judgePulse s = s.ref.cadence.elim .cadenceStart fun c =>
      if c ≤ s.tb.osc + 2000 ∧ s.tb.osc ≤ c + 2000 then .valid else .stray := by
    unfold judgePulse
    rcases h with h | h <;> rw [h] <;> cases s.ref.cadence <;> rfl
  rw [k]
  refine ⟨fun no => by rw [no]; rfl, ?_, fun some no => ?_⟩
  · rintro ⟨c, e, near⟩
    rw [e]; exact if_pos near
  · obtain ⟨c, e⟩ := Option.ne_none_iff_exists'.mp some
    rw [e]; exact if_neg fun near => no ⟨c, e, near⟩

theorem judgePulse_locked {s : State} (h : s.ref.state = .locked) :
    (OnBoundary s → judgePulse s = .valid) ∧ (¬OnBoundary s → judgePulse s = .stray) := by
  unfold judgePulse OnBoundary
  rw [h]
  dsimp only
  split
  next late =>
    cases s.ref.judged with
    | false => exact ⟨fun _ => rfl, fun no => absurd (.inl ⟨late, rfl⟩) no⟩
    | true => exact ⟨fun k => k.elim (fun k => absurd k.2 (by decide)) (fun k => by omega), fun _ => rfl⟩
  next late =>
    split
    next soon =>
      cases s.ref.early with
      | false => exact ⟨fun _ => rfl, fun no => absurd (.inr ⟨soon, rfl⟩) no⟩
      | true => exact ⟨fun k => k.elim (fun k => absurd k.1 late) (fun k => absurd k.2 (by decide)), fun _ => rfl⟩
    next soon =>
      exact ⟨fun k => k.elim (fun k => absurd k.1 late) (fun k => absurd k.1 soon), fun _ => rfl⟩

theorem refPulse_stray {s : State} (j : judgePulse s = .stray) : refPulse s = s := by
  unfold refPulse
  rw [j]
  cases s.ref.mark <;> rfl

/-- The cadence that a pulse starts (R9). -/
def cadenceStarted (s : State) : State := { s with ref := { s.ref with cadence := some (s.tb.osc + 1000000), cadMiss := 0 } }

theorem refPulse_start {s : State} (j : judgePulse s = .cadenceStart) :
    refPulse s = cadenceStarted (s.ref.mark.elim s fun m => applyMark m s) := by
  unfold refPulse
  rw [j]
  cases s.ref.mark <;> rfl

theorem refPulse_valid {s : State} (j : judgePulse s = .valid) :
    refPulse s = markValid (s.ref.mark.elim s fun m => applyMark m s) := by
  unfold refPulse
  rw [j]
  cases s.ref.mark <;> rfl

/-! ### Phase errors -/

theorem phaseError_eq {s : State} (h : s.tb.sub ≠ 500000) : phaseError s = (offsetNow s, s) := by
  rw [phaseError, if_neg h]; rfl

theorem nearestSecond_offset (s : State) : nearestSecond s (offsetNow s) = nearestNow s := by
  unfold nearestSecond nearestNow offsetNow
  split
  · rw [if_pos (by omega)]
  · rw [if_neg (by omega)]; rfl

/-- A pulse on a boundary does not fall between two (R9). -/
theorem OnBoundary.sub_ne {s : State} (h : OnBoundary s) : s.tb.sub ≠ 500000 := by
  rcases h with ⟨k, -⟩ | ⟨k, -⟩ <;> omega

/-! ### Valid marks -/

/-- The window after a valid pulse (R10). -/
def windowValid (s : State) : State :=
  { s with ref := { s.ref with window := joinMark s.ref.window true, lastValid := some s.tb.osc } }

/-- In ACQUIRING and HOLDOVER a valid pulse anchors the cadence anew, and may meet the lock criterion (R9, R10). -/
theorem markValid_open {s : State} (h : s.ref.state = .acquiring ∨ s.ref.state = .holdover) :
    (¬Locks s (windowWith s.ref.window true) → markValid s = cadenceStarted (windowValid s)) ∧
    (Locks s (windowWith s.ref.window true) → markValid s = enterLocked (cadenceStarted (windowValid s))) := by
  have k : markValid s = if lockCriterion (cadenceStarted (windowValid s)) = true
      then enterLocked (cadenceStarted (windowValid s)) else cadenceStarted (windowValid s) := by
    unfold markValid
    dsimp only
    split
    next => rfl
    next => rfl
    all_goals
      next k => rw [k] at h; exact absurd h (by decide)
  rw [k]
  exact ⟨fun no => if_neg fun j => no ((lockCriterion_iff _).mp j), fun yes => if_pos ((lockCriterion_iff _).mpr yes)⟩

/-- What HOLDOVER's entry leaves of the monitor and the time (R10). -/
theorem holdoverTest_frame (s : State) : (holdoverTest s).tb = s.tb ∧ (holdoverTest s).ref.hist = s.ref.hist ∧
    (holdoverTest s).ref.lastValid = s.ref.lastValid ∧ (holdoverTest s).ref.window = s.ref.window ∧
    (holdoverTest s).ref.pullIn = s.ref.pullIn ∧ (holdoverTest s).ref.mark = s.ref.mark ∧
    (holdoverTest s).ref.disagree = s.ref.disagree ∧ (holdoverTest s).cfg = s.cfg ∧ (holdoverTest s).power = s.power := by
  unfold holdoverTest
  split <;> exact ⟨rfl, rfl, rfl, rfl, rfl, rfl, rfl, rfl, rfl⟩

/-- In LOCKED a valid pulse's phase error is measured (R12). -/
theorem markValid_locked {s : State} (h : s.ref.state = .locked) : ∃ (n : Nat) (judged early : Bool),
    markValid s = holdoverTest (measured (phaseError s).1
      { windowValid s with ref := { (windowValid s).ref with judged := judged, early := early }, drawn := n }) := by
  refine ⟨(phaseError s).2.drawn, s.ref.judged || decide (s.tb.sub < 500000),
    s.ref.early || decide (500000 ≤ s.tb.sub), ?_⟩
  unfold markValid phaseError
  dsimp only
  split
  case h_3 => split <;> rfl
  all_goals
    next k => rw [k] at h; cases h

end Sys2Proof.Machine

open Sys2Proof Sys2Proof.Machine

/-- Settles O17. -/
theorem referencePulseIsJudged : Obligations.ReferencePulseIsJudged := by
  unfold Obligations.ReferencePulseIsJudged
  intro w s u e on mark
  have none_of : ∀ {t : State}, refPulse u = t → t.power = u.power →
      exec (.refPulse w) s = .next { t with line := t.line.pumped } := fun k p => by
    subst k; exact outside_does e on p
  have stray : judgePulse u = .stray → exec (.refPulse w) s = .next { u with line := u.line.pumped } :=
    fun j => none_of (refPulse_stray j) rfl
  have valid : judgePulse u = .valid → refPulse u = markValid u := fun j => by rw [refPulse_valid j, mark]; rfl
  refine ⟨fun off => stray (judgePulse_off off), fun h => ?_, fun h => ?_⟩
  · obtain ⟨start, onCadence, off⟩ := judgePulse_open h
    refine ⟨fun no => ?_, fun some no => stray (off some no), fun c no => ?_⟩
    · exact none_of (t := cadenceStarted u) (by rw [refPulse_start (start no), mark]; rfl) rfl
    · exact none_of (t := cadenceStarted (windowValid u)) ((valid (onCadence c)).trans ((markValid_open h).1 no)) rfl
  · obtain ⟨onBoundary, off⟩ := judgePulse_locked h
    refine ⟨fun no => stray (off no), fun b => ?_⟩
    obtain ⟨n, judged, early, k⟩ := markValid_locked h
    rw [phaseError_eq b.sub_ne] at k
    obtain ⟨tb, hist, last, window, pullIn, -, -, -, power⟩ := holdoverTest_frame (measured (offsetNow u)
      { windowValid u with ref := { (windowValid u).ref with judged := judged, early := early }, drawn := n })
    exact ⟨_, none_of ((valid (onBoundary b)).trans k) power,
      by rw [tb, ← clampI_eq_max_min (by decide)]; rfl, hist, last, window, pullIn⟩

end

section
/-! Marks applied, LOCKED entered, missing seconds (R9, R10, R12, R13, R15, R16). -/

namespace Sys2Proof.Machine

/-- The run clock, the configuration and the power stand, and of the monitor the pending mark and the disagreement count. -/
structure Followed (s t : State) : Prop where
  run : t.tb.runUs = s.tb.runUs
  set : t.tb.set = s.tb.set
  cfg : t.cfg = s.cfg
  power : t.power = s.power
  mark : t.ref.mark = s.ref.mark
  disagree : t.ref.disagree = s.ref.disagree

theorem Followed.trans {s t u : State} (h : Followed s t) (k : Followed t u) : Followed s u where
  run := k.run.trans h.run
  set := k.set.trans h.set
  cfg := k.cfg.trans h.cfg
  power := k.power.trans h.power
  mark := k.mark.trans h.mark
  disagree := k.disagree.trans h.disagree

theorem stepStd_followed (d : Int) (c : StepCause) (s : State) : Followed s (stepStd d c s) := by
  have q := stepStd_quiet d c s
  refine { run := by rw [q.tb]; rfl, set := by rw [q.tb]; rfl, cfg := q.cfg, power := q.power, mark := ?_, disagree := ?_ }
  · rw [stepStd_ref, stepped_mark]
  · rw [stepStd_ref, (stepped_keeps _ _ _ _).2]

/-! ### The entry into LOCKED -/

/-- The monitor in LOCKED, the phase error still to be dealt with (R10). -/
def lockedAt (e : Int) (s : State) : State :=
  refState .locked { s with ref := { s.ref with
    cadence := none, cadMiss := 0, boundary := false, sum := 0, cnt := 0, judged := true
    early := decide (e < 0) || decide (500000 < s.tb.sub), pullIn := decide (1000 < e.natAbs) } }

/-- LOCKED with the phase error stepped away (R10). -/
def steppedAway (e : Int) (s : State) : State :=
  stepStd (-e) .lock
    { lockedAt e s with ref := { (lockedAt e s).ref with pullIn := false, hist := (e :: s.ref.hist).take 8 } }

theorem enterLocked_near {s : State} (h : (phaseError s).1.natAbs ≤ 100000) :
    enterLocked s = measured (phaseError s).1 (lockedAt (phaseError s).1 (phaseError s).2) := by
  unfold enterLocked
  dsimp only
  rw [if_pos h]
  rfl

theorem enterLocked_far {s : State} (h : 100000 < (phaseError s).1.natAbs) : enterLocked s =
    { steppedAway (phaseError s).1 (phaseError s).2 with
      ref := { (steppedAway (phaseError s).1 (phaseError s).2).ref with judged := true, early := false } } := by
  unfold enterLocked
  dsimp only
  rw [if_neg (by omega)]
  rfl

theorem phaseError_followed (s : State) : Followed s (phaseError s).2 := by
  unfold phaseError
  split <;> exact ⟨rfl, rfl, rfl, rfl, rfl, rfl⟩

theorem enterLocked_followed (s : State) : Followed s (enterLocked s) := by
  by_cases h : (phaseError s).1.natAbs ≤ 100000
  · rw [enterLocked_near h]
    exact (phaseError_followed s).trans ⟨rfl, rfl, rfl, rfl, rfl, rfl⟩
  · rw [enterLocked_far (by omega)]
    have stepped : Followed _ (steppedAway (phaseError s).1 (phaseError s).2) := stepStd_followed _ _ _
    exact (phaseError_followed s).trans { stepped with }

/-- At a boundary the phase error is 0, and nothing is stepped away. -/
theorem enterLocked_std {s : State} (h : s.tb.sub = 0 ∨ s.tb.sub = 1000000) : (enterLocked s).stdUs = s.stdUs := by
  have e : phaseError s = (0, s) := by
    rw [phaseError_eq (by omega)]
    exact congrArg (·, s) (by unfold offsetNow; split <;> omega)
  rw [enterLocked_near (by rw [e]; exact Nat.zero_le _), e]
  rfl

/-! ### Valid marks -/

theorem markValid_off {s : State} (h : s.ref.state = .off) : markValid s = windowValid s := by
  unfold markValid
  dsimp only
  split
  case h_4 => rfl
  all_goals
    next k => rw [k] at h; cases h

theorem RefState.cases_open (x : RefState) : x = .off ∨ x = .locked ∨ (x = .acquiring ∨ x = .holdover) := by
  cases x <;> simp

theorem markValid_followed (s : State) : Followed s (markValid s) := by
  rcases s.ref.state.cases_open with h | h | h
  · rw [markValid_off h]
    exact ⟨rfl, rfl, rfl, rfl, rfl, rfl⟩
  · obtain ⟨n, judged, early, k⟩ := markValid_locked h
    rw [k]
    obtain ⟨tb, -, -, -, -, mark, disagree, cfg, power⟩ := holdoverTest_frame (measured (phaseError s).1
      { windowValid s with ref := { (windowValid s).ref with judged := judged, early := early }, drawn := n })
    exact { run := by rw [tb]; rfl, set := by rw [tb]; rfl, cfg := cfg, power := power, mark := mark, disagree := disagree }
  · by_cases l : Locks s (windowWith s.ref.window true)
    · rw [(markValid_open h).2 l]
      exact { enterLocked_followed _ with }
    · rw [(markValid_open h).1 l]
      exact ⟨rfl, rfl, rfl, rfl, rfl, rfl⟩

/-- A valid pulse moves no time in LOCKED, nor on a boundary. -/
theorem markValid_std {s : State} (h : s.ref.state = .locked ∨ s.tb.sub = 0 ∨ s.tb.sub = 1000000) :
    (markValid s).stdUs = s.stdUs := by
  rcases s.ref.state.cases_open with k | k | k
  · rw [markValid_off k]
    rfl
  · obtain ⟨n, judged, early, e⟩ := markValid_locked k
    rw [e, State.stdUs, (holdoverTest_frame _).1]
    rfl
  · have near : s.tb.sub = 0 ∨ s.tb.sub = 1000000 := h.resolve_left fun j => by rw [j] at k; exact absurd k (by decide)
    by_cases l : Locks s (windowWith s.ref.window true)
    · rw [(markValid_open k).2 l, enterLocked_std (s := cadenceStarted (windowValid s)) near]
      rfl
    · rw [(markValid_open k).1 l]
      rfl

/-! ### The pending mark -/

/-- The pending mark is taken. -/
def markTaken (s : State) : State := { s with ref := { s.ref with mark := none } }

/-- The monitor's disagreement count stands at 0. -/
def agreedNow (s : State) : State := { s with ref := { s.ref with disagree := 0 } }

/-- The time moved to the mark's, where it does not stand there (R16). -/
def movedToMark (m : Mark) (c : StepCause) (s : State) : State :=
  if ((1000000 * m.secs : Nat) : Int) - s.stdUs = 0 then s else stepStd ((1000000 * m.secs : Nat) - s.stdUs) c s

/-- The notice of a mark that names another second (R16). -/
def disagreed (s : State) : State :=
  notify .ref [.word "MARK DISAGREE", .num (s.ref.disagree + 1 : Nat)]
    { s with ref := { s.ref with disagree := s.ref.disagree + 1 } }

theorem applyMark_unset {m : Mark} {s : State} (h : s.tb.set = false) :
    applyMark m s = agreedNow (firstSetting (1000000 * m.secs) .mark (markTaken s)) := by
  unfold applyMark
  dsimp only
  rw [h]
  rfl

theorem applyMark_acquiring {m : Mark} {s : State} (set : s.tb.set = true) (h : s.ref.state = .acquiring) :
    applyMark m s = agreedNow (movedToMark m .mark (markTaken s)) := by
  unfold applyMark
  dsimp only
  rw [set, if_neg (by decide)]
  split
  case h_1 => rfl
  all_goals
    next k => rw [k] at h; cases h

/-- A mark in LOCKED and HOLDOVER, at a pulse that does not fall between two boundaries (R16). -/
theorem applyMark_checked {m : Mark} {s : State} (set : s.tb.set = true) (half : s.tb.sub ≠ 500000)
    (h : s.ref.state = .locked ∨ s.ref.state = .holdover) :
    (nearestNow s = m.secs → applyMark m s = agreedNow (markTaken s)) ∧
    (nearestNow s ≠ m.secs → s.ref.disagree ≠ 2 → applyMark m s = disagreed (markTaken s)) ∧
    (nearestNow s ≠ m.secs → s.ref.disagree = 2 →
      applyMark m s = agreedNow (movedToMark m .disagree (disagreed (markTaken s)))) := by
  have e : applyMark m s = if nearestNow s = m.secs then agreedNow (markTaken s)
      else if s.ref.disagree + 1 = 3 then agreedNow (movedToMark m .disagree (disagreed (markTaken s)))
      else disagreed (markTaken s) := by
    have p : phaseError (markTaken s) = (offsetNow s, markTaken s) := phaseError_eq (s := markTaken s) half
    have n : nearestSecond (markTaken s) (offsetNow s) = nearestNow s := nearestSecond_offset (markTaken s)
    dsimp only [markTaken] at p n
    unfold applyMark
    dsimp only
    rw [set, if_neg (by decide), p]
    dsimp only
    rw [n]
    split
    case h_1 k => rw [k] at h; exact absurd h (by decide)
    case h_4 k => rw [k] at h; exact absurd h (by decide)
    all_goals rfl
  rw [e]
  exact ⟨fun k => if_pos k, fun k j => by rw [if_neg k, if_neg (by omega)], fun k j => by rw [if_neg k, if_pos (by omega)]⟩

theorem movedToMark_moved {m : Mark} (h : m.secs < 73049 * 86400) {s : State} (set : s.tb.set = true) (c : StepCause) :
    TimeMoved (1000000 * m.secs) s (movedToMark m c s) :=
  stepStd_moved (t := 1000000 * m.secs) (by have : spanUs = 1000000 * (73049 * 86400) := rfl; omega) set c

theorem movedToMark_sub {m : Mark} {s : State} (c : StepCause) (h : s.tb.sub ≤ 1000000) :
    (movedToMark m c s).tb.sub ≤ 1000000 := by
  unfold movedToMark
  split
  · exact h
  · rw [(stepStd_quiet _ _ _).tb]
    exact Nat.le_of_lt (Nat.mod_lt _ (by decide))

theorem movedToMark_ref (m : Mark) (c : StepCause) (s : State) :
    (movedToMark m c s).ref.state = s.ref.state ∧ (movedToMark m c s).ref.mark = s.ref.mark := by
  unfold movedToMark
  split
  · exact ⟨rfl, rfl⟩
  · rw [stepStd_ref]
    exact ⟨(stepped_keeps _ _ _ _).1, stepped_mark _ _ _ _⟩

/-- Standard time at a whole second stands at a boundary. -/
theorem boundary_of_stdUs {s : State} {n : Nat} (h : s.stdUs = 1000000 * n) (sub : s.tb.sub ≤ 1000000) :
    s.tb.sub = 0 ∨ s.tb.sub = 1000000 := by
  rw [State.stdUs] at h; omega

/-- What a qualifying pulse makes of the state with its mark applied. -/
theorem refPulse_marked {s : State} {m : Mark} (h : s.ref.mark = some m) (q : Qualifies s) :
    (refPulse s = cadenceStarted (applyMark m s) ∧ s.ref.cadence = none ∧
      (s.ref.state = .acquiring ∨ s.ref.state = .holdover)) ∨
    (refPulse s = markValid (applyMark m s) ∧ (s.ref.state = .locked → OnBoundary s) ∧
      (s.ref.cadence = none → s.ref.state ≠ .holdover)) := by
  rcases q with ⟨k, no | c⟩ | ⟨k, b⟩
  · refine .inl ⟨?_, no, k⟩
    rw [refPulse_start ((judgePulse_open k).1 no), h]
    rfl
  · refine .inr ⟨?_, fun l => ?_, fun no => ?_⟩
    · rw [refPulse_valid ((judgePulse_open k).2.1 c), h]
      rfl
    · rw [l] at k; exact absurd k (by decide)
    · obtain ⟨c, e, -⟩ := c; rw [no] at e; cases e
  · refine .inr ⟨?_, fun _ => b, fun _ l => ?_⟩
    · rw [refPulse_valid ((judgePulse_locked k).1 b), h]
      rfl
    · rw [k] at l; cases l

/-- What follows on a qualifying pulse's mark leaves the run clock, the configuration, the mark and the count, and in
LOCKED, at a cadence start and on a boundary the time too. -/
theorem refPulse_follows {s : State} {m : Mark} (h : s.ref.mark = some m) (q : Qualifies s) :
    Followed (applyMark m s) (refPulse s) ∧
    (((applyMark m s).ref.state = .locked ∨ (applyMark m s).tb.sub = 0 ∨ (applyMark m s).tb.sub = 1000000) ∨
      (s.ref.state = .holdover ∧ s.ref.cadence = none) → (refPulse s).stdUs = (applyMark m s).stdUs) := by
  rcases refPulse_marked h q with ⟨e, -, -⟩ | ⟨e, -, no⟩
  · rw [e]
    exact ⟨⟨rfl, rfl, rfl, rfl, rfl, rfl⟩, fun _ => rfl⟩
  · rw [e]
    exact ⟨markValid_followed _, fun k => markValid_std (k.resolve_right fun j => no j.2 j.1)⟩

/-- The run clock, the configuration, the power and the pending mark stand. -/
structure Carried (s t : State) : Prop where
  run : t.tb.runUs = s.tb.runUs
  cfg : t.cfg = s.cfg
  power : t.power = s.power
  mark : t.ref.mark = s.ref.mark

theorem Carried.rfl {s : State} : Carried s s := ⟨Eq.refl _, Eq.refl _, Eq.refl _, Eq.refl _⟩

theorem Carried.trans {s t u : State} (h : Carried s t) (k : Carried t u) : Carried s u where
  run := k.run.trans h.run
  cfg := k.cfg.trans h.cfg
  power := k.power.trans h.power
  mark := k.mark.trans h.mark

theorem Followed.carried {s t : State} (h : Followed s t) : Carried s t := { h with }

theorem agreedNow_carried (s : State) : Carried s (agreedNow s) := ⟨rfl, rfl, rfl, rfl⟩

theorem disagreed_carried (s : State) : Carried s (disagreed s) := ⟨rfl, rfl, rfl, rfl⟩

theorem movedIf_carried (d : Int) (c : StepCause) (s : State) : Carried s (if d = 0 then s else stepStd d c s) := by
  split
  · exact Carried.rfl
  · exact (stepStd_followed _ _ _).carried

theorem applyMark_carried (m : Mark) (s : State) : Carried (markTaken s) (applyMark m s) := by
  unfold applyMark
  dsimp only
  split
  · have first := firstSetting_moved (1000000 * m.secs) .mark (markTaken s)
    have mark := congrArg RefMon.mark (firstSetting_ref (1000000 * m.secs) .mark (markTaken s))
    exact { run := first.run, cfg := first.cfg, power := first.power, mark := mark }
  · split
    case h_1 => exact (movedIf_carried _ _ (markTaken s)).trans (agreedNow_carried _)
    case h_4 => exact Carried.rfl
    all_goals
      refine (phaseError_followed (markTaken s)).carried.trans ?_
      split
      · exact agreedNow_carried _
      · split
        · exact (disagreed_carried _).trans ((movedIf_carried _ _ _).trans (agreedNow_carried _))
        · exact disagreed_carried _

/-- The entry into LOCKED with a phase error that the slew takes away (R10, R12). -/
theorem enterLocked_offset {s : State} (half : s.tb.sub ≠ 500000) (near : (offsetNow s).natAbs ≤ 100000) :
    enterLocked s = measured (offsetNow s) (lockedAt (offsetNow s) s) := by
  have e := enterLocked_near (s := s)
  rw [phaseError_eq half] at e
  exact e near

theorem enterLocked_offset_far {s : State} (half : s.tb.sub ≠ 500000) (far : 100000 < (offsetNow s).natAbs) :
    enterLocked s = { steppedAway (offsetNow s) s with
      ref := { (steppedAway (offsetNow s) s).ref with judged := true, early := false } } := by
  have e := enterLocked_far (s := s)
  rw [phaseError_eq half] at e
  exact e far

theorem stepped_lock (r : RefMon) (a b : Nat) :
    ∃ judged early, r.stepped .lock a b = { r with sum := 0, cnt := 0, judged := judged, early := early } := by
  unfold RefMon.stepped
  dsimp only
  split
  · exact ⟨_, _, rfl⟩
  · rw [if_pos rfl]
    split
    · exact ⟨_, _, rfl⟩
    · split <;> exact ⟨_, _, rfl⟩

/-- The whole second nearest a pulse, to which its phase error steps the time. -/
theorem wrapUs_offset {s : State} (secs : s.tb.secs < 73049 * 86400) :
    wrapUs (s.stdUs + -offsetNow s) = 1000000 * nearestNow s := by
  have span : spanUs = 1000000 * (73049 * 86400) := rfl
  unfold wrapUs State.stdUs offsetNow nearestNow
  rw [span]
  split <;> omega

/-- A phase error stepped away leaves LOCKED at the whole second nearest the pulse (R10). -/
theorem steppedAway_frame {s : State} (secs : s.tb.secs < 73049 * 86400) :
    (steppedAway (offsetNow s) s).tb.secs = nearestNow s ∧ (steppedAway (offsetNow s) s).tb.sub = 0 ∧
    (steppedAway (offsetNow s) s).tb.trim = s.tb.trim ∧ (steppedAway (offsetNow s) s).tb.runUs = s.tb.runUs ∧
    ∃ judged early, (steppedAway (offsetNow s) s).ref = { s.ref with
      state := .locked, cadence := none, cadMiss := 0, boundary := false, sum := 0, cnt := 0, judged := judged
      early := early, pullIn := false, hist := (offsetNow s :: s.ref.hist).take 8 } := by
  have q : Quiet _ (steppedAway (offsetNow s) s) := stepStd_quiet _ _ _
  have to_second := wrapUs_offset secs
  refine ⟨?_, ?_, ?_, ?_, ?_⟩
  · rw [q.tb]
    exact (congrArg (· / 1000000) to_second).trans (Nat.mul_div_cancel_left _ (by decide))
  · rw [q.tb]
    exact (congrArg (· % 1000000) to_second).trans (Nat.mul_mod_right _ _)
  · rw [q.tb]; rfl
  · rw [q.tb]; rfl
  · obtain ⟨judged, early, e⟩ := stepped_lock { (lockedAt (offsetNow s) s).ref with
      pullIn := false, hist := (offsetNow s :: s.ref.hist).take 8 } s.tb.sub (wrapUs (s.stdUs + -offsetNow s) % 1000000)
    refine ⟨judged, early, ?_⟩
    rw [q.ref]
    exact e

/-! ### Missing seconds -/

theorem missing_exec {s u : State} {w : Nat} (h : missingTicks s = some w) (e : elapse w s = some u) :
    exec .expectedSecondMissing s = done (secondMissing u) := by
  change execExpectedSecondMissing s = _
  rw [execExpectedSecondMissing, h, Option.bind_some, e]

theorem missingTicks_boundary {s : State} (on : s.power.phase = .on)
    (h : s.ref.state = .acquiring ∨ s.ref.state = .holdover) (b : s.ref.boundary = true) : missingTicks s = some 0 := by
  rw [missingTicks, if_neg (not_not_intro on)]
  rcases h with h | h <;> rw [h] <;> exact if_pos b

theorem missingTicks_cadence {s : State} {c : Nat} (on : s.power.phase = .on)
    (h : s.ref.state = .acquiring ∨ s.ref.state = .holdover) (b : s.ref.boundary = false) (cad : s.ref.cadence = some c) :
    missingTicks s = some (c + 2001 - s.tb.osc) := by
  rw [missingTicks, if_neg (not_not_intro on)]
  rcases h with h | h <;> rw [h, b, cad] <;> rfl

theorem missingTicks_locked {s : State} (on : s.power.phase = .on) (h : s.ref.state = .locked) (j : s.ref.judged = false) :
    missingTicks s = some (s.tb.ticksFor (50001 - s.tb.sub)) := by
  rw [missingTicks, if_neg (not_not_intro on), h, j]
  rfl

/-- The window after a missing second (R10). -/
def windowMissing (s : State) : State := { s with ref := { s.ref with window := joinMark s.ref.window false } }

theorem secondMissing_open {s : State} (h : s.ref.state = .acquiring ∨ s.ref.state = .holdover) :
    secondMissing s = if s.ref.boundary then { windowMissing s with ref := { (windowMissing s).ref with boundary := false } }
      else if 3 ≤ s.ref.cadMiss + 1 then
        { windowMissing s with ref := { (windowMissing s).ref with cadence := none, cadMiss := 0 } }
      else { windowMissing s with ref := { (windowMissing s).ref with
        cadence := s.ref.cadence.map (· + 1000000), cadMiss := s.ref.cadMiss + 1 } } := by
  unfold secondMissing
  dsimp only
  split
  next k => rw [k] at h; exact absurd h (by decide)
  next k => rw [k] at h; exact absurd h (by decide)
  next => rfl
  next => rfl

/-- A second boundary that no pulse met (R9). -/
theorem secondMissing_boundary {s : State} (h : s.ref.state = .acquiring ∨ s.ref.state = .holdover)
    (b : s.ref.boundary = true) : secondMissing s = { s with ref := { s.ref with
      window := windowWith s.ref.window false, boundary := false } } :=
  (secondMissing_open h).trans (if_pos b)

/-- A cadence instant that no pulse met, up to the third in a row (R9). -/
theorem secondMissing_cadence {s : State} (h : s.ref.state = .acquiring ∨ s.ref.state = .holdover)
    (b : s.ref.boundary = false) :
    (s.ref.cadMiss < 2 → secondMissing s = { s with ref := { s.ref with
      window := windowWith s.ref.window false
      cadence := s.ref.cadence.map (· + 1000000)
      cadMiss := s.ref.cadMiss + 1 } }) ∧
    (2 ≤ s.ref.cadMiss → secondMissing s = { s with ref := { s.ref with
      window := windowWith s.ref.window false, cadence := none, cadMiss := 0 } }) := by
  have e := (secondMissing_open h).trans (if_neg (by rw [b]; decide))
  exact ⟨fun k => e.trans (if_neg (by omega)), fun k => e.trans (if_pos (by omega))⟩

theorem missingRun_eq (w : List Bool) : missingRun w = (w.reverse.takeWhile (· = false)).length := by
  unfold missingRun
  exact congrArg (fun p => (w.reverse.takeWhile p).length) (funext fun b => by cases b <;> rfl)

/-- A second of LOCKED whose tolerance has ended without a pulse (R9), and the loss of lock (R10). -/
theorem secondMissing_locked {s : State} (h : s.ref.state = .locked) :
    (¬(8 ≤ ((windowWith s.ref.window false).reverse.takeWhile (· = false)).length ∨
        (windowWith s.ref.window false).count true < 24) →
      secondMissing s = { s with ref := { s.ref with window := windowWith s.ref.window false, judged := true } }) ∧
    (8 ≤ ((windowWith s.ref.window false).reverse.takeWhile (· = false)).length ∨
        (windowWith s.ref.window false).count true < 24 →
      secondMissing s = enterHoldover
        { s with ref := { s.ref with window := windowWith s.ref.window false, judged := true } }) := by
  have e : secondMissing s = holdoverTest
      { s with ref := { s.ref with window := windowWith s.ref.window false, judged := true } } := by
    unfold secondMissing
    dsimp only
    split
    case h_2 => rfl
    all_goals
      next k => rw [k] at h; cases h
  rw [e, ← missingRun_eq, ← validMarks_eq]
  refine ⟨fun k => if_neg fun j => k ?_, fun k => if_pos (Bool.and_eq_true_iff.mpr ⟨decide_eq_true h, ?_⟩)⟩
  · simpa only [Bool.or_eq_true, decide_eq_true_eq] using (Bool.and_eq_true_iff.mp j).2
  · simpa only [Bool.or_eq_true, decide_eq_true_eq] using k

end Sys2Proof.Machine

open Sys2Proof Sys2Proof.Machine

/-- Settles O18. -/
theorem marksAreAppliedAndLockIsEntered : Obligations.MarksAreAppliedAndLockIsEntered := by
  unfold Obligations.MarksAreAppliedAndLockIsEntered
  refine ⟨fun w s u m e on mark range sub q => ?_, fun w s u e on mark h c locks half secs => ?_⟩
  · obtain ⟨follows, stands⟩ := refPulse_follows mark q
    have carried := (applyMark_carried m u).trans follows.carried
    refine ⟨_, outside_does e on carried.power, carried.mark, carried.run, carried.cfg, fun no => ?_, fun set acq => ?_,
      fun set h => ?_, fun set hold no half ne two => ?_⟩
    · have k := applyMark_unset (m := m) no
      have moved := firstSetting_moved (1000000 * m.secs) .mark (markTaken u)
      have zero : (applyMark m u).tb.sub = 0 := by
        rw [k]
        exact (congrArg Timebase.sub (firstSetting_quiet (1000000 * m.secs) .mark (markTaken u)).tb).trans
          (Nat.mul_mod_right 1000000 m.secs)
      exact ⟨follows.set.trans (by rw [k]; exact moved.set),
        (stands (.inl (.inr (.inl zero)))).trans (by rw [k]; exact moved.std), follows.disagree.trans (by rw [k]; rfl)⟩
    · have k := applyMark_acquiring (m := m) set acq
      have moved := movedToMark_moved range (s := markTaken u) set .mark
      have std : (applyMark m u).stdUs = 1000000 * m.secs := by rw [k]; exact moved.std
      have at_boundary := boundary_of_stdUs std (by rw [k]; exact movedToMark_sub .mark sub)
      exact ⟨(stands (.inl (.inr at_boundary))).trans std, follows.disagree.trans (by rw [k]; rfl)⟩
    · have half : u.tb.sub ≠ 500000 := by
        rcases h with l | ⟨-, -, half⟩
        · rcases q with ⟨k, -⟩ | ⟨-, b⟩
          · rw [l] at k; exact absurd k (by decide)
          · exact b.sub_ne
        · exact half
      obtain ⟨same, other, third⟩ := applyMark_checked (m := m) set half (h.imp id And.left)
      have stands' : (applyMark m u).ref.state = u.ref.state → (refPulse u).stdUs = (applyMark m u).stdUs := fun k =>
        stands (h.imp (fun l => .inl (k.trans l)) fun l => ⟨l.1, l.2.1⟩)
      refine ⟨fun k => ?_, fun k two => ?_, fun k two => ?_⟩
      · have k := same k
        exact ⟨(stands' (by rw [k]; rfl)).trans (by rw [k]; rfl), follows.disagree.trans (by rw [k]; rfl)⟩
      · have k := other k two
        exact ⟨(stands' (by rw [k]; rfl)).trans (by rw [k]; rfl), follows.disagree.trans (by rw [k]; rfl)⟩
      · have k := third k two
        have moved := movedToMark_moved range (s := disagreed (markTaken u)) set .disagree
        exact ⟨(stands' (by rw [k]; exact (movedToMark_ref m .disagree (disagreed (markTaken u))).1)).trans
          (by rw [k]; exact moved.std), follows.disagree.trans (by rw [k]; rfl)⟩
    · have k := (applyMark_checked (m := m) set half (.inr hold)).2.1 ne two
      rw [refPulse_start ((judgePulse_open (.inr hold)).1 no), mark, Option.elim_some, k]
      rfl
  · have locked := (markValid_open h).2 locks
    have pulse : refPulse u = enterLocked (cadenceStarted (windowValid u)) := by
      rw [refPulse_valid ((judgePulse_open h).2.1 c), mark, Option.elim_none, locked]
    have power : (refPulse u).power = u.power := by
      rw [pulse]; exact (enterLocked_followed (cadenceStarted (windowValid u))).power
    by_cases near : (offsetNow u).natAbs ≤ 100000
    · rw [enterLocked_offset (s := cadenceStarted (windowValid u)) half near] at pulse
      refine ⟨_, outside_does e on power, ?_⟩
      rw [pulse]
      refine ⟨rfl, rfl, rfl, rfl, rfl, rfl, rfl, fun _ => ⟨?_, Bool.and_self _, rfl, rfl⟩, fun far => by omega⟩
      rw [← clampI_eq_max_min (by decide)]
      rfl
    · rw [enterLocked_offset_far (s := cadenceStarted (windowValid u)) half (Nat.lt_of_not_le near)] at pulse
      obtain ⟨second, sub, trim, run, judged, early, ref⟩ :=
        steppedAway_frame (s := cadenceStarted (windowValid u)) secs
      refine ⟨_, outside_does e on power, ?_⟩
      rw [pulse]
      refine ⟨congrArg RefMon.state ref, congrArg RefMon.window ref, congrArg RefMon.cadence ref,
        congrArg RefMon.hist ref, congrArg RefMon.sum ref, congrArg RefMon.cnt ref, trim, fun k => absurd k near,
        fun _ => ⟨second, sub, congrArg RefMon.pullIn ref, run⟩⟩

/-- Settles O19. -/
theorem missingSecondAndMarkExpiry : Obligations.MissingSecondAndMarkExpiry := by
  unfold Obligations.MissingSecondAndMarkExpiry
  refine ⟨fun s on h b => ?_, fun c s u on h b cad e => ?_, fun s u on h j e => ?_, fun s u m on mark reach => ?_⟩
  · have due : missingTicks s = some 0 := missingTicks_boundary on h b
    rw [missing_exec due rfl, secondMissing_boundary h b]
    exact done_on on
  · have due : missingTicks s = some (c + 2001 - s.tb.osc) := missingTicks_cadence on h b cad
    have same : u.power = s.power ∧ u.ref = s.ref := by rcases elapse_eq e with rfl | rfl <;> exact ⟨rfl, rfl⟩
    obtain ⟨power, ref⟩ := same
    rw [missing_exec due e]
    obtain ⟨next, third⟩ := secondMissing_cadence (s := u) (by rw [ref]; exact h) (by rw [ref]; exact b)
    refine ⟨fun k => ?_, fun k => ?_⟩
    · rw [next k, show u.ref.cadence = some c by rw [ref]; exact cad]
      exact done_on (by rw [power]; exact on)
    · rw [third k]
      exact done_on (by rw [power]; exact on)
  · have due : missingTicks s = some (s.tb.ticksFor (50001 - s.tb.sub)) := missingTicks_locked on h j
    have same : u.power = s.power ∧ u.ref = s.ref := by rcases elapse_eq e with rfl | rfl <;> exact ⟨rfl, rfl⟩
    obtain ⟨power, ref⟩ := same
    rw [missing_exec due e]
    obtain ⟨stays, leaves⟩ := secondMissing_locked (s := u) (by rw [ref]; exact h)
    refine ⟨fun k => ?_, fun k => ?_⟩
    · rw [stays k]
      exact done_on (by rw [power]; exact on)
    · rw [leaves k]
      exact done_on (by rw [power]; exact on)
  · have due : markDue s = some (1000 * (m.recv + 1500)) := by rw [markDue, mark]; exact if_pos on
    change timed (markDue s) markExpired s = _
    rw [due, timed_due reach]
    exact done_on (s := markExpired u) (((congrArg Power.phase (reachUs_power reach) :)).trans on)

end

section
/-! The dials: their target and state, their requests, impulses and noon closures (R35, R38, R39, R41 to R44, R46, R47). -/

namespace Sys2Proof.Machine

/-! ### Target, difference and state -/

theorem dialDiff_add {s : State} {n p : Nat} (h : p < positions (s.dialCfg n)) :
    (dialDiff s n p + p) % positions (s.dialCfg n) = dialTarget s n % positions (s.dialCfg n) := by
  rw [dialDiff, Nat.mod_add_mod, Nat.sub_add_cancel (by omega), Nat.add_mod_right]

/-- The three reported states of a DERIVED dial (R39). -/
theorem dialState_derived {s : State} {n p : Nat} (h : (s.dial n).stored = .derived) (k : (s.dial n).pos = some p) :
    dialState s n = if dialDiff s n p ≤ 1 then .inStep
      else if dialDiff s n p ≤ positions (s.dialCfg n) - holdWindow (s.dialCfg n) then .advancing else .holding := by
  unfold dialState
  dsimp only
  rw [h, k]
  rfl

/-! ### Requests -/

/-- A dial request that writes its dial's record and answers its state. -/
theorem dialReply_does {i : Instr} {act : State → State × Reply} {n : Nat} {x : Dial} {s : State} (take : canTake i s = true)
    (w : i.wellFormed = true)
    (e : ∀ l : Line, act { s with line := l } = dialReply n (setDial n x { s with line := l })) :
    request i act s = .next { s with
      dials := wr s.dials n x, line := replyLine i s (.ok [.word (dialStateName (dialState (setDial n x s) n))]) } :=
  request_does (act := act) (t := { s with dials := wr s.dials n x }) take w (fun l _ => e l) rfl

theorem dialState_stopped {s : State} {n : Nat} (h : (s.dial n).stored = .stopped) : dialState s n = .stopped := by
  unfold dialState
  dsimp only
  rw [h]

theorem clampDial_eq (c : DialCfg) : clampDial c = { c with
    width := min (max c.width 100) 2000 / 10 * 10, interval := min (max c.interval 500) 10000, hold := min c.hold 180 } := by
  simp only [clampDial, clampN, Nat.max_zero]

theorem dialPlaced_none (c : DialCfg) (q : Option Polarity) (x : Dial) : dialPlaced c none q x = { x with
    pos := none, count := 0
    stored := if x.stored = .stopped then .stopped else if c.noon = true then .searching else .unknown } := by
  unfold dialPlaced
  dsimp only
  split
  next h => rw [← h]
  next => unfold seekOrUnknown; split <;> rfl

theorem dialGone_stands {c : DialCfg} {x : Dial} (h : x.stored ≠ .stopped) : dialGone c x = x := if_pos h

theorem dialGone_known {c : DialCfg} {x : Dial} (h : x.stored = .stopped) (k : x.pos ≠ none) :
    dialGone c x = { x with stored := .derived } := by
  obtain ⟨p, e⟩ := Option.ne_none_iff_exists'.mp k
  rw [dialGone, if_neg (not_not_intro h), e]

theorem dialGone_lost {c : DialCfg} {x : Dial} (h : x.stored = .stopped) (k : x.pos = none) :
    dialGone c x = seekOrUnknown c x := by
  rw [dialGone, if_neg (not_not_intro h), k]

theorem noonFieldChanged_lost {old new : DialCfg} {x : Dial} (h : old.noon = true) (k : new.noon = false)
    (j : x.stored = .searching ∨ (x.stored = .fault ∧ x.pos = none)) :
    noonFieldChanged old new x = { x with stored := .unknown } :=
  if_pos ⟨h, by rw [k]; rfl, j⟩

theorem noonFieldChanged_found {old new : DialCfg} {x : Dial} (h : old.noon = false) (k : new.noon = true)
    (j : x.stored = .unknown) : noonFieldChanged old new x = { x with stored := .searching, count := 0 } := by
  rw [noonFieldChanged, if_neg fun a => absurd a.1 (by rw [h]; decide), if_pos ⟨by rw [h]; rfl, k, j⟩]

theorem noonFieldChanged_same {old new : DialCfg} {x : Dial}
    (lost : ¬(old.noon = true ∧ new.noon = false ∧ (x.stored = .searching ∨ (x.stored = .fault ∧ x.pos = none))))
    (found : ¬(old.noon = false ∧ new.noon = true ∧ x.stored = .unknown)) : noonFieldChanged old new x = x := by
  rw [noonFieldChanged, if_neg fun a => lost ⟨a.1, by simpa using a.2.1, a.2.2⟩,
    if_neg fun a => found ⟨by simpa using a.1, a.2.1, a.2.2⟩]

/-! ### Impulses -/

/-- A dial at the fault limit, its contact fitted, in a state that the limit takes to FAULT (R41, R43). -/
def AtFaultLimit (c : DialCfg) (x : Dial) : Prop :=
  c.noon = true ∧ (x.stored = .derived ∨ x.stored = .searching) ∧ positions c + c.tolerance ≤ x.count

theorem startImpulse_faults_iff (c : DialCfg) (now : Nat) (x : Dial) :
    (startImpulse c now x).1 = true ↔ AtFaultLimit c x := by
  unfold startImpulse AtFaultLimit faultLimit
  dsimp only
  rw [Bool.and_eq_true, Bool.and_eq_true, Bool.or_eq_true, decide_eq_true_iff, decide_eq_true_iff, decide_eq_true_iff, and_assoc]

/-- An impulse on the FAULT entry's record, or on that which stood (R41). -/
theorem startImpulse_record (c : DialCfg) (now : Nat) (x : Dial) :
    (startImpulse c now x).2 = { (if (startImpulse c now x).1 then { x with stored := .fault, noon := .missed } else x) with
      pos := x.pos.map fun p => (p + 1) % positions c
      pol := if c.polarised then (match x.pol with | .positive => .negative | .negative => .positive) else x.pol
      out := some (if c.polarised then x.pol else .positive)
      isOpen := true, count := min (x.count + 1) 65535, last := some now, openEnd := now + c.width } := by
  unfold startImpulse
  dsimp only
  split <;> rfl

theorem flipped_ne (p : Polarity) : (match p with | .positive => Polarity.negative | .negative => .positive) ≠ p := by
  cases p <;> decide

/-- What an impulse makes of the record's fields, at the limit or not (R41). -/
theorem startImpulse_fields (c : DialCfg) (now : Nat) (x : Dial) : let y := (startImpulse c now x).2
    y.isOpen = true ∧ (y.stored = if (startImpulse c now x).1 then .fault else x.stored) ∧
    (y.noon = if (startImpulse c now x).1 then .missed else x.noon) ∧
    y.slips = x.slips ∧ y.armed = x.armed ∧ y.step = x.step ∧ y.pos = x.pos.map (fun p => (p + 1) % positions c) ∧
    y.count = min (x.count + 1) 65535 ∧ y.last = some now ∧ y.openEnd = now + c.width ∧
    (c.polarised = true → y.out = some x.pol ∧ y.pol ≠ x.pol) ∧
    (c.polarised = false → y.out = some .positive ∧ y.pol = x.pol) := by
  dsimp only
  rw [startImpulse_record]
  refine ⟨rfl, ?_, ?_, ?_, ?_, ?_, rfl, rfl, rfl, rfl, fun h => ?_, fun h => ?_⟩
  · split <;> rfl
  · split <;> rfl
  · split <;> rfl
  · split <;> rfl
  · split <;> rfl
  · rw [h]
    exact ⟨rfl, flipped_ne x.pol⟩
  · rw [h]
    exact ⟨rfl, rfl⟩

theorem impulseDue_on {n d : Nat} {s : State} (h : impulseDue n s = some d) : s.power.phase = .on := by
  unfold impulseDue at h
  dsimp only at h
  split at h
  next k => exact k.1
  next => cases h

/-- An event from outside whose effect is known. -/
theorem outside_becomes {w : Nat} {body : State → State} {s u t : State} (e : elapse w s = some u) (on : u.power.phase = .on)
    (k : body u = t) (p : t.power = u.power := by rfl) : outside w body s = .next { t with line := t.line.pumped } := by
  subst k
  exact outside_does e on p

theorem impulseStart_faults {n : Nat} {s : State} (h : (startImpulse (s.dialCfg n) s.now (s.dial n)).1 = true) :
    impulseStart n s = notify .dial [.num n, .word "FAULT", posField (s.dial n).pos]
      (setDial n (startImpulse (s.dialCfg n) s.now (s.dial n)).2 s) := if_pos h

theorem impulseStart_passes {n : Nat} {s : State} (h : ¬(startImpulse (s.dialCfg n) s.now (s.dial n)).1 = true) :
    impulseStart n s = setDial n (startImpulse (s.dialCfg n) s.now (s.dial n)).2 s := if_neg h

/-! ### Noon closures -/

/-- A closure that an armed, fitted contact gives (R42). -/
theorem noonClosure_armed {n : Nat} {s : State} (fit : (s.dialCfg n).noon = true) (armed : (s.dial n).armed = true) :
    noonClosure n s = closureActs n (setDial n { s.dial n with armed := false } s) := by
  rw [noonClosure, fit, armed]
  rfl

theorem checkNoon_good {n p : Nat} {s : State}
    (h : min p (positions (s.dialCfg n) - p) ≤ (s.dialCfg n).tolerance) :
    checkNoon n p s = setDial n { s.dial n with count := 0, noon := .good } s := by
  simp only [checkNoon, noonCheck, if_pos h]
  rfl

theorem checkNoon_slip {n p : Nat} {s : State}
    (h : (s.dialCfg n).tolerance < min p (positions (s.dialCfg n) - p)) :
    checkNoon n p s = notify .dial [.num n, .word "SLIP", .num p] (setDial n { s.dial n with
      pos := some 0, slips := min ((s.dial n).slips + 1) 65535, count := 0, noon := .slip } s) := by
  simp only [checkNoon, noonCheck, if_neg (Nat.not_le_of_lt h)]
  rfl

theorem closureActs_derived {n p : Nat} {s : State} (h : (s.dial n).stored = .derived) (k : (s.dial n).pos = some p) :
    closureActs n s = checkNoon n p s := by
  simp only [closureActs, h, k]

theorem closureActs_searching {n : Nat} {s : State} (h : (s.dial n).stored = .searching) :
    closureActs n s = notify .dial [.num n, .word "FOUND"] (foundNoon n s) := by
  simp only [closureActs, h]

/-- A FAULT dial returns to DERIVED at the position that the noon check leaves (R43). -/
theorem closureActs_fault {n p q : Nat} {s t : State} {y : Dial} (unit : unitOk 4 n = true) (h : (s.dial n).stored = .fault)
    (k : (s.dial n).pos = some p) (c : checkNoon n p s = t) (d : t.dial n = y) (at_ : y.pos = some q) :
    closureActs n s = notify .dial [.num n, .word "RECOVERED", .num q] (setDial n { y with stored := .derived } t) := by
  simp only [closureActs, h, k, c, d, dial_setDial unit, at_]
  rfl

theorem closureActs_fault_lost {n : Nat} {s : State} (h : (s.dial n).stored = .fault) (k : (s.dial n).pos = none) :
    closureActs n s = notify .dial [.num n, .word "RECOVERED", .num 0] (foundNoon n s) := by
  simp only [closureActs, h, k]

end Sys2Proof.Machine

open Sys2Proof Sys2Proof.Machine

/-- Settles O21. -/
theorem dialTargetDifferenceAndState : Obligations.DialTargetDifferenceAndState := by
  unfold Obligations.DialTargetDifferenceAndState
  intro s n p
  refine ⟨rfl, fun h => ⟨Nat.mod_lt _ (Nat.zero_lt_of_lt h), dialDiff_add h⟩, fun h k => ?_⟩
  rw [dialState_derived h k]
  exact ⟨fun near => if_pos near, fun far behind => by rw [if_neg (by omega), if_pos behind],
    fun far ahead => by rw [if_neg (by omega), if_neg (by omega)]⟩

/-- Settles O22. -/
theorem dialRequestsWriteTheRecord : Obligations.DialRequestsWriteTheRecord := by
  unfold Obligations.DialRequestsWriteTheRecord
  refine ⟨fun n c s take mode unit ok step => ?_, fun n p q s take unit range => ?_, fun n q s take unit => ?_,
    fun n s take unit => ?_, fun n s take unit => ?_⟩
  · have stays : ¬((s.dialCfg n).step ≠ c.step ∧ (s.dial n).pos.isSome = true) := by
      rintro ⟨k, j⟩
      rcases step with e | e
      · exact k e.symm
      · rw [e] at j; cases j
    have noon : (clampDial c).noon = c.noon := rfl
    dsimp only
    rw [← clampDial_eq]
    refine ⟨{ noonFieldChanged (s.dialCfg n) (clampDial c) (s.dial n) with step := c.step },
      request_does (act := dialConfigAct n c) (t := { s with
        cfg := { s.cfg with dials := wr s.cfg.dials n (clampDial c) }
        dials := wr s.dials n { noonFieldChanged (s.dialCfg n) (clampDial c) (s.dial n) with step := c.step } })
        take rfl fun l k => ?_, fun ⟨a, b, j⟩ => ?_, fun ⟨a, b, j⟩ => ?_, fun lost found => ?_⟩
    · unfold dialConfigAct
      rw [serviceOnly_service (k.trans mode), unit, ok, if_neg (by decide)]
      exact if_neg stays
    · rw [noonFieldChanged_lost a (noon.trans b) j]
    · rw [noonFieldChanged_found a (noon.trans b) j]
    · rw [noonFieldChanged_same (by rw [noon]; exact lost) (by rw [noon]; exact found)]
  · refine ⟨_, dialReply_does (act := dialSetAct n (some p) q) (n := n)
      (x := dialPlaced (s.dialCfg n) (some p) q (s.dial n)) take rfl fun l => ?_, rfl⟩
    rw [dialSetAct, unit]
    exact if_neg fun k => absurd (of_decide_eq_true k) (Nat.not_le_of_lt range)
  · refine ⟨_, dialReply_does (act := dialSetAct n none q) (n := n)
      (x := dialPlaced (s.dialCfg n) none q (s.dial n)) take rfl fun l => ?_, ?_⟩
    · rw [dialSetAct, unit]
      exact if_neg (show ¬false = true by decide)
    · rw [dialPlaced_none]
  · have e := dialReply_does (i := .dialStop n) (act := dialStopAct n) (n := n) (x := { s.dial n with stored := .stopped })
      take rfl fun l => by rw [dialStopAct, unit]; exact if_neg (by decide)
    rw [dialState_stopped (by rw [dial_setDial unit])] at e
    exact e
  · refine ⟨_, dialReply_does (i := .dialGo n) (act := dialGoAct n) (n := n)
      (x := dialGone (s.dialCfg n) (s.dial n)) take rfl fun l => by rw [dialGoAct, unit]; exact if_neg (by decide), ?_⟩
    refine ⟨fun k => ?_, fun k j => ?_, fun k j noon => ?_, fun k j noon => ?_⟩
    · rw [dialGone_stands k, State.dial, wr_rd unit]
    · rw [dialGone_known k j]
    · rw [dialGone_lost k j, seekOrUnknown, if_pos noon]
    · rw [dialGone_lost k j, seekOrUnknown, if_neg (by rw [noon]; decide)]

/-- Settles O23. -/
theorem impulsesAndNoonClosures : Obligations.ImpulsesAndNoonClosures := by
  unfold Obligations.ImpulsesAndNoonClosures
  refine ⟨fun n d s u unit due reach => ?_, fun n s u unit on opened reach => ?_,
    fun w n p s u unit e on fit armed st pos => ?_, fun w n s u unit e on fit armed st => ?_,
    fun w n s u unit e on fit armed st => ?_, fun w n s u unit e on => ?_⟩
  · have on : s.power.phase = .on := impulseDue_on due
    have on : u.power.phase = .on := by rw [reachUs_power reach]; exact on
    have exec_eq : exec (.dialImpulseStart n) s = done (impulseStart n u) := by
      change ofUnit 4 n (timed (impulseDue n s) (impulseStart n) s) = _
      rw [ofUnit_ok unit, due, timed_due reach]
    obtain ⟨isOpen, stored, noon, slips, armed, step, pos, count, last, ends, pol, plain⟩ :=
      startImpulse_fields (u.dialCfg n) u.now (u.dial n)
    have faults := startImpulse_faults_iff (u.dialCfg n) u.now (u.dial n)
    have written : ∀ l : Line, State.dial { u with
        dials := wr u.dials n (startImpulse (u.dialCfg n) u.now (u.dial n)).2, line := l } n =
          (startImpulse (u.dialCfg n) u.now (u.dial n)).2 := fun l => rd_wr_same unit
    by_cases k : (startImpulse (u.dialCfg n) u.now (u.dial n)).1 = true
    · rw [impulseStart_faults k] at exec_eq
      rw [if_pos k] at stored noon
      refine ⟨{ u with
        dials := wr u.dials n (startImpulse (u.dialCfg n) u.now (u.dial n)).2
        line := noticeLine u .dial [.num n, .word "FAULT", posField (u.dial n).pos] }, exec_eq.trans (done_on on), ?_⟩
      rw [written]
      exact ⟨isOpen, fun _ => ⟨stored, noon, rfl⟩, fun no => absurd (faults.mp k) no, slips, armed, step, pos, count, last,
        ends, pol, plain, rfl⟩
    · rw [impulseStart_passes k] at exec_eq
      rw [if_neg k] at stored noon
      refine ⟨{ u with dials := wr u.dials n (startImpulse (u.dialCfg n) u.now (u.dial n)).2, line := u.line.pumped },
        exec_eq.trans (done_on on), ?_⟩
      rw [written]
      exact ⟨isOpen, fun yes => absurd (faults.mpr yes) k, fun _ => ⟨stored, noon, rfl⟩, slips, armed, step, pos, count, last,
        ends, pol, plain, rfl⟩
  · have due : impulseEndDue n s = some (1000 * (s.dial n).openEnd) := by
      rw [impulseEndDue, opened]; exact if_pos on
    change ofUnit 4 n (timed (impulseEndDue n s) (impulseEnd n) s) = _
    rw [ofUnit_ok unit, due, timed_due reach]
    exact done_on (s := impulseEnd n u) (((congrArg Power.phase (reachUs_power reach) :)).trans on)
  · change (_ → ofUnit 4 n (outside w (noonClosure n) s) = _) ∧ (_ → ofUnit 4 n (outside w (noonClosure n) s) = _)
    rw [ofUnit_ok unit]
    have taken := noonClosure_armed fit armed
    have disarmed : (setDial n { u.dial n with armed := false } u).dial n = { u.dial n with armed := false } :=
      dial_setDial unit
    rw [closureActs_derived (p := p) (by rw [disarmed]; exact st) (by rw [disarmed]; exact pos)] at taken
    refine ⟨fun near => ?_, fun far => ?_⟩
    · rw [checkNoon_good (by exact near), disarmed, setDial_setDial] at taken
      exact outside_becomes e on taken
    · rw [checkNoon_slip (by exact far), disarmed, setDial_setDial] at taken
      exact outside_becomes e on taken
  · change ofUnit 4 n (outside w (noonClosure n) s) = _
    rw [ofUnit_ok unit]
    have taken := noonClosure_armed fit armed
    have disarmed : (setDial n { u.dial n with armed := false } u).dial n = { u.dial n with armed := false } :=
      dial_setDial unit
    rw [closureActs_searching (by rw [disarmed]; exact st), foundNoon, disarmed, setDial_setDial] at taken
    exact outside_becomes e on taken
  · change (∀ p, _ → _ → ofUnit 4 n (outside w (noonClosure n) s) = _) ∧
      (∀ p, _ → _ → ofUnit 4 n (outside w (noonClosure n) s) = _) ∧ (_ → ofUnit 4 n (outside w (noonClosure n) s) = _)
    rw [ofUnit_ok unit]
    have taken := noonClosure_armed fit armed
    have disarmed : (setDial n { u.dial n with armed := false } u).dial n = { u.dial n with armed := false } :=
      dial_setDial unit
    refine ⟨fun p pos near => ?_, fun p pos far => ?_, fun lost => ?_⟩
    · rw [closureActs_fault unit (by rw [disarmed]; exact st) (by rw [disarmed]; exact pos) (checkNoon_good (by exact near))
        (dial_setDial unit) (by rw [disarmed]; exact pos), disarmed, setDial_setDial, setDial_setDial] at taken
      exact outside_becomes e on taken
    · rw [closureActs_fault unit (by rw [disarmed]; exact st) (by rw [disarmed]; exact pos) (checkNoon_slip (by exact far))
        (dial_setDial unit) rfl, disarmed, setDial_setDial] at taken
      have k := outside_becomes e on taken
      change outside w (noonClosure n) s = .next { u with dials := wr (wr u.dials n _) n _, line := _ } at k
      rw [wr_wr] at k
      exact k
    · rw [closureActs_fault_lost (by rw [disarmed]; exact st) (by rw [disarmed]; exact lost), foundNoon, disarmed,
        setDial_setDial] at taken
      exact outside_becomes e on taken
  · change ofUnit 4 n (outside w (noonOpen n) s) = _
    rw [ofUnit_ok unit]
    exact outside_does e on rfl

end

section
/-! Strokes: how each is sent, what it does to the bell's record, and its report (R56 to R64, R67, R87, R89 to R91, R115). -/

namespace Sys2Proof.Machine

/-! ### Reports -/

theorem reported_eq (p : Perf) (r : Report) (e : Nat) : p.reported r e = { p with
    kind := p.kind.judged r, counters := p.counters.counted r, pulseEnd := max p.pulseEnd e
    drivenEnd := if r = .released then max p.drivenEnd e else p.drivenEnd } := by
  have kinds : (p.reported r e).kind = p.kind.judged r := by
    unfold Perf.reported PerfKind.judged
    dsimp only
    cases p.kind <;> cases r <;> rfl
  have counts : (p.reported r e).counters = p.counters.counted r := by cases r <;> rfl
  rw [← kinds, ← counts]
  rfl

/-- The performance table once a request of performance `id` has been answered, where the request is its own: an ADMITTED
record is RUNNING (R80). -/
def begunTable (fresh : Bool) (id : Nat) (s : State) : List Perf :=
  match fresh, s.perf id with
  | true, some p => if p.state = .admitted then (setPerf { p with state := .running } s).perfs else s.perfs
  | _, _ => s.perfs

theorem begunTable_gone {fresh : Bool} {id : Nat} {s : State} (h : s.perf id = none) : begunTable fresh id s = s.perfs := by
  unfold begunTable
  rw [h]
  cases fresh <;> rfl

theorem begunTable_same {fresh : Bool} {id : Nat} {s : State} {p : Perf} (h : s.perf id = some p) :
    (begunTable fresh id s).find? (fun q => q.id = id) =
      some { p with state := if fresh = true ∧ p.state = .admitted then .running else p.state } := by
  unfold begunTable
  rw [h]
  cases fresh with
  | false => exact h
  | true =>
    dsimp only
    split
    next k =>
      have e : p.id = id := perf_id h
      subst e
      rw [if_pos ⟨rfl, k⟩]
      exact perf_setPerf_same (p := { p with state := .running }) h
    next k => rw [if_neg fun j => k j.2]; exact h

theorem begunTable_other {fresh : Bool} {id k : Nat} {s : State} (h : k ≠ id) :
    (begunTable fresh id s).find? (fun q => q.id = k) = s.perf k := by
  unfold begunTable
  split
  next p e =>
    split
    · exact perf_setPerf_ne (p := { p with state := .running }) fun j => h (j.trans (show p.id = id from perf_id e))
    · rfl
  next => rfl

/-- A report on a state that differs from `w` in its bells, its performance's start and its line only. -/
theorem report_reported {fresh : Bool} {id e : Nat} {r : Report} {w : State} {bells : Vector Bell 24} {l : Line} :
    Reported w { report id r e { w with bells := bells, perfs := begunTable fresh id w } with line := l } id r e fresh where
  record p h := by
    have k : ({ w with bells := bells, perfs := begunTable fresh id w } : State).perf id = _ := begunTable_same h
    refine (perf_report_same k).trans ?_
    rw [reported_eq]
  gone h := by
    have k : ({ w with bells := bells, perfs := begunTable fresh id w } : State).perf id = none := by
      change (begunTable fresh id w).find? _ = none
      rw [begunTable_gone h]
      exact h
    rw [report_gone k]
    exact begunTable_gone h
  others j h := (perf_report_ne (s := { w with bells := bells, perfs := begunTable fresh id w }) h).trans
    (begunTable_other h)

/-- An answer that reports a stroke, not masked: the bells as written, the report, and nothing else. -/
theorem done_reports {o : Host.Outcome State Fault Refusal} {fresh : Bool} {id e : Nat} {r : Report} {w : State}
    {bells : Vector Bell 24} (h : o = done (report id r e { w with bells := bells, perfs := begunTable fresh id w }))
    (on : w.power.phase = .on) (m : r ≠ .masked) :
    ∃ t, o = .next t ∧ Reported w t id r e fresh ∧
      t = { w with bells := bells, perfs := t.perfs, line := w.line.pumped } := by
  refine ⟨_, h.trans (done_on (by rw [report_eq]; exact on)), report_reported, ?_⟩
  have clock := report_clock (id := id) (e := e) (s := { w with bells := bells, perfs := begunTable fresh id w }) m
  rw [report_eq, clock]

/-! ### Masked reports -/

theorem report_clocked {id e : Nat} {s : State} {p : Perf} {c : ClockParams} (h : s.perf id = some p) (k : p.kind = .clock c) :
    (report id .masked e s).clock = countMasked c.date c.slot s.clock := by
  simp only [report, h, k]
  rfl

theorem begunTable_kind {fresh : Bool} {id : Nat} {w : State} {bells : Vector Bell 24} {p : Perf} (h : w.perf id = some p) :
    ∃ q, ({ w with bells := bells, perfs := begunTable fresh id w } : State).perf id = some q ∧ q.kind = p.kind :=
  ⟨_, begunTable_same h, rfl⟩

/-- The clock after a masked report to a CLOCK performance (R115). -/
theorem masked_clock {fresh : Bool} {id e : Nat} {w : State} {bells : Vector Bell 24} {p : Perf} {c : ClockParams}
    (h : w.perf id = some p) (k : p.kind = .clock c) :
    (report id .masked e { w with bells := bells, perfs := begunTable fresh id w }).clock =
      countMasked c.date c.slot w.clock := by
  obtain ⟨q, hq, hk⟩ := begunTable_kind (fresh := fresh) (bells := bells) h
  exact report_clocked hq (hk.trans k)

theorem report_maskReported {fresh : Bool} {id e : Nat} {w : State} {bells : Vector Bell 24} {l : Line} :
    MaskReported w { report id .masked e { w with bells := bells, perfs := begunTable fresh id w } with line := l } id e
      fresh where
  toReported := report_reported
  today p c h k d := (masked_clock h k).trans (by rw [countMasked, onSheetSlot, if_pos d]; rfl)
  yesterday p c h k no d := (masked_clock h k).trans (by rw [countMasked, onSheetSlot, if_neg no, if_pos d]; rfl)
  early p c x h k no no' d := (masked_clock h k).trans (by
    rw [countMasked, onSheetSlot, if_neg no, if_neg no', d]
    exact if_pos rfl)
  sheets no := by
    refine report_unclocked (s := { w with bells := bells, perfs := begunTable fresh id w }) fun q hq => ?_
    cases h : w.perf id with
    | none =>
      have k : (begunTable fresh id w).find? (fun q => q.id = id) = none := by rw [begunTable_gone h]; exact h
      exact absurd (k.symm.trans hq) (by simp)
    | some p =>
      obtain ⟨q', hq', hk⟩ := begunTable_kind (fresh := fresh) (bells := bells) h
      cases hq.symm.trans hq'
      unfold Perf.isClock
      split
      next c j => exact absurd (hk.symm.trans j) (no p c h)
      next => rfl

theorem done_masks {o : Host.Outcome State Fault Refusal} {fresh : Bool} {b id e : Nat} {w : State}
    (h : o = done (maskStroke b id e { w with perfs := begunTable fresh id w })) (on : w.power.phase = .on) :
    ∃ t, o = .next t ∧ MaskReported w t id e fresh ∧
      t = { w with bells := wr w.bells b (maskedBell w b), perfs := t.perfs, clock := t.clock, line := w.line.pumped } := by
  have k : maskStroke b id e { w with perfs := begunTable fresh id w } = report id .masked e
      { w with bells := wr w.bells b (maskedBell w b), perfs := begunTable fresh id w } := rfl
  rw [k] at h
  refine ⟨_, h.trans (done_on (by rw [report_eq]; exact on)), report_maskReported, ?_⟩
  rw [report_eq]

/-! ### The checks of a stroke -/

theorem claimPasses_iff {s : State} {b id : Nat} :
    claimPasses s b id = true ↔ ∃ c l, (s.bell b).claims = c :: l ∧ c.perf = id := by
  unfold claimPasses
  split
  next c l e => rw [e]; simp
  next e => rw [e]; simp

theorem claimMissing_iff {s : State} {b id : Nat} : ClaimMissing s b id ↔ claimPasses s b id = false := by
  rw [← Bool.not_eq_true, claimPasses_iff]
  exact ⟨fun h ⟨c, l, e, k⟩ => h c l e k, fun h c l e k => h ⟨c, l, e, k⟩⟩

theorem swinging_iff {s : State} {b : Nat} : Swinging s b ↔ swingPasses s b = false := by
  unfold Swinging swingPasses
  rw [Bool.or_eq_false_iff, Bool.not_eq_false', decide_eq_false_iff_not]

theorem StrokeAllowed.passes {s : State} {b id : Nat} (h : StrokeAllowed s b id) :
    claimPasses s b id = true ∧ swingPasses s b = true := by
  refine ⟨claimPasses_iff.mpr h.claim, ?_⟩
  rw [← Bool.not_eq_false, ← swinging_iff]
  exact fun k => k.2 (h.swing k.1)

theorem stateCheck_masked {b id : Nat} {i : Intensity} {test : Bool} {req : Nat} {s : State} (h : HammerMasked s b test) :
    stateCheck b id i test req s = maskStroke b id (req + pulseWidth (s.bellCfg b) i) s := by
  refine if_pos ?_
  rcases h with h | ⟨h, k⟩
  · rw [h]; rfl
  · rw [h, k]; exact Bool.or_true _

theorem stateCheck_silent {b id : Nat} {i : Intensity} {test : Bool} {req : Nat} {s : State} (h : HammerSilent s b) :
    stateCheck b id i test req s = report id .silent (s.now + pulseWidth (s.bellCfg b) i)
      { s with bells := wr s.bells b (silentBell s b) } := by
  have no : ¬(!(s.bellCfg b).hammer || (decide ((s.bell b).state = .fault) && !test)) = true := by
    rw [h.1, h.2]; decide +revert
  exact (if_neg no).trans (if_pos h.2)

theorem stateCheck_driven {b id : Nat} {i : Intensity} {test : Bool} {req : Nat} {s : State} (h : HammerDriven s b test) :
    stateCheck b id i test req s = report id .released (s.now + pulseWidth (s.bellCfg b) i)
      { s with bells := wr s.bells b (pulsedBell s b id i test) } := by
  obtain ⟨hammer, k⟩ := h
  have no : ¬(!(s.bellCfg b).hammer || (decide ((s.bell b).state = .fault) && !test)) = true := by
    rcases k with k | ⟨k, t⟩
    · rw [hammer, k]; decide +revert
    · rw [hammer, k, t]; decide
  have loud : (s.bell b).state ≠ .silent := by
    rcases k with k | ⟨k, -⟩ <;> rw [k] <;> decide
  exact (if_neg no).trans (if_neg loud)

theorem strokeRequest_masked {b id : Nat} {i : Intensity} {test : Bool} {s : State}
    (h : claimPasses s b id = false ∨ swingPasses s b = false) :
    strokeRequest b id i test s = maskStroke b id (s.now + pulseWidth (s.bellCfg b) i) s := by
  refine if_pos ?_
  rcases h with h | h <;> rw [h]
  · rfl
  · exact Bool.or_true _

/-- A stroke that the claims and the swing drive let on (R58). -/
theorem strokeRequest_allowed {b id : Nat} {i : Intensity} {test : Bool} {s : State} (h : StrokeAllowed s b id) :
    ((s.bell b).held ≠ none →
      strokeRequest b id i test s = report id .crowded (s.now + pulseWidth (s.bellCfg b) i) s) ∧
    (Uncrowded s b → strokeRequest b id i test s = stateCheck b id i test s.now s) ∧
    (∀ r, (s.bell b).held = none → (s.bell b).last = some r → s.now < r + (s.bellCfg b).recovery →
      ((s.bellCfg b).crowd < r + (s.bellCfg b).recovery - s.now →
        strokeRequest b id i test s = report id .crowded (s.now + pulseWidth (s.bellCfg b) i) s) ∧
      (r + (s.bellCfg b).recovery - s.now ≤ (s.bellCfg b).crowd → strokeRequest b id i test s = report id .delayed 0
        { s with bells := wr s.bells b { s.bell b with
          held := some (Held.mk id i test s.now (r + (s.bellCfg b).recovery)) } })) := by
  have no : ¬(!claimPasses s b id || !swingPasses s b) = true := by rw [h.passes.1, h.passes.2]; decide
  have e : strokeRequest b id i test s = _ := if_neg no
  rw [e]
  refine ⟨fun held => ?_, fun free => ?_, fun r held last early => ⟨fun far => ?_, fun near => ?_⟩⟩
  · obtain ⟨x, k⟩ := Option.ne_none_iff_exists'.mp held
    rw [k]
  · rw [free.held]
    cases k : (s.bell b).last with
    | none => rfl
    | some r => exact if_pos (free.rest r k)
  · rw [held, last]
    exact (if_neg (Nat.not_le_of_lt early)).trans (if_neg (Nat.not_le_of_lt far))
  · split
    next k => rw [held] at k; cases k
    next k => rw [last] at k; cases k
    next l k =>
      cases last.symm.trans k
      exact (if_neg (Nat.not_le_of_lt early)).trans (if_pos near)

/-! ### Senders -/

theorem sendStroke_eq (b id : Nat) (i : Intensity) (test : Bool) (s : State) :
    sendStroke b id i test s = strokeRequest b id i test { s with perfs := begunTable true id s } := by
  unfold sendStroke begunTable
  cases s.perf id with
  | none => rfl
  | some p =>
    dsimp only
    split <;> rfl

theorem tollDue_on {id d : Nat} {s : State} (h : tollDue id s = some d) : s.power.phase = .on := by
  unfold tollDue at h
  split at h
  · cases h
  · split at h
    · split at h
      · exact dueMs_on h
      · cases h
    · cases h

theorem testDue_on {id d : Nat} {s : State} (h : testDue id s = some d) : s.power.phase = .on := by
  unfold testDue at h
  split at h
  · cases h
  · split at h
    · split at h
      · exact dueMs_on h
      · cases h
    · cases h

theorem setPerf_of_id {p : Perf} {id : Nat} (h : p.id = id) (s : State) :
    setPerf p s = { s with perfs := s.perfs.map fun q => if q.id = id then p else q } := by
  subst h; rfl

/-- Every sender's stroke is a stroke request of its performance (R87, R89, R90). -/
theorem StrokeSent.exec_eq {c : Instr} {s w : State} {b id : Nat} {i : Intensity} {test : Bool}
    (h : StrokeSent s c w b id i test) :
    exec c s = done (strokeRequest b id i test { w with perfs := begunTable true id w }) ∧ w.power.phase = .on := by
  cases h with
  | @voice v d _ u x l unit due reach perf first =>
    refine ⟨?_, show u.power.phase = .on from reached_on due reach⟩
    change ofUnit 4 v (timed (strokeDue v s) (strokeRelease v) s) = _
    rw [ofUnit_ok unit, due, timed_due reach, strokeRelease, perf, first, ← sendStroke_eq]
    rfl
  | @toll _ d u p k unit due reach perf kind =>
    refine ⟨?_, by rw [reachUs_power reach]; exact tollDue_on due⟩
    change ofUnit 255 id (timed (tollDue id s) (tollRelease id) s) = _
    rw [ofUnit_ok unit, due, timed_due reach, tollRelease, perf, ← sendStroke_eq,
      ← setPerf_of_id (p := { p with kind := .toll { k with sent := k.sent + 1 } }) (show p.id = id from perf_id perf)]
    dsimp only
    rw [kind]
  | @test _ d u p k unit due reach perf kind =>
    refine ⟨?_, by rw [reachUs_power reach]; exact testDue_on due⟩
    change ofUnit 255 id (timed (testDue id s) (testRelease id) s) = _
    rw [ofUnit_ok unit, due, timed_due reach, testRelease, perf, ← sendStroke_eq,
      ← setPerf_of_id (p := { p with kind := .test { k with sent := true } }) (show p.id = id from perf_id perf)]
    dsimp only
    rw [kind]

/-- A held stroke at its planned release (R59). -/
theorem HeldSent.exec_eq {s w : State} {b : Nat} {h : Held} (unit : unitOk 24 b = true) (k : HeldSent s b w h) :
    exec (.heldStrokeRelease b) s = done (if (!claimPasses w b h.perf || !swingPasses w b) = true
      then maskStroke b h.perf (h.req + pulseWidth (w.bellCfg b) h.intensity) w
      else stateCheck b h.perf h.intensity h.test h.req w) ∧ w.power.phase = .on := by
  cases k with
  | @held d u _ due reach held =>
    refine ⟨?_, show u.power.phase = .on from reached_on due reach⟩
    change ofUnit 24 b (timed (heldDue b s) (releaseHeld b) s) = _
    rw [ofUnit_ok unit, due, timed_due reach, releaseHeld, held]
    rfl

theorem HeldSent.masks {s w : State} {b : Nat} {h : Held} (unit : unitOk 24 b = true) (k : HeldSent s b w h)
    (no : claimPasses w b h.perf = false ∨ swingPasses w b = false) : exec (.heldStrokeRelease b) s =
      done (maskStroke b h.perf (h.req + pulseWidth (w.bellCfg b) h.intensity) w) := by
  rw [(k.exec_eq unit).1, if_pos]
  rcases no with no | no <;> rw [no]
  · rfl
  · exact Bool.or_true _

theorem HeldSent.checks {s w : State} {b : Nat} {h : Held} (unit : unitOk 24 b = true) (k : HeldSent s b w h)
    (yes : StrokeAllowed w b h.perf) : exec (.heldStrokeRelease b) s =
      done (stateCheck b h.perf h.intensity h.test h.req w) := by
  rw [(k.exec_eq unit).1, yes.passes.1, yes.passes.2, if_neg (by decide)]

end Sys2Proof.Machine

open Sys2Proof Sys2Proof.Machine

/-- Settles O26. -/
theorem strokesAreDriven : Obligations.StrokesAreDriven := by
  unfold Obligations.StrokesAreDriven
  refine ⟨fun c s w b id i test h unit allowed free driven => ?_, fun s w b h unit k allowed driven => ?_⟩
  · obtain ⟨e, on⟩ := h.exec_eq
    rw [(strokeRequest_allowed (s := { w with perfs := begunTable true id w }) ⟨allowed.claim, allowed.swing⟩).2.1
      ⟨free.held, free.rest⟩,
      stateCheck_driven (s := { w with perfs := begunTable true id w }) driven] at e
    exact done_reports e on (by decide)
  · have e := k.checks unit allowed
    rw [stateCheck_driven driven] at e
    exact done_reports (fresh := false) e (k.exec_eq unit).2 (by decide)

/-- Settles O27. -/
theorem swingingBellsAreLockedOut : Obligations.SwingingBellsAreLockedOut := by
  unfold Obligations.SwingingBellsAreLockedOut
  refine ⟨fun c s w b id i test h unit swings => ?_, fun s w b h unit k swings => ?_⟩
  · obtain ⟨e, on⟩ := h.exec_eq
    rw [strokeRequest_masked (s := { w with perfs := begunTable true id w }) (.inr (swinging_iff.mp swings))] at e
    exact done_masks e on
  · exact done_masks (fresh := false) (k.masks unit (.inr (swinging_iff.mp swings))) (k.exec_eq unit).2

/-- Settles O28. -/
theorem strokesAreJudged : Obligations.StrokesAreJudged := by
  unfold Obligations.StrokesAreJudged
  refine ⟨fun c s w b id i test h unit => ?_, fun s w b h unit k => ?_⟩
  · obtain ⟨e, on⟩ := h.exec_eq
    have judged := fun allowed : StrokeAllowed w b id =>
      strokeRequest_allowed (i := i) (test := test) (s := { w with perfs := begunTable true id w })
        (b := b) (id := id) ⟨allowed.claim, allowed.swing⟩
    refine ⟨fun missing => ?_, fun allowed held => ?_, fun r allowed held last early => ⟨fun far => ?_, fun near => ?_⟩,
      fun allowed free silent => ?_, fun allowed free masked => ?_⟩
    · rw [strokeRequest_masked (s := { w with perfs := begunTable true id w }) (.inl (claimMissing_iff.mp missing))] at e
      exact done_masks e on
    · rw [(judged allowed).1 held] at e
      exact done_reports e on (by decide)
    · rw [((judged allowed).2.2 r held last early).1 far] at e
      exact done_reports e on (by decide)
    · rw [((judged allowed).2.2 r held last early).2 near] at e
      exact done_reports e on (by decide)
    · rw [(judged allowed).2.1 ⟨free.held, free.rest⟩,
      stateCheck_silent (s := { w with perfs := begunTable true id w }) silent] at e
      exact done_reports e on (by decide)
    · rw [(judged allowed).2.1 ⟨free.held, free.rest⟩,
      stateCheck_masked (s := { w with perfs := begunTable true id w }) masked] at e
      exact done_masks e on
  · have on := (k.exec_eq unit).2
    refine ⟨fun missing => ?_, fun allowed silent => ?_, fun allowed masked => ?_⟩
    · exact done_masks (fresh := false) (k.masks unit (.inl (claimMissing_iff.mp missing))) on
    · have e := k.checks unit allowed
      rw [stateCheck_silent silent] at e
      exact done_reports (fresh := false) e on (by decide)
    · have e := k.checks unit allowed
      rw [stateCheck_masked masked] at e
      exact done_masks (fresh := false) e on

end

section
/-! Pulses and confirm windows (R61 to R63, R67). -/

namespace Sys2Proof.Machine

/-- An answer that reports a stroke's window and may raise one notice after it. -/
theorem done_reports_latched {o : Host.Outcome State Fault Refusal} {id : Nat} {r : Report} {w : State}
    {bells : Vector Bell 24} {c : NoticeClass} {f : List Field}
    (h : o = done (notify c f (report id r 0 { w with bells := bells }))) (on : w.power.phase = .on) (m : r ≠ .masked) :
    ∃ t, o = .next t ∧ Reported w t id r 0 false ∧
      t = { w with bells := bells, perfs := t.perfs, line := noticeLine w c f } := by
  have same : report id r 0 { w with bells := bells } =
      { w with bells := bells, perfs := (report id r 0 { w with bells := bells }).perfs } := by
    rw [report_eq, report_clock m]
  refine ⟨_, h.trans (done_on (by rw [report_eq]; exact on)), report_reported (fresh := false) (w := w), ?_⟩
  rw [same]
  rfl

theorem confirm_stray {b : Nat} {s : State}
    (h : takeFirst (fun k => decide (k.opens ≤ s.now) && decide (s.now ≤ k.closes)) (s.bell b).windows = none) :
    confirm b s = s := by
  simp only [confirm, h]

/-- A closure inside an open window, but for a test window on a bell in FAULT (R62). -/
theorem confirm_plain {b : Nat} {s : State} {k : Window} {l : List Window}
    (h : takeFirst (fun k => decide (k.opens ≤ s.now) && decide (s.now ≤ k.closes)) (s.bell b).windows = some (k, l))
    (no : (s.bell b).state ≠ .fault ∨ k.test = false) : confirm b s = report k.perf .confirmed 0
      { s with bells := wr s.bells b { s.bell b with miss := 0, windows := l } } := by
  have back : (k.test && decide ((s.bell b).state = .fault)) = false := by
    rcases no with no | no
    · rw [decide_eq_false no, Bool.and_false]
    · rw [no, Bool.false_and]
  unfold confirm
  dsimp only
  rw [h]
  dsimp only
  rw [back]
  rfl

/-- A test window confirmed on a bell in FAULT returns the bell to READY (R67). -/
theorem confirm_back {b : Nat} {s : State} {k : Window} {l : List Window}
    (h : takeFirst (fun k => decide (k.opens ≤ s.now) && decide (s.now ≤ k.closes)) (s.bell b).windows = some (k, l))
    (fault : (s.bell b).state = .fault) (test : k.test = true) :
    confirm b s = notify .bell [.num b, .word "READY", .word "TEST"] (report k.perf .confirmed 0
      { s with bells := wr s.bells b { s.bell b with state := .ready, miss := 0, windows := l.filter (·.test) } }) := by
  unfold confirm
  dsimp only
  rw [h]
  dsimp only
  rw [show (k.test && decide ((s.bell b).state = .fault)) = true by rw [test, fault]; rfl, if_pos rfl, if_pos rfl, Bell.enter_eq,
    if_neg (by rw [fault]; decide)]
  rfl

/-- A missed window on a bell in FAULT leaves the count (R67). -/
theorem missWindow_fault {b : Nat} {s : State} {k : Window} {l : List Window}
    (h : takeFirst (fun y => decide (y.closes ≤ s.now)) (s.bell b).windows = some (k, l)) (fault : (s.bell b).state = .fault) :
    missWindow b s = report k.perf .missed 0 { s with bells := wr s.bells b { s.bell b with windows := l } } := by
  unfold missWindow closingWindow
  rw [h]
  exact if_pos fault

/-- A missed window counts, below the limit (R63). -/
theorem missWindow_counts {b : Nat} {s : State} {k : Window} {l : List Window}
    (h : takeFirst (fun y => decide (y.closes ≤ s.now)) (s.bell b).windows = some (k, l)) (fault : (s.bell b).state ≠ .fault)
    (below : (s.bell b).miss + 1 < (s.bellCfg b).missLimit) : missWindow b s = report k.perf .missed 0
      { s with bells := wr s.bells b { s.bell b with windows := l, miss := (s.bell b).miss + 1 } } := by
  unfold missWindow closingWindow
  rw [h]
  exact (if_neg fault).trans (if_neg (Nat.not_le_of_lt below))

/-- A missed window at the limit takes the bell to FAULT (R63). -/
theorem missWindow_limit {b : Nat} {s : State} {k : Window} {l : List Window}
    (h : takeFirst (fun y => decide (y.closes ≤ s.now)) (s.bell b).windows = some (k, l)) (fault : (s.bell b).state ≠ .fault)
    (limit : (s.bellCfg b).missLimit ≤ (s.bell b).miss + 1) :
    missWindow b s = notify .bell [.num b, .word "FAULT", .num (s.bellCfg b).missLimit] (report k.perf .missed 0
      { s with bells := wr s.bells b { s.bell b with
        windows := l.filter (·.test), miss := (s.bellCfg b).missLimit, state := .fault } }) := by
  unfold missWindow closingWindow
  rw [h]
  refine ((if_neg fault).trans (if_pos limit)).trans ?_
  rw [Bell.enter_eq, if_neg fault]
  rfl

end Sys2Proof.Machine

open Sys2Proof Sys2Proof.Machine

/-- Settles O29. -/
theorem pulsesAndConfirmWindows : Obligations.PulsesAndConfirmWindows := by
  unfold Obligations.PulsesAndConfirmWindows
  refine ⟨fun b d s u unit due reach => ?_, fun w b s u unit e on => ⟨fun none => ?_, fun k l first => ?_⟩,
    fun b d s u k l unit due reach first => ?_⟩
  · change ofUnit 24 b (timed (pulseDue b s) (pulseEnds b) s) = _
    rw [ofUnit_ok unit, due, timed_due reach]
    exact done_on (s := pulseEnds b u) (show u.power.phase = .on from reached_on due reach)
  · change ofUnit 24 b (outside w (confirm b) s) = _
    rw [ofUnit_ok unit]
    exact outside_becomes e on (confirm_stray none)
  · have sent : exec (.confirmClosure w b) s = done (confirm b u) := by
      change ofUnit 24 b (outside w (confirm b) s) = _
      rw [ofUnit_ok unit, outside_on e on]
    by_cases plain : (u.bell b).state ≠ .fault ∨ k.test = false
    · rw [confirm_plain first plain] at sent
      obtain ⟨t, next, report, eq⟩ := done_reports (fresh := false) sent on (by decide)
      refine ⟨t, next, report, fun _ => eq, fun fault test => ?_⟩
      rcases plain with no | no
      · exact absurd fault no
      · rw [test] at no; cases no
    · obtain ⟨fault, test⟩ := not_or.mp plain
      rw [confirm_back first (not_not.mp fault) (by simpa using test)] at sent
      obtain ⟨t, next, report, eq⟩ := done_reports_latched sent on (by decide)
      exact ⟨t, next, report, fun no => absurd no plain, fun _ _ => eq⟩
  · have on : u.power.phase = .on := reached_on due reach
    have sent : exec (.confirmWindowClose b) s = done (missWindow b u) := by
      change ofUnit 24 b (timed (windowDue b s) (missWindow b) s) = _
      rw [ofUnit_ok unit, due, timed_due reach]
    by_cases fault : (u.bell b).state = .fault
    · rw [missWindow_fault first fault] at sent
      obtain ⟨t, next, report, eq⟩ := done_reports (fresh := false) sent on (by decide)
      exact ⟨t, next, report, fun _ => eq, fun no => absurd fault no, fun no => absurd fault no⟩
    · by_cases below : (u.bell b).miss + 1 < (u.bellCfg b).missLimit
      · rw [missWindow_counts first fault below] at sent
        obtain ⟨t, next, report, eq⟩ := done_reports (fresh := false) sent on (by decide)
        exact ⟨t, next, report, fun k => absurd k fault, fun _ _ => eq, fun _ k => absurd below (Nat.not_lt_of_le k)⟩
      · rw [missWindow_limit first fault (Nat.le_of_not_lt below)] at sent
        obtain ⟨t, next, report, eq⟩ := done_reports_latched sent on (by decide)
        exact ⟨t, next, report, fun k => absurd k fault, fun _ k => absurd k below, fun _ _ => eq⟩

end

section
/-! Creations: the record each makes, its admission at once, and the ends without one (R79, R83, R99, R100, R134). -/

namespace Sys2Proof.Machine

theorem clampN_eq {x lo hi : Nat} (h : lo ≤ hi) : clampN x lo hi = max lo (min hi x) := by
  simp only [clampN]; omega

theorem clampN_zero (x hi : Nat) : clampN x 0 hi = min x hi := by
  simp only [clampN, Nat.max_zero]

theorem waitOf_eq (w : Option Nat) : waitOf w = min (w.getD 0) 600 := clampN_zero _ _

/-- The tempo that PLAY's scale gives (R99). -/
theorem effectiveTempo_eq (tempo : Nat) (scale : Option Nat) : effectiveTempo tempo (scaleOf scale) =
    max 20 (min 240 (roundHalfAway (tempo * max 50 (min 200 (scale.getD 100)) : Nat) 100).toNat) := by
  rw [effectiveTempo, clampN_eq (by decide), scaleOf, clampN_eq (by decide), Nat.cast_mul]

/-! ### What a creation makes of the table -/

/-- A creation's record with its id and its request time (R79). -/
def createdRecord (p : Perf) (s : State) : Perf := { p with id := nextId s, reqAt := s.now }

/-- The table with a creation's record at its end (R78, R79). -/
def tableGrown (p : Perf) (s : State) : State := { s with lastId := nextId s, perfs := s.perfs ++ [createdRecord p s] }

theorem createPerf_full {p : Perf} {s : State} (h : 12 ≤ s.perfs.length) : createPerf p s = (s, .full) := if_pos h

/-- The three ends of a creation that has room (R79, R83, R100). -/
theorem createPerf_room {p : Perf} {s : State} (h : s.perfs.length < 12) :
    (canAdmit s p = true →
      createPerf p s = (admitPerf (createdRecord p s) (tableGrown p s), .admitted (nextId s))) ∧
    (canAdmit s p = false → 0 < p.wait → createPerf p s = (tableGrown p s, .waiting (nextId s))) ∧
    (canAdmit s p = false → p.wait = 0 → createPerf p s = ({ s with lastId := nextId s }, .yielded (nextId s))) := by
  have e : createPerf p s = if canAdmit s p then (admitPerf (createdRecord p s) (tableGrown p s), .admitted (nextId s))
      else if 0 < p.wait then (tableGrown p s, .waiting (nextId s))
      else (dropPerf (nextId s) (tableGrown p s), .yielded (nextId s)) := if_neg (Nat.not_le_of_lt h)
  have gone : dropPerf (nextId s) (tableGrown p s) = { s with lastId := nextId s } := by
    have fresh : ∀ q ∈ s.perfs, decide (q.id ≠ nextId s) = true := fun q hq => by
      have := List.find?_eq_none.mp (nextId_fresh (s := s) (by omega)).1 q hq
      simpa using this
    have kept : (s.perfs ++ [createdRecord p s]).filter (fun q => decide (q.id ≠ nextId s)) = s.perfs := by
      rw [List.filter_append, List.filter_eq_self.mpr fresh]
      simp [createdRecord]
    exact congrArg (fun l => ({ s with lastId := nextId s, perfs := l } : State)) kept
  rw [e, gone]
  exact ⟨fun k => if_pos k, fun k w => by rw [k, if_pos w]; rfl, fun k w => by rw [k, w]; rfl⟩

/-- A creation whose claims are open and which finds a voice where it needs one fits at once (R70, R81). -/
theorem canAdmit_of {p : Perf} {s : State} (k : ∀ c, p.kind = .clock c → c.carried = false)
    (c : claimsOpen s p.level p.bells = true) (v : needsVoice p.kind = true → firstFree s ≠ none) :
    canAdmit s p = true := by
  have carry : carryPasses s p.kind = true := by
    cases e : p.kind with
    | clock x => rw [carryPasses, k x e]; rfl
    | _ => rfl
  rw [canAdmit, c, carry, Bool.true_and, Bool.and_true]
  cases n : needsVoice p.kind with
  | false => rfl
  | true => exact Option.isSome_iff_ne_none.mpr (v n)

theorem admitPerf_record {p q : Perf} {s : State} (h : s.perf p.id = some q) :
    (admitPerf p s).perf p.id = some (admittedRecord p s) := by
  have same := perf_setPerf_same (p := admittedRecord p s) (q := q) h
  have e := congrArg State.perfs (admitPerf_frame p s).1
  rw [State.perf, e]
  exact same

/-- A creation admitted at once, with its whole record (R79, R83). -/
theorem createPerf_at_once {p : Perf} {s : State} (room : s.perfs.length < 12)
    (k : ∀ c, p.kind = .clock c → c.carried = false) (c : claimsOpen s p.level p.bells = true)
    (v : needsVoice p.kind = true → firstFree s ≠ none) :
    ∃ u, createPerf p s = (u, .admitted (nextId s)) ∧ u.line = s.line ∧ AdmittedAtOnce s u p.bells p.level
        (p.anchor.getD (s.now + p.lead + 100)) (if needsVoice p.kind then firstFree s else none) ∧
      u.perf (nextId s) = some (admittedRecord (createdRecord p s) s) := by
  obtain ⟨u, e, line, once⟩ := createPerf_admitted room k c v
  refine ⟨u, e, line, once, ?_⟩
  have same := ((createPerf_room room).1 (canAdmit_of k c v)).symm.trans e
  obtain ⟨rfl, -⟩ := Prod.mk.inj same
  have fresh := (nextId_fresh (s := s) (by omega)).1
  have got : (tableGrown p s).perf (nextId s) = some (createdRecord p s) := perf_append (p := createdRecord p s) fresh
  exact admitPerf_record (p := createdRecord p s) got

/-- What an admission at once does is the same whatever the line holds. -/
theorem AdmittedAtOnce.line {s u : State} {l k : Line} {bells : BellSet} {level anchor : Nat} {v : Option Nat}
    (h : AdmittedAtOnce { s with line := l } u bells level anchor v) :
    AdmittedAtOnce s { u with line := k } bells level anchor v where
  record := h.record
  others := h.others
  claims := h.claims
  taken := h.taken
  free := h.free
  kept := congrArg (fun x : State => { x with line := k }) h.kept

/-- A line's creation that is admitted at once (R99, R100, R134). -/
theorem line_creates {i : Instr} {act : State → State × Reply} {p : Perf} {s : State} (take : canTake i s = true)
    (w : i.wellFormed = true) (e : ∀ l : Line, l.mode = s.line.mode → act { s with line := l } = createFromLine p { s with line := l })
    (room : s.perfs.length < 12) (k : ∀ c, p.kind = .clock c → c.carried = false)
    (c : claimsOpen s p.level p.bells = true) (v : needsVoice p.kind = true → firstFree s ≠ none) :
    ∃ u, request i act s = .next u ∧ AdmittedAtOnce s u p.bells p.level
        (p.anchor.getD (s.now + p.lead + 100)) (if needsVoice p.kind then firstFree s else none) ∧
      u.perf (nextId s) = some (admittedRecord (createdRecord p s) s) ∧
      u.line = replyLine i s (.ok [.num (nextId s), .word "ADMITTED"]) := by
  obtain ⟨u, created, line, once, record⟩ :=
    createPerf_at_once (p := p) (s := { s with line := (arrived i s).line }) room k c v
  have acts : act (arrived i s) = (u, createdReply (.admitted (nextId s))) := by
    rw [arrived_eq, e _ (arrived_mode i s), createFromLine, created]
    rfl
  have power : u.power = s.power := by rw [once.kept]
  refine ⟨_, request_taken take w acts power, once.line, record, ?_⟩
  rw [line]
  rfl

theorem admittedRecord_of {p : Perf} {s : State} {v : Option Nat} (h : (if needsVoice p.kind then firstFree s else none) = v) :
    admittedRecord p s = { p with
      state := .admitted, order := some s.nextOrder, voice := v, anchor := some (p.anchor.getD (s.now + p.lead + 100)) } := by
  rw [← h]; rfl

theorem tollAct_creates {b interval count : Nat} {i : Intensity} {wait scene : Option Nat} {s : State}
    (unit : unitOk 24 b = true) (few : count ≤ 999) (sc : sceneOk scene = true) : tollAct b interval count i wait scene s =
      createFromLine (tollPerf s b (clampN interval 10 600) count i (waitOf wait) scene .line) s := by
  rw [tollAct, unit, sc, decide_eq_false (Nat.not_lt_of_le few)]
  exact if_neg (by decide)

/-- A RING of drives that are usable and DOWN (R134). -/
theorem ringAct_creates {ds : List Nat} {stagger duration wait : Option Nat} {s : State}
    (h : ∀ n ∈ ds, unitOk 4 n = true ∧ driveUsable s n = true ∧ (s.drive n).state = .down) :
    ringAct ds stagger duration wait s = createFromLine
      (swingPerf s ds (clampN (stagger.getD 0) 0 60) (clampN (duration.getD 0) 0 120) (waitOf wait) .line) s := by
  have units : ds.all (unitOk 4) = true := List.all_eq_true.mpr fun n hn => (h n hn).1
  have down : ds.all (fun n => decide ((s.drive n).state = .down)) = true :=
    List.all_eq_true.mpr fun n hn => decide_eq_true (h n hn).2.2
  have fit : unusable s ds = none := List.find?_eq_none.mpr fun n _ k => by
    obtain ⟨named, no⟩ := Bool.and_eq_true_iff.mp k
    rw [(h n (List.contains_iff_mem.mp named)).2.1] at no
    cases no
  rw [ringAct, units, if_neg (by decide), fit]
  dsimp only
  rw [down, if_neg (by decide)]

/-- A BELL TEST of a bell with a hammer that does not swing (R67). -/
theorem bellTestAct_creates {b : Nat} {i : Intensity} {s : State} (mode : s.line.mode = .service) (unit : unitOk 24 b = true)
    (hammer : (s.bellCfg b).hammer = true)
    (down : unitOk 4 (s.bellCfg b).drive = true → (s.drive (s.bellCfg b).drive).state = .down) :
    bellTestAct b i s = createFromLine (testPerf s b i) s := by
  have still : swingPasses s b = true := by
    rw [← Bool.not_eq_false, ← swinging_iff]
    exact fun j => j.2 (down j.1)
  unfold bellTestAct
  rw [serviceOnly_service mode, unit, if_neg (by decide), hammer, if_neg (by decide), still, if_neg (by decide)]

theorem mem_bellOne {b x : Nat} (h : x ∈ bellList (bellOne b)) : x = b := by
  obtain ⟨i, -, hi⟩ := List.mem_filterMap.mp h
  unfold bellOne at hi
  split at hi
  next range =>
    split at hi
    next bit =>
      cases hi
      rw [BitVec.getLsbD_shiftLeft] at bit
      simp at bit
      omega
    next => cases hi
  next =>
    rw [if_neg (by simp)] at hi
    cases hi

/-- The claim test of one bell at level 0 (R67, R70). -/
theorem claimsOpen_one {s : State} {b : Nat} (h : (s.bell b).claims.all (fun c => decide (0 < c.level)) = true) :
    claimsOpen s 0 (bellOne b) = true := by
  refine List.all_eq_true.mpr fun x hx => ?_
  rw [mem_bellOne hx]
  unfold claimOpen
  cases e : (s.bell b).claims with
  | nil => rfl
  | cons c l =>
    rw [e, List.all_cons] at h
    exact (Bool.and_eq_true_iff.mp h).1

/-- A toll whose claim is closed or that finds no voice does not fit (R70, R81). -/
theorem toll_unfit {b interval count wait : Nat} {i : Intensity} {scene : Option Nat} {s : State} {l : Line}
    (h : claimsOpen s s.cfg.levels.toll (bellOne b) = false ∨ firstFree s = none) :
    canAdmit { s with line := l } (tollPerf { s with line := l } b interval count i wait scene .line) = false := by
  change (claimsOpen s s.cfg.levels.toll (bellOne b) && (firstFree s).isSome && true) = false
  rcases h with h | h <;> rw [h]
  · rfl
  · rw [Option.isSome_none, Bool.and_false, Bool.false_and]

theorem toll_wait {b interval count : Nat} {i : Intensity} {wait scene : Option Nat} {s : State} :
    (tollPerf s b interval count i (waitOf wait) scene .line).wait = min (wait.getD 0) 600 := waitOf_eq wait

end Sys2Proof.Machine

open Sys2Proof Sys2Proof.Machine

/-- Settles O30. -/
theorem creationsAreAdmittedAtOnce : Obligations.CreationsAreAdmittedAtOnce := by
  unfold Obligations.CreationsAreAdmittedAtOnce
  refine ⟨fun n v scale wait scene s take unit sc closed room claims free => ?_,
    fun b interval count v i wait scene s take unit few sc room claims free => ?_,
    fun ds stagger duration wait s take ok usable room claims => ?_,
    fun b v i s take mode unit hammer down room claims free => ?_⟩
  · obtain ⟨u, next, once, record, line⟩ := line_creates (act := playAct n scale wait scene)
      (p := tunePerf s n (scaleOf scale) (waitOf wait) scene .line) take rfl (fun l _ => by
        rw [playAct, unit, sc]
        exact (if_neg (show ¬false = true by decide)).trans (if_neg (not_not_intro closed))) room nofun claims
      (fun _ => by rw [free]; nofun)
    have voice : (if needsVoice (tunePerf s n (scaleOf scale) (waitOf wait) scene .line).kind then firstFree s else none) =
      some v := free
    rw [voice] at once
    refine ⟨u, next, once, ?_, line⟩
    rw [record, ← waitOf_eq, ← effectiveTempo_eq]
    refine congrArg some ?_
    have eq := admittedRecord_of (p := createdRecord (tunePerf s n (scaleOf scale) (waitOf wait) scene .line) s) voice
    rw [eq]
    cases scene <;> rfl
  · obtain ⟨u, next, once, record, line⟩ := line_creates (act := tollAct b interval count i wait scene)
      (p := tollPerf s b (clampN interval 10 600) count i (waitOf wait) scene .line) take rfl (fun l _ =>
        tollAct_creates unit few sc) room nofun claims (fun _ => by rw [free]; nofun)
    have voice : (if needsVoice (tollPerf s b (clampN interval 10 600) count i (waitOf wait) scene .line).kind
      then firstFree s else none) = some v := free
    rw [voice] at once
    refine ⟨u, next, once, ?_, line⟩
    rw [record, ← waitOf_eq, ← clampN_eq (by decide), admittedRecord_of (p := createdRecord (tollPerf s b (clampN interval 10 600) count i (waitOf wait) scene .line) s) voice]
    rfl
  · obtain ⟨u, next, once, record, line⟩ := line_creates (act := ringAct ds stagger duration wait)
      (p := swingPerf s ds (clampN (stagger.getD 0) 0 60) (clampN (duration.getD 0) 0 120) (waitOf wait) .line) take ok
      (fun l _ => ringAct_creates usable) room nofun claims nofun
    refine ⟨u, next, once, ?_, line⟩
    rw [record, ← waitOf_eq, ← clampN_zero (stagger.getD 0), ← clampN_zero (duration.getD 0)]
    rfl
  · obtain ⟨u, next, once, record, line⟩ := line_creates (act := bellTestAct b i) (p := testPerf s b i) take rfl
      (fun l k => bellTestAct_creates (k.trans mode) unit hammer down) room nofun (claimsOpen_one claims) (fun _ => by rw [free]; nofun)
    have voice : (if needsVoice (testPerf s b i).kind then firstFree s else none) = some v := free
    rw [voice] at once
    refine ⟨u, next, once, ?_, line⟩
    rw [record, admittedRecord_of (p := createdRecord (testPerf s b i) s) voice]
    rfl

/-- Settles O31. -/
theorem creationsThatAreNotAdmitted : Obligations.CreationsThatAreNotAdmitted := by
  unfold Obligations.CreationsThatAreNotAdmitted
  refine ⟨fun s room => nextId_fresh (by omega), fun b interval count i wait scene s take unit few sc =>
    ⟨fun full => ?_, fun room closed => ⟨fun none => ?_, fun waits => ?_⟩⟩⟩
  · refine request_answers (act := tollAct b interval count i wait scene) take rfl ?_
    rw [tollAct_creates unit few sc, createFromLine, createPerf_full (by rw [arrived_eq]; exact full)]
    rfl
  · refine request_does (i := .toll b interval count i wait scene) (act := tollAct b interval count i wait scene)
      (t := { s with lastId := nextId s }) take rfl fun l _ => ?_
    rw [tollAct_creates unit few sc, createFromLine, (createPerf_room (by exact room)).2.2 (toll_unfit closed)
      (by rw [toll_wait, none]; rfl)]
    rfl
  · refine ⟨createdRecord (tollPerf s b (clampN interval 10 600) count i (waitOf wait) scene .line) s,
      request_does (i := .toll b interval count i wait scene) (act := tollAct b interval count i wait scene)
        (t := tableGrown (tollPerf s b (clampN interval 10 600) count i (waitOf wait) scene .line) s) take rfl
        fun l _ => ?_, rfl, rfl, rfl, waitOf_eq wait, rfl, rfl, rfl⟩
    rw [tollAct_creates unit few sc, createFromLine, (createPerf_room (by exact room)).2.1 (toll_unfit closed)
      (by rw [toll_wait]; omega)]
    rfl

end

section
/-! Take-ups, the ends of performances and the offer round (R74, R75, R83, R87, R88, R92, R94, R97). -/

namespace Sys2Proof.Machine

/-! ### The stable sort -/

theorem sortBy_append {α : Type} (lt : α → α → Bool) (l : List α) (a : α) :
    sortBy lt (l ++ [a]) = insertBy lt a (sortBy lt l) := by
  rw [sortBy, List.foldl_append]; rfl

theorem sortBy_perm {α : Type} (lt : α → α → Bool) (l : List α) : (sortBy lt l).Perm l := by
  induction l using List.reverseRecOn with
  | nil => exact .nil
  | append_singleton l a ih =>
    rw [sortBy_append]
    exact (insertBy_perm lt a _).trans ((ih.cons a).trans (List.perm_append_singleton a l).symm)

/-- `p` stands rightly before `q` among the elements of `w`: it is less, or `q` is not less and comes later in `w`. -/
def StablyBefore {α : Type} (lt : α → α → Bool) (w : List α) (p q : α) : Prop :=
  lt p q = true ∨ (lt q p = false ∧ [p, q].Sublist w)

theorem insertBy_stable {α : Type} {lt : α → α → Bool} (trans : ∀ a b c, lt a b = true → lt b c = true → lt a c = true)
    (cut : ∀ a b c, lt a b = true → lt a c = true ∨ lt c b = true) {w : List α} {a : α} {l : List α}
    (mem : ∀ x ∈ l, x ∈ w) (h : l.Pairwise (StablyBefore lt w)) :
    (insertBy lt a l).Pairwise (StablyBefore lt (w ++ [a])) := by
  have grown : ∀ {x y}, StablyBefore lt w x y → StablyBefore lt (w ++ [a]) x y := fun k =>
    k.imp id fun j => ⟨j.1, j.2.trans (List.sublist_append_left _ _)⟩
  induction l with
  | nil => exact List.pairwise_singleton _ _
  | cons b l ih =>
    obtain ⟨head, tail⟩ := List.pairwise_cons.mp h
    unfold insertBy
    split
    next less =>
      refine List.pairwise_cons.mpr ⟨fun y hy => .inl ?_, h.imp grown⟩
      rcases List.mem_cons.mp hy with rfl | hy
      · exact less
      · rcases head y hy with k | ⟨k, -⟩
        · exact trans a b y less k
        · exact (cut a b y less).resolve_right (by rw [k]; decide)
    next less =>
      refine List.pairwise_cons.mpr ⟨fun y hy => ?_, ih (fun x hx => mem x (List.mem_cons_of_mem _ hx)) tail⟩
      rcases mem_insertBy hy with rfl | hy
      · refine .inr ⟨Bool.not_eq_true _ ▸ less, ?_⟩
        exact (List.singleton_sublist.mpr (mem b List.mem_cons_self)).append (List.Sublist.refl [y])
      · exact grown (head y hy)

theorem sortBy_stable {α : Type} {lt : α → α → Bool} (trans : ∀ a b c, lt a b = true → lt b c = true → lt a c = true)
    (cut : ∀ a b c, lt a b = true → lt a c = true ∨ lt c b = true) (l : List α) :
    (sortBy lt l).Pairwise (StablyBefore lt l) := by
  induction l using List.reverseRecOn with
  | nil => exact List.Pairwise.nil
  | append_singleton l a ih =>
    rw [sortBy_append]
    exact insertBy_stable trans cut (fun x hx => (sortBy_perm lt l).mem_iff.mp hx) ih

/-! ### The offer round -/

theorem offeredBefore_iff (p q : Perf) : offeredBefore p q = true ↔ OfferedBefore p q := by
  unfold offeredBefore OfferedBefore
  simp only [Bool.or_eq_true, Bool.and_eq_true, decide_eq_true_eq]
  rfl

theorem offeredBefore_trans (a b c : Perf) (h : offeredBefore a b = true) (k : offeredBefore b c = true) :
    offeredBefore a c = true := by
  simp only [offeredBefore, Bool.or_eq_true, Bool.and_eq_true, decide_eq_true_eq] at *
  omega

theorem offeredBefore_cut (a b c : Perf) (h : offeredBefore a b = true) :
    offeredBefore a c = true ∨ offeredBefore c b = true := by
  simp only [offeredBefore, Bool.or_eq_true, Bool.and_eq_true, decide_eq_true_eq] at *
  omega

/-- An offer round offers every waiting performance once, in its order (R74). -/
theorem offerRound_offered (s : State) : Offered s (offerRound s) := by
  refine ⟨sortBy offeredBefore (s.perfs.filter fun p => p.state = .waiting), sortBy_perm _ _, ?_, rfl⟩
  refine (sortBy_stable offeredBefore_trans offeredBefore_cut _).imp fun {p q} h => ?_
  rcases h with h | ⟨h, k⟩
  · exact .inl ((offeredBefore_iff p q).mp h)
  · exact .inr ⟨fun j => absurd ((offeredBefore_iff q p).mpr j) (by rw [h]; decide), k⟩

/-! ### An admission -/

/-- An admission's state once the voice is taken (R83). -/
def admittedVoiced (p : Perf) (s : State) : State :=
  match (admittedRecord p s).voice with
  | some v => takeVoice v p.id p.slot (admittedUnvoiced p s)
  | none => admittedUnvoiced p s

/-- Of an admission only a carried hour's slot comes after its voice (R83, R113). -/
theorem admitPerf_voiced (p : Perf) (s : State) :
    admitPerf p s = { admittedVoiced p s with clock := (admitPerf p s).clock } := by
  have e : admitPerf p s = match p.kind with
      | .clock c => if c.carried then { admittedVoiced p s with clock := writeLate c.date c.slot (admittedVoiced p s).clock }
        else admittedVoiced p s
      | _ => admittedVoiced p s := rfl
  rw [e]
  split
  · split <;> rfl
  · rfl

theorem admittedVoiced_eq (p : Perf) (s : State) : admittedVoiced p s = { admittedUnvoiced p s with
    voices := (admittedVoiced p s).voices, store := (admittedVoiced p s).store } := by
  unfold admittedVoiced
  split
  · exact takeVoice_eq _ _ _ _
  · rfl

theorem admitPerf_bell {p : Perf} {s : State} {b : Nat} (h : unitOk 24 b = true) :
    (admitPerf p s).bell b = { s.bell b with
      claims := (if bellIn p.bells b = true then [{ perf := p.id, level := p.level, order := s.nextOrder }] else []) ++
        (s.bell b).claims } := by
  rw [← bell_admittedUnvoiced h, admitPerf_voiced, admittedVoiced_eq]
  rfl

theorem admitPerf_other {p : Perf} {s : State} {k : Nat} (h : k ≠ p.id) : (admitPerf p s).perf k = s.perf k := by
  rw [State.perf, congrArg State.perfs (admitPerf_frame p s).1]
  exact perf_setPerf_ne (p := admittedRecord p s) h

theorem admitPerf_order (p : Perf) (s : State) : (admitPerf p s).nextOrder = s.nextOrder + 1 := by
  rw [admitPerf_voiced, admittedVoiced_eq, admittedUnvoiced_eq]

/-- The voice that an admission takes, and the others (R81). -/
theorem admitPerf_voice {p : Perf} {s : State} {w : Nat} (h : unitOk 4 w = true) :
    ((admittedRecord p s).voice = some w → ((admitPerf p s).voice w).perf = some p.id) ∧
      ((admittedRecord p s).voice ≠ some w → (admitPerf p s).voice w = s.voice w) := by
  have unvoiced : (admittedUnvoiced p s).voice w = s.voice w := by rw [admittedUnvoiced_eq]; rfl
  rw [admitPerf_voiced]
  change (_ → ((admittedVoiced p s).voice w).perf = _) ∧ (_ → (admittedVoiced p s).voice w = _)
  unfold admittedVoiced
  split
  next v e =>
    refine ⟨fun k => ?_, fun k => ?_⟩
    · rw [e] at k
      cases k
      exact voice_takeVoice h
    · rw [voice_takeVoice_ne h fun j => k (by rw [e, j]), unvoiced]
  next e => exact ⟨fun k => absurd (e.symm.trans k) nofun, fun _ => unvoiced⟩

/-! ### The end of a performance -/

/-- Nothing of performance `id` stands: no record, no claim, no voice (R92). -/
structure Gone (id : Nat) (s : State) : Prop where
  record : s.perf id = none
  claims : ∀ b, unitOk 24 b = true → ∀ c ∈ (s.bell b).claims, c.perf ≠ id
  voices : ∀ v, unitOk 4 v = true → (s.voice v).perf ≠ some id

/-- From `s` to `t` admissions have left what stands of performance `id`: its record, its claims, the held strokes, its
voice (R83). -/
structure Spared (id : Nat) (s t : State) : Prop where
  record : t.perf id = s.perf id
  claims : ∀ b, unitOk 24 b = true → ∀ c ∈ (t.bell b).claims, c.perf = id → c ∈ (s.bell b).claims
  held : ∀ b, unitOk 24 b = true → (t.bell b).held = (s.bell b).held
  voices : ∀ v, unitOk 4 v = true → (t.voice v).perf = some id → (s.voice v).perf = some id

theorem Spared.rfl {id : Nat} {s : State} : Spared id s s :=
  ⟨Eq.refl _, fun _ _ _ h _ => h, fun _ _ => Eq.refl _, fun _ _ h => h⟩

theorem Spared.trans {id : Nat} {s t u : State} (h : Spared id s t) (k : Spared id t u) : Spared id s u where
  record := k.record.trans h.record
  claims b hb c hc e := h.claims b hb c (k.claims b hb c hc e) e
  held b hb := (k.held b hb).trans (h.held b hb)
  voices v hv e := h.voices v hv (k.voices v hv e)

theorem Gone.spared {id : Nat} {s t : State} (h : Gone id s) (k : Spared id s t) : Gone id t where
  record := k.record.trans h.record
  claims b hb c hc e := h.claims b hb c (k.claims b hb c hc e) e
  voices v hv e := h.voices v hv (k.voices v hv e)

theorem admitPerf_spared {id : Nat} {p : Perf} (ne : p.id ≠ id) (s : State) : Spared id s (admitPerf p s) where
  record := admitPerf_other ne.symm
  claims b hb c hc e := by
    rw [admitPerf_bell hb] at hc
    rcases List.mem_append.mp hc with hc | hc
    · split at hc
      · rw [List.mem_singleton.mp hc] at e; exact absurd e ne
      · cases hc
    · exact hc
  held b hb := by rw [admitPerf_bell hb]
  voices v hv e := by
    by_cases k : (admittedRecord p s).voice = some v
    · rw [(admitPerf_voice hv).1 k] at e
      exact absurd (Option.some.inj e) ne
    · rw [(admitPerf_voice hv).2 k] at e
      exact e

/-- An offer round spares a performance that does not wait (R74). -/
theorem offerRound_spared {id : Nat} {s : State} (h : ∀ p, s.perf id = some p → p.state ≠ .waiting) :
    Spared id s (offerRound s) := by
  unfold offerRound
  generalize (sortBy offeredBefore (s.perfs.filter fun p => p.state = .waiting)).map (·.id) = l
  induction l generalizing s with
  | nil => exact Spared.rfl
  | cons k l ih =>
    have one : Spared id s (offerTo s k) := by
      unfold offerTo
      split
      next p e =>
        split
        next w =>
          refine admitPerf_spared (fun j => ?_) s
          have pk : p.id = k := perf_id e
          rw [← pk, j] at e
          exact h p e (of_decide_eq_true (Bool.and_eq_true_iff.mp w).1)
        next => exact Spared.rfl
      next => exact Spared.rfl
    exact one.trans (ih fun p hp => h p (one.record ▸ hp))

/-- A performance closed: its claims and its voice taken back, its scene withdrawn, its record gone with its notice (R92). -/
theorem closePerf_eq {id : Nat} {o : PerfOutcome} {s : State} {p : Perf} (h : s.perf id = some p) :
    closePerf id o s = { s with
      bells := s.bells.map fun x => { x with claims := x.claims.filter fun k => k.perf ≠ id }
      voices := s.voices.map fun x => if x.perf = some id then freeVoice else x
      perfs := s.perfs.filter fun q => q.id ≠ id
      lights := (closePerf id o s).lights
      line := s.line.latched .perf (leavingFields p o) } := by
  have lit := (leaveScene_lights id (releaseVoice id (removeClaims id s))).2.2
  have got : (leaveScene id (releaseVoice id (removeClaims id s))).perf id = some p := by rw [lit]; exact h
  have e : closePerf id o s = dropPerf id (notify .perf (leavingFields p o)
      (leaveScene id (releaseVoice id (removeClaims id s)))) := by
    rw [closePerf, leave, got]
  rw [e, lit]
  rfl

theorem closePerf_gone {id : Nat} {o : PerfOutcome} {s : State} {p : Perf} (h : s.perf id = some p) :
    Gone id (closePerf id o s) := by
  rw [closePerf_eq h]
  refine { record := perf_dropPerf_same (s := s), claims := fun b hb c hc => ?_, voices := fun v hv => ?_ }
  · have e : (State.bell _ b).claims = _ := congrArg Bell.claims (bell_removeClaims (id := id) (s := s) hb)
    simp only [State.bell, removeClaims] at e
    simp only [State.bell] at hc
    rw [e] at hc
    simpa using (List.mem_filter.mp hc).2
  · simp only [State.voice]
    rw [rd_map (d := freeVoice) hv]
    split
    · exact nofun
    · assumption

theorem expiryDue_on {id d : Nat} {s : State} (h : expiryDue id s = some d) : s.power.phase = .on := by
  unfold expiryDue at h
  split at h
  · cases h
  · exact dueMs_on h

theorem cutDue_on {id d : Nat} {s : State} (h : cutDue id s = some d) : s.power.phase = .on := by
  unfold cutDue at h
  split at h
  · cases h
  · exact dueMs_on h

/-- A performance whose end is due stands in the table. -/
theorem endDue_some {id d : Nat} {s : State} (h : endDue id s = some d) :
    s.power.phase = .on ∧ ∃ p, s.perf id = some p := by
  unfold endDue at h
  split at h
  next p e => exact ⟨dueMs_on h, p, e⟩
  next => cases h

theorem takeUpDue_on {v d : Nat} {s : State} (h : takeUpDue v s = some d) : s.power.phase = .on := by
  unfold takeUpDue at h
  split at h
  · cases h
  · split at h
    · cases h
    · exact dueMs_on h

theorem reachUs_perf {d : Nat} {s u : State} (h : reachUs d s = some u) (id : Nat) : u.perf id = s.perf id := by
  rcases reachUs_eq h with rfl | ⟨j, rfl⟩ <;> rfl

/-- A record that leaves, with its notice (R94). -/
theorem leave_done {id : Nat} {o : PerfOutcome} {s : State} {p : Perf} (h : s.perf id = some p) (on : s.power.phase = .on) :
    done (leave id o s) = .next { s with
      perfs := s.perfs.filter fun q => q.id ≠ id, line := noticeLine s .perf (leavingFields p o) } := by
  rw [leave, h]
  exact done_on on

theorem performanceEnd_eq {id : Nat} {s : State} {p : Perf} (h : s.perf id = some p) :
    performanceEnd id s = offerRound (closePerf id (endOutcome p) s) := by
  rw [performanceEnd, h]

/-! ### Fitting -/

theorem fits_iff (s : State) (p : Perf) : Fits s p ↔ canAdmit s p = true := by
  have voice : (needsVoice p.kind = true → (firstFree s).isSome = true) ↔ ((∀ w, p.kind ≠ .swing w) → firstFree s ≠ none) := by
    rw [Option.isSome_iff_ne_none]
    cases p.kind <;> simp [needsVoice]
  have carry : carryPasses s p.kind = true ↔ ∀ c, p.kind = .clock c → c.carried = true → masterInStep s = true := by
    cases p.kind with
    | clock c =>
      rw [carryPasses, Bool.or_eq_true, Bool.not_eq_true']
      refine ⟨fun h x e k => ?_, fun h => ?_⟩
      · cases e
        exact h.resolve_left (by rw [k]; decide)
      · cases k : c.carried with
        | false => exact .inl rfl
        | true => exact .inr (h c rfl k)
    | _ => exact ⟨fun _ _ e => (by cases e), fun _ => rfl⟩
  have need : (!needsVoice p.kind || (firstFree s).isSome) = true ↔ (needsVoice p.kind = true → (firstFree s).isSome = true) := by
    cases needsVoice p.kind <;> simp
  rw [Fits, canAdmit, Bool.and_eq_true, Bool.and_eq_true, carry, need, voice, and_assoc]

theorem offerTo_fits {s : State} {q : Perf} (h : s.perf q.id = some q) (w : q.state = .waiting) (k : Fits s q) :
    offerTo s q.id = admitPerf q s := by
  rw [offerTo, h]
  exact if_pos (by rw [(fits_iff s q).mp k, w]; rfl)

theorem offerTo_unfit {s : State} {q : Perf} (h : s.perf q.id = some q) (k : ¬Fits s q) : offerTo s q.id = s := by
  rw [offerTo, h]
  exact if_neg fun j => k ((fits_iff s q).mpr (Bool.and_eq_true_iff.mp j).2)

/-! ### Take-ups -/

theorem movePage_eq {v slot page : Nat} {s : State} (unit : unitOk 4 v = true) : ∃ cur nxt,
    movePage v slot page s = { s with
      voices := wr s.voices v { s.voice v with current := cur, next := nxt }, store := (movePage v slot page s).store } := by
  unfold movePage
  split
  · dsimp only
    rw [fetchPage_eq]
    exact ⟨_, _, rfl⟩
  · refine ⟨(s.voice v).current, (s.voice v).next, ?_⟩
    have same : wr s.voices v (s.voice v) = s.voices := wr_rd unit
    exact congrArg (fun x => ({ s with voices := x } : State)) same.symm

/-- The voice's record once an event is taken up, before it turns its page (R87). -/
def takenVoice (v : Nat) (e : TimeEvent) (s : State) : Voice :=
  { s.voice v with
    idx := (s.voice v).idx + 1, cum := e.cum, stall := none
    strokes := (s.voice v).strokes ++ strokesOf s e (s.voice v).idx }

/-- An event taken up: its strokes wait with the voice, and the voice may turn its page (R82, R87). -/
theorem takeUp_eq {v : Nat} {p : Perf} {e : TimeEvent} {s : State} (unit : unitOk 4 v = true) : ∃ x : Voice,
    x.idx = (s.voice v).idx + 1 ∧ x.cum = e.cum ∧ x.perf = (s.voice v).perf ∧
    x.strokes = (s.voice v).strokes ++ strokesOf s e (s.voice v).idx ∧ x.stall = none ∧ x.moves = (s.voice v).moves ∧
    takeUp v p e s = { s with voices := wr s.voices v x, store := (takeUp v p e s).store } := by
  unfold takeUp
  dsimp only
  split
  next k slot _ _ =>
    split
    · obtain ⟨cur, nxt, moved⟩ := movePage_eq (v := v) (slot := slot) (page := k) 
        (s := setVoice v (takenVoice v e s) s) unit
      rw [voice_setVoice unit] at moved
      refine ⟨{ takenVoice v e s with current := cur, next := nxt }, rfl, rfl, rfl, rfl, rfl, rfl, moved.trans ?_⟩
      exact congrArg (fun x => ({ s with voices := x, store := _ } : State)) wr_wr
    · exact ⟨takenVoice v e s, rfl, rfl, rfl, rfl, rfl, rfl, rfl⟩
  next => exact ⟨takenVoice v e s, rfl, rfl, rfl, rfl, rfl, rfl, rfl⟩

/-- What closing a performance leaves. -/
theorem closePerf_kept {id : Nat} {o : PerfOutcome} {s : State} {p : Perf} (h : s.perf id = some p) :
    (closePerf id o s).cfg = s.cfg ∧ (closePerf id o s).tb = s.tb ∧ (closePerf id o s).dials = s.dials ∧
      (closePerf id o s).drives = s.drives ∧ (closePerf id o s).sched = s.sched ∧ (closePerf id o s).power = s.power := by
  rw [closePerf_eq h]
  exact ⟨rfl, rfl, rfl, rfl, rfl, rfl⟩

end Sys2Proof.Machine

open Sys2Proof Sys2Proof.Machine

/-- Settles O33. -/
theorem eventsAreTakenUp : Obligations.EventsAreTakenUp := by
  unfold Obligations.EventsAreTakenUp
  intro v d s u p e unit due reach perf next
  have on : u.power.phase = .on := by rw [reachUs_power reach]; exact takeUpDue_on due
  have sent : exec (.eventTakeUp v) s = done (eventTakeUp v u) := by
    change ofUnit 4 v (timed (takeUpDue v s) (eventTakeUp v) s) = _
    rw [ofUnit_ok unit, due, timed_due reach]
  have acts : eventTakeUp v u = if (u.voice v).hasPage e.page then takeUp v p e u
      else setVoice v { u.voice v with stall := some (takeUpAt p e) } u := by
    rw [eventTakeUp, perf]
    dsimp only
    rw [next]
  refine ⟨fun page => ?_, fun page => ?_⟩
  · rw [page] at acts
    obtain ⟨x, idx, cum, perf, strokes, -, -, k⟩ := takeUp_eq (p := p) (e := e) (s := u) unit
    have voice : (State.voice { u with voices := wr u.voices v x, store := (takeUp v p e u).store, line := u.line.pumped }) v = x :=
      rd_wr_same unit
    refine ⟨{ u with voices := wr u.voices v x, store := (takeUp v p e u).store, line := u.line.pumped },
      sent.trans ?_, ?_⟩
    · rw [acts, if_pos rfl, k]
      exact done_on on
    · rw [voice]
      exact ⟨idx, cum, perf, strokes, rfl⟩
  · rw [page] at acts
    rw [sent, acts]
    exact done_on on

/-- Settles O34. -/
theorem performancesLeaveTheTable : Obligations.PerformancesLeaveTheTable := by
  unfold Obligations.PerformancesLeaveTheTable
  refine ⟨fun id d s u p unit due reach perf => ?_, fun id d s u p unit due reach perf => ?_,
    fun id d s u unit due reach => ?_⟩
  · change ofUnit 255 id (timed (expiryDue id s) (leave id .expired) s) = _
    rw [ofUnit_ok unit, due, timed_due reach]
    exact leave_done perf (by rw [reachUs_power reach]; exact expiryDue_on due)
  · change ofUnit 255 id (timed (cutDue id s) (leave id .cut) s) = _
    rw [ofUnit_ok unit, due, timed_due reach]
    exact leave_done perf (by rw [reachUs_power reach]; exact cutDue_on due)
  · obtain ⟨on, p, perf⟩ := endDue_some due
    have perf : u.perf id = some p := by rw [reachUs_perf reach]; exact perf
    have closed := closePerf_gone (o := endOutcome p) perf
    have gone := closed.spared (offerRound_spared fun q hq => by rw [closed.record] at hq; cases hq)
    have frame := (offerRound_frame (closePerf id (endOutcome p) u)).1
    obtain ⟨cfg, tb, dials, drives, sched, power⟩ := closePerf_kept (o := endOutcome p) perf
    have sent : exec (.performanceEnd id) s = done (offerRound (closePerf id (endOutcome p) u)) := by
      change ofUnit 255 id (timed (endDue id s) (performanceEnd id) s) = _
      rw [ofUnit_ok unit, due, timed_due reach, performanceEnd_eq perf]
    refine ⟨_, sent.trans (done_on ?_), gone.record, gone.claims, gone.voices, ?_⟩
    · rw [frame]; exact (congrArg Power.phase (power.trans (reachUs_power reach))).trans on
    · rw [frame]; exact ⟨cfg, tb, dials, drives, sched⟩

/-- Settles O35. -/
theorem waitingPerformancesAreOffered : Obligations.WaitingPerformancesAreOffered := by
  unfold Obligations.WaitingPerformancesAreOffered
  refine ⟨fun id d s u p unit due reach perf => ?_, fun s q perf waiting => ⟨offerTo_unfit perf, fun fits => ?_⟩⟩
  · have sent : exec (.performanceEnd id) s = done (offerRound (closePerf id (endOutcome p) u)) := by
      change ofUnit 255 id (timed (endDue id s) (performanceEnd id) s) = _
      rw [ofUnit_ok unit, due, timed_due reach, performanceEnd_eq perf]
    refine ⟨closePerf id (endOutcome p) u, _, closePerf_eq perf, offerRound_offered _, sent.trans (done_on ?_)⟩
    rw [(offerRound_frame _).1, closePerf_eq perf]
    exact (congrArg Power.phase (reachUs_power reach)).trans (endDue_some due).1
  · rw [offerTo_fits perf waiting fits]
    refine ⟨?_, fun id ne => admitPerf_other ne, admitPerf_order q s, fun b hb => admitPerf_bell hb, fun v kind free => ?_,
      (admitPerf_frame q s).1.trans (by rw [congrArg State.perfs (admitPerf_frame q s).1])⟩
    · rw [admitPerf_record perf, admittedRecord]
      cases q.kind <;> rfl
    · have need : needsVoice q.kind = true := by
        cases e : q.kind with
        | swing w => exact absurd e (kind w)
        | _ => rfl
      exact (admitPerf_voice (firstFree_ok free)).1 (by rw [admittedRecord, need]; exact free)

end

section
/-! FINISH and CUT of one performance (R96, R97, R130). -/

namespace Sys2Proof.Machine

/-! ### Waiting records -/

theorem leave_line {id : Nat} {o : PerfOutcome} {s : State} {p : Perf} (h : s.perf id = some p) :
    leave id o s = { s with perfs := s.perfs.filter fun q => q.id ≠ id, line := s.line.latched .perf (leavingFields p o) } := by
  rw [leave, h]
  rfl

theorem finishPerf_waiting {id : Nat} {s : State} {p : Perf} (h : s.perf id = some p) (w : p.state = .waiting) :
    finishPerf id s = leave id .stopped s := by
  unfold finishPerf
  rw [h]
  dsimp only
  rw [w]

theorem cutAll_one (id : Nat) (s : State) :
    cutAll [id] s = if (cutPerf id s).2 then offerRound (cutPerf id s).1 else (cutPerf id s).1 := by
  change (if (false || (cutPerf id s).2) = true then offerRound (cutPerf id s).1 else (cutPerf id s).1) = _
  rw [Bool.false_or]

theorem cutAll_waiting {id : Nat} {s : State} {p : Perf} (h : s.perf id = some p) (w : p.state = .waiting) :
    cutAll [id] s = leave id .stopped s := by
  have e : cutPerf id s = (leave id .stopped s, false) := by
    unfold cutPerf
    rw [h]
    exact if_pos w
  rw [cutAll_one, e]
  rfl

/-- A reply that tells what has become of a record which has left. -/
theorem stopReply_gone {id : Nat} {s : State} (h : s.perf id = none) :
    stopReply id s = (s, .ok [.num id, .word "REMOVED"]) := by
  rw [stopReply, h]

theorem stopReply_stands {id : Nat} {s : State} {p : Perf} (h : s.perf id = some p) :
    stopReply id s = (s, .ok [.num id, .word (perfStateName p.state)]) := by
  rw [stopReply, h]

theorem stopFinishAct_of {id : Nat} {s : State} {p : Perf} (unit : unitOk 255 id = true) (h : s.perf id = some p) :
    stopFinishAct id s = stopReply id (finishPerf id s) := by
  rw [stopFinishAct, unit, if_neg (by decide), h]
  rfl

theorem stopCutAct_of {id : Nat} {s : State} {p : Perf} (unit : unitOk 255 id = true) (h : s.perf id = some p) :
    stopCutAct id s = stopReply id (cutAll [id] s) := by
  rw [stopCutAct, unit, if_neg (by decide), h]
  rfl

/-! ### The stop point -/

/-- The first event that may be the stop point (R96). -/
theorem stopPointOf_none {s : State} {p : Perf} {n : Nat} (h : p.voice = some n) (no : ∀ k, ¬Stops s p (s.voice n) k) :
    stopPointOf s p = none := by
  unfold stopPointOf
  rw [h]
  refine Option.map_eq_none_iff.mpr (List.find?_eq_none.mpr fun x hx k => ?_)
  obtain ⟨late, phrase⟩ := Bool.and_eq_true_iff.mp k
  exact no x.2 ⟨x.1, List.mem_zipIdx_iff_getElem?.mp hx, phrase, of_decide_eq_true late⟩

theorem stopPointOf_some {s : State} {p : Perf} {n k : Nat} (h : p.voice = some n) (stops : Stops s p (s.voice n) k)
    (first : ∀ j, j < k → ¬Stops s p (s.voice n) j) : stopPointOf s p = some k := by
  obtain ⟨e, at_, phrase, late⟩ := stops
  obtain ⟨in_range, got⟩ := List.getElem?_eq_some_iff.mp at_
  unfold stopPointOf
  rw [h]
  refine Option.map_eq_some_iff.mpr ⟨(e, k), List.find?_eq_some_iff_getElem.mpr ⟨?_, k, ?_, ?_, fun j hj => ?_⟩, rfl⟩
  · exact Bool.and_eq_true_iff.mpr ⟨decide_eq_true late, phrase⟩
  · rw [List.length_zipIdx]; exact in_range
  · rw [List.getElem_zipIdx, got, Nat.zero_add]
  · rw [List.getElem_zipIdx, Bool.not_eq_true', Bool.eq_false_iff]
    intro k'
    obtain ⟨late', phrase'⟩ := Bool.and_eq_true_iff.mp k'
    refine first j hj ⟨_, ?_, phrase', ?_⟩
    · exact List.getElem?_eq_getElem _
    · simpa using of_decide_eq_true late'

/-! ### FINISH by kind -/

/-- A performance that takes FINISH: admitted, or running (R96). -/
def Finishes (p : Perf) : Prop := p.state = .admitted ∨ p.state = .running

/-- The record of a performance that has taken FINISH (R96). -/
def finished (p : Perf) (k : PerfKind) (stop : Option Nat) : Perf :=
  { p with state := .stopping, stop := .finish, kind := k, stopPoint := stop }

theorem finishPerf_toll {id : Nat} {s : State} {p : Perf} {t : TollParams} (h : s.perf id = some p) (f : Finishes p)
    (k : p.kind = .toll t) : finishPerf id s = setPerf (finished p (.toll { t with limit := some (match t.limit with
      | some n => min n (t.sent + 1) | none => t.sent + 1) }) p.stopPoint) s := by
  unfold finishPerf
  rw [h]
  dsimp only
  rcases f with f | f <;> rw [f, k] <;> rfl

theorem finishPerf_test {id : Nat} {s : State} {p : Perf} {t : TestParams} (h : s.perf id = some p) (f : Finishes p)
    (k : p.kind = .test t) : finishPerf id s = setPerf (finished p p.kind p.stopPoint) s := by
  unfold finishPerf
  rw [h]
  dsimp only
  rcases f with f | f <;> rw [f, k] <;> rfl

theorem finishPerf_swing {id : Nat} {s : State} {p : Perf} {w : SwingParams} (h : s.perf id = some p) (f : Finishes p)
    (k : p.kind = .swing w) :
    finishPerf id s = finishDrives id w (setPerf (finished p (.swing w.stopped) p.stopPoint) s) := by
  unfold finishPerf
  rw [h]
  dsimp only
  rcases f with f | f <;> rw [f, k] <;> rfl

/-- FINISH of a TUNE or CLOCK fixes the stop point and discards the strokes of later events (R96). -/
theorem finishPerf_tune {id : Nat} {s : State} {p : Perf} (h : s.perf id = some p) (f : Finishes p)
    (k : p.kind = .tune ∨ ∃ c, p.kind = .clock c) : ∃ voices,
      finishPerf id s = { setPerf (finished p p.kind (stopPointOf s p)) s with voices := voices } ∧
      (stopPointOf s p = none → voices = s.voices) ∧
      (∀ i n, stopPointOf s p = some i → p.voice = some n → voices = wr s.voices n ((s.voice n).cutAfter i)) := by
  have e : finishPerf id s = match stopPointOf s p, p.voice with
      | some i, some v => setVoice v ((s.voice v).cutAfter i) (setPerf (finished p p.kind (stopPointOf s p)) s)
      | _, _ => setPerf (finished p p.kind (stopPointOf s p)) s := by
    unfold finishPerf
    rw [h]
    dsimp only
    split
    next w => exact absurd f (by rw [Finishes, w]; decide)
    next w => exact absurd f (by rw [Finishes, w]; decide)
    all_goals
      split
      next => rfl
      next => rfl
      all_goals
        next w => rw [w] at k; exact absurd k (by simp)
  rw [e]
  split
  next i v point voice => exact ⟨_, rfl, fun no => (by rw [no] at point; cases point), fun j n a b => by
    cases point.symm.trans a
    cases voice.symm.trans b
    rfl⟩
  next no => exact ⟨s.voices, rfl, fun _ => rfl, fun j n a b => absurd b (no j n a)⟩

/-! ### CUT of a SWING -/

theorem cutDrives_eq (id : Nat) (w : SwingParams) (s : State) :
    cutDrives id w s = { s with drives := (cutDrives id w s).drives } := by
  unfold cutDrives
  generalize w.startedDrives = l
  induction l generalizing s with
  | nil => rfl
  | cons n l ih =>
    have one : cutDrive id s n = { s with drives := (cutDrive id s n).drives } := by
      unfold cutDrive
      dsimp only
      split
      · rfl
      · split <;> rfl
    rw [List.foldl_cons, ih]
    rw [one]

theorem cutPerf_swing {id : Nat} {s : State} {p : Perf} {w : SwingParams} (h : s.perf id = some p) (k : p.kind = .swing w)
    (waits : p.state ≠ .waiting) (stop : p.stop ≠ .cut) : cutPerf id s =
      (cutDrives id w (setPerf { p with state := .stopping, stop := .cut, kind := .swing w.stopped } s), false) := by
  unfold cutPerf
  rw [h]
  dsimp only
  rw [if_neg waits, if_neg stop, k]
  rfl

/-! ### CUT of a voiced performance -/

theorem VoicedCut.taken {s t : State} {p : Perf} (h : VoicedCut s t p) : CutTaken s t p where
  claims b hb c hc := by
    rw [h.bells b hb] at hc
    simpa using (List.mem_filter.mp hc).2
  held b x hb hx e := by
    rw [h.bells b hb] at hx
    dsimp only at hx
    split at hx
    · cases hx
    next no => exact no (by rw [hx, ← e]; rfl)
  voices v hv e := by
    rw [h.voices v hv] at e
    split at e
    · cases e
    · contradiction
  gone d := (h.gone d).1
  stays d := by
    obtain ⟨-, q, hq, same⟩ := h.stays d
    exact ⟨q, hq, same.state, same.stop, same.voice, same.stopPoint, same.drivenEnd⟩

theorem CutTaken.spared {s t u : State} {p : Perf} (h : CutTaken s t p) (k : Spared p.id t u) : CutTaken s u p where
  claims b hb c hc e := h.claims b hb c (k.claims b hb c hc e) e
  held b x hb hx := h.held b x hb (by rw [← k.held b hb]; exact hx)
  voices v hv e := h.voices v hv (k.voices v hv e)
  gone d := k.record.trans (h.gone d)
  stays d := by
    obtain ⟨q, hq, rest⟩ := h.stays d
    exact ⟨q, k.record.trans hq, rest⟩

/-- After its cut a performance does not wait. -/
theorem CutTaken.not_waiting {s t : State} {p q : Perf} (h : CutTaken s t p) (e : t.perf p.id = some q) :
    q.state ≠ .waiting := by
  by_cases d : p.drivenEnd ≤ s.now
  · rw [h.gone d] at e; cases e
  · obtain ⟨r, hr, st, -⟩ := h.stays (Nat.lt_of_not_le d)
    cases hr.symm.trans e
    rw [st]
    decide

/-- The whole CUT of a voiced performance: its cut, then the offer round (R92, R97). -/
theorem cutAll_voiced {s : State} {p : Perf} (h : s.perf p.id = some p) (v : ∀ w, p.kind ≠ .swing w)
    (waits : p.state ≠ .waiting) (stop : p.stop ≠ .cut) : CutTaken s (cutAll [p.id] s) p ∧
      (cutAll [p.id] s).cfg = s.cfg ∧ (cutAll [p.id] s).tb = s.tb ∧ (cutAll [p.id] s).dials = s.dials ∧
      (cutAll [p.id] s).drives = s.drives ∧ (cutAll [p.id] s).sched = s.sched ∧ (cutAll [p.id] s).power = s.power := by
  have cut := cutVoiced_cut h
  have e : cutAll [p.id] s = offerRound (cutVoiced p.id s) := by
    rw [cutAll_one, cutPerf_voiced h v waits stop, if_pos rfl]
  obtain ⟨l, kept⟩ := cut.kept
  rw [e]
  refine ⟨cut.taken.spared (offerRound_spared fun q hq => cut.taken.not_waiting hq), ?_⟩
  rw [(offerRound_frame _).1, kept]
  exact ⟨rfl, rfl, rfl, rfl, rfl, rfl⟩

/-! ### The requests -/

/-- A STOP FINISH that leaves its record STOPPING (R96). -/
theorem finish_does {id : Nat} {s : State} {p q : Perf} {voices : Vector Voice 4} {drives : Vector Drive 4}
    (take : canTake (.stopFinish id) s = true) (unit : unitOk 255 id = true) (h : s.perf id = some p)
    (st : q.state = .stopping) (hq : q.id = id)
    (e : finishPerf id { s with line := (arrived (.stopFinish id) s).line } =
      { setPerf q s with voices := voices, drives := drives, line := (arrived (.stopFinish id) s).line }) :
    ∃ u, exec (.stopFinish id) s = .next u ∧ u.perf id = some q ∧ u.voices = voices ∧ u.drives = drives ∧
      u = { s with
        perfs := s.perfs.map fun x => if x.id = id then q else x, voices := u.voices, drives := u.drives
        line := replyLine (.stopFinish id) s (.ok [.num id, .word "STOPPING"]) } := by
  have got : (setPerf q s).perf id = some q := by
    rw [← hq]
    exact perf_setPerf_same (by rw [hq]; exact h)
  rw [setPerf_of_id hq] at e got
  refine ⟨_, request_writes (i := .stopFinish id) (act := stopFinishAct id) (t := { s with
    perfs := s.perfs.map fun x => if x.id = id then q else x, voices := voices, drives := drives }) take rfl ?_ rfl,
    got, rfl, rfl, rfl⟩
  rw [arrived_eq, stopFinishAct_of unit (s := { s with line := (arrived (.stopFinish id) s).line }) h, e]
  refine (stopReply_stands (p := q) (by exact got)).trans ?_
  rw [st]
  rfl

theorem Finishes.ne {p : Perf} (h : Finishes p) : p.state ≠ .waiting ∧ p.state ≠ .stopping := by
  rcases h with h | h <;> rw [h] <;> decide

end Sys2Proof.Machine

open Sys2Proof Sys2Proof.Machine

/-- Settles O32. -/
theorem stopFinishAndCut : Obligations.StopFinishAndCut := by
  unfold Obligations.StopFinishAndCut
  refine ⟨fun id s p unit h w => ⟨fun take => ?_, fun take => ?_⟩, fun id s p unit h take => ⟨fun st => ?_, fun f => ?_⟩,
    fun id s p unit h waits take => ⟨fun cut => ?_, fun stop voiced => ?_, fun stop x kind ok => ?_⟩⟩
  · refine request_notifies (i := .stopFinish id) (act := stopFinishAct id) (t := { s with
      perfs := s.perfs.filter fun q => q.id ≠ id }) take rfl fun l _ => ?_
    rw [stopFinishAct_of (s := { s with line := l }) unit h, finishPerf_waiting (s := { s with line := l }) h w,
      leave_line (s := { s with line := l }) h]
    exact stopReply_gone (perf_dropPerf_same (s := s))
  · refine request_notifies (i := .stopCut id) (act := stopCutAct id) (t := { s with
      perfs := s.perfs.filter fun q => q.id ≠ id }) take rfl fun l _ => ?_
    rw [stopCutAct_of (s := { s with line := l }) unit h, cutAll_waiting (s := { s with line := l }) h w,
      leave_line (s := { s with line := l }) h]
    exact stopReply_gone (perf_dropPerf_same (s := s))
  · refine request_answers (i := .stopFinish id) (act := stopFinishAct id) take rfl ?_
    have h' : (arrived (.stopFinish id) s).perf id = some p := by rw [arrived_eq]; exact h
    have stands : finishPerf id (arrived (.stopFinish id) s) = arrived (.stopFinish id) s := by
      unfold finishPerf
      rw [h']
      dsimp only
      rw [st]
    rw [stopFinishAct_of unit h', stands, stopReply_stands h', st]
    rfl
  · have hid : p.id = id := perf_id h
    by_cases tuned : p.kind = .tune ∨ ∃ k, p.kind = .clock k
    · obtain ⟨V, e, none, some⟩ := finishPerf_tune (s := { s with line := (arrived (.stopFinish id) s).line }) h f tuned
      obtain ⟨u, next, got, voices, drives, kept⟩ := finish_does (q := finished p p.kind (stopPointOf s p)) take unit h rfl hid e
      refine ⟨u, _, next, got, rfl, fun j k => ?_, fun j k => ?_, fun _ => ⟨rfl, drives, fun n voice ok => ⟨fun no => ?_,
        fun k stops first => ?_⟩⟩, fun j k => ?_, kept⟩
      · rw [k] at tuned; exact absurd tuned (by simp)
      · rw [k] at tuned; exact absurd tuned (by simp)
      · have point := stopPointOf_none voice no
        exact ⟨point, voices.trans (none point)⟩
      · have point := stopPointOf_some voice stops first
        exact ⟨point, voices.trans (some k n point voice)⟩
      · rw [k] at tuned; exact absurd tuned (by simp)
    · cases kind : p.kind with
      | toll k =>
        obtain ⟨u, next, got, voices, drives, kept⟩ := finish_does (q := finished p _ p.stopPoint) take unit h rfl hid
          (finishPerf_toll (s := { s with line := _ }) h f kind)
        exact ⟨u, _, next, got, rfl, fun j e => by cases e; exact ⟨rfl, voices, drives, rfl⟩, nofun,
          fun e => absurd e (by simp), nofun, kept⟩
      | test k =>
        obtain ⟨u, next, got, voices, drives, kept⟩ := finish_does (q := finished p p.kind p.stopPoint) take unit h rfl hid
          (finishPerf_test (s := { s with line := _ }) h f kind)
        exact ⟨u, _, next, got, rfl, nofun, fun _ _ => ⟨kind, rfl, voices, drives⟩, fun e => absurd e (by simp), nofun, kept⟩
      | swing k =>
        obtain ⟨u, next, got, voices, drives, kept⟩ := finish_does (q := finished p (.swing k.stopped) p.stopPoint) take unit h
          rfl hid ((finishPerf_swing (s := { s with line := (arrived (.stopFinish id) s).line }) h f kind).trans
            (finishDrives_others _ _ _).2.2)
        refine ⟨u, _, next, got, rfl, nofun, nofun, fun e => absurd e (by simp), fun w e ok => ?_, kept⟩
        cases e
        obtain ⟨lowered, others, -⟩ := finishDrives_lowered (id := id) (s := setPerf (finished p (.swing k.stopped) p.stopPoint)
          { s with line := (arrived (.stopFinish id) s).line }) ok
        have drive : ∀ n, u.drive n = _ := fun n => congrArg (fun v => rd v n startDrive) drives
        exact ⟨rfl, rfl, voices, fun i n hi => (drive n).trans (lowered i n hi), fun n hn no => (drive n).trans (others n hn no)⟩
      | tune => exact absurd (.inl kind) tuned
      | clock k => exact absurd (.inr ⟨k, kind⟩) tuned
  · refine request_answers (i := .stopCut id) (act := stopCutAct id) take rfl ?_
    have h' : (arrived (.stopCut id) s).perf id = some p := by rw [arrived_eq]; exact h
    have hid : p.id = id := perf_id h
    subst hid
    rw [stopCutAct_of unit h', cutAll_one, cutPerf_again h' waits cut, if_neg Bool.false_ne_true, stopReply_stands h']
  · have hid : p.id = id := perf_id h
    subst hid
    obtain ⟨taken, cfg, tb, dials, drives, sched, power⟩ := cutAll_voiced
      (s := { s with line := (arrived (.stopCut p.id) s).line }) h voiced waits stop
    have act : stopCutAct p.id (arrived (.stopCut p.id) s) =
        stopReply p.id (cutAll [p.id] { s with line := (arrived (.stopCut p.id) s).line }) := by
      rw [arrived_eq]
      exact stopCutAct_of (s := { s with line := (arrived (.stopCut p.id) s).line }) unit h
    exact ⟨_, request_taken (i := .stopCut p.id) (act := stopCutAct p.id) take rfl act power,
      { taken with }, cfg, tb, dials, drives, sched⟩
  · have hid : p.id = id := perf_id h
    subst hid
    have cut := cutPerf_swing (s := { s with line := (arrived (.stopCut p.id) s).line }) h kind waits stop
    have same : (setPerf { p with state := .stopping, stop := .cut, kind := .swing x.stopped } s).perf p.id = _ :=
      perf_setPerf_same (p := { p with state := .stopping, stop := .cut, kind := .swing x.stopped }) h
    have all := cutAll_one p.id { s with line := (arrived (.stopCut p.id) s).line }
    rw [cut, if_neg Bool.false_ne_true] at all
    replace all := all.trans <| cutDrives_eq p.id x (setPerf { p with state := .stopping, stop := .cut, kind := .swing x.stopped }
        { s with line := (arrived (.stopCut p.id) s).line })
    have dealt := cutDrives_cut (id := p.id) (s := setPerf { p with state := .stopping, stop := .cut, kind := .swing x.stopped }
      { s with line := (arrived (.stopCut p.id) s).line }) ok
    refine ⟨_, _, request_writes (i := .stopCut p.id) (act := stopCutAct p.id)
      (t := { setPerf { p with state := .stopping, stop := .cut, kind := .swing x.stopped } s with
        drives := (cutDrives p.id x (setPerf { p with state := .stopping, stop := .cut, kind := .swing x.stopped }
          { s with line := (arrived (.stopCut p.id) s).line })).drives }) take rfl ?_ rfl, rfl,
      ⟨dealt.swings, dealt.lowers, dealt.others⟩, rfl⟩
    rw [arrived_eq, stopCutAct_of unit (s := { s with line := (arrived (.stopCut p.id) s).line }) h, all]
    exact stopReply_stands (p := { p with state := .stopping, stop := .cut, kind := .swing x.stopped }) same

end

section
/-! Swinging: starts, timers, faults and pulses (R125 to R135). -/

namespace Sys2Proof.Machine

/-- An event that is due at an instant and leaves a known state there. -/
theorem timed_becomes {due : Option Nat} {d : Nat} {body : State → State} {s u t : State} (h : due = some d)
    (reach : reachUs d s = some u) (on : u.power.phase = .on) (k : body u = t) (p : t.power = u.power := by rfl) :
    timed due body s = .next { t with line := t.line.pumped } := by
  subst k
  rw [h, timed_due reach, done_on (p.symm ▸ on)]

/-- A taken, well-formed request that only answers, whatever the line. -/
theorem request_only {i : Instr} {act : State → State × Reply} {s : State} {r : Reply} (take : canTake i s = true)
    (w : i.wellFormed = true) (run : exec i s = request i act s)
    (e : ∀ l : Line, l.mode = s.line.mode → act { s with line := l } = ({ s with line := l }, r)) : AnsweredOnly i s r :=
  run.trans (request_does take w e)

/-! ### Handing back -/

theorem perf_of_perfs {s t : State} (h : t.perfs = s.perfs) (id : Nat) : t.perf id = s.perf id := by
  rw [State.perf, h]; rfl

theorem driveDone_same {id n : Nat} {s : State} {p : Perf} (h : s.perf id = some p) :
    (driveDone id n s).perf id = some { p with kind := p.kind.withDone n } := by
  have e : p.id = id := perf_id h
  subst e
  rw [driveDone, h]
  exact perf_setPerf_same (p := { p with kind := p.kind.withDone n }) h

theorem driveDone_gone {id n : Nat} {s : State} (h : s.perf id = none) : driveDone id n s = s := by
  rw [driveDone, h]

theorem driveDone_ne {id n j : Nat} {s : State} (h : j ≠ id) : (driveDone id n s).perf j = s.perf j := by
  unfold driveDone
  split
  next p e =>
    exact perf_setPerf_ne (p := { p with kind := p.kind.withDone n }) (show j ≠ p.id from (perf_id e).symm ▸ h)
  next => rfl

theorem driveDone_eq (id n : Nat) (s : State) : driveDone id n s = { s with perfs := (driveDone id n s).perfs } := by
  unfold driveDone
  split <;> rfl

theorem handBack_some {n id : Nat} {s : State} (h : (s.drive n).perf = some id) :
    handBack n s = driveDone id n (setDrive n { s.drive n with perf := none } s) := by
  rw [handBack, h]

theorem handBack_none {n : Nat} {s : State} (h : (s.drive n).perf = none) : handBack n s = s := by
  rw [handBack, h]

/-- A drive that is handed back is marked done in the performance that it swung for (R135). -/
theorem handBack_handed {n : Nat} {s u : State} (d : (u.drive n).perf = (s.drive n).perf) (p : u.perfs = s.perfs) :
    HandedBack s (handBack n u) n := by
  have read : ∀ id, (setDrive n { u.drive n with perf := none } u).perf id = s.perf id := perf_of_perfs p
  refine ⟨fun id q h k => ?_, fun id h k => ?_, fun h => ?_, fun j h => ?_⟩
  · rw [handBack_some (d.trans h), driveDone_same ((read id).trans k)]
    rfl
  · rw [handBack_some (d.trans h), driveDone_gone ((read id).trans k)]
    exact p
  · rw [handBack_none (d.trans h)]
    exact p
  · cases e : (s.drive n).perf with
    | none =>
      rw [handBack_none (d.trans e)]
      exact perf_of_perfs p j
    | some id =>
      rw [handBack_some (d.trans e), driveDone_ne fun k => h (e.trans (congrArg some k.symm))]
      exact read j

/-- A drive's new record, which is then handed back. -/
theorem handBack_set {n : Nat} {x : Drive} {u v : State} (h : unitOk 4 n = true) (d : v.drives = wr u.drives n x) :
    handBack n v = { v with drives := wr u.drives n { x with perf := none }, perfs := (handBack n v).perfs } := by
  have e : v.drive n = x := by rw [State.drive, d]; exact rd_wr_same h
  refine (handBack_eq h).trans ?_
  rw [e, d, wr_wr]

/-- An event that writes a drive's record and hands the drive back (R135). -/
theorem timed_hands {due : Option Nat} {d n : Nat} {body : State → State} {s u v : State} {x : Drive}
    (unit : unitOk 4 n = true) (h : due = some d) (reach : reachUs d s = some u) (on : u.power.phase = .on)
    (k : body u = handBack n v) (w : v.drives = wr u.drives n x) (b : x.perf = (u.drive n).perf := by rfl)
    (q : v.perfs = u.perfs := by rfl) (p : v.power = u.power := by rfl) :
    ∃ t, ofUnit 4 n (timed due body s) = .next t ∧ HandedBack u t n ∧
      t = { v with drives := wr u.drives n { x with perf := none }, perfs := t.perfs, line := v.line.pumped } := by
  have e : v.drive n = x := by rw [State.drive, w]; exact rd_wr_same unit
  have handed : HandedBack u (handBack n v) n := handBack_handed (s := u) ((congrArg Drive.perf e).trans b) q
  exact ⟨_, (ofUnit_ok unit).trans (timed_becomes h reach on (k.trans (handBack_set unit w)) p), ⟨handed.done, handed.gone,
    handed.none, handed.others⟩, rfl⟩

/-! ### Starts -/

/-- The record of a SWING whose next start has been made. -/
def startMade (p : Perf) (w : SwingParams) (n : Nat) : Perf :=
  { p with
    kind := .swing { w with drives := w.drives.map fun x => if x.drive = n then { x with started := true } else x }
    state := if p.state = .admitted then .running else p.state }

theorem driveStart_eq {id j : Nat} {s : State} {p : Perf} {w : SwingParams} {x : SwingStart} (h : s.perf id = some p)
    (k : p.kind = .swing w) (c : w.coming.head? = some (x, j)) :
    driveStart id s = startDriveNow id x.drive w.duration (setPerf (startMade p w x.drive) s) := by
  unfold driveStart
  rw [h]
  dsimp only
  rw [k]
  dsimp only
  rw [c]
  rfl

theorem startDriveNow_down {id n duration : Nat} {s : State} (h : (s.drive n).state = .down ∨ (s.drive n).state = .settling) :
    startDriveNow id n duration s = enterRaising n id duration s := by
  unfold startDriveNow
  rcases h with h | h <;> rw [h]

theorem startDriveNow_up {id n duration : Nat} {s : State} (h : (s.drive n).state = .fault ∨ (s.drive n).state = .raising ∨
    (s.drive n).state = .ringing ∨ (s.drive n).state = .lowering) : startDriveNow id n duration s = driveDone id n s := by
  unfold startDriveNow
  rcases h with h | h | h | h <;> rw [h]

theorem startDue_on {id d : Nat} {s : State} (h : startDue id s = some d) : s.power.phase = .on := by
  unfold startDue at h
  split at h
  · cases h
  · split at h
    · split at h
      · cases h
      · exact dueMs_on h
    · cases h

/-- The drives of a start that was made, the drive done at once or not (R80, R130). -/
theorem started_drives (l : List SwingStart) (n : Nat) :
    (l.map fun x => if x.drive = n then { x with started := true } else x) =
      l.map fun y => if y.drive = n then { y with started := true, done := y.done || false } else y := by
  refine List.map_congr_left fun y _ => ?_
  rw [Bool.or_false]

theorem started_done_drives (l : List SwingStart) (n : Nat) :
    ((l.map fun x => if x.drive = n then { x with started := true } else x).map fun d =>
      if d.drive = n then { d with done := true } else d) =
      l.map fun y => if y.drive = n then { y with started := true, done := y.done || true } else y := by
  rw [List.map_map]
  refine List.map_congr_left fun y _ => ?_
  rw [Bool.or_true, Function.comp]
  split
  · rfl
  · rfl

/-! ### Pulses -/

/-- The record of a drive that a bottom pulse has timed and counted (R125). -/
def Drive.timed (x y : Drive) (now : Nat) : Drive :=
  { y with
    half := match x.lastBottom with
      | some t => some (now - t)
      | none => x.half
    lastBottom := some now, swings := min (x.swings + 1) 65535, flag := false }

/-- A bottom pulse whose judgement leaves `y` as the drive's record, the timing fields untouched. -/
theorem markBottom_set {n : Nat} {y : Drive} {u v : State} {l : Line} (h : unitOk 4 n = true)
    (e : v = { u with drives := wr u.drives n y, line := l }) (half : y.half = (u.drive n).half)
    (last : y.lastBottom = (u.drive n).lastBottom) (swings : y.swings = (u.drive n).swings) :
    markBottom n v = { u with drives := wr u.drives n ((u.drive n).timed y u.now), line := l } := by
  subst e
  have d : State.drive { u with drives := wr u.drives n y, line := l } n = y := rd_wr_same h
  unfold markBottom
  dsimp only
  rw [d, last, half, swings]
  simp only [setDrive, wr_wr]
  rfl

theorem kickMotor_set {n : Nat} (h : unitOk 4 n = true) (x : Drive) (u : State) : kickMotor n (setDrive n x u) =
    setDrive n { x with motor := some (u.now + (u.driveCfg n).half * 25) } u := by
  rw [kickMotor, drive_setDrive h, setDrive_setDrive]
  rfl

theorem kickBrake_set {n : Nat} (h : unitOk 4 n = true) (x : Drive) (u : State) : kickBrake n (setDrive n x u) =
    setDrive n { x with brakeOut := some (u.now + (u.driveCfg n).half * 25) } u := by
  rw [kickBrake, drive_setDrive h, setDrive_setDrive]
  rfl

theorem enterRinging_set {n : Nat} (h : unitOk 4 n = true) (x : Drive) (u : State) : enterRinging n (setDrive n x u) =
    notify .swing [.num n, .word "RINGING"] (setDrive n { x with state := .ringing, entry := u.now, motor := none } u) := by
  rw [enterRinging, drive_setDrive h, setDrive_setDrive]
  rfl

theorem enterSettling_set {n : Nat} (h : unitOk 4 n = true) (x : Drive) (u : State) : enterSettling n (setDrive n x u) =
    notify .swing [.num n, .word "SETTLING"] (setDrive n { x with
      state := .settling, entry := u.now, motor := none, brakeOut := none, brake := false, lowerAt := none } u) := by
  rw [enterSettling, drive_setDrive h, setDrive_setDrive]
  rfl

theorem judgeSwing_stands {n : Nat} {u : State} (h : (u.drive n).state = .settling ∨ (u.drive n).state = .fault ∨
    ((u.drive n).state = .ringing ∧ (u.drive n).flag = true)) : judgeSwing n u = u := by
  unfold judgeSwing
  dsimp only
  rcases h with h | h | ⟨h, f⟩
  · rw [h]
  · rw [h]
  · rw [h]
    exact if_pos f

/-- In RAISING the first pulse gives a kick, the others are judged by the flag (R128). -/
theorem judgeSwing_raising {n : Nat} {u : State} (h : unitOk 4 n = true) (st : (u.drive n).state = .raising) :
    judgeSwing n u = if (u.drive n).seen = false then
        setDrive n { u.drive n with seen := true, motor := some (u.now + (u.driveCfg n).half * 25) } u
      else if (u.drive n).flag = true ∧ (u.drive n).run = 3 then
        notify .swing [.num n, .word "RINGING"]
          (setDrive n { u.drive n with run := 4, state := .ringing, entry := u.now, motor := none } u)
      else setDrive n { u.drive n with
        run := if (u.drive n).flag = true then (u.drive n).run + 1 else 0
        motor := some (u.now + (u.driveCfg n).half * 25) } u := by
  unfold judgeSwing
  dsimp only
  rw [st]
  dsimp only
  rw [kickMotor_set h, kickMotor_set h, enterRinging_set h]
  cases (u.drive n).seen with
  | false => rfl
  | true =>
    by_cases f : (u.drive n).flag = true
    · by_cases r : (u.drive n).run = 3
      · simp [f, r]
      · simp [f, r]
    · simp [f]

theorem judgeSwing_ringing {n : Nat} {u : State} (st : (u.drive n).state = .ringing) (f : (u.drive n).flag = false) :
    judgeSwing n u = kickMotor n u := by
  unfold judgeSwing
  dsimp only
  rw [st]
  exact if_neg (by rw [f]; decide)

/-- In LOWERING four clear swings in a row take the drive to SETTLING; else the brake is kicked where it is chosen and
fitted (R131). -/
theorem judgeSwing_lowering {n : Nat} {u : State} (h : unitOk 4 n = true) (st : (u.drive n).state = .lowering) :
    judgeSwing n u = if (u.drive n).flag = false ∧ (u.drive n).run = 3 then
        notify .swing [.num n, .word "SETTLING"] (setDrive n { u.drive n with
          run := 4, state := .settling, entry := u.now, motor := none, brakeOut := none, brake := false, lowerAt := none } u)
      else setDrive n { u.drive n with
        run := if (u.drive n).flag = true then 0 else (u.drive n).run + 1
        brakeOut := if (u.drive n).brake = true ∧ (u.driveCfg n).brake = true then
          some (u.now + (u.driveCfg n).half * 25) else (u.drive n).brakeOut } u := by
  unfold judgeSwing
  dsimp only
  rw [st]
  dsimp only
  rw [kickBrake_set h, enterSettling_set h]
  have fitted : ∀ x, (setDrive n x u).driveCfg n = u.driveCfg n := fun _ => rfl
  have brakes : ∀ (x : Drive) (p c : Bool) (k : Option Nat), (if (p && c) = true then
      setDrive n { x with brakeOut := k } u else setDrive n x u) =
      setDrive n { x with brakeOut := if p = true ∧ c = true then k else x.brakeOut } u := by
    intro x p c k
    cases p <;> cases c <;> rfl
  rw [fitted, brakes]
  cases f : (u.drive n).flag with
  | true => rfl
  | false =>
    by_cases r : (u.drive n).run = 3
    · simp [r]
    · simp [r]

/-- A bottom pulse whose judgement gives the drive record `y`. -/
theorem bottomPulse_becomes {w n : Nat} {s u : State} {y : Drive} {l : Line} (h : unitOk 4 n = true)
    (e : elapse w s = some u) (on : u.power.phase = .on)
    (k : judgeSwing n u = { u with drives := wr u.drives n y, line := l }) (half : y.half = (u.drive n).half := by rfl)
    (last : y.lastBottom = (u.drive n).lastBottom := by rfl) (swings : y.swings = (u.drive n).swings := by rfl) :
    exec (.bottomPulse w n) s =
      .next { u with drives := wr u.drives n ((u.drive n).timed y u.now), line := l.pumped } :=
  (ofUnit_ok h).trans (outside_becomes (body := bottomPulse n) e on
    (t := { u with drives := wr u.drives n ((u.drive n).timed y u.now), line := l }) (markBottom_set h k half last swings))

theorem drives_same {n : Nat} {u : State} (h : unitOk 4 n = true) :
    u = { u with drives := wr u.drives n (u.drive n), line := u.line } := by
  rw [State.drive, wr_rd h]

end Sys2Proof.Machine

open Sys2Proof Sys2Proof.Machine

/-- Settles O41. -/
theorem swingStartsTimersAndFaults : Obligations.SwingStartsTimersAndFaults := by
  unfold Obligations.SwingStartsTimersAndFaults
  refine ⟨fun id d j s u p w x idOk due reach rec kind coming unit => ?_, fun n d s u unit due reach => ?_,
    fun n d s u unit due reach => ?_, fun n d s u unit due reach => ?_, fun n d s u unit due reach => ?_,
    fun n d s u unit reach => ?_, fun n s unit take => ?_⟩
  · have on : u.power.phase = .on := (reachUs_power reach).symm ▸ startDue_on due
    have pid : p.id = id := perf_id rec
    have same : (setPerf (startMade p w x.drive) u).perf id = some (startMade p w x.drive) := by
      subst pid
      exact perf_setPerf_same (p := startMade p w x.drive) rec
    have other : ∀ k, k ≠ id → (setPerf (startMade p w x.drive) u).perf k = u.perf k := fun k h =>
      perf_setPerf_ne (p := startMade p w x.drive) (show k ≠ p.id from pid.symm ▸ h)
    have run : ∀ t : State, startDriveNow id x.drive w.duration (setPerf (startMade p w x.drive) u) = t →
        t.power = u.power → exec (.driveStart id) s = .next { t with line := t.line.pumped } := fun t k q =>
      (ofUnit_ok idOk).trans (timed_becomes due reach on ((driveStart_eq rec kind coming).trans k) q)
    by_cases down : (u.drive x.drive).state = .down ∨ (u.drive x.drive).state = .settling
    · refine ⟨_, run _ (startDriveNow_down down) rfl, fun _ => ⟨⟨_, same, ?_, other⟩, rfl⟩, fun up => ?_⟩
      · rw [startMade, started_drives]
      · rcases down with down | down <;> rw [down] at up <;> simp at up
    · have up : (u.drive x.drive).state = .fault ∨ (u.drive x.drive).state = .raising ∨
          (u.drive x.drive).state = .ringing ∨ (u.drive x.drive).state = .lowering := by
        cases k : (u.drive x.drive).state <;> simp_all
      refine ⟨_, run _ (startDriveNow_up up) ?_, fun h => absurd h down, fun _ => ⟨⟨_, driveDone_same same, ?_, ?_⟩, ?_⟩⟩
      · rw [driveDone_eq]
        rfl
      · simp only [startMade, PerfKind.withDone]
        rw [started_done_drives]
      · exact fun k h => (driveDone_ne h).trans (other k h)
      · rw [driveDone_eq]
        rfl
  · exact (ofUnit_ok unit).trans (timed_becomes due reach (reached_on due reach) rfl)
  · exact (ofUnit_ok unit).trans (timed_becomes due reach (reached_on due reach) rfl)
  · exact (ofUnit_ok unit).trans (timed_becomes due reach (reached_on due reach) rfl)
  · exact timed_hands (body := enterDown n) unit due reach (reached_on due reach) rfl
      (v := setDrive n { u.drive n with state := .down, entry := u.now, motor := none, brakeOut := none } u)
      (x := { u.drive n with state := .down, entry := u.now, motor := none, brakeOut := none }) rfl
  · have faulted : ∀ (cause : SwingCause) (due : Option Nat), due = some d → u.power.phase = .on →
        ∃ t, ofUnit 4 n (timed due (enterFault n cause) s) = .next t ∧ HandedBack u t n ∧ t = { u with
          drives := wr u.drives n { u.drive n with
            state := .fault, cause := cause, entry := u.now, motor := none, brakeOut := none, lowerAt := none
            brake := false, perf := none }
          perfs := t.perfs, line := noticeLine u .swing [.num n, .word "FAULT", .word (swingCauseName cause)] } :=
      fun cause due h on => timed_hands (body := enterFault n cause) unit h reach on rfl (x := { u.drive n with
        state := .fault, cause := cause, entry := u.now, motor := none, brakeOut := none, lowerAt := none
        brake := false }) rfl
    exact ⟨fun due => faulted _ _ due (reached_on due reach), fun due => faulted _ _ due (reached_on due reach),
      fun due => faulted _ _ due (reached_on due reach)⟩
  · have ok : (!unitOk 4 n) = false := by rw [unit]; rfl
    have stillIff : bellStill s n = true ↔
        ∀ t, (s.drive n).lastBottom = some t → t + 1000 * (s.driveCfg n).settle ≤ s.now := by
      unfold bellStill
      cases (s.drive n).lastBottom with
      | none => simp
      | some t => simp
    refine ⟨fun st => request_only (act := swingClearAct n) take rfl rfl fun l _ => ?_, fun st no => request_only (act := swingClearAct n) take rfl rfl fun l _ => ?_,
      fun st still => request_notifies (act := swingClearAct n)
        (t := setDrive n { s.drive n with state := .down, cause := .none, entry := s.now } s) take rfl fun l _ => ?_⟩
    · exact (if_neg (by rw [ok]; decide)).trans (if_pos st)
    · have k : (!bellStill s n) = true := by
        cases b : bellStill s n with
        | true => exact absurd (stillIff.mp b) no
        | false => rfl
      exact (if_neg (by rw [ok]; decide)).trans ((if_neg (not_not_intro st)).trans (if_pos k))
    · have k : ¬(!bellStill s n) = true := by rw [stillIff.mpr still]; decide
      exact (if_neg (by rw [ok]; decide)).trans ((if_neg (not_not_intro st)).trans (if_neg k))

/-- Settles O42. -/
theorem swingPulses : Obligations.SwingPulses := by
  unfold Obligations.SwingPulses
  refine ⟨fun w n s u unit e on => ?_, fun w n s u unit e on => ⟨fun st => ?_, fun nd nf => ?_⟩⟩
  · have stands := fun h => bottomPulse_becomes unit e on ((judgeSwing_stands (n := n) (u := u) h).trans (drives_same unit))
    refine ⟨fun st => ?_, fun st => stands (by rcases st with st | st; exacts [.inl st, .inr (.inl st)]),
      fun st => ⟨fun seen => ?_, fun seen f => ?_, fun seen f r => ?_, fun seen f r => ?_⟩,
      fun st => ⟨fun f => stands (.inr (.inr ⟨st, f⟩)), fun f => ?_⟩, fun st => ⟨fun f => ?_, fun f r => ?_, fun f r => ?_⟩⟩
    · refine bottomPulse_becomes unit e on (y := { u.drive n with state := .settling, entry := u.now }) ?_
      unfold judgeSwing
      dsimp only
      rw [st]
      rfl
    · exact bottomPulse_becomes unit e on ((judgeSwing_raising unit st).trans (if_pos seen))
    · refine bottomPulse_becomes unit e on
        (y := { u.drive n with run := 0, motor := some (u.now + (u.driveCfg n).half * 25) }) ?_
      rw [judgeSwing_raising unit st, seen, f]
      rfl
    · refine bottomPulse_becomes unit e on
        (y := { u.drive n with run := (u.drive n).run + 1, motor := some (u.now + (u.driveCfg n).half * 25) }) ?_
      rw [judgeSwing_raising unit st, if_neg (by rw [seen]; decide), if_neg fun k => r k.2, if_pos f]
      rfl
    · exact bottomPulse_becomes unit e on
        ((judgeSwing_raising unit st).trans ((if_neg (by rw [seen]; decide)).trans (if_pos ⟨f, r⟩)))
    · exact bottomPulse_becomes unit e on (judgeSwing_ringing st f)
    · refine bottomPulse_becomes unit e on ((judgeSwing_lowering unit st).trans ((if_neg ?_).trans ?_))
      · rw [f]
        exact fun k => absurd k.1 (by decide)
      · rw [if_pos f]
        rfl
    · refine bottomPulse_becomes unit e on ((judgeSwing_lowering unit st).trans ((if_neg fun k => r k.2).trans ?_))
      rw [if_neg (c := (u.drive n).flag = true) (by rw [f]; decide)]
      rfl
    · exact bottomPulse_becomes unit e on ((judgeSwing_lowering unit st).trans (if_pos ⟨f, r⟩))
  · exact (ofUnit_ok unit).trans (outside_becomes e on (if_pos st))
  · exact (ofUnit_ok unit).trans (outside_becomes (body := amplitudePulse n) e on
      (t := setDrive n { u.drive n with flag := true } u) (if_neg (not_or.mpr ⟨nd, nf⟩)))

end

section
/-! Settings and scenes (R121, R123, R172 to R174, R194). -/

namespace Sys2Proof.Machine

/-- The levels that a SCENE WRITE gives (R173). -/
theorem rd_levels {ps : List (Nat × Nat)} {n : Nat} (u : unitOk 16 n = true) (v : Vector (Option Nat) 16)
    (nd : (ps.map Prod.fst).Nodup) :
    (∀ l, (n, l) ∈ ps → rd (ps.foldl (fun v p => wr v p.1 (some (clampN p.2 0 4095))) v) n none = some (min l 4095)) ∧
    ((∀ l, (n, l) ∉ ps) → rd (ps.foldl (fun v p => wr v p.1 (some (clampN p.2 0 4095))) v) n none = rd v n none) := by
  induction ps generalizing v with
  | nil => exact ⟨fun l h => absurd h List.not_mem_nil, fun _ => rfl⟩
  | cons p ps ih =>
    obtain ⟨fresh, nd⟩ := List.nodup_cons.mp nd
    obtain ⟨named, other⟩ := ih (wr v p.1 (some (clampN p.2 0 4095))) nd
    refine ⟨fun l h => ?_, fun h => ?_⟩
    · rcases List.mem_cons.mp h with e | h
      · subst e
        refine (other fun m k => fresh (List.mem_map.mpr ⟨_, k, rfl⟩)).trans ?_
        rw [rd_wr_same u, clampN_zero]
      · exact named l h
    · refine (other fun l k => h l (List.mem_cons_of_mem _ k)).trans (rd_wr_ne (unitOk_iff.mp u).1 fun e => ?_)
      exact h p.2 (e ▸ List.mem_cons_self)

theorem nodup_sound {α : Type} [DecidableEq α] {l : List α} (h : nodup l = true) : l.Nodup := by
  induction l with
  | nil => exact List.nodup_nil
  | cons a l ih =>
    simp only [nodup, Bool.and_eq_true, Bool.not_eq_true', List.contains_eq_mem, decide_eq_false_iff_not] at h
    exact List.nodup_cons.mpr ⟨h.1, ih h.2⟩

/-- A change of channels rests on nothing of the configuration or the line. -/
theorem onChans_frame (f : Nat → Channel → Channel) (ns : List Nat) (s : State) (c : Settings) (l : Line) :
    onChans f ns { s with cfg := c, line := l } = { onChans f ns s with cfg := c, line := l } := by
  induction ns generalizing s with
  | nil => rfl
  | cons n ns ih => exact ih (setChan n (f n (s.chan n)) s)

theorem wholeBase_frame (b : Vector (Option (Nat × Nat)) 16) (s : State) (c : Settings) (l : Line) :
    wholeBase b { s with cfg := c, line := l } = { wholeBase b s with cfg := c, line := l } := by
  unfold wholeBase
  exact onChans_frame _ allChans s c l

theorem applyFallback_site (s : State) (c : SiteCfg) (l : Line) :
    applyFallback { s with cfg := { s.cfg with site := c }, line := l } =
      { wholeBase (sceneBase (if s.lights.dusk = .dark then s.scene c.fallback else darkScene)) s with
        cfg := { s.cfg with site := c }, line := l } := by
  unfold applyFallback
  exact wholeBase_frame _ s _ l

theorem wholeBase_lights (b : Vector (Option (Nat × Nat)) 16) (s : State) : wholeBase b s = { s with lights := { s.lights with
    chans := (wholeBase b s).lights.chans, conv := (wholeBase b s).lights.conv } } := onChans_lights _ _ s

theorem wholeBase_written (b : Vector (Option (Nat × Nat)) 16) (s : State) (c : Settings) (l : Line) :
    { wholeBase b s with cfg := c, line := l } = { s with
      cfg := c, line := l
      lights := { s.lights with chans := (wholeBase b s).lights.chans, conv := (wholeBase b s).lights.conv } } := by
  generalize e : wholeBase b s = t
  have frame := wholeBase_lights b s
  rw [e] at frame
  rw [frame]

theorem SceneLaid.written {s t : State} {sc : Scene} (h : SceneLaid s t sc) (c : Settings) (l : Line) :
    SceneLaid s { t with cfg := c, line := l } sc :=
  ⟨h.chans, h.conv.congr (fun _ _ => Iff.rfl) rfl rfl rfl rfl⟩

theorem lightSiteAct_unset {c : SiteCfg} {s : State} (mode : s.line.mode = .service) (ok : siteOk c = true)
    (unset : s.tb.set = false) :
    lightSiteAct c s = (applyFallback { s with cfg := { s.cfg with site := clampSite c } }, .ok []) := by
  rw [lightSiteAct, serviceOnly_service mode, if_pos ok]
  dsimp only
  rw [unset, if_neg (by decide)]

/-- A measurement that a new setting of its channel spoils (R182). -/
theorem spoil_setChan {n : Nat} {x : Channel} {s : State} : spoil n (setChan n x s) = { s with lights := { s.lights with
    chans := wr s.lights.chans n x
    conv := s.lights.conv.map fun m => if m.channel = some n then { m with spoiled := true } else m } } := by
  have e : ∀ (b : Bool) (o : Option Measurement),
      (o.map fun m => if m.channel = some n ∧ b = true then { m with spoiled := true } else m).map (fun m =>
        if m.channel = some n then { m with spoiled := true } else m) =
      o.map fun m => if m.channel = some n then { m with spoiled := true } else m := by
    intro b o
    cases o with
    | none => rfl
    | some m =>
      by_cases k : m.channel = some n
      · cases b <;> simp [k]
      · simp [k]
  simp only [spoil, setChan]
  rw [e]

end Sys2Proof.Machine

open Sys2Proof Sys2Proof.Machine

/-- Settles O43. -/
theorem settingsAndScenesAreWritten : Obligations.SettingsAndScenesAreWritten := by
  unfold Obligations.SettingsAndScenesAreWritten
  refine ⟨fun c s take mode bell scene => ?_, fun n c s take mode unit bell => ⟨fun st => ?_, fun st => ?_⟩,
    fun n c s take mode name unit nominal => ?_, fun r s take mode rates => ?_, fun k fade ps s take wf unit units => ?_,
    fun c s take mode fallback threshold hysteresis => ?_⟩
  · refine request_does (act := panelTollAct c) (t := { s with cfg := { s.cfg with panelToll := { c with
      interval := min (max c.interval 10) 600, wait := min c.wait 600 } } }) take rfl fun l m => ?_
    refine (serviceOnly_service (m.trans mode)).trans ?_
    have ok : panelTollOk c = true := by rw [panelTollOk, bell, scene]; rfl
    rw [if_pos ok, clampPanelToll, clampN_zero]
    rfl
  · refine request_only (act := swingConfigAct n c) take rfl rfl fun l m => ?_
    refine (serviceOnly_service (m.trans mode)).trans ((if_neg ?_).trans (if_pos st))
    simp [unit, bell]
  · refine request_does (act := swingConfigAct n c) (t := { s with cfg := { s.cfg with swings := wr s.cfg.swings n { c with
      raise := min (max c.raise 60) 600, settle := min (max c.settle 10) 120, half := min (max c.half 5) 30 } } })
      take rfl fun l m => ?_
    refine (serviceOnly_service (m.trans mode)).trans ((if_neg ?_).trans (if_neg (not_not_intro st)))
    simp [unit, bell]
  · refine request_does (act := lightConfigAct n c) (t := { s with
      cfg := { s.cfg with lights := wr s.cfg.lights n (clampLight c) }
      lights := { s.lights with
        chans := wr s.lights.chans n { s.chan n with
          run := none, lamp := if (s.chan n).lamp = .tripped then .tripped else .unchecked }
        conv := s.lights.conv.map fun m => if m.channel = some n then { m with spoiled := true } else m } })
      take ?_ fun l m => ?_
    · exact name
    · refine (serviceOnly_service (m.trans mode)).trans ((if_pos ?_).trans ?_)
      · simp [unit, nominal]
      · exact Prod.ext spoil_setChan rfl
  · refine request_does (act := lineRateAct r) (t := { s with cfg := { s.cfg with rate := r } }) take rfl fun l m => ?_
    exact (serviceOnly_service (m.trans mode)).trans (if_pos rates)
  · have nd : (ps.map Prod.fst).Nodup := by
      simp only [Instr.wellFormed, Bool.and_eq_true] at wf
      exact nodup_sound wf.2
    refine ⟨sceneOf fade ps, request_does (act := sceneWriteAct k fade ps)
      (t := { s with cfg := { s.cfg with scenes := wr s.cfg.scenes k (sceneOf fade ps) } }) take wf fun l m => if_pos ?_,
      clampN_zero _ _, fun n l h => ?_, fun n u h => ?_⟩
    · rw [unit, units]
      rfl
    · exact (rd_levels (List.all_eq_true.mp units _ h) _ nd).1 l h
    · exact ((rd_levels u _ nd).2 h).trans (rd_replicate u)
  · have ok : siteOk c = true := by simp [siteOk, fallback, threshold, hysteresis]
    have written : clampSite c = { c with panelLevel := min c.panelLevel 4095, panelFade := min c.panelFade 6000 } := by
      rw [clampSite, clampN_zero, clampN_zero]
    dsimp only
    rw [← written]
    refine ⟨fun set => ?_, fun unset => ?_⟩
    · refine request_does (act := lightSiteAct c) (t := { s with cfg := { s.cfg with site := clampSite c } }) take rfl
        fun l m => ?_
      refine (serviceOnly_service (m.trans mode)).trans ((if_pos ok).trans ?_)
      exact Prod.ext (if_pos set) rfl
    · generalize e : (if s.lights.dusk = .dark then s.scene c.fallback else darkScene) = sc
      have laid := sceneBase_laid sc s
      have written := wholeBase_written (sceneBase sc) s { s.cfg with site := clampSite c }
      have power := congrArg State.power (wholeBase_lights (sceneBase sc) s)
      have run : ∀ l : Line, applyFallback { s with cfg := { s.cfg with site := clampSite c }, line := l } =
          { wholeBase (sceneBase sc) s with cfg := { s.cfg with site := clampSite c }, line := l } := fun l => by
        rw [← e]
        exact applyFallback_site s (clampSite c) l
      generalize wholeBase (sceneBase sc) s = t at *
      have taken : exec (.lightSite c) s = .next { t with
          cfg := { s.cfg with site := clampSite c }, line := replyLine (.lightSite c) s (.ok []) } :=
        request_does (act := lightSiteAct c) (t := { t with cfg := { s.cfg with site := clampSite c } }) take rfl
          (fun l m => (lightSiteAct_unset (s := { s with line := l }) (m.trans mode) ok unset).trans (Prod.ext (run l) rfl))
          power
      exact ⟨_, taken, laid.written _ _, written _⟩

end

section
/-! The lights: overrides, fades, the modulator and the converter (R175, R178, R180 to R185). -/

namespace Sys2Proof.Machine

/-! ### Changes of channels rest on the lights alone -/

theorem onChans_congr (f : Nat → Channel → Channel) (ns : List Nat) {s t : State} (h : s.lights = t.lights) :
    (onChans f ns s).lights = (onChans f ns t).lights := by
  induction ns generalizing s t with
  | nil => exact h
  | cons n ns ih =>
    have written : ∀ u : State, (setChan n (f n (u.chan n)) u).lights =
        (setChan n (f n (rd u.lights.chans n startChannel)) { s with lights := u.lights }).lights := fun _ => rfl
    exact ih ((written s).trans ((congrArg (fun l =>
      (setChan n (f n (rd (Lights.chans l) n startChannel)) { s with lights := l }).lights) h).trans (written t).symm))

theorem setContribs_congr (l : List Contribution) (fade : Nat) {s t : State} (h : s.lights = t.lights) (n : s.tb = t.tb) :
    (setContribs l fade s).lights = (setContribs l fade t).lights := by
  simp only [setContribs, State.now, h, n]
  exact onChans_congr _ _ rfl

theorem joinScene_congr (id level order : Nat) (k : Option Nat) {s t : State} (h : s.lights = t.lights) (n : s.tb = t.tb)
    (c : s.cfg = t.cfg) : (joinScene id level order k s).lights = (joinScene id level order k t).lights := by
  cases k with
  | none => exact h
  | some k =>
    simp only [joinScene, State.scene, h, c]
    exact setContribs_congr _ _ h n

/-- An admission touches the lights by its scene alone (R93). -/
theorem admitPerf_lights (p : Perf) (s : State) :
    (admitPerf p s).lights = (joinScene p.id p.level s.nextOrder p.scene s).lights := by
  have e : (admittedVoiced p s).lights = (admittedUnvoiced p s).lights := by
    unfold admittedVoiced
    split
    · exact (congrArg State.lights (takeVoice_eq _ _ _ _) :)
    · rfl
  have placed := placeClaims_eq { perf := p.id, level := p.level, order := s.nextOrder } p.bells
    { setPerf (admittedRecord p s) s with nextOrder := s.nextOrder + 1 }
  rw [admitPerf_voiced]
  exact e.trans (joinScene_congr _ _ _ _ (congrArg State.lights placed :)
    (congrArg State.tb placed :) (congrArg State.cfg placed :))

/-! ### Written channels -/

/-- A channel's new record meets the measurement in progress (R182). -/
theorem setChan_meets {n : Nat} (x : Channel) (s : State) (u : unitOk 16 n = true) :
    MeasurementMeets s (setChan n x s) (· = n) :=
  (meets_onChans (f := fun _ _ => x) (ns := [n]) (s := s) (List.nodup_singleton n)
    fun _ h => (List.mem_singleton.mp h) ▸ u).congr (fun _ _ => List.mem_singleton) rfl rfl rfl rfl

theorem MeasurementMeets.read {s t t' : State} {ns : Nat → Prop} (h : MeasurementMeets s t ns) (e : t'.lights = t.lights) :
    MeasurementMeets s t' ns :=
  h.congr (fun _ _ => Iff.rfl) rfl (congrArg Lights.chans e) rfl (congrArg Lights.conv e)

theorem onChans_line (f : Nat → Channel → Channel) (ns : List Nat) (s : State) (l : Line) :
    onChans f ns { s with line := l } = { onChans f ns s with line := l } := by
  induction ns generalizing s with
  | nil => rfl
  | cons n ns ih => exact ih (setChan n (f n (s.chan n)) s)

theorem setOverride_frame (o : Option Override) (fade : Nat) (ns : List Nat) (s : State) (l : Line) :
    setOverride o fade ns { s with line := l } = { setOverride o fade ns s with line := l } :=
  onChans_line _ ns s l

theorem setOverride_lights (o : Option Override) (fade : Nat) (ns : List Nat) (s : State) : setOverride o fade ns s = { s with
    lights := { s.lights with
      chans := (setOverride o fade ns s).lights.chans, conv := (setOverride o fade ns s).lights.conv } } :=
  onChans_lights _ ns s

theorem fadeOf_eq (f : Option Nat) : fadeOf f = min (f.getD 0) 6000 := clampN_zero _ _

theorem chanOk_of {ch : Option Nat} (h : ∀ n, ch = some n → unitOk 16 n = true) : chanOk ch = true := by
  cases ch with
  | none => rfl
  | some n => exact h n rfl

/-- The channels that a LIGHT field names (R178). -/
theorem mem_chansOf {ch : Option Nat} {n : Nat} (u : unitOk 16 n = true) : n ∈ chansOf ch ↔ ch = none ∨ ch = some n := by
  cases ch with
  | none => exact ⟨fun _ => .inl rfl, fun _ => mem_allChans u⟩
  | some k =>
    refine List.mem_singleton.trans ⟨fun e => .inr (e ▸ rfl), fun e => ?_⟩
    rcases e with e | e
    · cases e
    · exact (Option.some.inj e).symm

theorem setOverride_named {ch : Option Nat} (h : ∀ n, ch = some n → unitOk 16 n = true) (o : Option Override) (fade : Nat)
    (s : State) : OverridesBecome s (setOverride o fade (chansOf ch) s) (fun n => ch = none ∨ ch = some n) o fade := by
  have nodup : (chansOf ch).Nodup := by
    cases ch with
    | none => exact allChans_nodup
    | some n => exact List.nodup_singleton n
  have units : ∀ n ∈ chansOf ch, unitOk 16 n = true := by
    cases ch with
    | none => exact fun _ => allChans_unit
    | some n => exact fun k hk => (List.mem_singleton.mp hk) ▸ h n rfl
  exact (setOverride_becomes nodup units).congr (fun n u => mem_chansOf u) rfl rfl rfl

/-- A request that sets an override on the channels it names, or removes theirs, and answers by a target (R178). -/
theorem request_overrides {i : Instr} {act : State → State × Reply} {ch : Option Nat} {s : State} {o : Option Override}
    {fade : Nat} {r : Reply} (take : canTake i s = true) (wf : i.wellFormed = true)
    (named : ∀ n, ch = some n → unitOk 16 n = true) (run : exec i s = request i act s)
    (e : ∀ u : State, act u = targetReply ch (setOverride o fade (chansOf ch) u))
    (reply : r = .ok [.num ((setOverride o fade (chansOf ch) s).chan (ch.getD 1)).target]) :
    ∃ u, exec i s = .next u ∧ OverridesBecome s u (fun n => ch = none ∨ ch = some n) o fade ∧
      (u.chan (ch.getD 1)).target = ((setOverride o fade (chansOf ch) s).chan (ch.getD 1)).target ∧
      u = { s with
        lights := { s.lights with chans := u.lights.chans, conv := u.lights.conv }, line := replyLine i s r } := by
  have becomes := setOverride_named named o fade s
  have frame := setOverride_lights o fade (chansOf ch) s
  have acts : ∀ l : Line, l.mode = s.line.mode →
      act { s with line := l } = ({ setOverride o fade (chansOf ch) s with line := l }, r) := by
    intro l _
    rw [e, setOverride_frame, reply]
    rfl
  generalize setOverride o fade (chansOf ch) s = t at *
  refine ⟨_, run.trans (request_does (t := t) take wf acts ((congrArg State.power frame :))),
    becomes.congr (fun _ _ => Iff.rfl) rfl rfl rfl, rfl, ?_⟩
  rw [frame]

end Sys2Proof.Machine

open Sys2Proof Sys2Proof.Machine

/-- Settles O52. -/
theorem overrideRequests : Obligations.OverrideRequests := by
  unfold Obligations.OverrideRequests
  refine ⟨fun ch level fade mode s take named => ?_, fun ch fade s take named => ?_, fun n fade s take unit => ?_⟩
  · have target : ((setOverride (some { level := min level 4095, mode := mode, panel := false }) (min (fade.getD 0) 6000)
        (chansOf ch) s).chan (ch.getD 1)).target = min level 4095 := by
      have unit : unitOk 16 (ch.getD 1) = true := by
        cases ch with
        | none => rfl
        | some n => exact named n rfl
      refine ((setOverride_named named _ _ s).named _ unit ?_).target
      cases ch with
      | none => exact .inl rfl
      | some n => exact .inr rfl
    obtain ⟨u, run, becomes, -, frame⟩ := request_overrides (act := lightAct ch level fade mode) take rfl named rfl
      (fun u => by rw [lightAct, if_pos (chanOk_of named), clampN_zero, fadeOf_eq]) rfl
    exact ⟨u, run, becomes, by rw [target] at frame; exact frame⟩
  · obtain ⟨u, run, becomes, target, frame⟩ := request_overrides (act := lightReleaseAct ch fade) take rfl named rfl
      (fun u => by rw [lightReleaseAct, if_pos (chanOk_of named), fadeOf_eq]) rfl
    exact ⟨u, run, becomes, by rw [← target] at frame; exact frame⟩
  · dsimp only
    have ok : ¬(!unitOk 16 n) = true := by rw [unit]; decide
    refine ⟨fun st => request_only (act := lightClearAct n fade) take rfl rfl fun l _ => (if_neg ok).trans (if_pos st),
      fun st => ?_⟩
    refine ⟨_, clearedChan (s.chan n) (fadeOf fade) s.now, request_notifies (act := lightClearAct n fade)
      (t := setChan n (clearedChan (s.chan n) (fadeOf fade) s.now) s) take rfl
      fun l _ => (if_neg ok).trans (if_neg (not_not_intro st)), fun z => ?_, fun z => ?_, (setChan_meets _ s unit).read rfl, rfl⟩
    · rw [fadeOf_eq, z]
      rfl
    · rw [fadeOf_eq]
      exact if_neg z

/-- Settles O53. -/
theorem fadeStepsAndModulation : Obligations.FadeStepsAndModulation := by
  unfold Obligations.FadeStepsAndModulation
  refine ⟨fun n d s u f unit due reach fade => ?_, fun n d s u unit due reach => ?_⟩
  · have faded : (u.chan n).faded u.now = if f.len ≤ f.k + 1 then
        { u.chan n with output := f.target, fade := none, lastFadeEnd := u.now }
        else { u.chan n with
          output := ((f.start : Int) + (((f.target : Int) - f.start) * (f.k + 1)).tdiv f.len).toNat
          fade := some { f with k := f.k + 1, next := f.next + 100 } } := by
      rw [Channel.faded, fade, ← truncDiv_eq_tdiv]
      rfl
    refine ⟨_, (u.chan n).faded u.now, (ofUnit_ok unit).trans (timed_becomes (body := fadeStep n) due reach
      (reached_on due reach) rfl), (setChan_meets _ u unit).read rfl, fun more => ?_, fun last => ?_, rfl⟩
    · rw [faded, if_neg (Nat.not_le_of_lt more)]
    · rw [faded, if_pos last]
  · exact ⟨_, (ofUnit_ok unit).trans (timed_becomes (body := pwmPeriod n) due reach (reached_on due reach) rfl),
      (setChan_meets _ u unit).read rfl, rfl⟩

end

section
/-! The converter, the lamp verdicts and the dusk sensor (R182 to R186). -/

namespace Sys2Proof.Machine

/-! ### The converter falls free -/

theorem freeConverter_frame (s : State) : freeConverter s = { s with lights := (freeConverter s).lights } := by
  unfold freeConverter beginLamp
  dsimp only
  split
  · rfl
  · split
    · split <;> rfl
    · rfl

/-- What the converter's fall leaves rests on nothing of the line or of the measurement that has ended (R182). -/
theorem freeConverter_freed (w : State) (l : Line) (c : Option Measurement) :
    ConverterFreed w (freeConverter { w with lights := { w.lights with conv := c }, line := l }) := by
  have eligibles : nextEligible { w with
      lights := { w.lights with conv := none, lampWaits := false }, line := l } = nextEligible w := rfl
  have off : ∀ {b : Bool}, b = false → ¬b = true := fun h k => absurd (h.symm.trans k) (by decide)
  refine ⟨fun d => ?_, fun n d k e => ?_, fun d k e => ?_, fun d k => ?_⟩
  · unfold freeConverter
    dsimp only
    rw [if_pos d]
    rfl
  · unfold freeConverter beginLamp
    dsimp only
    rw [if_neg (off d), if_pos k, eligibles, e]
    rfl
  · unfold freeConverter beginLamp
    dsimp only
    rw [if_neg (off d), if_pos k, eligibles, e]
  · unfold freeConverter
    dsimp only
    rw [if_neg (off d), if_neg (off k)]

/-- A measurement's end that leaves the state `w` but for the line and the converter, which then falls free. -/
theorem freed_becomes {w v t : State} {l : Line} {c : Option Measurement}
    (e : v = { w with lights := { w.lights with conv := c }, line := l })
    (h : t = { freeConverter v with line := (freeConverter v).line.pumped }) :
    ConverterFreed w t ∧ t = { w with lights := t.lights, line := l.pumped } := by
  have frame := freeConverter_frame v
  subst e
  have freed := freeConverter_freed w l c
  generalize freeConverter { w with lights := { w.lights with conv := c }, line := l } = f at *
  subst h
  refine ⟨⟨freed.dusk, freed.lamp, freed.passes, freed.idle⟩, ?_⟩
  rw [frame]

theorem freeConverter_power (s : State) : (freeConverter s).power = s.power := by
  rw [freeConverter_frame]

/-- An event that is due at an instant and changes the lights alone. -/
theorem timed_lights {due : Option Nat} {d : Nat} {body : State → State} {s u : State} {x : Lights} (h : due = some d)
    (reach : reachUs d s = some u) (on : u.power.phase = .on) (k : body u = { u with lights := x }) :
    timed due body s = .next { u with lights := x, line := u.line.pumped } :=
  timed_becomes (t := { u with lights := x }) h reach on k

/-! ### Lamp verdicts -/

theorem lampMeasured_judges {n l ends : Nat} {code : ConvCode} {u : State}
    (h : u.lights.conv = some { channel := some n, level := l, ends := ends, spoiled := false }) :
    lampMeasured code u = freeConverter (judgeLamp n l code.toNat u) := by
  unfold lampMeasured
  rw [h]

theorem lampMeasured_spoiled {l ends : Nat} {ch : Option Nat} {code : ConvCode} {u : State}
    (h : u.lights.conv = some { channel := ch, level := l, ends := ends, spoiled := true }) :
    lampMeasured code u = freeConverter u := by
  unfold lampMeasured
  rw [h]
  split
  next e => cases e
  next => rfl

theorem duskMeasured_spoiled {l ends : Nat} {ch : Option Nat} {code : ConvCode} {u : State}
    (h : u.lights.conv = some { channel := ch, level := l, ends := ends, spoiled := true }) :
    duskMeasured code u = freeConverter u := by
  unfold duskMeasured
  rw [h]

theorem duskMeasured_judges {l ends : Nat} {ch : Option Nat} {code : ConvCode} {u : State}
    (h : u.lights.conv = some { channel := ch, level := l, ends := ends, spoiled := false }) :
    duskMeasured code u = freeConverter (judgeDusk code.toNat u) := by
  unfold duskMeasured
  rw [h]

theorem runAfter_eq (r : Option (Verdict × Nat)) (v : Verdict) :
    runAfter r v = (v, match r with
      | some (w, k) => if w = v then min (k + 1) 3 else 1
      | none => 1) := by
  unfold runAfter
  rcases r with _ | ⟨w, k⟩
  · rfl
  · dsimp only
    split <;> rfl

theorem judgeLamp_early {n l m : Nat} {u : State}
    (h : (runAfter (u.chan n).run (verdictOf (u.lightCfg n) l m)).2 ≠ 3) : judgeLamp n l m u =
      setChan n { u.chan n with code := some m, run := some (runAfter (u.chan n).run (verdictOf (u.lightCfg n) l m)) } u :=
  if_neg h

/-- A confirmed verdict, with the notice that it gives or none (R183). -/
theorem judgeLamp_confirms {n l m : Nat} {u : State} {y : Channel} {detail : Option (List Field)}
    (h : (runAfter (u.chan n).run (verdictOf (u.lightCfg n) l m)).2 = 3)
    (c : confirmVerdict (runAfter (u.chan n).run (verdictOf (u.lightCfg n) l m)).1 m n { u.chan n with
      code := some m, run := some (runAfter (u.chan n).run (verdictOf (u.lightCfg n) l m)) } = (y, detail)) :
    judgeLamp n l m u = { setChan n y u with
      line := detail.elim u.line fun d => u.line.latched .lamp d } := by
  unfold judgeLamp
  dsimp only
  rw [if_pos h, c]
  cases detail <;> rfl

theorem judgeLamp_power (n l m : Nat) (u : State) : (judgeLamp n l m u).power = u.power := by
  unfold judgeLamp
  dsimp only
  split
  · split <;> rfl
  · rfl

theorem confirm_good {n m : Nat} {c : Channel} (h : c.lamp = .unchecked ∨ c.lamp = .ok) :
    confirmVerdict .good m n c = ({ c with lamp := .ok }, none) := by
  unfold confirmVerdict
  obtain ⟨base, perf, override, target, output, fade, last, lamp, run, code, j, next, level, slots⟩ := c
  rcases h with h | h <;> (cases h; rfl)

theorem confirm_good_low {n m : Nat} {c : Channel} (h : c.lamp = .low) :
    confirmVerdict .good m n c = ({ c with lamp := .ok }, some [.num n, .word "OK"]) := by
  unfold confirmVerdict
  rw [h]

theorem confirm_low {n m : Nat} {c : Channel} (h : c.lamp = .unchecked ∨ c.lamp = .ok) :
    confirmVerdict .low m n c = ({ c with lamp := .low }, some [.num n, .word "LOW", .num m]) := by
  unfold confirmVerdict
  rcases h with h | h <;> rw [h]

theorem confirm_low_again {n m : Nat} {c : Channel} (h : c.lamp = .low) : confirmVerdict .low m n c = (c, none) := by
  unfold confirmVerdict
  rw [h]

theorem confirm_over {n m : Nat} {c : Channel} (h : c.lamp ≠ .tripped) : confirmVerdict .tooHigh m n c =
    ({ c with lamp := .tripped, output := 0, fade := none, run := none }, some [.num n, .word "TRIPPED", .num m]) := by
  unfold confirmVerdict
  cases k : c.lamp with
  | tripped => exact absurd k h
  | unchecked => rfl
  | ok => rfl
  | low => rfl

/-! ### The dusk state -/

/-- From `s` to `t` the code and the runs of the dusk sensor and the dusk state stand. -/
structure DuskKept (s t : State) : Prop where
  code : t.lights.duskCode = s.lights.duskCode
  dark : t.lights.darkRun = s.lights.darkRun
  light : t.lights.lightRun = s.lights.lightRun
  dusk : t.lights.dusk = s.lights.dusk

theorem DuskKept.rfl {s : State} : DuskKept s s := ⟨Eq.refl _, Eq.refl _, Eq.refl _, Eq.refl _⟩

theorem DuskKept.trans {s t u : State} (h : DuskKept s t) (k : DuskKept t u) : DuskKept s u :=
  ⟨k.code.trans h.code, k.dark.trans h.dark, k.light.trans h.light, k.dusk.trans h.dusk⟩

theorem DuskKept.of_lights {s t : State} (h : t.lights = s.lights) : DuskKept s t := by
  constructor <;> rw [h]

theorem DuskKept.foldl {α : Type} {f : State → α → State} (h : ∀ s a, DuskKept s (f s a)) (l : List α) (s : State) :
    DuskKept s (l.foldl f s) := by
  induction l generalizing s with
  | nil => exact .rfl
  | cons a l ih => exact (h s a).trans (ih _)

theorem onChans_dusk (f : Nat → Channel → Channel) (ns : List Nat) (s : State) : DuskKept s (onChans f ns s) :=
  .foldl (f := fun t n => setChan n (f n (t.chan n)) t) (fun _ _ => ⟨Eq.refl _, Eq.refl _, Eq.refl _, Eq.refl _⟩) ns s

theorem setContribs_dusk (l : List Contribution) (fade : Nat) (s : State) : DuskKept s (setContribs l fade s) :=
  DuskKept.trans (t := { s with lights := { s.lights with contribs := l } }) ⟨Eq.refl _, Eq.refl _, Eq.refl _, Eq.refl _⟩
    (onChans_dusk _ _ _)

theorem joinScene_dusk (id level order : Nat) (k : Option Nat) (s : State) : DuskKept s (joinScene id level order k s) := by
  cases k with
  | none => exact .rfl
  | some k => exact setContribs_dusk _ _ s

theorem admitPerf_dusk (p : Perf) (s : State) : DuskKept s (admitPerf p s) :=
  (joinScene_dusk _ _ _ _ s).trans (.of_lights (admitPerf_lights p s))

theorem createPerf_dusk (p : Perf) (s : State) : DuskKept s (createPerf p s).1 := by
  simp only [createPerf]
  repeat' split
  · exact .rfl
  · exact (DuskKept.of_lights (s := s) (t := tableGrown p s) (Eq.refl _)).trans
      (admitPerf_dusk (createdRecord p s) (tableGrown p s))
  · exact .of_lights (Eq.refl _)
  · exact .of_lights (Eq.refl _)

theorem fireCreation_dusk (n : Nat) (p : Perf) (s : State) : DuskKept s (fireCreation n p s) := by
  have created := createPerf_dusk p s
  unfold fireCreation
  split
  all_goals
    next e =>
      rw [e] at created
      exact created.trans (.of_lights (Eq.refl _))

theorem entryNotice_dusk (n : Nat) (d : List Field) (s : State) : DuskKept s (entryNotice n d s) :=
  .of_lights (Eq.refl _)

theorem fireAction_dusk (t : Nat) (s : State) (e : Nat × EntryFields) : DuskKept s (fireAction t s e) := by
  unfold fireAction
  dsimp only
  split
  · exact .of_lights (Eq.refl _)
  · exact (onChans_dusk _ _ _).trans (entryNotice_dusk _ _ _)
  · repeat' split
    · exact entryNotice_dusk _ _ _
    · exact entryNotice_dusk _ _ _
    · exact fireCreation_dusk _ _ _
  · split
    · exact entryNotice_dusk _ _ _
    · exact fireCreation_dusk _ _ _
  · repeat' split
    · exact entryNotice_dusk _ _ _
    · exact entryNotice_dusk _ _ _
    · exact fireCreation_dusk _ _ _

theorem fireAll_dusk (t : Nat) (l : List (Nat × EntryFields × Nat)) (s : State) : DuskKept s (fireAll t l s) :=
  (DuskKept.foldl (f := fun u e => setStamp e.1 e.2.2 u) (fun _ _ => .of_lights (Eq.refl _)) l s).trans
    (.foldl (fireAction_dusk t) _ _)

theorem duskFiring_dusk (s : State) : DuskKept s (duskFiring s) := by
  unfold duskFiring
  split
  · exact fireAll_dusk _ _ _
  · exact .rfl

theorem freeConverter_dusk (s : State) : DuskKept s (freeConverter s) := by
  unfold freeConverter beginLamp
  dsimp only
  repeat' split
  all_goals exact ⟨Eq.refl _, Eq.refl _, Eq.refl _, Eq.refl _⟩

/-- The lights after a photocell code: the runs and the code (R185). -/
def duskJudged (c : SiteCfg) (m : Nat) (l : Lights) : Lights :=
  { l with
    duskCode := some m
    darkRun := if m < c.threshold then min (l.darkRun + 1) 60 else 0
    lightRun := if c.threshold + c.hysteresis < m then min (l.lightRun + 1) 60 else 0 }

theorem duskRuns_judged (c : SiteCfg) (m : Nat) (l : Lights) : { duskRuns c m l with duskCode := some m } = duskJudged c m l := by
  unfold duskRuns duskJudged
  by_cases d : m < c.threshold
  · have : ¬c.threshold + c.hysteresis < m := by omega
    simp only [if_pos d, if_neg this]
  · by_cases k : c.threshold + c.hysteresis < m
    · simp only [if_neg d, if_pos k]
    · simp only [if_neg d, if_neg k]

/-- A code below the threshold for the sixtieth time in a row, the state not DARK (R185). -/
def ToDark (c : SiteCfg) (m : Nat) (l : Lights) : Prop := m < c.threshold ∧ 59 ≤ l.darkRun ∧ l.dusk ≠ .dark

def ToLight (c : SiteCfg) (m : Nat) (l : Lights) : Prop :=
  c.threshold + c.hysteresis < m ∧ 59 ≤ l.lightRun ∧ l.dusk ≠ .light

theorem toDark_iff {c : SiteCfg} {m : Nat} {l : Lights} :
    (60 ≤ (duskJudged c m l).darkRun ∧ (duskJudged c m l).dusk ≠ .dark) ↔ ToDark c m l := by
  simp only [duskJudged, ToDark]
  split
  next d => simp only [d, true_and]; constructor <;> (rintro ⟨h, k⟩; exact ⟨by omega, k⟩)
  next d => simp only [d, false_and, iff_false]; rintro ⟨h, -⟩; omega

theorem toLight_iff {c : SiteCfg} {m : Nat} {l : Lights} :
    (60 ≤ (duskJudged c m l).lightRun ∧ (duskJudged c m l).dusk ≠ .light) ↔ ToLight c m l := by
  simp only [duskJudged, ToLight]
  split
  next d => simp only [d, true_and]; constructor <;> (rintro ⟨h, k⟩; exact ⟨by omega, k⟩)
  next d => simp only [d, false_and, iff_false]; rintro ⟨h, -⟩; omega

theorem ToLight.not_toDark {c : SiteCfg} {m : Nat} {l : Lights} (h : ToLight c m l) : ¬ToDark c m l := fun k => by
  have a := h.1
  have b := k.1
  omega

theorem judgeDusk_eq (m : Nat) (u : State) : judgeDusk m u =
    if 60 ≤ (duskJudged u.cfg.site m u.lights).darkRun ∧ (duskJudged u.cfg.site m u.lights).dusk ≠ .dark then
      duskChanged .dark m { u with lights := duskJudged u.cfg.site m u.lights }
    else if 60 ≤ (duskJudged u.cfg.site m u.lights).lightRun ∧ (duskJudged u.cfg.site m u.lights).dusk ≠ .light then
      duskChanged .light m { u with lights := duskJudged u.cfg.site m u.lights }
    else { u with lights := duskJudged u.cfg.site m u.lights } :=
  congrArg (fun l : Lights =>
    if 60 ≤ l.darkRun ∧ l.dusk ≠ .dark then duskChanged .dark m { u with lights := l }
    else if 60 ≤ l.lightRun ∧ l.dusk ≠ .light then duskChanged .light m { u with lights := l }
    else { u with lights := l }) (duskRuns_judged u.cfg.site m u.lights)

theorem judgeDusk_dark {m : Nat} {u : State} (h : ToDark u.cfg.site m u.lights) :
    judgeDusk m u = duskChanged .dark m { u with lights := duskJudged u.cfg.site m u.lights } :=
  (judgeDusk_eq m u).trans (if_pos (toDark_iff.mpr h))

theorem judgeDusk_light {m : Nat} {u : State} (h : ToLight u.cfg.site m u.lights) :
    judgeDusk m u = duskChanged .light m { u with lights := duskJudged u.cfg.site m u.lights } :=
  (judgeDusk_eq m u).trans ((if_neg fun k => h.not_toDark (toDark_iff.mp k)).trans (if_pos (toLight_iff.mpr h)))

theorem judgeDusk_stands {m : Nat} {u : State} (d : ¬ToDark u.cfg.site m u.lights) (l : ¬ToLight u.cfg.site m u.lights) :
    judgeDusk m u = { u with lights := duskJudged u.cfg.site m u.lights } :=
  (judgeDusk_eq m u).trans ((if_neg fun k => d (toDark_iff.mp k)).trans (if_neg fun k => l (toLight_iff.mp k)))

/-- The new dusk state with its notice, before anything fires (R185). -/
def duskTold (x : DuskState) (m : Nat) (s : State) : State :=
  notify .dusk [.word (duskName x), .num m] { s with lights := { s.lights with dusk := x } }

theorem duskFiring_still {s : State} (h : s.tb.set = false ∨ s.line.mode = .service) : duskFiring s = s := by
  unfold duskFiring schedActs
  rcases h with h | h <;> simp [h]

theorem applyFallback_dusk (s : State) : DuskKept s (applyFallback s) := by
  unfold applyFallback wholeBase
  exact onChans_dusk _ _ s

/-- The state in which a change into DARK has fired the entries that it fires (R166). -/
def duskFired (x : DuskState) (m : Nat) (s : State) : State :=
  if x = .dark then duskFiring (duskTold x m s) else duskTold x m s

theorem duskChanged_eq (x : DuskState) (m : Nat) (s : State) : duskChanged x m s =
    if (duskFired x m s).tb.set then duskFired x m s else applyFallback (duskFired x m s) := rfl

theorem duskFired_still {x : DuskState} {m : Nat} {s : State}
    (h : x ≠ .dark ∨ s.tb.set = false ∨ s.line.mode = .service) : duskFired x m s = duskTold x m s := by
  unfold duskFired
  split
  next e =>
    have mode : (duskTold x m s).line.mode = s.line.mode := by
      rw [duskTold, notify_line, latched_eq]
    exact duskFiring_still (s := duskTold x m s) ((h.resolve_left fun k => k e).imp id mode.trans)
  next => rfl

theorem duskFired_kept (x : DuskState) (m : Nat) (s : State) :
    DuskKept (duskTold x m s) (duskFired x m s) ∧ Quiet (duskTold x m s) (duskFired x m s) := by
  unfold duskFired
  split
  · exact ⟨duskFiring_dusk _, duskFiring_quiet _⟩
  · exact ⟨.rfl, Quiet.rfl⟩

/-- A change of the dusk state leaves the sensor's runs and code, the settings and the time. -/
theorem duskChanged_kept (x : DuskState) (m : Nat) (s : State) :
    DuskKept (duskTold x m s) (duskChanged x m s) ∧ Quiet (duskTold x m s) (duskChanged x m s) := by
  obtain ⟨kept, quiet⟩ := duskFired_kept x m s
  rw [duskChanged_eq]
  split
  · exact ⟨kept, quiet⟩
  · exact ⟨kept.trans (applyFallback_dusk _), quiet.trans (applyFallback_struck _).toQuiet⟩

theorem judgeDusk_kept (m : Nat) (u : State) :
    (judgeDusk m u).lights.duskCode = some m ∧
    (judgeDusk m u).lights.darkRun = (duskJudged u.cfg.site m u.lights).darkRun ∧
    (judgeDusk m u).lights.lightRun = (duskJudged u.cfg.site m u.lights).lightRun ∧
    (judgeDusk m u).cfg = u.cfg ∧ (judgeDusk m u).tb = u.tb ∧ (judgeDusk m u).power = u.power := by
  rw [judgeDusk_eq]
  split
  · obtain ⟨kept, quiet⟩ := duskChanged_kept .dark m { u with lights := duskJudged u.cfg.site m u.lights }
    exact ⟨kept.code, kept.dark, kept.light, quiet.cfg, quiet.tb, quiet.power⟩
  · split
    · obtain ⟨kept, quiet⟩ := duskChanged_kept .light m { u with lights := duskJudged u.cfg.site m u.lights }
      exact ⟨kept.code, kept.dark, kept.light, quiet.cfg, quiet.tb, quiet.power⟩
    · exact ⟨rfl, rfl, rfl, rfl, rfl, rfl⟩

theorem wholeBase_line (b : Vector (Option (Nat × Nat)) 16) (s : State) (l : Line) :
    wholeBase b { s with line := l } = { wholeBase b s with line := l } := by
  unfold wholeBase
  exact onChans_line _ allChans s l

/-- A change of the dusk state while the time is UNSET, with the scene that it lays (R186). -/
theorem applyFallback_told {x : DuskState} {m : Nat} {s : State} {sc : Scene}
    (h : (if x = .dark then s.scene s.cfg.site.fallback else darkScene) = sc) : applyFallback (duskTold x m s) =
      { wholeBase (sceneBase sc) { s with lights := { s.lights with dusk := x } } with
        line := s.line.latched .dusk [.word (duskName x), .num m] } := by
  subst h
  unfold applyFallback
  exact wholeBase_line _ { s with lights := { s.lights with dusk := x } } _

theorem duskChanged_set {x : DuskState} {m : Nat} {s : State} (set : s.tb.set = true)
    (h : x ≠ .dark ∨ s.line.mode = .service) : duskChanged x m s = duskTold x m s := by
  rw [duskChanged_eq, duskFired_still (h.imp id .inr)]
  exact if_pos set

theorem duskChanged_unset {x : DuskState} {m : Nat} {s : State} (unset : s.tb.set = false) :
    duskChanged x m s = applyFallback (duskTold x m s) := by
  rw [duskChanged_eq, duskFired_still (.inr (.inl unset))]
  exact if_neg fun k => absurd (unset.symm.trans k) (by decide)

/-- The end of a dusk measurement that changes the state while the time is UNSET (R185, R186). -/
theorem duskEnd_falls {x : DuskState} {m : Nat} {u t : State} {sc : Scene} {l : Lights}
    (e : judgeDusk m u = duskChanged x m { u with lights := l }) (unset : u.tb.set = false)
    (h : (if x = .dark then u.scene u.cfg.site.fallback else darkScene) = sc)
    (ht : t = { freeConverter (judgeDusk m u) with line := (freeConverter (judgeDusk m u)).line.pumped }) :
    ∃ w, SceneLaid { u with lights := { l with dusk := x } } w sc ∧
      w = { u with lights := { l with dusk := x, chans := w.lights.chans, conv := w.lights.conv } } ∧
      ConverterFreed w t ∧
      t = { u with lights := t.lights, line := noticeLine u .dusk [.word (duskName x), .num m] } := by
  have laid := sceneBase_laid sc { u with lights := { l with dusk := x } }
  have frame := wholeBase_lights (sceneBase sc) { u with lights := { l with dusk := x } }
  have judged := e.trans ((duskChanged_unset (s := { u with lights := l }) unset).trans
    (applyFallback_told (s := { u with lights := l }) h))
  generalize wholeBase (sceneBase sc) { u with lights := { l with dusk := x } } = w at *
  obtain ⟨freed, k⟩ := freed_becomes (w := w) (l := u.line.latched .dusk [.word (duskName x), .num m])
    (c := w.lights.conv) judged ht
  refine ⟨w, laid, frame, freed, k.trans ?_⟩
  rw [frame]
  rfl

end Sys2Proof.Machine

open Sys2Proof Sys2Proof.Machine

/-- Settles O54. -/
theorem measurementsAreTakenAndJudged : Obligations.MeasurementsAreTakenAndJudged := by
  unfold Obligations.MeasurementsAreTakenAndJudged
  refine ⟨fun d s u due reach => ?_, fun d s u due reach => ?_, fun d n l ends code s u due reach conv unit => ?_,
    fun d ends code s u due reach conv => ?_, fun d l ends ch code s u reach conv => ⟨fun due => ?_, fun due => ?_⟩⟩
  · have on : u.power.phase = .on := reached_on due reach
    have free : u.lights.conv = none → lampSlot u =
        beginLamp { u with lights := { u.lights with lampNext := u.lights.lampNext + 100 } } := fun c =>
      if_pos (by rw [c]; rfl)
    have eligibles : nextEligible { u with lights := { u.lights with lampNext := u.lights.lampNext + 100 } } =
        nextEligible u := rfl
    refine ⟨fun c => timed_lights (body := lampSlot) due reach on (if_neg ?_), fun c none => ?_, fun n c next => ?_⟩
    · exact fun k => c (Option.isNone_iff_eq_none.mp k)
    · have e : nextEligible u = .none := by
        refine List.find?_eq_none.mpr fun n hn => ?_
        obtain ⟨i, -, rfl⟩ := List.mem_map.mp hn
        rw [none _ (unitOk_iff.mpr ⟨Nat.le_add_left _ _, Nat.succ_le_of_lt (Nat.mod_lt _ (by decide))⟩)]
        decide
      refine timed_lights (body := lampSlot) due reach on ((free c).trans ?_)
      rw [beginLamp, eligibles, e]
    · refine timed_lights (body := lampSlot) due reach on ((free c).trans ?_)
      rw [beginLamp, eligibles, next]
      rfl
  · refine timed_lights (body := duskSample) due reach (reached_on due reach) ?_
    unfold duskSample
    dsimp only
    cases u.lights.conv with
    | none => rfl
    | some m => rfl
  · intro g c m v k x
    have run : runAfter c.run (verdictOf g l m) = (v, k) := runAfter_eq c.run v
    have becomes : ∀ (y : Channel) (line : Line), judgeLamp n l m u = { setChan n y u with line := line } → _ := fun y line e =>
      freed_becomes (w := { u with lights := { u.lights with chans := wr u.lights.chans n y } }) (l := line)
        (c := (setChan n y u).lights.conv) e rfl
    have confirms : ∀ (y : Channel) (detail : Option (List Field)), k = 3 → confirmVerdict v m n x = (y, detail) →
        judgeLamp n l m u = { setChan n y u with line := detail.elim u.line fun d => u.line.latched .lamp d } :=
      fun y detail k3 e => judgeLamp_confirms ((congrArg Prod.snd run).trans k3) (by rw [run]; exact e)
    have power : (freeConverter (judgeLamp n l m u)).power = u.power := by
      rw [freeConverter_power, judgeLamp_power]
    refine ⟨_, timed_becomes (body := lampMeasured code) due reach (reached_on due reach) (lampMeasured_judges conv) power,
      fun early => becomes _ _ ?_, fun k3 kind lamp => becomes _ _ (confirms _ none k3 ?_),
      fun k3 kind lamp => becomes _ _ (confirms _ (some _) k3 ?_), fun k3 kind lamp => becomes _ _ (confirms _ (some _) k3 ?_),
      fun k3 kind lamp => becomes _ _ (confirms _ none k3 ?_), fun k3 kind lamp => becomes _ _ (confirms _ (some _) k3 ?_)⟩
    · refine (judgeLamp_early fun e => ?_).trans (by rw [run]; rfl)
      have := (congrArg Prod.snd run).symm.trans e
      omega
    · rw [kind]
      exact confirm_good (c := x) lamp
    · rw [kind]
      exact confirm_good_low (c := x) lamp
    · rw [kind]
      exact confirm_low (c := x) lamp
    · rw [kind]
      exact confirm_low_again (c := x) lamp
    · rw [kind]
      exact confirm_over (c := x) lamp
  · intro c m isDark isLight l toDark toLight
    obtain ⟨code', dark, light, cfg, tb, power⟩ := judgeDusk_kept m u
    have frame := freeConverter_frame (judgeDusk m u)
    have kept := freeConverter_dusk (judgeDusk m u)
    have becomes : ∀ (x : DuskState) (line : Line), judgeDusk m u = { u with lights := { l with dusk := x }, line := line } →
        _ := fun x line e => freed_becomes (w := { u with lights := { l with dusk := x } }) (l := line)
          (c := u.lights.conv) e rfl
    have toldEq : ∀ x : DuskState, judgeDusk m u = duskTold x m { u with lights := l } → _ := fun x e =>
      becomes x (u.line.latched .dusk [.word (duskName x), .num m]) e
    refine ⟨_, timed_becomes (body := duskMeasured code) due reach (reached_on due reach) (duskMeasured_judges conv)
      ((freeConverter_power _).trans power), (congrArg State.cfg frame :).trans cfg, (congrArg State.tb frame :).trans tb,
      kept.code.trans code', kept.dark.trans dark, kept.light.trans light,
      fun nd nl => becomes _ _ (judgeDusk_stands nd nl), fun tl set => toldEq _ ?_, fun tl unset => ?_, fun td => ?_,
      fun td set service => toldEq _ ?_, fun td unset => ?_⟩
    · exact (judgeDusk_light tl).trans (duskChanged_set (s := { u with lights := l }) set (.inl (by decide)))
    · exact duskEnd_falls (x := .light) (judgeDusk_light tl) unset (if_neg (by decide)) rfl
    · refine kept.dusk.trans ((congrArg (fun s : State => s.lights.dusk) (judgeDusk_dark td)).trans ?_)
      exact (duskChanged_kept .dark m { u with lights := l }).1.dusk
    · exact (judgeDusk_dark td).trans (duskChanged_set (s := { u with lights := l }) set (.inr service))
    · exact duskEnd_falls (x := .dark) (judgeDusk_dark td) unset (if_pos rfl) rfl
  · obtain ⟨freed, e⟩ := freed_becomes (w := u) (v := u) (l := u.line) (c := u.lights.conv) rfl rfl
    refine ⟨_, timed_becomes (body := lampMeasured code) due reach (reached_on due reach) (lampMeasured_spoiled conv)
      (freeConverter_power u), freed, e⟩
  · obtain ⟨freed, e⟩ := freed_becomes (w := u) (v := u) (l := u.line) (c := u.lights.conv) rfl rfl
    refine ⟨_, timed_becomes (body := duskMeasured code) due reach (reached_on due reach) (duskMeasured_spoiled conv)
      (freeConverter_power u), freed, e⟩

end

section
/-! The quarters: shapes, releases and evaluation (R108 to R112, R114). -/

namespace Sys2Proof.Machine

/-! ### Shapes -/

/-- The night silence keeps a quarter's tune back: it covers the quarter, of scope QUARTERS (R108). -/
def NightStops (c : ClockCfg) (k : Nat) : Prop := c.scope = .quarters ∧ NightCovers c (k % 96 * 15)

theorem nightStops_iff {c : ClockCfg} {k : Nat} :
    (decide (c.scope = .quarters) && nightCovers c (k % 96 * 15)) = true ↔ NightStops c k := by
  rw [Bool.and_eq_true, decide_eq_true_eq, nightCovers_iff]
  rfl

/-- Quarter `k` strikes hours without a tune, or has no tune to play for the mode (R108). -/
def BareHour (c : ClockCfg) (k : Nat) : Prop :=
  quarterNo k = 4 ∧ (c.mode = .hoursOnly ∨ (c.mode = .all ∧ (c.q4 = 0 ∨ NightStops c k)))

/-- Quarter `q` has a profile of duration `d` and offset `e` within the limit (R105, R106). -/
def ProfileFits (s : State) (q d : Nat) (e : Int) : Prop :=
  (∃ x, s.profile q = .ready x d e) ∧ (if q = 4 then d + 100 * s.cfg.clock.gap else d) ≤ 840000

theorem overLimit_iff {c : ClockCfg} {q d : Nat} :
    overLimit c q d = true ↔ ¬(if q = 4 then d + 100 * c.gap else d) ≤ 840000 := by
  rw [overLimit, decide_eq_true_eq, gapMs, Nat.mul_comm c.gap 100, Nat.not_le]

theorem shapeOf_off {s : State} {k : Nat} (h : s.cfg.clock.mode = .off) : shapeOf s k = .noneByMode := by
  unfold shapeOf
  dsimp only
  rw [h]

theorem shapeOf_hours {s : State} {k : Nat} (h : s.cfg.clock.mode = .hoursOnly) :
    shapeOf s k = if quarterNo k = 4 then .hourOnly else .noneByMode := by
  unfold shapeOf
  dsimp only
  rw [h]

theorem shapeOf_bare {s : State} {k : Nat} (h : BareHour s.cfg.clock k) : shapeOf s k = .hourOnly := by
  obtain ⟨four, mode | ⟨mode, bare⟩⟩ := h
  · rw [shapeOf_hours mode, if_pos four]
  · unfold shapeOf
    dsimp only
    rw [mode]
    exact if_pos ⟨four, bare.imp id nightStops_iff.mpr⟩

/-- In mode ALL a quarter that is not a bare hour takes its shape from its slot and its profile (R108). -/
theorem shapeOf_all {s : State} {k : Nat} (mode : s.cfg.clock.mode = .all) (bare : ¬BareHour s.cfg.clock k) :
    shapeOf s k = match s.profile (quarterNo k) with
      | .ready _ d e =>
        if quarterSlot s.cfg.clock (quarterNo k) = 0 ∨ overLimit s.cfg.clock (quarterNo k) d = true ∨
          (decide (s.cfg.clock.scope = .quarters) && nightCovers s.cfg.clock (k % 96 * 15)) = true then .noneMissing
        else if quarterNo k = 4 then .fullHour (quarterSlot s.cfg.clock (quarterNo k)) d e
        else .quarter (quarterSlot s.cfg.clock (quarterNo k)) d e
      | _ => .noneMissing := by
  unfold shapeOf
  dsimp only
  rw [mode]
  exact if_neg fun h => bare ⟨h.1, .inr ⟨mode, h.2.imp id nightStops_iff.mp⟩⟩

theorem shapeOf_tune {s : State} {k d : Nat} {e : Int} (mode : s.cfg.clock.mode = .all) (day : ¬NightStops s.cfg.clock k)
    (slot : quarterSlot s.cfg.clock (quarterNo k) ≠ 0) (fits : ProfileFits s (quarterNo k) d e) :
    shapeOf s k = if quarterNo k = 4 then .fullHour (quarterSlot s.cfg.clock (quarterNo k)) d e
      else .quarter (quarterSlot s.cfg.clock (quarterNo k)) d e := by
  have bare : ¬BareHour s.cfg.clock k := by
    rintro ⟨four, m | ⟨-, z | z⟩⟩
    · rw [m] at mode; cases mode
    · rw [four] at slot; exact slot z
    · exact day z
  obtain ⟨⟨x, ready⟩, limit⟩ := fits
  rw [shapeOf_all mode bare, ready]
  refine if_neg fun h => ?_
  rcases h with h | h | h
  · exact slot h
  · exact overLimit_iff.mp h limit
  · exact day (nightStops_iff.mp h)

theorem shapeOf_missing {s : State} {k : Nat} (mode : s.cfg.clock.mode = .all) (bare : ¬BareHour s.cfg.clock k)
    (h : quarterSlot s.cfg.clock (quarterNo k) = 0 ∨ NightStops s.cfg.clock k ∨ ∀ d e, ¬ProfileFits s (quarterNo k) d e) :
    shapeOf s k = .noneMissing := by
  rw [shapeOf_all mode bare]
  split
  next x d e ready =>
    refine if_pos ?_
    rcases h with h | h | h
    · exact .inl h
    · exact .inr (.inr (nightStops_iff.mpr h))
    · exact .inr (.inl (overLimit_iff.mpr fun limit => h d e ⟨⟨x, ready⟩, limit⟩))
  next => rfl

/-- The shape with a tune tells the quarter's slot and its profile. -/
theorem shapeOf_sound {s : State} {k : Nat} :
    (∀ n d e, shapeOf s k = .quarter n d e → quarterNo k ≠ 4 ∧ ProfileFits s (quarterNo k) d e) ∧
    (∀ n d e, shapeOf s k = .fullHour n d e → quarterNo k = 4 ∧ ProfileFits s (quarterNo k) d e) := by
  cases mode : s.cfg.clock.mode with
  | off => simp [shapeOf_off mode]
  | hoursOnly => rw [shapeOf_hours mode]; constructor <;> intro n d e h <;> split at h <;> cases h
  | all =>
    by_cases bare : BareHour s.cfg.clock k
    · simp [shapeOf_bare bare]
    · rw [shapeOf_all mode bare]
      constructor
      all_goals
        intro n d e h
        split at h
        next x d' e' ready =>
          split at h
          · cases h
          next no =>
            have limit : (if quarterNo k = 4 then d' + 100 * s.cfg.clock.gap else d') ≤ 840000 :=
              not_not.mp fun k => no (.inr (.inl (overLimit_iff.mpr k)))
            split at h
            next four =>
              cases h
              all_goals exact ⟨four, ⟨x, ready⟩, limit⟩
            next four =>
              cases h
              all_goals exact ⟨four, ⟨x, ready⟩, limit⟩
        next => cases h

theorem quarterNo_unit (k : Nat) : unitOk 4 (quarterNo k) = true := by
  have : quarterNo k = if k % 4 = 0 then 4 else k % 4 := rfl
  refine unitOk_iff.mpr ?_
  split at this <;> omega

/-- A quarter's release lies between 840.4 s before its instant and the instant (R105, R109). -/
theorem releaseX_range {s : State} (h : ProfilesOk s) (k : Nat) :
    -840400 ≤ releaseX s.cfg.clock (hourFly s) (shapeOf s k) ∧ releaseX s.cfg.clock (hourFly s) (shapeOf s k) ≤ 0 := by
  have fly : hourFly s ≤ 400 := h.hourBell
  obtain ⟨quarter, hour⟩ := shapeOf_sound (s := s) (k := k)
  cases sh : shapeOf s k with
  | noneByMode => exact ⟨by simp only [releaseX]; omega, le_refl _⟩
  | noneMissing => exact ⟨by simp only [releaseX]; omega, le_refl _⟩
  | hourOnly =>
    simp only [releaseX]
    omega
  | quarter n d e =>
    obtain ⟨four, ⟨x, ready⟩, limit⟩ := quarter n d e sh
    obtain ⟨low, high⟩ := h.offsets _ _ _ _ (quarterNo_unit k) ready
    rw [if_neg four] at limit
    simp only [releaseX, anchorOffset]
    split <;> omega
  | fullHour n d e =>
    obtain ⟨four, ⟨x, ready⟩, limit⟩ := hour n d e sh
    obtain ⟨low, high⟩ := h.offsets _ _ _ _ (quarterNo_unit k) ready
    rw [if_pos four] at limit
    simp only [releaseX, anchorOffset, gapMs]
    split <;> omega

theorem evaluationAt_range {s : State} (h : ProfilesOk s) (k : Nat) :
    (900000 * k : Nat) - 845400 ≤ evaluationAt s k ∧ evaluationAt s k ≤ (900000 * k : Nat) - 5000 := by
  obtain ⟨low, high⟩ := releaseX_range h k
  simp only [evaluationAt, earliestRelease]
  omega

theorem evaluationAt_lt {s : State} (h : ProfilesOk s) (k : Nat) : evaluationAt s k < evaluationAt s (k + 1) := by
  have a := (evaluationAt_range h k).2
  have b := (evaluationAt_range h (k + 1)).1
  omega

theorem evaluationAt_of_shape {s : State} {k : Nat} {sh : Shape} {x : Int} (h : shapeOf s k = sh)
    (r : releaseX s.cfg.clock (hourFly s) sh = x) : shapeOf s k = sh ∧ earliestRelease s k = (900000 * k : Nat) + x ∧
      evaluationAt s k = (900000 * k : Nat) + x - 5000 := by
  subst h r
  exact ⟨rfl, rfl, rfl⟩

end Sys2Proof.Machine

open Sys2Proof Sys2Proof.Machine

/-- Settles O37. -/
theorem quarterShapesAndReleases : Obligations.QuarterShapesAndReleases := by
  unfold Obligations.QuarterShapesAndReleases
  refine ⟨fun s k => ⟨fun mode day slot d e fits => ?_, fun bare => ?_, fun none => ?_, fun mode bare none => ?_,
    fun h => if_pos h, fun h => if_neg h⟩, fun s k h => ⟨evaluationAt_lt h k, evaluationAt_range h k⟩⟩
  · have tune := shapeOf_tune mode day slot fits
    refine ⟨fun four align => ?_, fun four align => ?_, fun four align => ?_, fun four align => ?_⟩
    · refine evaluationAt_of_shape (tune.trans (if_neg four)) ?_
      simp only [releaseX, anchorOffset, if_pos align, Int.add_zero]
    · refine evaluationAt_of_shape (tune.trans (if_neg four)) ?_
      simp only [releaseX, anchorOffset, align, reduceCtorEq, if_false]
      omega
    · refine evaluationAt_of_shape (tune.trans (if_pos four)) ?_
      simp only [releaseX, anchorOffset, if_pos align, Int.add_zero, gapMs, hourFly, Nat.mul_comm s.cfg.clock.gap 100]
    · refine evaluationAt_of_shape (tune.trans (if_pos four)) ?_
      simp only [releaseX, anchorOffset, align, reduceCtorEq, if_false, gapMs, hourFly, Nat.mul_comm s.cfg.clock.gap 100]
      omega
  · exact evaluationAt_of_shape (shapeOf_bare bare) rfl
  · refine evaluationAt_of_shape ?_ rfl
    rcases none with off | ⟨hours, other⟩
    · exact shapeOf_off off
    · exact (shapeOf_hours hours).trans (if_neg other)
  · exact evaluationAt_of_shape (shapeOf_missing mode bare none) rfl

end

section
/-! The evaluation of the frontier quarter and the frontier loop (R110, R111, R114). -/

namespace Sys2Proof.Machine

/-! ### What an evaluation writes of the clock -/

/-- From `c` to `d` at most the day sheets and the early slot have changed, and TODAY's date stands. -/
structure SheetsWritten (c d : ClockUnit) : Prop where
  kept : d = { c with today := d.today, yesterday := d.yesterday, early := d.early }
  date : d.today.date = c.today.date

theorem SheetsWritten.rfl {c : ClockUnit} : SheetsWritten c c := ⟨Eq.refl c, Eq.refl _⟩

theorem SheetsWritten.frontier {c d : ClockUnit} (h : SheetsWritten c d) : d.frontier = c.frontier := by rw [h.kept]

theorem SheetsWritten.profiles {c d : ClockUnit} (h : SheetsWritten c d) : d.profiles = c.profiles := by rw [h.kept]

theorem SheetsWritten.trans {c d e : ClockUnit} (h : SheetsWritten c d) (k : SheetsWritten d e) : SheetsWritten c e where
  kept := by
    have kept := k.kept
    rw [h.profiles, h.frontier] at kept
    exact kept
  date := k.date.trans h.date

theorem onSheetSlot_sheets (f : SheetSlot → SheetSlot) (date k : Nat) (c : ClockUnit) :
    SheetsWritten c (onSheetSlot f date k c) := by
  unfold onSheetSlot
  split
  · exact ⟨Eq.refl _, Eq.refl _⟩
  · split
    · exact ⟨Eq.refl _, Eq.refl _⟩
    · split
      · split
        · exact ⟨Eq.refl _, Eq.refl _⟩
        · exact .rfl
      · exact .rfl

theorem writeOutcome_sheets (o : QuarterOutcome) (date k : Nat) (c : ClockUnit) : SheetsWritten c (writeOutcome o date k c) := by
  have early : SheetsWritten c (claimEarly date c) := by
    unfold claimEarly
    split
    · exact ⟨Eq.refl _, Eq.refl _⟩
    · exact .rfl
  exact early.trans (onSheetSlot_sheets _ _ _ _)

/-- Of the clock an admission writes the slot of a carried hour alone (R113). -/
theorem admitPerf_clock (p : Perf) (s : State) : (admitPerf p s).clock = match p.kind with
    | .clock c => if c.carried then writeLate c.date c.slot s.clock else s.clock
    | _ => s.clock := by
  have e : admitPerf p s = match p.kind with
      | .clock c => if c.carried then { admittedVoiced p s with clock := writeLate c.date c.slot (admittedVoiced p s).clock }
        else admittedVoiced p s
      | _ => admittedVoiced p s := rfl
  have voiced : (admittedVoiced p s).clock = s.clock := by rw [admittedVoiced_eq, admittedUnvoiced_eq]
  rw [e]
  split
  · split
    · exact congrArg (writeLate _ _) voiced
    · exact voiced
  · exact voiced

theorem createPerf_sheets (p : Perf) (s : State) : SheetsWritten s.clock (createPerf p s).1.clock := by
  have admitted : ∀ (q : Perf) (t : State), SheetsWritten t.clock (admitPerf q t).clock := by
    intro q t
    rw [admitPerf_clock]
    split
    · split
      · exact onSheetSlot_sheets _ _ _ _
      · exact .rfl
    · exact .rfl
  simp only [createPerf]
  repeat' split
  · exact .rfl
  · exact admitted (createdRecord p s) (tableGrown p s)
  · exact .rfl
  · exact .rfl

theorem recordQuarter_sheets (o : QuarterOutcome) (k : Nat) (s : State) : SheetsWritten s.clock (recordQuarter o k s).clock :=
  writeOutcome_sheets _ _ _ _

theorem soundQuarter_sheets (k : Nat) (sh : Shape) (b : Nat) (s : State) :
    SheetsWritten s.clock (soundQuarter k sh b s).clock := by
  have created := createPerf_sheets (clockPerf s k sh b) s
  unfold soundQuarter
  split
  all_goals
    next e =>
      rw [e] at created
      have recorded := fun o => created.trans (recordQuarter_sheets o k _)
      first
        | exact recorded _
        | (dsimp only
           split
           · exact (recorded _).trans (createPerf_sheets _ _)
           · exact recorded _)

theorem evaluateQuarter_sheets (k : Nat) (s : State) : SheetsWritten s.clock (evaluateQuarter k s).clock := by
  unfold evaluateQuarter
  dsimp only
  repeat' split
  all_goals first | exact recordQuarter_sheets _ _ _ | exact soundQuarter_sheets _ _ _ _

/-! ### The outcomes without a performance -/

theorem QuarterRecorded.of_eq {s : State} {o : QuarterOutcome}
    (h : evaluateQuarter s.clock.frontier s = recordQuarter o s.clock.frontier s) :
    QuarterRecorded s (evaluateFrontier s) o :=
  ⟨_, writeOutcome_written o _ _ s.clock,
    congrArg (fun t : State => { t with clock := { t.clock with frontier := s.clock.frontier + 1 } }) h⟩

theorem evaluateQuarter_skipped {k : Nat} {s : State} (h : earliestRelease s k ≤ s.localMs) :
    evaluateQuarter k s = recordQuarter .skipped k s := if_pos h

theorem evaluateQuarter_unset {k : Nat} {s : State} (ahead : (s.localMs : Int) < earliestRelease s k)
    (h : s.tb.set = false) : evaluateQuarter k s = recordQuarter .unset k s :=
  (if_neg (Int.not_le.mpr ahead)).trans (if_pos (by rw [h]; rfl))

theorem evaluateQuarter_off {k : Nat} {s : State} (ahead : (s.localMs : Int) < earliestRelease s k)
    (set : s.tb.set = true) (h : s.line.mode = .service ∨ shapeOf s k = .noneByMode) :
    evaluateQuarter k s = recordQuarter .off k s :=
  (if_neg (Int.not_le.mpr ahead)).trans ((if_neg (by rw [set]; decide)).trans (if_pos h))

/-- The time, the mode and the shape let a quarter come to its further checks (R111). -/
structure QuarterOpen (s : State) (k : Nat) : Prop where
  ahead : (s.localMs : Int) < earliestRelease s k
  set : s.tb.set = true
  run : s.line.mode = .run
  shape : shapeOf s k ≠ .noneByMode

theorem evaluateQuarter_open {k : Nat} {s : State} (h : QuarterOpen s k) : evaluateQuarter k s =
    if quarterSilenced s k then recordQuarter .silenced k s
    else if !masterInStep s then recordQuarter .withheld k s
    else if shapeOf s k = .noneMissing then recordQuarter .missing k s
    else if !strikesHours (shapeOf s k) then soundQuarter k (shapeOf s k) 0 s
    else
      match struckBell s with
      | none => recordQuarter .faulted k s
      | some b => soundQuarter k (shapeOf s k) b s :=
  (if_neg (Int.not_le.mpr h.ahead)).trans ((if_neg (by rw [h.set]; decide)).trans
    (if_neg fun k => k.elim (fun m => absurd (h.run.symm.trans m) (by decide)) h.shape))

theorem evaluateQuarter_silenced {k : Nat} {s : State} (h : QuarterOpen s k) (q : QuarterSilenced s k) :
    evaluateQuarter k s = recordQuarter .silenced k s :=
  (evaluateQuarter_open h).trans (if_pos (quarterSilenced_iff.mpr q))

theorem not_masterInStep {s : State} (h : ¬InStep s) : (!masterInStep s) = true := by
  cases e : masterInStep s with
  | false => rfl
  | true => exact absurd (masterInStep_iff.mp e) h

theorem evaluateQuarter_withheld {k : Nat} {s : State} (h : QuarterOpen s k) (q : ¬QuarterSilenced s k) (m : ¬InStep s) :
    evaluateQuarter k s = recordQuarter .withheld k s :=
  (evaluateQuarter_open h).trans ((if_neg fun e => q (quarterSilenced_iff.mp e)).trans (if_pos (not_masterInStep m)))

theorem evaluateQuarter_heard {k : Nat} {s : State} (h : QuarterOpen s k) (q : ¬QuarterSilenced s k) (m : InStep s) :
    evaluateQuarter k s = if shapeOf s k = .noneMissing then recordQuarter .missing k s
      else if !strikesHours (shapeOf s k) then soundQuarter k (shapeOf s k) 0 s
      else
        match struckBell s with
        | none => recordQuarter .faulted k s
        | some b => soundQuarter k (shapeOf s k) b s :=
  (evaluateQuarter_open h).trans ((if_neg fun e => q (quarterSilenced_iff.mp e)).trans
    (if_neg (by rw [masterInStep_iff.mpr m]; decide)))

theorem struckBell_none {s : State} (h : ∀ b, ¬StrikesOn s b) : struckBell s = none := by
  cases e : struckBell s with
  | none => rfl
  | some b => exact absurd (struckBell_iff.mp e) (h b)

theorem StrikesHours.some {sh : Shape} (h : StrikesHours sh) : sh ≠ .noneMissing ∧ ¬(!strikesHours sh) = true := by
  refine ⟨?_, by rw [strikesHours_iff.mpr h]; decide⟩
  rcases h with rfl | ⟨n, d, e, rfl⟩ <;> nofun

theorem evaluateQuarter_faulted {k : Nat} {s : State} (h : QuarterOpen s k) (q : ¬QuarterSilenced s k) (m : InStep s)
    (hours : StrikesHours (shapeOf s k)) (none : ∀ b, ¬StrikesOn s b) :
    evaluateQuarter k s = recordQuarter .faulted k s := by
  rw [evaluateQuarter_heard h q m, if_neg hours.some.1, if_neg hours.some.2, struckBell_none none]

/-! ### The frontier loop -/

/-- From `s` to `t` some evaluations have gone by, `n` of them (R110). -/
structure Evaluated (s t : State) (n : Nat) : Prop where
  tb : t.tb = s.tb
  cfg : t.cfg = s.cfg
  profiles : t.clock.profiles = s.clock.profiles
  frontier : t.clock.frontier = s.clock.frontier + n

theorem Evaluated.zero {s : State} : Evaluated s s 0 := ⟨rfl, rfl, rfl, rfl⟩

theorem evaluateFrontier_evaluated (s : State) : Evaluated s (evaluateFrontier s) 1 where
  tb := (evaluateFrontier_struck s).tb
  cfg := (evaluateFrontier_struck s).cfg
  profiles := (evaluateQuarter_sheets s.clock.frontier s).profiles
  frontier := rfl

theorem Evaluated.next {s t : State} {n : Nat} (h : Evaluated s t n) : Evaluated s (evaluateFrontier t) (n + 1) where
  tb := (evaluateFrontier_evaluated t).tb.trans h.tb
  cfg := (evaluateFrontier_evaluated t).cfg.trans h.cfg
  profiles := (evaluateFrontier_evaluated t).profiles.trans h.profiles
  frontier := (evaluateFrontier_evaluated t).frontier.trans (by rw [h.frontier]; rfl)

theorem evaluated_repeat (s : State) (n : Nat) : Evaluated s (Nat.repeat evaluateFrontier n s) n := by
  induction n with
  | zero => exact .zero
  | succ n ih => exact ih.next

theorem repeat_shift {α : Type} (f : α → α) (n : Nat) (a : α) : Nat.repeat f n (f a) = Nat.repeat f (n + 1) a := by
  induction n with
  | zero => rfl
  | succ n ih => exact congrArg f ih

/-- The rounds evaluate while the frontier's instant is reached, and stop at the first that is not, or for want of fuel. -/
theorem frontierRounds_repeats (fuel : Nat) (s : State) : ∃ n, n ≤ fuel ∧ frontierRounds fuel s = Nat.repeat evaluateFrontier n s ∧
    (∀ i, i < n → frontierReached (Nat.repeat evaluateFrontier i s) = true) ∧
    (n < fuel → frontierReached (Nat.repeat evaluateFrontier n s) = false) := by
  induction fuel generalizing s with
  | zero => exact ⟨0, le_refl _, rfl, fun i h => absurd h (Nat.not_lt_zero i), fun h => absurd h (Nat.lt_irrefl 0)⟩
  | succ fuel ih =>
    cases e : frontierReached s with
    | false =>
      refine ⟨0, Nat.zero_le _, ?_, fun i h => absurd h (Nat.not_lt_zero i), fun _ => e⟩
      rw [frontierRounds, e]
      rfl
    | true =>
      obtain ⟨n, le, rounds, reached, stops⟩ := ih (evaluateFrontier s)
      refine ⟨n + 1, Nat.succ_le_succ le, ?_, fun i h => ?_, fun h => ?_⟩
      · rw [frontierRounds, e, if_pos rfl, rounds, repeat_shift]
      · cases i with
        | zero => exact e
        | succ i => rw [← repeat_shift]; exact reached i (Nat.lt_of_succ_lt_succ h)
      · rw [← repeat_shift]; exact stops (Nat.lt_of_succ_lt_succ h)

theorem Evaluated.profilesOk {s t : State} {n : Nat} (h : Evaluated s t n) (k : ProfilesOk s) : ProfilesOk t where
  hourBell := by
    simp only [State.bellCfg, h.cfg]
    exact k.hourBell
  offsets q m d e u r := k.offsets q m d e u (by rw [← r, State.profile, State.profile, h.profiles])

theorem Evaluated.localMs {s t : State} {n : Nat} (h : Evaluated s t n) : t.localMs = s.localMs := by
  simp only [State.localMs, State.localUs, State.localSecs, State.offset, h.tb, h.cfg]

/-- The instant of a quarter that lies more than one quarter ahead is not reached (R109). -/
theorem frontier_ahead {s : State} (h : ProfilesOk s) (sub : s.tb.sub ≤ 1000000)
    (far : s.localSecs / 900 + 2 ≤ s.clock.frontier) : (s.localMs : Int) < evaluationAt s s.clock.frontier := by
  have low := (evaluationAt_range h s.clock.frontier).1
  have now : s.localMs ≤ 1000 * s.localSecs + 1000 := by
    simp only [State.localMs, State.localUs]
    omega
  omega

theorem frontierLoop_repeats {s : State} (on : s.power.phase = .on) (h : ProfilesOk s) (sub : s.tb.sub ≤ 1000000) :
    ∃ n, frontierLoop s = Nat.repeat evaluateFrontier n s ∧
      (∀ i, i < n → let w := Nat.repeat evaluateFrontier i s
        evaluationAt w w.clock.frontier ≤ w.localMs) ∧
      let w := Nat.repeat evaluateFrontier n s
      (w.localMs : Int) < evaluationAt w w.clock.frontier := by
  obtain ⟨n, le, rounds, reached, stops⟩ := frontierRounds_repeats (s.localSecs / 900 + 2 - s.clock.frontier) s
  have went := evaluated_repeat s n
  refine ⟨n, (if_pos on).trans rounds, fun i hi => of_decide_eq_true (reached i hi), ?_⟩
  by_cases more : n < s.localSecs / 900 + 2 - s.clock.frontier
  · exact Int.not_le.mp (of_decide_eq_false (stops more))
  · refine frontier_ahead (went.profilesOk h) (by rw [went.tb]; exact sub) ?_
    have secs : (Nat.repeat evaluateFrontier n s).localSecs = s.localSecs := by
      simp only [State.localSecs, State.offset, went.tb, went.cfg]
    rw [secs, went.frontier]
    omega

end Sys2Proof.Machine

open Sys2Proof Sys2Proof.Machine

/-- Settles O38. -/
theorem quarterEvaluationAdvances : Obligations.QuarterEvaluationAdvances := by
  unfold Obligations.QuarterEvaluationAdvances
  refine ⟨fun d s u due reach => ?_, fun s => ⟨fun late => .of_eq (evaluateQuarter_skipped late), fun ahead =>
    ⟨fun unset => .of_eq (evaluateQuarter_unset ahead unset), fun set h => .of_eq (evaluateQuarter_off ahead set h),
      fun set run shape => ?_⟩⟩, fun s on h sub => frontierLoop_repeats on h sub⟩
  · have on : u.power.phase = .on := by
      rw [reachUs_power reach]
      unfold quarterDue at due
      split at due
      next h => exact h
      next => cases due
    have struck := evaluateFrontier_struck u
    exact ⟨timed_becomes (body := evaluateFrontier) due reach on rfl struck.power, rfl, struck.cfg, struck.tb, struck.ref,
      struck.cal, struck.dials, struck.drives, struck.sched⟩
  · have opened : QuarterOpen s s.clock.frontier := ⟨ahead, set, run, shape⟩
    refine ⟨fun q => .of_eq (evaluateQuarter_silenced opened q), fun q m => .of_eq (evaluateQuarter_withheld opened q m),
      fun q m missing => .of_eq ((evaluateQuarter_heard opened q m).trans (if_pos missing)),
      fun q m hours none => .of_eq (evaluateQuarter_faulted opened q m hours none)⟩

end

section
/-! Quarters that sound, yield and are carried (R108, R109, R112, R113). -/

namespace Sys2Proof.Machine

/-! ### The records of quarters -/

theorem shapeOf_bareHour {s : State} {k : Nat} (h : shapeOf s k = .hourOnly) : quarterNo k = 4 := by
  cases mode : s.cfg.clock.mode with
  | off => rw [shapeOf_off mode] at h; cases h
  | hoursOnly =>
    rw [shapeOf_hours mode] at h
    split at h
    next four => exact four
    next => cases h
  | all =>
    by_cases bare : BareHour s.cfg.clock k
    · exact bare.1
    · rw [shapeOf_all mode bare] at h
      split at h
      · split at h
        · cases h
        · split at h <;> cases h
      · cases h

theorem anchorOffset_eq (c : ClockCfg) (k : Nat) (sh : Shape) :
    ((900000 * k : Nat) : Int) + anchorOffset c sh = quarterAnchor c k sh := by
  unfold quarterAnchor
  cases sh <;> cases h : c.align <;> simp [anchorOffset, h, gapMs, Nat.mul_comm c.gap 100]

/-- The record of a quarter's performance, with its hours on `b` (R108, R109). -/
theorem clockPerf_quarter {s : State} {k b : Nat} (missing : shapeOf s k ≠ .noneMissing) (mode : shapeOf s k ≠ .noneByMode) :
    QuarterPerf s k (shapeOf s k) b (clockPerf s k (shapeOf s k) b) := by
  obtain ⟨quarter, hour⟩ := shapeOf_sound (s := s) (k := k)
  have third : quarterNo k ≠ 4 → quarterNo k = k % 4 := fun h => by
    unfold quarterNo at *
    split at h
    · exact absurd rfl h
    next e => exact if_neg e
  cases sh : shapeOf s k with
  | noneByMode => exact absurd sh mode
  | noneMissing => exact absurd sh missing
  | hourOnly =>
    refine ⟨⟨rfl, rfl, rfl, rfl⟩, fun n d e h => ?_, fun _ _ _ h => (by cases h), fun _ _ _ h => (by cases h),
      fun _ => ⟨rfl, rfl, rfl, _, rfl, shapeOf_bareHour sh, rfl, rfl, rfl, rfl, rfl, Nat.mul_comm _ _, rfl, rfl⟩⟩
    rcases h with h | h <;> cases h
  | quarter n d e =>
    refine ⟨⟨rfl, rfl, rfl, rfl⟩, fun _ _ _ h => ?_, fun _ _ _ h => ?_, fun _ _ _ h => (by cases h), fun h => (by cases h)⟩
    · rcases h with h | h <;> cases h
      exact ⟨rfl, rfl, rfl⟩
    · cases h
      exact ⟨rfl, rfl, _, rfl, third (quarter n d e sh).1, rfl, rfl, rfl, rfl, rfl⟩
  | fullHour n d e =>
    refine ⟨⟨rfl, rfl, rfl, rfl⟩, fun _ _ _ h => ?_, fun _ _ _ h => (by cases h), fun _ _ _ h => ?_, fun h => (by cases h)⟩
    · rcases h with h | h <;> cases h
      exact ⟨rfl, rfl, rfl⟩
    · cases h
      exact ⟨rfl, rfl, _, rfl, (hour n d e sh).1, rfl, rfl, rfl, rfl,
        congrArg (d + ·) (Nat.mul_comm _ _), Nat.mul_comm _ _, rfl, rfl⟩

/-- The carried hour's record is that of an hour alone, but for its mark and its wait (R113). -/
theorem carriedPerf_quarter {s : State} (k b : Nat) : QuarterPerf s k .hourOnly b { carriedPerf s k b with
    kind := match (carriedPerf s k b).kind with | .clock y => .clock { y with carried := false } | y => y, wait := 0 } := by
  refine ⟨⟨rfl, rfl, rfl, rfl⟩, fun _ _ _ h => ?_, fun _ _ _ h => (by cases h), fun _ _ _ h => (by cases h),
    fun _ => ⟨rfl, rfl, rfl, _, rfl, rfl, rfl, rfl, rfl, rfl, rfl, Nat.mul_comm _ _, rfl, rfl⟩⟩
  rcases h with h | h <;> cases h

/-! ### Admission at once, but for a carried hour's slot -/

/-- What a creation that fits leaves, but for the day sheets: the performance admitted at once (R83). -/
theorem admitPerf_at_once {p : Perf} {s : State} (room : s.perfs.length < 12) {u : State}
    (h : u = { admitPerf (createdRecord p s) (tableGrown p s) with clock := s.clock }) :
    u.line = s.line ∧ AdmittedAtOnce s u p.bells p.level (p.anchor.getD (s.now + p.lead + 100))
        (if needsVoice p.kind then firstFree s else none) ∧
      u.perf (nextId s) = some (admittedRecord (createdRecord p s) s) := by
  have fresh := (nextId_fresh (s := s) (by omega)).1
  have got : (tableGrown p s).perf (nextId s) = some (createdRecord p s) := perf_append (p := createdRecord p s) fresh
  have record := admitPerf_record (p := createdRecord p s) got
  have frame := (admitPerf_frame (createdRecord p s) (tableGrown p s)).1
  have order := admitPerf_order (createdRecord p s) (tableGrown p s)
  have others : ∀ id, id ≠ nextId s → (admitPerf (createdRecord p s) (tableGrown p s)).perf id = s.perf id := fun id ne =>
    (admitPerf_other (p := createdRecord p s) (s := tableGrown p s) ne).trans (perf_append_ne (p := createdRecord p s) ne)
  have bells : ∀ b, unitOk 24 b = true → _ := fun b hb => admitPerf_bell (p := createdRecord p s) (s := tableGrown p s) hb
  have voices : ∀ w, unitOk 4 w = true → _ := fun w hw => admitPerf_voice (p := createdRecord p s) (s := tableGrown p s) hw
  generalize admitPerf (createdRecord p s) (tableGrown p s) = a at *
  subst h
  have line : a.line = s.line := by rw [frame]; rfl
  refine ⟨line, ⟨⟨_, record, rfl, rfl, rfl, rfl, rfl, rfl, rfl⟩, others, bells, fun w e => ?_, fun w hw e => ?_, ?_⟩, record⟩
  · have unit : unitOk 4 w = true := by
      split at e
      · exact firstFree_ok e
      · cases e
    exact (voices w unit).1 e
  · exact (voices w hw).2 e
  · rw [order] at frame
    rw [frame]
    rfl

/-- What an admission at once does, of a state whose sheets have been written before it. -/
theorem AdmittedAtOnce.clock {s u : State} {c : ClockUnit} {bells : BellSet} {level anchor : Nat} {v : Option Nat}
    (h : AdmittedAtOnce { s with clock := c } u bells level anchor v) :
    AdmittedAtOnce s { u with clock := s.clock } bells level anchor v where
  record := h.record
  others := h.others
  claims := h.claims
  taken := h.taken
  free := h.free
  kept := congrArg (fun x : State => { x with clock := s.clock }) h.kept

theorem canAdmit_closed {p : Perf} {s : State} (voiced : needsVoice p.kind = true)
    (h : claimsOpen s p.level p.bells = false ∨ firstFree s = none) : canAdmit s p = false := by
  rw [canAdmit, voiced]
  rcases h with h | h
  · rw [h]; rfl
  · rw [h, Bool.not_true, Option.isSome_none, Bool.or_self, Bool.and_false, Bool.false_and]

theorem canAdmit_fits {p : Perf} {s : State} (h : claimsOpen s p.level p.bells = true) (v : firstFree s ≠ none)
    (c : carryPasses s p.kind = true) : canAdmit s p = true := by
  rw [canAdmit, h, c, Option.isSome_iff_ne_none.mpr v, Bool.or_true]
  rfl

/-! ### Sounding -/

theorem clockPerf_kind (s : State) (k : Nat) (sh : Shape) (b : Nat) :
    ∃ x, (clockPerf s k sh b).kind = .clock x ∧ x.carried = false := by
  cases sh <;> exact ⟨_, rfl, rfl⟩

theorem clockPerf_anchor (s : State) (k : Nat) (sh : Shape) (b : Nat) :
    (clockPerf s k sh b).anchor = some (((s.now : Int) + quarterAnchor s.cfg.clock k sh - s.localMs).toNat) := by
  rw [← anchorOffset_eq]
  cases sh <;> rfl

theorem clockPerf_given (s : State) (k : Nat) (sh : Shape) (b : Nat) :
    (clockPerf s k sh b).wait = 0 ∧ (clockPerf s k sh b).scene = s.cfg.clock.scene := by
  cases sh <;> exact ⟨rfl, rfl⟩

theorem soundQuarter_full {s : State} {k b : Nat} {sh : Shape} (h : 12 ≤ s.perfs.length) :
    soundQuarter k sh b s = recordQuarter .yielded k s := by
  rw [soundQuarter, createPerf_full h]

theorem soundQuarter_admitted {s : State} {k b : Nat} {sh : Shape} (room : s.perfs.length < 12)
    (can : canAdmit s (clockPerf s k sh b) = true) : soundQuarter k sh b s = recordQuarter .sounded k
      (admitPerf (createdRecord (clockPerf s k sh b) s) (tableGrown (clockPerf s k sh b) s)) := by
  rw [soundQuarter, (createPerf_room room).1 can]

theorem soundQuarter_yielded {s : State} {k b : Nat} {sh : Shape} (room : s.perfs.length < 12)
    (can : canAdmit s (clockPerf s k sh b) = false) : soundQuarter k sh b s =
      if s.cfg.clock.carry && strikesHours sh then
        (createPerf (carriedPerf s k b) (recordQuarter .yielded k { s with lastId := nextId s })).1
      else recordQuarter .yielded k { s with lastId := nextId s } := by
  rw [soundQuarter, (createPerf_room room).2.2 can (clockPerf_given s k sh b).1]
  rfl

/-- A quarter that passes its checks sounds, its hours on the struck bell (R111, R112). -/
theorem evaluateQuarter_sounds {s : State} {k b : Nat} (h : QuarterPasses s k) (mode : shapeOf s k ≠ .noneByMode)
    (missing : shapeOf s k ≠ .noneMissing) (on : StrikesHours (shapeOf s k) → StrikesOn s b) :
    ∃ struck, evaluateQuarter k s = soundQuarter k (shapeOf s k) struck s ∧ (StrikesHours (shapeOf s k) → struck = b) := by
  have heard := evaluateQuarter_heard ⟨h.ahead, h.set, h.run, mode⟩ h.heard h.step
  rw [if_neg missing] at heard
  by_cases hours : StrikesHours (shapeOf s k)
  · refine ⟨b, heard.trans ((if_neg hours.some.2).trans ?_), fun _ => rfl⟩
    rw [struckBell_iff.mpr (on hours)]
  · refine ⟨0, heard.trans (if_pos ?_), fun k => absurd k hours⟩
    cases e : strikesHours (shapeOf s k) with
    | false => rfl
    | true => exact absurd (strikesHours_iff.mp e) hours

/-- Of a quarter that strikes no hours the struck bell is no part of the record. -/
theorem QuarterPerf.struck {s : State} {k a b : Nat} {sh : Shape} {p : Perf} (h : QuarterPerf s k sh a p)
    (e : StrikesHours sh → a = b) : QuarterPerf s k sh b p := by
  by_cases hours : StrikesHours sh
  · exact e hours ▸ h
  · exact ⟨h.common, h.chime, h.quarter, fun n d x k => absurd (.inr ⟨n, d, x, k⟩) hours,
      fun k => absurd (.inl k) hours⟩

/-- The late mark of a yielded quarter (R113, R114). -/
theorem writeLate_yielded (date k : Nat) (u : unitOk 96 (k + 1) = true) (c : ClockUnit) :
    writeLate date k (writeOutcome .yielded date k c) = writeOutcome .late date k c := by
  unfold writeLate writeOutcome
  generalize claimEarly date c = d
  unfold onSheetSlot
  by_cases today : d.today.date = some date
  · simp only [today, if_true, onSlot]
    rw [rd_wr_same u, wr_wr]
  · by_cases yesterday : d.yesterday.date = some date
    · simp only [today, yesterday, if_true, if_false, onSlot]
      rw [rd_wr_same u, wr_wr]
    · rcases early : d.early with _ | ⟨e, x⟩
      · simp only [today, yesterday, if_false, early]
      · by_cases k : e = date
        · simp only [today, yesterday, if_false, k, if_true]
        · simp only [today, yesterday, if_false, k, early]

/-- The state with the frontier at the quarter after `k` (R110). -/
def advanced (k : Nat) (s : State) : State := { s with clock := { s.clock with frontier := k + 1 } }

theorem evaluateFrontier_eq {s t : State} (h : evaluateQuarter s.clock.frontier s = t) :
    evaluateFrontier s = advanced s.clock.frontier t := by
  subst h; rfl

theorem QuarterRecorded.of_id {s : State} {o : QuarterOutcome} {j : Nat}
    (h : evaluateQuarter s.clock.frontier s = recordQuarter o s.clock.frontier { s with lastId := j }) :
    QuarterRecorded { s with lastId := j } (evaluateFrontier s) o :=
  ⟨_, writeOutcome_written o _ _ s.clock, evaluateFrontier_eq h⟩

theorem admitted_plain_clock {p : Perf} {s : State} {y : ClockParams} (kind : p.kind = .clock y) (plain : y.carried = false) :
    (admitPerf (createdRecord p s) (tableGrown p s)).clock = s.clock := by
  have kind' : (createdRecord p s).kind = .clock y := kind
  rw [admitPerf_clock, kind']
  dsimp only
  rw [plain]
  rfl

theorem admitted_carried_clock {p : Perf} {s : State} {y : ClockParams} (kind : p.kind = .clock y) (carried : y.carried = true) :
    (admitPerf (createdRecord p s) (tableGrown p s)).clock = writeLate y.date y.slot s.clock := by
  have kind' : (createdRecord p s).kind = .clock y := kind
  rw [admitPerf_clock, kind']
  dsimp only
  rw [carried]
  rfl

end Sys2Proof.Machine

open Sys2Proof Sys2Proof.Machine

/-- Settles O39. -/
theorem quartersSoundYieldAndCarry : Obligations.QuartersSoundYieldAndCarry := by
  unfold Obligations.QuartersSoundYieldAndCarry
  intro s b k sh t level recorded passes mode missing on
  obtain ⟨struck, sounds, same⟩ := evaluateQuarter_sounds passes mode missing on
  have slotUnit : unitOk 96 (k % 96 + 1) = true :=
    unitOk_iff.mpr ⟨Nat.le_add_left _ _, Nat.succ_le_of_lt (Nat.mod_lt _ (by decide))⟩
  refine ⟨fun full => .of_eq (sounds.trans (soundQuarter_full full)), fun room => ?_⟩
  obtain ⟨y, kind, plain⟩ := clockPerf_kind s k sh struck
  have voiced : needsVoice (clockPerf s k sh struck).kind = true := by rw [kind]; rfl
  have anchorIs := clockPerf_anchor s k sh struck
  have levelIs := clockPerf_level s k sh struck
  refine ⟨clockPerf s k sh struck, (clockPerf_quarter missing mode).struck same, fun v openClaims free => ?_, fun closed => ?_⟩
  · have carry : carryPasses s (clockPerf s k sh struck).kind = true := by rw [kind, carryPasses, plain]; rfl
    have can := canAdmit_fits (levelIs.symm ▸ openClaims) (by rw [free]; nofun) carry
    have made : t = _ := evaluateFrontier_eq (sounds.trans (soundQuarter_admitted room can))
    have clock := admitted_plain_clock (s := s) kind plain
    obtain ⟨line, once, record⟩ := admitPerf_at_once (p := clockPerf s k sh struck) room rfl
    rw [voiced, if_pos rfl, free, anchorIs, levelIs] at once
    have recordIs := admittedRecord_of (p := createdRecord (clockPerf s k sh struck) s) (s := s) (v := some v)
      ((if_pos voiced).trans free)
    generalize admitPerf (createdRecord (clockPerf s k sh struck) s) (tableGrown (clockPerf s k sh struck) s) = a at *
    clear_value t
    subst made
    refine ⟨once, line, record.trans (congrArg some (recordIs.trans ?_)), _, writeOutcome_written .sounded _ _ s.clock, ?_⟩
    · have anchor' : (createdRecord (clockPerf s k sh struck) s).anchor = _ := anchorIs
      rw [anchor']
      rfl
    · simp only [advanced, recordQuarter, clock]
      rfl
  · have can := canAdmit_closed voiced (by rw [levelIs]; exact closed)
    have yielded := sounds.trans (soundQuarter_yielded room can)
    refine ⟨fun no => .of_id (yielded.trans (if_neg ?_)), fun carry hours => ?_⟩
    · rw [Bool.and_eq_true, strikesHours_iff]
      exact fun h => no.elim (fun c => absurd (c.symm.trans h.1) (by decide)) fun n => n h.2
    · have struckIs := same hours
      subst struckIs
      have made : t = _ := evaluateFrontier_eq (yielded.trans (if_pos (by rw [carry, strikesHours_iff.mpr hours]; rfl)))
      obtain ⟨sounding, waiting, -⟩ := createPerf_room (p := carriedPerf s k struck)
        (s := recordQuarter .yielded k { s with lastId := nextId s }) room
      have step : carryPasses s (carriedPerf s k struck).kind = true := masterInStep_iff.mpr passes.step
      have quarter := carriedPerf_quarter (s := s) k struck
      refine ⟨createdRecord (carriedPerf s k struck) (recordQuarter .yielded k { s with lastId := nextId s }),
        ⟨quarter.common, quarter.chime, quarter.quarter, quarter.fullHour, quarter.hourOnly⟩, ⟨_, rfl, rfl⟩,
        fun v openClaims free => ?_, fun shut => ?_⟩
      · have fits : canAdmit (recordQuarter .yielded k { s with lastId := nextId s }) (carriedPerf s k struck) = true :=
          canAdmit_fits (p := carriedPerf s k struck) (s := s) openClaims (by rw [free]; nofun) step
        have clock := admitted_carried_clock (p := carriedPerf s k struck)
          (s := recordQuarter .yielded k { s with lastId := nextId s }) rfl rfl
        obtain ⟨line, once, record⟩ := admitPerf_at_once (p := carriedPerf s k struck)
          (s := recordQuarter .yielded k { s with lastId := nextId s }) room rfl
        rw [sounding fits] at made
        have recordIs := admittedRecord_of (v := some v)
          (p := createdRecord (carriedPerf s k struck) (recordQuarter .yielded k { s with lastId := nextId s }))
          (s := recordQuarter .yielded k { s with lastId := nextId s }) free
        generalize admitPerf (createdRecord (carriedPerf s k struck) (recordQuarter .yielded k { s with lastId := nextId s }))
          (tableGrown (carriedPerf s k struck) (recordQuarter .yielded k { s with lastId := nextId s })) = a at *
        have late : a.clock = writeOutcome .late (k / 96 % 73049) (k % 96) s.clock :=
          clock.trans (writeLate_yielded _ _ slotUnit _)
        have voice : (if needsVoice (carriedPerf s k struck).kind then
            firstFree (recordQuarter .yielded k { s with lastId := nextId s }) else none) = some v := free
        rw [voice] at once
        clear_value t
        subst made
        refine ⟨once.clock (s := { s with lastId := nextId s }), line, record.trans (congrArg some recordIs), _,
          writeOutcome_written .late _ _ s.clock, ?_⟩
        simp only [advanced, late]
        rfl
      · have fits : canAdmit (recordQuarter .yielded k { s with lastId := nextId s }) (carriedPerf s k struck) = false :=
          canAdmit_closed (p := carriedPerf s k struck) (s := s) rfl shut
        rw [waiting fits (show 0 < 600 by decide)] at made
        clear_value t
        subst made
        exact ⟨rfl, rfl, rfl, rfl, rfl, rfl, ⟨_, writeOutcome_written .yielded _ _ s.clock, rfl⟩, rfl⟩

end

section
/-! Scenes join and leave the performance layer (R93, R177). -/

namespace Sys2Proof.Machine

/-- An insertion stands right before the first element that it precedes. -/
theorem insertBy_split {α : Type} (lt : α → α → Bool) (a : α) (l : List α) : ∃ r t, l = r ++ t ∧
    insertBy lt a l = r ++ a :: t ∧ (∀ y ∈ r, lt a y = false) ∧ ∀ y, t.head? = some y → lt a y = true := by
  induction l with
  | nil => exact ⟨[], [], rfl, rfl, fun _ h => absurd h List.not_mem_nil, fun _ h => by cases h⟩
  | cons b l ih =>
    unfold insertBy
    split
    next less =>
      refine ⟨[], b :: l, rfl, rfl, fun _ h => absurd h List.not_mem_nil, fun y h => ?_⟩
      cases h
      exact less
    next less =>
      obtain ⟨r, t, parts, grown, before, after⟩ := ih
      refine ⟨b :: r, t, by rw [parts]; rfl, by rw [grown]; rfl, fun y h => ?_, after⟩
      rcases List.mem_cons.mp h with rfl | h
      · exact Bool.not_eq_true _ ▸ less
      · exact before y h

theorem contribLt_iff (a b : Contribution) :
    contribLt a b = true ↔ a.level < b.level ∨ (a.level = b.level ∧ a.order < b.order) := by
  simp [contribLt]

theorem ScenesBecome.read {s t t' : State} {l : List Contribution} {fade : Nat} (h : ScenesBecome s t l fade)
    (e : t'.lights = t.lights) : ScenesBecome s t' l fade where
  list := (congrArg Lights.contribs e).trans h.list
  values n u := by
    have same : t'.chan n = t.chan n := by rw [State.chan, e]; rfl
    rw [same]
    exact h.values n u
  conv := h.conv.read e

/-- A scene that joins takes its place in the order of level and admission (R177). -/
theorem SceneJoined.of_lights {s t : State} {id level order : Nat} {k : Option Nat}
    (h : t.lights = (joinScene id level order k s).lights) : SceneJoined s t id level order k where
  none e := by
    subst e
    exact h
  joins k e := by
    subst e
    obtain ⟨r, u, parts, grown, before, after⟩ := insertBy_split contribLt
      { perf := id, level := level, order := order, scene := s.scene k } s.lights.contribs
    have become := setContribs_become (insertBy contribLt
      { perf := id, level := level, order := order, scene := s.scene k } s.lights.contribs) (s.scene k).fade s
    refine ⟨r, u, parts, fun y hy j => ?_, fun y hy => (contribLt_iff _ y).mp (after y hy), ?_⟩
    · have := before y hy
      rw [(contribLt_iff _ y).mpr j] at this
      cases this
    · rw [← grown]
      exact become.read h

/-- A creation that fits joins its scene (R93). -/
theorem created_joins (p : Perf) (s : State) :
    (admitPerf (createdRecord p s) (tableGrown p s)).lights = (joinScene (nextId s) p.level s.nextOrder p.scene s).lights :=
  (admitPerf_lights _ _).trans (joinScene_congr _ _ _ _ rfl rfl rfl)

/-- What a creation does to the lights (R93). -/
theorem createPerf_scene {p : Perf} {s u : State} {r : Created} (h : createPerf p s = (u, r)) :
    (∀ id, r = .admitted id → SceneJoined s u id p.level s.nextOrder p.scene) ∧
      ((∀ id, r ≠ .admitted id) → u.lights = s.lights) := by
  by_cases room : s.perfs.length < 12
  · obtain ⟨admitted, waits, yields⟩ := createPerf_room (p := p) room
    cases can : canAdmit s p with
    | true =>
      obtain ⟨rfl, rfl⟩ := Prod.mk.inj ((admitted can).symm.trans h)
      refine ⟨fun id e => ?_, fun no => absurd rfl (no _)⟩
      cases e
      exact .of_lights (created_joins p s)
    | false =>
      by_cases w : p.wait = 0
      · obtain ⟨rfl, rfl⟩ := Prod.mk.inj ((yields can w).symm.trans h)
        exact ⟨fun id e => (by cases e), fun _ => rfl⟩
      · obtain ⟨rfl, rfl⟩ := Prod.mk.inj ((waits can (Nat.pos_of_ne_zero w)).symm.trans h)
        exact ⟨fun id e => (by cases e), fun _ => rfl⟩
  · obtain ⟨rfl, rfl⟩ := Prod.mk.inj ((createPerf_full (p := p) (Nat.not_lt.mp room)).symm.trans h)
    exact ⟨fun id e => (by cases e), fun _ => rfl⟩

/-- A line's creation that is admitted at once joins its scene (R93). -/
theorem line_joins {i : Instr} {act : State → State × Reply} {p : Perf} {s : State} (take : canTake i s = true)
    (w : i.wellFormed = true)
    (e : ∀ l : Line, l.mode = s.line.mode → act { s with line := l } = createFromLine p { s with line := l })
    (room : s.perfs.length < 12) (k : ∀ c, p.kind = .clock c → c.carried = false)
    (c : claimsOpen s p.level p.bells = true) (v : needsVoice p.kind = true → firstFree s ≠ none) :
    ∃ u, request i act s = .next u ∧ SceneJoined s u (nextId s) p.level s.nextOrder p.scene := by
  have admitted := (createPerf_room (p := p) (s := { s with line := (arrived i s).line }) room).1 (canAdmit_of k c v)
  have frame := (admitPerf_frame (createdRecord p s) (tableGrown p { s with line := (arrived i s).line })).1
  have joins : (admitPerf (createdRecord p s) (tableGrown p { s with line := (arrived i s).line })).lights =
      (joinScene (nextId s) p.level s.nextOrder p.scene s).lights :=
    (created_joins p { s with line := (arrived i s).line }).trans (joinScene_congr _ _ _ _ rfl rfl rfl)
  have acts : act (arrived i s) = (admitPerf (createdRecord p s) (tableGrown p { s with line := (arrived i s).line }),
      createdReply (.admitted (nextId s))) := by
    rw [arrived_eq, e _ (arrived_mode i s), createFromLine, admitted]
    rfl
  generalize admitPerf (createdRecord p s) (tableGrown p { s with line := (arrived i s).line }) = a at *
  have power : a.power = s.power := by rw [frame]; rfl
  exact ⟨_, request_taken take w acts power, .of_lights joins⟩

/-! ### Leaving -/

theorem leaveScene_congr (id : Nat) {s t : State} (h : s.lights = t.lights) (n : s.tb = t.tb) :
    (leaveScene id s).lights = (leaveScene id t).lights := by
  unfold leaveScene
  rw [h]
  split
  · exact h
  · exact setContribs_congr _ _ h n

theorem closePerf_lights {id : Nat} {o : PerfOutcome} {s : State} {p : Perf} (h : s.perf id = some p) :
    (closePerf id o s).lights = (leaveScene id s).lights := by
  have lit := (leaveScene_lights id (releaseVoice id (removeClaims id s))).2.2
  have got : (leaveScene id (releaseVoice id (removeClaims id s))).perf id = some p := by rw [lit]; exact h
  have left : (closePerf id o s).lights = (leaveScene id (releaseVoice id (removeClaims id s))).lights := by
    rw [closePerf, leave_line got]
  exact left.trans (leaveScene_congr id rfl rfl)

theorem leaveScene_found {id : Nat} {s : State} {x : Contribution}
    (h : s.lights.contribs.find? (fun y => decide (y.perf = id)) = some x) :
    ScenesBecome s (leaveScene id s) (s.lights.contribs.filter fun y => decide (y.perf ≠ id)) x.scene.fade := by
  unfold leaveScene
  rw [h]
  exact setContribs_become _ _ s

/-- An offer round to nobody changes nothing (R74). -/
theorem offerRound_none {s : State} (h : ∀ q ∈ s.perfs, q.state ≠ .waiting) : offerRound s = s := by
  have none : s.perfs.filter (fun p => decide (p.state = .waiting)) = [] :=
    List.filter_eq_nil_iff.mpr fun q hq => by simpa using h q hq
  unfold offerRound
  rw [none]
  rfl

/-! ### Quarters -/

/-- The records of a quarter have one bell set (R108). -/
theorem QuarterPerf.bells_eq {s : State} {k b : Nat} {sh : Shape} {p q : Perf} (h : QuarterPerf s k sh b p)
    (g : QuarterPerf s k sh b q) (mode : sh ≠ .noneByMode) (missing : sh ≠ .noneMissing) : p.bells = q.bells := by
  cases sh with
  | noneByMode => exact absurd rfl mode
  | noneMissing => exact absurd rfl missing
  | hourOnly => exact (h.hourOnly rfl).1.trans (g.hourOnly rfl).1.symm
  | quarter n d e => exact (h.quarter n d e rfl).1.trans (g.quarter n d e rfl).1.symm
  | fullHour n d e => exact (h.fullHour n d e rfl).1.trans (g.fullHour n d e rfl).1.symm

/-- A quarter that sounds, or is carried at once, joins the clock's scene (R93, R111). -/
theorem quarter_joins {s : State} {b : Nat} {p : Perf} (passes : QuarterPasses s s.clock.frontier)
    (mode : shapeOf s s.clock.frontier ≠ .noneByMode) (missing : shapeOf s s.clock.frontier ≠ .noneMissing)
    (on : StrikesHours (shapeOf s s.clock.frontier) → StrikesOn s b)
    (perf : QuarterPerf s s.clock.frontier (shapeOf s s.clock.frontier) b p) (room : s.perfs.length < 12)
    (free : firstFree s ≠ none) :
    (claimsOpen s s.cfg.levels.clock p.bells = true →
      SceneJoined s (evaluateFrontier s) (nextId s) s.cfg.levels.clock s.nextOrder s.cfg.clock.scene) ∧
    (claimsOpen s s.cfg.levels.clock p.bells = false → s.cfg.clock.carry = true →
      StrikesHours (shapeOf s s.clock.frontier) → claimsOpen s s.cfg.levels.clock (bellOne b) = true →
      SceneJoined s (evaluateFrontier s) (nextId { s with lastId := nextId s }) s.cfg.levels.clock s.nextOrder
        s.cfg.clock.scene) := by
  obtain ⟨struck, sounds, same⟩ := evaluateQuarter_sounds passes mode missing on
  obtain ⟨y, kind, plain⟩ := clockPerf_kind s s.clock.frontier (shapeOf s s.clock.frontier) struck
  have levelIs := clockPerf_level s s.clock.frontier (shapeOf s s.clock.frontier) struck
  have sceneIs := (clockPerf_given s s.clock.frontier (shapeOf s s.clock.frontier) struck).2
  rw [perf.bells_eq ((clockPerf_quarter missing mode).struck same) mode missing, ← levelIs, ← sceneIs]
  refine ⟨fun opens => ?_, fun closed carry hours opens => ?_⟩
  · have can := canAdmit_fits opens free (by rw [kind, carryPasses, plain]; rfl)
    rw [evaluateFrontier_eq (sounds.trans (soundQuarter_admitted room can))]
    exact .of_lights (created_joins _ s)
  · obtain rfl := same hours
    have can := canAdmit_closed (by rw [kind]; rfl) (.inl closed)
    rw [levelIs] at opens
    have carried := (createPerf_room (p := carriedPerf s s.clock.frontier struck)
      (s := recordQuarter .yielded s.clock.frontier { s with lastId := nextId s }) room).1
      (canAdmit_fits (p := carriedPerf s s.clock.frontier struck) (s := s) opens free (masterInStep_iff.mpr passes.step))
    have evaluated := sounds.trans ((soundQuarter_yielded room can).trans
      (if_pos (by rw [carry, strikesHours_iff.mpr hours]; rfl)))
    rw [carried] at evaluated
    rw [evaluateFrontier_eq evaluated, levelIs, sceneIs]
    refine .of_lights ((created_joins (carriedPerf s s.clock.frontier struck)
      (recordQuarter .yielded s.clock.frontier { s with lastId := nextId s })).trans ?_)
    exact joinScene_congr _ _ _ _ rfl rfl rfl

end Sys2Proof.Machine

open Sys2Proof Sys2Proof.Machine

/-- Settles O36. -/
theorem scenesJoinAndLeave : Obligations.ScenesJoinAndLeave := by
  unfold Obligations.ScenesJoinAndLeave
  refine ⟨fun b interval count i wait scene s take unit few sc room claims free => ?_,
    fun n scale wait scene s take unit sc closed room claims free => ?_,
    fun s b p passes mode missing on perf room free => quarter_joins passes mode missing on perf room free,
    fun p s u r h => createPerf_scene h, fun s q got waits fits => ?_, fun id d s u unit due reach none => ?_⟩
  · exact line_joins (act := tollAct b interval count i wait scene)
      (p := tollPerf s b (clampN interval 10 600) count i (waitOf wait) scene .line) take rfl
      (fun l _ => tollAct_creates unit few sc) room nofun claims fun _ => free
  · obtain ⟨u, run, joins⟩ := line_joins (act := playAct n scale wait scene) (p := tunePerf s n (scaleOf scale) (waitOf wait) scene .line) take
      rfl (fun l _ => by
        rw [playAct, unit, sc]
        exact (if_neg (show ¬false = true by decide)).trans (if_neg (not_not_intro closed))) room nofun claims fun _ => free
    refine ⟨u, run, ?_⟩
    cases scene <;> exact joins
  · rw [offerTo_fits got waits fits]
    exact .of_lights (admitPerf_lights q s)
  · obtain ⟨on, p, got⟩ := endDue_some due
    have got : u.perf id = some p := (reachUs_perf reach id).trans got
    have on : u.power.phase = .on := (reachUs_power reach).symm ▸ on
    have closed := closePerf_eq (o := endOutcome p) got
    have lit := closePerf_lights (o := endOutcome p) got
    have ended : performanceEnd id u = closePerf id (endOutcome p) u := by
      rw [performanceEnd_eq got]
      refine offerRound_none fun q hq => ?_
      rw [closed] at hq
      exact none q (List.mem_of_mem_filter hq)
    refine ⟨_, (ofUnit_ok unit).trans (timed_becomes (body := performanceEnd id) due reach on ended
      (congrArg State.power closed :)), fun x found => (leaveScene_found found).read lit, fun no => ?_⟩
    exact lit.trans (congrArg State.lights ((leaveScene_lights id u).2.1 no))

end

section
/-! The validation (R198). -/

namespace Sys2Proof.Machine

/-- In an ascending list the first element that a test picks is the least. -/
theorem find?_least {bad : Nat → Bool} {l : List Nat} {k : Nat} (asc : l.Pairwise (· < ·)) (mem : k ∈ l) (h : bad k = true)
    (least : ∀ j ∈ l, j < k → bad j = false) : l.find? bad = some k := by
  induction l with
  | nil => cases mem
  | cons a l ih =>
    obtain ⟨head, tail⟩ := List.pairwise_cons.mp asc
    rcases List.mem_cons.mp mem with rfl | mem
    · exact List.find?_cons_of_pos h
    · rw [List.find?_cons_of_neg (by rw [least a List.mem_cons_self (head k mem)]; decide)]
      exact ih tail mem fun j hj => least j (List.mem_cons_of_mem _ hj)

/-- An item that looks at the units in ascending order (R198). -/
theorem FirstBad.of_find {n : Nat} {ok : Nat → Prop} {bad : Nat → Bool} {detail : Nat → List Field} {l : List Nat}
    (asc : l.Pairwise (· < ·)) (mem : ∀ k, k ∈ l ↔ unitOk n k = true) (iff : ∀ k, bad k = true ↔ ¬ok k) :
    FirstBad n ok detail ((l.find? bad).map detail) where
  passes h := by
    rw [List.find?_eq_none.mpr fun k hk b => (iff k).mp b (h k ((mem k).mp hk))]
    rfl
  fails k u no least := by
    have good : ∀ j ∈ l, j < k → bad j = false := fun j hj lt => by
      cases b : bad j with
      | false => rfl
      | true => exact absurd (least j ((mem j).mp hj) lt) ((iff j).mp b)
    rw [find?_least asc ((mem k).mpr u) ((iff k).mpr no) good]
    rfl

theorem mem_allBells_iff {b : Nat} : b ∈ allBells ↔ unitOk 24 b = true := by
  refine ⟨fun h => ?_, mem_allBells⟩
  obtain ⟨i, hi, rfl⟩ := List.mem_map.mp h
  have := List.mem_range.mp hi
  exact unitOk_iff.mpr ⟨by omega, by omega⟩

theorem mem_dials_iff {n : Nat} : n ∈ [1, 2, 3, 4] ↔ unitOk 4 n = true := by
  rw [unitOk_iff]
  simp only [List.mem_cons, List.not_mem_nil, or_false]
  omega

theorem bellList_ascends (m : BellSet) : (bellList m).Pairwise (· < ·) := by
  refine List.Pairwise.filterMap _ ?_ List.pairwise_lt_range
  intro i j lt a ha b hb
  split at ha
  · split at hb
    · cases ha
      cases hb
      exact Nat.succ_lt_succ lt
    · cases hb
  · cases ha

/-- The quarters' item of the validation, or none out of mode ALL (R105, R106). -/
theorem validQuarters_eq (s : State) : validQuarters s = (if s.cfg.clock.mode = .all then
    [validQuarter s 1, validQuarter s 2, validQuarter s 3, validQuarter s 4] else []).findSome? id := by
  unfold validQuarters
  split
  · rfl
  · rfl

theorem validation_eq (s : State) : validation s =
    ([validSun s, validSummer s, validDial s, validRecovery s, validHourBell s] ++
      if s.cfg.clock.mode = .all then [validQuarter s 1, validQuarter s 2, validQuarter s 3, validQuarter s 4]
      else []).findSome? id := by
  rw [List.findSome?_append, ← validQuarters_eq]
  change ([validSun s, validSummer s, validDial s, validRecovery s, validHourBell s] ++ [validQuarters s]).findSome? id = _
  rw [List.findSome?_append]
  congr 1
  cases validQuarters s <;> rfl

theorem validSummer_eq (s : State) : validSummer s = if s.cfg.summer.offset ≠ 0 ∧ s.cfg.summer.start ≠ s.cfg.summer.stop ∧
    s.cfg.summer.start.month = s.cfg.summer.stop.month then some [.word "SUMMER"] else none := by
  unfold validSummer
  dsimp only
  congr 1
  simp [ruleInert, and_assoc]

theorem validRecovery_iff {c : BellCfg} : decide (c.recovery < max c.wSoft (max c.wNormal c.wStrong) + 20) = true ↔
    ¬(c.wSoft + 20 ≤ c.recovery ∧ c.wNormal + 20 ≤ c.recovery ∧ c.wStrong + 20 ≤ c.recovery) := by
  rw [decide_eq_true_eq]
  omega

theorem not_hammer {c : BellCfg} : (!c.hammer) = true ↔ c.hammer = false := by
  rw [Bool.not_eq_true']

/-- The quarter's slot is one of the store's, and CLOSED (R104). -/
def QuarterStored (s : State) (q : Nat) : Prop :=
  unitOk 64 (quarterSlot s.cfg.clock q) = true ∧ (s.slot (quarterSlot s.cfg.clock q)).state = .closed

theorem validQuarter_passed {s : State} {q : Nat} (h : unitOk 64 (quarterSlot s.cfg.clock q) = false ∨
    (s.slot (quarterSlot s.cfg.clock q)).state ≠ .closed) : validQuarter s q = none := by
  refine if_pos ?_
  rcases h with h | h
  · rw [h]; rfl
  · rw [decide_eq_true h, Bool.or_true]

theorem validQuarter_stored {s : State} {q : Nat} (h : QuarterStored s q) : validQuarter s q =
    match (bellList (s.slot (quarterSlot s.cfg.clock q)).bells).find? fun b => !(s.bellCfg b).hammer with
    | some b => some [.word "QUARTER", .num q, .word "HAMMER", .num b]
    | none =>
      match s.profile q with
      | .ready _ d _ => if overLimit s.cfg.clock q d then some [.word "QUARTER", .num q, .word "LENGTH"] else none
      | _ => some [.word "QUARTER", .num q, .word "BUILDING"] := by
  refine if_neg ?_
  rw [h.1, h.2]
  decide

end Sys2Proof.Machine

open Sys2Proof Sys2Proof.Machine

/-- Settles O57. -/
theorem validationNamesTheFirstFailure : Obligations.ValidationNamesTheFirstFailure := by
  unfold Obligations.ValidationNamesTheFirstFailure
  intro s
  refine ⟨validSun s, validSummer s, validDial s, validRecovery s, validHourBell s, validQuarter s, validation_eq s,
    FirstBad.of_find (l := allBells) (by decide) (fun _ => mem_allBells_iff) (fun k => ?_), validSummer_eq s,
    FirstBad.of_find (by decide) (fun _ => mem_dials_iff) (fun k => ?_),
    FirstBad.of_find (by decide) (fun _ => mem_allBells_iff) (fun k => validRecovery_iff),
    ⟨fun off => if_pos off, fun on bare => ?_, fun on fit unit bare => ?_, fun fit other => ?_⟩,
    fun q unit => ⟨validQuarter_passed, fun slot closed => ⟨fun b ub bare least => ?_, fun fit => ⟨fun building => ?_,
      fun k d e ready => ⟨fun long => ?_, fun short => ?_⟩⟩⟩⟩⟩
  · rw [decide_eq_true_eq, Nat.not_lt]
  · rw [decide_eq_true_eq, Nat.not_le]
  · exact (if_neg on).trans (if_pos (not_hammer.mpr bare))
  · exact (if_neg on).trans ((if_neg fun h => fit (not_hammer.mp h)).trans (if_pos (by rw [unit, not_hammer.mpr bare]; rfl)))
  · unfold validHourBell
    dsimp only
    split
    · rfl
    · rw [if_neg fun h => fit (not_hammer.mp h)]
      refine if_neg fun h => ?_
      obtain ⟨unit, bare⟩ := Bool.and_eq_true_iff.mp h
      exact other.elim (fun k => absurd (k.symm.trans unit) (by decide)) fun k => k (not_hammer.mp bare)
  all_goals rw [validQuarter_stored ⟨slot, closed⟩]
  · rw [find?_least (bellList_ascends _) (mem_bellList.mpr ⟨ub, bare.1⟩) (not_hammer.mpr bare.2) fun j hj lt => ?_]
    · rfl
    · obtain ⟨uj, inj⟩ := mem_bellList.mp hj
      cases h : (s.bellCfg j).hammer with
      | true => rfl
      | false => exact absurd ⟨inj, h⟩ (least j uj lt)
  all_goals
    have hammers : ((bellList (s.slot (quarterSlot s.cfg.clock q)).bells).find? fun b => !(s.bellCfg b).hammer) = none :=
      List.find?_eq_none.mpr fun b hb h => fit b (mem_bellList.mp hb).1 ⟨(mem_bellList.mp hb).2, not_hammer.mp h⟩
    rw [hammers]
    dsimp only
  · split
    next k d e ready => exact absurd ready (building k d e)
    next => rfl
  · rw [ready]
    exact if_pos (overLimit_iff.mpr (Nat.not_le.mpr long))
  · rw [ready]
    exact if_neg fun h => short (Nat.not_le.mp (overLimit_iff.mp h))

end

section
/-! The store's reads, the quarter profiles' builds and the configurations of the bells and the clock (R53, R103, R104, R107). -/

namespace Sys2Proof.Machine

/-! ### Reads -/

/-- The operation that a store at rest begins, and what it leaves of the reads (R142, R143). -/
theorem kick_begun (s : State) : ∃ st : Store, st.reads = s.store.reads ∧ st.op = s.store.op ∧ st.slots = s.store.slots ∧
    st.imgA = s.store.imgA ∧ st.imgB = s.store.imgB ∧ st.sectors = s.store.sectors ∧
    (kick s).store.op = (st.begun s.now).op ∧ (kick s).store.reads = (st.begun s.now).reads := by
  have joined := (joinResumptions_eq s.store s.store.resume).1
  have again := (joinResumptions_eq ((joinResumptions s.store s.store.resume).begun s.now)
    ((joinResumptions s.store s.store.resume).begun s.now).resume).1
  refine ⟨joinResumptions s.store s.store.resume, ?_, ?_, ?_, ?_, ?_, ?_, (congrArg Store.op again :),
    (congrArg Store.reads again :)⟩
  all_goals rw [joined]

theorem kick_busy {s : State} {x : Running × Nat} (h : s.store.op = some x) :
    (kick s).store.op = some x ∧ (kick s).store.reads = s.store.reads := by
  obtain ⟨st, reads, op, -, -, -, -, kop, kreads⟩ := kick_begun s
  have still : st.begun s.now = st := by
    unfold Store.begun
    rw [op, h]
  rw [kop, kreads, still]
  exact ⟨op.trans h, reads⟩

/-- A read that is asked for stands in the list or has begun (R143). -/
theorem kick_asked {s : State} {r : ReadReq} (h : r ∈ s.store.reads) : r ∈ (kick s).store.reads ∨
    ∃ (st : Store) (t : Nat), st.imgA = s.store.imgA ∧ st.imgB = s.store.imgB ∧
      (kick s).store.op = some (beginRead st r, t) := by
  obtain ⟨st, reads, op, -, imgA, imgB, -, kop, kreads⟩ := kick_begun s
  cases o : s.store.op with
  | some x => exact .inl ((kick_busy o).2 ▸ h)
  | none =>
    have rest : ∀ q l, st.reads = q :: l →
        st.begun s.now = { st with reads := l, op := some (beginRead st q, s.now + 2) } := by
      intro q l e
      unfold Store.begun
      rw [op, o]
      dsimp only
      rw [e]
    rw [← reads] at h
    cases e : st.reads with
    | nil => rw [e] at h; cases h
    | cons q l =>
      rw [kop, kreads, rest q l e]
      rw [e] at h
      rcases List.mem_cons.mp h with rfl | h
      · exact .inr ⟨st, _, imgA, imgB, rfl⟩
      · exact .inl h

/-- A page read for a quarter profile is asked for, or has begun (R107, R143). -/
def BuildAsked (st : Store) (r : ReadReq) : Prop := r ∈ st.reads ∨ ∃ es t, st.op = some (.read r es none, t)

theorem kick_build {s : State} {r : ReadReq} {q : Nat} (reader : r.reader = .build q) (h : BuildAsked s.store r) :
    BuildAsked (kick s).store r := by
  rcases h with h | ⟨es, t, h⟩
  · rcases kick_asked h with h | ⟨st, t, -, -, h⟩
    · exact .inl h
    · have begun : ∃ es, beginRead st r = .read r es none := by
        unfold beginRead
        rw [reader]
        dsimp only
        split <;> exact ⟨_, rfl⟩
      obtain ⟨es, e⟩ := begun
      exact .inr ⟨es, t, by rw [h, e]⟩
  · exact .inr ⟨es, t, (kick_busy h).1⟩

/-- Of the store only the reads and what waits go on from `s` to `t` (R142). -/
structure ReadsOn (s t : State) : Prop where
  state : t = { s with store := t.store }
  store : t.store = { s.store with
    serial := t.store.serial, reads := t.store.reads, op := t.store.op, queue := t.store.queue, resume := t.store.resume }
  serial : s.store.serial ≤ t.store.serial
  busy : ∀ x, s.store.op = some x → t.store.op = some x ∧ s.store.reads <+: t.store.reads
  asked : ∀ (r : ReadReq) (q : Nat), r.reader = .build q → BuildAsked s.store r → BuildAsked t.store r

theorem askRead_on (r : Reader) (slot page : Nat) (s : State) : ReadsOn s (askRead r slot page s).1 := by
  have frame := (kick_store { s with store := { s.store with
    serial := s.store.serial + 1
    reads := s.store.reads ++ [{ reader := r, serial := s.store.serial + 1, slot := slot, page := page }] } }).1
  refine ⟨rfl, ?_, ?_, fun x h => ?_, fun q n h a => kick_build h ?_⟩
  · refine frame.trans ?_
    rw [askRead]
    dsimp only
    rw [frame]
  · rw [askRead]
    dsimp only
    rw [frame]
    exact Nat.le_succ _
  · obtain ⟨op, reads⟩ := kick_busy (s := { s with store := { s.store with
      serial := s.store.serial + 1
      reads := s.store.reads ++ [{ reader := r, serial := s.store.serial + 1, slot := slot, page := page }] } }) h
    exact ⟨op, reads ▸ List.prefix_append _ _⟩
  · exact a.imp (List.mem_append_left _) id

theorem askRead_build (q slot page : Nat) (s : State) : BuildAsked (askRead (.build q) slot page s).1.store
    { reader := .build q, serial := s.store.serial + 1, slot := slot, page := page } :=
  kick_build (q := q) rfl (.inl (List.mem_append_right _ (List.mem_singleton.mpr rfl)))

/-! ### Builds of quarter profiles -/

/-- Quarter `q`'s profile has been started anew in `u` from `s` (R107). -/
structure ProfileMade (w : Bool) (s u : State) (q : Nat) : Prop where
  none : (unitOk 64 (quarterSlot s.cfg.clock q) = false ∨ (s.slot (quarterSlot s.cfg.clock q)).state ≠ .closed) →
    u.profile q = .none
  empty : QuarterStored s q → (s.slot (quarterSlot s.cfg.clock q)).pages = 0 → u.profile q = .ready 0 0 0
  building : QuarterStored s q → (s.slot (quarterSlot s.cfg.clock q)).pages ≠ 0 → ∃ k, s.store.serial < k ∧
    u.profile q = .building 0 k [] w ∧
    BuildAsked u.store { reader := .build q, serial := k, slot := quarterSlot s.cfg.clock q, page := 0 }

/-- The quarters of `l` have had their profiles started anew, and nothing else has changed (R107). -/
structure BuildsMade (w : Bool) (s u : State) (l : List Nat) : Prop where
  state : u = { s with clock := { s.clock with profiles := u.clock.profiles }, store := u.store }
  reads : ReadsOn s { s with store := u.store }
  made : ∀ q ∈ l, ProfileMade w s u q

theorem ReadsOn.rfl {s : State} : ReadsOn s s :=
  ⟨Eq.refl _, Eq.refl _, Nat.le_refl _, fun _ h => ⟨h, List.prefix_rfl⟩, fun _ _ _ h => h⟩

theorem ReadsOn.trans {s t u : State} (h : ReadsOn s t) (k : ReadsOn t u) : ReadsOn s u where
  state := by rw [k.state, h.state]
  store := by rw [k.store, h.store]
  serial := Nat.le_trans h.serial k.serial
  busy x e := ⟨(k.busy x (h.busy x e).1).1, (h.busy x e).2.trans (k.busy x (h.busy x e).1).2⟩
  asked r q e a := k.asked r q e (h.asked r q e a)

/-- Reads go on alike whatever stands outside the store. -/
theorem ReadsOn.of_store {s t s' t' : State} (h : ReadsOn s t) (a : s'.store = s.store) (b : t'.store = t.store)
    (e : t' = { s' with store := t'.store }) : ReadsOn s' t' where
  state := e
  store := by rw [b, a]; exact h.store
  serial := by rw [b, a]; exact h.serial
  busy := by rw [b, a]; exact h.busy
  asked := by rw [b, a]; exact h.asked

theorem profileOf_empty {s : State} {n : Nat} : profileOf s n [] = .ready 0 0 0 := by
  have zero : ∀ a b, stepTime 0 a b = 0 := fun a b => by rw [stepTime, Nat.mul_zero, Nat.zero_div]
  unfold profileOf
  dsimp only
  rw [List.take_nil]
  exact congrArg (fun d => Profile.ready 0 d 0) (zero _ _)

theorem startBuild_none {w : Bool} {u : State} {q : Nat} (h : unitOk 64 (quarterSlot u.cfg.clock q) = false ∨
    (u.slot (quarterSlot u.cfg.clock q)).state ≠ .closed) : startBuild w u q = setProfile q .none u := by
  refine if_pos ?_
  rcases h with h | h
  · rw [h]; rfl
  · rw [decide_eq_true h, Bool.or_true]

theorem startBuild_empty {w : Bool} {u : State} {q : Nat} (h : QuarterStored u q)
    (e : (u.slot (quarterSlot u.cfg.clock q)).pages = 0) : startBuild w u q = setProfile q (.ready 0 0 0) u := by
  rw [← profileOf_empty (s := u) (n := quarterSlot u.cfg.clock q)]
  refine (if_neg ?_).trans (if_pos e)
  rw [h.1, h.2]
  decide

theorem startBuild_reads {w : Bool} {u : State} {q : Nat} (h : QuarterStored u q)
    (e : (u.slot (quarterSlot u.cfg.clock q)).pages ≠ 0) : startBuild w u q =
      setProfile q (.building 0 (u.store.serial + 1) [] w) (askRead (.build q) (quarterSlot u.cfg.clock q) 0 u).1 := by
  refine (if_neg ?_).trans (if_neg e)
  rw [h.1, h.2]
  decide

theorem profile_setProfile_ne {q k : Nat} {x : Profile} {s : State} (h : unitOk 4 k = true) (ne : k ≠ q) :
    (setProfile q x s).profile k = s.profile k := rd_wr_ne (unitOk_iff.mp h).1 ne

/-- One build more: its own quarter's profile is new, and the others' stand. -/
theorem BuildsMade.step {w : Bool} {s u v : State} {l : List Nat} {q : Nat} {x : Profile} (h : BuildsMade w s u l)
    (fresh : q ∉ l) (units : ∀ k ∈ l, unitOk 4 k = true) (on : ReadsOn u v) (clock : v.clock = u.clock)
    (made : ProfileMade w s (setProfile q x v) q) : BuildsMade w s (setProfile q x v) (q :: l) where
  state := by
    have state := on.state
    have before := h.state
    simp only [setProfile]
    rw [clock]
    generalize v.store = st at state
    subst state
    rw [before]
  reads := h.reads.trans (on.of_store rfl rfl rfl)
  made k hk := by
    rcases List.mem_cons.mp hk with rfl | hk
    · exact made
    · have old := h.made k hk
      have ne : k ≠ q := fun e => fresh (e ▸ hk)
      have same : (setProfile q x v).profile k = u.profile k :=
        (profile_setProfile_ne (units k hk) ne).trans (by rw [State.profile, clock]; rfl)
      refine ⟨fun c => same.trans (old.none c), fun c e => same.trans (old.empty c e), fun c e => ?_⟩
      obtain ⟨j, lt, building, asked⟩ := old.building c e
      exact ⟨j, lt, same.trans building, on.asked _ k rfl asked⟩

theorem startBuild_made {w : Bool} {s u : State} {l : List Nat} {q : Nat} (h : BuildsMade w s u l) (unit : unitOk 4 q = true)
    (fresh : q ∉ l) (units : ∀ k ∈ l, unitOk 4 k = true) : BuildsMade w s (startBuild w u q) (q :: l) := by
  have cfg : u.cfg = s.cfg := by rw [h.state]
  have slot : ∀ n, u.slot n = s.slot n := fun n => by
    have e : u.store.slots = s.store.slots := by
      rw [show u.store = _ from h.reads.store]
    rw [State.slot, State.slot, e]
  have stored : QuarterStored s q → QuarterStored u q := fun k => by
    unfold QuarterStored at *
    rw [cfg, slot]
    exact k
  by_cases ok : QuarterStored s q
  · by_cases pages : (s.slot (quarterSlot s.cfg.clock q)).pages = 0
    · rw [startBuild_empty (stored ok) (by rw [cfg, slot]; exact pages)]
      exact h.step fresh units .rfl rfl ⟨fun no => absurd ok fun k => no.elim
        (fun j => absurd (j.symm.trans k.1) (by decide)) fun j => j k.2, fun _ _ => profile_setProfile unit,
        fun _ e => absurd pages e⟩
    · rw [startBuild_reads (stored ok) (by rw [cfg, slot]; exact pages), cfg]
      refine h.step fresh units (askRead_on _ _ _ u) rfl ⟨fun no => absurd ok fun k => no.elim
        (fun j => absurd (j.symm.trans k.1) (by decide)) fun j => j k.2, fun _ e => absurd e pages, fun _ _ => ?_⟩
      exact ⟨_, Nat.lt_succ_of_le h.reads.serial, profile_setProfile unit, askRead_build q _ _ u⟩
  · have no : unitOk 64 (quarterSlot s.cfg.clock q) = false ∨ (s.slot (quarterSlot s.cfg.clock q)).state ≠ .closed := by
      by_cases unit : unitOk 64 (quarterSlot s.cfg.clock q) = true
      · exact .inr fun c => ok ⟨unit, c⟩
      · exact .inl (Bool.not_eq_true _ ▸ unit)
    rw [startBuild_none (by rw [cfg, slot]; exact no)]
    exact h.step fresh units .rfl rfl ⟨fun _ => profile_setProfile unit, fun k => absurd k ok, fun k => absurd k ok⟩

/-- All four quarter profiles are started anew (R107). -/
theorem startBuilds_made (w : Bool) (s : State) : BuildsMade w s (startBuilds w s) [4, 3, 2, 1] := by
  have none : BuildsMade w s s [] := ⟨rfl, .rfl, fun _ h => absurd h List.not_mem_nil⟩
  have one := startBuild_made none (q := 1) rfl (by decide) (by decide)
  have two := startBuild_made one (q := 2) rfl (by decide) (by decide)
  have three := startBuild_made two (q := 3) rfl (by decide) (by decide)
  exact startBuild_made three (q := 4) rfl (by decide) (by decide)

/-! ### The frontier loop in SERVICE -/

theorem evaluateQuarter_service {s : State} (h : s.line.mode = .service) (k : Nat) :
    ∃ o, evaluateQuarter k s = recordQuarter o k s := by
  unfold evaluateQuarter
  dsimp only
  split
  · exact ⟨_, rfl⟩
  · split
    · exact ⟨_, rfl⟩
    · exact ⟨_, if_pos (.inl h)⟩

/-- In SERVICE the frontier loop writes outcomes and moves the frontier, and does nothing where no instant is reached (R110,
R111). -/
theorem frontierLoop_service {s : State} (h : s.line.mode = .service) : ∃ c, frontierLoop s = { s with clock := c } ∧
    c.profiles = s.clock.profiles ∧ s.clock.frontier ≤ c.frontier ∧ (frontierReached s = false → c = s.clock) := by
  have rounds : ∀ (fuel : Nat) (s : State), s.line.mode = .service → ∃ c, frontierRounds fuel s = { s with clock := c } ∧
      c.profiles = s.clock.profiles ∧ s.clock.frontier ≤ c.frontier ∧ (frontierReached s = false → c = s.clock) := by
    intro fuel
    induction fuel with
    | zero => exact fun s _ => ⟨s.clock, rfl, rfl, Nat.le_refl _, fun _ => rfl⟩
    | succ fuel ih =>
      intro s h
      cases e : frontierReached s with
      | false =>
        refine ⟨s.clock, ?_, rfl, Nat.le_refl _, fun _ => rfl⟩
        rw [frontierRounds, e]
        rfl
      | true =>
        obtain ⟨o, recorded⟩ := evaluateQuarter_service h s.clock.frontier
        have evaluated := evaluateFrontier_eq recorded
        obtain ⟨c, run, profiles, frontier, -⟩ := ih (evaluateFrontier s) (by rw [evaluated]; exact h)
        refine ⟨c, ?_, ?_, Nat.le_trans (Nat.le_succ _) frontier, nofun⟩
        · rw [frontierRounds, e, if_pos rfl, run, evaluated]
          rfl
        · exact profiles.trans (evaluateFrontier_evaluated s).profiles
  unfold frontierLoop
  split
  · exact rounds _ s h
  · exact ⟨s.clock, rfl, rfl, Nat.le_refl _, fun _ => rfl⟩

/-- The profiles rebuilt from the settings in force, and the loop run, in SERVICE (R107, R110). -/
theorem shapeOf_congr {s t : State} (cfg : s.cfg = t.cfg) (profiles : s.clock.profiles = t.clock.profiles) (k : Nat) :
    shapeOf s k = shapeOf t k := by
  unfold shapeOf State.profile
  rw [cfg, profiles]

theorem evaluationAt_congr {s t : State} (cfg : s.cfg = t.cfg) (profiles : s.clock.profiles = t.clock.profiles) (k : Nat) :
    evaluationAt s k = evaluationAt t k := by
  unfold evaluationAt earliestRelease hourFly State.bellCfg
  rw [shapeOf_congr cfg profiles, cfg]

theorem rebuilt_service {s v : State} (mode : v.line.mode = .service) (slots : v.store = s.store) (clock : v.clock = s.clock)
    (time : v.localMs = s.localMs) : ∃ u, frontierLoop (startBuilds false v) = u ∧ ProfilesRebuilt s u ∧
      u = { v with clock := u.clock, store := u.store } := by
  have made := startBuilds_made false v
  have frame := made.state
  obtain ⟨c, run, profiles, frontier, still⟩ := frontierLoop_service (s := startBuilds false v) (by rw [frame]; exact mode)
  have reads := made.reads
  have builds := made.made
  generalize startBuilds false v = b at *
  have slot : ∀ n, v.slot n = s.slot n := fun n => by rw [State.slot, slots]; rfl
  have cfg : b.cfg = v.cfg := by rw [frame]
  have stored : ∀ q, unitOk 64 (quarterSlot v.cfg.clock q) = true → (s.slot (quarterSlot v.cfg.clock q)).state = .closed →
      QuarterStored v q := fun q u c => ⟨u, (slot _).symm ▸ c⟩
  have same : ∀ q, ({ b with clock := c } : State).profile q = b.profile q := fun q => by
    rw [State.profile, State.profile, profiles]
  have unit : ∀ q, unitOk 4 q = true → q ∈ [4, 3, 2, 1] := fun q h => by
    have := mem_dials_iff.mpr h
    simp only [List.mem_cons, List.not_mem_nil, or_false] at this ⊢
    tauto
  refine ⟨_, run, ?_, by rw [frame]⟩
  refine ⟨fun q h no => ?_, fun q h u closed none => ?_, fun q h u closed pages => ?_, ?_, fun x op => ?_, fun ahead => ?_, ?_⟩
  · rw [cfg] at no
    exact (same q).trans ((builds q (unit q h)).none (no.imp id fun k => (slot _).symm ▸ k))
  · rw [cfg] at u closed none
    exact (same q).trans ((builds q (unit q h)).empty (stored q u closed) ((slot _).symm ▸ none))
  · rw [cfg] at u closed pages ⊢
    obtain ⟨k, lt, building, asked⟩ := (builds q (unit q h)).building (stored q u closed) ((slot _).symm ▸ pages)
    exact ⟨k, slots ▸ lt, (same q).trans building, asked⟩
  · rw [← slots]
    exact reads.store
  · rw [← slots] at op ⊢
    exact reads.busy x op
  · have e : c = b.clock := still (decide_eq_false (Int.not_le.mpr ?_))
    · subst e
      rw [frame, clock]
    · have now : b.localMs = s.localMs := by rw [frame]; exact time
      have front : b.clock.frontier = s.clock.frontier := by rw [frame, clock]
      rw [now, front]
      exact lt_of_lt_of_eq ahead (evaluationAt_congr (s := { b with clock := c }) (t := b) rfl profiles _)
  · exact (by rw [frame, clock] : b.clock.frontier = s.clock.frontier) ▸ frontier

/-- A configuration request that rebuilds the quarter profiles and runs the loop (R107, R110). -/
theorem request_rebuilds {i : Instr} {act : State → State × Reply} {s v : State} (take : canTake i s = true)
    (w : i.wellFormed = true) (service : s.line.mode = .service) (store : v.store = s.store) (clock : v.clock = s.clock)
    (time : v.localMs = s.localMs) (power : v.power = s.power)
    (e : ∀ l : Line, l.mode = .service →
      act { s with line := l } = (frontierLoop (startBuilds false { v with line := l }), .ok [])) :
    ∃ u, request i act s = .next u ∧ ProfilesRebuilt s u ∧
      u = { v with clock := u.clock, store := u.store, line := replyLine i s (.ok []) } := by
  have mode := (arrived_mode i s).trans service
  obtain ⟨u, run, built, frame⟩ := rebuilt_service (s := s) (v := { v with line := (arrived i s).line }) mode store clock time
  have does := e _ mode
  rw [← arrived_eq, run] at does
  have taken := request_taken take w does (by rw [frame]; exact power)
  have line : u.line = (arrived i s).line := by rw [frame]
  rw [line] at taken
  refine ⟨_, taken, ⟨built.none, built.empty, built.building, built.store, built.reads, fun ahead => built.sheets ?_,
    built.frontier⟩, ?_⟩
  · exact lt_of_lt_of_eq ahead (evaluationAt_congr rfl rfl _)
  · generalize u.clock = c at frame
    generalize u.store = st at frame
    subst frame
    rfl

/-! ### A bell's configuration -/

/-- A configuration write by its two loosened fields (R53). -/
theorem reconfigured_eq (x : Bell) (old new : BellCfg) : x.reconfigured old new =
    let unfit := (old.confirm && !new.confirm) || (old.hammer && !new.hammer)
    let miss := if unfit then 0 else x.miss
    { x with
      windows := if unfit then [] else x.windows
      miss := if new.missLimit ≤ miss then new.missLimit - 1 else miss
      held := x.held.map fun h => { h with due := max h.due (x.last.getD 0 + new.recovery) } } := by
  have unfit : ((old.confirm ∧ !new.confirm) ∨ (old.hammer ∧ !new.hammer)) ↔
      ((old.confirm && !new.confirm) || (old.hammer && !new.hammer)) = true := by
    rw [Bool.or_eq_true, Bool.and_eq_true, Bool.and_eq_true]
  unfold Bell.reconfigured
  dsimp only
  by_cases h : ((old.confirm && !new.confirm) || (old.hammer && !new.hammer)) = true
  · rw [if_pos (unfit.mpr h), if_pos h, if_pos h]
    split <;> rfl
  · rw [if_neg (unfit.not.mpr h), if_neg h, if_neg h]
    split <;> rfl

theorem clampBell_eq (c : BellCfg) : clampBell c = { c with
    fSoft := min (max c.fSoft 20) 400, fNormal := min (max c.fNormal 20) 400, fStrong := min (max c.fStrong 20) 400
    wSoft := min (max c.wSoft 10) 200, wNormal := min (max c.wNormal 10) 200, wStrong := min (max c.wStrong 10) 200
    recovery := min (max c.recovery 60) 2000, crowd := min c.crowd 250, half := min (max c.half 5) 100
    missLimit := min (max c.missLimit 1) 8 } := by
  rw [clampBell, clampN_zero]
  rfl

end Sys2Proof.Machine

open Sys2Proof Sys2Proof.Machine

/-- Settles O24. -/
theorem bellAndClockConfigurations : Obligations.BellAndClockConfigurations := by
  refine ⟨fun b c s take mode name unit drive => ?_, fun c s take mode ok => ?_, fun l s take mode swing toll clock tune => ?_⟩
  · rw [← clampBell_eq]
    dsimp only
    have record := reconfigured_eq (s.bell b) (s.bellCfg b) (clampBell c)
    refine request_rebuilds (s := s) (i := .bellConfig b c) (act := bellConfigAct b c)
      (v := setBell b ((s.bell b).reconfigured (s.bellCfg b) (clampBell c))
        { s with cfg := { s.cfg with bells := wr s.cfg.bells b (clampBell c) } })
      take name mode rfl rfl rfl rfl (fun l service => ?_) |>.imp fun u h => ⟨h.1, h.2.1, h.2.2.trans ?_⟩
    · refine (serviceOnly_service service).trans (if_pos ?_)
      rw [unit, decide_eq_true drive]
      rfl
    · rw [record]
      rfl
  · refine request_rebuilds (s := s) (i := .clockConfig c) (act := clockConfigAct c)
      (v := { s with cfg := { s.cfg with clock := clampClock c } }) take rfl mode rfl rfl rfl rfl fun l service => ?_
    exact (serviceOnly_service service).trans (if_pos ok)
  · refine request_does (i := .clockLevels l) (act := clockLevelsAct l)
      (t := { s with cfg := { s.cfg with levels := l } }) take rfl fun x service => ?_
    refine (serviceOnly_service (service.trans mode)).trans (if_pos ?_)
    rw [decide_eq_true swing, decide_eq_true toll, decide_eq_true clock, decide_eq_true tune]
    rfl

end

section
/-! The Tune Store's requests (R146 to R149, R152, R199). -/

namespace Sys2Proof.Machine

/-! ### What joins the operation queue -/

/-- Entries that join the queue of a store with no held resumption stand behind those already there (R142). -/
theorem enqueue_entries {t : State} (l : List QueueOp) (h : t.store.resume = []) :
    (enqueue l t).store.entries = t.store.entries ++ l :=
  (kick_entries { t with store := { t.store with queue := t.store.queue ++ l } } h).2.trans (entries_append t.store l)

theorem enqueue_store (l : List QueueOp) (t : State) : (enqueue l t).store = { t.store with
    op := (enqueue l t).store.op, queue := (enqueue l t).store.queue, reads := (enqueue l t).store.reads
    resume := (enqueue l t).store.resume } :=
  (kick_store { t with store := { t.store with queue := t.store.queue ++ l } }).1

theorem enqueue_slots (l : List QueueOp) (t : State) : (enqueue l t).store.slots = t.store.slots :=
  (congrArg Store.slots (enqueue_store l t) :)

theorem enqueue_slot (l : List QueueOp) (t : State) (n : Nat) : (enqueue l t).slot n = t.slot n :=
  congrArg (fun v => rd v n emptyEntry) (enqueue_slots l t)

theorem enqueue_load (l : List QueueOp) (t : State) : (enqueue l t).store.load = t.store.load :=
  (congrArg Store.load (enqueue_store l t) :)

theorem enqueue_free (l : List QueueOp) (t : State) : (enqueue l t).store.free = t.store.free :=
  (congrArg Store.free (enqueue_store l t) :)

theorem slot_setSlot_ne {n m : Nat} {x : DirEntry} {s : State} (h : unitOk 64 m = true) (ne : m ≠ n) :
    (setSlot n x s).slot m = s.slot m := rd_wr_ne (unitOk_iff.mp h).1 ne

/-- A request whose effect ends with entries that join the queue. -/
theorem request_enqueues {i : Instr} {act : State → State × Reply} {s t : State} {r : Reply} (ops : List QueueOp)
    (take : canTake i s = true) (w : i.wellFormed = true) (p : t.power = s.power)
    (e : ∀ l : Line, act { s with line := l } = (enqueue ops { t with line := l }, r)) :
    request i act s = .next { enqueue ops t with line := replyLine i s r } :=
  request_does (t := enqueue ops t) take w (fun l _ => e l) p

/-! ### SLOT OPEN -/

/-- The slot and the loading record of a load that has begun (R146). -/
def opened (n tempo division : Nat) (scene : Option Nat) (title : String) (s : State) : State :=
  let t := setSlot n { emptyEntry with
    state := .writing, title := title, tempo := tempo, division := division, scene := scene } s
  let l : Loading := { slot := n, page := 0, part := 1, received := 0, bells := 0#24, openPage := [], ended := false }
  { t with store := { t.store with load := some l } }

theorem slotOpenAct_eq {n tempo division : Nat} {scene : Option Nat} {title : String} {s : State} (unit : unitOk 64 n = true)
    (low : 20 ≤ tempo) (high : tempo ≤ 240) (div : divisionOk division = true) (sceneOk : sceneOk scene = true)
    (empty : (s.slot n).state = .empty) (load : s.store.load = none) (room : hasRoom 1 s = true) :
    slotOpenAct n tempo division scene title s =
      (enqueue [.dirWrite n .plain] (opened n tempo division scene title s), .ok []) := by
  refine (if_neg ?_).trans ((if_neg (not_not_intro empty)).trans ((if_neg ?_).trans ((if_neg ?_).trans rfl)))
  · rw [unit, div, sceneOk, decide_eq_false (Nat.not_lt.mpr low), decide_eq_false (Nat.not_lt.mpr high)]
    decide
  · rw [load]
    decide
  · rw [room]
    decide

/-! ### PAGE -/

theorem loadingOf_own {s : State} {l : Loading} (h : s.store.load = some l) : loadingOf s l.slot = some l := by
  rw [loadingOf, h, Option.filter_some_pos]
  exact decide_eq_true rfl

/-- The loading record after a part (R147). -/
theorem joined_eq {l : Loading} {part k : Nat} {es : List Event} (going : l.ended = false) (page : l.page = k) :
    l.joined part es = { l with
      received := l.received + es.length
      bells := es.foldl (fun m e => m ||| e.bells) l.bells
      ended := decide (es.length < 8)
      page := if part = 4 then k + 1 else k
      part := if part = 4 then 1 else part + 1
      openPage := if part = 4 then [] else l.openPage ++ es } := by
  subst page
  unfold Loading.joined
  rw [going, Bool.false_or]
  dsimp only
  by_cases h : part = 4
  · rw [if_pos h, if_pos h, if_pos h, if_pos h]
  · rw [if_neg h, if_neg h, if_neg h, if_neg h]

/-- The sector that a page takes where it begins one, and the loading record as it then stands (R141, R147). -/
def partTaken (n k part : Nat) (m : Loading) (s : State) : State :=
  let t := if newSector k part then allocate n s else s
  { t with store := { t.store with load := some m } }

/-- What a part adds to the operation queue (R147). -/
def partOps (n k part : Nat) (es : List Event) (t : State) : List QueueOp :=
  (if newSector k part then [QueueOp.dirWrite n .plain] else []) ++ if part = 4 then programOf t n k es else []

theorem allocate_line (n : Nat) (s : State) (l : Line) :
    allocate n { s with line := l } = { allocate n s with line := l } := by
  unfold allocate
  dsimp only
  cases s.store.free <;> rfl

theorem partTaken_line (n k part : Nat) (m : Loading) (s : State) (l : Line) :
    partTaken n k part m { s with line := l } = { partTaken n k part m s with line := l } := by
  unfold partTaken
  rw [allocate_line]
  cases newSector k part <;> rfl

theorem allocate_frame (n : Nat) (s : State) : allocate n s = { s with store := (allocate n s).store } ∧
    (allocate n s).store.resume = s.store.resume ∧ (allocate n s).store.entries = s.store.entries := by
  unfold allocate
  cases s.store.free <;> exact ⟨rfl, rfl, rfl⟩

theorem partTaken_frame (n k part : Nat) (m : Loading) (s : State) :
    partTaken n k part m s = { s with store := (partTaken n k part m s).store } ∧
      (partTaken n k part m s).store.resume = s.store.resume ∧
      (partTaken n k part m s).store.entries = s.store.entries := by
  obtain ⟨frame, resume, entries⟩ := allocate_frame n s
  unfold partTaken
  cases newSector k part
  · exact ⟨rfl, rfl, rfl⟩
  · refine ⟨?_, resume, entries⟩
    dsimp only
    rw [if_pos rfl, frame]

theorem partTaken_sector {n k part : Nat} {m : Loading} {s : State} {sec : Nat} {free : List Nat}
    (h : newSector k part = true) (e : s.store.free = sec :: free) : partTaken n k part m s =
      { s with store := { s.store with
        slots := wr s.store.slots n { s.slot n with sectors := (s.slot n).sectors ++ [sec] }
        free := free, load := some m } } := by
  unfold partTaken allocate
  rw [if_pos h, e]
  rfl

theorem partTaken_on {n k part : Nat} {m : Loading} {s : State} (h : newSector k part = false) :
    partTaken n k part m s = { s with store := { s.store with load := some m } } := by
  unfold partTaken
  rw [h]
  rfl

theorem programOf_placed {t : State} {n k sec : Nat} {es : List Event} (h : (t.slot n).sectors[k / 16]? = some sec) :
    programOf t n k es = [.program n sec (k % 16) (es ++ List.replicate (32 - es.length) Event.empty)] := by
  unfold programOf placeOf
  rw [h]
  rfl

theorem pageAct_eq {n k part : Nat} {words : List EventWord} {s : State} {l : Loading} (unit : unitOk 64 n = true)
    (load : s.store.load = some l) (slot : l.slot = n) (going : l.ended = false) (page : l.page = k) (at' : l.part = part)
    (high : k ≤ 255) (parts : unitOk 4 part = true)
    (room : newSector k part = true ∨ part = 4 → hasRoom 1 s = true)
    (space : newSector k part = true → (s.slot n).sectors.length < 4 ∧ s.store.free ≠ []) :
    pageAct n k part words s =
      (enqueue (partOps n k part (l.openPage ++ words.map Event.ofWord)
          (partTaken n k part (l.joined part (words.map Event.ofWord)) s))
        (partTaken n k part (l.joined part (words.map Event.ofWord)) s),
        .ok [.num (l.joined part (words.map Event.ofWord)).received]) := by
  have found : loadingOf s n = some l := slot ▸ loadingOf_own load
  unfold pageAct
  refine (if_neg ?_).trans ?_
  · rw [unit, parts, decide_eq_false (Nat.not_lt.mpr high)]
    decide
  · rw [found]
    refine (if_neg ?_).trans ((if_neg ?_).trans ((if_neg ?_).trans rfl))
    · rw [going, decide_eq_false (not_not_intro page), decide_eq_false (not_not_intro at')]
      decide
    · rw [Bool.and_eq_true, Bool.or_eq_true, decide_eq_true_eq, List.isEmpty_iff]
      rintro ⟨h, full | none⟩
      · exact absurd full (Nat.not_le.mpr (space h).1)
      · exact (space h).2 none
    · rw [Bool.and_eq_true, Bool.or_eq_true, decide_eq_true_eq, Bool.not_eq_true']
      rintro ⟨h, no⟩
      exact Bool.noConfusion ((room h).symm.trans no)

/-! ### SLOT CLOSE -/

/-- The slot with its counts, its load at an end (R148). -/
def slotCounted (n count : Nat) (bells : BellSet) (s : State) : State :=
  let t := setSlot n { s.slot n with events := count, pages := (count + 31) / 32, bells := bells } s
  { t with store := { t.store with load := none } }

theorem slot_slotCounted {n count : Nat} {bells : BellSet} {s : State} (h : unitOk 64 n = true) :
    (slotCounted n count bells s).slot n = { s.slot n with events := count, pages := (count + 31) / 32, bells := bells } :=
  slot_setSlot (s := s) h

theorem slot_slotCounted_ne {n m count : Nat} {bells : BellSet} {s : State} (h : unitOk 64 m = true) (ne : m ≠ n) :
    (slotCounted n count bells s).slot m = s.slot m := slot_setSlot_ne (s := s) h ne

theorem slotCloseAct_count {n count : Nat} {s : State} {l : Loading} (unit : unitOk 64 n = true) (high : count ≤ 2048)
    (load : s.store.load = some l) (slot : l.slot = n) (ne : count ≠ l.received) :
    slotCloseAct n count s = (s, .no .count []) := by
  have found : loadingOf s n = some l := slot ▸ loadingOf_own load
  unfold slotCloseAct
  refine (if_neg ?_).trans ?_
  · rw [unit, decide_eq_false (Nat.not_lt.mpr high)]
    decide
  · rw [found]
    exact if_pos ne

theorem slotCloseAct_eq {n count : Nat} {s : State} {l : Loading} (unit : unitOk 64 n = true) (high : count ≤ 2048)
    (load : s.store.load = some l) (slot : l.slot = n) (same : count = l.received)
    (room : hasRoom (if l.openPage = [] then 1 else 2) s = true) : slotCloseAct n count s =
      (enqueue ((if l.openPage = [] then [] else programOf s n l.page l.openPage) ++ [.dirWrite n .closing])
        (slotCounted n count l.bells s), .ok [.num ((count + 31) / 32 : Nat)]) := by
  have found : loadingOf s n = some l := slot ▸ loadingOf_own load
  unfold slotCloseAct
  refine (if_neg ?_).trans ?_
  · rw [unit, decide_eq_false (Nat.not_lt.mpr high)]
    decide
  · rw [found]
    simp only [List.isEmpty_iff]
    refine (if_neg (not_not_intro same)).trans ((if_neg ?_).trans rfl)
    rw [room]
    decide

end Sys2Proof.Machine

open Sys2Proof Sys2Proof.Machine

/-- Settles O44. -/
theorem tuneLoading : Obligations.TuneLoading := by
  refine ⟨fun n tempo division scene title s take name unit low high div scenes empty load room => ?_,
    fun n k part es s l take w unit load slot going page at' high parts room space => ?_,
    fun n count s l take unit high load slot => ⟨fun ne => ?_, fun same room => ?_⟩⟩
  · have run := request_enqueues (i := .slotOpen n tempo division scene title)
      (act := slotOpenAct n tempo division scene title) (t := opened n tempo division scene title s) [.dirWrite n .plain]
      take name rfl fun l => slotOpenAct_eq (title := title) (s := { s with line := l }) unit low high div scenes empty load room
    refine ⟨_, run, (enqueue_slot _ _ n).trans (slot_setSlot (s := s) unit), enqueue_load _ _,
      fun m h ne => (enqueue_slot _ _ m).trans (slot_setSlot_ne (s := s) h ne), enqueue_free _ _,
      enqueue_entries (t := opened n tempo division scene title s) _ (hasRoom_iff.mp room).1, rfl⟩
  · have joined := joined_eq (es := es.map Event.ofWord) (part := part) going page
    rw [List.length_map] at joined
    obtain ⟨frame, resume, entries⟩ := partTaken_frame n k part (l.joined part (es.map Event.ofWord)) s
    have run := request_enqueues (i := .page n k part es) (act := pageAct n k part es) (s := s)
      (t := partTaken n k part (l.joined part (es.map Event.ofWord)) s)
      (partOps n k part (l.openPage ++ es.map Event.ofWord) (partTaken n k part (l.joined part (es.map Event.ofWord)) s))
      take w (by rw [frame]) (r := .ok [.num (l.received + es.length : Nat)]) fun x => ?_
    · have on := fun h => partTaken_on (n := n) (m := l.joined part (es.map Event.ofWord)) (s := s) (k := k) (part := part) h
      have sectored := fun h sec free => partTaken_sector (n := n) (m := l.joined part (es.map Event.ofWord)) (s := s)
        (k := k) (part := part) (sec := sec) (free := free) h
      have loaded : (partTaken n k part (l.joined part (es.map Event.ofWord)) s).store.load =
          some (l.joined part (es.map Event.ofWord)) := rfl
      generalize partTaken n k part (l.joined part (es.map Event.ofWord)) s = t at *
      have added := fun h : s.store.resume = [] =>
        enqueue_entries (t := t) (partOps n k part (l.openPage ++ es.map Event.ofWord) t) (resume.trans h)
      rw [entries] at added
      refine ⟨_, run, (enqueue_load _ _).trans (loaded.trans (congrArg some joined)), fun h => ?_, fun h => ?_,
        fun m unit' ne => (enqueue_slot _ _ m).trans ?_, fun h => ?_, fun sec h place => ?_, fun h ne none => ?_, ?_⟩
      · cases e : s.store.free with
        | nil => exact absurd e (space h).2
        | cons sec free =>
          have t_eq := sectored h sec free e
          subst t_eq
          exact ⟨sec, free, rfl, (enqueue_slot _ _ n).trans (rd_wr_same unit), enqueue_free _ _⟩
      · have t_eq := on h
        subst t_eq
        exact ⟨enqueue_slot _ _ n, enqueue_free _ _⟩
      · cases h : newSector k part with
        | false =>
          have t_eq := on h
          subst t_eq
          rfl
        | true =>
          cases e : s.store.free with
          | nil => exact absurd e (space h).2
          | cons sec free =>
            have t_eq := sectored h sec free e
            subst t_eq
            exact rd_wr_ne (unitOk_iff.mp unit').1 ne
      · refine (added (hasRoom_iff.mp (room (.inl h))).1).trans (congrArg (s.store.entries ++ ·) ?_)
        have one : part ≠ 4 := by
          rintro rfl
          exact absurd h (by simp [newSector])
        rw [partOps, if_pos h, if_neg one, List.append_nil]
      · have same : newSector k part = false := by
          rw [h]
          rfl
        refine (added (hasRoom_iff.mp (room (.inr h))).1).trans (congrArg (s.store.entries ++ ·) ?_)
        have t_eq := on same
        subst t_eq
        rw [partOps, same, if_neg nofun, if_pos h, List.nil_append]
        exact programOf_placed place
      · refine (added none).trans ?_
        rw [partOps, h, if_neg nofun, if_neg ne, List.append_nil, List.append_nil]
      · rw [frame]
        rfl
    · refine (pageAct_eq (s := { s with line := x }) unit load slot going page at' high parts room space).trans ?_
      rw [partTaken_line, joined]
      rfl
  · exact request_only (act := slotCloseAct n count) take rfl rfl
      fun x _ => slotCloseAct_count (s := { s with line := x }) unit high load slot ne
  · have run := request_enqueues (i := .slotClose n count) (act := slotCloseAct n count) (t := slotCounted n count l.bells s)
      ((if l.openPage = [] then [] else programOf s n l.page l.openPage) ++ [.dirWrite n .closing])
      take rfl rfl fun x => slotCloseAct_eq (s := { s with line := x }) unit high load slot same room
    have added := enqueue_entries (t := slotCounted n count l.bells s)
      ((if l.openPage = [] then [] else programOf s n l.page l.openPage) ++ [.dirWrite n .closing]) (hasRoom_iff.mp room).1
    have own : (slotCounted n count l.bells s).slot n = _ := slot_slotCounted unit
    have other := fun m h ne => slot_slotCounted_ne (n := n) (m := m) (count := count) (bells := l.bells) (s := s) h ne
    have frame : slotCounted n count l.bells s = { s with store := (slotCounted n count l.bells s).store } := rfl
    have entries : (slotCounted n count l.bells s).store.entries = s.store.entries := rfl
    have free : (slotCounted n count l.bells s).store.free = s.store.free := rfl
    have none : (slotCounted n count l.bells s).store.load = none := rfl
    generalize slotCounted n count l.bells s = t at *
    refine ⟨_, run, (enqueue_load _ _).trans none, (enqueue_slot _ _ n).trans own,
      fun m h ne => (enqueue_slot _ _ m).trans (other m h ne), (enqueue_free _ _).trans free, fun none => ?_,
      fun sec some place => ?_, by rw [frame]; rfl⟩
    · rw [if_pos none, List.nil_append, entries] at added
      rw [if_pos none, List.nil_append]
      exact added
    · rw [if_neg some, programOf_placed place, entries] at added
      rw [if_neg some, programOf_placed place]
      exact added

end

section
/-! SLOT ERASE and SAVE (R107, R149, R152, R199). -/

namespace Sys2Proof.Machine

/-! ### What the frontier loop leaves as it was -/

/-- The line and the quarter profiles stand from `s` to `t`. -/
def LineStands (s t : State) : Prop := t.line = s.line ∧ t.clock.profiles = s.clock.profiles

theorem LineStands.trans {s t u : State} (h : LineStands s t) (k : LineStands t u) : LineStands s u :=
  ⟨k.1.trans h.1, k.2.trans h.2⟩

theorem createPerf_lineStands (p : Perf) (s : State) : LineStands s (createPerf p s).1 := by
  refine ⟨?_, (createPerf_sheets p s).profiles⟩
  simp only [createPerf]
  repeat' split
  · rfl
  · rw [(admitPerf_frame _ _).1]
  · rfl
  · rfl

theorem recordQuarter_lineStands (o : QuarterOutcome) (k : Nat) (s : State) : LineStands s (recordQuarter o k s) :=
  ⟨rfl, (recordQuarter_sheets o k s).profiles⟩

theorem soundQuarter_lineStands (k : Nat) (sh : Shape) (b : Nat) (s : State) : LineStands s (soundQuarter k sh b s) := by
  have created := createPerf_lineStands (clockPerf s k sh b) s
  unfold soundQuarter
  generalize createPerf (clockPerf s k sh b) s = c at created ⊢
  obtain ⟨t, o⟩ := c
  have recorded : ∀ q, LineStands s (recordQuarter q k t) := fun q => created.trans (recordQuarter_lineStands q k t)
  cases o with
  | full | admitted => exact recorded _
  | waiting | yielded =>
    dsimp only
    split
    · exact (recorded _).trans (createPerf_lineStands _ _)
    · exact recorded _

theorem evaluateQuarter_lineStands (k : Nat) (s : State) : LineStands s (evaluateQuarter k s) := by
  unfold evaluateQuarter
  dsimp only
  repeat' split
  all_goals first | exact recordQuarter_lineStands _ _ _ | exact soundQuarter_lineStands _ _ _ _

theorem frontierLoop_lineStands (s : State) : LineStands s (frontierLoop s) := by
  have rounds : ∀ n s, LineStands s (frontierRounds n s) := by
    intro n
    induction n with
    | zero => exact fun s => ⟨rfl, rfl⟩
    | succ n ih =>
      intro s
      rw [frontierRounds]
      split
      · exact (evaluateQuarter_lineStands s.clock.frontier s).trans (ih (evaluateFrontier s))
      · exact ⟨rfl, rfl⟩
  unfold frontierLoop
  split
  · exact rounds _ _
  · exact ⟨rfl, rfl⟩

/-! ### SLOT ERASE -/

theorem eraseOps_eq (n : Nat) (e : DirEntry) : eraseOps n e = if e.sectors = [] then [.dirWrite n .final]
    else .dirWrite n .plain :: e.sectors.map (QueueOp.erase n) ++ [.dirWrite n .final] := by
  unfold eraseOps
  simp only [List.isEmpty_iff]

/-- The queue without what the load of slot `n` has put into it (R149). -/
def queueKept (n : Nat) (l : List QueueOp) : List QueueOp := l.filter fun q => match q with
  | .program k _ _ _ => k ≠ n
  | .dirWrite k _ => k ≠ n
  | _ => true

theorem queueKept_eq (n : Nat) (l : List QueueOp) : (l.filter fun q => !ofLoad n q) = queueKept n l := by
  refine congrArg (fun f => l.filter f) (funext fun q => ?_)
  cases q <;> simp [ofLoad]

theorem hasRoom_eq {k : Nat} {s : State} : hasRoom k s = decide (s.store.resume = [] ∧ s.store.queue.length + k ≤ 8) := by
  rw [eq_comm, Bool.eq_iff_iff, decide_eq_true_eq, hasRoom_iff]

/-- A load of slot `n` stands. -/
def SlotLoads (s : State) (n : Nat) : Prop := ∃ l, s.store.load = some l ∧ l.slot = n

theorem slotLoads_iff {s : State} {n : Nat} : (loadingOf s n).isSome = true ↔ SlotLoads s n := by
  rw [Option.isSome_iff_exists]
  constructor
  · rintro ⟨l, h⟩
    exact ⟨l, loadingOf_some h⟩
  · rintro ⟨l, h, rfl⟩
    exact ⟨l, loadingOf_own h⟩

theorem abandonLoad_held {n : Nat} {s : State} (w : (s.slot n).state = .writing) (h : SlotLoads s n) : abandonLoad n s =
    { s with store := { s.store with load := none, queue := queueKept n s.store.queue } } := by
  rw [← queueKept_eq]
  exact if_pos ⟨w, slotLoads_iff.mpr h⟩

theorem abandonLoad_kept {n : Nat} {s : State} (h : ¬((s.slot n).state = .writing ∧ SlotLoads s n)) : abandonLoad n s = s :=
  if_neg fun k => h ⟨k.1, slotLoads_iff.mp k.2⟩

/-- SLOT ERASE of a slot that no record names, by its state (R149). -/
theorem slotEraseAct_used {n : Nat} {s : State} (unit : unitOk 64 n = true) (h : slotUsers s n ≠ 0) :
    slotEraseAct n s = (s, .no .used []) := by
  refine (if_neg ?_).trans (if_pos h)
  rw [unit]
  decide

theorem slotEraseAct_still {n : Nat} {s : State} (unit : unitOk 64 n = true) (h : slotUsers s n = 0)
    (e : (s.slot n).state = .empty ∨ (s.slot n).state = .erasing) :
    slotEraseAct n s = (s, .ok [.word (slotStateName (s.slot n).state)]) := by
  refine (if_neg ?_).trans ((if_neg (not_not_intro h)).trans (if_pos e))
  rw [unit]
  decide

theorem slotEraseAct_busy {n : Nat} {s : State} (unit : unitOk 64 n = true) (h : slotUsers s n = 0)
    (e : ¬((s.slot n).state = .empty ∨ (s.slot n).state = .erasing))
    (full : ¬((abandonLoad n s).store.resume = [] ∧
      (abandonLoad n s).store.queue.length + (eraseOps n (s.slot n)).length ≤ 8)) :
    slotEraseAct n s = (s, .no .busy []) := by
  refine (if_neg ?_).trans ((if_neg (not_not_intro h)).trans ((if_neg e).trans (if_pos ?_)))
  · rw [unit]
    decide
  · rw [hasRoom_eq, decide_eq_false full]
    rfl

/-- A slot taken into ERASING, before its entries join the queue. -/
def eraseBegun (n : Nat) (s : State) : State :=
  let t := setSlot n { s.slot n with state := .erasing } (abandonLoad n s)
  if (s.slot n).state = .closed then dropProfiles n t else t

theorem slotEraseAct_eq {n : Nat} {s : State} (unit : unitOk 64 n = true) (h : slotUsers s n = 0)
    (e : ¬((s.slot n).state = .empty ∨ (s.slot n).state = .erasing)) (resume : (abandonLoad n s).store.resume = [])
    (room : (abandonLoad n s).store.queue.length + (eraseOps n (s.slot n)).length ≤ 8) :
    slotEraseAct n s = (enqueue (eraseOps n (s.slot n)) (eraseBegun n s), .ok [.word "ERASING"]) := by
  refine (if_neg ?_).trans ((if_neg (not_not_intro h)).trans ((if_neg e).trans ((if_neg ?_).trans rfl)))
  · rw [unit]
    decide
  · rw [hasRoom_eq, decide_eq_true ⟨resume, room⟩]
    decide

theorem eraseBegun_open {n : Nat} {s : State} (h : (s.slot n).state ≠ .closed) :
    eraseBegun n s = setSlot n { s.slot n with state := .erasing } (abandonLoad n s) := if_neg h

theorem eraseBegun_closed {n : Nat} {s : State} (h : (s.slot n).state = .closed) :
    eraseBegun n s = dropProfiles n (setSlot n { s.slot n with state := .erasing } s) := by
  refine (if_pos h).trans ?_
  rw [abandonLoad_kept fun k => absurd (h.symm.trans k.1) (by decide)]

/-- What SLOT ERASE leaves of the store where it takes a slot into ERASING (R149). -/
def SlotErased (n : Nat) (s u : State) (load : Option Loading) (queue : List QueueOp) : Prop :=
  u.slot n = { s.slot n with state := .erasing } ∧ (∀ m, unitOk 64 m = true → m ≠ n → u.slot m = s.slot m) ∧
  u.store.load = load ∧ u.store.free = s.store.free ∧
  u.store.entries = ({ s.store with queue := queue } : Store).entries ++ eraseOps n (s.slot n)

theorem SlotErased.queued {n : Nat} {s t : State} {load : Option Loading} {queue : List QueueOp} {line : Line}
    (own : t.slot n = { s.slot n with state := .erasing })
    (other : ∀ m, unitOk 64 m = true → m ≠ n → t.slot m = s.slot m) (loads : t.store.load = load)
    (free : t.store.free = s.store.free) (resume : t.store.resume = [])
    (entries : t.store.entries = ({ s.store with queue := queue } : Store).entries) :
    SlotErased n s { enqueue (eraseOps n (s.slot n)) t with line := line } load queue :=
  ⟨(enqueue_slot _ _ n).trans own, fun m h ne => (enqueue_slot _ _ m).trans (other m h ne), (enqueue_load _ _).trans loads,
    (enqueue_free _ _).trans free, (enqueue_entries _ resume).trans (congrArg (· ++ _) entries)⟩

theorem slotErase_open {n : Nat} {s : State} {load : Option Loading} {queue : List QueueOp}
    (take : canTake (.slotErase n) s = true) (unit : unitOk 64 n = true) (h : slotUsers s n = 0)
    (e : (s.slot n).state = .incomplete ∨ (s.slot n).state = .writing)
    (abandoned : ∀ l : Line, abandonLoad n { s with line := l } =
      { s with line := l, store := { s.store with load := load, queue := queue } })
    (resume : s.store.resume = []) (room : queue.length + (eraseOps n (s.slot n)).length ≤ 8) :
    ∃ u, exec (.slotErase n) s = .next u ∧ SlotErased n s u load queue ∧
      u = { s with store := u.store, line := replyLine (.slotErase n) s (.ok [.word "ERASING"]) } := by
  have notClosed : (s.slot n).state ≠ .closed := by
    rcases e with e | e <;> rw [e] <;> decide
  have opened : ¬((s.slot n).state = .empty ∨ (s.slot n).state = .erasing) := by
    rcases e with e | e <;> rw [e] <;> decide
  have run := request_enqueues (i := .slotErase n) (act := slotEraseAct n) (s := s) (r := .ok [.word "ERASING"])
    (t := setSlot n { s.slot n with state := .erasing } { s with store := { s.store with load := load, queue := queue } })
    (eraseOps n (s.slot n)) take rfl rfl fun l => ?_
  · exact ⟨_, run, .queued (slot_setSlot unit) (fun m h ne => slot_setSlot_ne h ne) rfl rfl resume rfl, rfl⟩
  · refine (slotEraseAct_eq (s := { s with line := l }) unit h opened ?_ ?_).trans ?_
    · rw [abandoned]
      exact resume
    · rw [abandoned]
      exact room
    · rw [eraseBegun_open (s := { s with line := l }) notClosed, abandoned]
      rfl

/-- The quarters whose slot is `n` lose their profile (R107). -/
theorem profilesDropped (s : State) (P : Nat → Bool) (l : List Nat) :
    (l.filter P).foldl (fun t q => setProfile q .none t) s =
      { s with clock := { s.clock with profiles :=
          ((l.filter P).foldl (fun t q => setProfile q .none t) s).clock.profiles } } ∧
    ∀ q, unitOk 4 q = true → ((l.filter P).foldl (fun t q => setProfile q .none t) s).profile q =
      if q ∈ l ∧ P q = true then .none else s.profile q := by
  induction l generalizing s with
  | nil => exact ⟨rfl, fun q _ => (if_neg fun h => List.not_mem_nil h.1).symm⟩
  | cons k l ih =>
    cases e : P k with
    | false =>
      obtain ⟨frame, profiles⟩ := ih s
      rw [List.filter_cons_of_neg (by rw [e]; exact Bool.false_ne_true)]
      refine ⟨frame, fun q unit => (profiles q unit).trans (if_congr ?_ rfl rfl)⟩
      rw [List.mem_cons]
      exact ⟨fun h => ⟨.inr h.1, h.2⟩, fun h => ⟨h.1.resolve_left fun j => absurd (e.symm.trans (j ▸ h.2)) (by decide), h.2⟩⟩
    | true =>
      obtain ⟨frame, profiles⟩ := ih (setProfile k .none s)
      rw [List.filter_cons_of_pos e, List.foldl_cons]
      refine ⟨frame, fun q unit => (profiles q unit).trans ?_⟩
      by_cases h : q ∈ l ∧ P q = true
      · rw [if_pos h, if_pos ⟨List.mem_cons_of_mem _ h.1, h.2⟩]
      · rw [if_neg h]
        by_cases same : q = k
        · subst same
          rw [if_pos ⟨List.mem_cons_self, e⟩]
          exact profile_setProfile unit
        · rw [if_neg fun j => h ⟨(List.mem_cons.mp j.1).resolve_left same, j.2⟩]
          exact profile_setProfile_ne unit same

theorem dropProfiles_profile {n q : Nat} {s : State} (unit : unitOk 4 q = true) : (dropProfiles n s).profile q =
    if quarterSlot s.cfg.clock q = n then .none else s.profile q := by
  have dropped := (profilesDropped s (fun q => quarterSlot s.cfg.clock q = n) [1, 2, 3, 4]).2 q unit
  have loop := (frontierLoop_lineStands (([1, 2, 3, 4].filter fun q => quarterSlot s.cfg.clock q = n).foldl
    (fun t q => setProfile q .none t) s)).2
  have same : (dropProfiles n s).profile q = (([1, 2, 3, 4].filter fun q => quarterSlot s.cfg.clock q = n).foldl
    (fun t q => setProfile q .none t) s).profile q := congrArg (fun v => rd v q Profile.none) loop
  refine same.trans (dropped.trans (if_congr ?_ rfl rfl))
  rw [decide_eq_true_eq]
  exact ⟨And.right, fun h => ⟨mem_dials_iff.mpr unit, h⟩⟩

theorem dropProfiles_lineStands (n : Nat) (s : State) : (dropProfiles n s).line = s.line := by
  refine (frontierLoop_lineStands _).1.trans ?_
  rw [(profilesDropped s _ [1, 2, 3, 4]).1]

theorem slotErase_closed {n : Nat} {s : State} (take : canTake (.slotErase n) s = true) (unit : unitOk 64 n = true)
    (h : slotUsers s n = 0) (e : (s.slot n).state = .closed) (resume : s.store.resume = [])
    (room : s.store.queue.length + (eraseOps n (s.slot n)).length ≤ 8) :
    ∃ u, exec (.slotErase n) s = .next u ∧ SlotErased n s u s.store.load s.store.queue ∧
      (∀ q, unitOk 4 q = true → quarterSlot s.cfg.clock q = n → u.profile q = .none) ∧
      (∀ q, unitOk 4 q = true → quarterSlot s.cfg.clock q ≠ n → u.profile q = s.profile q) ∧
      u.cfg = s.cfg ∧ u.tb = s.tb ∧ u.dials = s.dials ∧ u.drives = s.drives ∧ u.sched = s.sched ∧
      u.line = replyLine (.slotErase n) s (.ok [.word "ERASING"]) := by
  have notWriting : ¬((s.slot n).state = .writing ∧ SlotLoads s n) := fun k => absurd (e.symm.trans k.1) (by decide)
  have opened : ¬((s.slot n).state = .empty ∨ (s.slot n).state = .erasing) := by
    rw [e]
    decide
  have standing : abandonLoad n (arrived (.slotErase n) s) = arrived (.slotErase n) s := by
    rw [arrived_eq]
    exact abandonLoad_kept (s := { s with line := _ }) notWriting
  have acts : slotEraseAct n (arrived (.slotErase n) s) =
      (enqueue (eraseOps n (s.slot n)) (eraseBegun n (arrived (.slotErase n) s)), .ok [.word "ERASING"]) := by
    have did := slotEraseAct_eq (s := arrived (.slotErase n) s) unit (by rw [arrived_eq]; exact h)
      (by rw [arrived_eq]; exact opened) (by rw [standing, arrived_eq]; exact resume)
      (by rw [standing, arrived_eq]; exact room)
    rw [did, arrived_eq]
    rfl
  have closed : (State.slot (arrived (.slotErase n) s) n).state = .closed := by
    rw [arrived_eq]
    exact e
  rw [eraseBegun_closed closed] at acts
  have struck := dropProfiles_struck n (setSlot n { (arrived (.slotErase n) s).slot n with state := .erasing }
    (arrived (.slotErase n) s))
  have line := dropProfiles_lineStands n (setSlot n { (arrived (.slotErase n) s).slot n with state := .erasing }
    (arrived (.slotErase n) s))
  have entries := dropProfiles_entries n (setSlot n { (arrived (.slotErase n) s).slot n with state := .erasing }
    (arrived (.slotErase n) s))
  have profile := fun q h => dropProfiles_profile (n := n) (q := q)
    (s := setSlot n { (arrived (.slotErase n) s).slot n with state := .erasing } (arrived (.slotErase n) s)) h
  have made : setSlot n { (arrived (.slotErase n) s).slot n with state := .erasing } (arrived (.slotErase n) s) =
      { s with line := (arrived (.slotErase n) s).line
               store := { s.store with slots := wr s.store.slots n { s.slot n with state := .erasing } } } := by
    rw [arrived_eq]
    rfl
  rw [made] at acts struck line entries profile
  obtain ⟨-, entries⟩ := entries resume
  have noResume := (struck.room resume).1
  generalize dropProfiles n _ = t at acts struck line entries profile noResume
  have taken := request_taken take rfl acts (show t.power = s.power from struck.power)
  have slots : t.store.slots = wr s.store.slots n { s.slot n with state := .erasing } := congrArg Store.slots struck.array
  have slot : ∀ m, t.slot m = rd (wr s.store.slots n { s.slot n with state := .erasing }) m emptyEntry := fun m =>
    congrArg (fun v => rd v m emptyEntry) slots
  refine ⟨_, taken, .queued ((slot n).trans (rd_wr_same unit)) (fun m h ne => (slot m).trans
    (rd_wr_ne (unitOk_iff.mp h).1 ne)) (congrArg Store.load struck.array :) (congrArg Store.free struck.array :) noResume entries,
    fun q h k => (profile q h).trans (if_pos k), fun q h k => (profile q h).trans (if_neg k), struck.cfg, struck.tb,
    struck.dials, struck.drives, struck.sched, ?_⟩
  show ((enqueue _ t).line.answered _).pumped = _
  rw [show (enqueue (eraseOps n (s.slot n)) t).line = t.line from rfl, line]
  rfl

/-! ### SAVE -/

/-- The image that SAVE takes into the queue, and its entries (R152, R199). -/
def saveOps (s : State) : List QueueOp :=
  .imageErase (targetOf s.store) :: (List.range 6).map fun p =>
    QueueOp.imageProgram (targetOf s.store) p (greatestSeq s.store + 1) (capture s)

/-- The target and the sequence of a SAVE that has been taken (R152, R199). -/
def saveTaken (s : State) : State :=
  { s with store := { s.store with saveTarget := some (targetOf s.store), saveSeq := some (greatestSeq s.store + 1) } }

theorem saveAct_eq {s : State} (resume : s.store.resume = []) (room : s.store.queue.length ≤ 1) :
    saveAct s = (enqueue (saveOps s) (saveTaken s), .ok [.num (greatestSeq s.store + 1 : Nat)]) := by
  refine (if_neg ?_).trans rfl
  rw [hasRoom_eq, decide_eq_true ⟨resume, by omega⟩]
  decide

theorem saveAct_busy {s : State} (h : s.store.resume ≠ [] ∨ 1 < s.store.queue.length) : saveAct s = (s, .no .busy []) := by
  refine if_pos ?_
  rw [hasRoom_eq, decide_eq_false]
  · rfl
  · rintro ⟨none, room⟩
    exact h.elim (· none) fun j => by omega

/-- The sequence that SAVE answers is above that of every image and every SAVE, and one above the greatest (R152). -/
theorem greatestSeq_image {st : Store} (b : Bool) {q : Nat} {im : Image} (h : imageOf (imageSector b st) = some (q, im)) :
    q ≤ greatestSeq st := by
  unfold greatestSeq
  cases b
  · have h : imageOf st.imgA = some (q, im) := h
    rw [h]
    exact Nat.le_trans (Nat.le_max_left _ _) (Nat.le_max_left _ _)
  · have h : imageOf st.imgB = some (q, im) := h
    rw [h]
    exact Nat.le_trans (Nat.le_max_right _ _) (Nat.le_max_left _ _)

theorem greatestSeq_save {st : Store} {q : Nat} (h : st.saveSeq = some q) : q ≤ greatestSeq st := by
  unfold greatestSeq
  rw [h]
  exact Nat.le_max_right _ _

theorem greatestSeq_one (st : Store) : greatestSeq st = 0 ∨ (∃ b im, imageOf (imageSector b st) = some (greatestSeq st, im)) ∨
    st.saveSeq = some (greatestSeq st) := by
  have image : ∀ b, ((imageOf (imageSector b st)).map (·.1)).getD 0 = 0 ∨
      ∃ im, imageOf (imageSector b st) = some (((imageOf (imageSector b st)).map (·.1)).getD 0, im) := by
    intro b
    cases imageOf (imageSector b st) with
    | none => exact .inl rfl
    | some x => exact .inr ⟨x.2, rfl⟩
  have save : st.saveSeq.getD 0 = 0 ∨ st.saveSeq = some (st.saveSeq.getD 0) := by
    cases st.saveSeq with
    | none => exact .inl rfl
    | some x => exact .inr rfl
  have largest : greatestSeq st = ((imageOf (imageSector false st)).map (·.1)).getD 0 ∨
      greatestSeq st = ((imageOf (imageSector true st)).map (·.1)).getD 0 ∨ greatestSeq st = st.saveSeq.getD 0 := by
    rcases max_choice (max (((imageOf (imageSector false st)).map (·.1)).getD 0)
      (((imageOf (imageSector true st)).map (·.1)).getD 0)) (st.saveSeq.getD 0) with e | e
    · exact (max_choice _ _).imp e.trans fun h => .inl (e.trans h)
    · exact .inr (.inr e)
  rcases largest with e | e | e
  · exact (image false).imp e.trans fun ⟨im, h⟩ => .inl ⟨false, im, by rw [e]; exact h⟩
  · exact (image true).imp e.trans fun ⟨im, h⟩ => .inl ⟨true, im, by rw [e]; exact h⟩
  · exact save.imp e.trans fun h => .inr (by rw [e]; exact h)

end Sys2Proof.Machine

open Sys2Proof Sys2Proof.Machine

/-- Settles O45. -/
theorem slotEraseAndSave : Obligations.SlotEraseAndSave := by
  refine ⟨fun n s take unit => ?_, fun s take => ⟨fun full => ?_, fun resume room => ?_⟩⟩
  · dsimp only
    rw [← eraseOps_eq]
    have opened : (s.slot n).state = .closed ∨ (s.slot n).state = .incomplete ∨ (s.slot n).state = .writing →
        ¬((s.slot n).state = .empty ∨ (s.slot n).state = .erasing) := by
      rintro (h | h | h) <;> rw [h] <;> decide
    have only := fun {r : Reply} (h : ∀ l : Line, slotEraseAct n { s with line := l } = ({ s with line := l }, r)) =>
      request_only (i := .slotErase n) (act := slotEraseAct n) take rfl rfl fun l _ => h l
    have standing : ¬((s.slot n).state = .writing ∧ SlotLoads s n) → ∀ l : Line,
        abandonLoad n { s with line := l } = { s with line := l } := fun h l => abandonLoad_kept (s := { s with line := l }) h
    have abandoned : (s.slot n).state = .writing → SlotLoads s n → ∀ l : Line, abandonLoad n { s with line := l } =
        { s with line := l, store := { s.store with load := none, queue := queueKept n s.store.queue } } :=
      fun h k l => abandonLoad_held (s := { s with line := l }) h k
    refine ⟨fun h => ?_, fun h e => ?_, fun h e => ?_, fun h e full => ?_, fun h e held full => ?_, fun h e room => ?_,
      fun h e held room => ?_, fun h e room => ?_⟩
    · exact only fun l => slotEraseAct_used (s := { s with line := l }) unit h
    · refine only fun l => (slotEraseAct_still (s := { s with line := l }) unit h (.inl e)).trans ?_
      rw [show (State.slot { s with line := l } n).state = .empty from e]
      rfl
    · refine only fun l => (slotEraseAct_still (s := { s with line := l }) unit h (.inr e)).trans ?_
      rw [show (State.slot { s with line := l } n).state = .erasing from e]
      rfl
    · refine only fun l => slotEraseAct_busy (s := { s with line := l }) unit h
        (opened (e.imp id (Or.imp id And.left))) ?_
      rw [standing (fun k => e.elim (fun c => absurd (c.symm.trans k.1) (by decide)) fun c => c.elim
        (fun c => absurd (c.symm.trans k.1) (by decide)) fun c => c.2 k.2) l]
      exact full
    · refine only fun l => slotEraseAct_busy (s := { s with line := l }) unit h (opened (.inr (.inr e))) ?_
      rw [abandoned e held l]
      exact fun k => full ⟨k.1, k.2⟩
    · have not : ¬((s.slot n).state = .writing ∧ SlotLoads s n) := fun k => e.elim
        (fun c => absurd (c.symm.trans k.1) (by decide)) fun c => c.2 k.2
      exact slotErase_open take unit h (e.imp id And.left) (standing not) room.1 room.2
    · exact slotErase_open take unit h (.inr e) (abandoned e held) room.1 room.2
    · exact slotErase_closed take unit h e room.1 room.2
  · exact request_only (act := saveAct) take rfl rfl fun l _ => saveAct_busy (s := { s with line := l }) full
  · have run := request_enqueues (i := .save) (act := saveAct) (s := s) (t := saveTaken s)
      (r := .ok [.num (greatestSeq s.store + 1 : Nat)]) (saveOps s) take rfl rfl
      fun l => saveAct_eq (s := { s with line := l }) resume room
    have target : ∀ a, s.store.saveTarget = some a → targetOf s.store = !a := fun a h => by
      rw [targetOf, h]
    have current : ∀ a p im, s.store.saveTarget = none → currentImage s.store = some (a, p, im) →
        targetOf s.store = !a := fun a p im h k => by
      unfold targetOf
      rw [h, k]
    have first : s.store.saveTarget = none → currentImage s.store = none → targetOf s.store = false := fun h k => by
      unfold targetOf
      rw [h, k]
    have before : greatestSeq s.store + 1 = 1 ∨ (∃ a im, imageOf (imageSector a s.store) =
        some (greatestSeq s.store + 1 - 1, im)) ∨ s.store.saveSeq = some (greatestSeq s.store + 1 - 1) :=
      (greatestSeq_one s.store).imp (congrArg (· + 1)) id
    exact ⟨_, targetOf s.store, greatestSeq s.store + 1, run, (congrArg Store.saveSeq (enqueue_store (saveOps s) (saveTaken s)) :),
      (congrArg Store.saveTarget (enqueue_store (saveOps s) (saveTaken s)) :),
      fun a p im h => Nat.lt_succ_of_le (greatestSeq_image a h), fun p h => Nat.lt_succ_of_le (greatestSeq_save h),
      before, target, current, first, enqueue_entries (t := saveTaken s) (saveOps s) resume, enqueue_slots (saveOps s) (saveTaken s),
      enqueue_free (saveOps s) (saveTaken s), rfl⟩

end

section
/-! The ends of the store's operations (R82, R138, R140 to R143, R148, R149, R152). -/

namespace Sys2Proof.Machine

/-! ### The store goes on -/

/-- The next operation may have begun, held resumptions may have joined the queue, and nothing else of the store changes (R142). -/
def GoesOn (x y : Store) : Prop := y = { x with op := y.op, queue := y.queue, reads := y.reads, resume := y.resume }

theorem kick_goesOn (s : State) : GoesOn s.store (kick s).store := (kick_store s).1

/-- The end of an operation, after which the store goes on. -/
theorem timed_kicks {due : Option Nat} {d : Nat} {body : State → State} {s u v : State} (h : due = some d)
    (reach : reachUs d s = some u) (k : body u = kick v) : ∃ t, timed due body s = .next t ∧ GoesOn v.store t.store ∧
      (v.power.phase = .on → t.line = v.line.pumped) ∧ t = { v with store := t.store, line := t.line } := by
  refine ⟨pump (kick v), ?_, ?_, fun on => ?_, ?_⟩
  · rw [h, timed_due reach, k]
    rfl
  · rw [pump_eq]
    exact kick_goesOn v
  · rw [pump_line]
    exact if_pos on
  · rw [pump_eq]
    rfl

/-- All that striking leaves room for. -/
theorem Struck.whole {s t : State} (h : Struck s t) : t = { s with
    bells := t.bells, perfs := t.perfs, lastId := t.lastId, nextOrder := t.nextOrder, voices := t.voices, clock := t.clock
    store := t.store, lights := t.lights, line := t.line } := by
  rw [← h.tb, ← h.ref, ← h.cal, ← h.cfg, ← h.dials, ← h.drives, ← h.sched, ← h.keys, ← h.power, ← h.drawn, ← h.pending]

/-! ### Reads -/

theorem readEnds_voice {u : State} {q : ReadReq} {es : List Event} {src : Option (Bool × Nat × Image)} {a v : Nat}
    (h : u.store.op = some (.read q es src, a)) (reader : q.reader = .voice v) :
    readEnds u = kick (voicePageRead v q.serial es (clearOp u)) := by
  unfold readEnds deliver
  rw [h]
  dsimp only
  rw [reader]

/-- A voice's buffers after a page read, where no stall stands (R82). -/
theorem voicePageRead_fills {v k : Nat} {es : List Event} {s : State} (unit : unitOk 4 v = true)
    (h : (s.voice v).stall = none) : voicePageRead v k es s = setVoice v
      { s.voice v with current := (s.voice v).current.filled k es, next := (s.voice v).next.filled k es } s := by
  unfold voicePageRead
  dsimp only
  rw [voice_setVoice unit]
  dsimp only
  rw [h]
  split
  · next e => cases e
  · rfl

/-! ### Pages and image sectors -/

theorem pageAt_written {st : Store} {sec pg : Nat} {es : List Event} (hs : sec < 64) (hp : pg < 16) :
    pageAt (programPage sec pg es st) sec pg = es := by
  unfold pageAt programPage
  dsimp only
  rw [rd_wr_same (unitOk_iff.mpr ⟨Nat.succ_pos _, hs⟩), rd_wr_same (unitOk_iff.mpr ⟨Nat.succ_pos _, hp⟩)]
  rfl

theorem pageAt_kept {st : Store} {sec pg a b : Nat} {es : List Event} (hs : sec < 64) (h : a ≠ sec ∨ b ≠ pg) :
    pageAt (programPage sec pg es st) a b = pageAt st a b := by
  unfold pageAt programPage
  dsimp only
  by_cases e : a = sec
  · subst e
    rw [rd_wr_same (unitOk_iff.mpr ⟨Nat.succ_pos _, hs⟩),
      rd_wr_ne (Nat.succ_pos _) fun k => h.elim (· rfl) (· (Nat.succ_inj.mp k))]
  · rw [rd_wr_ne (Nat.succ_pos _) fun k => e (Nat.succ_inj.mp k)]

theorem pageAt_sectors {x y : Store} (h : y.sectors = x.sectors) (a b : Nat) : pageAt y a b = pageAt x a b := by
  rw [pageAt, h]
  rfl

theorem imageSector_set (b : Bool) (v : ImageSector) (st : Store) : imageSector b (setImageSector b v st) = v := by
  cases b <;> rfl

theorem imageSector_set_other (b : Bool) (v : ImageSector) (st : Store) :
    imageSector (!b) (setImageSector b v st) = imageSector (!b) st := by
  cases b <;> rfl

theorem setImageSector_eq (b : Bool) (v : ImageSector) (st : Store) : setImageSector b v st =
    { st with imgA := (setImageSector b v st).imgA, imgB := (setImageSector b v st).imgB } := by
  cases b <;> rfl

theorem GoesOn.imageSector {x y : Store} (h : GoesOn x y) (b : Bool) : imageSector b y = imageSector b x := by
  cases b
  · exact (congrArg Store.imgA h :)
  · exact (congrArg Store.imgB h :)

/-- An image sector has been set, and the store has gone on. -/
theorem GoesOn.image {x y : Store} {b : Bool} {v : ImageSector} {op : Option (Running × Nat)}
    (h : GoesOn (setImageSector b v { x with op := op }) y) : GoesOn { x with imgA := y.imgA, imgB := y.imgB } y := by
  have a : y.imgA = (setImageSector b v { x with op := op }).imgA := (congrArg Store.imgA h :)
  have c : y.imgB = (setImageSector b v { x with op := op }).imgB := (congrArg Store.imgB h :)
  rw [a, c]
  unfold GoesOn at *
  rw [setImageSector_eq] at h
  exact h

theorem freeSector_in {n : Nat} {l : List Nat} (h : n ∈ l) : freeSector n l = l := if_pos (List.contains_iff_mem.mpr h)

theorem freeSector_perm {n : Nat} {l : List Nat} (h : n ∉ l) : (freeSector n l).Perm (n :: l) := by
  rw [freeSector, if_neg fun k => h (List.contains_iff_mem.mp k)]
  exact insertBy_perm _ _ _

/-! ### Directory writes -/

/-- The record of a directory write that has ended stands on the array (R138, R140). -/
def recorded (n : Nat) (second : Bool) (r : DirRecord) (u : State) : State :=
  { u with store := { u.store with
    op := none
    recA := if second then u.store.recA else wr u.store.recA n r
    recB := if second then wr u.store.recB n r else u.store.recB } }

theorem writeEnds_eq {u : State} {n a : Nat} {p : DirPurpose} {second : Bool} {r : DirRecord}
    (h : u.store.op = some (.writing n p second r, a)) : writeEnds u = kick (writeMoves n p (recorded n second r u)) := by
  unfold writeEnds
  rw [h]
  cases second <;> rfl

theorem writeMoves_closed {n : Nat} {s : State} (h : (s.slot n).state = .writing) : writeMoves n .closing s =
    buildFor n (notify .store [.num n, .word "CLOSED"] (setSlot n { s.slot n with state := .closed } s)) := by
  unfold writeMoves
  rw [h]

theorem writeMoves_emptied {n : Nat} {s : State} (h : (s.slot n).state = .erasing) : writeMoves n .final s =
    notify .store [.num n, .word "EMPTY"] (setSlot n emptyEntry s) := by
  unfold writeMoves
  rw [h]

theorem writeMoves_none {n : Nat} {p : DirPurpose} {s : State} (h : p = .plain ∨
    (p = .closing ∧ (s.slot n).state ≠ .writing) ∨ (p = .final ∧ (s.slot n).state ≠ .erasing)) :
    writeMoves n p s = s := by
  unfold writeMoves
  split
  · next e =>
      rcases h with h | ⟨-, h⟩ | ⟨h, -⟩
      · cases h
      · exact absurd e h
      · cases h
  · next e =>
      rcases h with h | ⟨h, -⟩ | ⟨-, h⟩
      · cases h
      · cases h
      · exact absurd e h
  · rfl

theorem startBuild_line (w : Bool) (s : State) (q : Nat) : (startBuild w s q).line = s.line := by
  unfold startBuild
  dsimp only
  repeat' split
  all_goals rfl

theorem buildFor_line (n : Nat) (s : State) : (buildFor n s).line = s.line := by
  have fold : ∀ (l : List Nat) (s : State), (l.foldl (startBuild false) s).line = s.line := by
    intro l
    induction l with
    | nil => exact fun _ => rfl
    | cons q l ih => exact fun s => (ih (startBuild false s q)).trans (startBuild_line false s q)
  exact (frontierLoop_lineStands _).1.trans (fold _ _)

/-- What a record on the array leaves of those of the other slots (R138). -/
theorem recorded_others {n m : Nat} {second : Bool} {r : DirRecord} {u : State} (h : unitOk 64 m = true) (ne : m ≠ n) :
    rd (recorded n second r u).store.recA m blankRecord = rd u.store.recA m blankRecord ∧
      rd (recorded n second r u).store.recB m blankRecord = rd u.store.recB m blankRecord := by
  have other := fun (v : Vector DirRecord 64) => rd_wr_ne (v := v) (i := n) (a := r) (d := blankRecord) (unitOk_iff.mp h).1 ne
  cases second
  · exact ⟨other _, rfl⟩
  · exact ⟨rfl, other _⟩

theorem recorded_own {n : Nat} {second : Bool} {r : DirRecord} {u : State} (unit : unitOk 64 n = true) :
    if second then rd (recorded n second r u).store.recB n blankRecord = r ∧
        (recorded n second r u).store.recA = u.store.recA
      else rd (recorded n second r u).store.recA n blankRecord = r ∧ (recorded n second r u).store.recB = u.store.recB := by
  cases second
  · exact ⟨rd_wr_same unit, rfl⟩
  · exact ⟨rd_wr_same unit, rfl⟩

end Sys2Proof.Machine

open Sys2Proof Sys2Proof.Machine

/-- Settles O46. -/
theorem storeOperationsEnd : Obligations.StoreOperationsEnd := by
  refine ⟨fun d v a k s u q es src due reach op reader unit stall waits => ?_,
    fun d n sec pg a s u es due reach op hs hp => ?_, fun d n sec a s u due reach op unit hs => ?_,
    fun d a b s u due reach on op => ?_, fun d pg seq a b im s u due reach on op hp => ?_,
    fun d n a p second r s u due reach op unit => ?_⟩
  · obtain ⟨t, run, goes, sent, frame⟩ := timed_kicks due reach ((readEnds_voice op reader).trans
      (congrArg kick (voicePageRead_fills (s := clearOp u) unit stall)))
    have voice : t.voice v = { u.voice v with
        current := (u.voice v).current.filled q.serial es, next := (u.voice v).next.filled q.serial es } := by
      rw [frame]
      exact voice_setVoice (s := clearOp u) unit
    refine ⟨t, run, ?_, ?_, goes, sent, ?_⟩
    · rw [voice, waits]
      exact if_pos rfl
    · rw [voice]
    · rw [voice]
      exact frame
  · obtain ⟨t, run, goes, sent, frame⟩ := timed_kicks (body := programEnds)
      (v := { u with store := programPage sec pg es { u.store with op := none } }) due reach (by
        unfold programEnds
        rw [op]
        rfl)
    have sectors : t.store.sectors = (programPage sec pg es { u.store with op := none }).sectors :=
      (congrArg Store.sectors goes :)
    refine ⟨t, run, (pageAt_sectors sectors _ _).trans (pageAt_written hs hp),
      fun a b _ ne => (pageAt_sectors sectors _ _).trans (pageAt_kept hs ne), ?_, sent, frame⟩
    rw [sectors]
    exact goes
  · obtain ⟨t, run, goes, sent, frame⟩ := timed_kicks (body := eraseEnds)
      (v := { u with store := { u.store with
        op := none
        slots := wr u.store.slots n { u.slot n with sectors := (u.slot n).sectors.filter (· ≠ sec) }
        sectors := wr u.store.sectors (sec + 1) blankSector, free := freeSector sec u.store.free } }) due reach (by
        unfold eraseEnds
        rw [op]
        rfl)
    have sectors : t.store.sectors = wr u.store.sectors (sec + 1) blankSector := (congrArg Store.sectors goes :)
    have slots : t.store.slots = wr u.store.slots n { u.slot n with sectors := (u.slot n).sectors.filter (· ≠ sec) } :=
      (congrArg Store.slots goes :)
    have free : t.store.free = freeSector sec u.store.free := (congrArg Store.free goes :)
    have slot : ∀ m, t.slot m = rd (wr u.store.slots n
        { u.slot n with sectors := (u.slot n).sectors.filter (· ≠ sec) }) m emptyEntry := fun m =>
      congrArg (fun v => rd v m emptyEntry) slots
    refine ⟨t, run, (slot n).trans (rd_wr_same unit), fun m h ne => (slot m).trans (rd_wr_ne (unitOk_iff.mp h).1 ne),
      fun h => free ▸ freeSector_perm h, fun h => free.trans (freeSector_in h), fun pg hp => ?_, fun x pg _ _ ne => ?_,
      ?_, sent, frame⟩
    · unfold pageAt
      rw [sectors, rd_wr_same (unitOk_iff.mpr ⟨Nat.succ_pos _, hs⟩), blankSector,
        rd_replicate (unitOk_iff.mpr ⟨Nat.succ_pos _, hp⟩)]
      rfl
    · unfold pageAt
      rw [sectors, rd_wr_ne (Nat.succ_pos _) fun k => ne (Nat.succ_inj.mp k)]
    · rw [sectors, slots, free]
      exact goes
  · obtain ⟨t, run, goes, sent, frame⟩ := timed_kicks (body := eraseEnds)
      (v := { u with store := setImageSector b blankImage { u.store with op := none } }) due reach (by
        unfold eraseEnds
        rw [op]
        rfl)
    refine ⟨t, run, fun p h => ?_, ?_, goes.image, ?_⟩
    · rw [goes.imageSector, imageSector_set]
      exact rd_replicate h
    · rw [goes.imageSector, imageSector_set_other]
      cases b <;> rfl
    · rw [← sent on]
      exact frame
  · obtain ⟨t, run, goes, sent, frame⟩ := timed_kicks (body := programEnds)
      (v := { u with
        store := setImageSector b (wr (imageSector b u.store) (pg + 1) (some (seq, im))) { u.store with op := none }
        line := if pg = 5 then u.line.latched .store [.word "SAVED", .num seq] else u.line }) due reach (by
        unfold programEnds
        rw [op]
        by_cases last : pg = 5
        · simp only [if_pos last]
          cases b <;> rfl
        · simp only [if_neg last]
          cases b <;> rfl)
    refine ⟨t, run, ?_, fun p h ne => ?_, ?_, goes.image, ?_⟩
    · rw [goes.imageSector, imageSector_set]
      exact rd_wr_same (unitOk_iff.mpr ⟨Nat.succ_pos _, hp⟩)
    · rw [goes.imageSector, imageSector_set]
      exact rd_wr_ne (unitOk_iff.mp h).1 ne
    · rw [goes.imageSector, imageSector_set_other]
      cases b <;> rfl
    · refine frame.trans ?_
      rw [sent on]
      by_cases last : pg = 5
      · simp only [if_pos last]
        rfl
      · simp only [if_neg last]
  · have moves := timed_kicks due reach (writeEnds_eq op)
    have slotOf : ∀ {x y : State}, x.store.slots = y.store.slots → ∀ m, x.slot m = y.slot m := fun e m =>
      congrArg (fun v => rd v m emptyEntry) e
    have same : ∀ m, (recorded n second r u).slot m = u.slot m := fun m => rfl
    by_cases closing : p = .closing ∧ (u.slot n).state = .writing
    · obtain ⟨rfl, writing⟩ := closing
      rw [writeMoves_closed ((congrArg DirEntry.state (same n)).trans writing)] at moves
      have struck := buildFor_struck n (notify .store [.num n, .word "CLOSED"]
        (setSlot n { (recorded n second r u).slot n with state := .closed } (recorded n second r u)))
      have line := buildFor_line n (notify .store [.num n, .word "CLOSED"]
        (setSlot n { (recorded n second r u).slot n with state := .closed } (recorded n second r u)))
      generalize buildFor n _ = v at moves struck line
      obtain ⟨t, run, goes, sent, frame⟩ := moves
      have array := struck.array
      have slots : t.store.slots = wr u.store.slots n { u.slot n with state := .closed } :=
        (congrArg Store.slots goes :).trans (congrArg Store.slots array :)
      have recA : t.store.recA = (recorded n second r u).store.recA :=
        (congrArg Store.recA goes :).trans (congrArg Store.recA array :)
      have recB : t.store.recB = (recorded n second r u).store.recB :=
        (congrArg Store.recB goes :).trans (congrArg Store.recB array :)
      have slot : ∀ m, t.slot m = rd (wr u.store.slots n { u.slot n with state := .closed }) m emptyEntry := fun m =>
        congrArg (fun v => rd v m emptyEntry) slots
      refine ⟨t, run, ?_, fun m h ne => ⟨(slot m).trans (rd_wr_ne (unitOk_iff.mp h).1 ne), ?_⟩,
        fun _ _ => ⟨(slot n).trans (rd_wr_same unit), fun on => ?_, ?_, ?_⟩, nofun, fun no => ?_⟩
      · rw [recA, recB]
        exact recorded_own unit
      · rw [recA, recB]
        exact recorded_others h ne
      · exact (sent (by rw [struck.power]; exact on)).trans (congrArg Line.pumped line)
      · rw [recA, recB, slots]
        have serial : t.store.serial = v.store.serial := (congrArg Store.serial goes :)
        rw [serial]
        unfold GoesOn at goes
        rw [array] at goes
        exact goes
      · rw [frame]
        dsimp only
        have whole := struck.whole
        generalize t.store = x
        generalize t.line = y
        generalize v.bells = a1, v.perfs = a2, v.lastId = a3, v.nextOrder = a4, v.voices = a5, v.clock = a6,
          v.lights = a7 at whole ⊢
        rw [whole]
        rfl
      · rcases no with h | ⟨-, h⟩ | ⟨h, -⟩
        · cases h
        · exact absurd writing h
        · cases h
    · by_cases final : p = .final ∧ (u.slot n).state = .erasing
      · obtain ⟨rfl, erasing⟩ := final
        rw [writeMoves_emptied ((congrArg DirEntry.state (same n)).trans erasing)] at moves
        obtain ⟨t, run, goes, sent, frame⟩ := moves
        have slots : t.store.slots = wr u.store.slots n emptyEntry := (congrArg Store.slots goes :)
        have recA : t.store.recA = (recorded n second r u).store.recA := (congrArg Store.recA goes :)
        have recB : t.store.recB = (recorded n second r u).store.recB := (congrArg Store.recB goes :)
        have slot : ∀ m, t.slot m = rd (wr u.store.slots n emptyEntry) m emptyEntry := fun m =>
          congrArg (fun v => rd v m emptyEntry) slots
        refine ⟨t, run, ?_, fun m h ne => ⟨(slot m).trans (rd_wr_ne (unitOk_iff.mp h).1 ne), ?_⟩, nofun,
          fun _ _ => ⟨(slot n).trans (rd_wr_same unit), sent, ?_, frame⟩, fun no => ?_⟩
        · rw [recA, recB]
          exact recorded_own unit
        · rw [recA, recB]
          exact recorded_others h ne
        · rw [recA, recB, slots]
          exact goes
        · rcases no with h | ⟨h, -⟩ | ⟨-, h⟩
          · cases h
          · cases h
          · exact absurd erasing h
      · have none : p = .plain ∨ (p = .closing ∧ (u.slot n).state ≠ .writing) ∨ (p = .final ∧ (u.slot n).state ≠ .erasing) := by
          cases p with
          | plain => exact .inl rfl
          | closing => exact .inr (.inl ⟨rfl, fun h => closing ⟨rfl, h⟩⟩)
          | final => exact .inr (.inr ⟨rfl, fun h => final ⟨rfl, h⟩⟩)
        rw [writeMoves_none (s := recorded n second r u) none] at moves
        obtain ⟨t, run, goes, sent, frame⟩ := moves
        have slots : t.store.slots = u.store.slots := (congrArg Store.slots goes :)
        have recA : t.store.recA = (recorded n second r u).store.recA := (congrArg Store.recA goes :)
        have recB : t.store.recB = (recorded n second r u).store.recB := (congrArg Store.recB goes :)
        refine ⟨t, run, ?_, fun m h ne => ⟨slotOf slots m, ?_⟩, fun e w => absurd ⟨e, w⟩ closing,
          fun e w => absurd ⟨e, w⟩ final, fun _ => ⟨?_, sent, frame⟩⟩
        · rw [recA, recB]
          exact recorded_own unit
        · rw [recA, recB]
          exact recorded_others h ne
        · rw [recA, recB]
          exact goes

end

section
/-! Page reads for the voices and the ends of their stalls (R82, R88, R143). -/

namespace Sys2Proof.Machine

/-! ### Buffers -/

theorem filled_filled (b : Buffer) (n : Nat) (es : List Event) : BufferFilled b (b.filled n es) n es := by
  refine ⟨fun k e => ?_, fun h => ?_⟩
  · rw [e]
    exact if_pos rfl
  · cases b with
    | reading k m => exact if_neg fun e => h k (by rw [e])
    | _ => rfl

/-- A voice's record with its buffers filled by a page read (R82). -/
def Voice.filled (x : Voice) (serial : Nat) (es : List Event) : Voice :=
  { x with current := x.current.filled serial es, next := x.next.filled serial es }

/-! ### Stalls -/

/-- The timeline moves with the anchor (R84, R88). -/
theorem timeline_stalled {s : State} {p : Perf} {c d i : Nat} (h : p.anchor = some c) :
    (timeline s (p.stalled d))[i]? = ((timeline s p)[i]?).map fun e => { e with sound := e.sound + d } := by
  have anchor : (p.stalled d).anchor = some (c + d) := by rw [Perf.stalled, h]; rfl
  have tune : tuneLine s (p.stalled d) = (tuneLine s p).map fun e => { e with sound := e.sound + d } := by
    unfold tuneLine
    rw [anchor, h, show (p.stalled d).slot = p.slot from rfl]
    cases p.slot with
    | none => rfl
    | some n =>
      refine Eq.trans (List.map_congr_left fun x _ => ?_) List.map_map.symm
      show TimeEvent.mk _ _ _ _ _ _ = TimeEvent.mk _ _ _ _ _ _
      congr 1
      exact Nat.add_right_comm _ _ _
  have hour : hourLine (p.stalled d) = (hourLine p).map fun e => { e with sound := e.sound + d } := by
    unfold hourLine
    rw [anchor, h, show (p.stalled d).kind = p.kind from rfl]
    cases p.kind with
    | clock k =>
      refine Eq.trans (List.map_congr_left fun x _ => ?_) List.map_map.symm
      show TimeEvent.mk _ _ _ _ _ _ = TimeEvent.mk _ _ _ _ _ _
      congr 1
      simp only [Option.getD_some]
      omega
    | _ => rfl
  rw [timeline, tune, hour, ← List.map_append, List.getElem?_map]
  rfl

theorem nextEvent_open {s : State} {p : Perf} {x : Voice} (h : p.stop ≠ .cut)
    (k : ∀ k, p.stopPoint = some k → x.idx ≤ k) : nextEvent s p x = (timeline s p)[x.idx]? := by
  refine (if_neg h).trans (if_neg ?_)
  rw [Option.any_eq_true]
  rintro ⟨j, e, lt⟩
  exact absurd (of_decide_eq_true lt) (Nat.not_lt.mpr (k j e))

theorem nextEvent_stopped {s : State} {p : Perf} {x : Voice} (h : p.stop = .cut ∨ ∃ k, p.stopPoint = some k ∧ k < x.idx) :
    nextEvent s p x = none := by
  unfold nextEvent
  split
  · rfl
  · next ne =>
      obtain ⟨k, e, lt⟩ := h.resolve_left ne
      exact if_pos (by rw [e]; exact decide_eq_true lt)

/-- The stall of voice `v` ends where the page of its event is there (R88). -/
def stallMayEnd (v : Nat) (s : State) : State :=
  match voicePerf s v, (s.voice v).stall with
  | some p, some _ =>
    match (timeline s p)[(s.voice v).idx]? with
    | some e => if (s.voice v).hasPage e.page then endStall v s else s
    | none => s
  | _, _ => s

theorem voicePageRead_eq (v k : Nat) (es : List Event) (s : State) :
    voicePageRead v k es s = stallMayEnd v (setVoice v ((s.voice v).filled k es) s) := rfl

theorem stallMayEnd_stalled {v a : Nat} {s : State} {p : Perf} {e : TimeEvent} (stall : (s.voice v).stall = some a)
    (perf : voicePerf s v = some p) (event : (timeline s p)[(s.voice v).idx]? = some e) :
    stallMayEnd v s = if (s.voice v).hasPage e.page = true then endStall v s else s := by
  unfold stallMayEnd
  rw [perf, stall]
  dsimp only
  rw [event]

/-- A stalled voice without a performance only fills its buffers. -/
theorem voicePageRead_alone {v k : Nat} {es : List Event} {s : State} (unit : unitOk 4 v = true)
    (h : (s.voice v).stall = none ∨ (s.voice v).perf = none) :
    voicePageRead v k es s = setVoice v ((s.voice v).filled k es) s := by
  refine h.elim (voicePageRead_fills unit) fun none => ?_
  have own : voicePerf (setVoice v ((s.voice v).filled k es) s) v = Option.none := by
    rw [voicePerf, voice_setVoice unit, show ((s.voice v).filled k es).perf = Option.none from none]
    rfl
  rw [voicePageRead_eq, stallMayEnd, own]

/-- The voice's record as a stall ends (R88). -/
def Voice.resumed (x : Voice) (len : Nat) : Voice := { x with stall := none, moves := x.moves ++ [(x.idx, len)] }

theorem endStall_eq {v a : Nat} {s : State} {p : Perf} (perf : voicePerf s v = some p) (stall : (s.voice v).stall = some a)
    (unit : unitOk 4 v = true) : endStall v s =
      match nextEvent s (p.stalled (s.now - a)) ((s.voice v).resumed (s.now - a)) with
      | some e => takeUp v (p.stalled (s.now - a)) e
          (setVoice v ((s.voice v).resumed (s.now - a)) (setPerf (p.stalled (s.now - a)) s))
      | none => setVoice v ((s.voice v).resumed (s.now - a)) (setPerf (p.stalled (s.now - a)) s) := by
  have voice : (stallOver v p (s.now - a) s).voice v = (s.voice v).resumed (s.now - a) :=
    voice_setVoice (s := setPerf (p.stalled (s.now - a)) s) unit
  unfold endStall
  rw [perf, stall]
  dsimp only
  rw [voice]
  rfl

/-- What the end of a stall leaves besides the reads: the moved record, and the voice's record `x` (R88). -/
structure StallEnded (s z : State) (v len : Nat) (p : Perf) (x : Voice) : Prop where
  stall : x.stall = none
  moves : x.moves = (s.voice v).moves ++ [((s.voice v).idx, len)]
  perfs : z.perfs = (setPerf (p.stalled len) s).perfs
  frame : z = { s with perfs := z.perfs, voices := wr s.voices v x, store := z.store }

theorem endStall_takes {v a : Nat} {s : State} {p : Perf} {e : TimeEvent} (unit : unitOk 4 v = true)
    (perf : voicePerf s v = some p) (stall : (s.voice v).stall = some a)
    (next : nextEvent s (p.stalled (s.now - a)) ((s.voice v).resumed (s.now - a)) = some e) :
    ∃ x, StallEnded s (endStall v s) v (s.now - a) p x ∧ x.idx = (s.voice v).idx + 1 ∧ x.cum = e.cum ∧
      x.strokes = (s.voice v).strokes ++ strokesOf s e (s.voice v).idx := by
  rw [endStall_eq perf stall unit, next]
  dsimp only
  have voice : (setVoice v ((s.voice v).resumed (s.now - a)) (setPerf (p.stalled (s.now - a)) s)).voice v =
      (s.voice v).resumed (s.now - a) := voice_setVoice unit
  obtain ⟨x, idx, cum, -, strokes, stall, moves, taken⟩ := takeUp_eq (p := p.stalled (s.now - a)) (e := e)
    (s := setVoice v ((s.voice v).resumed (s.now - a)) (setPerf (p.stalled (s.now - a)) s)) unit
  rw [voice] at idx strokes moves
  refine ⟨x, ⟨stall, moves, ?_, ?_⟩, idx, cum, strokes⟩
  · rw [taken]
    rfl
  · rw [taken]
    exact congrArg (fun w => ({ s with perfs := _, voices := w, store := _ } : State)) wr_wr

theorem endStall_stops {v a : Nat} {s : State} {p : Perf} (unit : unitOk 4 v = true)
    (perf : voicePerf s v = some p) (stall : (s.voice v).stall = some a)
    (next : nextEvent s (p.stalled (s.now - a)) ((s.voice v).resumed (s.now - a)) = none) :
    StallEnded s (endStall v s) v (s.now - a) p ((s.voice v).resumed (s.now - a)) := by
  rw [endStall_eq perf stall unit, next]
  exact ⟨rfl, rfl, rfl, rfl⟩

/-- The state in which a page read for voice `v` has filled its buffers (R82). -/
def pageTaken (v serial : Nat) (es : List Event) (u : State) : State :=
  setVoice v ((u.voice v).filled serial es) (clearOp u)

theorem pageTaken_voice {v serial : Nat} {es : List Event} {u : State} (unit : unitOk 4 v = true) :
    (pageTaken v serial es u).voice v = (u.voice v).filled serial es := voice_setVoice unit

theorem pageTaken_perf {v serial : Nat} {es : List Event} {u : State} (unit : unitOk 4 v = true) :
    voicePerf (pageTaken v serial es u) v = voicePerf u v := by
  rw [voicePerf, pageTaken_voice unit]
  rfl

/-- A page read for a voice: its buffers are filled, and its stall may end (R82, R88). -/
theorem pageRead_voice {d v at' : Nat} {s u : State} {q : ReadReq} {es : List Event} {src : Option (Bool × Nat × Image)}
    (due : opDue isRead s = some d) (reach : reachUs d s = some u) (on : u.power.phase = .on)
    (op : u.store.op = some (.read q es src, at')) (reader : q.reader = .voice v) :
    ∃ t, exec .pageReadEnd s = .next t ∧
      ∀ z, stallMayEnd v (pageTaken v q.serial es u) = z → z.power = u.power →
        z.line = u.line → t = { z with store := t.store, line := u.line.pumped } := by
  obtain ⟨t, run, -, sent, frame⟩ := timed_kicks due reach (readEnds_voice op reader)
  rw [voicePageRead_eq] at sent frame
  refine ⟨t, run, fun z e power line => ?_⟩
  have reads : setVoice v (((clearOp u).voice v).filled q.serial es) (clearOp u) =
      pageTaken v q.serial es u := rfl
  rw [reads, e] at sent frame
  rw [sent (by rw [power]; exact on), line] at frame
  exact frame

/-- The end of a stall, as the table and the voice show it (R88). -/
theorem StallEnded.shows {s t z : State} {v len c : Nat} {p : Perf} {x : Voice} (h : StallEnded s z v len p x)
    (perf : s.perf p.id = some p) (anchor : p.anchor = some c) (unit : unitOk 4 v = true) (perfs : t.perfs = z.perfs)
    (voices : t.voices = z.voices) : t.voice v = x ∧ t.perf p.id = some { p with
        anchor := some (c + len), counters := { p.counters with stalls := min (p.counters.stalls + 1) 65535 } } ∧
      ∀ j, j ≠ p.id → t.perf j = s.perf j := by
  have table : ∀ j, t.perf j = (setPerf (p.stalled len) s).perf j := fun j => by
    unfold State.perf
    rw [perfs, h.perfs]
  refine ⟨?_, ?_, fun j ne => (table j).trans (perf_setPerf_ne ne)⟩
  · rw [State.voice, voices, h.frame]
    exact rd_wr_same unit
  · refine (table p.id).trans ((perf_setPerf_same (p := p.stalled len) perf).trans ?_)
    rw [Perf.stalled, anchor]
    rfl

/-- All that the end of a stall changes from the state in which the page was read. -/
theorem StallEnded.whole {u w z t : State} {v len : Nat} {p : Perf} {x y : Voice} {st : Store} {l : Line}
    (h : StallEnded w z v len p x) (filled : w = { u with voices := wr u.voices v y, store := st })
    (sent : t = { z with store := t.store, line := l }) : t = { u with
      perfs := t.perfs, voices := wr u.voices v x, store := t.store, line := l } := by
  have perfs : t.perfs = z.perfs := by rw [sent]
  have frame := h.frame
  rw [← perfs] at frame
  clear h perfs
  generalize t.perfs = a at *
  generalize t.store = b at *
  subst sent
  rw [frame]
  subst filled
  exact congrArg (fun c => ({ u with perfs := a, voices := c, store := b, line := l } : State)) wr_wr

/-- What the table and the voice show where a page read ends the stall (R88). -/
theorem stall_read_ends {u t : State} {v a c serial : Nat} {es : List Event} {p : Perf} {x : Voice} (unit : unitOk 4 v = true)
    (record : u.perf p.id = some p) (anchor : p.anchor = some c)
    (ended : StallEnded (pageTaken v serial es u)
      (endStall v (pageTaken v serial es u)) v (u.now - a) p x)
    (frame : t = { endStall v (pageTaken v serial es u) with
      store := t.store, line := u.line.pumped }) : t.voice v = x ∧ t.perf p.id = some { p with
        anchor := some (c + (u.now - a)), counters := { p.counters with stalls := min (p.counters.stalls + 1) 65535 } } ∧
      (∀ j, j ≠ p.id → t.perf j = u.perf j) ∧ (t.voice v).stall = none ∧
      (t.voice v).moves = (u.voice v).moves ++ [((u.voice v).idx, u.now - a)] ∧ t = { u with
        perfs := t.perfs, voices := wr u.voices v (t.voice v), store := t.store, line := u.line.pumped } := by
  have voice : (pageTaken v serial es u).voice v = (u.voice v).filled serial es :=
    voice_setVoice unit
  have moves := ended.moves
  rw [voice] at moves
  have whole := ended.whole (u := u) (y := (u.voice v).filled serial es) (st := (clearOp u).store) rfl frame
  obtain ⟨same, found, others⟩ := ended.shows (t := t) record anchor unit (by rw [frame]) (by rw [frame])
  exact ⟨same, found, others, same ▸ ended.stall, same ▸ moves, same ▸ whole⟩

theorem stall_read_takes {u : State} {v a c serial : Nat} {es : List Event} {p : Perf} {e : TimeEvent}
    (unit : unitOk 4 v = true) (perf : voicePerf u v = some p) (stall : (u.voice v).stall = some a)
    (anchor : p.anchor = some c) (event : (timeline u p)[(u.voice v).idx]? = some e) (going : p.stop ≠ .cut)
    (point : ∀ k, p.stopPoint = some k → (u.voice v).idx ≤ k) :
    ∃ x, StallEnded (pageTaken v serial es u) (endStall v (pageTaken v serial es u)) v (u.now - a) p x ∧
      x.idx = (u.voice v).idx + 1 ∧ x.cum = e.cum ∧ x.strokes = (u.voice v).strokes ++ (bellList e.bells).map fun b =>
        { bell := b, intensity := e.intensity
          due := max u.now (e.sound + (u.now - a) - flyTime (u.bellCfg b) e.intensity), idx := (u.voice v).idx } := by
  have next : nextEvent (pageTaken v serial es u) (p.stalled (u.now - a))
      (((pageTaken v serial es u).voice v).resumed (u.now - a)) = some { e with sound := e.sound + (u.now - a) } := by
    have moved := timeline_stalled (s := u) (d := u.now - a) (i := (u.voice v).idx) anchor
    rw [event] at moved
    rw [pageTaken_voice unit]
    exact (nextEvent_open (p := p.stalled (u.now - a)) (x := ((u.voice v).filled serial es).resumed (u.now - a)) going
      point).trans moved
  obtain ⟨x, ended, idx, cum, strokes⟩ := endStall_takes (s := pageTaken v serial es u) unit
    ((pageTaken_perf unit).trans perf) (a := a) (by rw [pageTaken_voice unit]; exact stall) next
  rw [pageTaken_voice unit] at idx strokes
  exact ⟨x, ended, idx, cum, strokes⟩

theorem stall_read_stops {u : State} {v a serial : Nat} {es : List Event} {p : Perf}
    (unit : unitOk 4 v = true) (perf : voicePerf u v = some p) (stall : (u.voice v).stall = some a)
    (stopped : p.stop = .cut ∨ ∃ k, p.stopPoint = some k ∧ k < (u.voice v).idx) :
    StallEnded (pageTaken v serial es u) (endStall v (pageTaken v serial es u)) v (u.now - a) p
      (((u.voice v).filled serial es).resumed (u.now - a)) := by
  have next : nextEvent (pageTaken v serial es u) (p.stalled (u.now - a))
      (((pageTaken v serial es u).voice v).resumed (u.now - a)) = none := by
    rw [pageTaken_voice unit]
    exact nextEvent_stopped (x := ((u.voice v).filled serial es).resumed (u.now - a)) stopped
  have ended := endStall_stops (s := pageTaken v serial es u) unit ((pageTaken_perf unit).trans perf) (a := a)
    (by rw [pageTaken_voice unit]; exact stall) next
  rw [pageTaken_voice unit] at ended
  exact ended

/-- The first half of O47: a page read for a voice (R82, R88, R143). -/
theorem pageReads_voices {d v at' : Nat} {s u : State} {q : ReadReq} {es : List Event} {src : Option (Bool × Nat × Image)}
    (due : opDue isRead s = some d) (reach : reachUs d s = some u) (on : u.power.phase = .on)
    (op : u.store.op = some (.read q es src, at')) (reader : q.reader = .voice v) (unit : unitOk 4 v = true) :
    let x := u.voice v
    ∃ t y, exec .pageReadEnd s = .next t ∧ BufferFilled x.current y.current q.serial es ∧
      BufferFilled x.next y.next q.serial es ∧ y = { x with current := y.current, next := y.next } ∧
      let fills := t = { u with voices := wr u.voices v y, store := t.store, line := u.line.pumped }
      ((x.stall = none ∨ x.perf = none) → fills) ∧
      (∀ p a c e, x.stall = some a → voicePerf u v = some p → p.anchor = some c → (timeline u p)[x.idx]? = some e →
        let len := u.now - a
        let ended := t.perf p.id = some { p with
            anchor := some (c + len), counters := { p.counters with stalls := min (p.counters.stalls + 1) 65535 } } ∧
          (∀ j, j ≠ p.id → t.perf j = u.perf j) ∧ (t.voice v).stall = none ∧
          (t.voice v).moves = x.moves ++ [(x.idx, len)] ∧
          t = { u with
            perfs := t.perfs, voices := wr u.voices v (t.voice v), store := t.store, line := u.line.pumped }
        (y.hasPage e.page = false → fills) ∧
        (y.hasPage e.page = true → p.stop ≠ .cut → (∀ k, p.stopPoint = some k → x.idx ≤ k) →
          ended ∧ (t.voice v).idx = x.idx + 1 ∧ (t.voice v).cum = e.cum ∧
          (t.voice v).strokes = x.strokes ++ (bellList e.bells).map (fun b =>
            { bell := b, intensity := e.intensity
              due := max u.now (e.sound + len - flyTime (u.bellCfg b) e.intensity), idx := x.idx })) ∧
        (y.hasPage e.page = true → (p.stop = .cut ∨ ∃ k, p.stopPoint = some k ∧ k < x.idx) →
          ended ∧ (t.voice v).idx = x.idx ∧ (t.voice v).strokes = x.strokes)) := by
  dsimp only
  obtain ⟨t, run, frame⟩ := pageRead_voice due reach on op reader
  refine ⟨t, (u.voice v).filled q.serial es, run, filled_filled _ _ _, filled_filled _ _ _, rfl, fun none => ?_,
    fun p a c e stall perf anchor event => ?_⟩
  · exact frame _ (voicePageRead_alone (k := q.serial) (es := es) (s := clearOp u) unit none) rfl rfl
  · have record : u.perf p.id = some p := by
      obtain ⟨id, -, found⟩ := Option.bind_eq_some_iff.mp perf
      rw [perf_id found]
      exact found
    have mayEnd := stallMayEnd_stalled (v := v) (s := pageTaken v q.serial es u) (p := p) (e := e) (a := a)
      (by rw [pageTaken_voice unit]; exact stall) ((pageTaken_perf unit).trans perf)
      (by rw [pageTaken_voice unit]; exact event)
    rw [pageTaken_voice unit] at mayEnd
    have ended := fun (x : Voice) (page : ((u.voice v).filled q.serial es).hasPage e.page = true)
      (h : StallEnded (pageTaken v q.serial es u) (endStall v (pageTaken v q.serial es u)) v (u.now - a) p x) =>
      stall_read_ends unit record anchor h
        (frame _ (mayEnd.trans (if_pos page)) (by rw [h.frame]; rfl) (by rw [h.frame]; rfl))
    refine ⟨fun page => ?_, fun page going point => ?_, fun page stopped => ?_⟩
    · exact frame _ (mayEnd.trans (if_neg (by rw [page]; exact Bool.false_ne_true))) rfl rfl
    · obtain ⟨x, taken, idx, cum, strokes⟩ := stall_read_takes (serial := q.serial) (es := es) unit perf stall anchor event
        going point
      obtain ⟨same, ends⟩ := ended x page taken
      rw [same] at ends ⊢
      exact ⟨ends, idx, cum, strokes⟩
    · obtain ⟨same, ends⟩ := ended _ page (stall_read_stops unit perf stall stopped)
      rw [same] at ends ⊢
      exact ⟨ends, rfl, rfl⟩

end Sys2Proof.Machine

open Sys2Proof Sys2Proof.Machine
end

section
/-! Page reads for the quarter profiles (R106, R107). -/

namespace Sys2Proof.Machine

/-! ### What the frontier loop leaves of the builds -/

/-- A read asked for a quarter profile is still asked for, or has begun. -/
def BuildsStand (s t : State) : Prop := ∀ (r : ReadReq) (q : Nat), r.reader = .build q → BuildAsked s.store r → BuildAsked t.store r

theorem BuildsStand.ofStore {s t : State} (h : t.store = s.store) : BuildsStand s t := fun _ _ _ a => h ▸ a

theorem BuildsStand.trans {s t u : State} (h : BuildsStand s t) (k : BuildsStand t u) : BuildsStand s u :=
  fun r q e a => k r q e (h r q e a)

/-- The same, the last operation first. -/
theorem BuildsStand.after {s t u : State} (k : BuildsStand t u) (h : BuildsStand s t) : BuildsStand s u := h.trans k

theorem fetchPage_builds (v slot page : Nat) (s : State) : BuildsStand s (fetchPage v slot page s).1 := by
  unfold fetchPage
  split
  · exact (askRead_on (.voice v) slot page s).asked
  · exact .ofStore rfl

theorem takeVoice_builds (v id : Nat) (slot : Option Nat) (s : State) : BuildsStand s (takeVoice v id slot s) := by
  cases slot with
  | none => exact .ofStore rfl
  | some n => exact (fetchPage_builds v n 0 s).trans ((fetchPage_builds v n 1 _).trans (.ofStore rfl))

theorem admitPerf_builds (p : Perf) (s : State) : BuildsStand s (admitPerf p s) := by
  have last : ∀ u, BuildsStand s u → BuildsStand s (match p.kind with
      | .clock c => if c.carried = true then { u with clock := writeLate c.date c.slot u.clock } else u
      | _ => u) := by
    intro u h
    split
    · split
      · exact h.trans (.ofStore rfl)
      · exact h
    · exact h
  refine last _ ?_
  split
  · refine BuildsStand.trans (.ofStore ?_) (takeVoice_builds _ _ _ _)
    rw [joinScene_store, placeClaims_eq]; rfl
  · refine .ofStore ?_
    rw [joinScene_store, placeClaims_eq]; rfl

theorem createPerf_builds (p : Perf) (s : State) : BuildsStand s (createPerf p s).1 := by
  simp only [createPerf]
  split
  · exact .ofStore rfl
  · split
    · exact (admitPerf_builds _ _).after (.ofStore rfl)
    · split
      · exact .ofStore rfl
      · exact .ofStore rfl

theorem soundQuarter_builds (k : Nat) (sh : Shape) (b : Nat) (s : State) : BuildsStand s (soundQuarter k sh b s) := by
  have h := createPerf_builds (clockPerf s k sh b) s
  unfold soundQuarter
  generalize createPerf (clockPerf s k sh b) s = c at h ⊢
  obtain ⟨t, o⟩ := c
  have recorded : ∀ q, BuildsStand s (recordQuarter q k t) := fun q => h.trans (.ofStore rfl)
  cases o with
  | full | admitted => exact recorded _
  | waiting | yielded =>
    dsimp only
    split
    · exact (recorded _).trans (createPerf_builds _ _)
    · exact recorded _

theorem evaluateQuarter_builds (k : Nat) (s : State) : BuildsStand s (evaluateQuarter k s) := by
  have recorded : ∀ q, BuildsStand s (recordQuarter q k s) := fun q => .ofStore rfl
  unfold evaluateQuarter
  dsimp only
  repeat' split
  all_goals first | exact recorded _ | exact soundQuarter_builds _ _ _ _

theorem frontierLoop_builds (s : State) : BuildsStand s (frontierLoop s) := by
  have rounds : ∀ n s, BuildsStand s (frontierRounds n s) := by
    intro n
    induction n with
    | zero => exact fun s => .ofStore rfl
    | succ n ih =>
      intro s
      rw [frontierRounds]
      split
      · exact (evaluateQuarter_builds s.clock.frontier s).trans ((ih _).after (.ofStore rfl))
      · exact .ofStore rfl
  unfold frontierLoop
  split
  · exact rounds _ _
  · exact .ofStore rfl

/-- Before the frontier's evaluation instant the loop does nothing (R110). -/
theorem frontierLoop_still {s : State} (h : (s.localMs : Int) < evaluationAt s s.clock.frontier) : frontierLoop s = s := by
  have none : frontierReached s = false := decide_eq_false (Int.not_le.mpr h)
  unfold frontierLoop
  split
  · generalize s.localSecs / 900 + 2 - s.clock.frontier = n
    cases n with
    | zero => rfl
    | succ n =>
      rw [frontierRounds, none]
      rfl
  · rfl

/-! ### A profile's values -/

theorem stepsTo_zero (e : Event) (l : List Event) : stepsTo (e :: l) 0 = e.delta := by
  simp [stepsTo]

theorem stepsTo_succ (e : Event) (l : List Event) (i : Nat) : stepsTo (e :: l) (i + 1) = e.delta + stepsTo l i := by
  simp [stepsTo]

/-- The events that count within the limit of 65,535 steps, each with its cumulative step (R85). -/
theorem cumulated_get (n : Nat) (l : List Event) (i : Nat) (x : Event × Nat) : (cumulated n l)[i]? = some x ↔
    l[i]? = some x.1 ∧ x.2 = n + stepsTo l i ∧ n + stepsTo l i ≤ 65535 := by
  induction l generalizing n i with
  | nil => simp [cumulated]
  | cons e l ih =>
    unfold cumulated
    by_cases far : 65535 < n + e.delta
    · rw [if_pos far]
      have beyond : n + e.delta ≤ n + stepsTo (e :: l) i := by
        cases i with
        | zero => rw [stepsTo_zero]
        | succ i => rw [stepsTo_succ]; omega
      refine ⟨nofun, fun h => absurd h.2.2 (by omega)⟩
    · rw [if_neg far]
      cases i with
      | zero =>
        rw [List.getElem?_cons_zero, List.getElem?_cons_zero, stepsTo_zero, Option.some_inj, Option.some_inj]
        constructor
        · rintro rfl
          exact ⟨rfl, rfl, Nat.not_lt.mp far⟩
        · rintro ⟨rfl, k, -⟩
          rw [← k]
      | succ i =>
        rw [List.getElem?_cons_succ, List.getElem?_cons_succ, ih, stepsTo_succ, Nat.add_assoc]

theorem cumulated_counted {l : List Event} {i : Nat} : i < (cumulated 0 l).length ↔ StepCounted l i := by
  constructor
  · intro h
    obtain ⟨a, -, c⟩ := (cumulated_get 0 l i _).mp (List.getElem?_eq_getElem h)
    exact ⟨(List.getElem?_eq_some_iff.mp a).1, by rwa [Nat.zero_add] at c⟩
  · rintro ⟨a, c⟩
    have found := (cumulated_get 0 l i (l[i], 0 + stepsTo l i)).mpr
      ⟨List.getElem?_eq_getElem a, rfl, by rwa [Nat.zero_add]⟩
    exact (List.getElem?_eq_some_iff.mp found).1

/-- n_last of a tune (R106). -/
theorem cumulated_last {l : List Event} : (∀ i, StepCounted l i → ¬StepCounted l (i + 1) →
      (((cumulated 0 l).map (·.2)).getLast?).getD 0 = stepsTo l i) ∧
    (¬StepCounted l 0 → (((cumulated 0 l).map (·.2)).getLast?).getD 0 = 0) := by
  refine ⟨fun i here next => ?_, fun none => ?_⟩
  · have low := cumulated_counted.mpr here
    have high : ¬i + 1 < (cumulated 0 l).length := fun k => next (cumulated_counted.mp k)
    have last : (cumulated 0 l).length - 1 = i := by omega
    obtain ⟨-, e, -⟩ := (cumulated_get 0 l i _).mp (List.getElem?_eq_getElem low)
    rw [List.getLast?_eq_getElem?, List.length_map, last, List.getElem?_map, List.getElem?_eq_getElem low, Option.map_some,
      Option.getD_some, e, Nat.zero_add]
  · have empty : cumulated 0 l = [] := List.eq_nil_of_length_eq_zero (Nat.eq_zero_of_not_pos fun k =>
      none (cumulated_counted.mp k))
    rw [empty]
    rfl

/-- The least of 0 and of a list. -/
theorem foldl_min_le (l : List Int) (a : Int) : l.foldl min a ≤ a ∧ (∀ x ∈ l, l.foldl min a ≤ x) ∧
    (l.foldl min a = a ∨ l.foldl min a ∈ l) := by
  induction l generalizing a with
  | nil => exact ⟨le_refl _, nofun, .inl rfl⟩
  | cons b l ih =>
    obtain ⟨low, all, one⟩ := ih (min a b)
    rw [List.foldl_cons]
    refine ⟨low.trans (min_le_left _ _), fun x hx => ?_, ?_⟩
    · rcases List.mem_cons.mp hx with rfl | hx
      · exact low.trans (min_le_right _ _)
      · exact all x hx
    · rcases one with e | e
      · rcases min_choice a b with k | k
        · exact .inl (e.trans k)
        · exact .inr (by rw [e, k]; exact List.mem_cons_self)
      · exact .inr (List.mem_cons_of_mem _ e)

theorem roundHalfAway_whole (t : Nat) : (roundHalfAway ((t : Int) * (100 : Nat)) 100).toNat = t := by
  rw [roundHalfAway, ← Nat.cast_mul, if_pos (Int.natCast_nonneg _)]
  simp only [Int.toNat_natCast]
  omega

theorem effectiveTempo_own (t : Nat) : effectiveTempo t 100 = max 20 (min t 240) := by
  rw [effectiveTempo, roundHalfAway_whole, clampN_eq (by decide), Nat.min_comm]

/-- The values of a profile that has been read (R106). -/
theorem profileOf_read (s : State) (slot : Nat) (events : List Event) :
    ∃ n d e, profileOf s slot events = .ready n d e ∧ ProfileRead s slot events n d e := by
  refine ⟨_, _, _, rfl, cumulated_last, ?_, ?_⟩
  · rw [effectiveTempo_own]
    rfl
  · rw [effectiveTempo_own]
    dsimp only
    obtain ⟨low, all, one⟩ := foldl_min_le ((cumulated 0 (events.take (s.slot slot).events)).flatMap fun x =>
      (bellList x.1.bells).map fun b =>
        (stepTime x.2 (max 20 (min (s.slot slot).tempo 240)) (s.slot slot).division : Int) -
          flyTime (s.bellCfg b) x.1.intensity) 0
    refine ⟨low, fun i x b here event unit struck => all _ (List.mem_flatMap.mpr ?_), one.imp id fun h => ?_⟩
    · have found := List.getElem?_eq_getElem (cumulated_counted.mpr here)
      obtain ⟨same, steps, -⟩ := (cumulated_get 0 _ i _).mp found
      refine ⟨_, List.mem_of_getElem? found, List.mem_map.mpr ⟨b, ?_, ?_⟩⟩
      · rw [mem_bellList, Option.some_inj.mp (same.symm.trans event)]
        exact ⟨unit, struck⟩
      · rw [steps, Nat.zero_add, Option.some_inj.mp (same.symm.trans event)]
        rfl
    · obtain ⟨x, hx, h⟩ := List.mem_flatMap.mp h
      obtain ⟨b, hb, e⟩ := List.mem_map.mp h
      obtain ⟨i, found⟩ := List.getElem?_of_mem hx
      obtain ⟨same, steps, -⟩ := (cumulated_get 0 _ i _).mp found
      obtain ⟨unit, struck⟩ := mem_bellList.mp hb
      refine ⟨i, x.1, b, cumulated_counted.mp (List.getElem?_eq_some_iff.mp found).1, same, unit, struck, ?_⟩
      refine e.symm.trans ?_
      rw [steps, Nat.zero_add]
      rfl

/-! ### The page read -/

theorem finishRestart_none {s : State} (h : s.line.restart ≠ .building) : finishRestart s = s :=
  if_pos (by rw [decide_eq_true h]; rfl)

theorem finishStartUp_on {s : State} (h : s.power.phase = .on) : finishStartUp s = s :=
  if_pos (by rw [h]; rfl)

theorem buildPageRead_line (q k : Nat) (es : List Event) (s : State) : (buildPageRead q k es s).line = s.line := by
  unfold buildPageRead
  split
  · split
    · rfl
    · dsimp only
      split <;> rfl
  · rfl

theorem readEnds_build {u : State} {q : ReadReq} {es : List Event} {src : Option (Bool × Nat × Image)} {a n : Nat}
    (on : u.power.phase = .on) (idle : u.line.restart ≠ .building) (h : u.store.op = some (.read q es src, a))
    (reader : q.reader = .build n) :
    readEnds u = kick (frontierLoop (buildPageRead n q.serial es (clearOp u))) := by
  have line : (frontierLoop (buildPageRead n q.serial es (clearOp u))).line = u.line :=
    (frontierLoop_lineStands _).1.trans (buildPageRead_line _ _ _ _)
  have power : (frontierLoop (buildPageRead n q.serial es (clearOp u))).power = u.power :=
    ((buildPageRead_struck n q.serial es (clearOp u)).trans (frontierLoop_struck _)).power
  unfold readEnds deliver
  rw [h]
  dsimp only
  rw [reader]
  dsimp only
  rw [finishRestart_none (by rw [line]; exact idle), finishStartUp_on (by rw [power]; exact on)]

/-- A page read that leaves quarter `n`'s profile as `x`; the loop runs on it (R107, R110). -/
theorem buildRead_becomes {u b : State} {n : Nat} {x : Profile} {st : Store} {due : Option Nat} {d : Nat} {s : State}
    {body : State → State} (h : due = some d) (reach : reachUs d s = some u) (on : u.power.phase = .on)
    (unit : unitOk 4 n = true) (k : body u = kick (frontierLoop b))
    (made : b = { u with clock := { u.clock with profiles := wr u.clock.profiles n x }, store := st }) :
    ∃ t, timed due body s = .next t ∧ t.profile n = x ∧
      ((u.localMs : Int) < evaluationAt { u with clock := { u.clock with profiles := wr u.clock.profiles n x } }
          u.clock.frontier →
        t = { u with
          clock := { u.clock with profiles := wr u.clock.profiles n x }, store := t.store, line := u.line.pumped }) ∧
      ∀ r q, r.reader = .build q → BuildAsked st r → ReadAsked t.store r := by
  obtain ⟨t, run, goes, sent, frame⟩ := timed_kicks (v := frontierLoop b) h reach k
  obtain ⟨line, profiles⟩ := frontierLoop_lineStands b
  have power : (frontierLoop b).power = u.power := by
    rw [(frontierLoop_struck b).power, made]
  have store : t.store = (kick (frontierLoop b)).store := by
    have whole : timed due body s = .next (pump (kick (frontierLoop b))) := by
      rw [h, timed_due reach, k]
      rfl
    rw [Host.Outcome.next.inj (run.symm.trans whole), pump_eq]
  refine ⟨t, run, ?_, fun ahead => ?_, fun r q e a => ?_⟩
  · have same : t.profile n = b.profile n := by
      unfold State.profile
      rw [frame, ← profiles]
    rw [same, made]
    exact rd_wr_same unit
  · have still : frontierLoop b = b := by
      refine frontierLoop_still ?_
      rw [made]
      exact lt_of_lt_of_eq ahead (evaluationAt_congr rfl rfl _)
    have pumped := sent (by rw [power]; exact on)
    rw [still] at frame pumped
    rw [frame, pumped, made]
  · rw [store]
    have asked := kick_build e (frontierLoop_builds b r q e (by rw [made]; exact a))
    exact asked.imp id fun ⟨es, t, h⟩ => ⟨es, none, t, h⟩

/-- What a page read does to the build it was asked for (R106, R107). -/
theorem buildPageRead_abandoned {n k pg serial : Nat} {es es0 : List Event} {aw : Bool} {s : State}
    (h : s.profile n = .building pg k es0 aw) (ne : k ≠ serial) : buildPageRead n serial es s = s := by
  unfold buildPageRead
  rw [h]
  exact if_pos ne

theorem buildPageRead_next {n k pg : Nat} {es es0 : List Event} {aw : Bool} {s : State}
    (h : s.profile n = .building pg k es0 aw) (more : pg + 1 < (s.slot (quarterSlot s.cfg.clock n)).pages) :
    buildPageRead n k es s = setProfile n (.building (pg + 1) (s.store.serial + 1) (es0 ++ es) aw)
      (askRead (.build n) (quarterSlot s.cfg.clock n) (pg + 1) s).1 := by
  unfold buildPageRead
  rw [h]
  exact (if_neg (not_not_intro rfl)).trans (if_pos more)

theorem buildPageRead_last {n k pg : Nat} {es es0 : List Event} {aw : Bool} {s : State}
    (h : s.profile n = .building pg k es0 aw) (last : (s.slot (quarterSlot s.cfg.clock n)).pages ≤ pg + 1) :
    buildPageRead n k es s = setProfile n (profileOf s (quarterSlot s.cfg.clock n) (es0 ++ es)) s := by
  unfold buildPageRead
  rw [h]
  exact (if_neg (not_not_intro rfl)).trans (if_neg (Nat.not_lt.mpr last))

end Sys2Proof.Machine

open Sys2Proof Sys2Proof.Machine

/-- Settles O47. -/
theorem pageReadsFillBuffersAndProfiles : Obligations.PageReadsFillBuffersAndProfiles := by
  refine ⟨fun d v a s u q es src due reach on op reader unit => pageReads_voices due reach on op reader unit,
    fun d n a pg k s u q es es0 src aw due reach on idle op reader unit building => ?_⟩
  dsimp only
  have ends := readEnds_build on idle op reader
  by_cases own : k = q.serial
  · subst own
    by_cases more : pg + 1 < (u.slot (quarterSlot u.cfg.clock n)).pages
    · rw [buildPageRead_next (s := clearOp u) building more] at ends
      obtain ⟨t, run, profile, whole, asked⟩ := buildRead_becomes (st := (askRead (.build n)
        (quarterSlot u.cfg.clock n) (pg + 1) (clearOp u)).1.store)
        (x := .building (pg + 1) (u.store.serial + 1) (es0 ++ es) aw) due reach on unit ends rfl
      exact ⟨t, run, fun ne => absurd rfl ne, fun _ _ => ⟨_, Nat.lt_succ_self _, ⟨profile, whole⟩,
        asked _ n rfl (askRead_build n _ _ (clearOp u))⟩, fun _ last => absurd more (Nat.not_lt.mpr last)⟩
    · obtain ⟨x, y, z, value, read⟩ := profileOf_read u (quarterSlot u.cfg.clock n) (es0 ++ es)
      rw [buildPageRead_last (s := clearOp u) building (Nat.not_lt.mp more)] at ends
      obtain ⟨t, run, profile, whole, -⟩ := buildRead_becomes (st := (clearOp u).store) (x := .ready x y z)
        due reach on unit ends (by
          rw [show profileOf (clearOp u) (quarterSlot (clearOp u).cfg.clock n) (es0 ++ es) = _ from value]
          rfl)
      exact ⟨t, run, fun ne => absurd rfl ne, fun _ k => absurd k more, fun _ _ => ⟨x, y, z, ⟨profile, whole⟩, read⟩⟩
  · rw [buildPageRead_abandoned (s := clearOp u) building own] at ends
    obtain ⟨t, run, profile, whole, -⟩ := buildRead_becomes (st := (clearOp u).store) (x := u.profile n)
      due reach on unit ends (by
        rw [State.profile, wr_rd unit]
        rfl)
    exact ⟨t, run, fun _ => ⟨profile, whole⟩, fun e => absurd e own, fun e => absurd e own⟩

end

section
/-! The directory scan and the loads of an image (R152, R153, R200, R202). -/

namespace Sys2Proof.Machine

/-! ### What stands while the store goes on -/

theorem kick_readAsked {s : State} {r : ReadReq} (h : ReadAsked s.store r) : ReadAsked (kick s).store r := by
  rcases h with h | ⟨es, src, t, h⟩
  · refine (kick_asked h).imp id ?_
    rintro ⟨st, t, -, -, e⟩
    obtain ⟨es, src, begun⟩ := beginRead_read st r
    exact ⟨es, src, t, by rw [e, begun]⟩
  · exact .inr ⟨es, src, t, (kick_busy h).1⟩

/-- The erase of slot `k` is to be resumed: held, or with its entries in the queue (R153). -/
def Resuming (st : Store) (k : Nat) : Prop := k ∈ st.resume ∨
  (.dirWrite k .final ∈ st.entries ∧ ∀ x ∈ (rd st.slots k emptyEntry).sectors, .erase k x ∈ st.entries)

theorem joinResumptions_resuming {st : Store} {l : List Nat} {k : Nat} (h : Resuming { st with resume := l } k) :
    Resuming (joinResumptions st l) k := by
  induction l generalizing st with
  | nil => exact h
  | cons n l ih =>
    unfold joinResumptions
    split
    · refine ih ?_
      have grown : ({ st with queue := st.queue ++ resumption st n, resume := l } : Store).entries =
        st.entries ++ resumption st n := entries_append st _
      rcases h with h | ⟨final, erases⟩
      · rcases List.mem_cons.mp h with rfl | h
        · refine .inr ⟨?_, fun x hx => ?_⟩
          · rw [grown]
            exact List.mem_append_right _ (List.mem_append_right _ (List.mem_singleton.mpr rfl))
          · rw [grown]
            exact List.mem_append_right _ (List.mem_append_left _ (List.mem_map_of_mem hx))
        · exact .inl h
      · refine .inr ⟨?_, fun x hx => ?_⟩
        · rw [grown]
          exact List.mem_append_left _ final
        · rw [grown]
          exact List.mem_append_left _ (erases x hx)
    · exact h

theorem begun_resuming {st : Store} {now k : Nat} (h : Resuming st k) : Resuming (st.begun now) k := by
  have frame := (begun_eq st now).1
  unfold Resuming at *
  rw [begun_entries, show (st.begun now).resume = st.resume from (congrArg Store.resume frame :),
    show (st.begun now).slots = st.slots from (congrArg Store.slots frame :)]
  exact h

theorem kick_resuming {s : State} {k : Nat} (h : Resuming s.store k) : Resuming (kick s).store k :=
  joinResumptions_resuming (begun_resuming (joinResumptions_resuming h))

/-! ### The directory in order -/

theorem mem_table {α : Type} {n : Nat} {v : Vector α n} {x d : α} : x ∈ v.toList ↔ ∃ k, unitOk n k = true ∧ rd v k d = x := by
  rw [Vector.mem_toList_iff, Vector.mem_iff_getElem]
  constructor
  · rintro ⟨i, hi, rfl⟩
    exact ⟨i + 1, unitOk_iff.mpr ⟨Nat.succ_pos _, hi⟩, by simp [rd, hi]⟩
  · rintro ⟨k, unit, rfl⟩
    obtain ⟨h1, h2⟩ := unitOk_iff.mp unit
    have hi : k - 1 < n := by omega
    exact ⟨k - 1, hi, by simp [rd, hi]⟩

theorem currentRecord_entry (a b : DirRecord) : (currentRecord a b).entry =
    if b.valid = true ∧ (a.valid = false ∨ a.seq < b.seq) then b.entry else a.entry := by
  unfold currentRecord
  cases ha : a.valid
  · cases hb : b.valid <;> simp
  · cases hb : b.valid
    · simp
    · by_cases h : a.seq < b.seq <;> simp [h]

/-- The entries as the scan finds them (R140, R153). -/
def scanTable (st : Store) : Vector DirEntry 64 :=
  tableOf 64 fun n => (currentRecord (rd st.recA n blankRecord) (rd st.recB n blankRecord)).entry

theorem scanTable_entry {st : Store} {k : Nat} (unit : unitOk 64 k = true) : rd (scanTable st) k emptyEntry = scanEntry st k :=
  (rd_tableOf unit).trans (currentRecord_entry _ _)

theorem scanDirectory_slot {st : Store} {k : Nat} (unit : unitOk 64 k = true) :
    rd (scanDirectory st).slots k emptyEntry = scanned (scanTable st) k := rd_tableOf unit

theorem claimedElsewhere_iff {st : Store} {k x : Nat} : claimedElsewhere (scanTable st) k x = false ↔
    ∀ j, unitOk 64 j = true → j ≠ k → x ∈ (scanEntry st j).sectors → (scanEntry st j).state = .erasing ∧ k < j := by
  have body : ∀ i, i ∈ List.range 64 → rd (scanTable st) (i + 1) emptyEntry = scanEntry st (i + 1) := fun i hi =>
    scanTable_entry (unitOk_iff.mpr ⟨Nat.succ_pos _, List.mem_range.mp hi⟩)
  unfold claimedElsewhere
  rw [List.any_eq_false]
  constructor
  · intro h j unit ne claimed
    obtain ⟨h1, h2⟩ := unitOk_iff.mp unit
    have here : j - 1 ∈ List.range 64 := List.mem_range.mpr (by omega)
    have no := h _ here
    rw [body _ here, Nat.sub_add_cancel h1] at no
    have states : ¬((scanEntry st j).state ≠ .erasing ∨ j < k) := fun c => no (by simp [ne, claimed, c])
    exact ⟨by_contra fun c => states (.inl c), by omega⟩
  · intro h i hi
    rw [body i hi]
    simp only [Bool.and_eq_true, Bool.or_eq_true, decide_eq_true_eq, List.contains_iff_mem]
    rintro ⟨⟨ne, claimed⟩, c⟩
    obtain ⟨erasing, lt⟩ := h (i + 1) (unitOk_iff.mpr ⟨Nat.succ_pos _, List.mem_range.mp hi⟩) ne claimed
    exact c.elim (· erasing) fun c => by omega

theorem scanned_writing {st : Store} {k : Nat} (unit : unitOk 64 k = true) (h : (scanEntry st k).state = .writing) :
    scanned (scanTable st) k = { scanEntry st k with state := .incomplete } := by
  unfold scanned
  dsimp only
  rw [scanTable_entry unit, h]

theorem scanned_erasing {st : Store} {k : Nat} (unit : unitOk 64 k = true) (h : (scanEntry st k).state = .erasing) :
    scanned (scanTable st) k = { scanEntry st k with
      sectors := (scanEntry st k).sectors.filter fun x => !claimedElsewhere (scanTable st) k x } := by
  unfold scanned
  dsimp only
  rw [scanTable_entry unit, h]

theorem scanned_other {st : Store} {k : Nat} (unit : unitOk 64 k = true) (w : (scanEntry st k).state ≠ .writing)
    (e : (scanEntry st k).state ≠ .erasing) : scanned (scanTable st) k = scanEntry st k := by
  unfold scanned
  dsimp only
  rw [scanTable_entry unit]
  split
  · next h => exact absurd h e
  · next h => exact absurd h w
  · rfl

/-- A store that has the directory of the scan, and of which nothing but reads and operations has gone on since, has it in
order (R153). -/
theorem directoryScanned {s t : State} {x : Store} (slots : t.store.slots = (scanDirectory x).slots)
    (recA : x.recA = s.store.recA) (recB : x.recB = s.store.recB)
    (free : t.store.free = (scanDirectory x).free) (load : t.store.load = none)
    (resumes : ∀ k, Resuming (scanDirectory x) k → Resuming t.store k) : DirectoryScanned s t := by
  have entry : ∀ k, scanEntry x k = scanEntry s.store k := fun k => by
    rw [scanEntry, recA, recB]
    rfl
  have slot : ∀ k, unitOk 64 k = true → t.slot k = scanned (scanTable x) k := fun k unit =>
    (congrArg (fun v => rd v k emptyEntry) slots).trans (scanDirectory_slot unit)
  refine ⟨fun k unit h => ?_, fun k unit h => ?_, fun k unit w e => ?_, fun y => ?_, load, fun k unit h => ?_⟩
  · rw [slot k unit, scanned_writing unit ((congrArg DirEntry.state (entry k)).trans h), entry]
  · refine ⟨(scanEntry x k).sectors.filter fun y => !claimedElsewhere (scanTable x) k y, ?_, ?_, fun y => ?_⟩
    · rw [slot k unit, scanned_erasing unit ((congrArg DirEntry.state (entry k)).trans h), entry]
    · rw [← entry]
      exact List.filter_sublist
    · rw [List.mem_filter, Bool.not_eq_true', claimedElsewhere_iff]
      simp only [entry]
  · rw [slot k unit, scanned_other unit (by rw [entry]; exact w) (by rw [entry]; exact e), entry]
  · have owned : ∀ y, y ∈ (scanDirectory x).slots.toList.flatMap (·.sectors) ↔
        ∃ k, unitOk 64 k = true ∧ y ∈ (t.slot k).sectors := fun y => by
      rw [List.mem_flatMap]
      constructor
      · rintro ⟨e, he, hy⟩
        obtain ⟨k, unit, found⟩ := (mem_table (d := emptyEntry)).mp he
        exact ⟨k, unit, by rw [State.slot, slots, found]; exact hy⟩
      · rintro ⟨k, unit, hy⟩
        rw [State.slot, slots] at hy
        exact ⟨_, mem_table.mpr ⟨k, unit, rfl⟩, hy⟩
    rw [free]
    show y ∈ (List.range 64).filter (fun sec => !((scanDirectory x).slots.toList.flatMap (·.sectors)).contains sec) ↔ _
    rw [List.mem_filter, List.mem_range, Bool.not_eq_true', ← Bool.not_eq_true, List.contains_iff_mem, owned]
    simp only [not_exists, not_and]
  · have resume : Resuming (scanDirectory x) k := by
      refine .inl (List.mem_filter.mpr ⟨List.mem_map.mpr ⟨k - 1, ?_, ?_⟩, decide_eq_true ?_⟩)
      · obtain ⟨h1, h2⟩ := unitOk_iff.mp unit
        exact List.mem_range.mpr (by omega)
      · exact Nat.sub_add_cancel (unitOk_iff.mp unit).1
      · rw [← h, slot k unit]
        exact congrArg DirEntry.state (scanDirectory_slot unit)
    exact resumes k resume

/-! ### The load of an image -/

theorem startImageLoad_begins (s : State) : ImageLoadBegun s (startImageLoad s) ∧
    startImageLoad s = { s with store := (startImageLoad s).store } ∧ (startImageLoad s).store.slots = s.store.slots ∧
    (startImageLoad s).store.free = s.store.free ∧ (startImageLoad s).store.load = s.store.load ∧
    ∀ k, Resuming s.store k → Resuming (startImageLoad s).store k := by
  have goes : (startImageLoad s).store = _ := kick_goesOn { s with store := { s.store with
    serial := s.store.serial + 1
    imgLoad := some { serial := s.store.serial + 1, pages := 0, src := none }
    reads := s.store.reads ++ (List.range 6).map fun p =>
      { reader := .image p, serial := s.store.serial + 1, slot := 0, page := p } } }
  refine ⟨⟨s.store.serial + 1, Nat.lt_succ_self _, (congrArg Store.imgLoad goes :), fun p hp => ?_⟩, rfl,
    (congrArg Store.slots goes :), (congrArg Store.free goes :), (congrArg Store.load goes :), fun k h => kick_resuming h⟩
  exact kick_readAsked (.inl (List.mem_append_right _ (List.mem_map_of_mem (List.mem_range.mpr hp))))

theorem ImageLoadBegun.kicked {s t u : State} (h : ImageLoadBegun s t) (store : u.store = (kick t).store) :
    ImageLoadBegun s u := by
  obtain ⟨j, lt, load, asked⟩ := h
  refine ⟨j, lt, ?_, fun p hp => ?_⟩
  · rw [store, show (kick t).store.imgLoad = t.store.imgLoad from (congrArg Store.imgLoad (kick_goesOn t) :)]
    exact load
  · rw [store]
    exact kick_readAsked (asked p hp)

/-- The end of an operation, with the store as it then goes on. -/
theorem timed_kicked {due : Option Nat} {d : Nat} {body : State → State} {s u v : State} (h : due = some d)
    (reach : reachUs d s = some u) (k : body u = kick v) : ∃ t, timed due body s = .next t ∧ t.store = (kick v).store ∧
      (v.power.phase = .on → t.line = v.line.pumped) ∧ (v.power.phase ≠ .on → t.line = v.line) ∧
      t = { v with store := t.store, line := t.line } := by
  refine ⟨pump (kick v), ?_, ?_, fun on => ?_, fun off => ?_, ?_⟩
  · rw [h, timed_due reach, k]
    rfl
  · rw [pump_eq]
  · rw [pump_line]
    exact if_pos on
  · rw [pump_line]
    exact if_neg off
  · rw [pump_eq]
    rfl

theorem imageRead_none {src : Option (Bool × Nat × Image)} {n : Nat} {s t : State}
    (h : imagePageRead src n s = (t, none)) : imageRead src n s = t := by
  rw [imageRead, h]

theorem imagePageRead_late {src : Option (Bool × Nat × Image)} {n : Nat} {s : State} {ld : ImageLoad}
    (load : s.store.imgLoad = some ld) (ne : ld.serial ≠ n) : imagePageRead src n s = (s, none) := by
  unfold imagePageRead
  rw [load]
  exact if_pos ne

/-- The source of a load: that of its first page, then the one held (R152). -/
theorem loadSource {ld : ImageLoad} {b : Bool} {sq : Nat} {im : Image} (same : ld.pages = 0 ∨ ∃ x, ld.src = some (b, sq, x)) :
    ∃ x, (if ld.pages = 0 then some (b, sq, im) else ld.src) = some (b, sq, x) := by
  by_cases first : ld.pages = 0
  · exact ⟨im, if_pos first⟩
  · obtain ⟨x, e⟩ := same.resolve_left first
    exact ⟨x, (if_neg first).trans e⟩

theorem imagePageRead_counts {n b sq im} {s : State} {ld : ImageLoad} (load : s.store.imgLoad = some ld) (own : ld.serial = n)
    (same : ld.pages = 0 ∨ ∃ x, ld.src = some (b, sq, x)) (more : ld.pages ≠ 5) : imagePageRead (some (b, sq, im)) n s =
      ({ s with store := { s.store with
        imgLoad := some { ld with pages := ld.pages + 1, src := some (b, sq, im) } } }, none) := by
  obtain ⟨x, source⟩ := loadSource (im := im) same
  unfold imagePageRead
  rw [load]
  dsimp only
  rw [if_neg (not_not_intro own), source]
  dsimp only
  rw [if_pos ⟨rfl, rfl⟩, if_neg fun h => more (Nat.succ_inj.mp h)]

theorem imagePageRead_whole {n b sq im} {s : State} {ld : ImageLoad} (load : s.store.imgLoad = some ld) (own : ld.serial = n)
    (same : ld.pages = 0 ∨ ∃ x, ld.src = some (b, sq, x)) (last : ld.pages = 5) : imagePageRead (some (b, sq, im)) n s =
      ({ s with store := { s.store with imgLoad := none } }, some im) := by
  obtain ⟨x, source⟩ := loadSource (im := im) same
  unfold imagePageRead
  rw [load]
  dsimp only
  rw [if_neg (not_not_intro own), source]
  dsimp only
  rw [if_pos ⟨rfl, rfl⟩, if_pos (congrArg Nat.succ last)]

theorem imagePageRead_again {src : Option (Bool × Nat × Image)} {n : Nat} {s : State} {ld : ImageLoad}
    (load : s.store.imgLoad = some ld) (own : ld.serial = n)
    (h : src = none ∨ (ld.pages ≠ 0 ∧ ∀ i j x y z, src = some (i, j, x) → ld.src ≠ some (i, y, z) ∨ y ≠ j)) :
    imagePageRead src n s = (startImageLoad s, none) := by
  unfold imagePageRead
  rw [load]
  dsimp only
  rw [if_neg (not_not_intro own)]
  cases src with
  | none => rfl
  | some a =>
    obtain ⟨pages, differs⟩ := h.resolve_left nofun
    rw [if_neg pages]
    cases e : ld.src with
    | none => rfl
    | some c =>
      obtain ⟨i, j, x⟩ := a
      obtain ⟨k, y, z⟩ := c
      refine if_neg fun ⟨same, seq⟩ => ?_
      subst same seq
      exact (differs i j x j z rfl).elim (· e) (· rfl)

/-! ### Settings taken into force -/

/-- The state with other quarter profiles. -/
def withProfiles (s : State) (v : Vector Profile 4) : State := { s with clock := { s.clock with profiles := v } }

theorem startBuilds_zero {s : State} (h : ∀ q, quarterSlot s.cfg.clock q = 0) :
    startBuilds true s = withProfiles s (Vector.replicate 4 .none) := by
  have one : ∀ (q : Nat) (v : Vector Profile 4), startBuild true (withProfiles s v) q = withProfiles s (wr v q .none) :=
    fun q v => startBuild_none (.inl (by rw [show (withProfiles s v).cfg = s.cfg from rfl, h]; rfl))
  have all : wr (wr (wr (wr s.clock.profiles 1 .none) 2 .none) 3 .none) 4 .none = Vector.replicate 4 .none := by
    refine Vector.ext fun i hi => ?_
    simp only [wr, Vector.getElem_replicate, Nat.one_le_ofNat, le_refl, if_true, Vector.getElem_setIfInBounds]
    interval_cases i <;> rfl
  show startBuild true (startBuild true (startBuild true (startBuild true (withProfiles s s.clock.profiles) 1) 2) 3) 4 = _
  rw [one, one, one, one, all]

/-- Without an image the defaults are in force (R202). -/
theorem adoptImage_none (s : State) : adoptImage none s = { s with
    cfg := if s.power.kind = .warm then keepSteps s.dials (fun n => (s.dial n).step) defaultSettings else defaultSettings
    clock := { s.clock with profiles := Vector.replicate 4 .none }
    power := { s.power with
      refOn := true, building := false, mode := .service, validation := none, ready := true } } := by
  unfold adoptImage
  dsimp only [Option.map_none, Option.getD_none, Option.isSome_none, Option.isNone_none]
  rw [startBuilds_zero]
  · unfold withProfiles
    exact if_pos (by rw [Bool.not_false, Bool.or_true, Bool.true_or])
  · intro q
    have clock : ∀ c : Settings, c.clock = defaultClock → quarterSlot c.clock q = 0 := by
      intro c e
      rw [e]
      unfold quarterSlot
      split
      · rfl
      · split
        · rfl
        · split <;> rfl
    refine clock _ ?_
    dsimp only
    split <;> rfl

theorem finishStartUp_power (s : State) : ∃ pw : Power, finishStartUp s = { s with power := pw } ∧
    pw.refOn = s.power.refOn ∧ pw.phase = s.power.phase := by
  unfold finishStartUp
  split
  · exact ⟨s.power, rfl, rfl, rfl⟩
  · exact ⟨_, rfl, rfl, rfl⟩

theorem startBuilds_line (w : Bool) (s : State) : (startBuilds w s).line = s.line := by
  show (startBuild w (startBuild w (startBuild w (startBuild w s 1) 2) 3) 4).line = s.line
  rw [startBuild_line, startBuild_line, startBuild_line, startBuild_line]

/-- The image that a load has come to, in a RESTART or at the start-up (R200, R202). -/
def imageGiven (im : Image) (s : State) : State :=
  if s.power.phase = .starting then adoptImage (some im) s else { s with line := { s.line with restart := .loaded im } }

theorem imageRead_whole {n b sq im} {s : State} {ld : ImageLoad} (load : s.store.imgLoad = some ld) (own : ld.serial = n)
    (same : ld.pages = 0 ∨ ∃ x, ld.src = some (b, sq, x)) (last : ld.pages = 5) : imageRead (some (b, sq, im)) n s =
      imageGiven im { s with store := { s.store with imgLoad := none } } := by
  rw [imageRead, imagePageRead_whole load own same last]
  rfl

theorem adoptImage_load (im : Image) (s : State) : (adoptImage (some im) s).store.imgLoad = s.store.imgLoad := by
  unfold adoptImage
  dsimp only
  obtain ⟨pw, e, -, -⟩ := finishStartUp_power (startBuilds true { s with
    cfg := if s.power.kind = .warm then keepSteps s.dials (fun n => (s.dial n).step) im.settings else im.settings
    power := { s.power with refOn := im.refOn, building := true, mode := .service, validation := none, ready := false } })
  have struck := startBuilds_struck true { s with
    cfg := if s.power.kind = .warm then keepSteps s.dials (fun n => (s.dial n).step) im.settings else im.settings
    power := { s.power with refOn := im.refOn, building := true, mode := .service, validation := none, ready := false } }
  exact (congrArg (fun w : State => w.store.imgLoad) e).trans (congrArg Store.imgLoad struck.array :)

/-- An image taken into force at the start-up (R202). -/
theorem adoptImage_some (im : Image) (s : State) (cold : s.power.kind = .cold) :
    (adoptImage (some im) s).cfg = im.settings ∧ (adoptImage (some im) s).power.refOn = im.refOn ∧
    (adoptImage (some im) s).line = s.line ∧ (adoptImage (some im) s).dials = s.dials ∧
    (adoptImage (some im) s).power.phase = s.power.phase := by
  unfold adoptImage
  dsimp only [Option.map_some, Option.getD_some, Option.isSome_some, Option.isNone_some]
  rw [if_neg (by rw [cold]; exact nofun)]
  have struck := startBuilds_struck true { s with
    cfg := im.settings
    power := { s.power with refOn := im.refOn, building := true, mode := .service, validation := none, ready := false } }
  have line := startBuilds_line true { s with
    cfg := im.settings
    power := { s.power with refOn := im.refOn, building := true, mode := .service, validation := none, ready := false } }
  obtain ⟨pw, e, refOn, phase⟩ := finishStartUp_power (startBuilds true { s with
    cfg := im.settings
    power := { s.power with refOn := im.refOn, building := true, mode := .service, validation := none, ready := false } })
  rw [e]
  exact ⟨struck.cfg, refOn.trans (congrArg Power.refOn struck.power :), line, struck.dials,
    phase.trans (congrArg Power.phase struck.power :)⟩

/-! ### The last read of the scan -/

/-- The directory in order, with the counts that the SCAN notice gives (R153, R202). -/
def scanTaken (s : State) : State :=
  { s with
    store := scanDirectory s.store
    power := { s.power with scanned := some ((slotsIn (scanDirectory s.store).slots .incomplete).length,
      (slotsIn (scanDirectory s.store).slots .erasing).length) } }

theorem scanEnds_image {s : State} (h : currentImage s.store ≠ none) : scanEnds s = startImageLoad (scanTaken s) := by
  obtain ⟨im, e⟩ := Option.ne_none_iff_exists'.mp h
  have same : currentImage (scanDirectory s.store) = some im := e
  unfold scanEnds
  dsimp only
  rw [same]
  rfl

theorem scanEnds_none {s : State} (h : currentImage s.store = none) : scanEnds s = adoptImage none (scanTaken s) := by
  have same : currentImage (scanDirectory s.store) = none := h
  unfold scanEnds
  dsimp only
  rw [same]
  rfl

theorem image_given {s t : State} {im : Image} (load : s.store.imgLoad = none)
    (store : t.store = (kick (imageGiven im s)).store)
    (on : (imageGiven im s).power.phase = .on → t.line = (imageGiven im s).line.pumped)
    (off : (imageGiven im s).power.phase ≠ .on → t.line = (imageGiven im s).line)
    (frame : t = { imageGiven im s with store := t.store, line := t.line }) : t.store.imgLoad = none ∧
      (s.power.phase = .on → t = { s with store := t.store, line := { s.line with restart := .loaded im }.pumped }) ∧
      (s.power.phase = .starting → s.power.kind = .cold →
        t.cfg = im.settings ∧ t.power.refOn = im.refOn ∧ t.line = s.line ∧ t.dials = s.dials) := by
  by_cases starting : s.power.phase = .starting
  · rw [imageGiven, if_pos starting] at store on off frame
    have goes := kick_goesOn (adoptImage (some im) s)
    rw [← store] at goes
    refine ⟨((congrArg Store.imgLoad goes :).trans (adoptImage_load im s)).trans load,
      fun k => absurd (k.symm.trans starting) nofun, fun _ cold => ?_⟩
    obtain ⟨cfg, refOn, line, dials, phase⟩ := adoptImage_some im s cold
    rw [frame]
    refine ⟨cfg, refOn, (off ?_).trans line, dials⟩
    rw [phase]
    exact fun k => absurd (k.symm.trans starting) nofun
  · rw [imageGiven, if_neg starting] at store on off frame
    have goes := kick_goesOn { s with line := { s.line with restart := .loaded im } }
    rw [← store] at goes
    refine ⟨(congrArg Store.imgLoad goes :).trans load, fun k => ?_, fun k => absurd k starting⟩
    rw [← on k]
    exact frame

/-- The slots of a state, counted (R202). -/
theorem slotsIn_eq {s : State} {es : Vector DirEntry 64} {x : SlotState} (h : s.store.slots = es) :
    slotsIn es x = (List.range' 1 64).filter fun k => decide ((s.slot k).state = x) := by
  subst h
  unfold slotsIn
  rw [show (List.range 64).map (· + 1) = List.range' 1 64 by decide]
  rfl

end Sys2Proof.Machine

open Sys2Proof Sys2Proof.Machine

/-- Settles O48. -/
theorem scansAndImageLoadsEnd : Obligations.ScansAndImageLoadsEnd := by
  refine ⟨fun d n a s u q es src due reach op reader => ?_,
    fun d p a sq b im s u q es src ld due reach op reader load => ?_⟩
  · have ends : readEnds u = kick (if n = 64 then scanEnds (clearOp u) else clearOp u) := by
      unfold readEnds deliver
      rw [op]
      dsimp only
      rw [reader]
    by_cases last : n = 64
    · rw [if_pos last] at ends
      obtain ⟨t, run, store, -, -, frame⟩ := timed_kicked due reach ends
      refine ⟨t, run, fun ne => absurd last ne, fun _ => ?_⟩
      cases current : currentImage u.store with
      | some im =>
        rw [scanEnds_image (s := clearOp u) (by rw [show currentImage (clearOp u).store = _ from current]; exact nofun)]
          at store frame
        obtain ⟨begins, whole, slots, free, load, resumes⟩ := startImageLoad_begins (scanTaken (clearOp u))
        have goes := kick_goesOn (startImageLoad (scanTaken (clearOp u)))
        rw [← store] at goes
        have slots' := (congrArg Store.slots goes :).trans slots
        refine ⟨directoryScanned (x := (clearOp u).store) slots' rfl rfl ((congrArg Store.free goes :).trans free)
          ((congrArg Store.load goes :).trans load) fun k h => ?_, ?_, fun _ => ⟨begins.kicked store, ?_⟩, nofun⟩
        · rw [store]
          exact kick_resuming (resumes k h)
        · rw [← slotsIn_eq (s := t) slots', ← slotsIn_eq (s := t) slots', frame, whole]
          rfl
        · generalize t.store = x at frame
          generalize t.line = y at frame
          rw [frame, whole]
          rfl
      | none =>
        rw [scanEnds_none (s := clearOp u) current, adoptImage_none] at store frame
        have goes := kick_goesOn { scanTaken (clearOp u) with
          cfg := if (scanTaken (clearOp u)).power.kind = .warm then
              keepSteps (scanTaken (clearOp u)).dials (fun n => ((scanTaken (clearOp u)).dial n).step) defaultSettings
            else defaultSettings
          clock := { (scanTaken (clearOp u)).clock with profiles := Vector.replicate 4 .none }
          power := { (scanTaken (clearOp u)).power with
            refOn := true, building := false, mode := .service, validation := none, ready := true } }
        rw [← store] at goes
        have slots' : t.store.slots = (scanDirectory (clearOp u).store).slots := (congrArg Store.slots goes :)
        refine ⟨directoryScanned (x := (clearOp u).store) slots' rfl rfl (congrArg Store.free goes :)
          (congrArg Store.load goes :) fun k h => ?_, ?_, fun ne => absurd rfl ne, fun _ cold => ?_⟩
        · rw [store]
          exact kick_resuming h
        · rw [← slotsIn_eq (s := t) slots', ← slotsIn_eq (s := t) slots', frame]
          rfl
        · rw [if_neg (by rw [show (scanTaken (clearOp u)).power.kind = .cold from cold]; exact nofun)] at frame
          have cfg : t.cfg = defaultSettings := by rw [frame]
          refine ⟨cfg, ?_⟩
          rw [cfg]
          have scanned : t.power.scanned = (scanTaken (clearOp u)).power.scanned := by rw [frame]
          rw [scanned]
          exact frame
    · rw [if_neg last] at ends
      obtain ⟨t, run, store, -, -, frame⟩ := timed_kicked due reach ends
      have goes := kick_goesOn (clearOp u)
      rw [← store] at goes
      exact ⟨t, run, fun _ => ⟨(congrArg Store.slots goes :), (congrArg Store.free goes :), frame⟩, fun e => absurd e last⟩
  · have ends : readEnds u = kick (imageRead src q.serial (clearOp u)) := by
      unfold readEnds deliver
      rw [op]
      dsimp only
      rw [reader]
    have load' : (clearOp u).store.imgLoad = some ld := load
    by_cases own : ld.serial = q.serial
    · obtain ⟨t, run, store, on, off, frame⟩ := timed_kicked due reach ends
      refine ⟨t, run, fun ne => absurd own ne, fun _ => ⟨fun same more => ?_, fun same last => ?_, fun again => ?_⟩⟩
      · obtain ⟨rfl, same⟩ := same
        rw [imageRead_none (imagePageRead_counts load' own same more)] at store frame
        have goes := kick_goesOn { clearOp u with store := { (clearOp u).store with
          imgLoad := some { ld with pages := ld.pages + 1, src := some (b, sq, im) } } }
        rw [← store] at goes
        exact ⟨(congrArg Store.imgLoad goes :), frame⟩
      · obtain ⟨rfl, same⟩ := same
        rw [imageRead_whole load' own same last] at store on off frame
        exact image_given (s := { clearOp u with store := { (clearOp u).store with imgLoad := none } }) rfl store on off frame
      · rw [imageRead_none (imagePageRead_again load' own again)] at store frame
        obtain ⟨begins, whole, -⟩ := startImageLoad_begins (clearOp u)
        refine ⟨begins.kicked store, ?_⟩
        generalize t.store = x at frame
        generalize t.line = y at frame
        rw [frame, whole]
        rfl
    · rw [imageRead_none (imagePageRead_late load' own)] at ends
      obtain ⟨t, run, store, -, -, frame⟩ := timed_kicked due reach ends
      have goes := kick_goesOn (clearOp u)
      rw [← store] at goes
      exact ⟨t, run, fun _ => ⟨(congrArg Store.imgLoad goes :).trans load, frame⟩, fun e => absurd e own⟩

end

section
/-! The mode requests (R118, R197, R198). -/

namespace Sys2Proof.Machine

/-! ### The table after a change to SERVICE -/

/-- A record of a table of distinct ids is found by its id. -/
theorem perf_of_nodup {s : State} {p : Perf} (nd : (s.perfs.map (·.id)).Nodup) (h : p ∈ s.perfs) : s.perf p.id = some p := by
  have key : ∀ l : List Perf, (l.map (·.id)).Nodup → p ∈ l → (l.find? fun x => x.id = p.id) = some p := by
    intro l
    induction l with
    | nil => exact fun _ h => absurd h List.not_mem_nil
    | cons q l ih =>
      intro nd h
      rw [List.map_cons, List.nodup_cons] at nd
      rcases List.mem_cons.mp h with rfl | h
      · exact List.find?_cons_of_pos (decide_eq_true rfl)
      · rw [List.find?_cons_of_neg]
        · exact ih nd.2 h
        · exact fun e => nd.1 ((of_decide_eq_true e).symm ▸ List.mem_map_of_mem h)
  exact key s.perfs nd h

theorem idsOf_sublist (l : List Perf) (f : Perf → Bool) : (idsOf l f).Sublist (l.map (·.id)) :=
  List.filter_sublist.map _

/-- Every record that stands after a cut stood before it: cut, and then it is STOPPING, or as `after` has it. -/
theorem CutsTaken.from {s c : State} {cut gone : Perf → Bool} {o : PerfOutcome} {after : Perf → Perf} {q : Perf}
    (h : CutsTaken s c cut gone o after) (nd : (s.perfs.map (·.id)).Nodup) (hq : q ∈ c.perfs) :
    q.state = .stopping ∨ ∃ p ∈ s.perfs, gone p = false ∧ q = after p := by
  have ids : (c.perfs.map (·.id)).Nodup := h.table ▸ nd.sublist (idsOf_sublist _ _)
  have found := perf_of_nodup ids hq
  have mem : q.id ∈ c.perfs.map (·.id) := List.mem_map_of_mem hq
  rw [h.table] at mem
  obtain ⟨p, hp, stays, same⟩ := idsOf_mem.mp mem
  rw [Bool.and_eq_true, Bool.not_eq_true', Bool.not_eq_true', ← Bool.not_eq_true, ← Bool.not_eq_true] at stays
  rw [← same] at found
  cases hc : cut p with
  | true =>
    have driven : s.now < p.drivenEnd := by
      by_contra no
      exact stays.2 (by rw [hc, decide_eq_true (Nat.not_lt.mp no)]; rfl)
    obtain ⟨r, e, stopping, -⟩ := (h.cuts p hp hc).stays driven
    rw [found] at e
    exact .inl (Option.some.inj e ▸ stopping)
  | false =>
    have kept := h.others p hp hc (Bool.not_eq_true _ ▸ stays.1)
    rw [found] at kept
    exact .inr ⟨p, hp, Bool.not_eq_true _ ▸ stays.1, Option.some.inj kept⟩

/-- The line after a request that leaves its line as `l`, and raises its mode or its notices there. -/
theorem request_lines {i : Instr} {act : State → State × Reply} {s t : State} {r : Reply} (take : canTake i s = true)
    (w : i.wellFormed = true) (rate : rateAfter i r = none) (e : act (arrived i s) = (t, r)) (p : t.power = s.power) :
    request i act s = .next { t with line := (t.line.answered (.ready r none)).pumped } := by
  rw [request_taken take w e p, rate]

theorem modeRunAct_failed {s : State} {d : List Field} (mode : s.line.mode = .service) (h : validation s = some d) :
    modeRunAct s = ({ s with line := { s.line with mode := .service, lastValidation := some (some d) } }, .no .invalid d) := by
  unfold modeRunAct
  rw [h, if_neg (by rw [mode]; exact nofun)]
  have still : enterMode (some d) s = { s with line := { s.line with mode := .service, lastValidation := some (some d) } } := by
    unfold enterMode
    exact if_neg fun k => Bool.noConfusion k.1
  rw [← still]

theorem modeRunAct_passed {s : State} (mode : s.line.mode = .service) (h : validation s = none) :
    modeRunAct s = (enterMode none s, .ok [.word "RUN"]) := by
  unfold modeRunAct
  rw [h, if_neg (by rw [mode]; exact nofun)]

/-- Entry to RUN (R168, R198). -/
theorem enterMode_run (s : State) : Quiet { s with line := { s.line with mode := .run, lastValidation := some none } }
      (enterMode none s) ∧ (enterMode none s).line.mode = .run ∧ (enterMode none s).line.lastValidation = some none ∧
    (s.tb.set = true → (enterMode none s).sched.lastEval = some s.localMinute) ∧
    (s.tb.set = false → enterMode none s = { s with line := { s.line with mode := .run, lastValidation := some none } }) := by
  have run : enterMode none s = if s.tb.set = true then
      catchUp { s with line := { s.line with mode := .run, lastValidation := some none } }
      else { s with line := { s.line with mode := .run, lastValidation := some none } } :=
    if_congr ⟨And.right, fun h => ⟨rfl, h⟩⟩ rfl rfl
  have quiet := catchUp_quiet { s with line := { s.line with mode := .run, lastValidation := some none } }
  have evaluated : (catchUp { s with line := { s.line with mode := .run, lastValidation := some none } }).sched.lastEval =
      some s.localMinute := by
    have same : (catchUp { s with line := { s.line with mode := .run, lastValidation := some none } }).localMinute =
        s.localMinute := by
      unfold State.localMinute State.localSecs State.offset
      rw [quiet.tb, quiet.cfg]
    rw [← same]
    rfl
  rw [run]
  split
  · next set =>
      exact ⟨quiet, by rw [quiet.line], by rw [quiet.line], fun _ => evaluated, fun h => absurd (h.symm.trans set) nofun⟩
  · next unset => exact ⟨.rfl, rfl, rfl, fun h => absurd h unset, fun _ => rfl⟩

end Sys2Proof.Machine

open Sys2Proof Sys2Proof.Machine

/-- Settles O56. -/
theorem modeRequests : Obligations.ModeRequests := by
  refine ⟨fun s take => ⟨fun service => ?_, fun run moving => ?_, fun run down nd => ?_⟩,
    fun s take => ⟨fun run => ?_, fun d service failed => ?_, fun service passed => ?_⟩⟩
  · exact request_only (act := modeServiceAct) take rfl rfl fun l mode => if_pos (mode.trans service)
  · refine request_only (act := modeServiceAct) take rfl rfl fun l mode => (if_neg ?_).trans (if_pos ?_)
    · rw [show (State.line { s with line := l }).mode = .run from mode.trans run]
      exact nofun
    · obtain ⟨n, unit, h⟩ := moving
      exact List.any_eq_true.mpr ⟨n, mem_dials_iff.mpr unit, decide_eq_true h⟩
  · intro cut
    have act : modeServiceAct (arrived .modeService s) =
        (cutClock { s with line := { (arrived .modeService s).line with mode := .service } }, .ok [.word "SERVICE"]) := by
      rw [arrived_eq]
      refine (if_neg ?_).trans ((if_neg ?_).trans rfl)
      · rw [show (State.line { s with line := (arrived .modeService s).line }).mode = .run from
          (arrived_mode .modeService s).trans run]
        exact nofun
      · rw [Bool.not_eq_true, List.any_eq_false]
        intro n hn
        exact fun h => of_decide_eq_true h (down n (mem_dials_iff.mp hn))
    obtain ⟨c, taken, drives, sheets, made⟩ := cutClock_taken
      (s := { s with line := { (arrived .modeService s).line with mode := .service } }) nd
    rw [made] at act
    have calm : ∀ q ∈ c.perfs, q.isClock = true → q.state ≠ .waiting := by
      intro q hq clock waiting
      rcases taken.from nd hq with stopping | ⟨p, -, kept, rfl⟩
      · exact absurd (stopping.symm.trans waiting) nofun
      · rw [clock, waiting] at kept
        cases kept
    have power : c.power = s.power := by rw [taken.kept]
    obtain ⟨frame, clock⟩ := offerRound_frame c
    refine ⟨c, if s.perfs.any cut = true then offerRound c else c, taken, drives, sheets, fun ⟨p, hp, h⟩ => ?_, fun none => ?_,
      ?_, ?_⟩
    · rw [if_pos (List.any_eq_true.mpr ⟨p, hp, h⟩)]
      exact offerRound_offered c
    · rw [if_neg]
      rw [Bool.not_eq_true, List.any_eq_false]
      exact fun p hp => by rw [none p hp]; exact nofun
    · split
      · conv_lhs => rw [frame, clock calm]
      · rfl
    · refine request_lines take rfl rfl act ?_
      split
      · rw [frame]
        exact power
      · exact power
  · exact request_only (act := modeRunAct) take rfl rfl fun l mode => if_pos (mode.trans run)
  · have act : modeRunAct (arrived .modeRun s) = ({ s with line :=
        { (arrived .modeRun s).line with lastValidation := some (some d) } }, .no .invalid d) := by
      refine (modeRunAct_failed (d := d) (s := arrived .modeRun s) ((arrived_mode .modeRun s).trans service) ?_).trans ?_
      · rw [arrived_eq]
        exact failed
      · have mode := (arrived_mode .modeRun s).trans service
        rw [arrived_eq] at mode ⊢
        dsimp only
        rw [← mode]
    exact request_lines take rfl rfl act rfl
  · have act : modeRunAct (arrived .modeRun s) = (enterMode none { s with line := (arrived .modeRun s).line },
        .ok [.word "RUN"]) := by
      refine (modeRunAct_passed (s := arrived .modeRun s) ((arrived_mode .modeRun s).trans service) ?_).trans ?_
      · rw [arrived_eq]
        exact passed
      · rw [← arrived_eq]
    obtain ⟨quiet, mode, last, evaluated, still⟩ := enterMode_run { s with line := (arrived .modeRun s).line }
    refine ⟨_, request_lines take rfl rfl act quiet.power, ?_, ?_, quiet.cfg, quiet.tb, quiet.dials, evaluated, fun unset => ?_⟩
    · exact (pumped_mode _).trans mode
    · exact (pumped_lastValidation _).trans last
    · rw [still unset]

end

section
/-! The four panel keys (R98, R122, R163, R179, R196). -/

namespace Sys2Proof.Machine

/-! ### Presses -/

theorem press_closed {w : Nat} {k : Key} {body : State → State} {s u : State} (e : elapse w s = some u)
    (on : u.power.phase = .on) (h : u.keys.isOpen k = false) :
    outside w (press k body) s = .next { u with line := u.line.pumped } :=
  outside_becomes e on (if_neg (by rw [h]; exact Bool.false_ne_true))

theorem press_open {w : Nat} {k : Key} {body : State → State} {s u t : State} (e : elapse w s = some u)
    (on : u.power.phase = .on) (h : u.keys.isOpen k = true) (made : body { u with keys := u.keys.set false k } = t)
    (p : t.power = u.power := by rfl) : outside w (press k body) s = .next { t with line := t.line.pumped } :=
  outside_becomes e on ((if_pos h).trans made) p

/-! ### Lights -/

/-- What an override does rests on the channels and the converter alone. -/
theorem OverridesBecome.read {s s' t t' : State} {ns ms : Nat → Prop} {o : Option Override} {fade : Nat}
    (h : OverridesBecome s t ns o fade) (e : ∀ n, unitOk 16 n = true → (ns n ↔ ms n))
    (a : s'.lights.chans = s.lights.chans) (b : t'.lights.chans = t.lights.chans) (a' : s'.lights.conv = s.lights.conv)
    (b' : t'.lights.conv = t.lights.conv) (c : s'.now = s.now) : OverridesBecome s' t' ms o fade where
  named n u k := by
    have := h.named n u ((e n u).mpr k)
    simp only [State.chan, a, b, c] at this ⊢
    exact this
  others n u k := by
    have := h.others n u fun x => k ((e n u).mp x)
    simp only [State.chan, a, b] at this ⊢
    exact this
  conv := h.conv.congr e a b a' b'

/-- The channels whose override is the panel's (R179). -/
theorem mem_panelChans {s : State} {n : Nat} (unit : unitOk 16 n = true) :
    n ∈ allChans.filter (fun n => (s.chan n).override.any (·.panel)) ↔ ∃ o, (s.chan n).override = some o ∧ o.panel = true := by
  rw [List.mem_filter, Option.any_eq_true]
  exact ⟨fun h => h.2, fun h => ⟨mem_allChans unit, h⟩⟩

/-! ### The panel toll -/

/-- A panel toll that stands (R122). -/
def PanelTollStands (p : Perf) : Prop := p.source = .panel ∧ (∃ k, p.kind = .toll k) ∧ p.state ≠ .stopping

theorem isPanelToll_iff {p : Perf} : isPanelToll p = true ↔ PanelTollStands p := by
  unfold isPanelToll PanelTollStands
  rw [Bool.and_eq_true, Bool.and_eq_true, decide_eq_true_eq, decide_eq_true_eq]
  constructor
  · rintro ⟨⟨source, state⟩, kind⟩
    refine ⟨source, ?_, state⟩
    split at kind
    · next k e => exact ⟨k, e⟩
    · cases kind
  · rintro ⟨source, ⟨k, kind⟩, state⟩
    exact ⟨⟨source, state⟩, by rw [kind]⟩

theorem panelToll_found {s : State} {p : Perf} (h : s.perf p.id = some p) (stands : PanelTollStands p)
    (only : ∀ q ∈ s.perfs, PanelTollStands q → q = p) : s.perfs.find? isPanelToll = some p := by
  cases e : s.perfs.find? isPanelToll with
  | none => exact absurd (isPanelToll_iff.mpr stands) (List.find?_eq_none.mp e p (perf_mem h))
  | some q => rw [only q (List.mem_of_find?_eq_some e) (isPanelToll_iff.mp (List.find?_some e))]

theorem tollPressed_stands {s : State} {p : Perf} (h : s.perfs.find? isPanelToll = some p) :
    tollPressed s = finishPerf p.id s := by
  rw [tollPressed, h]

/-- The panel toll that a press creates (R122). -/
def panelToll (s : State) : Perf :=
  tollPerf s s.cfg.panelToll.bell s.cfg.panelToll.interval 0 s.cfg.panelToll.intensity s.cfg.panelToll.wait
    s.cfg.panelToll.scene .panel

theorem tollPressed_creates {s t : State} {r : Created} (h : ∀ q ∈ s.perfs, ¬PanelTollStands q)
    (created : createPerf (panelToll s) s = (t, r)) :
    tollPressed s = if r = .full then notify .perf [.word "FULL", .word "PANEL"] t else t := by
  have none : s.perfs.find? isPanelToll = none := List.find?_eq_none.mpr fun q hq k => h q hq (isPanelToll_iff.mp k)
  have e : tollPressed s = match createPerf (panelToll s) s with
      | (t, .full) => notify .perf [.word "FULL", .word "PANEL"] t
      | (t, _) => t := by
    rw [tollPressed, none]
    rfl
  rw [e, created]
  cases r <;> rfl

/-- What an admission at once does is the same whatever the keys and the line hold. -/
theorem AdmittedAtOnce.keys {s u : State} {k : Keys} {l : Line} {bells : BellSet} {level anchor : Nat} {v : Option Nat}
    (h : AdmittedAtOnce { s with keys := k } u bells level anchor v) :
    AdmittedAtOnce s { u with keys := s.keys, line := l } bells level anchor v where
  record := h.record
  others := h.others
  claims := h.claims
  taken := h.taken
  free := h.free
  kept := congrArg (fun x : State => { x with keys := s.keys, line := l }) h.kept

/-- The Lights key pressed (R179). -/
theorem lightsKey_pressed {w : Nat} {s u : State} (e : elapse w s = some u) (on : u.power.phase = .on)
    (h : u.keys.lights = true) : ∃ t, outside w (press .lights lightsPressed) s = .next t ∧
      (u.lights.panelOn = false → OverridesBecome u t (fun _ => True)
        (some { level := u.cfg.site.panelLevel, mode := .hold, panel := true }) u.cfg.site.panelFade) ∧
      (u.lights.panelOn = true → OverridesBecome u t (fun n => ∃ o, (u.chan n).override = some o ∧ o.panel = true)
        none u.cfg.site.panelFade) ∧
      t = { u with
        keys := { u.keys with lights := false }
        lights := { u.lights with panelOn := !u.lights.panelOn, chans := t.lights.chans, conv := t.lights.conv }
        line := noticeLine u .lamp [.word "PANEL", onOff (!u.lights.panelOn)] } := by
  let q : State := { u with
    keys := { u.keys with lights := false }, lights := { u.lights with panelOn := !u.lights.panelOn } }
  let held := allChans.filter fun n => (q.chan n).override.any (·.panel)
  cases p : u.lights.panelOn with
  | false =>
    have frame := setOverride_lights (some { level := u.cfg.site.panelLevel, mode := .hold, panel := true })
      u.cfg.site.panelFade allChans q
    have become := setOverride_becomes (o := some { level := u.cfg.site.panelLevel, mode := .hold, panel := true })
      (fade := u.cfg.site.panelFade) (s := q) allChans_nodup (fun _ => allChans_unit)
    have made : lightsPressed { u with keys := { u.keys with lights := false } } = notify .lamp [.word "PANEL", onOff true]
        (setOverride (some { level := u.cfg.site.panelLevel, mode := .hold, panel := true })
          u.cfg.site.panelFade allChans q) := by
      unfold lightsPressed
      simp only [p, Bool.not_false, if_true, q]
    generalize setOverride _ u.cfg.site.panelFade allChans q = a at *
    have power : a.power = u.power := (congrArg State.power frame :)
    refine ⟨_, press_open (k := .lights) (body := lightsPressed) e on h made power,
      fun _ => become.read (fun n k => iff_of_true (mem_allChans k) trivial) rfl rfl rfl rfl rfl, nofun, ?_⟩
    rw [frame]
    simp only [q, p]
    rfl
  | true =>
    have frame := setOverride_lights none u.cfg.site.panelFade held q
    have become := setOverride_becomes (o := none) (fade := u.cfg.site.panelFade) (ns := held) (s := q)
      (allChans_nodup.filter _) (fun _ k => allChans_unit (List.mem_of_mem_filter k))
    have made : lightsPressed { u with keys := { u.keys with lights := false } } = notify .lamp [.word "PANEL", onOff false]
        (setOverride none u.cfg.site.panelFade held q) := by
      unfold lightsPressed
      simp only [p, Bool.not_true, Bool.false_eq_true, if_false, q, held]
    have named : ∀ n, unitOk 16 n = true → (n ∈ held ↔ ∃ o, (u.chan n).override = some o ∧ o.panel = true) :=
      fun n k => mem_panelChans (s := q) k
    generalize setOverride none u.cfg.site.panelFade held q = a at *
    have power : a.power = u.power := (congrArg State.power frame :)
    refine ⟨_, press_open (k := .lights) (body := lightsPressed) e on h made power, nofun,
      fun _ => become.read named rfl rfl rfl rfl rfl, ?_⟩
    rw [frame]
    simp only [q, p]
    rfl

/-- A panel toll admitted at once (R83, R122). -/
theorem panelToll_admitted {w v : Nat} {s u : State} (e : elapse w s = some u) (on : u.power.phase = .on)
    (h : u.keys.toll = true) (fresh : ∀ q ∈ u.perfs, ¬PanelTollStands q)
    (room : u.perfs.length < 12) (claims : claimsOpen u (panelToll u).level (panelToll u).bells = true)
    (voice : firstFree u = some v) : ∃ t, outside w (press .toll tollPressed) s = .next t ∧
      AdmittedAtOnce u { t with keys := u.keys, line := u.line } (panelToll u).bells (panelToll u).level
        (u.now + (panelToll u).lead + 100) (some v) ∧
      t.perf (nextId u) = some { panelToll u with
        id := nextId u, reqAt := u.now, state := .admitted, order := some u.nextOrder, voice := some v
        anchor := some (u.now + (panelToll u).lead + 100) } ∧
      SceneJoined u t (nextId u) (panelToll u).level u.nextOrder (panelToll u).scene ∧
      t.keys = { u.keys with toll := false } ∧ t.line = u.line.pumped := by
  let q : State := { u with keys := { u.keys with toll := false } }
  obtain ⟨t, created, line, once, record⟩ := createPerf_at_once (p := panelToll q) (s := q) room nofun claims
    (fun _ => by rw [show firstFree q = some v from voice]; nofun)
  have free : (if needsVoice (panelToll q).kind then firstFree q else none) = some v := voice
  rw [free] at once
  rw [admittedRecord_of (p := createdRecord (panelToll q) q) free] at record
  have made : tollPressed q = t := tollPressed_creates (s := q) fresh created
  have kept := once.kept
  have grown := (createPerf_room (p := panelToll q) (s := q) room).1
    (canAdmit_of nofun claims fun _ => by rw [show firstFree q = some v from voice]; nofun)
  have scene : t.lights = (joinScene (nextId u) (panelToll u).level u.nextOrder (panelToll u).scene u).lights := by
    rw [← (Prod.mk.inj (grown.symm.trans created)).1]
    exact (created_joins (panelToll q) q).trans (joinScene_congr _ _ _ _ rfl rfl rfl)
  have power : t.power = u.power := (congrArg State.power kept :)
  have joined : SceneJoined u { t with line := t.line.pumped } (nextId u) (panelToll u).level u.nextOrder (panelToll u).scene :=
    .of_lights scene
  refine ⟨_, press_open (k := .toll) (body := tollPressed) e on h made power, once.keys, record,
    joined, (congrArg State.keys kept :), ?_⟩
  rw [line]

end Sys2Proof.Machine

open Sys2Proof Sys2Proof.Machine

/-- Settles O59. -/
theorem panelKeys : Obligations.PanelKeys := by
  refine ⟨fun w s u e on => ?_, fun w s u e on stop nd => ?_, fun w k s u e on => ?_⟩
  · refine ⟨press_closed (k := .silence) (body := silencePressed) e on, press_closed (k := .lights) (body := lightsPressed) e on,
      press_closed (k := .toll) (body := tollPressed) e on, press_closed (k := .stop) (body := stopPressed) e on,
      fun open' => ?_, lightsKey_pressed e on, fun open' => ?_⟩
    · exact press_open (k := .silence) (body := silencePressed) e on open' rfl
    · dsimp only
      refine ⟨fun p k found kind stands only => ?_, fun none => ?_⟩
      · have toll : tollPressed { u with keys := { u.keys with toll := false } } =
            finishPerf p.id { u with keys := { u.keys with toll := false } } :=
          tollPressed_stands (panelToll_found (s := { u with keys := { u.keys with toll := false } }) found stands only)
        refine ⟨fun waiting => ?_, fun ne => ?_⟩
        · exact press_open (k := .toll) (body := tollPressed) e on open' (toll.trans
            ((finishPerf_waiting (s := { u with keys := { u.keys with toll := false } }) found waiting).trans
              (leave_line (s := { u with keys := { u.keys with toll := false } }) found)))
        · have finishes : Finishes p := by
            have := stands.2.2
            unfold Finishes
            cases st : p.state with
            | waiting => exact absurd st ne
            | admitted => exact .inl rfl
            | running => exact .inr rfl
            | stopping => exact absurd st this
          exact press_open (k := .toll) (body := tollPressed) e on open' (toll.trans
            (finishPerf_toll (s := { u with keys := { u.keys with toll := false } }) found finishes kind))
      · refine ⟨fun full => ?_, fun v room claims voice => panelToll_admitted e on open' none room claims voice,
          fun room no => ?_⟩
        · exact press_open (k := .toll) (body := tollPressed) e on open'
            (tollPressed_creates (s := { u with keys := { u.keys with toll := false } }) none (createPerf_full full))
        · obtain ⟨-, waits, yields⟩ := createPerf_room (p := panelToll { u with keys := { u.keys with toll := false } })
            (s := { u with keys := { u.keys with toll := false } }) room
          have can := canAdmit_closed (p := panelToll { u with keys := { u.keys with toll := false } })
            (s := { u with keys := { u.keys with toll := false } }) rfl no
          by_cases c : u.cfg.panelToll.wait = 0
          · rw [if_neg (by omega)]
            exact press_open (k := .toll) (body := tollPressed) e on open'
              (tollPressed_creates (s := { u with keys := { u.keys with toll := false } }) none (yields can c))
          · rw [if_pos (by omega)]
            exact press_open (k := .toll) (body := tollPressed) e on open'
              (tollPressed_creates (s := { u with keys := { u.keys with toll := false } }) none
                (waits can (Nat.pos_of_ne_zero c)))
  · intro cut
    obtain ⟨c, taken, clock, lowers, drives, made⟩ := stopPressed_taken
      (s := { u with keys := { u.keys with stop := false } }) nd
    have power : c.power = u.power := by rw [taken.kept]
    have frame := (offerRound_frame c).1
    refine ⟨c, if u.perfs.any cut = true then offerRound c else c, taken, clock, lowers, drives, fun ⟨p, hp, h⟩ => ?_,
      fun none => ?_, ?_, ?_⟩
    · rw [if_pos (List.any_eq_true.mpr ⟨p, hp, h⟩)]
      exact offerRound_offered c
    · rw [if_neg]
      rw [Bool.not_eq_true, List.any_eq_false]
      exact fun p hp => by rw [none p hp]; exact nofun
    · split
      · conv_lhs => rw [frame]
      · rfl
    · refine press_open (k := .stop) (body := stopPressed) e on stop made ?_
      split
      · rw [frame]
        exact power
      · exact power
  · refine outside_becomes (t := { u with keys := u.keys.set true k }) e on rfl |>.trans ?_
    cases k <;> simp [Keys.set]

end

section
/-! Power loss, power-up and the start values (R19, R20, R51, R52, R201, R202). -/

namespace Sys2Proof.Machine

/-! ### Loss and return -/

theorem setImageSector_arrays (b : Bool) (v : ImageSector) (st : Store) :
    (setImageSector b v st).sectors = st.sectors ∧ (setImageSector b v st).slots = st.slots := by
  cases b <;> exact ⟨rfl, rfl⟩

/-- Neither the sectors nor the slots of the store rest on what is cut off (R140). -/
theorem cutOff_arrays (st : Store) : (cutOff st).sectors = st.sectors ∧ (cutOff st).slots = st.slots := by
  unfold cutOff
  split
  · dsimp only
    split <;> exact ⟨rfl, rfl⟩
  · exact setImageSector_arrays _ _ _
  · exact setImageSector_arrays _ _ _
  · exact ⟨rfl, rfl⟩

/-- A power loss while main power is on. -/
theorem powerLoss_on {w : Nat} {s u : State} (e : elapse w s = some u) (on : u.power.phase = .on) :
    exec (.powerLoss w) s = .next (powerFails u) := by
  have run : exec (.powerLoss w) s = execPowerLoss w s := rfl
  rw [run, execPowerLoss, e]
  exact if_neg (by rw [on]; decide)

/-- Every output is undriven (R201). -/
theorem powerFails_outputs (s : State) :
    (∀ n, unitOk 4 n = true → (powerFails s).dial n = { s.dial n with out := none } ∧
      (powerFails s).drive n = { s.drive n with motor := none, brakeOut := none }) ∧
    (∀ b, unitOk 24 b = true → (powerFails s).bell b = { s.bell b with pulse := none }) ∧
    (∀ n, unitOk 16 n = true → ((powerFails s).chan n).output = 0 ∧ ((powerFails s).chan n).pwmSlots = 0) := by
  refine ⟨fun n h => ⟨rd_map h, rd_map h⟩, fun b h => rd_map h, fun n h => ?_⟩
  have dark : (powerFails s).chan n = darkChannel (s.chan n) := rd_map h
  rw [dark]
  exact ⟨rfl, rfl⟩

/-! ### The start values -/

/-- The announcements of a WARM start, or the fallback of a COLD one (R20, R202). -/
theorem startTime_quiet (warm wrapped : Bool) (s : State) :
    Quiet s (if warm = true then announceWrap wrapped (announceWarm wrapped s) else applyFallback s) := by
  split
  · exact (notify_struck _ _ _).toQuiet.trans ((wrapSchedule_quiet _ _).trans ((announceStep_quiet _ _ _).trans
      (announceWrap_quiet _ _)))
  · exact (applyFallback_struck _).toQuiet

/-- What follows the start columns is quiet: the notice of the scan, then what the start finds of the time (R202). -/
theorem startValues_quiet (s : State) : Quiet (startColumns s) (startValues s) := by
  unfold startValues
  dsimp only
  generalize startColumns s = u
  have told : Quiet u (match s.power.scanned with
      | some (i, e) => if i + e = 0 then u else notify .store [.word "SCAN", .num i, .num e] u
      | none => u) := by
    split
    · split
      · exact Quiet.rfl
      · exact (notify_struck _ _ _).toQuiet
    · exact Quiet.rfl
  exact told.trans (startTime_quiet _ _ _)

/-- The Timebase begins a new second with nothing pending at either start (R20). -/
theorem startTimebase_fresh (warm : Bool) (t : Timebase) : (startTimebase warm t).runUs = 0 ∧ (startTimebase warm t).sub = 0 ∧
    (startTimebase warm t).tick = 0 ∧ (startTimebase warm t).acc = 0 ∧ (startTimebase warm t).slew = none := by
  cases warm <;> exact ⟨rfl, rfl, rfl, rfl, rfl⟩

/-- At a COLD start no performance is made (R102). -/
theorem startValues_cold {s : State} (h : s.power.kind = .cold) : (startValues s).perfs = [] := by
  have columns : (startColumns s).perfs = [] := rfl
  unfold startValues
  dsimp only
  rw [if_neg (by rw [h]; decide), applyFallback, wholeBase_lights, ← columns]
  split
  · split <;> rfl
  · rfl

end Sys2Proof.Machine

open Sys2Proof Sys2Proof.Machine

/-- Settles O60. -/
theorem powerLossAndStart : Obligations.PowerLossAndStart := by
  refine ⟨fun w s u e on => ?_, fun valid s off => ?_, fun s due => ?_⟩
  · obtain ⟨outs, bells, chans⟩ := powerFails_outputs u
    obtain ⟨sectors, slots⟩ := cutOff_arrays u.store
    refine ⟨_, powerLoss_on e on, rfl, ?_, rfl, rfl, rfl, rfl, rfl, sectors, slots, rfl, rfl, rfl, rfl, rfl, outs, bells,
      chans⟩
    exact if_pos (decide_eq_true on)
  · refine ⟨powerReturns valid s, if_pos off, rfl, rfl, ?_, rfl, rfl, rfl, rfl, rfl⟩
    have kind : (powerReturns valid s).power.kind = if valid && s.tb.set then .warm else .cold := rfl
    rw [kind]
    exact if_congr (Bool.and_eq_true _ _ ▸ Iff.rfl) rfl rfl
  · have quiet := startValues_quiet s
    have cold : s.power.kind = .cold → (startValues s).perfs = [] := startValues_cold
    have made : exec .startValues s = done (startValues s) := if_pos due
    generalize startValues s = u at *
    have phase : u.power.phase = .on := (congrArg Power.phase quiet.power :)
    have line := quiet.line
    have tb : u.tb = { startTimebase (decide (s.power.kind = .warm)) s.tb with
        flag := inForce s.cfg.summer (startTimebase (decide (s.power.kind = .warm)) s.tb).secs } := quiet.tb
    obtain ⟨run, sub, tick, acc, slew⟩ := startTimebase_fresh (decide (s.power.kind = .warm)) s.tb
    have dial : ∀ n, unitOk 4 n = true → u.dial n =
        if decide (s.power.kind = .warm) = true then warmDial (s.dialCfg n) (s.dial n) else coldDial (s.dialCfg n) :=
      fun n h => by rw [State.dial, quiet.dials]; exact rd_tableOf h
    refine ⟨{ u with line := u.line.pumped }, made.trans (congrArg Host.Outcome.next (if_pos phase)), phase,
      (congrArg Timebase.runUs tb).trans run, (congrArg Timebase.sub tb).trans sub, (congrArg Timebase.tick tb).trans tick,
      (congrArg Timebase.acc tb).trans acc, (congrArg Timebase.slew tb).trans slew, ?_, quiet.cfg,
      congrArg RefMon.window quiet.ref, congrArg RefMon.mark quiet.ref, ?_, ?_, fun kind => ?_, fun kind => ?_⟩
    · dsimp only
      rw [tb]
    · rw [pumped_lastStart, line]
      rfl
    · rw [pumped_mode, line]
      rfl
    · dsimp only
      rw [tb, kind]
      exact ⟨rfl, rfl, rfl, cold kind⟩
    · rw [kind] at tb
      refine ⟨(congrArg Timebase.secs tb :), (congrArg Timebase.set tb :), (congrArg Timebase.trim tb :), fun n h => ?_⟩
      have warm := dial n h
      rw [kind] at warm
      have warm : State.dial { u with line := u.line.pumped } n = warmDial (s.dialCfg n) (s.dial n) := warm
      rw [warm]
      exact ⟨rfl, rfl, rfl⟩

end

section
/-! A large movement of local time in a second that no run reaches: microseconds past its end (R1, R117). -/

namespace Sys2Proof.Machine

theorem frontier_le_frontierLoop (s : State) : s.clock.frontier ≤ (frontierLoop s).clock.frontier := by
  unfold frontierLoop
  split
  · obtain ⟨n, -, e, -⟩ := frontierRounds_repeats (s.localSecs / 900 + 2 - s.clock.frontier) s
    rw [e, (evaluated_repeat s n).frontier]
    exact Nat.le_add_right _ _
  · exact Nat.le_refl _

/-- A quarter that lies ahead lies less than a day's quarter hour from the instant it is ahead of (R109, R117). -/
theorem FirstAhead.late {s : State} {k : Nat} (h : FirstAhead s k) (ok : ProfilesOk s) : s.localMs < 900000 * k := by
  have := (evaluationAt_range ok k).2
  have := h.1
  omega

/-- The state after reset with the summer-time flag set, ten thousand seconds into one second. -/
def longSecond : State :=
  { State.reset with tb := { State.reset.tb with flag := true, sub := 10000000000 } }

theorem longSecond_profilesOk {s : State} (cfg : s.cfg.clock = State.reset.cfg.clock) (bells : s.cfg.bells = State.reset.cfg.bells)
    (profiles : s.clock.profiles = State.reset.clock.profiles) : ProfilesOk s where
  hourBell := by
    rw [State.bellCfg, cfg, bells]
    have default : rd State.reset.cfg.bells 24 (defaultBell 24) = defaultBell 24 := rd_tableOf (by decide)
    have within : (defaultBell 24).fNormal ≤ 400 := by decide
    exact (congrArg BellCfg.fNormal default).trans_le within
  offsets q n d e unit ready := by
    have none : s.profile q = .none := by
      rw [State.profile, profiles]
      exact rd_replicate unit
    rw [none] at ready
    cases ready

/-- The rule without summer time clears the flag, and the frontier stands at the second quarter. -/
theorem longSecond_frontier : ∃ u, exec (.summer State.reset.cfg.summer) longSecond = .next u ∧ u.clock.frontier = 2 := by
  have run : (match exec (.summer State.reset.cfg.summer) longSecond with | .next u => u.clock.frontier | _ => 0) = 2 := by
    decide
  generalize exec (.summer State.reset.cfg.summer) longSecond = o at run
  cases o with
  | next u => exact ⟨u, rfl, run⟩
  | _ => cases run

end Sys2Proof.Machine

open Sys2Proof Sys2Proof.Machine

/-- Refutes O20: nothing bounds the microseconds of the second in progress, and where they reach a quarter hour and more, the
frontier after a change of the flag to clear is not the earliest quarter ahead. -/
theorem not_datesSummerAndSun : ¬ Obligations.DatesSummerAndSun := by
  intro ⟨_, requests⟩
  obtain ⟨u, v, next, made, -, -, -, moves, -⟩ := requests (.summer State.reset.cfg.summer) _ longSecond (by decide) (by decide)
    (.inl ⟨_, rfl, by decide, rfl⟩)
  obtain ⟨t, next', two⟩ := longSecond_frontier
  cases next.symm.trans next'
  have flag : v.tb.flag = false := by
    have off : inForce State.reset.cfg.summer State.reset.tb.secs = false := by decide
    rw [made]
    exact off
  have ids : (longSecond.perfs.map (·.id)).Nodup := List.nodup_nil
  obtain ⟨w, ⟨c, e, r, cancelled, stays, -, rolled, met, -, back⟩, made'⟩ := moves (by rw [flag]; decide) ids
  have clock : u.clock = (frontierLoop w).clock := (congrArg State.clock made' :)
  have ec : e = c := stays (by rw [made]; rfl)
  have calm : c.clock = longSecond.clock := by
    refine (cancelled.calm fun b h unit held => ?_).2.1.trans (by rw [made]; rfl)
    have still : (longSecond.bell b).held = none := congrArg Bell.held (rd_replicate unit)
    rw [made] at held
    exact absurd (still.symm.trans held) nofun
  have tb : w.tb = v.tb := (congrArg State.tb met).trans (by rw [ec]; exact (congrArg State.tb cancelled.kept :))
  have cfg : w.cfg = v.cfg := (congrArg State.cfg met).trans (by rw [ec]; exact (congrArg State.cfg cancelled.kept :))
  have profiles : w.clock.profiles = longSecond.clock.profiles :=
    (congrArg (fun x : State => x.clock.profiles) met).trans ((congrArg ClockUnit.profiles rolled.kept :).trans
      (congrArg ClockUnit.profiles calm :))
  obtain ⟨k, ahead, goes⟩ := back flag (longSecond_profilesOk (by rw [made]; rfl) (by rw [made]; rfl) (by rw [made]; rfl))
  have frontier : w.clock.frontier = k := by
    refine goes.one.resolve_right ?_
    rw [made]
    rintro ⟨x, hx, -⟩
    cases hx
  have late : w.localMs < 900000 * k :=
    ahead.late (longSecond_profilesOk (by rw [cfg, made]; rfl) (by rw [cfg, made]; rfl) profiles)
  have ms : w.localMs = 10000000 := by
    have secs : v.tb.secs = 0 := by
      rw [made]
      rfl
    have sub : v.tb.sub = 10000000000 := by
      rw [made]
      rfl
    rw [State.localMs, State.localUs, State.localSecs, State.offset, tb, flag, secs, sub, if_neg Bool.false_ne_true]
    decide
  have := frontier_le_frontierLoop w
  rw [← clock, two] at this
  omega

end

section
/-! The cancellation of a large movement: the CLOCK records that leave the table (R94, R117). -/

namespace Sys2Proof.Machine

/-! ### Records that leave the table, one after the other -/

theorem setPerf_filter (p : Perf) (s : State) :
    ((setPerf p s).perfs.filter fun q => decide (q.id ≠ p.id)) = s.perfs.filter fun q => decide (q.id ≠ p.id) := by
  have key : ∀ l : List Perf, ((l.map fun q => if q.id = p.id then p else q).filter fun q => decide (q.id ≠ p.id)) =
      l.filter fun q => decide (q.id ≠ p.id) := by
    intro l
    induction l with
    | nil => rfl
    | cons a l ih =>
      by_cases e : a.id = p.id
      · rw [List.map_cons, if_pos e, List.filter_cons_of_neg (by simp), List.filter_cons_of_neg (by simp [e]), ih]
      · rw [List.map_cons, if_neg e, List.filter_cons_of_pos (by simp [e]), List.filter_cons_of_pos (by simp [e]), ih]
  exact key s.perfs

theorem report_filter (id : Nat) (r : Report) (ends : Nat) (s : State) :
    ((report id r ends s).perfs.filter fun q => decide (q.id ≠ id)) = s.perfs.filter fun q => decide (q.id ≠ id) := by
  unfold report
  split
  · rfl
  next p e =>
    have same : (p.reported r ends).id = id := (show (p.reported r ends).id = p.id by cases r <;> rfl).trans (perf_id e)
    have kept := setPerf_filter (p.reported r ends) s
    rw [same] at kept
    dsimp only
    split
    · exact kept
    · exact kept

theorem withdrawHeld_filter (id : Nat) (s : State) :
    ((withdrawHeld id s).perfs.filter fun q => decide (q.id ≠ id)) = s.perfs.filter fun q => decide (q.id ≠ id) := by
  unfold withdrawHeld
  generalize allBells = bs
  induction bs generalizing s with
  | nil => rfl
  | cons b bs ih =>
    refine (ih _).trans ?_
    unfold withdrawAt
    split
    · split
      · exact report_filter _ _ _ _
      · rfl
    · rfl

/-- The table without the records of a list. -/
def without (l : List Perf) (ps : List Perf) : List Perf := ps.filter fun q => decide (q.id ∉ l.map (·.id))

theorem without_cons (p : Perf) (l ps : List Perf) :
    without l (ps.filter fun q => decide (q.id ≠ p.id)) = without (p :: l) ps := by
  rw [without, List.filter_filter]
  refine List.filter_congr fun q _ => ?_
  rw [← Bool.decide_and]
  exact decide_eq_decide.mpr (by rw [List.map_cons, List.mem_cons, not_or]; exact and_comm)

/-- The notices of records that leave with outcome CANCELLED. -/
def cancelledLine (l : List Perf) (k : Line) : Line :=
  l.foldl (fun k p => k.latched .perf (leavingFields p .cancelled)) k

/-- Waiting records leave one after the other (R94). -/
theorem leaves_line {l : List Perf} {s : State} (found : ∀ p ∈ l, s.perf p.id = some p) (nd : (l.map (·.id)).Nodup) :
    l.foldl (fun t p => leave p.id .cancelled t) s =
      { s with perfs := without l s.perfs, line := cancelledLine l s.line } := by
  induction l generalizing s with
  | nil =>
    have all : without [] s.perfs = s.perfs := List.filter_eq_self.mpr fun _ _ => rfl
    rw [all]
    rfl
  | cons p l ih =>
    rw [List.map_cons, List.nodup_cons] at nd
    have first := leave_line (o := .cancelled) (found p List.mem_cons_self)
    rw [List.foldl_cons, first, ih (fun q hq => ?_) nd.2, ← without_cons]
    · rfl
    · have ne : q.id ≠ p.id := fun e => nd.1 (e ▸ List.mem_map_of_mem hq)
      exact (perf_dropPerf_ne (s := s) ne).trans (found q (List.mem_cons_of_mem _ hq))

/-- Records have been removed one after the other with outcome CANCELLED, with their claims, voices and held strokes (R94). -/
structure Cancelled (s c : State) (l : List Perf) : Prop where
  table : c.perfs = without l s.perfs
  claims : ∀ b, unitOk 24 b = true → (c.bell b).claims = (s.bell b).claims.filter fun k => decide (k.perf ∉ l.map (·.id))
  voices : ∀ v, unitOk 4 v = true → c.voice v = if ∃ p ∈ l, (s.voice v).perf = some p.id then freeVoice else s.voice v
  sheets : SheetsWritten s.clock c.clock
  calm : (∀ b h, unitOk 24 b = true → (s.bell b).held = some h → h.perf ∉ l.map (·.id)) →
    (∀ b, unitOk 24 b = true → c.bell b = { s.bell b with claims := (c.bell b).claims }) ∧ c.clock = s.clock ∧
      c.line = cancelledLine l s.line
  kept : c = { s with
    bells := c.bells, perfs := c.perfs, voices := c.voices, lights := c.lights, clock := c.clock, line := c.line }

theorem Cancelled.nil (s : State) : Cancelled s s [] where
  table := (List.filter_eq_self.mpr fun _ _ => rfl).symm
  claims b _ := (List.filter_eq_self.mpr fun _ _ => rfl).symm
  voices v _ := (if_neg (by rintro ⟨p, hp, -⟩; cases hp)).symm
  sheets := .rfl
  calm _ := ⟨fun _ _ => rfl, rfl, rfl⟩
  kept := rfl

/-- One record removed with outcome CANCELLED (R94). -/
theorem cancelPerf_cancelled {s : State} {p : Perf} (found : s.perf p.id = some p) : Cancelled s (cancelPerf p.id s) [p] := by
  have w := withdrawHeld_withdrawn p.id s
  obtain ⟨q, got, -⟩ := w.record p found
  have table := withdrawHeld_filter p.id s
  rw [cancelPerf]
  generalize withdrawHeld p.id s = m at *
  have e := closePerf_eq (o := .cancelled) got
  generalize closePerf p.id .cancelled m = c at *
  have bells : ∀ b, unitOk 24 b = true → c.bell b =
      { m.bell b with claims := (m.bell b).claims.filter fun k => decide (k.perf ≠ p.id) } :=
    fun b unit => by rw [State.bell, e]; exact rd_map unit
  have claims : ∀ b, unitOk 24 b = true → (m.bell b).claims = (s.bell b).claims := fun b unit => by
    rw [w.bells b unit]
    split <;> rfl
  have clock : c.clock = m.clock := (congrArg State.clock e :)
  have one : ∀ k : Nat, k ∉ [p].map (·.id) ↔ k ≠ p.id := fun k => not_congr List.mem_singleton
  constructor
  case table =>
    have perfs : c.perfs = m.perfs.filter fun q => decide (q.id ≠ p.id) := (congrArg State.perfs e :)
    rw [perfs, table]
    exact List.filter_congr fun q _ => decide_eq_decide.mpr (one q.id).symm
  case claims =>
    intro b unit
    rw [bells b unit]
    dsimp only
    rw [claims b unit]
    exact List.filter_congr fun k _ => decide_eq_decide.mpr (one k.perf).symm
  case voices =>
    intro v unit
    have voice : c.voice v = if (s.voice v).perf = some p.id then freeVoice else s.voice v := by
      have voices : m.voices = s.voices := (congrArg State.voices w.kept :)
      rw [State.voice, e, State.voice, ← voices]
      exact rd_map unit
    rw [voice]
    exact if_congr (by simp) rfl rfl
  case sheets => rw [clock]; exact ⟨w.sheets.kept, w.sheets.today.1⟩
  case calm =>
    intro none
    have still : m = s := w.calm fun b hb held => by
      obtain ⟨h, got, mine⟩ := Option.map_eq_some_iff.mp held
      exact (one h.perf).mp (none b h (mem_allBells_iff.mp hb) got) mine
    refine ⟨fun b unit => ?_, clock.trans (congrArg State.clock still), ?_⟩
    · rw [bells b unit, still]
    · have same : q = p := by
        rw [still, found] at got
        exact (Option.some.inj got).symm
      rw [(congrArg State.line e :), same, still]
      rfl
  case kept =>
    have made : c = { m with
        bells := c.bells, perfs := c.perfs, voices := c.voices, lights := c.lights, line := c.line, clock := c.clock } := by
      rw [e]
    exact made.trans (congrArg (fun x : State => { x with
      bells := c.bells, perfs := c.perfs, voices := c.voices, lights := c.lights, clock := c.clock, line := c.line }) w.kept :)

theorem Cancelled.cons {s t c : State} {p : Perf} {l : List Perf} (h : Cancelled s t [p]) (k : Cancelled t c l) :
    Cancelled s c (p :: l) := by
  have ids : ∀ j : Nat, j ∉ (p :: l).map (·.id) ↔ j ∉ [p].map (·.id) ∧ j ∉ l.map (·.id) := fun j => by simp [not_or]
  constructor
  case table =>
    have one : without [p] s.perfs = s.perfs.filter fun q => decide (q.id ≠ p.id) :=
      List.filter_congr fun q _ => decide_eq_decide.mpr (not_congr List.mem_singleton)
    rw [k.table, h.table, one, without_cons]
  case claims =>
    intro b unit
    rw [k.claims b unit, h.claims b unit, List.filter_filter]
    refine List.filter_congr fun x _ => ?_
    rw [← Bool.decide_and]
    exact decide_eq_decide.mpr ((and_comm).trans (ids x.perf).symm)
  case voices =>
    intro v unit
    rw [k.voices v unit, h.voices v unit]
    by_cases first : (s.voice v).perf = some p.id
    · have left : ∃ q ∈ [p], (s.voice v).perf = some q.id := ⟨p, List.mem_singleton_self p, first⟩
      have all : ∃ q ∈ p :: l, (s.voice v).perf = some q.id := ⟨p, List.mem_cons_self, first⟩
      have free : ¬∃ q ∈ l, freeVoice.perf = some q.id := by
        rintro ⟨q, -, e⟩
        cases e
      rw [if_pos left, if_pos all, if_neg free]
    · have kept : ¬∃ q ∈ [p], (s.voice v).perf = some q.id := by
        rintro ⟨q, hq, e⟩
        exact first (List.mem_singleton.mp hq ▸ e)
      rw [if_neg kept]
      refine if_congr ⟨fun ⟨q, hq, e⟩ => ⟨q, List.mem_cons_of_mem _ hq, e⟩, fun ⟨q, hq, e⟩ => ⟨q, ?_, e⟩⟩ rfl rfl
      exact (List.mem_cons.mp hq).resolve_left fun same => first (same ▸ e)
  case sheets => exact h.sheets.trans k.sheets
  case calm =>
    intro none
    obtain ⟨bells, clock, line⟩ := h.calm fun b x unit held => ((ids x.perf).mp (none b x unit held)).1
    obtain ⟨bells', clock', line'⟩ := k.calm fun b x unit held => by
      have same : (t.bell b).held = (s.bell b).held := (congrArg Bell.held (bells b unit) :)
      exact ((ids x.perf).mp (none b x unit (same.symm.trans held))).2
    refine ⟨fun b unit => ?_, clock'.trans clock, ?_⟩
    · exact (bells' b unit).trans (congrArg (fun x : Bell => { x with claims := (c.bell b).claims }) (bells b unit) :)
    · rw [line', line]
      rfl
  case kept =>
    exact k.kept.trans (congrArg (fun x : State => { x with
      bells := c.bells, perfs := c.perfs, voices := c.voices, lights := c.lights, clock := c.clock, line := c.line }) h.kept :)

/-- The records of a list leave with outcome CANCELLED, one after the other (R94). -/
theorem cancels_cancelled {l : List Perf} {s : State} (found : ∀ p ∈ l, s.perf p.id = some p) (nd : (l.map (·.id)).Nodup) :
    Cancelled s (l.foldl (fun t p => cancelPerf p.id t) s) l := by
  induction l generalizing s with
  | nil => exact .nil s
  | cons p l ih =>
    rw [List.map_cons, List.nodup_cons] at nd
    have first := cancelPerf_cancelled (found p List.mem_cons_self)
    have rest : ∀ q ∈ l, (cancelPerf p.id s).perf q.id = some q := fun q hq => ?_
    · rw [List.foldl_cons]
      exact first.cons (ih rest nd.2)
    have ne : q.id ≠ p.id := fun e => nd.1 (e ▸ List.mem_map_of_mem hq)
    have kept : (cancelPerf p.id s).perf q.id = s.perf q.id := by
      have one : (cancelPerf p.id s).perfs = (dropPerf p.id s).perfs := first.table.trans
        (List.filter_congr fun q _ => decide_eq_decide.mpr (not_congr List.mem_singleton))
      rw [State.perf, one]
      exact perf_dropPerf_ne ne
    exact kept.trans (found q (List.mem_cons_of_mem _ hq))

/-! ### The quarters -/

/-- The CLOCK records of a state are those that the model picks, in the same order. -/
theorem clocksIn_admitted (l : List Perf) : (clocksIn l .admitted).map (·.1) = l.filter (fun p => (admittedQuarter p).isSome) ∧
    (clocksIn l .admitted).map (fun x => (x.2.date, x.2.slot)) = l.filterMap admittedQuarter := by
  induction l with
  | nil => exact ⟨rfl, rfl⟩
  | cons p l ih =>
    obtain ⟨records, quarters⟩ := ih
    unfold clocksIn at records quarters ⊢
    rw [List.filter_cons, List.filterMap_cons, List.filterMap_cons, ← records, ← quarters]
    unfold admittedQuarter
    cases p.kind with
    | clock x => cases p.state <;> exact ⟨rfl, rfl⟩
    | _ => exact ⟨rfl, rfl⟩

theorem clocksIn_waiting (l : List Perf) :
    (clocksIn l .waiting).map (·.1) = l.filter fun p => decide (p.state = .waiting) && p.isClock := by
  induction l with
  | nil => rfl
  | cons p l ih =>
    unfold clocksIn Perf.isClock at ih ⊢
    rw [List.filter_cons, List.filterMap_cons, ← ih]
    cases p.kind with
    | clock x => cases p.state <;> rfl
    | _ => cases p.state <;> rfl

theorem mem_clocksIn {l : List Perf} {st : PerfState} {x : Perf × ClockParams} (h : x ∈ clocksIn l st) :
    x.1 ∈ l ∧ x.1.state = st ∧ x.1.kind = .clock x.2 := by
  obtain ⟨p, hp, e⟩ := List.mem_filterMap.mp h
  split at e
  next c kind =>
    split at e
    next state =>
      cases e
      exact ⟨hp, state, kind⟩
    · cases e
  · cases e

theorem pendQuarters_clock (l : List (Perf × ClockParams)) (s : State) :
    (l.map fun x => (x.2.date, x.2.slot)).foldl pendQuarter s = { s with clock := slotsReturned l s.clock } := by
  induction l generalizing s with
  | nil => rfl
  | cons x l ih => exact ih (pendQuarter s (x.2.date, x.2.slot))

theorem slotsReturned_sheets (l : List (Perf × ClockParams)) (c : ClockUnit) : SheetsWritten c (slotsReturned l c) := by
  induction l generalizing c with
  | nil => exact .rfl
  | cons x l ih => exact (onSheetSlot_sheets _ _ _ _).trans (ih (clearOutcome x.2.date x.2.slot c))

/-- Which records of a table of distinct ids a list of some of them leaves. -/
theorem mem_ids_iff {s : State} {l : List Perf} (nd : (s.perfs.map (·.id)).Nodup) (sub : ∀ p ∈ l, p ∈ s.perfs) {p : Perf}
    (h : p ∈ s.perfs) : p.id ∈ l.map (·.id) ↔ p ∈ l := by
  refine ⟨fun k => ?_, List.mem_map_of_mem⟩
  obtain ⟨q, hq, e⟩ := List.mem_map.mp k
  have same := perf_of_nodup nd (sub q hq)
  rw [e, perf_of_nodup nd h] at same
  exact Option.some.inj same ▸ hq

theorem cancelledLine_map (l : List (Perf × ClockParams)) (k : Line) : cancelledLine (l.map (·.1)) k =
    l.foldl (fun l x => l.latched .perf (leavingFields x.1 .cancelled)) k := List.foldl_map

/-- The state after the CLOCK records of a large movement have left, before their slots return (R94, R117). -/
def clocksCancelled (s : State) : State :=
  ((clocksIn s.perfs .admitted).map (·.1)).foldl (fun t p => cancelPerf p.id t)
    (((clocksIn s.perfs .waiting).map (·.1)).foldl (fun t p => leave p.id .cancelled t) s)

theorem cancelQuarters_eq (s : State) :
    let c := { clocksCancelled s with
      clock := slotsReturned (clocksIn s.perfs .admitted) (clocksCancelled s).clock }
    cancelQuarters s = (if (clocksIn s.perfs .admitted).isEmpty then c else offerRound c,
      (clocksIn s.perfs .admitted).map fun x => quarterNumber s.clock.today.date (x.2.date, x.2.slot)) := by
  intro c
  obtain ⟨records, quarters⟩ := clocksIn_admitted s.perfs
  have waiting : ∀ f : Perf → Bool, (∀ p, f p = (decide (p.state = .waiting) && p.isClock)) →
      s.perfs.filter f = (clocksIn s.perfs .waiting).map (·.1) := fun f e => by
    rw [clocksIn_waiting, funext e]
  have none : (((clocksIn s.perfs .admitted).map (·.1)).map (·.id)).isEmpty = (clocksIn s.perfs .admitted).isEmpty := by
    rw [List.isEmpty_map, List.isEmpty_map]
  have leaves : (((clocksIn s.perfs .waiting).map (·.1)).map (·.id)).foldl (fun t id => leave id .cancelled t) s =
      ((clocksIn s.perfs .waiting).map (·.1)).foldl (fun t p => leave p.id .cancelled t) s := List.foldl_map
  have cancels : ∀ t, (((clocksIn s.perfs .admitted).map (·.1)).map (·.id)).foldl (fun t id => cancelPerf id t) t =
      ((clocksIn s.perfs .admitted).map (·.1)).foldl (fun t p => cancelPerf p.id t) t := fun t => List.foldl_map
  unfold cancelQuarters
  dsimp only
  rw [← quarters, ← records, none, pendQuarters_clock, waiting _ fun p => ?_, leaves, cancels, List.map_map]
  · rfl
  · unfold Perf.isClock
    cases p.kind <;> rfl

/-- Step 1 of a large movement, but for its offer round (R94, R117). -/
theorem cancelQuarters_cancelled {s : State} (nd : (s.perfs.map (·.id)).Nodup) :
    ∃ c, QuartersCancelled s c ∧ (∀ p ∈ c.perfs, p.isClock = true → p.state ≠ .waiting) ∧
      SheetsWritten s.clock c.clock ∧
      cancelQuarters s = (if (clocksIn s.perfs .admitted).isEmpty then c else offerRound c,
        (clocksIn s.perfs .admitted).map fun x => quarterNumber s.clock.today.date (x.2.date, x.2.slot)) := by
  have cancelled := cancelQuarters_eq s
  have subA : ∀ p ∈ (clocksIn s.perfs .admitted).map (·.1), p ∈ s.perfs := fun p hp => by
    obtain ⟨x, hx, rfl⟩ := List.mem_map.mp hp
    exact (mem_clocksIn hx).1
  have subW : ∀ p ∈ (clocksIn s.perfs .waiting).map (·.1), p ∈ s.perfs := fun p hp => by
    obtain ⟨x, hx, rfl⟩ := List.mem_map.mp hp
    exact (mem_clocksIn hx).1
  have apart : ∀ p ∈ (clocksIn s.perfs .admitted).map (·.1), p ∉ (clocksIn s.perfs .waiting).map (·.1) := fun p hp hq => by
    obtain ⟨x, hx, rfl⟩ := List.mem_map.mp hp
    obtain ⟨y, hy, e⟩ := List.mem_map.mp hq
    have := (mem_clocksIn hy).2.1
    rw [e, (mem_clocksIn hx).2.1] at this
    cases this
  have ndA : (((clocksIn s.perfs .admitted).map (·.1)).map (·.id)).Nodup := by
    rw [(clocksIn_admitted s.perfs).1]
    exact nd.sublist (List.filter_sublist.map _)
  have ndW : (((clocksIn s.perfs .waiting).map (·.1)).map (·.id)).Nodup := by
    rw [clocksIn_waiting]
    exact nd.sublist (List.filter_sublist.map _)
  have left := leaves_line (fun p hp => perf_of_nodup nd (subW p hp)) ndW
  have found : ∀ p ∈ (clocksIn s.perfs .admitted).map (·.1), (((clocksIn s.perfs .waiting).map (·.1)).foldl
      (fun t p => leave p.id .cancelled t) s).perf p.id = some p := fun p hp => by
    rw [left]
    refine perf_of_nodup (s := { s with
      perfs := without ((clocksIn s.perfs .waiting).map (·.1)) s.perfs
      line := cancelledLine ((clocksIn s.perfs .waiting).map (·.1)) s.line }) (nd.sublist (List.filter_sublist.map _)) ?_
    exact List.mem_filter.mpr ⟨subA p hp, decide_eq_true fun k => apart p hp ((mem_ids_iff nd subW (subA p hp)).mp k)⟩
  have gone := cancels_cancelled found ndA
  rw [clocksCancelled, left] at cancelled
  rw [left] at gone
  generalize List.foldl (fun t p => cancelPerf p.id t) _ ((clocksIn s.perfs .admitted).map (·.1)) = n at *
  have ids : (clocksIn s.perfs .admitted).map (fun x => x.1.id) = ((clocksIn s.perfs .admitted).map (·.1)).map (·.id) :=
    List.map_map.symm
  refine ⟨_, ?_, fun p hp clock waits => ?_, ?_, cancelled⟩
  · constructor
    case table =>
      refine gone.table.trans ((List.filter_filter ..).trans (List.filter_congr fun p hp => ?_))
      rw [decide_eq_decide.mpr (not_congr (mem_ids_iff nd subA hp)), decide_eq_decide.mpr (not_congr (mem_ids_iff nd subW hp))]
    case claims =>
      intro b unit
      rw [ids]
      exact gone.claims b unit
    case voices =>
      intro v unit
      refine (gone.voices v unit).trans (if_congr ⟨?_, ?_⟩ rfl rfl)
      · rintro ⟨p, hp, e⟩
        obtain ⟨x, hx, rfl⟩ := List.mem_map.mp hp
        exact ⟨x, hx, e⟩
      · rintro ⟨x, hx, e⟩
        exact ⟨x.1, List.mem_map_of_mem hx, e⟩
    case calm =>
      intro none
      rw [ids] at none
      obtain ⟨bells, clock, line⟩ := gone.calm none
      refine ⟨bells, congrArg (slotsReturned _) clock, line.trans ?_⟩
      rw [List.foldl_append, ← cancelledLine_map, ← cancelledLine_map]
    case kept =>
      exact congrArg (fun x : State => { x with clock := slotsReturned (clocksIn s.perfs .admitted) n.clock }) gone.kept
  · have stays : p ∈ without _ (without _ s.perfs) := gone.table ▸ hp
    obtain ⟨here, -⟩ := List.mem_filter.mp stays
    obtain ⟨here, notW⟩ := List.mem_filter.mp here
    refine of_decide_eq_true notW (List.mem_map_of_mem ?_)
    rw [clocksIn_waiting]
    exact List.mem_filter.mpr ⟨here, by rw [waits, clock]; rfl⟩
  · exact gone.sheets.trans (slotsReturned_sheets _ _)

end Sys2Proof.Machine
end

section
/-! What the Schedule Table leaves as it stands whatever it fires: the clock, the drives and the time (R160 to R169). -/

namespace Sys2Proof.Machine

/-- From `s` to `t` the Schedule Table has acted: performances may have been made, scenes laid, silences opened and notices
raised. -/
structure Scheduled (s t : State) : Prop where
  kept : t = { s with
    bells := t.bells, perfs := t.perfs, lastId := t.lastId, nextOrder := t.nextOrder, voices := t.voices
    lights := t.lights, store := t.store, sched := t.sched, line := t.line }

theorem Scheduled.rfl {s : State} : Scheduled s s := ⟨Eq.refl _⟩

theorem Scheduled.trans {s t u : State} (h : Scheduled s t) (k : Scheduled t u) : Scheduled s u :=
  ⟨k.kept.trans (congrArg (fun x : State => { x with
    bells := u.bells, perfs := u.perfs, lastId := u.lastId, nextOrder := u.nextOrder, voices := u.voices
    lights := u.lights, store := u.store, sched := u.sched, line := u.line }) h.kept :)⟩

theorem Scheduled.fold {α : Type} {f : State → α → State} (h : ∀ s a, Scheduled s (f s a)) (l : List α) (s : State) :
    Scheduled s (l.foldl f s) := by
  induction l generalizing s with
  | nil => exact .rfl
  | cons a l ih => exact (h s a).trans (ih _)

theorem Scheduled.clock {s t : State} (h : Scheduled s t) : t.clock = s.clock := (congrArg State.clock h.kept :)

theorem Scheduled.told (c : NoticeClass) (d : List Field) {s t : State} (h : Scheduled s t) : Scheduled s (notify c d t) :=
  h.trans ⟨Eq.refl _⟩

theorem Scheduled.of_lights {s t : State} (h : t = { s with lights := t.lights }) : Scheduled s t := ⟨by rw [h]⟩

theorem partialBase_lights (sc : Scene) (s : State) :
    partialBase sc s = { s with lights := (partialBase sc s).lights } := onChans_eq _ _ s

theorem openSilence_scheduled (scope : SilenceScope) (t : Nat) (s : State) : Scheduled s (openSilence scope t s) := ⟨rfl⟩
theorem setStamp_scheduled (n m : Nat) (s : State) : Scheduled s (setStamp n m s) := ⟨rfl⟩
theorem markEvaluated_scheduled (s : State) : Scheduled s (markEvaluated s) := ⟨rfl⟩

/-- A creation of a performance that is not the clock's leaves the clock and the schedule (R99, R165). -/
theorem createPerf_scheduled {p : Perf} (s : State) (plain : p.isClock = false) :
    Scheduled s (createPerf p s).1 ∧ (createPerf p s).1.sched = s.sched := by
  have admitted : Scheduled s (admitPerf (createdRecord p s) (tableGrown p s)) ∧
      (admitPerf (createdRecord p s) (tableGrown p s)).sched = s.sched := by
    obtain ⟨frame, clock⟩ := admitPerf_frame (createdRecord p s) (tableGrown p s)
    have clock := clock plain
    have perfs := (congrArg State.perfs frame :)
    generalize admitPerf (createdRecord p s) (tableGrown p s) = u at *
    rw [← perfs, clock] at frame
    exact ⟨⟨frame.trans (by rw [(congrArg State.lastId frame :), (congrArg State.sched frame :), (congrArg State.line frame :)]
                            rfl)⟩, (congrArg State.sched frame :)⟩
  unfold createPerf
  dsimp only
  repeat' split
  · exact ⟨.rfl, rfl⟩
  · exact admitted
  · exact ⟨⟨rfl⟩, rfl⟩
  · exact ⟨⟨rfl⟩, rfl⟩

theorem fireCreation_scheduled {p : Perf} (n : Nat) (s : State) (plain : p.isClock = false) :
    Scheduled s (fireCreation n p s) ∧ (fireCreation n p s).sched = s.sched := by
  obtain ⟨kept, sched⟩ := createPerf_scheduled s plain
  unfold fireCreation
  split
  all_goals
    next e =>
      rw [e] at kept sched
      exact ⟨kept.told _ _, sched⟩

theorem fireAction_scheduled (t : Nat) (s : State) (e : Nat × EntryFields) : Scheduled s (fireAction t s e) := by
  unfold fireAction
  dsimp only
  split
  · exact (openSilence_scheduled _ _ _).told _ _
  · exact (Scheduled.of_lights (partialBase_lights _ _)).told _ _
  · repeat' split
    · exact Scheduled.rfl.told _ _
    · exact Scheduled.rfl.told _ _
    · exact (fireCreation_scheduled _ _ rfl).1
  · split
    · exact Scheduled.rfl.told _ _
    · exact (fireCreation_scheduled _ _ rfl).1
  · repeat' split
    · exact Scheduled.rfl.told _ _
    · exact Scheduled.rfl.told _ _
    · exact (fireCreation_scheduled _ _ rfl).1

theorem fireAll_scheduled (t : Nat) (l : List (Nat × EntryFields × Nat)) (s : State) : Scheduled s (fireAll t l s) :=
  (Scheduled.fold (f := fun u e => setStamp e.1 e.2.2 u) (fun _ _ => setStamp_scheduled _ _ _) l s).trans
    (.fold (fireAction_scheduled t) _ _)

theorem evaluateMinute_scheduled (s : State) : Scheduled s (evaluateMinute s) := fireAll_scheduled _ _ _

theorem schedBoundary_scheduled (s : State) : Scheduled s (schedBoundary s) := by
  unfold schedBoundary
  split
  · exact (evaluateMinute_scheduled s).trans (markEvaluated_scheduled _)
  · exact .rfl

theorem catchUp_scheduled (s : State) : Scheduled s (catchUp s) := by
  have silence : ∀ (days : List DayValues) (t : State) (e : Nat × EntryFields), Scheduled t (catchSilence days t e) := by
    intro days t e
    unfold catchSilence
    split
    · refine .fold (fun u m => ?_) _ _
      dsimp only
      split
      · exact openSilence_scheduled _ _ _
      · exact .rfl
    · exact .rfl
  have base : ∀ t : State, Scheduled t (replayBase t) := fun t => .of_lights ((wholeBase_lights _ t).trans (by
    rw [replayBase, wholeBase_lights]))
  have skip : ∀ (days : List DayValues) (t : State) (e : Nat × EntryFields), Scheduled t (catchSkip days t e) := by
    intro days t e
    unfold catchSkip
    repeat' split
    · exact Scheduled.rfl.told _ _
    · exact .rfl
    · exact .rfl
    · exact .rfl
  have stamp : ∀ (days : List DayValues) (t : State) (e : Nat × EntryFields), Scheduled t (catchStamp days t e) := by
    intro days t e
    unfold catchStamp
    repeat' split
    · exact setStamp_scheduled _ _ _
    · exact .rfl
    · exact .rfl
  exact (((((Scheduled.fold (silence _) _ _).trans (base _)).trans (.fold (skip _) _ _)).trans (.fold (stamp _) _ _)).trans
    (evaluateMinute_scheduled _)).trans (markEvaluated_scheduled _)

theorem schedLarge_scheduled (forward : Bool) (s : State) : Scheduled s (schedLarge forward s) := by
  unfold schedLarge
  repeat' split
  · exact catchUp_scheduled s
  · exact markEvaluated_scheduled s
  · exact .rfl

theorem schedSet_scheduled (s : State) : Scheduled s (schedSet s) := by
  unfold schedSet
  split
  · exact catchUp_scheduled s
  · exact .rfl

/-- In SERVICE, or while UNSET, the schedule stands (R160). -/
theorem schedActs_service {s : State} (h : s.line.mode = .service) : schedActs s = false := by
  rw [schedActs, h]
  exact Bool.and_false _

theorem schedActs_unset {s : State} (h : s.tb.set = false) : schedActs s = false := by
  rw [schedActs, h]
  rfl

end Sys2Proof.Machine
end

section
/-! Movements of local time: a large one through the cancellation, the offer round, the sheets and the frontier (R117), and the
day sheets at midnight, at steps of the time and at the first setting (R116, R118). -/

namespace Sys2Proof.Machine

/-! ### The frontier -/

theorem minOr_least (d : Nat) (l : List Nat) :
    minOr d l ≤ d ∧ (∀ x ∈ l, minOr d l ≤ x) ∧ (minOr d l = d ∨ minOr d l ∈ l) := by
  induction l generalizing d with
  | nil => exact ⟨Nat.le_refl _, fun _ h => absurd h List.not_mem_nil, .inl rfl⟩
  | cons a l ih =>
    obtain ⟨below, least, one⟩ := ih (min d a)
    refine ⟨Nat.le_trans below (Nat.min_le_left d a), fun x hx => ?_, ?_⟩
    · rcases List.mem_cons.mp hx with rfl | hx
      · exact Nat.le_trans below (Nat.min_le_right d x)
      · exact least x hx
    · rcases one with one | one
      · rcases Nat.le_total d a with h | h
        · exact .inl (one.trans (Nat.min_eq_left h))
        · exact .inr (List.mem_cons.mpr (.inl (one.trans (Nat.min_eq_right h))))
      · exact .inr (List.mem_cons_of_mem _ one)

theorem minOr_goesBack (first : Nat) (l : List (Perf × ClockParams)) (today : Option Nat) :
    FrontierGoesBack first (minOr first (l.map fun x => quarterNumber today (x.2.date, x.2.slot))) l today := by
  obtain ⟨below, least, one⟩ := minOr_least first (l.map fun x => quarterNumber today (x.2.date, x.2.slot))
  refine ⟨below, fun x hx => least _ (List.mem_map_of_mem hx), one.imp id fun h => ?_⟩
  obtain ⟨x, hx, e⟩ := List.mem_map.mp h
  exact ⟨x, hx, e.symm⟩

/-- The frontier after a movement back is the earliest quarter ahead (R109, R117). -/
theorem frontierAfterNow_ahead {s : State} (ok : ProfilesOk s) (sub : s.tb.sub ≤ 1000000) :
    FirstAhead s (frontierAfterNow s) := by
  have late : s.localMs ≤ 1000 * s.localSecs + 1000 ∧ 1000 * s.localSecs ≤ s.localMs := by
    simp only [State.localMs, State.localUs]
    omega
  have reached : ∀ j, j < s.localSecs / 900 + 1 → evaluationAt s j ≤ s.localMs := fun j hj => by
    have := (evaluationAt_range ok j).2
    omega
  unfold frontierAfterNow
  dsimp only
  split
  next h =>
    refine ⟨?_, fun j hj => ?_⟩
    · have := (evaluationAt_range ok (s.localSecs / 900 + 1 + 1)).1
      omega
    · rcases Nat.lt_succ_iff_lt_or_eq.mp hj with hj | rfl
      · exact reached j hj
      · exact h
  next h => exact ⟨Int.not_le.mp h, reached⟩

theorem ProfilesOk.congr {s t : State} (ok : ProfilesOk s) (cfg : t.cfg = s.cfg) (profiles : t.clock.profiles = s.clock.profiles) :
    ProfilesOk t where
  hourBell := by
    rw [State.bellCfg, cfg]
    exact ok.hourBell
  offsets q n d e unit ready := ok.offsets q n d e unit (by rw [← ready, State.profile, State.profile, profiles])

theorem FirstAhead.congr {s t : State} {k : Nat} (h : FirstAhead s k) (cfg : t.cfg = s.cfg) (tb : t.tb = s.tb)
    (profiles : t.clock.profiles = s.clock.profiles) : FirstAhead t k := by
  have ms : t.localMs = s.localMs := by
    rw [State.localMs, State.localUs, State.localSecs, State.offset, tb, cfg]
    rfl
  refine ⟨?_, fun j hj => ?_⟩
  · rw [evaluationAt_congr cfg profiles, ms]
    exact h.1
  · rw [evaluationAt_congr cfg profiles, ms]
    exact h.2 j hj

/-! ### Large movements -/

/-- The sheets and the frontier as a large movement leaves them, from the state after the cancellation (R116, R117). -/
def farMoved (forward : Bool) (ks : List Nat) (s : State) : State :=
  let r := rollTo s.localDay s.clock
  { s with clock := { r with
    frontier := minOr (if forward then r.frontier else frontierAfterNow { s with clock := r }) ks } }

theorem clockLarge_eq (forward : Bool) (s : State) :
    clockLarge forward s = frontierLoop (farMoved forward (cancelQuarters s).2 (cancelQuarters s).1) := rfl

theorem farMoved_quiet (forward : Bool) (ks : List Nat) (s : State) : Quiet s (farMoved forward ks s) :=
  { Quiet.rfl (s := s) with }

theorem rollTo_frontier (n : Nat) (c : ClockUnit) : (rollTo n c).frontier = c.frontier :=
  (congrArg ClockUnit.frontier (rollTo_rolled n c).kept :)

theorem rollTo_profiles (n : Nat) (c : ClockUnit) : (rollTo n c).profiles = c.profiles :=
  (congrArg ClockUnit.profiles (rollTo_rolled n c).kept :)

theorem farMoved_forward (ks : List Nat) (s : State) :
    (farMoved true ks s).clock.frontier = minOr s.clock.frontier ks :=
  congrArg (minOr · ks) (rollTo_frontier s.localDay s.clock)

/-- Where the time has moved back, the frontier is the earliest quarter ahead, or an earlier one of those cancelled (R117). -/
theorem farMoved_back (ks : List Nat) {s : State} (ok : ProfilesOk s) (sub : s.tb.sub ≤ 1000000) :
    ∃ k, FirstAhead (farMoved false ks s) k ∧ (farMoved false ks s).clock.frontier = minOr k ks := by
  have ahead := frontierAfterNow_ahead (s := { s with clock := rollTo s.localDay s.clock })
    (ok.congr rfl (rollTo_profiles _ _)) sub
  exact ⟨_, ahead.congr (t := farMoved false ks s) rfl rfl rfl, rfl⟩

/-- What a large movement does to the clock, but for the frontier loop (R117). -/
theorem clockLarge_moved {forward : Bool} {s : State} (nd : (s.perfs.map (·.id)).Nodup) (sub : s.tb.sub ≤ 1000000) :
    ∃ w, MovedFar s w forward ∧ Quiet s w ∧ clockLarge forward s = frontierLoop w := by
  have quiet := (cancelQuarters_struck s).toQuiet
  obtain ⟨c, cancelled, noWait, sheets, made⟩ := cancelQuarters_cancelled nd
  have offer := offerRound_offered c
  obtain ⟨frame, clock⟩ := offerRound_frame c
  have clock := clock noWait
  obtain ⟨e, is, clockIs, tbIs, cfgIs⟩ : ∃ e, e = (if (clocksIn s.perfs .admitted).isEmpty then c else offerRound c) ∧
      e.clock = c.clock ∧ e.tb = s.tb ∧ e.cfg = s.cfg := by
    have tb : c.tb = s.tb := (congrArg State.tb cancelled.kept :)
    have cfg : c.cfg = s.cfg := (congrArg State.cfg cancelled.kept :)
    refine ⟨_, rfl, ?_⟩
    split
    · exact ⟨rfl, tb, cfg⟩
    · exact ⟨clock, (congrArg State.tb frame).trans tb, (congrArg State.cfg frame).trans cfg⟩
  have profiles : e.clock.profiles = s.clock.profiles := by rw [clockIs, sheets.profiles]
  have frontier : e.clock.frontier = s.clock.frontier := by rw [clockIs, sheets.frontier]
  have rolled : SheetsRolled c.clock (rollTo e.localDay e.clock) e.localDay := clockIs ▸ rollTo_rolled _ _
  have goesBack := fun k => minOr_goesBack k (clocksIn s.perfs .admitted) s.clock.today.date
  generalize ((clocksIn s.perfs .admitted).map fun x => quarterNumber s.clock.today.date (x.2.date, x.2.slot)) = ks at *
  refine ⟨farMoved forward ks e, ⟨c, e, _, cancelled, fun none => by rw [is, none]; rfl, fun some => ?_, rolled, rfl,
    fun f => ?_, fun b ok => ?_⟩, ?_, by rw [clockLarge_eq, made, is]⟩
  · rw [is, if_neg (by rw [List.isEmpty_iff]; exact some)]
    exact offer
  · rw [f, farMoved_forward, frontier]
    exact goesBack _
  · rw [b]
    obtain ⟨k, ahead, goes⟩ := farMoved_back ks (ok.congr cfgIs profiles) (by rw [tbIs]; exact sub)
    refine ⟨k, ahead, ?_⟩
    rw [goes]
    exact goesBack k
  · rw [made, ← is] at quiet
    exact quiet.trans (farMoved_quiet _ _ _)

end Sys2Proof.Machine
end

section
/-! The day sheets at midnight, at steps of the time by TIME SET and at the first setting (R4, R116 to R118). -/

namespace Sys2Proof.Machine

/-! ### Rolling -/

theorem rollTo_still {n : Nat} {c : ClockUnit} (h : ∀ m, c.today.date = some m → n ≤ m) : rollTo n c = c := by
  cases e : c.today.date with
  | none => rw [rollTo, e]
  | some m => exact (rollTo_rolled n c).stays m e (h m e)

/-- TODAY's date after a roll is not before the date rolled to (R116). -/
theorem rollTo_date {n m : Nat} {c : ClockUnit} (h : (rollTo n c).today.date = some m) : n ≤ m := by
  have rolled := rollTo_rolled n c
  cases e : c.today.date with
  | none =>
    rw [rollTo, e] at h
    exact absurd (e.symm.trans h) nofun
  | some k =>
    rcases Nat.lt_trichotomy n (k + 1) with lt | eq | gt
    · rw [rolled.stays k e (Nat.le_of_lt_succ lt), e] at h
      cases h
      exact Nat.le_of_lt_succ lt
    · have date := (rolled.next k e eq).2.1
      rw [date] at h
      cases h
      exact Nat.le_refl _
    · have today := (rolled.later k e gt).2.1
      rw [today] at h
      cases h
      exact Nat.le_refl _

theorem frontierLoop_date (s : State) : (frontierLoop s).clock.today.date = s.clock.today.date := by
  have rounds : ∀ (fuel : Nat) (s : State), (frontierRounds fuel s).clock.today.date = s.clock.today.date := by
    intro fuel
    induction fuel with
    | zero => exact fun _ => rfl
    | succ fuel ih =>
      intro s
      unfold frontierRounds
      split
      · exact (ih _).trans (evaluateQuarter_sheets s.clock.frontier s).date
      · rfl
  unfold frontierLoop
  split
  · exact rounds _ _
  · rfl

theorem clockSmall_date {forward : Bool} {s : State} {m : Nat} (h : (clockSmall forward s).clock.today.date = some m) :
    (clockSmall forward s).localDay ≤ m := by
  have struck := clockSmall_struck forward s
  have day : (clockSmall forward s).localDay = s.localDay := by
    rw [State.localDay, State.localSecs, State.offset, struck.tb, struck.cfg]
    rfl
  rw [day]
  refine rollTo_date (c := s.clock) (h.symm.trans ?_).symm
  cases forward with
  | false => rfl
  | true => exact frontierLoop_date { s with clock := rollTo s.localDay s.clock }

/-! ### The second's end -/

/-- The minute boundary that a counted second brings, where the flag stands and the date does not wrap (R2, R5). -/
theorem secondEnd_boundary {s : State} (on : s.power.phase = .on) (range : s.tb.secs + 1 < 73049 * 86400)
    (flag : inForce s.cfg.summer (s.tb.secs + 1) = s.tb.flag)
    (minute : (s.tb.secs + 1 + s.offset) % (73049 * 86400) % 60 = 0) :
    ∃ w : State, exec .secondEnd s = .next { announceBoundary w with line := (announceBoundary w).line.pumped } ∧
      w = { s with tb := w.tb, ref := w.ref, cal := w.cal } ∧ w.tb.secs = s.tb.secs + 1 ∧ w.tb.flag = s.tb.flag ∧
      w.tb.set = s.tb.set ∧ w.cal = calendarOf s.cfg.summer s.cfg.sun w.localDay (yearOfSecs w.tb.secs) ∧
      w.localSecs = (s.tb.secs + 1 + s.offset) % (73049 * 86400) := by
  obtain ⟨u, reach⟩ := reachUs_secondEnd s
  have due : secondDue s = some (s.tb.runUs + (1000000 - s.tb.sub)) := if_pos on
  have ends : exec .secondEnd s = done (endSecond u) := by
    change timed (secondDue s) endSecond s = _
    rw [due]
    exact timed_due reach
  have same : u = { s with tb := u.tb } ∧ u.tb.secs = s.tb.secs ∧ u.tb.flag = s.tb.flag ∧ u.tb.set = s.tb.set := by
    rcases reachUs_eq reach with rfl | ⟨j, rfl⟩ <;> exact ⟨rfl, rfl, rfl, rfl⟩
  obtain ⟨kept, secs, flag', set⟩ := same
  have cfg : u.cfg = s.cfg := (congrArg State.cfg kept :)
  have next : (secondEnded u).tb.secs = s.tb.secs + 1 := by
    rw [← secs]
    exact Nat.mod_eq_of_lt (by rw [secs]; exact range)
  have stands : (secondEnded u).tb.flag = s.tb.flag := by
    have force : (secondEnded u).tb.flag = inForce u.cfg.summer (secondEnded u).tb.secs := rfl
    rw [force, next, cfg, flag]
  have offset : (secondEnded u).offset = s.offset := by
    rw [State.offset, State.offset, stands, show (secondEnded u).cfg = s.cfg from cfg]
  have localSecs : (secondEnded u).localSecs = (s.tb.secs + 1 + s.offset) % (73049 * 86400) := by
    rw [State.localSecs, next, offset]
    rfl
  have noWrap : decide (u.tb.secs + 1 = spanSecs) = false := by
    rw [secs]
    exact decide_eq_false (Nat.ne_of_lt range)
  have stands' : (secondEnded u).tb.flag = u.tb.flag := stands.trans flag'.symm
  have whole : (!decide ((secondEnded u).tb.flag ≠ u.tb.flag) && decide ((secondEnded u).localSecs % 60 = 0)) = true := by
    rw [localSecs, minute, stands']
    simp
  have level : localChange u.tb.flag u.offset (secondEnded u) = secondEnded u := if_pos stands'
  have bounds : endSecond u = announceBoundary (secondEnded u) := by
    unfold endSecond
    dsimp only
    rw [noWrap, wrapSchedule_false]
    change (if (!decide ((secondEnded u).tb.flag ≠ u.tb.flag) && decide
      ((localChange u.tb.flag u.offset (secondEnded u)).localSecs % 60 = 0)) = true then
        announceBoundary (localChange u.tb.flag u.offset (secondEnded u)) else _) = _
    rw [level]
    exact if_pos whole
  have power : (announceBoundary (secondEnded u)).power.phase = .on := by
    rw [(announceBoundary_quiet _).power, show (secondEnded u).power = s.power from (congrArg State.power kept :), on]
  refine ⟨secondEnded u, (ends.trans (congrArg done bounds)).trans (done_on power), ?_, next, stands, set, ?_, localSecs⟩
  · exact congrArg (fun x : State => { x with
      tb := (secondEnded u).tb, ref := (secondEnded u).ref, cal := (secondEnded u).cal }) kept
  · have made : (secondEnded u).cal = calendarOf u.cfg.summer u.cfg.sun (secondEnded u).localDay
      (yearOfSecs (secondEnded u).tb.secs) := rfl
    rw [made, cfg]

/-! ### Steps by TIME SET -/

/-- The state in which a step of the time is announced (R4). -/
def stepTold (d : Int) (s : State) : State :=
  notify .time [.word "STEP", .num (roundMs d), .word "LINE"] (movedTime d .line s)

theorem stepTold_eq {t : Nat} {s : State} (range : t < spanUs) (flag : inForce s.cfg.summer (t / 1000000) = s.tb.flag) :
    stepTold ((t : Int) - s.stdUs) s = { s with
      tb := { s.tb with secs := t / 1000000, sub := t % 1000000 }
      ref := (stepTold ((t : Int) - s.stdUs) s).ref, cal := (stepTold ((t : Int) - s.stdUs) s).cal
      line := s.line.latched .time [.word "STEP", .num (roundMs ((t : Int) - s.stdUs)), .word "LINE"] } := by
  have there : wrapUs ((s.stdUs : Int) + ((t : Int) - s.stdUs)) = t := by
    rw [add_sub_cancel]
    exact wrapUs_of_lt range
  have tb : (stepTold ((t : Int) - s.stdUs) s).tb = { s.tb with secs := t / 1000000, sub := t % 1000000 } := by
    have made : (stepTold ((t : Int) - s.stdUs) s).tb = { s.tb with
        secs := wrapUs ((s.stdUs : Int) + ((t : Int) - s.stdUs)) / 1000000
        sub := wrapUs ((s.stdUs : Int) + ((t : Int) - s.stdUs)) % 1000000
        flag := inForce s.cfg.summer (wrapUs ((s.stdUs : Int) + ((t : Int) - s.stdUs)) / 1000000) } := rfl
    rw [made, there, flag]
  have whole : stepTold ((t : Int) - s.stdUs) s = { s with
      tb := (stepTold ((t : Int) - s.stdUs) s).tb
      ref := (stepTold ((t : Int) - s.stdUs) s).ref, cal := (stepTold ((t : Int) - s.stdUs) s).cal
      line := s.line.latched .time [.word "STEP", .num (roundMs ((t : Int) - s.stdUs)), .word "LINE"] } := rfl
  rw [tb] at whole
  exact whole

/-- A step of a time that is set, without a wrap and without a change of the flag (R4, R5, R117). -/
theorem stepStd_level {t : Nat} {s : State} (range : t < spanUs) (flag : inForce s.cfg.summer (t / 1000000) = s.tb.flag) :
    let d := (t : Int) - s.stdUs
    (1000000 ≤ d.natAbs → stepStd d .line s = schedLarge (decide (0 < d)) (clockLarge (decide (0 < d)) (stepTold d s))) ∧
    (d.natAbs < 1000000 → (stepStd d .line s).clock = (clockSmall (decide (0 < d)) (stepTold d s)).clock) := by
  intro d
  have told := stepTold_eq range flag
  have tb : (stepTold d s).tb.flag = s.tb.flag := (congrArg (fun x : State => x.tb.flag) told :)
  have inside : (decide ((s.stdUs : Int) + d < 0) || decide ((spanUs : Int) ≤ (s.stdUs : Int) + d)) = false := by
    have : (s.stdUs : Int) + d = t := add_sub_cancel _ _
    rw [this, Bool.or_eq_false_iff]
    exact ⟨decide_eq_false (by omega), decide_eq_false (by omega)⟩
  have stands : ∀ f l, localChange s.tb.flag s.offset (announceStep f l (stepTold d s)) = announceStep f l (stepTold d s) :=
    fun f l => if_pos (by rw [(announceStep_quiet f l _).tb, tb])
  have made : stepStd d .line s =
      let n := announceStep (decide (0 < d)) (decide (1000000 ≤ d.natAbs)) (stepTold d s)
      if (decide (0 < d) && !decide (1000000 ≤ d.natAbs) && decide (n.tb.flag = s.tb.flag) &&
        decide (n.localMinute ≠ s.localMinute)) = true then announceBoundary n else n := by
    unfold stepStd
    dsimp only
    rw [inside]
    change (let n := localChange s.tb.flag s.offset (announceStep (decide (0 < d)) (decide (1000000 ≤ d.natAbs)) (stepTold d s))
      if (decide (0 < d) && !decide (1000000 ≤ d.natAbs) && decide (n.tb.flag = s.tb.flag) &&
        decide (n.localMinute ≠ s.localMinute)) = true then announceBoundary n else n) = _
    rw [stands]
  refine ⟨fun large => ?_, fun small => ?_⟩
  · rw [made, decide_eq_true large]
    dsimp only
    rw [Bool.not_true, Bool.and_false, Bool.false_and, Bool.false_and, if_neg Bool.false_ne_true]
    exact if_pos rfl
  · rw [made, decide_eq_false (Nat.not_le_of_lt small)]
    have small' : announceStep (decide (0 < d)) false (stepTold d s) = clockSmall (decide (0 < d)) (stepTold d s) := rfl
    dsimp only
    rw [small']
    split
    · have bounded : (announceBoundary (clockSmall (decide (0 < d)) (stepTold d s))).clock =
          rollTo (clockSmall (decide (0 < d)) (stepTold d s)).localDay (clockSmall (decide (0 < d)) (stepTold d s)).clock :=
        (schedBoundary_scheduled _).clock
      rw [bounded]
      exact rollTo_still fun m h => clockSmall_date h
    · rfl

/-- A taken TIME SET of a time that is set (R17). -/
theorem timeSet_steps {d : DateF} {tm : TimeF} {z : Option Zone} {s : State} {l : Nat} (take : canTake (.timeSet d tm z) s = true)
    (ms : tm.ms ≤ 999) (c : convert s d tm z = some l) (set : s.tb.set = true) :
    let move := ((1000000 * l + 1000 * tm.ms : Nat) : Int) - s.stdUs
    ∃ u, u = (if move = 0 then arrived (.timeSet d tm z) s else stepStd move .line (arrived (.timeSet d tm z) s)) ∧
      exec (.timeSet d tm z) s = .next { u with
        ref := u.ref.timeSet
        line := (u.line.answered (.ready (.ok [.num (roundHalfAway move 1000)]) none)).pumped } := by
  intro move
  have act : timeSetAct d tm z (arrived (.timeSet d tm z) s) = setTime (1000000 * l + 1000 * tm.ms) (arrived (.timeSet d tm z) s) :=
    timeSetAct_of_convert (by rw [arrived_eq]; exact c)
  have tb : (arrived (.timeSet d tm z) s).tb = s.tb := by rw [arrived_eq]
  have std : (arrived (.timeSet d tm z) s).stdUs = s.stdUs := by rw [State.stdUs, tb, State.stdUs]
  have sets : setTime (1000000 * l + 1000 * tm.ms) (arrived (.timeSet d tm z) s) =
      let u := if move = 0 then arrived (.timeSet d tm z) s else stepStd move .line (arrived (.timeSet d tm z) s)
      ({ u with ref := u.ref.timeSet }, .ok [.num (roundMs move)]) := by
    unfold setTime
    rw [tb, set, std]
    exact if_neg Bool.false_ne_true
  have power : (if move = 0 then arrived (.timeSet d tm z) s else stepStd move .line (arrived (.timeSet d tm z) s)).power =
      s.power := by
    split
    · rw [arrived_eq]
    · rw [(stepStd_quiet _ _ _).power, show (movedTime move .line (arrived (.timeSet d tm z) s)).power =
        (arrived (.timeSet d tm z) s).power from rfl, arrived_eq]
  exact ⟨_, rfl, request_taken (act := timeSetAct d tm z) take (decide_eq_true ms) (act.trans sets) power⟩

/-- Where no CLOCK record is in ADMITTED or WAITING, nothing is cancelled (R117). -/
theorem cancelQuarters_none {s : State}
    (none : ∀ p x, p ∈ s.perfs → p.kind = .clock x → p.state ≠ .admitted ∧ p.state ≠ .waiting) :
    cancelQuarters s = (s, []) := by
  have empty : ∀ st, (∀ p x, p ∈ s.perfs → p.kind = .clock x → p.state ≠ st) → clocksIn s.perfs st = [] := fun st no => by
    refine List.eq_nil_iff_forall_not_mem.mpr fun x hx => ?_
    obtain ⟨here, state, kind⟩ := mem_clocksIn hx
    exact no x.1 x.2 here kind state
  have made := cancelQuarters_eq s
  rw [clocksCancelled, empty .admitted fun p x hp k => (none p x hp k).1, empty .waiting fun p x hp k => (none p x hp k).2] at made
  exact made

theorem frontierLoop_perfs {s : State} (h : s.line.mode = .service) : (frontierLoop s).perfs = s.perfs := by
  obtain ⟨c, made, -⟩ := frontierLoop_service h
  rw [made]

/-- What follows the clock's part of a large step (R117, R167). -/
theorem farStep_runs {forward : Bool} {w t : State} {r : RefMon} {l : Line}
    (made : t = { schedLarge forward (frontierLoop w) with ref := r, line := l }) :
    t.clock = (frontierLoop w).clock ∧ (w.line.mode = .service → t.perfs = w.perfs) := by
  subst made
  refine ⟨(schedLarge_scheduled forward (frontierLoop w)).clock, fun service => ?_⟩
  obtain ⟨c, loop, -⟩ := frontierLoop_service service
  have still : schedLarge forward (frontierLoop w) = frontierLoop w := by
    rw [schedLarge, schedActs_service (by rw [loop]; exact service)]
    exact if_neg Bool.false_ne_true
  rw [still]
  exact frontierLoop_perfs service

end Sys2Proof.Machine
end

section
/-! The day sheets meet the time: the clauses put together (R116 to R118). -/

namespace Sys2Proof.Machine

/-- A slot returns to PENDING where the sheets hold it (R117, R120). -/
theorem clearOutcome_returned (c : ClockUnit) (date k : Nat) : SlotReturned c (clearOutcome date k c) date k where
  today h := if_pos h
  yesterday no h := (if_neg no).trans (if_pos h)
  early x no no' h := by
    refine (if_neg no).trans ((if_neg no').trans ?_)
    rw [h]
    exact if_pos rfl
  other no no' none := by
    refine (if_neg no).trans ((if_neg no').trans ?_)
    split
    next a x e => exact if_neg (c := a = date) fun same => none x (e.trans (by rw [same]))
    · rfl

/-! ### Steps -/

section
variable {d : DateF} {tm : TimeF} {z : Option Zone} {s : State} {l : Nat}

/-- How far a TIME SET moves the time, in microseconds. -/
def setMove (s : State) (l ms : Nat) : Int := ((1000000 * l + 1000 * ms : Nat) : Int) - s.stdUs

/-- The state in which the step of a TIME SET is announced. -/
def setTold (d : DateF) (tm : TimeF) (z : Option Zone) (l : Nat) (s : State) : State :=
  stepTold (setMove s l tm.ms) (arrived (.timeSet d tm z) s)

theorem setTold_eq (ms : tm.ms ≤ 999) (c : convert s d tm z = some l) (flag : inForce s.cfg.summer l = s.tb.flag) :
    setTold d tm z l s = { s with
      tb := { s.tb with secs := l, sub := 1000 * tm.ms }, ref := (setTold d tm z l s).ref, cal := (setTold d tm z l s).cal
      line := (arrived (.timeSet d tm z) s).line.latched .time
        [.word "STEP", .num (roundHalfAway (setMove s l tm.ms) 1000), .word "LINE"] } := by
  have range : 1000000 * l + 1000 * tm.ms < spanUs := by
    have := convert_lt c
    simp only [spanUs]
    omega
  have secs : (1000000 * l + 1000 * tm.ms) / 1000000 = l := by omega
  have sub : (1000000 * l + 1000 * tm.ms) % 1000000 = 1000 * tm.ms := by omega
  have told := stepTold_eq (s := arrived (.timeSet d tm z) s) range (by rw [secs, arrived_eq]; exact flag)
  rw [secs, sub] at told
  have kept := arrived_eq (.timeSet d tm z) s
  unfold setTold
  generalize arrived (.timeSet d tm z) s = a at *
  have std : a.stdUs = s.stdUs := by rw [State.stdUs, (congrArg State.tb kept :), State.stdUs]
  rw [std] at told
  exact told.trans (congrArg (fun x : State => { x with
    tb := { x.tb with secs := l, sub := 1000 * tm.ms }, ref := (stepTold (setMove s l tm.ms) a).ref
    cal := (stepTold (setMove s l tm.ms) a).cal
    line := a.line.latched .time [.word "STEP", .num (roundHalfAway (setMove s l tm.ms) 1000), .word "LINE"] }) kept :)

theorem setRange (ms : tm.ms ≤ 999) (c : convert s d tm z = some l) :
    1000000 * l + 1000 * tm.ms < spanUs ∧ (1000000 * l + 1000 * tm.ms) / 1000000 = l := by
  have := convert_lt c
  simp only [spanUs]
  omega

/-- A taken TIME SET that moves a set time by less than a second (R4, R117). -/
theorem timeSet_small (take : canTake (.timeSet d tm z) s = true) (ms : tm.ms ≤ 999) (c : convert s d tm z = some l)
    (flag : inForce s.cfg.summer l = s.tb.flag) (set : s.tb.set = true) {t : State} (next : exec (.timeSet d tm z) s = .next t)
    (moves : setMove s l tm.ms ≠ 0) (small : (setMove s l tm.ms).natAbs < 1000000) :
    t.clock = (clockSmall (decide (0 < setMove s l tm.ms)) (setTold d tm z l s)).clock := by
  obtain ⟨range, secs⟩ := setRange ms c
  obtain ⟨u, is, made⟩ := timeSet_steps take ms c set
  cases next.symm.trans made
  have level := (stepStd_level (s := arrived (.timeSet d tm z) s) range (by rw [secs, arrived_eq]; exact flag)).2
  have std : (arrived (.timeSet d tm z) s).stdUs = s.stdUs := by
    rw [State.stdUs, show (arrived (.timeSet d tm z) s).tb = s.tb by rw [arrived_eq], State.stdUs]
  rw [std] at level
  exact (congrArg State.clock (is.trans (if_neg moves))).trans (level small)

/-- A taken TIME SET that moves a set time by a second or more (R4, R117). -/
theorem timeSet_large (take : canTake (.timeSet d tm z) s = true) (ms : tm.ms ≤ 999) (c : convert s d tm z = some l)
    (flag : inForce s.cfg.summer l = s.tb.flag) (set : s.tb.set = true) {t : State} (next : exec (.timeSet d tm z) s = .next t)
    (large : 1000000 ≤ (setMove s l tm.ms).natAbs) :
    let x := schedLarge (decide (0 < setMove s l tm.ms))
      (clockLarge (decide (0 < setMove s l tm.ms)) (setTold d tm z l s))
    t = { x with
      ref := t.ref
      line := (x.line.answered (.ready (.ok [.num (roundHalfAway (setMove s l tm.ms) 1000)]) none)).pumped } := by
  obtain ⟨range, secs⟩ := setRange ms c
  obtain ⟨u, is, made⟩ := timeSet_steps take ms c set
  cases next.symm.trans made
  have level := (stepStd_level (s := arrived (.timeSet d tm z) s) range (by rw [secs, arrived_eq]; exact flag)).1
  have std : (arrived (.timeSet d tm z) s).stdUs = s.stdUs := by
    rw [State.stdUs, show (arrived (.timeSet d tm z) s).tb = s.tb by rw [arrived_eq], State.stdUs]
  rw [std] at level
  have moves : setMove s l tm.ms ≠ 0 := fun zero => by
    rw [zero] at large
    exact absurd large (by decide)
  have whole : u = schedLarge (decide (0 < setMove s l tm.ms))
      (clockLarge (decide (0 < setMove s l tm.ms)) (setTold d tm z l s)) := by
    rw [is]
    exact (if_neg moves).trans (level large)
  rw [← whole]
  rfl

/-- The state in which a first setting by TIME SET is announced (R6). -/
def firstTold (d : DateF) (tm : TimeF) (z : Option Zone) (l : Nat) (s : State) : State :=
  notify .time [.word "SET", .word "LINE"] (firstTime (1000000 * l + 1000 * tm.ms) (arrived (.timeSet d tm z) s))

theorem firstTold_eq (ms : tm.ms ≤ 999) : firstTold d tm z l s = { s with
    tb := { s.tb with
      secs := l, sub := 1000 * tm.ms, set := true, flag := (firstTold d tm z l s).tb.flag }
    cal := (firstTold d tm z l s).cal, line := (firstTold d tm z l s).line } := by
  have secs : (1000000 * l + 1000 * tm.ms) / 1000000 = l := by omega
  have sub : (1000000 * l + 1000 * tm.ms) % 1000000 = 1000 * tm.ms := by omega
  have kept := arrived_eq (.timeSet d tm z) s
  unfold firstTold
  generalize arrived (.timeSet d tm z) s = a at *
  have tb : (firstTime (1000000 * l + 1000 * tm.ms) a).tb = { s.tb with
      secs := l, sub := 1000 * tm.ms, set := true, flag := (firstTime (1000000 * l + 1000 * tm.ms) a).tb.flag } := by
    have made : (firstTime (1000000 * l + 1000 * tm.ms) a).tb = { a.tb with
        secs := (1000000 * l + 1000 * tm.ms) / 1000000, sub := (1000000 * l + 1000 * tm.ms) % 1000000, set := true
        flag := (firstTime (1000000 * l + 1000 * tm.ms) a).tb.flag } := rfl
    rw [secs, sub, (congrArg State.tb kept :)] at made
    exact made
  have whole : notify .time [.word "SET", .word "LINE"] (firstTime (1000000 * l + 1000 * tm.ms) a) = { a with
      tb := (firstTime (1000000 * l + 1000 * tm.ms) a).tb, cal := (firstTime (1000000 * l + 1000 * tm.ms) a).cal
      line := (notify .time [.word "SET", .word "LINE"] (firstTime (1000000 * l + 1000 * tm.ms) a)).line } := rfl
  rw [tb] at whole
  exact whole.trans (congrArg (fun x : State => { x with
    tb := { s.tb with
      secs := l, sub := 1000 * tm.ms, set := true, flag := (firstTime (1000000 * l + 1000 * tm.ms) a).tb.flag }
    cal := (firstTime (1000000 * l + 1000 * tm.ms) a).cal
    line := (notify .time [.word "SET", .word "LINE"] (firstTime (1000000 * l + 1000 * tm.ms) a)).line }) kept :)

/-- A taken TIME SET has its effect (R17). -/
theorem timeSet_next (take : canTake (.timeSet d tm z) s = true) (ms : tm.ms ≤ 999) (c : convert s d tm z = some l) :
    ∃ t, exec (.timeSet d tm z) s = .next t ∧
      t.clock = (setTime (1000000 * l + 1000 * tm.ms) (arrived (.timeSet d tm z) s)).1.clock := by
  obtain ⟨range, -⟩ := setRange ms c
  have act : timeSetAct d tm z (arrived (.timeSet d tm z) s) = setTime (1000000 * l + 1000 * tm.ms) (arrived (.timeSet d tm z) s) :=
    timeSetAct_of_convert (by rw [arrived_eq]; exact c)
  have power := (setTime_moved range (arrived (.timeSet d tm z) s)).1.power
  have power' : (arrived (.timeSet d tm z) s).power = s.power := by rw [arrived_eq]
  exact ⟨_, request_taken (act := timeSetAct d tm z) take (decide_eq_true ms) act (power.trans power'), rfl⟩

theorem timeSet_first (take : canTake (.timeSet d tm z) s = true) (ms : tm.ms ≤ 999) (c : convert s d tm z = some l)
    (unset : s.tb.set = false) : ∃ t, exec (.timeSet d tm z) s = .next t ∧
      t.clock = (clockSet (firstTold d tm z l s)).clock := by
  obtain ⟨t, next, clock⟩ := timeSet_next take ms c
  refine ⟨t, next, clock.trans ?_⟩
  have tb : (arrived (.timeSet d tm z) s).tb.set = false := by rw [arrived_eq]; exact unset
  have first : setTime (1000000 * l + 1000 * tm.ms) (arrived (.timeSet d tm z) s) = _ := if_pos (by rw [tb]; rfl)
  rw [first]
  exact (schedSet_scheduled (clockSet (firstTold d tm z l s))).clock

/-- The sheets of the first setting (R118). -/
theorem setSheets_slots (s : State) (c : ClockUnit) :
    let unset : SheetSlot := { outcome := .unset, masked := 0, repeated := false }
    let d := setSheets s c
    (0 < s.localDay → d.yesterday.date = some (s.localDay - 1)) ∧
    (∀ k, k < 96 → rd d.yesterday.slots (k + 1) default = unset ∧
      (1000000 * (86400 * s.localDay + 900 * k) < s.localUs → rd d.today.slots (k + 1) default = unset) ∧
      (s.localUs ≤ 1000000 * (86400 * s.localDay + 900 * k) → rd d.today.slots (k + 1) default = pendingSlot)) ∧
    s.localUs ≤ 900000000 * d.frontier ∧ ∀ j, j < d.frontier → 900000000 * j < s.localUs := by
  intro unset d
  have frontier : d.frontier = (s.localUs + 899999999) / 900000000 := rfl
  refine ⟨fun pos => ?_, fun k hk => ?_, by omega, fun j hj => by omega⟩
  · have inside : s.localDay < spanDays := by
      have range : s.localSecs < spanDays * 86400 := Nat.mod_lt _ (Nat.mul_pos (by decide) (by decide))
      exact Nat.div_lt_of_lt_mul (by rw [Nat.mul_comm]; exact range)
    have : (s.localDay + spanDays - 1) % spanDays = s.localDay - 1 := by
      rw [show s.localDay + spanDays - 1 = s.localDay - 1 + spanDays by omega, Nat.add_mod_right]
      exact Nat.mod_eq_of_lt (by omega)
    exact congrArg some this
  · have unit : unitOk 96 (k + 1) = true := unitOk_iff.mpr ⟨by omega, by omega⟩
    have slot : rd d.today.slots (k + 1) default =
        if 1000000 * (86400 * s.localDay + 900 * (k + 1 - 1)) < s.localUs then unset else pendingSlot := rd_tableOf unit
    rw [Nat.add_sub_cancel] at slot
    exact ⟨rd_replicate unit, fun past => slot.trans (if_pos past), fun ahead => slot.trans (if_neg (Nat.not_lt_of_le ahead))⟩

end

end Sys2Proof.Machine

open Sys2Proof Sys2Proof.Machine

/-- Settles O40. -/
theorem daySheetsMeetTheTime : Obligations.DaySheetsMeetTheTime := by
  refine ⟨fun s on range flag midnight => ?_, fun d tm z s l take ms c flag ok => ?_,
    fun c date k _ => clearOutcome_returned c date k, fun d tm z s l take ms c unset => ?_⟩
  · obtain ⟨w, next, kept, -, -, -, -, localSecs⟩ := secondEnd_boundary on range flag (by omega)
    refine ⟨_, next, ?_⟩
    have clock : (announceBoundary w).clock = rollTo w.localDay w.clock := (schedBoundary_scheduled _).clock
    have day : w.localDay = (s.tb.secs + 1 + s.offset) % (73049 * 86400) / 86400 := by rw [State.localDay, localSecs]
    change SheetsRolled s.clock (announceBoundary w).clock _
    rw [clock, (congrArg State.clock kept :), ← day]
    exact rollTo_rolled _ _
  · obtain ⟨t, next, -⟩ := timeSet_next take ms c
    have told := setTold_eq ms c flag
    refine ⟨t, next, fun set moves small => ?_, fun set large none => ?_, fun set large nd => ?_⟩
    · have clock := timeSet_small take ms c flag set next moves small
      generalize setTold d tm z l s = v at *
      refine ⟨{ v with clock := rollTo v.localDay v.clock }, ⟨(congrArg State.tb told :), ?_⟩, ?_, fun fwd => ?_, fun back => ?_⟩
      · rw [told]
      · rw [(congrArg State.clock told :)]
        exact rollTo_rolled _ _
      · rw [clock, clockSmall, decide_eq_true (show 0 < setMove s l tm.ms from fwd)]
        rfl
      · rw [clock, clockSmall, decide_eq_false (show ¬0 < setMove s l tm.ms from not_lt_of_gt back)]
        rfl
    · have whole := timeSet_large take ms c flag set next large
      have mode : (setTold d tm z l s).line.mode = s.line.mode := by
        rw [told, latched_mode, arrived_mode]
      generalize setTold d tm z l s = v at *
      have noneV : ∀ p x, p ∈ v.perfs → p.kind = .clock x → p.state ≠ .admitted ∧ p.state ≠ .waiting := by
        rw [(congrArg State.perfs told :)]
        exact none
      rw [clockLarge_eq, cancelQuarters_none noneV] at whole
      have ok' : ProfilesOk v := ok.congr (congrArg State.cfg told :) (by rw [(congrArg State.clock told :)])
      have sub : v.tb.sub ≤ 1000000 := by
        have is : v.tb.sub = 1000 * tm.ms := (congrArg (fun x : State => x.tb.sub) told :)
        omega
      have runs := farStep_runs whole
      refine ⟨farMoved (decide (0 < setMove s l tm.ms)) [] v, rollTo v.localDay v.clock, ⟨(congrArg State.tb told :), ?_⟩, ?_,
        rfl, fun fwd => ?_, fun back => ?_, runs.1, fun service => runs.2 (mode.trans service), whole⟩
      · rw [told]
        rfl
      · rw [(congrArg State.clock told :)]
        exact rollTo_rolled _ _
      · rw [decide_eq_true (show 0 < setMove s l tm.ms from fwd), farMoved_forward, (congrArg State.clock told :)]
        rfl
      · rw [decide_eq_false (show ¬0 < setMove s l tm.ms from not_lt_of_gt back)]
        obtain ⟨k, ahead, is⟩ := farMoved_back [] ok' sub
        rw [is]
        exact ahead
    · have whole := timeSet_large take ms c flag set next large
      have mode : (setTold d tm z l s).line.mode = s.line.mode := by
        rw [told, latched_mode, arrived_mode]
      generalize setTold d tm z l s = v at *
      have ndV : (v.perfs.map (·.id)).Nodup := by
        rw [(congrArg State.perfs told :)]
        exact nd
      have sub : v.tb.sub ≤ 1000000 := by
        have is : v.tb.sub = 1000 * tm.ms := (congrArg (fun x : State => x.tb.sub) told :)
        omega
      obtain ⟨w, far, quiet, loop⟩ := clockLarge_moved (forward := decide (0 < setMove s l tm.ms)) ndV sub
      rw [loop] at whole
      have runs := farStep_runs whole
      have modeW : w.line.mode = s.line.mode := (congrArg Line.mode quiet.line).trans mode
      exact ⟨v, w, told, far, runs.1, fun service => runs.2 (modeW.trans service), whole⟩
  · obtain ⟨t, next, clock⟩ := timeSet_first take ms c unset
    have told := firstTold_eq (d := d) (z := z) (l := l) (s := s) ms
    generalize firstTold d tm z l s = v at *
    obtain ⟨yesterday, slots, here, before⟩ := setSheets_slots v v.clock
    have clockV : v.clock = s.clock := (congrArg State.clock told :)
    refine ⟨t, { v with clock := setSheets v v.clock }, next, (congrArg State.tb told :), ?_, rfl, rfl, yesterday, slots, here,
      before, ?_, clock⟩
    · rw [told]
    · exact congrArg (setSheets v) clockV

end

section
/-! What the Schedule Table fires: matching, stamps, the silences, the scenes and the bell entries (R158 to R165). -/

namespace Sys2Proof.Machine

/-! ### Matching -/

theorem agrees_iff {v : Option Nat} {n : Nat} : agrees v n = true ↔ ∀ k, v = some k → k = n := by
  cases v with
  | none => exact ⟨fun _ => nofun, fun _ => rfl⟩
  | some k =>
    refine decide_eq_true_iff.trans ⟨fun e j h => (Option.some.inj h) ▸ e, fun h => h k rfl⟩

theorem dateMatches_iff {f : EntryFields} {d : DayValues} : dateMatches f d = true ↔ DateFits f d := by
  have feast : (match f.feast with
      | none => true
      | some o => decide (o = d.easterDist)) = true ↔ ∀ o, f.feast = some o → o = d.easterDist := by
    cases f.feast with
    | none => exact ⟨fun _ => nofun, fun _ => rfl⟩
    | some o => exact decide_eq_true_iff.trans ⟨fun e j h => (Option.some.inj h) ▸ e, fun h => h o rfl⟩
  rw [dateMatches, Bool.and_eq_true, Bool.and_eq_true, Bool.and_eq_true, Bool.and_eq_true, agrees_iff, agrees_iff, agrees_iff,
    List.contains_iff_mem]
  constructor
  · rintro ⟨⟨⟨⟨year, month⟩, day⟩, weekday⟩, rest⟩
    exact ⟨year, month, day, weekday, feast.mp rest⟩
  · rintro ⟨year, month, day, weekday, rest⟩
    exact ⟨⟨⟨⟨year, month⟩, day⟩, weekday⟩, feast.mpr rest⟩

/-- A sun minute is its instant of the day, held within it (R159). -/
theorem sunMinute_iff {base m : Nat} {o : Int} : m = sunMinute base o ↔ (m : Int) = max 0 (min 1439 ((base : Int) + o)) := by
  unfold sunMinute clampI
  omega

theorem mem_entryMinutes {f : EntryFields} {d : DayValues} {m : Nat} : m ∈ entryMinutes f d ↔ MinuteFits f d m := by
  unfold entryMinutes MinuteFits
  cases f.time with
  | fixed h k =>
    cases h with
    | some h => exact List.mem_singleton
    | none =>
      refine List.mem_map.trans ⟨fun ⟨h, hh, e⟩ => ⟨h, List.mem_range.mp hh, e.symm⟩, fun ⟨h, hh, e⟩ => ⟨h, List.mem_range.mpr hh, e.symm⟩⟩
  | sunrise o => exact List.mem_singleton.trans sunMinute_iff
  | sunset o early => exact List.mem_singleton.trans sunMinute_iff

theorem mem_matchedMinutes {f : EntryFields} {d : DayValues} {m : Nat} : m ∈ matchedMinutes f d ↔ EntryMatches f d m := by
  unfold matchedMinutes EntryMatches
  by_cases h : dateMatches f d = true
  · rw [if_pos h, List.mem_map]
    exact ⟨fun ⟨k, hk, e⟩ => ⟨dateMatches_iff.mp h, k, mem_entryMinutes.mp hk, e.symm⟩,
      fun ⟨_, k, hk, e⟩ => ⟨k, mem_entryMinutes.mpr hk, e.symm⟩⟩
  · rw [if_neg h]
    exact ⟨fun k => absurd k List.not_mem_nil, fun k => absurd (dateMatches_iff.mpr k.1) h⟩

theorem stampBefore_iff {s : State} {n m : Nat} : stampBefore s n m = true ↔ ∀ x, s.stamp n = some x → x < m := by
  unfold stampBefore
  cases s.stamp n with
  | none => exact ⟨fun _ => nofun, fun _ => rfl⟩
  | some k => exact decide_eq_true_iff.trans ⟨fun e j h => (Option.some.inj h) ▸ e, fun h => h k rfl⟩

/-! ### The active entries -/

theorem mem_activeEntries {s : State} {n : Nat} {f : EntryFields} :
    (n, f) ∈ activeEntries s ↔ unitOk 128 n = true ∧ s.entry n = .active f := by
  have unit : n ∈ (List.range 128).map (· + 1) ↔ unitOk 128 n = true := by
    rw [List.mem_map, unitOk_iff]
    exact ⟨fun ⟨k, hk, e⟩ => by have := List.mem_range.mp hk; omega, fun h => ⟨n - 1, List.mem_range.mpr (by omega), by omega⟩⟩
  unfold activeEntries
  rw [List.mem_filterMap]
  constructor
  · rintro ⟨k, hk, e⟩
    split at e
    next g active =>
      cases e
      exact ⟨unit.mp hk, active⟩
    · cases e
  · rintro ⟨ok, active⟩
    exact ⟨n, unit.mpr ok, by rw [active]⟩

theorem activeEntries_ascend (s : State) : (activeEntries s).Pairwise fun x y => x.1 < y.1 := by
  unfold activeEntries
  rw [List.pairwise_filterMap]
  have range : ((List.range 128).map (· + 1)).Pairwise (· < ·) :=
    List.pairwise_map.mpr (List.pairwise_lt_range.imp fun h => Nat.succ_lt_succ h)
  refine range.imp fun {a b} lt x hx y hy => ?_
  have number : ∀ {k : Nat} {z : Nat × EntryFields}, (match s.entry k with
      | .active f => some (k, f)
      | _ => none) = some z → z.1 = k := fun {k z} e => by
    split at e
    · cases e; rfl
    · cases e
  rw [number hx, number hy]
  exact lt

/-! ### Stamps -/

/-- The stamps of a list of entries, in ascending order of their numbers (R160). -/
theorem stamps_set {l : List (Nat × EntryFields × Nat)} {s : State} (asc : l.Pairwise fun x y => x.1 < y.1)
    (units : ∀ e ∈ l, unitOk 128 e.1 = true) :
    (∀ e ∈ l, (l.foldl (fun u e => setStamp e.1 e.2.2 u) s).stamp e.1 = some e.2.2) ∧
    (∀ n, unitOk 128 n = true → (∀ e ∈ l, e.1 ≠ n) → (l.foldl (fun u e => setStamp e.1 e.2.2 u) s).stamp n = s.stamp n) ∧
    l.foldl (fun u e => setStamp e.1 e.2.2 u) s = { s with sched := { s.sched with
      stamps := (l.foldl (fun u e => setStamp e.1 e.2.2 u) s).sched.stamps } } := by
  induction l generalizing s with
  | nil => exact ⟨fun _ h => absurd h List.not_mem_nil, fun _ _ _ => rfl, rfl⟩
  | cons a l ih =>
    rw [List.pairwise_cons] at asc
    obtain ⟨set, stands, kept⟩ := ih (s := setStamp a.1 a.2.2 s) asc.2 fun e he => units e (List.mem_cons_of_mem _ he)
    have unit := units a List.mem_cons_self
    refine ⟨fun e he => ?_, fun n ok no => ?_, kept⟩
    · rcases List.mem_cons.mp he with rfl | he
      · refine (stands e.1 unit fun x hx => Nat.ne_of_gt (asc.1 x hx)).trans ?_
        exact rd_wr_same unit
      · exact set e he
    · refine (stands n ok fun x hx => no x (List.mem_cons_of_mem _ hx)).trans ?_
      exact rd_wr_ne (unitOk_iff.mp ok).1 fun e => no a List.mem_cons_self e.symm

end Sys2Proof.Machine
end

section
/-! What each action of a firing entry does to the silences and the base layer (R162, R164, R165). -/

namespace Sys2Proof.Machine

/-! ### The base layer -/

theorem resolve_base (c : Channel) (n now : Nat) : (c.resolve n now).base = c.base := by
  unfold Channel.resolve Channel.startFade
  repeat' split
  all_goals rfl

theorem baseChange_base (c : Channel) (b : Option Nat) (n now : Nat) : (c.baseChange b n now).base = b := by
  rw [baseChange_eq]
  exact resolve_base _ _ _

/-- A partial base change lays the levels its scene holds (R164, R176). -/
theorem partialBase_base {sc : Scene} {s : State} {n : Nat} (unit : unitOk 16 n = true) :
    (∀ l, rd sc.levels n none = some l → ((partialBase sc s).chan n).base = some l) ∧
    (rd sc.levels n none = none → ((partialBase sc s).chan n).base = (s.chan n).base) := by
  unfold partialBase
  rw [chan_onChans allChans_nodup unit, if_pos (mem_allChans unit)]
  refine ⟨fun l h => ?_, fun h => ?_⟩
  · rw [h]
    exact baseChange_base _ _ _ _
  · rw [h]

theorem joinScene_base (id level order : Nat) (k : Option Nat) (s : State) {n : Nat} (unit : unitOk 16 n = true) :
    ((joinScene id level order k s).chan n).base = (s.chan n).base := by
  cases k with
  | none => rfl
  | some k =>
    unfold joinScene setContribs
    dsimp only
    rw [chan_onChans allChans_nodup unit, if_pos (mem_allChans unit)]
    split
    · rfl
    · exact resolve_base _ _ _

theorem chan_of_lights {s t : State} (h : s.lights = t.lights) (n : Nat) : s.chan n = t.chan n := by
  rw [State.chan, h]
  rfl

theorem createPerf_base (p : Perf) (s : State) {n : Nat} (unit : unitOk 16 n = true) :
    ((createPerf p s).1.chan n).base = (s.chan n).base := by
  unfold createPerf
  dsimp only
  repeat' split
  · rfl
  · exact (congrArg Channel.base (chan_of_lights (created_joins p s) n)).trans (joinScene_base _ _ _ _ _ unit)
  · rfl
  · rfl

theorem fireCreation_base (k : Nat) (p : Perf) (s : State) {n : Nat} (unit : unitOk 16 n = true) :
    ((fireCreation k p s).chan n).base = (s.chan n).base := by
  have created := createPerf_base p s unit
  unfold fireCreation
  split
  all_goals
    next e =>
      rw [e] at created
      exact created

/-! ### The actions -/

/-- An entry's action is one of the bells: PLAY, TOLL or RING (R161). -/
def BellAction (f : EntryFields) : Prop := (∀ scope d, f.action ≠ .silence scope d) ∧ ∀ k, f.action ≠ .scene k

theorem fireAction_silence {t n d : Nat} {f : EntryFields} {scope : SilenceScope} (h : f.action = .silence scope d) (s : State) :
    fireAction t s (n, f) = entryNotice n [.word "FIRED"] (openSilence scope (t + 60000000 * d) s) := by
  rw [fireAction, h]

theorem fireAction_scene {t n k : Nat} {f : EntryFields} (h : f.action = .scene k) (s : State) :
    fireAction t s (n, f) = entryNotice n [.word "FIRED"] (partialBase (s.scene k) s) := by
  rw [fireAction, h]

theorem partialBase_sched (sc : Scene) (s : State) : (partialBase sc s).sched = s.sched :=
  (congrArg State.sched (partialBase_lights sc s) :)

theorem entryNotice_sched (n : Nat) (d : List Field) (s : State) : (entryNotice n d s).sched = s.sched := rfl

/-- A SCENE entry leaves the schedule (R164). -/
theorem fireAction_scene_sched {t n k : Nat} {f : EntryFields} (h : f.action = .scene k) (s : State) :
    (fireAction t s (n, f)).sched = s.sched := by
  rw [fireAction_scene h, entryNotice_sched, partialBase_sched]

/-- A bell entry leaves the schedule and the base layer (R165). -/
theorem fireAction_bell {t n : Nat} {f : EntryFields} (h : BellAction f) (s : State) :
    (fireAction t s (n, f)).sched = s.sched ∧
      ∀ c, unitOk 16 c = true → ((fireAction t s (n, f)).chan c).base = (s.chan c).base := by
  unfold fireAction
  dsimp only
  split
  next e => exact absurd e (h.1 _ _)
  next e => exact absurd e (h.2 _)
  · repeat' split
    · exact ⟨rfl, fun _ _ => rfl⟩
    · exact ⟨rfl, fun _ _ => rfl⟩
    · exact ⟨(fireCreation_scheduled _ _ rfl).2, fun _ unit => fireCreation_base _ _ _ unit⟩
  · split
    · exact ⟨rfl, fun _ _ => rfl⟩
    · exact ⟨(fireCreation_scheduled _ _ rfl).2, fun _ unit => fireCreation_base _ _ _ unit⟩
  · repeat' split
    · exact ⟨rfl, fun _ _ => rfl⟩
    · exact ⟨rfl, fun _ _ => rfl⟩
    · exact ⟨(fireCreation_scheduled _ _ rfl).2, fun _ unit => fireCreation_base _ _ _ unit⟩

/-- Of the schedule an action moves the silence ends alone. -/
theorem fireAction_sched (t : Nat) (s : State) (e : Nat × EntryFields) : (fireAction t s e).sched = { s.sched with
    strikeEnd := (fireAction t s e).sched.strikeEnd, tunesEnd := (fireAction t s e).sched.tunesEnd } := by
  obtain ⟨n, f⟩ := e
  cases h : f.action with
  | silence scope d =>
    rw [fireAction_silence h]
    rfl
  | scene k =>
    rw [fireAction_scene_sched h]
  | play _ _ _ | toll _ _ _ _ | ring _ _ _ =>
    have bell : BellAction f := ⟨fun _ _ e => (by rw [h] at e; cases e), fun _ e => (by rw [h] at e; cases e)⟩
    rw [(fireAction_bell bell s).1]

theorem fireActions_sched (t : Nat) (es : List (Nat × EntryFields)) (s : State) : (es.foldl (fireAction t) s).sched =
    { s.sched with
      strikeEnd := (es.foldl (fireAction t) s).sched.strikeEnd, tunesEnd := (es.foldl (fireAction t) s).sched.tunesEnd } := by
  induction es generalizing s with
  | nil => rfl
  | cons e es ih =>
    have later := ih (fireAction t s e)
    have first := fireAction_sched t s e
    rw [first] at later
    exact later

/-! ### Silence ends -/

/-- One of the two silence ends, the strike's or the tunes'. -/
def silenceEnd (strike : Bool) (s : State) : Option Nat := if strike then s.sched.strikeEnd else s.sched.tunesEnd

/-- A silence's scope holds the strike, or the tunes. -/
def InScope (strike : Bool) (scope : SilenceScope) : Prop := if strike then scope ≠ .tunes else scope ≠ .strike

theorem openSilence_end {strike : Bool} {scope : SilenceScope} (t : Nat) (s : State) :
    (InScope strike scope → silenceEnd strike (openSilence scope t s) = laterEnd (silenceEnd strike s) t) ∧
    (¬InScope strike scope → silenceEnd strike (openSilence scope t s) = silenceEnd strike s) := by
  cases strike with
  | true => exact ⟨fun h => if_neg h, fun h => if_pos (not_not.mp h)⟩
  | false => exact ⟨fun h => if_neg h, fun h => if_pos (not_not.mp h)⟩

theorem laterEnd_spec (e : Option Nat) (t : Nat) : (∃ x, laterEnd e t = some x ∧ t ≤ x) ∧
    (∀ y, e = some y → ∃ x, laterEnd e t = some x ∧ y ≤ x) ∧ (laterEnd e t ≠ e → laterEnd e t = some t) := by
  cases e with
  | none => exact ⟨⟨t, rfl, Nat.le_refl _⟩, nofun, fun _ => rfl⟩
  | some u =>
    refine ⟨⟨max u t, rfl, Nat.le_max_right _ _⟩, fun y h => ⟨max u t, rfl, ?_⟩, fun ne => ?_⟩
    · cases h
      exact Nat.le_max_left _ _
    · rcases Nat.le_total u t with le | le
      · exact congrArg some (Nat.max_eq_right le)
      · exact absurd (congrArg some (Nat.max_eq_left le)) ne

/-- From `s` to `t` a silence end is the later of what it was and those the entries of a list give at an instant (R162). -/
structure EndRaised (strike : Bool) (s t : State) (es : List (Nat × EntryFields)) (at' : Nat) : Prop where
  gives : ∀ n f scope d, (n, f) ∈ es → f.action = .silence scope d → InScope strike scope →
    ∃ e, silenceEnd strike t = some e ∧ at' + 60000000 * d ≤ e
  stays : ∀ e, silenceEnd strike s = some e → ∃ x, silenceEnd strike t = some x ∧ e ≤ x
  origin : silenceEnd strike t ≠ silenceEnd strike s → ∃ n f scope d, (n, f) ∈ es ∧ f.action = .silence scope d ∧
    InScope strike scope ∧ silenceEnd strike t = some (at' + 60000000 * d)

/-- One action raises an end or leaves it. -/
theorem fireAction_end (strike : Bool) (t : Nat) (s : State) (e : Nat × EntryFields) :
    (∀ scope d, e.2.action = .silence scope d → InScope strike scope →
      silenceEnd strike (fireAction t s e) = laterEnd (silenceEnd strike s) (t + 60000000 * d)) ∧
    ((∀ scope d, e.2.action = .silence scope d → ¬InScope strike scope) →
      silenceEnd strike (fireAction t s e) = silenceEnd strike s) := by
  obtain ⟨n, f⟩ := e
  refine ⟨fun scope d h within => ?_, fun out => ?_⟩
  · rw [fireAction_silence h]
    exact (openSilence_end _ _).1 within
  · have of_sched : (fireAction t s (n, f)).sched = s.sched → silenceEnd strike (fireAction t s (n, f)) = silenceEnd strike s :=
      fun h => by rw [silenceEnd, h, silenceEnd]
    cases h : f.action with
    | silence scope d =>
      rw [fireAction_silence h]
      exact (openSilence_end _ _).2 (out scope d h)
    | scene k => exact of_sched (fireAction_scene_sched h s)
    | play _ _ _ | toll _ _ _ _ | ring _ _ _ =>
      have bell : BellAction f := ⟨fun _ _ e => (by rw [h] at e; cases e), fun _ e => (by rw [h] at e; cases e)⟩
      exact of_sched (fireAction_bell bell s).1

theorem fireActions_end (strike : Bool) (at' : Nat) (es : List (Nat × EntryFields)) (s : State) :
    EndRaised strike s (es.foldl (fireAction at') s) es at' := by
  induction es generalizing s with
  | nil => exact ⟨fun _ _ _ _ h => absurd h List.not_mem_nil, fun e h => ⟨e, h, Nat.le_refl _⟩, fun h => absurd rfl h⟩
  | cons a es ih =>
    obtain ⟨gives, stays, origin⟩ := ih (fireAction at' s a)
    obtain ⟨raises, leaves⟩ := fireAction_end strike at' s a
    rw [List.foldl_cons]
    generalize es.foldl (fireAction at') (fireAction at' s a) = t at *
    by_cases h : ∃ scope d, a.2.action = .silence scope d ∧ InScope strike scope
    · obtain ⟨scope, d, action, within⟩ := h
      have raised := raises scope d action within
      obtain ⟨⟨x, is, le⟩, old, new⟩ := laterEnd_spec (silenceEnd strike s) (at' + 60000000 * d)
      rw [← raised] at is old new
      refine ⟨fun n f scope' d' mem action' within' => ?_, fun e he => ?_, fun ne => ?_⟩
      · rcases List.mem_cons.mp mem with rfl | mem
        · have same := action.symm.trans action'
          cases same
          obtain ⟨y, now, le'⟩ := stays x is
          exact ⟨y, now, Nat.le_trans le le'⟩
        · exact gives n f scope' d' mem action' within'
      · obtain ⟨x, is, le⟩ := old e he
        obtain ⟨y, now, le'⟩ := stays x is
        exact ⟨y, now, Nat.le_trans le le'⟩
      · by_cases same : silenceEnd strike t = silenceEnd strike (fireAction at' s a)
        · exact ⟨a.1, a.2, scope, d, List.mem_cons_self, action, within, same.trans (new (same ▸ ne))⟩
        · obtain ⟨n, f, scope', d', mem, rest⟩ := origin same
          exact ⟨n, f, scope', d', List.mem_cons_of_mem _ mem, rest⟩
    · have left := leaves fun scope d action within => h ⟨scope, d, action, within⟩
      rw [left] at stays origin
      refine ⟨fun n f scope d mem action within => ?_, stays, fun ne => ?_⟩
      · rcases List.mem_cons.mp mem with rfl | mem
        · exact absurd ⟨scope, d, action, within⟩ h
        · exact gives n f scope d mem action within
      · obtain ⟨n, f, scope, d, mem, rest⟩ := origin ne
        exact ⟨n, f, scope, d, List.mem_cons_of_mem _ mem, rest⟩

end Sys2Proof.Machine
end

section
/-! The schedule at a minute boundary: the groups in their order, and R165's table (R160 to R165). -/

namespace Sys2Proof.Machine

/-! ### The base layer over a list of entries -/

theorem fireAction_scenes (t : Nat) (s : State) (e : Nat × EntryFields) (k : Nat) : (fireAction t s e).scene k = s.scene k := by
  rw [State.scene, (fireAction_quiet t s e).cfg, State.scene]

/-- One action lays what its scene holds, and no other base value (R164). -/
theorem fireAction_base {c : Nat} (unit : unitOk 16 c = true) (t : Nat) (s : State) (n : Nat) (f : EntryFields) :
    (∀ k l, f.action = .scene k → rd (s.scene k).levels c none = some l → ((fireAction t s (n, f)).chan c).base = some l) ∧
    ((∀ k, f.action = .scene k → rd (s.scene k).levels c none = none) →
      ((fireAction t s (n, f)).chan c).base = (s.chan c).base) := by
  have scene : ∀ k, f.action = .scene k → (fireAction t s (n, f)).chan c = (partialBase (s.scene k) s).chan c := fun k h => by
    rw [fireAction_scene h]
    rfl
  refine ⟨fun k l h holds => ?_, fun none => ?_⟩
  · rw [scene k h]
    exact (partialBase_base unit).1 l holds
  · cases h : f.action with
    | silence scope d =>
      rw [fireAction_silence h]
      rfl
    | scene k =>
      rw [scene k h]
      exact (partialBase_base unit).2 (none k h)
    | play _ _ _ | toll _ _ _ _ | ring _ _ _ =>
      have bell : BellAction f := ⟨fun _ _ e => (by rw [h] at e; cases e), fun _ e => (by rw [h] at e; cases e)⟩
      exact (fireAction_bell bell s).2 c unit

theorem fireActions_base_stays {c : Nat} (unit : unitOk 16 c = true) (t : Nat) {es : List (Nat × EntryFields)} {s : State}
    (none : ∀ n f k, (n, f) ∈ es → f.action = .scene k → rd (s.scene k).levels c none = none) :
    ((es.foldl (fireAction t) s).chan c).base = (s.chan c).base := by
  induction es generalizing s with
  | nil => rfl
  | cons e es ih =>
    refine (ih fun n f k mem h => ?_).trans ((fireAction_base unit t s e.1 e.2).2 fun k h => none _ _ k List.mem_cons_self h)
    rw [fireAction_scenes]
    exact none n f k (List.mem_cons_of_mem _ mem) h

theorem fireActions_scenes (t : Nat) (es : List (Nat × EntryFields)) (s : State) (k : Nat) :
    (es.foldl (fireAction t) s).scene k = s.scene k := by
  induction es generalizing s with
  | nil => rfl
  | cons e es ih => exact (ih _).trans (fireAction_scenes t s e k)

/-- The last scene of a list that holds a channel gives its base value. -/
theorem fireActions_base_laid {c : Nat} (unit : unitOk 16 c = true) (t : Nat) {a b : List (Nat × EntryFields)} {s : State} {n k l : Nat}
    {f : EntryFields} (h : f.action = .scene k) (holds : rd (s.scene k).levels c none = some l)
    (later : ∀ j g i, (j, g) ∈ b → g.action = .scene i → rd (s.scene i).levels c none = none) :
    (((a ++ (n, f) :: b).foldl (fireAction t) s).chan c).base = some l := by
  rw [List.foldl_append, List.foldl_cons]
  refine (fireActions_base_stays unit t fun j g i mem e => ?_).trans ((fireAction_base unit t _ n f).1 k l h ?_)
  · rw [fireAction_scenes, fireActions_scenes]
    exact later j g i mem e
  · rw [fireActions_scenes]
    exact holds

/-! ### Silences and scenes touch little -/

/-- From `s` to `t` only the schedule, the lights and the line have changed. -/
structure SchedLit (s t : State) : Prop where
  kept : t = { s with sched := t.sched, lights := t.lights, line := t.line }

theorem SchedLit.rfl {s : State} : SchedLit s s := ⟨Eq.refl _⟩

theorem SchedLit.trans {s t u : State} (h : SchedLit s t) (k : SchedLit t u) : SchedLit s u :=
  ⟨k.kept.trans (congrArg (fun x : State => { x with sched := u.sched, lights := u.lights, line := u.line }) h.kept :)⟩

theorem SchedLit.of_lights {s t : State} (h : t = { s with lights := t.lights }) : SchedLit s t := ⟨by rw [h]⟩

theorem entryNotice_lit (n : Nat) (d : List Field) (s : State) : SchedLit s (entryNotice n d s) := ⟨rfl⟩
theorem openSilence_lit (scope : SilenceScope) (t : Nat) (s : State) : SchedLit s (openSilence scope t s) := ⟨rfl⟩

theorem fireActions_lit (t : Nat) {es : List (Nat × EntryFields)} (plain : ∀ e ∈ es, ¬BellAction e.2) (s : State) :
    SchedLit s (es.foldl (fireAction t) s) := by
  induction es generalizing s with
  | nil => exact .rfl
  | cons e es ih =>
    refine SchedLit.trans ?_ (ih (fun x hx => plain x (List.mem_cons_of_mem _ hx)) (fireAction t s e))
    obtain ⟨n, f⟩ := e
    cases h : f.action with
    | silence scope d =>
      rw [fireAction_silence h]
      exact (openSilence_lit _ _ _).trans (entryNotice_lit _ _ _)
    | scene k =>
      rw [fireAction_scene h]
      exact (SchedLit.of_lights (partialBase_lights _ _)).trans (entryNotice_lit _ _ _)
    | play _ _ _ | toll _ _ _ _ | ring _ _ _ =>
      exact absurd ⟨fun _ _ e => (by rw [h] at e; cases e), fun _ e => (by rw [h] at e; cases e)⟩ (plain _ List.mem_cons_self)

theorem fireActions_bells (t : Nat) {es : List (Nat × EntryFields)} (bells : ∀ e ∈ es, BellAction e.2) (s : State) :
    (es.foldl (fireAction t) s).sched = s.sched := by
  induction es generalizing s with
  | nil => rfl
  | cons e es ih =>
    exact (ih (fun x hx => bells x (List.mem_cons_of_mem _ hx)) _).trans (fireAction_bell (n := e.1) (bells e List.mem_cons_self) s).1

/-! ### The groups -/

/-- The entries of a firing list that belong to a group (R161). -/
def groupOf (g : Nat) (l : List (Nat × EntryFields × Nat)) : List (Nat × EntryFields) :=
  (l.map fun e => (e.1, e.2.1)).filter fun e => fireGroup e.2.action = g

theorem mem_groupOf {g n : Nat} {f : EntryFields} {l : List (Nat × EntryFields × Nat)} :
    (n, f) ∈ groupOf g l ↔ (∃ m, (n, f, m) ∈ l) ∧ fireGroup f.action = g := by
  unfold groupOf
  rw [List.mem_filter, List.mem_map]
  constructor
  · rintro ⟨⟨e, he, same⟩, k⟩
    cases same
    exact ⟨⟨e.2.2, he⟩, of_decide_eq_true k⟩
  · rintro ⟨⟨m, he⟩, k⟩
    exact ⟨⟨_, he, rfl⟩, decide_eq_true k⟩

theorem groupOf_ascend {g : Nat} {l : List (Nat × EntryFields × Nat)} (asc : l.Pairwise fun x y => x.1 < y.1) :
    (groupOf g l).Pairwise fun x y => x.1 < y.1 := by
  have all : (l.map fun e => (e.1, e.2.1)).Pairwise fun x y => x.1 < y.1 := List.pairwise_map.mpr asc
  exact all.filter _

theorem fireGroup_one {f : EntryFields} : fireGroup f.action = 1 ↔ ∃ scope d, f.action = .silence scope d := by
  unfold fireGroup
  split
  next e => exact ⟨fun _ => ⟨_, _, e⟩, fun _ => rfl⟩
  next e => exact ⟨nofun, fun ⟨_, _, h⟩ => by rw [e] at h; cases h⟩
  next no _ => exact ⟨nofun, fun ⟨_, _, h⟩ => absurd h (no _ _)⟩

theorem fireGroup_two {f : EntryFields} : fireGroup f.action = 2 ↔ ∃ k, f.action = .scene k := by
  unfold fireGroup
  split
  next e => exact ⟨nofun, fun ⟨_, h⟩ => by rw [e] at h; cases h⟩
  next e => exact ⟨fun _ => ⟨_, e⟩, fun _ => rfl⟩
  next no => exact ⟨nofun, fun ⟨_, h⟩ => absurd h (no _)⟩

theorem fireGroup_three {f : EntryFields} : fireGroup f.action = 3 ↔ BellAction f := by
  unfold fireGroup BellAction
  split
  next e => exact ⟨nofun, fun h => absurd e (h.1 _ _)⟩
  next e => exact ⟨nofun, fun h => absurd e (h.2 _)⟩
  next no no' => exact ⟨fun _ => ⟨fun _ _ => no _ _, fun _ => no' _⟩, fun _ => rfl⟩

/-- The stamps, then the silences, the scenes in descending order and the bells in ascending order (R160, R161). -/
theorem fireAll_eq (t : Nat) (l : List (Nat × EntryFields × Nat)) (s : State) :
    fireAll t l s = (groupOf 3 l).foldl (fireAction t) ((groupOf 1 l ++ (groupOf 2 l).reverse).foldl (fireAction t)
      (l.foldl (fun u e => setStamp e.1 e.2.2 u) s)) := List.foldl_append

/-- What a firing list does (R160 to R165): stamps, silences and scenes, and then the bell entries. -/
structure ListFired (at' : Nat) (l : List (Nat × EntryFields × Nat)) (s t : State) (fires : Nat → EntryFields → Prop) : Prop where
  bells : ∃ w, BellEntriesFire w t fires at' ∧ SchedLit s w ∧ w.sched = t.sched
  stamped : ∀ e ∈ l, t.stamp e.1 = some e.2.2
  others : ∀ n, unitOk 128 n = true → (∀ e ∈ l, e.1 ≠ n) → t.stamp n = s.stamp n
  lastEval : t.sched.lastEval = s.sched.lastEval
  panel : t.sched.panelSilence = s.sched.panelSilence
  acts : SilencesAndScenesFire s t fires at'

theorem fireAll_fires {at' : Nat} {l : List (Nat × EntryFields × Nat)} {s : State} {fires : Nat → EntryFields → Prop}
    (asc : l.Pairwise fun x y => x.1 < y.1) (units : ∀ e ∈ l, unitOk 128 e.1 = true)
    (mem : ∀ n f, fires n f ↔ ∃ m, (n, f, m) ∈ l) : ListFired at' l s (fireAll at' l s) fires := by
  obtain ⟨stamped, others, kept⟩ := stamps_set (s := s) asc units
  have order := fireAll_eq at' l s
  generalize l.foldl (fun u e => setStamp e.1 e.2.2 u) s = u at *
  have silences : ∀ {n f scope d}, fires n f → f.action = .silence scope d → (n, f) ∈ groupOf 1 l := fun h e =>
    mem_groupOf.mpr ⟨(mem _ _).mp h, fireGroup_one.mpr ⟨_, _, e⟩⟩
  have scenes : ∀ {n f k}, fires n f → f.action = .scene k → (n, f) ∈ groupOf 2 l := fun h e =>
    mem_groupOf.mpr ⟨(mem _ _).mp h, fireGroup_two.mpr ⟨_, e⟩⟩
  have all : fireAll at' l s = ((groupOf 1 l ++ (groupOf 2 l).reverse) ++ groupOf 3 l).foldl (fireAction at') u :=
    order.trans List.foldl_append.symm
  have from' : ∀ {n f}, (n, f) ∈ (groupOf 1 l ++ (groupOf 2 l).reverse) ++ groupOf 3 l → fires n f := fun h => by
    rw [List.mem_append, List.mem_append, List.mem_reverse] at h
    rcases h with (h | h) | h
    all_goals exact (mem _ _).mpr (mem_groupOf.mp h).1
  have sched := fireActions_sched at' ((groupOf 1 l ++ (groupOf 2 l).reverse) ++ groupOf 3 l) u
  have ends := fun strike => fireActions_end strike at' ((groupOf 1 l ++ (groupOf 2 l).reverse) ++ groupOf 3 l) u
  have sound : ∀ {n f scope d}, fires n f → f.action = .silence scope d →
      (n, f) ∈ (groupOf 1 l ++ (groupOf 2 l).reverse) ++ groupOf 3 l := fun h e =>
    List.mem_append_left _ (List.mem_append_left _ (silences h e))
  have endsAt : ∀ strike, silenceEnd strike u = silenceEnd strike s := fun strike => by
    rw [kept]
    cases strike <;> rfl
  have scenesAt : ∀ k, u.scene k = s.scene k := fun k => by
    rw [kept]
    rfl
  have chansAt : ∀ c, u.chan c = s.chan c := fun c => by
    rw [kept]
    rfl
  have stampsAt : ∀ n, (fireAll at' l s).stamp n = u.stamp n := fun n => by
    rw [all, State.stamp, sched]
    rfl
  refine ⟨⟨(groupOf 1 l ++ (groupOf 2 l).reverse).foldl (fireAction at') u, ⟨groupOf 3 l, groupOf_ascend asc,
      fun n f => ?_, order⟩, ?_, ?_⟩, fun e he => (stampsAt _).trans (stamped e he),
    fun n unit no => (stampsAt n).trans (others n unit no), ?_, ?_, ?_⟩
  · rw [mem_groupOf, ← mem, fireGroup_three]
    rfl
  · have first : SchedLit s u := ⟨by rw [kept]⟩
    refine first.trans (fireActions_lit at' (fun e he bell => ?_) u)
    rcases List.mem_append.mp he with he | he
    · obtain ⟨scope, d, action⟩ := fireGroup_one.mp (mem_groupOf (n := e.1) (f := e.2) |>.mp he).2
      exact bell.1 scope d action
    · obtain ⟨k, action⟩ := fireGroup_two.mp (mem_groupOf (n := e.1) (f := e.2) |>.mp (List.mem_reverse.mp he)).2
      exact bell.2 k action
  · rw [order]
    exact (fireActions_bells at' (fun e he => fireGroup_three.mp (mem_groupOf (n := e.1) (f := e.2) |>.mp he).2) _).symm
  · rw [all, sched, kept]
  · rw [all, sched, kept]
  · rw [all]
    have strike := ends true
    have tunes := ends false
    have strikeAt := endsAt true
    have tunesAt := endsAt false
    generalize hT : ((groupOf 1 l ++ (groupOf 2 l).reverse) ++ groupOf 3 l).foldl (fireAction at') u = T at *
    constructor
    case strike => exact fun n f scope d h e within => strike.gives n f scope d (sound h e) e within
    case tunes => exact fun n f scope d h e within => tunes.gives n f scope d (sound h e) e within
    case strikeStays => exact fun e h => strike.stays e (strikeAt.trans h)
    case tunesStays => exact fun e h => tunes.stays e (tunesAt.trans h)
    case strikeFrom =>
      intro ne
      obtain ⟨n, f, scope, d, h, e, within, is⟩ := strike.origin fun same => ne (same.trans strikeAt)
      exact ⟨n, f, scope, d, from' h, e, within, is⟩
    case tunesFrom =>
      intro ne
      obtain ⟨n, f, scope, d, h, e, within, is⟩ := tunes.origin fun same => ne (same.trans tunesAt)
      exact ⟨n, f, scope, d, from' h, e, within, is⟩
    case laid =>
      intro c x n f k unit h e holds lower
      obtain ⟨a, b, split⟩ := List.append_of_mem (List.mem_reverse.mpr (scenes h e))
      rw [← hT, split, List.append_assoc, List.append_assoc, List.cons_append]
      rw [← List.append_assoc]
      refine fireActions_base_laid unit at' e (by rw [scenesAt]; exact holds) fun j g i hj he => ?_
      rw [scenesAt]
      rcases List.mem_append.mp hj with hj | hj
      · have desc : ((groupOf 2 l).reverse).Pairwise fun x y => y.1 < x.1 := List.pairwise_reverse.mpr (groupOf_ascend asc)
        rw [split] at desc
        have below := (List.pairwise_cons.mp (List.pairwise_append.mp desc).2.1).1 (j, g) hj
        have here : (j, g) ∈ groupOf 2 l :=
          List.mem_reverse.mp (split ▸ List.mem_append_right _ (List.mem_cons_of_mem _ hj))
        exact lower j g i ((mem _ _).mpr (mem_groupOf.mp here).1) he below
      · exact absurd he ((fireGroup_three.mp (mem_groupOf.mp hj).2).2 i)
    case stays =>
      intro c unit none
      rw [← hT, ← chansAt]
      refine fireActions_base_stays unit at' fun n f k h e => ?_
      rw [scenesAt]
      exact none n f k (from' h) e

end Sys2Proof.Machine
end

section
/-! A minute boundary fires the matching entries, and what a bell entry does (R158 to R165). -/

namespace Sys2Proof.Machine

/-! ### R165's table -/

/-- An entry's creation with its notice (R165). -/
theorem fireCreation_table (n : Nat) (p : Perf) (s : State) :
    (12 ≤ s.perfs.length → fireCreation n p s = { s with line := s.line.latched .entry [.num n, .word "FULL"] }) ∧
    (s.perfs.length < 12 → ∃ u r, createPerf p s = (u, r) ∧
      (r = .admitted (nextId s) ∨ r = .waiting (nextId s) → fireCreation n p s =
        { u with line := u.line.latched .entry [.num n, .word "FIRED", .num (nextId s)] }) ∧
      (r = .yielded (nextId s) → fireCreation n p s =
        { u with line := u.line.latched .entry [.num n, .word "YIELDED"] }) ∧
      (r = .admitted (nextId s) ∨ r = .waiting (nextId s) ∨ r = .yielded (nextId s))) := by
  refine ⟨fun full => ?_, fun room => ?_⟩
  · rw [fireCreation, createPerf_full full]
    rfl
  · obtain ⟨admits, waits, yields⟩ := createPerf_room (p := p) room
    cases can : canAdmit s p with
    | true =>
      have made := admits can
      generalize admitPerf (createdRecord p s) (tableGrown p s) = u at *
      refine ⟨u, _, made, fun _ => ?_, nofun, .inl rfl⟩
      rw [fireCreation, made]
      rfl
    | false =>
      by_cases w : p.wait = 0
      · have made := yields can w
        refine ⟨_, _, made, fun h => ?_, fun _ => ?_, .inr (.inr rfl)⟩
        · rcases h with h | h <;> cases h
        · rw [fireCreation, made]
          rfl
      · have made := waits can (Nat.pos_of_ne_zero w)
        refine ⟨_, _, made, fun _ => ?_, nofun, .inr (.inl rfl)⟩
        rw [fireCreation, made]
        rfl

theorem tunesSilent_iff {s : State} {t : Nat} : tunesSilent s t = true ↔
    s.sched.panelSilence = true ∨ ∃ e, s.sched.tunesEnd = some e ∧ t < e := by
  rw [tunesSilent, Bool.or_eq_true, Option.any_eq_true]
  exact or_congr Iff.rfl ⟨fun ⟨e, is, lt⟩ => ⟨e, is, of_decide_eq_true lt⟩, fun ⟨e, is, lt⟩ => ⟨e, is, decide_eq_true lt⟩⟩

theorem all_false {α : Type} {p : α → Bool} {l : List α} : l.all p = false ↔ ∃ k ∈ l, p k = false := by
  rw [← Bool.not_eq_true, List.all_eq_true]
  constructor
  · intro h
    obtain ⟨k, no⟩ := not_forall.mp h
    obtain ⟨mem, no⟩ := Classical.not_imp.mp no
    exact ⟨k, mem, Bool.not_eq_true _ ▸ no⟩
  · rintro ⟨k, mem, no⟩ h
    rw [h k mem] at no
    cases no

/-! ### What a boundary evaluates -/

/-- The silences and scenes that fire rest on the schedule, the channels and the scenes alone. -/
theorem SilencesAndScenesFire.read {s s' t t' : State} {fires : Nat → EntryFields → Prop} {at' : Nat}
    (h : SilencesAndScenesFire s t fires at') (sched : s'.sched = s.sched) (chans : ∀ n, s'.chan n = s.chan n) (cfg : s'.cfg = s.cfg)
    (strike : t'.sched.strikeEnd = t.sched.strikeEnd) (tunes : t'.sched.tunesEnd = t.sched.tunesEnd)
    (lit : ∀ n, (t'.chan n).base = (t.chan n).base) : SilencesAndScenesFire s' t' fires at' := by
  have scene : ∀ k, s'.scene k = s.scene k := fun k => by rw [State.scene, cfg, State.scene]
  constructor
  case strike => rw [strike]; exact h.strike
  case tunes => rw [tunes]; exact h.tunes
  case strikeStays => rw [strike, sched]; exact h.strikeStays
  case tunesStays => rw [tunes, sched]; exact h.tunesStays
  case strikeFrom => rw [strike, sched]; exact h.strikeFrom
  case tunesFrom => rw [tunes, sched]; exact h.tunesFrom
  case laid =>
    intro c l n f k unit fire e holds lower
    rw [lit]
    refine h.laid c l n f k unit fire e (by rw [← scene]; exact holds) fun j g i hj he lt => ?_
    rw [← scene]
    exact lower j g i hj he lt
  case stays =>
    intro c unit none
    rw [lit, chans]
    exact h.stays c unit fun n f k fire e => by rw [← scene]; exact none n f k fire e

/-- The firing list of a minute (R160). -/
def minuteList (s : State) : List (Nat × EntryFields × Nat) :=
  ((activeEntries s).filter fun e =>
    (matchedMinutes e.2 s.cal.day).contains s.localMinute && stampBefore s e.1 s.localMinute).map
      fun e => (e.1, e.2, s.localMinute)

theorem evaluateMinute_eq (s : State) : evaluateMinute s = fireAll (1000000 * s.minuteStart) (minuteList s) s := rfl

theorem mem_minuteList {s : State} {n m : Nat} {f : EntryFields} :
    (n, f, m) ∈ minuteList s ↔ Fires s s.cal.day s.localMinute n f ∧ m = s.localMinute := by
  have one : (n, f) ∈ ((activeEntries s).filter fun e =>
      (matchedMinutes e.2 s.cal.day).contains s.localMinute && stampBefore s e.1 s.localMinute) ↔
      Fires s s.cal.day s.localMinute n f := by
    rw [List.mem_filter, mem_activeEntries, Bool.and_eq_true, List.contains_iff_mem, mem_matchedMinutes, stampBefore_iff]
    exact ⟨fun ⟨⟨unit, active⟩, fits, before⟩ => ⟨unit, active, fits, before⟩,
      fun ⟨unit, active, fits, before⟩ => ⟨⟨unit, active⟩, fits, before⟩⟩
  unfold minuteList
  rw [List.mem_map, ← one]
  constructor
  · rintro ⟨e, he, same⟩
    cases same
    exact ⟨he, rfl⟩
  · rintro ⟨he, rfl⟩
    exact ⟨_, he, rfl⟩

/-- What the evaluation of a minute does (R160). -/
theorem evaluateMinute_fires (s : State) : ListFired (1000000 * s.minuteStart) (minuteList s) s (evaluateMinute s)
    (Fires s s.cal.day s.localMinute) := by
  rw [evaluateMinute_eq]
  refine fireAll_fires ?_ (fun e he => ?_) fun n f => ?_
  · exact List.pairwise_map.mpr ((activeEntries_ascend s).filter _)
  · exact (mem_minuteList (n := e.1) (f := e.2.1) (m := e.2.2) |>.mp he).1.1
  · exact ⟨fun h => ⟨_, mem_minuteList.mpr ⟨h, rfl⟩⟩, fun ⟨_, h⟩ => (mem_minuteList.mp h).1⟩

/-- The stamps after the evaluation of a minute (R160). -/
theorem evaluateMinute_stamps (s : State) :
    (∀ n f, Fires s s.cal.day s.localMinute n f → (evaluateMinute s).stamp n = some s.localMinute) ∧
    (∀ n, unitOk 128 n = true → (∀ f, ¬Fires s s.cal.day s.localMinute n f) → (evaluateMinute s).stamp n = s.stamp n) := by
  have fired := evaluateMinute_fires s
  refine ⟨fun n f h => fired.stamped (n, f, s.localMinute) (mem_minuteList.mpr ⟨h, rfl⟩), fun n unit no => ?_⟩
  refine fired.others n unit fun e he same => ?_
  have fires := (mem_minuteList (n := e.1) (f := e.2.1) (m := e.2.2) |>.mp he).1
  rw [same] at fires
  exact no _ fires

/-- A minute boundary's firings, from the state `z` in which the sheets have rolled to `t` (R160 to R165). -/
theorem boundary_fires {s z t : State} (acts : schedActs z = true) (made : t = { schedBoundary z with line := (schedBoundary z).line.pumped })
    (kept : z = { s with tb := z.tb, ref := z.ref, cal := z.cal, clock := z.clock }) (whole : z.localSecs % 60 = 0) :
    let m := t.localMinute
    let fires := Fires s t.cal.day m
    let at' := 1000000 * t.tb.secs
    t.sched.lastEval = some m ∧ t.sched.panelSilence = s.sched.panelSilence ∧
    (∃ w v : State, BellEntriesFire w v fires at' ∧ w.sched = { t.sched with lastEval := s.sched.lastEval } ∧
      w = { s with
        tb := t.tb, ref := w.ref, cal := t.cal, clock := w.clock, sched := w.sched, lights := w.lights, line := w.line } ∧
      t = { v with sched := t.sched, line := v.line.pumped }) ∧
    (∀ n f, fires n f → t.stamp n = some m) ∧
    (∀ n, unitOk 128 n = true → (∀ f, ¬fires n f) → t.stamp n = s.stamp n) ∧
    SilencesAndScenesFire s t fires at' := by
  have bound : schedBoundary z = markEvaluated (evaluateMinute z) := if_pos acts
  have quiet := evaluateMinute_quiet z
  have fired := evaluateMinute_fires z
  obtain ⟨stamped, others⟩ := evaluateMinute_stamps z
  have start : z.minuteStart = z.tb.secs := by rw [State.minuteStart, whole, Nat.sub_zero]
  have schedZ : z.sched = s.sched := (congrArg State.sched kept :)
  have cfgZ : z.cfg = s.cfg := (congrArg State.cfg kept :)
  have lightsZ : z.lights = s.lights := (congrArg State.lights kept :)
  rw [start] at fired
  have firesIs : Fires z z.cal.day z.localMinute = Fires s z.cal.day z.localMinute := by
    unfold Fires State.entry State.stamp
    rw [schedZ, cfgZ]
  rw [firesIs] at fired stamped others
  rw [bound] at made
  generalize evaluateMinute z = v at *
  have minute : v.localMinute = z.localMinute := by
    rw [State.localMinute, State.localSecs, State.offset, quiet.tb, quiet.cfg]
    rfl
  have tb : t.tb = z.tb := (congrArg State.tb made :).trans quiet.tb
  have cal : t.cal = z.cal := (congrArg State.cal made :).trans quiet.cal
  have sched : t.sched = { v.sched with lastEval := some z.localMinute } := (congrArg State.sched made :).trans (by rw [← minute]; rfl)
  have here : t.localMinute = z.localMinute := by
    rw [State.localMinute, State.localSecs, State.offset, tb, (congrArg State.cfg made :)]
    exact congrArg (fun c : Settings => ((z.tb.secs + if z.tb.flag = true then c.summer.offset * 60 else 0) % spanSecs) / 60) quiet.cfg
  have stampIs : ∀ n, t.stamp n = v.stamp n := fun n => by rw [State.stamp, sched, State.stamp]
  dsimp only
  rw [here, cal, tb]
  refine ⟨by rw [sched], by rw [sched, ← schedZ]; exact fired.panel, ?_, fun n f h => (stampIs n).trans (stamped n f h),
    fun n unit no => (stampIs n).trans ((others n unit no).trans (by rw [State.stamp, schedZ, State.stamp])), ?_⟩
  · obtain ⟨w, bells, lit, same⟩ := fired.bells
    refine ⟨w, v, bells, ?_, ?_, ?_⟩
    · rw [same, sched, ← schedZ, ← fired.lastEval]
    · exact lit.kept.trans (congrArg (fun x : State => { x with sched := w.sched, lights := w.lights, line := w.line }) kept :) |>.trans
        (by rw [(congrArg State.ref lit.kept :), (congrArg State.clock lit.kept :)])
    · rw [made]
      rfl
  · refine fired.acts.read schedZ.symm (chan_of_lights lightsZ.symm) cfgZ.symm (by rw [sched]) (by rw [sched]) fun n => ?_
    rw [chan_of_lights (t := v) (congrArg State.lights made :)]

end Sys2Proof.Machine

open Sys2Proof Sys2Proof.Machine

/-- Settles O50. -/
theorem scheduleFiresAtABoundary : Obligations.ScheduleFiresAtABoundary := by
  refine ⟨fun s on range flag minute => ?_, fun at' n f s => ⟨fun slot scale scene action => ?_,
    fun b interval count i action => ?_, fun ds stagger duration action => ?_⟩⟩
  · obtain ⟨b, next, kept, secs, -, set, cal, localSecs⟩ := secondEnd_boundary on range flag minute
    have bound : announceBoundary b = schedBoundary (clockBoundary b) := rfl
    have quiet := schedBoundary_quiet (clockBoundary b)
    have cfgB : b.cfg = s.cfg := (congrArg State.cfg kept :)
    have keptZ : clockBoundary b = { s with
        tb := (clockBoundary b).tb, ref := (clockBoundary b).ref, cal := (clockBoundary b).cal
        clock := (clockBoundary b).clock } := (congrArg (fun x : State => { x with
          tb := (clockBoundary b).tb, ref := (clockBoundary b).ref, cal := (clockBoundary b).cal
          clock := (clockBoundary b).clock }) kept :)
    have modeZ : (clockBoundary b).line.mode = s.line.mode := (congrArg (fun x : State => x.line.mode) keptZ :)
    have setZ : (clockBoundary b).tb.set = s.tb.set := set
    have secsZ : (clockBoundary b).localSecs % 60 = 0 := (congrArg (· % 60) localSecs :).trans minute
    have tbT : (schedBoundary (clockBoundary b)).tb = b.tb := quiet.tb
    have cfgT : (schedBoundary (clockBoundary b)).cfg = s.cfg := quiet.cfg.trans cfgB
    refine ⟨_, next, cfgT, (congrArg Timebase.secs tbT).trans secs, ?_, fun idle => ?_, fun set' run => ?_⟩
    · refine quiet.cal.trans (cal.trans ?_)
      have day : State.localDay { announceBoundary b with line := (announceBoundary b).line.pumped } = b.localDay := by
        rw [State.localDay, State.localSecs, State.offset, bound, tbT, cfgT, ← cfgB]
        rfl
      rw [day, bound, tbT]
    · have still : schedBoundary (clockBoundary b) = clockBoundary b := by
        refine if_neg ?_
        rcases idle with unset | service
        · rw [schedActs_unset (setZ.trans unset)]
          exact Bool.false_ne_true
        · rw [schedActs_service (modeZ.trans service)]
          exact Bool.false_ne_true
      rw [bound, still]
      exact ⟨(congrArg State.sched kept :), (congrArg State.perfs kept :), (congrArg State.lights kept :)⟩
    · have acts : schedActs (clockBoundary b) = true := by
        rw [schedActs, setZ, modeZ, set', run]
        rfl
      exact boundary_fires acts rfl keptZ secsZ
  · have acts : fireAction at' s (n, f) = if tunesSilent s at' then entryNotice n [.word "SILENCED"] s
        else if (s.slot slot).state ≠ .closed then entryNotice n [.word "MISSING"] s
        else fireCreation n (tunePerf s slot scale 60 scene (.schedule n)) s := by rw [fireAction, action]
    refine ⟨fun silent => acts.trans (if_pos (tunesSilent_iff.mpr silent)), fun loud open' => ?_, fun loud closed => ?_⟩
    · exact acts.trans ((if_neg fun h => loud (tunesSilent_iff.mp h)).trans (if_pos open'))
    · have creates := acts.trans ((if_neg fun h => loud (tunesSilent_iff.mp h)).trans (if_neg (not_not_intro closed)))
      rw [creates]
      exact fireCreation_table _ _ _
  · have acts : fireAction at' s (n, f) = if tunesSilent s at' then entryNotice n [.word "SILENCED"] s
        else fireCreation n (tollPerf s b interval count i 0 none (.schedule n)) s := by rw [fireAction, action]
    refine ⟨fun silent => acts.trans (if_pos (tunesSilent_iff.mpr silent)), fun loud => ?_⟩
    have creates := acts.trans (if_neg fun h => loud (tunesSilent_iff.mp h))
    rw [creates]
    exact fireCreation_table _ _ _
  · have acts : fireAction at' s (n, f) = if !ds.all (driveUsable s) then entryNotice n [.word "INVALID"] s
        else if !ds.all (fun d => (s.drive d).state = .down) then entryNotice n [.word "ACTIVE"] s
        else fireCreation n (swingPerf s ds stagger duration 0 (.schedule n)) s := by rw [fireAction, action]
    have usable : (∀ k ∈ ds, driveUsable s k = true) → ¬(!ds.all (driveUsable s)) = true := fun h => by
      rw [List.all_eq_true.mpr h]
      decide
    refine ⟨fun bad => acts.trans (if_pos (by rw [all_false.mpr bad]; rfl)), fun good up => ?_, fun good down => ?_⟩
    · refine acts.trans ((if_neg (usable good)).trans (if_pos ?_))
      obtain ⟨k, mem, no⟩ := up
      rw [all_false.mpr ⟨k, mem, decide_eq_false no⟩]
      rfl
    · have still : ¬(!ds.all fun d => decide ((s.drive d).state = .down)) = true := by
        rw [List.all_eq_true.mpr fun k mem => decide_eq_true (down k mem)]
        decide
      have creates := acts.trans ((if_neg (usable good)).trans (if_neg still))
      rw [creates]
      exact fireCreation_table _ _ _

end

section
/-! The catch-up: silences that are still open, stamps and the base layer (R168). -/

namespace Sys2Proof.Machine

/-! ### Step 1: silences -/

/-- From `s` to `t` silences have opened: each end stands or has moved later (R162). -/
structure Silenced (s t : State) : Prop where
  kept : t = { s with sched := { s.sched with strikeEnd := t.sched.strikeEnd, tunesEnd := t.sched.tunesEnd } }
  stays : ∀ strike e, silenceEnd strike s = some e → ∃ x, silenceEnd strike t = some x ∧ e ≤ x

theorem Silenced.rfl {s : State} : Silenced s s := ⟨Eq.refl _, fun _ e h => ⟨e, h, Nat.le_refl _⟩⟩

theorem Silenced.trans {s t u : State} (h : Silenced s t) (k : Silenced t u) : Silenced s u := by
  refine ⟨k.kept.trans (congrArg (fun x : State => { x with sched := { x.sched with
    strikeEnd := u.sched.strikeEnd, tunesEnd := u.sched.tunesEnd } }) h.kept :), fun strike e he => ?_⟩
  obtain ⟨x, hx, le⟩ := h.stays strike e he
  obtain ⟨y, hy, le'⟩ := k.stays strike x hx
  exact ⟨y, hy, Nat.le_trans le le'⟩

theorem Silenced.fold {α : Type} {f : State → α → State} (h : ∀ s a, Silenced s (f s a)) (l : List α) (s : State) :
    Silenced s (l.foldl f s) := by
  induction l generalizing s with
  | nil => exact .rfl
  | cons a l ih => exact (h s a).trans (ih _)

theorem openSilence_silenced (scope : SilenceScope) (t : Nat) (s : State) : Silenced s (openSilence scope t s) := by
  refine ⟨Eq.refl _, fun strike e he => ?_⟩
  obtain ⟨raised, stands⟩ := openSilence_end (strike := strike) (scope := scope) t s
  by_cases h : InScope strike scope
  · rw [raised h]
    exact (laterEnd_spec _ t).2.1 e he
  · exact ⟨e, (stands h).trans he, Nat.le_refl _⟩

/-- The end of a silence of `d` minutes that began at a local date-minute (R168). -/
def windowEnd (r : SummerRule) (m d : Nat) : Nat := 1000000 * (passedInstant r (m * 60) + d * 60)

/-- One window of a SILENCE entry: opened where it is still open (R168). -/
def catchWindow (r : SummerRule) (scope : SilenceScope) (d : Nat) (t : State) (m : Nat) : State :=
  if t.stdUs < windowEnd r m d then openSilence scope (windowEnd r m d) t else t

theorem catchWindow_silenced (r : SummerRule) (scope : SilenceScope) (d : Nat) (t : State) (m : Nat) :
    Silenced t (catchWindow r scope d t m) := by
  unfold catchWindow
  split
  · exact openSilence_silenced _ _ _
  · exact .rfl

theorem catchSilence_eq {e : Nat × EntryFields} {scope : SilenceScope} {d : Nat} (h : e.2.action = .silence scope d)
    (days : List DayValues) (s : State) : catchSilence days s e =
      ((days.flatMap (matchedMinutes e.2)).filter (· ≤ s.localMinute)).foldl (catchWindow s.cfg.summer scope d) s := by
  rw [catchSilence, h]
  rfl

theorem catchSilence_silenced (days : List DayValues) (s : State) (e : Nat × EntryFields) :
    Silenced s (catchSilence days s e) := by
  cases h : e.2.action with
  | silence scope d =>
    rw [catchSilence_eq h]
    exact .fold (catchWindow_silenced _ _ _) _ _
  | scene _ | play _ _ _ | toll _ _ _ _ | ring _ _ _ =>
    rw [catchSilence, h]
    exact .rfl

/-- A window of a SILENCE entry of the list that is still open gives its end (R168). -/
theorem catchSilences_open {days : List DayValues} {es : List (Nat × EntryFields)} {s : State} {n m d : Nat} {f : EntryFields}
    {scope : SilenceScope} {strike : Bool} (mem : (n, f) ∈ es) (action : f.action = .silence scope d)
    (fits : m ∈ days.flatMap (matchedMinutes f)) (passed : m ≤ s.localMinute) (still : s.stdUs < windowEnd s.cfg.summer m d)
    (within : InScope strike scope) :
    ∃ x, silenceEnd strike (es.foldl (catchSilence days) s) = some x ∧ windowEnd s.cfg.summer m d ≤ x := by
  obtain ⟨a, b, rfl⟩ := List.append_of_mem mem
  rw [List.foldl_append, List.foldl_cons]
  have before := Silenced.fold (catchSilence_silenced days) a s
  generalize a.foldl (catchSilence days) s = u at *
  have tb : u.tb = s.tb := (congrArg State.tb before.kept :)
  have cfg : u.cfg = s.cfg := (congrArg State.cfg before.kept :)
  have minute : u.localMinute = s.localMinute := by rw [before.kept]; rfl
  obtain ⟨x, is, le⟩ : ∃ x, silenceEnd strike (catchSilence days u (n, f)) = some x ∧ windowEnd s.cfg.summer m d ≤ x := by
    rw [catchSilence_eq action, cfg]
    obtain ⟨l, r, split⟩ := List.append_of_mem (List.mem_filter (p := fun k => decide (k ≤ u.localMinute)).mpr ⟨fits, decide_eq_true (minute ▸ passed)⟩)
    rw [split, List.foldl_append, List.foldl_cons]
    have opened := Silenced.fold (catchWindow_silenced s.cfg.summer scope d) l u
    generalize l.foldl (catchWindow s.cfg.summer scope d) u = v at *
    have std : v.stdUs = s.stdUs := by rw [State.stdUs, (congrArg State.tb opened.kept :), tb, State.stdUs]
    have opens : catchWindow s.cfg.summer scope d v m = openSilence scope (windowEnd s.cfg.summer m d) v :=
      if_pos (std.symm ▸ still)
    rw [opens]
    obtain ⟨y, hy, le⟩ := (laterEnd_spec (silenceEnd strike v) (windowEnd s.cfg.summer m d)).1
    obtain ⟨z, hz, le'⟩ := (Silenced.fold (catchWindow_silenced s.cfg.summer scope d) r _).stays strike y
      (((openSilence_end _ v).1 within).trans hy)
    exact ⟨z, hz, Nat.le_trans le le'⟩
  obtain ⟨y, hy, le'⟩ := (Silenced.fold (catchSilence_silenced days) b _).stays strike x is
  exact ⟨y, hy, Nat.le_trans le le'⟩

/-! ### The passed date-minutes -/

theorem minuteFits_day {f : EntryFields} {d : DayValues} {k : Nat} (ok : entryTimeOk f.time = true) (h : MinuteFits f d k) :
    k < 1440 := by
  unfold MinuteFits at h
  cases e : f.time with
  | fixed hour m =>
    rw [e] at ok h
    obtain ⟨hours, minutes⟩ := Bool.and_eq_true_iff.mp ok
    have minutes := of_decide_eq_true minutes
    cases hour with
    | some hour =>
      have range : 0 ≤ hour ∧ hour ≤ 23 := by simpa [optIn] using hours
      dsimp only at h
      omega
    | none =>
      obtain ⟨j, lt, rfl⟩ := h
      omega
  | sunrise o =>
    rw [e] at h
    dsimp only at h
    omega
  | sunset o early =>
    rw [e] at h
    dsimp only at h
    omega

theorem entryMinutes_ascend (f : EntryFields) (d : DayValues) : (entryMinutes f d).Pairwise (· ≤ ·) := by
  unfold entryMinutes
  split
  · exact List.pairwise_singleton _ _
  · exact List.pairwise_map.mpr (List.pairwise_lt_range.imp fun h => Nat.add_le_add_right (Nat.mul_le_mul_right _ (Nat.le_of_lt h)) _)
  · exact List.pairwise_singleton _ _
  · exact List.pairwise_singleton _ _

theorem matchedMinutes_ascend (f : EntryFields) (d : DayValues) : (matchedMinutes f d).Pairwise (· ≤ ·) := by
  unfold matchedMinutes
  split
  · exact List.pairwise_map.mpr ((entryMinutes_ascend f d).imp fun h => Nat.add_le_add_left h _)
  · exact List.Pairwise.nil

theorem mem_catchDays {s : State} {d : DayValues} : d ∈ catchDays s ↔
    d = s.cal.day ∨ (s.localDay ≠ 0 ∧ d = dayValuesOf s.cfg.summer s.cfg.sun (s.localDay - 1)) := by
  unfold catchDays
  rw [List.mem_append, List.mem_singleton]
  split
  next h => exact ⟨fun k => .inl (k.resolve_left List.not_mem_nil), fun k => .inr (k.resolve_right fun j => j.1 h)⟩
  next h => exact ⟨fun k => k.symm.imp id fun j => ⟨h, List.mem_singleton.mp j⟩,
      fun k => k.symm.imp (fun j => List.mem_singleton.mpr j.2) id⟩

/-- The date-minutes that a catch-up looks at come in ascending order (R168). -/
theorem catchMinutes_ascend {s : State} {f : EntryFields} (ok : entryTimeOk f.time = true) (today : s.cal.day.dayNo = s.localDay) :
    ((catchDays s).flatMap (matchedMinutes f)).Pairwise (· ≤ ·) := by
  refine List.pairwise_flatMap.mpr ⟨fun d _ => matchedMinutes_ascend f d, ?_⟩
  unfold catchDays
  split
  · exact List.pairwise_singleton _ _
  · refine List.pairwise_pair.mpr fun x hx y hy => ?_
    obtain ⟨-, k, fits, rfl⟩ := mem_matchedMinutes.mp hx
    obtain ⟨-, j, -, rfl⟩ := mem_matchedMinutes.mp hy
    have lt := minuteFits_day ok fits
    have yesterday : (dayValuesOf s.cfg.summer s.cfg.sun (s.localDay - 1)).dayNo = s.localDay - 1 := rfl
    omega

/-- A date-minute of the passed range that an entry matches (R168). -/
def Passed (s : State) (f : EntryFields) (m : Nat) : Prop :=
  ∃ l, s.sched.lastEval = some l ∧ l < m ∧ m < s.localMinute ∧ (EntryMatches f s.cal.day m ∨
    (s.localDay ≠ 0 ∧ EntryMatches f (dayValuesOf s.cfg.summer s.cfg.sun (s.localDay - 1)) m))

theorem mem_catchMinutes {s : State} {f : EntryFields} {m : Nat} : m ∈ (catchDays s).flatMap (matchedMinutes f) ↔
    (EntryMatches f s.cal.day m ∨
      (s.localDay ≠ 0 ∧ EntryMatches f (dayValuesOf s.cfg.summer s.cfg.sun (s.localDay - 1)) m)) := by
  rw [List.mem_flatMap]
  constructor
  · rintro ⟨d, hd, hm⟩
    rcases mem_catchDays.mp hd with rfl | ⟨ne, rfl⟩
    · exact .inl (mem_matchedMinutes.mp hm)
    · exact .inr ⟨ne, mem_matchedMinutes.mp hm⟩
  · rintro (h | ⟨ne, h⟩)
    · exact ⟨_, mem_catchDays.mpr (.inl rfl), mem_matchedMinutes.mpr h⟩
    · exact ⟨_, mem_catchDays.mpr (.inr ⟨ne, rfl⟩), mem_matchedMinutes.mpr h⟩

/-- The latest passed date-minute is one of them, and none is later (R168). -/
theorem latestPassed_spec {s : State} {f : EntryFields} (ok : entryTimeOk f.time = true) (today : s.cal.day.dayNo = s.localDay) :
    (∀ m, latestPassed (catchDays s) s f = some m → Passed s f m) ∧
    (∀ m, Passed s f m → ∃ x, latestPassed (catchDays s) s f = some x ∧ m ≤ x) := by
  unfold latestPassed
  cases last : s.sched.lastEval with
  | none =>
    refine ⟨fun m h => (by cases h), fun m ⟨l, is, _⟩ => ?_⟩
    rw [last] at is
    cases is
  | some l =>
    dsimp only
    have ascend := (catchMinutes_ascend ok today).filter fun m => decide (l < m) && decide (m < s.localMinute)
    have mem : ∀ m, m ∈ ((catchDays s).flatMap (matchedMinutes f)).filter (fun m => decide (l < m) && decide (m < s.localMinute)) ↔
        Passed s f m := by
      intro m
      rw [List.mem_filter, mem_catchMinutes, Bool.and_eq_true, decide_eq_true_iff, decide_eq_true_iff]
      constructor
      · rintro ⟨fits, after, before⟩
        exact ⟨l, last, after, before, fits⟩
      · rintro ⟨j, is, after, before, fits⟩
        cases last.symm.trans is
        exact ⟨fits, after, before⟩
    refine ⟨fun m h => (mem m).mp (List.mem_of_getLast? h), fun m h => ?_⟩
    have here := (mem m).mpr h
    exact ⟨_, List.getLast?_eq_some_getLast (List.ne_nil_of_mem here), ascend.rel_getLast here⟩

/-! ### Step 4: stamps -/

/-- From `s` to `t` an entry's stamp has risen to a date-minute, where one is given and the stamp was earlier (R168). -/
structure StampRaised (n : Nat) (late : Option Nat) (s t : State) : Prop where
  reaches : ∀ m, late = some m → ∃ x, t.stamp n = some x ∧ m ≤ x
  stays : ∀ y, s.stamp n = some y → ∃ x, t.stamp n = some x ∧ y ≤ x
  origin : t.stamp n ≠ s.stamp n → ∃ m, late = some m ∧ t.stamp n = some m

theorem catchStamp_kept (days : List DayValues) (s : State) (e : Nat × EntryFields) :
    catchStamp days s e = { s with sched := { s.sched with stamps := (catchStamp days s e).sched.stamps } } := by
  unfold catchStamp
  repeat' split
  all_goals rfl

theorem catchStamp_others {days : List DayValues} {s : State} {e : Nat × EntryFields} {n : Nat} (unit : unitOk 128 n = true)
    (ne : e.1 ≠ n) : (catchStamp days s e).stamp n = s.stamp n := by
  unfold catchStamp
  repeat' split
  · exact rd_wr_ne (unitOk_iff.mp unit).1 (Ne.symm ne)
  · rfl
  · rfl

theorem catchStamp_raised (days : List DayValues) (s : State) {n : Nat} (f : EntryFields) (unit : unitOk 128 n = true) :
    StampRaised n (latestPassed days s f) s (catchStamp days s (n, f)) := by
  cases late : latestPassed days s f with
  | none =>
    have stands : catchStamp days s (n, f) = s := by rw [catchStamp, late]
    rw [stands]
    exact ⟨nofun, fun y h => ⟨y, h, Nat.le_refl _⟩, fun h => absurd rfl h⟩
  | some m =>
    have meets : catchStamp days s (n, f) = if stampBefore s n m then setStamp n m s else s := by rw [catchStamp, late]
    rw [meets]
    cases before : stampBefore s n m with
    | true =>
      rw [if_pos rfl]
      have set : (setStamp n m s).stamp n = some m := rd_wr_same unit
      refine ⟨fun k h => ⟨m, set, ?_⟩, fun y h => ⟨m, set, ?_⟩, fun _ => ⟨m, rfl, set⟩⟩
      · cases h
        exact Nat.le_refl _
      · exact Nat.le_of_lt (stampBefore_iff.mp before y h)
    | false =>
      rw [if_neg nofun]
      refine ⟨fun k h => ?_, fun y h => ⟨y, h, Nat.le_refl _⟩, fun h => absurd rfl h⟩
      cases h
      have no : ¬∀ x, s.stamp n = some x → x < m := fun h => absurd (before.symm.trans (stampBefore_iff.mpr h)) nofun
      obtain ⟨x, h⟩ := not_forall.mp no
      obtain ⟨is, le⟩ := Classical.not_imp.mp h
      exact ⟨x, is, Nat.le_of_not_lt le⟩

theorem latestPassed_congr {days : List DayValues} {s t : State} (last : t.sched.lastEval = s.sched.lastEval)
    (minute : t.localMinute = s.localMinute) (f : EntryFields) : latestPassed days t f = latestPassed days s f := by
  unfold latestPassed
  rw [last, minute]

theorem StampRaised.congr {n : Nat} {late : Option Nat} {s s' t t' : State} (h : StampRaised n late s t)
    (before : s'.stamp n = s.stamp n) (after : t'.stamp n = t.stamp n) : StampRaised n late s' t' := by
  obtain ⟨reaches, stays, origin⟩ := h
  constructor
  · rw [after]; exact reaches
  · rw [before, after]; exact stays
  · rw [before, after]; exact origin

/-- The stamps after step 4 over a list of entries in ascending order (R168). -/
theorem catchStamps_raised {days : List DayValues} {es : List (Nat × EntryFields)} {s : State}
    (asc : es.Pairwise fun x y => x.1 < y.1) (units : ∀ e ∈ es, unitOk 128 e.1 = true) :
    (∀ n f, (n, f) ∈ es → StampRaised n (latestPassed days s f) s (es.foldl (catchStamp days) s)) ∧
    (∀ n, unitOk 128 n = true → (∀ e ∈ es, e.1 ≠ n) → (es.foldl (catchStamp days) s).stamp n = s.stamp n) ∧
    es.foldl (catchStamp days) s =
      { s with sched := { s.sched with stamps := (es.foldl (catchStamp days) s).sched.stamps } } := by
  induction es generalizing s with
  | nil => exact ⟨fun _ _ h => absurd h List.not_mem_nil, fun _ _ _ => rfl, rfl⟩
  | cons a es ih =>
    rw [List.pairwise_cons] at asc
    have kept := catchStamp_kept days s a
    obtain ⟨raised, others, frame⟩ := ih (s := catchStamp days s a) asc.2 fun e he => units e (List.mem_cons_of_mem _ he)
    have unit := units a List.mem_cons_self
    rw [List.foldl_cons]
    refine ⟨fun n f mem => ?_, fun n ok no => ?_, frame.trans (congrArg (fun x : State => { x with sched := { x.sched with
      stamps := (es.foldl (catchStamp days) (catchStamp days s a)).sched.stamps } }) kept :)⟩
    · rcases List.mem_cons.mp mem with rfl | mem
      · exact (catchStamp_raised days s f unit).congr rfl (others n unit fun x hx => Nat.ne_of_gt (asc.1 x hx))
      · have first := catchStamp_others (days := days) (s := s) (units _ (List.mem_cons_of_mem _ mem)) (Nat.ne_of_lt (asc.1 _ mem))
        have late := latestPassed_congr (days := days) (s := s) (t := catchStamp days s a) (congrArg (·.sched.lastEval) kept :)
          (congrArg State.localMinute kept :) f
        rw [← late]
        exact (raised n f mem).congr first.symm rfl
    · exact (others n ok fun x hx => no x (List.mem_cons_of_mem _ hx)).trans (catchStamp_others ok (no a List.mem_cons_self))

/-! ### Steps 2 and 3 -/

theorem replayBase_lights (s : State) : replayBase s = { s with lights := (replayBase s).lights } := by
  rw [replayBase, wholeBase_lights]

theorem catchSkips_line (days : List DayValues) (es : List (Nat × EntryFields)) (s : State) :
    es.foldl (catchSkip days) s = { s with line := (es.foldl (catchSkip days) s).line } := by
  induction es generalizing s with
  | nil => rfl
  | cons e es ih =>
    have first : catchSkip days s e = { s with line := (catchSkip days s e).line } := by
      unfold catchSkip
      repeat' split
      all_goals rfl
    exact (ih _).trans (congrArg (fun x : State => { x with line := ((e :: es).foldl (catchSkip days) s).line }) first :)

/-- Where no SCENE entry is ACTIVE, no base value is left (R168, R176). -/
theorem replayBase_none {s : State} (h : ∀ e ∈ activeEntries s, ∀ k, e.2.action ≠ .scene k) {c : Nat} (unit : unitOk 16 c = true) :
    ((replayBase s).chan c).base = none := by
  have scenes : replayScenes s = [] := by
    unfold replayScenes
    dsimp only
    generalize acts : (activeEntries s).filterMap _ = l
    have nil : l = [] := by
      rw [← acts, List.filterMap_eq_nil_iff]
      intro e he
      split
      next k a => exact absurd a (h e he k)
      next => rfl
    rw [nil]
    rfl
  rw [replayBase, scenes, List.foldl_nil, wholeBase, chan_onChans allChans_nodup unit, if_pos (mem_allChans unit),
    rd_replicate unit]
  exact baseChange_base _ _ _ _

/-! ### The catch-up -/

theorem activeEntries_congr {s t : State} (h : t.cfg = s.cfg) : activeEntries t = activeEntries s := by
  unfold activeEntries State.entry
  rw [h]

/-- The state of a catch-up in which the evaluation of the present minute begins (R168). -/
def caughtUp (s : State) : State :=
  (activeEntries s).foldl (catchStamp (catchDays s)) ((activeEntries s).foldl (catchSkip (catchDays s))
    (replayBase ((activeEntries s).foldl (catchSilence (catchDays s)) s)))

theorem catchUp_eq (s : State) : catchUp s = markEvaluated (evaluateMinute (caughtUp s)) := rfl

/-- What steps 1 to 4 of a catch-up leave (R168). -/
theorem caughtUp_spec (s : State) :
    SchedLit s (caughtUp s) ∧ (caughtUp s).sched = { s.sched with
      stamps := (caughtUp s).sched.stamps
      strikeEnd := (caughtUp s).sched.strikeEnd, tunesEnd := (caughtUp s).sched.tunesEnd } ∧
    (∀ strike, silenceEnd strike (caughtUp s) = silenceEnd strike ((activeEntries s).foldl (catchSilence (catchDays s)) s)) ∧
    (∀ n f, unitOk 128 n = true → s.entry n = .active f →
      StampRaised n (latestPassed (catchDays s) s f) s (caughtUp s)) ∧
    (∀ n, unitOk 128 n = true → (∀ f, s.entry n ≠ .active f) → (caughtUp s).stamp n = s.stamp n) ∧
    ((∀ n f k, unitOk 128 n = true → s.entry n = .active f → f.action ≠ .scene k) →
      ∀ c, unitOk 16 c = true → ((caughtUp s).chan c).base = none) := by
  have units : ∀ e ∈ activeEntries s, unitOk 128 e.1 = true := fun e he => (mem_activeEntries (n := e.1) (f := e.2) |>.mp he).1
  have silenced := Silenced.fold (catchSilence_silenced (catchDays s)) (activeEntries s) s
  unfold caughtUp
  generalize (activeEntries s).foldl (catchSilence (catchDays s)) s = a at *
  have lit := replayBase_lights a
  have entries : activeEntries a = activeEntries s := activeEntries_congr (congrArg State.cfg silenced.kept :)
  have bases : (∀ n f k, unitOk 128 n = true → s.entry n = .active f → f.action ≠ .scene k) →
      ∀ c, unitOk 16 c = true → ((replayBase a).chan c).base = none := fun h c unit =>
    replayBase_none (s := a) (fun e he k => by
      rw [entries] at he
      have active := mem_activeEntries (n := e.1) (f := e.2) |>.mp he
      exact h _ _ k active.1 active.2) unit
  generalize replayBase a = b at *
  have skips := catchSkips_line (catchDays s) (activeEntries s) b
  generalize (activeEntries s).foldl (catchSkip (catchDays s)) b = d at *
  obtain ⟨raised, others, kept⟩ := catchStamps_raised (days := catchDays s) (s := d) (activeEntries_ascend s) units
  generalize (activeEntries s).foldl (catchStamp (catchDays s)) d = t at *
  have fromA : d = { a with lights := b.lights, line := d.line } :=
    skips.trans (congrArg (fun x : State => { x with line := d.line }) lit :)
  have fromS : d = { s with
      sched := { s.sched with strikeEnd := a.sched.strikeEnd, tunesEnd := a.sched.tunesEnd }, lights := b.lights, line := d.line } :=
    fromA.trans (congrArg (fun x : State => { x with lights := b.lights, line := d.line }) silenced.kept :)
  have stampD : ∀ n, d.stamp n = s.stamp n := fun n => by rw [fromS]; rfl
  have lastD : d.sched.lastEval = s.sched.lastEval := (congrArg (·.sched.lastEval) fromS :)
  refine ⟨⟨kept.trans (congrArg (fun x : State => { x with sched := { x.sched with stamps := t.sched.stamps } }) fromS :) |>.trans
      ?_⟩, (congrArg State.sched kept :).trans ?_, fun strike => ?_, fun n f unit active => ?_, fun n unit no => ?_,
    fun h c unit => ?_⟩
  · rw [(congrArg State.sched kept :), (congrArg State.sched fromS :), (congrArg State.lights kept :), (congrArg State.line kept :),
      (congrArg State.lights fromS :)]
  · have ends : t.sched.strikeEnd = d.sched.strikeEnd ∧ t.sched.tunesEnd = d.sched.tunesEnd :=
      ⟨(congrArg (·.sched.strikeEnd) kept :), (congrArg (·.sched.tunesEnd) kept :)⟩
    rw [ends.1, ends.2, (congrArg State.sched fromS :)]
  · rw [kept, silenceEnd, fromA, silenceEnd]
  · have late := latestPassed_congr (days := catchDays s) (s := s) (t := d) lastD (congrArg State.localMinute fromS :) f
    rw [← late]
    exact (raised n f (mem_activeEntries.mpr ⟨unit, active⟩)).congr (stampD n).symm rfl
  · refine (others n unit fun e he same => ?_).trans (stampD n)
    have active := (mem_activeEntries (n := e.1) (f := e.2) |>.mp he).2
    rw [same] at active
    exact no _ active
  · rw [chan_of_lights (t := b) ((congrArg State.lights kept :).trans (congrArg State.lights fromS :))]
    exact bases h c unit

end Sys2Proof.Machine
end

section
/-! Dusk-early firing, and the entry to RUN with the time SET (R166, R168). -/

namespace Sys2Proof.Machine

/-! ### Dusk-early firing -/

theorem localSecs_lt (s : State) : s.localSecs < spanSecs := Nat.mod_lt _ (by decide)

/-- Below a second's end the minute in which local time stands is the one in force (R166, log 9). -/
theorem minuteNow_eq {s : State} (sub : s.tb.sub < 1000000) : s.minuteNow = s.localMinute := by
  have lt := localSecs_lt s
  have span : spanSecs = 60 * (spanSecs / 60) := by decide
  unfold State.minuteNow State.localUs State.localMinute
  have whole : (1000000 * s.localSecs + s.tb.sub) / 60000000 = s.localSecs / 60 := by omega
  rw [whole]
  exact Nat.mod_eq_of_lt (by omega)

theorem localDay_eq (s : State) : s.localMinute / 1440 = s.localDay := by
  unfold State.localMinute State.localDay
  omega

/-- The date-minute of an entry that may fire early (R166). -/
theorem duskMinute_iff {s : State} {f : EntryFields} {x : Nat} (sub : s.tb.sub < 1000000) : duskMinute s f = some x ↔
    ∃ o c, f.time = .sunset o true ∧ DateFits f s.cal.day ∧ MinuteFits f s.cal.day c ∧ c ≤ s.localMinute % 1440 + 60 ∧
      s.localMinute % 1440 < c ∧ x = s.localMinute / 1440 * 1440 + c := by
  have fits : ∀ {o c}, f.time = .sunset o true → (MinuteFits f s.cal.day c ↔ c = sunMinute s.cal.day.setLocal o) := fun e => by
    rw [MinuteFits, e]
    exact sunMinute_iff.symm
  unfold duskMinute
  rw [minuteNow_eq sub]
  split
  next o e =>
    dsimp only
    rw [if_pos (localDay_eq s)]
    split
    next h =>
      rw [Bool.and_eq_true, Bool.and_eq_true, dateMatches_iff, decide_eq_true_iff, decide_eq_true_iff] at h
      obtain ⟨⟨date, near⟩, ahead⟩ := h
      constructor
      · intro h
        cases h
        exact ⟨o, _, e, date, (fits e).mpr rfl, by omega, ahead, by omega⟩
      · rintro ⟨o', c, e', -, minute, -, -, rfl⟩
        cases e.symm.trans e'
        rw [(fits e).mp minute, Nat.mul_comm]
    next h =>
      refine ⟨nofun, ?_⟩
      rintro ⟨o', c, e', date, minute, near, ahead, rfl⟩
      cases e.symm.trans e'
      rw [(fits e).mp minute] at near ahead
      refine absurd ?_ h
      rw [Bool.and_eq_true, Bool.and_eq_true, dateMatches_iff, decide_eq_true_iff, decide_eq_true_iff]
      exact ⟨⟨date, by omega⟩, ahead⟩
  next no => exact ⟨nofun, fun ⟨o, _, e, _⟩ => absurd e (no o)⟩

/-- The firing list of a change into DARK (R166). -/
def duskList (s : State) : List (Nat × EntryFields × Nat) :=
  (activeEntries s).filterMap fun e =>
    match duskMinute s e.2 with
    | some c => if stampBefore s e.1 c then some (e.1, e.2, c) else none
    | none => none

theorem duskFiring_acts {s : State} (h : schedActs s = true) : duskFiring s = fireAll s.stdUs (duskList s) s := if_pos h

theorem duskChoice_iff {s : State} {e a : Nat × EntryFields × Nat} {g : Nat × EntryFields} (h : e = a) :
    (match duskMinute s g.2 with
      | some c => if stampBefore s g.1 c then some (g.1, g.2, c) else none
      | none => none) = some a ↔ g = (e.1, e.2.1) ∧ duskMinute s e.2.1 = some e.2.2 ∧ stampBefore s e.1 e.2.2 = true := by
  subst h
  obtain ⟨n, f, m⟩ := e
  obtain ⟨k, g⟩ := g
  dsimp only
  constructor
  · intro h
    split at h
    next c minute =>
      split at h
      next before =>
        cases h
        exact ⟨rfl, minute, before⟩
      next => cases h
    next => cases h
  · rintro ⟨same, minute, before⟩
    cases same
    rw [minute]
    exact if_pos before

theorem mem_duskList {s : State} {n m : Nat} {f : EntryFields} : (n, f, m) ∈ duskList s ↔
    unitOk 128 n = true ∧ s.entry n = .active f ∧ duskMinute s f = some m ∧ ∀ x, s.stamp n = some x → x < m := by
  unfold duskList
  rw [List.mem_filterMap]
  constructor
  · rintro ⟨e, he, chosen⟩
    obtain ⟨rfl, minute, before⟩ := (duskChoice_iff rfl).mp chosen
    obtain ⟨unit, active⟩ := mem_activeEntries.mp he
    exact ⟨unit, active, minute, stampBefore_iff.mp before⟩
  · rintro ⟨unit, active, minute, before⟩
    exact ⟨(n, f), mem_activeEntries.mpr ⟨unit, active⟩, (duskChoice_iff rfl).mpr ⟨rfl, minute, stampBefore_iff.mpr before⟩⟩

theorem duskList_ascend (s : State) : (duskList s).Pairwise fun x y => x.1 < y.1 := by
  unfold duskList
  refine List.pairwise_filterMap.mpr ((activeEntries_ascend s).imp fun {a b} lt x hx y hy => ?_)
  rw [← congrArg Prod.fst ((duskChoice_iff rfl).mp hx).1, ← congrArg Prod.fst ((duskChoice_iff rfl).mp hy).1]
  exact lt

/-- The entries that fire at a change into DARK (R166). -/
def DuskFires (s : State) (n : Nat) (f : EntryFields) : Prop :=
  s.entry n = .active f ∧ ∃ c, FiresEarly s s.localMinute n c

theorem firesEarly_iff {s : State} {n c : Nat} (sub : s.tb.sub < 1000000) : FiresEarly s s.localMinute n c ↔
    ∃ f, (n, f, s.localMinute / 1440 * 1440 + c) ∈ duskList s := by
  constructor
  · rintro ⟨f, o, unit, active, time, date, minute, near, ahead, before⟩
    exact ⟨f, mem_duskList.mpr ⟨unit, active, (duskMinute_iff sub).mpr ⟨o, c, time, date, minute, near, ahead, rfl⟩, before⟩⟩
  · rintro ⟨f, mem⟩
    obtain ⟨unit, active, minute, before⟩ := mem_duskList.mp mem
    obtain ⟨o, k, time, date, fits, near, ahead, same⟩ := (duskMinute_iff sub).mp minute
    cases Nat.add_left_cancel same
    exact ⟨f, o, unit, active, time, date, fits, near, ahead, before⟩

/-- What a change into DARK fires (R166). -/
theorem duskFiring_fires {s : State} (acts : schedActs s = true) (sub : s.tb.sub < 1000000) :
    ListFired s.stdUs (duskList s) s (duskFiring s) (DuskFires s) := by
  rw [duskFiring_acts acts]
  refine fireAll_fires (duskList_ascend s) (fun e he => ?_) fun n f => ⟨?_, ?_⟩
  · exact (mem_duskList (n := e.1) (f := e.2.1) (m := e.2.2) |>.mp he).1
  · rintro ⟨active, c, early⟩
    obtain ⟨g, mem⟩ := (firesEarly_iff sub).mp early
    cases active.symm.trans (mem_duskList.mp mem).2.1
    exact ⟨_, mem⟩
  · rintro ⟨m, mem⟩
    obtain ⟨unit, active, minute, before⟩ := mem_duskList.mp mem
    obtain ⟨o, k, -, -, -, -, -, rfl⟩ := (duskMinute_iff sub).mp minute
    exact ⟨active, k, (firesEarly_iff sub).mpr ⟨f, mem⟩⟩

/-- The stamps after a change into DARK (R166). -/
theorem duskFiring_stamps {s : State} (acts : schedActs s = true) (sub : s.tb.sub < 1000000) :
    (∀ n c, FiresEarly s s.localMinute n c → (duskFiring s).stamp n = some (s.localMinute / 1440 * 1440 + c)) ∧
    (∀ n, unitOk 128 n = true → (∀ c, ¬FiresEarly s s.localMinute n c) → (duskFiring s).stamp n = s.stamp n) := by
  have fired := duskFiring_fires acts sub
  refine ⟨fun n c early => ?_, fun n unit none => fired.others n unit fun e he same => ?_⟩
  · obtain ⟨f, mem⟩ := (firesEarly_iff sub).mp early
    exact fired.stamped _ mem
  · obtain ⟨k, f, m⟩ := e
    cases same
    obtain ⟨-, -, minute, -⟩ := mem_duskList.mp he
    obtain ⟨o, c, -, -, -, -, -, rfl⟩ := (duskMinute_iff sub).mp minute
    exact none c ((firesEarly_iff sub).mpr ⟨f, he⟩)

theorem freeConverter_chan (s : State) (n : Nat) : (freeConverter s).chan n = s.chan n := by
  unfold freeConverter beginLamp
  dsimp only
  repeat' split
  all_goals rfl

/-- A change into DARK in RUN with the time SET (R166). -/
theorem duskChanged_acts {m : Nat} {s : State} (set : s.tb.set = true) (run : s.line.mode = .run) :
    schedActs (duskTold .dark m s) = true ∧ duskChanged .dark m s = duskFiring (duskTold .dark m s) := by
  have acts : schedActs (duskTold .dark m s) = true := by
    have mode : (duskTold .dark m s).line.mode = s.line.mode := by
      rw [duskTold, notify_line, latched_eq]
    rw [schedActs, mode, run, show (duskTold .dark m s).tb.set = true from set]
    rfl
  have fired : duskFired .dark m s = duskFiring (duskTold .dark m s) := if_pos rfl
  have set' : (duskFiring (duskTold .dark m s)).tb.set = true :=
    (congrArg Timebase.set (duskFiring_quiet (duskTold .dark m s)).tb).trans set
  refine ⟨acts, ?_⟩
  rw [duskChanged_eq, fired]
  exact if_pos set'

/-- A change of the dusk state in SERVICE, or while UNSET, leaves the schedule and the performances (R166). -/
theorem duskChanged_idle {x : DuskState} {m : Nat} {s : State} (h : s.tb.set = false ∨ s.line.mode = .service) :
    (duskChanged x m s).sched = s.sched ∧ (duskChanged x m s).perfs = s.perfs := by
  cases set : s.tb.set with
  | false =>
    rw [duskChanged_unset set, applyFallback, wholeBase_lights]
    exact ⟨rfl, rfl⟩
  | true =>
    rw [duskChanged_set set (.inr (h.resolve_left fun unset => Bool.noConfusion (set.symm.trans unset)))]
    exact ⟨rfl, rfl⟩

/-! ### The catch-up's outcome -/

theorem evaluateMinute_end (strike : Bool) (s : State) {e : Nat} (h : silenceEnd strike s = some e) :
    ∃ x, silenceEnd strike (evaluateMinute s) = some x ∧ e ≤ x := by
  have acts := (evaluateMinute_fires s).acts
  cases strike with
  | true => exact acts.strikeStays e h
  | false => exact acts.tunesStays e h

theorem markEvaluated_end (strike : Bool) (s : State) : silenceEnd strike (markEvaluated s) = silenceEnd strike s := by
  cases strike <;> rfl

theorem catchUp_stamps (s : State) (n : Nat) : (catchUp s).stamp n = (evaluateMinute (caughtUp s)).stamp n := by
  rw [catchUp_eq]
  rfl

theorem catchUp_chan (s : State) (c : Nat) : (catchUp s).chan c = (evaluateMinute (caughtUp s)).chan c := by
  rw [catchUp_eq]
  rfl

/-- An entry's stamp after a catch-up: a raised one, and then that of the present minute where the entry fires (R168). -/
theorem catchUp_stamp {s : State} {n : Nat} {f : EntryFields} (unit : unitOk 128 n = true) (active : s.entry n = .active f)
    (ok : entryTimeOk f.time = true) (today : s.cal.day.dayNo = s.localDay) :
    (∀ m, Caught s f m → ∃ x, (catchUp s).stamp n = some x ∧ m ≤ x) ∧
    (∀ y, s.stamp n = some y → ∃ x, (catchUp s).stamp n = some x ∧ y ≤ x) ∧
    ((catchUp s).stamp n ≠ s.stamp n → ∃ m, Caught s f m ∧ (catchUp s).stamp n = some m) := by
  obtain ⟨lit, -, -, raised, -, -⟩ := caughtUp_spec s
  obtain ⟨isPassed, latest⟩ := latestPassed_spec ok today
  obtain ⟨stamped, others⟩ := evaluateMinute_stamps (caughtUp s)
  have raised := raised n f unit active
  rw [catchUp_stamps]
  generalize caughtUp s = c at *
  have firesIs : Fires c c.cal.day c.localMinute n f ↔
      EntryMatches f s.cal.day s.localMinute ∧ ∀ x, c.stamp n = some x → x < s.localMinute := by
    have entry : c.entry n = s.entry n := (congrArg (State.entry · n) lit.kept :)
    have cal : c.cal = s.cal := (congrArg State.cal lit.kept :)
    have minute : c.localMinute = s.localMinute := (congrArg State.localMinute lit.kept :)
    rw [Fires, entry, cal, minute]
    exact ⟨fun h => h.2.2, fun h => ⟨unit, active, h⟩⟩
  have minute : c.localMinute = s.localMinute := (congrArg State.localMinute lit.kept :)
  have before : ∀ m, Passed s f m → m < s.localMinute := fun m ⟨_, _, _, lt, _⟩ => lt
  have caught : ∀ m, Caught s f m ↔ (EntryMatches f s.cal.day m ∧ m = s.localMinute) ∨ Passed s f m := fun m => Iff.rfl
  by_cases fires : Fires c c.cal.day c.localMinute n f
  · have now := (stamped n f fires).trans (congrArg some minute)
    obtain ⟨fits, early⟩ := firesIs.mp fires
    rw [now]
    refine ⟨fun m h => ⟨_, rfl, ?_⟩, fun y h => ⟨_, rfl, ?_⟩, fun _ => ⟨_, (caught _).mpr (.inl ⟨fits, rfl⟩), rfl⟩⟩
    · rcases (caught m).mp h with ⟨-, rfl⟩ | h
      · exact Nat.le_refl _
      · exact Nat.le_of_lt (before m h)
    · obtain ⟨x, is, le⟩ := raised.stays y h
      exact Nat.le_trans le (Nat.le_of_lt (early x is))
  · have stands : (evaluateMinute c).stamp n = c.stamp n := others n unit fun g h => by
      have same : c.entry n = s.entry n := (congrArg (State.entry · n) lit.kept :)
      cases (h.2.1.symm.trans (same.trans active))
      exact fires h
    rw [stands]
    refine ⟨fun m h => ?_, raised.stays, fun ne => ?_⟩
    · rcases (caught m).mp h with ⟨fits, rfl⟩ | h
      · obtain ⟨x, h⟩ := not_forall.mp fun early => fires (firesIs.mpr ⟨fits, early⟩)
        obtain ⟨is, le⟩ := Classical.not_imp.mp h
        exact ⟨x, is, Nat.le_of_not_lt le⟩
      · obtain ⟨x, is, le⟩ := latest m h
        obtain ⟨y, now, le'⟩ := raised.reaches x is
        exact ⟨y, now, Nat.le_trans le le'⟩
    · obtain ⟨m, late, now⟩ := raised.origin ne
      exact ⟨m, (caught m).mpr (.inr (isPassed m late)), now⟩

/-- A silence end of before, or of a window that is still open, stands after a catch-up or has moved later (R168). -/
theorem catchUp_end {s : State} {strike : Bool} {e : Nat}
    (h : ∃ x, silenceEnd strike ((activeEntries s).foldl (catchSilence (catchDays s)) s) = some x ∧ e ≤ x) :
    ∃ x, silenceEnd strike (catchUp s) = some x ∧ e ≤ x := by
  obtain ⟨-, -, ends, -⟩ := caughtUp_spec s
  obtain ⟨x, is, le⟩ := h
  obtain ⟨y, now, le'⟩ := evaluateMinute_end strike (caughtUp s) ((ends strike).trans is)
  rw [catchUp_eq, markEvaluated_end]
  exact ⟨y, now, Nat.le_trans le le'⟩

/-- What a catch-up leaves (R168), its stamps apart. -/
theorem catchUp_leaves (s : State) :
    (∀ n, unitOk 128 n = true → (∀ f, s.entry n ≠ .active f) → (catchUp s).stamp n = s.stamp n) ∧
    (∀ strike e, silenceEnd strike s = some e → ∃ x, silenceEnd strike (catchUp s) = some x ∧ e ≤ x) ∧
    (∀ strike n f scope k m, unitOk 128 n = true → s.entry n = .active f → f.action = .silence scope k →
      EntryMatches f s.cal.day m → m ≤ s.localMinute → s.stdUs < windowEnd s.cfg.summer m k → InScope strike scope →
      ∃ x, silenceEnd strike (catchUp s) = some x ∧ windowEnd s.cfg.summer m k ≤ x) ∧
    ((∀ n f k, unitOk 128 n = true → s.entry n = .active f → f.action ≠ .scene k) →
      ∀ c, unitOk 16 c = true → ((catchUp s).chan c).base = none) := by
  obtain ⟨lit, -, -, -, others, bases⟩ := caughtUp_spec s
  obtain ⟨-, still⟩ := evaluateMinute_stamps (caughtUp s)
  have fired := evaluateMinute_fires (caughtUp s)
  have entry : ∀ n, (caughtUp s).entry n = s.entry n := fun n => by
    generalize caughtUp s = c at *
    exact (congrArg (State.entry · n) lit.kept :)
  refine ⟨fun n unit no => ?_, fun strike e h => ?_, fun strike n f scope k m unit active action fits passed still within => ?_,
    fun no c unit => ?_⟩
  · rw [catchUp_stamps]
    refine (still n unit fun f h => no f ?_).trans (others n unit no)
    rw [← entry]
    exact h.2.1
  · exact catchUp_end ((Silenced.fold (catchSilence_silenced _) _ _).stays strike e h)
  · refine catchUp_end (catchSilences_open (mem_activeEntries.mpr ⟨unit, active⟩) action ?_ passed still within)
    exact mem_catchMinutes.mpr (.inl fits)
  · rw [catchUp_chan]
    refine (fired.acts.stays c unit fun n f k h action => ?_).trans (bases no c unit)
    exact absurd action (no n f k h.1 ((entry n).symm.trans h.2.1))

end Sys2Proof.Machine

open Sys2Proof Sys2Proof.Machine

/-- Settles O51. -/
theorem duskFiresEarlyAndCatchUp : Obligations.DuskFiresEarlyAndCatchUp := by
  refine ⟨fun d ends code s u due reach conv sub low run dusk => ?_, fun s take service passed set today => ?_⟩
  · have judged := judgeDusk_dark (m := code.toNat) (u := u) ⟨low, run, dusk⟩
    have power := (judgeDusk_kept code.toNat u).2.2.2.2.2
    have dark := (duskChanged_kept .dark code.toNat { u with lights := duskJudged u.cfg.site code.toNat u.lights }).1.dusk
    have next := timed_becomes (body := duskMeasured code) due reach (reached_on due reach) (duskMeasured_judges conv)
      ((freeConverter_power _).trans power)
    rw [judged] at next
    generalize hz : { u with lights := duskJudged u.cfg.site code.toNat u.lights } = z at *
    obtain ⟨freed, left⟩ := freed_becomes (w := duskChanged .dark code.toNat z) (v := duskChanged .dark code.toNat z)
      (l := (duskChanged .dark code.toNat z).line) (c := (duskChanged .dark code.toNat z).lights.conv) rfl rfl
    have sched : (freeConverter (duskChanged .dark code.toNat z)).sched = (duskChanged .dark code.toNat z).sched :=
      (congrArg State.sched (freeConverter_frame _) :)
    refine ⟨_, next, ?_, fun idle => ?_, fun set mode => ?_⟩
    · exact (freeConverter_dusk _).dusk.trans dark
    · subst hz
      obtain ⟨same, perfs⟩ := duskChanged_idle (x := .dark) (m := code.toNat)
        (s := { u with lights := duskJudged u.cfg.site code.toNat u.lights }) idle
      exact ⟨sched.trans same, (congrArg State.perfs (freeConverter_frame _) :).trans perfs⟩
    · obtain ⟨acts, fires⟩ := duskChanged_acts (m := code.toNat) (s := z) (by rw [← hz]; exact set) (by rw [← hz]; exact mode)
      subst hz
      obtain ⟨stamped, others⟩ := duskFiring_stamps acts sub
      have fired := duskFiring_fires acts sub
      rw [← fires] at stamped others fired
      have chans := freeConverter_chan (duskChanged .dark code.toNat
        { u with lights := duskJudged u.cfg.site code.toNat u.lights })
      generalize duskChanged .dark code.toNat { u with lights := duskJudged u.cfg.site code.toNat u.lights } = v at *
      have stampIs : ∀ n, (freeConverter v).stamp n = v.stamp n := fun n => by rw [State.stamp, sched, State.stamp]
      obtain ⟨w, bells, lit, same⟩ := fired.bells
      refine ⟨(congrArg _ sched :).trans fired.lastEval, fun n c early => (stampIs n).trans (stamped n c early),
        fun n unit none => (stampIs n).trans (others n unit none), ?_, w, v, bells, freed, same.trans sched.symm, lit.kept, left⟩
      refine fired.acts.read (s' := u) rfl (fun n => rfl) rfl (congrArg _ sched :) (congrArg _ sched :) fun n => ?_
      exact congrArg Channel.base (chans n)
  · have mode := (arrived_mode .modeRun s).trans service
    have act : modeRunAct (arrived .modeRun s) = (enterMode none { s with line := (arrived .modeRun s).line },
        .ok [.word "RUN"]) := by
      refine (modeRunAct_passed (s := arrived .modeRun s) mode ?_).trans ?_
      · rw [arrived_eq]
        exact passed
      · rw [← arrived_eq]
    obtain ⟨quiet, runs, -, evaluated, -⟩ := enterMode_run { s with line := (arrived .modeRun s).line }
    have next := request_lines take rfl rfl act quiet.power
    have entered : enterMode none { s with line := (arrived .modeRun s).line } =
        catchUp { s with line := { (arrived .modeRun s).line with mode := .run, lastValidation := some none } } := if_pos ⟨rfl, set⟩
    have evaluated := evaluated set
    rw [entered] at next runs evaluated
    obtain ⟨others, stays, opens, bases⟩ := catchUp_leaves
      { s with line := { (arrived .modeRun s).line with mode := .run, lastValidation := some none } }
    have stamps := fun n f unit active ok => catchUp_stamp (n := n) (f := f)
      (s := { s with line := { (arrived .modeRun s).line with mode := .run, lastValidation := some none } }) unit active ok today
    generalize catchUp { s with line := { (arrived .modeRun s).line with mode := .run, lastValidation := some none } } = t at *
    refine ⟨_, next, (pumped_mode _).trans runs, evaluated, others, stamps, fun n f scope k m unit active action fits before =>
      fun still => ⟨?_, ?_⟩, stays true, stays false, bases⟩
    · exact opens true n f scope k m unit active action fits before still
    · exact opens false n f scope k m unit active action fits before still

end

section
/-! What the Schedule Table leaves of the bells and the channels when it makes performances and lays scenes (R161 to R168). -/

namespace Sys2Proof.Machine

/-! ### Channels -/

/-- A channel written by its base or its performance layer keeps its lamp state and what the Measurement Unit has found, and it
takes no override (R175 to R177). -/
structure Relit (x y : Channel) : Prop where
  lamp : y.lamp = x.lamp
  run : y.run = x.run
  code : y.code = x.code
  override : x.override = none → y.override = none

theorem Relit.rfl {x : Channel} : Relit x x := ⟨Eq.refl _, Eq.refl _, Eq.refl _, id⟩

theorem Relit.trans {x y z : Channel} (h : Relit x y) (k : Relit y z) : Relit x z :=
  ⟨k.lamp.trans h.lamp, k.run.trans h.run, k.code.trans h.code, k.override ∘ h.override⟩

theorem resolve_relit (c : Channel) (n now : Nat) : Relit c (c.resolve n now) := by
  unfold Channel.resolve Channel.startFade
  repeat' split
  all_goals exact ⟨Eq.refl _, Eq.refl _, Eq.refl _, id⟩

theorem baseChange_relit (c : Channel) (b : Option Nat) (n now : Nat) : Relit c (c.baseChange b n now) := by
  rw [baseChange_eq]
  refine Relit.trans (y := { c with base := b, override := c.override.filter fun o => decide (o.mode ≠ .next) })
    ⟨Eq.refl _, Eq.refl _, Eq.refl _, fun none => ?_⟩ (resolve_relit _ _ _)
  dsimp only
  rw [none]
  rfl

/-! ### Performances and scenes -/

/-- From `s` to `t` performances may have been admitted and scenes laid: of the bells only the claims have changed, of the lights
only the channels, the contributions and the measurement in progress, which no longer changes once it is spoiled. -/
structure Sounded (s t : State) : Prop where
  bells : ∀ b, unitOk 24 b = true → t.bell b = { s.bell b with claims := (t.bell b).claims }
  lights : t.lights = { s.lights with chans := t.lights.chans, contribs := t.lights.contribs, conv := t.lights.conv }
  conv : (∀ m, s.lights.conv = some m → m.spoiled = true) → t.lights.conv = s.lights.conv
  chans : ∀ n, unitOk 16 n = true → Relit (s.chan n) (t.chan n)

theorem Sounded.of_same {s t : State} (bells : t.bells = s.bells) (lights : t.lights = s.lights) : Sounded s t := by
  refine ⟨fun b _ => ?_, by rw [lights], fun _ => by rw [lights], fun n _ => ?_⟩
  · rw [State.bell, bells]
    rfl
  · rw [chan_of_lights lights]
    exact .rfl

theorem Sounded.rfl {s : State} : Sounded s s := .of_same (Eq.refl _) (Eq.refl _)

theorem Sounded.trans {s t u : State} (h : Sounded s t) (k : Sounded t u) : Sounded s u := by
  refine ⟨fun b unit => ?_, ?_, fun spoiled => ?_, fun n unit => (h.chans n unit).trans (k.chans n unit)⟩
  · exact (k.bells b unit).trans (congrArg (fun x : Bell => { x with claims := (u.bell b).claims }) (h.bells b unit) :)
  · exact k.lights.trans (congrArg (fun x : Lights => { x with
      chans := u.lights.chans, contribs := u.lights.contribs, conv := u.lights.conv }) h.lights :)
  · have first := h.conv spoiled
    exact (k.conv (by rw [first]; exact spoiled)).trans first

theorem Sounded.fold {α : Type} {f : State → α → State} (h : ∀ s a, Sounded s (f s a)) (l : List α) (s : State) :
    Sounded s (l.foldl f s) := by
  induction l generalizing s with
  | nil => exact .rfl
  | cons a l ih => exact (h s a).trans (ih _)

/-- A spoiled measurement is not changed by a channel's write (R182). -/
theorem onChans_conv (f : Nat → Channel → Channel) (ns : List Nat) {s : State}
    (h : ∀ m, s.lights.conv = some m → m.spoiled = true) : (onChans f ns s).lights.conv = s.lights.conv := by
  induction ns generalizing s with
  | nil => rfl
  | cons n ns ih =>
    have one : (setChan n (f n (s.chan n)) s).lights.conv = s.lights.conv := by
      unfold setChan
      dsimp only
      cases e : s.lights.conv with
      | none => rfl
      | some m =>
        rw [Option.map_some]
        split
        · exact congrArg some (by rw [← h m e])
        · rfl
    exact (ih (s := setChan n (f n (s.chan n)) s) (by rw [one]; exact h)).trans one

theorem onChans_sounded {f : Nat → Channel → Channel} (h : ∀ n c, Relit c (f n c)) (s : State) :
    Sounded s (onChans f allChans s) := by
  have frame := onChans_lights f allChans s
  have conv := onChans_conv f allChans (s := s)
  have chans : ∀ n, unitOk 16 n = true → Relit (s.chan n) ((onChans f allChans s).chan n) := fun n unit => by
    rw [chan_onChans allChans_nodup unit, if_pos (mem_allChans unit)]
    exact h _ _
  generalize onChans f allChans s = t at *
  have contribs : t.lights.contribs = s.lights.contribs := (congrArg (fun x : State => x.lights.contribs) frame :)
  refine ⟨fun b _ => ?_, ?_, conv, chans⟩
  · rw [State.bell, (congrArg State.bells frame :)]
    rfl
  · rw [contribs]
    exact (congrArg State.lights frame :)

theorem partialBase_sounded (sc : Scene) (s : State) : Sounded s (partialBase sc s) :=
  onChans_sounded (fun _ c => by
    split
    · exact baseChange_relit _ _ _ _
    · exact .rfl) s

theorem wholeBase_sounded (v : Vector (Option (Nat × Nat)) 16) (s : State) : Sounded s (wholeBase v s) :=
  onChans_sounded (fun _ c => by
    split
    · exact baseChange_relit _ _ _ _
    · exact baseChange_relit _ _ _ _) s

theorem setContribs_sounded (l : List Contribution) (fade : Nat) (s : State) : Sounded s (setContribs l fade s) := by
  have listed : Sounded s { s with lights := { s.lights with contribs := l } } :=
    ⟨fun _ _ => rfl, rfl, fun _ => rfl, fun _ _ => .rfl⟩
  refine listed.trans (onChans_sounded (fun n c => ?_) { s with lights := { s.lights with contribs := l } })
  split
  · exact .rfl
  · exact Relit.trans (y := { c with perf := contributed l n }) ⟨Eq.refl _, Eq.refl _, Eq.refl _, id⟩ (resolve_relit _ _ _)

theorem joinScene_sounded (id level order : Nat) (k : Option Nat) (s : State) : Sounded s (joinScene id level order k s) := by
  cases k with
  | none => exact .rfl
  | some k => exact setContribs_sounded _ _ s

theorem admitPerf_sounded (p : Perf) (s : State) : Sounded s (admitPerf p s) := by
  have scene := joinScene_sounded p.id p.level s.nextOrder p.scene s
  have lights := admitPerf_lights p s
  have bells := fun b => admitPerf_bell (p := p) (s := s) (b := b)
  generalize admitPerf p s = t at *
  refine ⟨fun b unit => ?_, lights ▸ scene.lights, lights ▸ scene.conv, fun n unit => ?_⟩
  · rw [bells b unit]
  · rw [chan_of_lights lights]
    exact scene.chans n unit

theorem createPerf_sounded (p : Perf) (s : State) : Sounded s (createPerf p s).1 := by
  simp only [createPerf]
  repeat' split
  · exact .rfl
  · exact (Sounded.of_same (s := s) (t := tableGrown p s) rfl rfl).trans
      (admitPerf_sounded (createdRecord p s) (tableGrown p s))
  · exact .of_same rfl rfl
  · exact .of_same rfl rfl

theorem entryNotice_sounded (n : Nat) (d : List Field) (s : State) : Sounded s (entryNotice n d s) := .of_same rfl rfl

theorem fireCreation_sounded (n : Nat) (p : Perf) (s : State) : Sounded s (fireCreation n p s) := by
  have created := createPerf_sounded p s
  unfold fireCreation
  split
  all_goals
    next e =>
      rw [e] at created
      exact created.trans (.of_same rfl rfl)

theorem fireAction_sounded (t : Nat) (s : State) (e : Nat × EntryFields) : Sounded s (fireAction t s e) := by
  unfold fireAction
  dsimp only
  split
  · exact .of_same rfl rfl
  · exact (partialBase_sounded _ _).trans (entryNotice_sounded _ _ _)
  · repeat' split
    · exact entryNotice_sounded _ _ _
    · exact entryNotice_sounded _ _ _
    · exact fireCreation_sounded _ _ _
  · split
    · exact entryNotice_sounded _ _ _
    · exact fireCreation_sounded _ _ _
  · repeat' split
    · exact entryNotice_sounded _ _ _
    · exact entryNotice_sounded _ _ _
    · exact fireCreation_sounded _ _ _

theorem evaluateMinute_sounded (s : State) : Sounded s (evaluateMinute s) :=
  (Sounded.fold (f := fun u e => setStamp e.1 e.2.2 u) (fun _ _ => .of_same rfl rfl) (minuteList s) s).trans
    (.fold (fireAction_sounded _) _ _)

theorem replayBase_sounded (s : State) : Sounded s (replayBase s) := wholeBase_sounded _ s

theorem caughtUp_sounded (s : State) : Sounded s (caughtUp s) := by
  unfold caughtUp
  have silenced := Silenced.fold (catchSilence_silenced (catchDays s)) (activeEntries s) s
  have first : Sounded s ((activeEntries s).foldl (catchSilence (catchDays s)) s) :=
    .of_same (congrArg State.bells silenced.kept :) (congrArg State.lights silenced.kept :)
  refine (first.trans (replayBase_sounded _)).trans ?_
  generalize replayBase _ = b
  have skips := catchSkips_line (catchDays s) (activeEntries s) b
  have second : Sounded b ((activeEntries s).foldl (catchSkip (catchDays s)) b) :=
    .of_same (congrArg State.bells skips :) (congrArg State.lights skips :)
  refine second.trans (.fold (fun t e => ?_) _ _)
  have kept := catchStamp_kept (catchDays s) t e
  exact .of_same (congrArg State.bells kept :) (congrArg State.lights kept :)

theorem markEvaluated_sounded (s : State) : Sounded s (markEvaluated s) := .of_same rfl rfl

/-- A catch-up leaves the bells but for their claims, and the channels as a scene leaves them (R168). -/
theorem catchUp_sounded (s : State) : Sounded s (catchUp s) := by
  rw [catchUp_eq]
  exact ((caughtUp_sounded s).trans (evaluateMinute_sounded _)).trans (markEvaluated_sounded _)

theorem markEvaluated_panel (s : State) : (markEvaluated s).sched.panelSilence = s.sched.panelSilence := rfl

/-- A catch-up leaves the panel silence (R163, R168). -/
theorem catchUp_panel (s : State) : (catchUp s).sched.panelSilence = s.sched.panelSilence := by
  have fired := (evaluateMinute_fires (caughtUp s)).panel
  obtain ⟨-, sched, -⟩ := caughtUp_spec s
  rw [catchUp_eq, markEvaluated_panel, fired]
  generalize caughtUp s = c at *
  exact (congrArg Schedule.panelSilence sched :)

end Sys2Proof.Machine
end

section
/-! RESTART: the columns with the loaded configuration, the fallback, the builds, the flag, the frontier loop, and the validation
(R20, R52, R77, R102, R120, R137, R171, R188, R200, R203). -/

namespace Sys2Proof.Machine

/-! ### The steps of the restart event -/

/-- The state with every block's RESTART column (R200). -/
def restartColumns (im : Image) (s : State) : State :=
  let cfg := keepSteps s.dials (fun n => (rd s.cfg.dials n defaultDial).step) im.settings
  { s with
    perfs := []
    lastId := 0
    nextOrder := 1
    voices := Vector.replicate 4 freeVoice
    clock := { slotsReturned (clocksIn s.perfs .admitted) s.clock with
      frontier := minOr s.clock.frontier
        ((clocksIn s.perfs .admitted).map fun x => quarterNumber s.clock.today.date (x.2.date, x.2.slot)) }
    cfg := cfg
    dials := tableOf 4 fun n => restartDial (rd s.cfg.dials n defaultDial) (rd cfg.dials n defaultDial) (s.dial n)
    bells := s.bells.map restartBell
    drives := s.drives.map (restartDrive s.now)
    lights := restartLights s.now s.lights
    line := restartLine s.line }

/-- Then the fallback, where the time is UNSET (R186). -/
def restartLit (im : Image) (s : State) : State :=
  if (restartColumns im s).tb.set then restartColumns im s else applyFallback (restartColumns im s)

/-- The state in which a RESTART's frontier loop begins, the flag's change announced (R8, R120). -/
def restartTold (im : Image) (s : State) : State := afterRule s.tb.flag s.offset (startBuilds true (restartLit im s))

theorem restartClock_eq (s : State) : restartClock s = { s with clock :=
    { slotsReturned (clocksIn s.perfs .admitted) s.clock with
      frontier := minOr s.clock.frontier
        ((clocksIn s.perfs .admitted).map fun x => quarterNumber s.clock.today.date (x.2.date, x.2.slot)) } } := by
  have sheets := slotsReturned_sheets (clocksIn s.perfs .admitted) s.clock
  unfold restartClock
  dsimp only
  rw [← (clocksIn_admitted s.perfs).2, pendQuarters_clock, List.map_map, setFrontier]
  dsimp only
  rw [sheets.frontier, sheets.date]
  rfl

theorem restartEvent_eq (im : Image) (s : State) : restartEvent im s = finishRestart (frontierLoop (restartTold im s)) := by
  unfold restartTold restartLit restartColumns
  rw [restartEvent, restartClock_eq]
  rfl

theorem applyFallback_lights (s : State) : applyFallback s = { s with lights := (applyFallback s).lights } := by
  rw [applyFallback, wholeBase_lights]

theorem restartLit_eq (im : Image) (s : State) :
    restartLit im s = { restartColumns im s with lights := (restartLit im s).lights } := by
  unfold restartLit
  split
  · rfl
  · exact applyFallback_lights _

theorem restartLit_sounded (im : Image) (s : State) : Sounded (restartColumns im s) (restartLit im s) := by
  unfold restartLit
  split
  · exact .rfl
  · exact wholeBase_sounded _ _

/-- With an empty table, a local change in SERVICE touches the clock and the latch alone (R111, R117, R167). -/
theorem localChange_calm {old : Bool} {o : Nat} {s : State} (mode : s.line.mode = .service) (none : s.perfs = []) :
    ∃ c l, localChange old o s = { s with clock := c, line := { s.line with latch := l } } ∧
      (s.tb.flag = old → c = s.clock) := by
  unfold localChange
  split
  · exact ⟨s.clock, s.line.latch, rfl, fun _ => rfl⟩
  · next moved =>
    dsimp only
    generalize e : notify .time [Field.word "LOCAL", Field.num ((s.offset : Int) / 60 - (o : Int) / 60)] s = z
    have told : z = { s with line := { s.line with latch := z.line.latch } } := by
      subst e
      exact congrArg (fun l : Line => { s with line := l }) (latched_eq s.line .time _)
    have modeZ : z.line.mode = .service := by rw [told]; exact mode
    have large : clockLarge s.tb.flag z = frontierLoop (farMoved s.tb.flag [] z) := by
      have empty := cancelQuarters_none (s := z) fun p x hp => by
        rw [told, none] at hp
        exact absurd hp List.not_mem_nil
      rw [clockLarge_eq, empty]
    obtain ⟨c, loop, -⟩ := frontierLoop_service (s := farMoved s.tb.flag [] z) modeZ
    have still : announceLocal s.tb.flag z = { z with clock := c } := by
      have off : schedActs (frontierLoop (farMoved s.tb.flag [] z)) = false := schedActs_service (by rw [loop]; exact modeZ)
      rw [announceLocal, large, schedLarge, off, loop]
      rfl
    rw [still]
    exact ⟨c, z.line.latch, told ▸ rfl, fun flag => absurd flag moved⟩

/-- The state from which a RESTART's validation starts (R20, R52, R77, R102, R137, R171, R188, R203): where the flag stays as it
was, the frontier loop begins on the sheets as their slots have returned (R120). -/
theorem restart_loaded (im : Image) (s : State) : ∃ c c' st cal l, restartTold im s = { restartColumns im s with
      tb := { s.tb with flag := inForce im.settings.summer s.tb.secs }
      cal := cal, clock := c, store := st, lights := (restartLit im s).lights
      line := { restartLine s.line with latch := l } } ∧
    frontierLoop (restartTold im s) = { restartTold im s with clock := c' } ∧
    (inForce im.settings.summer s.tb.secs = s.tb.flag → c = { (restartColumns im s).clock with profiles := c.profiles }) := by
  have lit := restartLit_eq im s
  have builds := (startBuilds_made true (restartLit im s)).state
  unfold restartTold afterRule
  generalize restartLit im s = f at *
  generalize startBuilds true f = b at *
  have columns : b = { restartColumns im s with
      lights := f.lights, clock := { f.clock with profiles := b.clock.profiles }, store := b.store } :=
    builds.trans (congrArg (fun x : State => { x with
      clock := { f.clock with profiles := b.clock.profiles }, store := b.store }) lit :)
  have recalced : recalc b = { b with
      tb := { s.tb with flag := inForce im.settings.summer s.tb.secs }, cal := (recalc b).cal } := by
    conv_lhs => rw [recalc]
    dsimp only
    have tb : b.tb = s.tb := (congrArg State.tb columns :)
    have summer : b.cfg.summer = im.settings.summer := (congrArg (fun x : State => x.cfg.summer) columns :)
    rw [tb, summer]
    simp only [recalc, tb, summer]
  have line : (recalc b).line = restartLine s.line := (congrArg State.line recalced :).trans (congrArg State.line columns :)
  obtain ⟨c, l, told, stands⟩ := localChange_calm (old := s.tb.flag) (o := s.offset) (s := recalc b) (by rw [line]; rfl)
    ((congrArg State.perfs recalced :).trans (congrArg State.perfs columns :))
  obtain ⟨c', loop, -⟩ := frontierLoop_service (s := localChange s.tb.flag s.offset (recalc b)) (by rw [told, line]; rfl)
  generalize recalc b = r at *
  refine ⟨c, c', b.store, r.cal, l, told.trans ?_, loop, fun flag => ?_⟩
  swap
  · have clock := (stands ((congrArg (fun x : State => x.tb.flag) recalced :).trans flag)).trans
      (((congrArg State.clock recalced :).trans (congrArg State.clock columns :)).trans
        (congrArg (fun x : State => { x.clock with profiles := b.clock.profiles }) lit :))
    rw [clock]
  rw [line]
  exact (congrArg (fun x : State => { x with clock := c, line := { restartLine s.line with latch := l } }) recalced :).trans
    (congrArg (fun x : State => { x with
      tb := { s.tb with flag := inForce im.settings.summer s.tb.secs }, cal := r.cal
      clock := c, line := { restartLine s.line with latch := l } }) columns :)

/-! ### The end of a RESTART -/

/-- From `e` to `u` a RESTART has ended: the validation has set the mode, and in RUN with the time SET the catch-up is made
(R168, R200). -/
structure RestartEnded (e u : State) : Prop where
  kept : Scheduled e u
  sounded : Sounded e u
  mask : u.line.mask = e.line.mask
  lastStart : u.line.lastStart = e.line.lastStart
  panel : u.sched.panelSilence = e.sched.panelSilence
  still : u.line.mode = .service ∨ e.tb.set = false → u = { e with line := u.line }
  runs : u.line.mode = .run → e.tb.set = true → u.sched.lastEval = some u.localMinute

theorem RestartEnded.of_line {e u : State} (h : u = { e with line := u.line }) (mask : u.line.mask = e.line.mask)
    (lastStart : u.line.lastStart = e.line.lastStart) (mode : u.line.mode = .service ∨ e.tb.set = false) : RestartEnded e u where
  kept := ⟨by rw [h]⟩
  sounded := .of_same (congrArg State.bells h :) (congrArg State.lights h :)
  mask := mask
  lastStart := lastStart
  panel := (congrArg (fun x : State => x.sched.panelSilence) h :)
  still _ := h
  runs run set := by
    rcases mode with service | unset
    · exact absurd (service.symm.trans run) nofun
    · exact absurd (unset.symm.trans set) nofun

theorem RestartEnded.lines {e u : State} (h : RestartEnded e u) {l : Line} (mask : l.mask = u.line.mask)
    (lastStart : l.lastStart = u.line.lastStart) (mode : l.mode = u.line.mode) : RestartEnded e { u with line := l } where
  kept := h.kept.trans ⟨rfl⟩
  sounded := h.sounded.trans (.of_same rfl rfl)
  mask := mask.trans h.mask
  lastStart := lastStart.trans h.lastStart
  panel := h.panel
  still k := (congrArg (fun x : State => { x with line := l }) (h.still (k.imp mode.symm.trans id)) :)
  runs run set := h.runs (mode.symm.trans run) set

theorem catchUp_lastEval (s : State) : (catchUp s).sched.lastEval = some (catchUp s).localMinute := by
  rw [catchUp_eq]
  rfl

/-- The validation's outcome in a RESTART (R198, R200). -/
theorem finishRestart_ends {e : State} (mode : e.line.mode = .service) : RestartEnded e (finishRestart e) := by
  unfold finishRestart
  split
  · exact .of_line rfl rfl rfl (.inl mode)
  · dsimp only
    have entered : RestartEnded e (enterMode (validation e) e) := by
      cases v : validation e with
      | some d =>
        have failed : enterMode (some d) e = { e with line := { e.line with mode := .service, lastValidation := some (some d) } } :=
          by
            unfold enterMode
            exact if_neg fun k => Bool.noConfusion k.1
        rw [failed]
        exact .of_line rfl rfl rfl (.inl rfl)
      | none =>
        obtain ⟨quiet, run, -, -, still⟩ := enterMode_run e
        cases set : e.tb.set with
        | false =>
          rw [still set]
          exact .of_line rfl rfl rfl (.inr set)
        | true =>
          have caught : enterMode none e = catchUp { e with line := { e.line with mode := .run, lastValidation := some none } } :=
            if_pos ⟨rfl, set⟩
          rw [caught] at quiet run ⊢
          have kept := catchUp_scheduled { e with line := { e.line with mode := .run, lastValidation := some none } }
          have sounded := catchUp_sounded { e with line := { e.line with mode := .run, lastValidation := some none } }
          have panel := catchUp_panel { e with line := { e.line with mode := .run, lastValidation := some none } }
          have last := catchUp_lastEval { e with line := { e.line with mode := .run, lastValidation := some none } }
          generalize catchUp _ = u at *
          exact {
            kept := Scheduled.trans (t := { e with line := { e.line with mode := .run, lastValidation := some none } }) ⟨rfl⟩ kept
            sounded := Sounded.trans (t := { e with line := { e.line with mode := .run, lastValidation := some none } })
              (.of_same rfl rfl) sounded
            mask := (congrArg Line.mask quiet.line :)
            lastStart := (congrArg Line.lastStart quiet.line :)
            panel := panel
            still := fun k => by
              rcases k with service | unset
              · exact absurd (service.symm.trans run) nofun
              · exact absurd (unset.symm.trans set) nofun
            runs := fun _ _ => last }
    exact entered.lines rfl rfl rfl

end Sys2Proof.Machine
end

section
/-! The restart event's outcome, block by block. -/

namespace Sys2Proof.Machine

/-! ### The columns -/

theorem restartDial_kept (old new : DialCfg) (x : Dial) : (restartDial old new x).pos = x.pos ∧
    (restartDial old new x).slips = x.slips := by
  unfold restartDial noonFieldChanged
  repeat' split
  all_goals exact ⟨rfl, rfl⟩

/-- A drive's RESTART column (R137). -/
theorem restartDrive_eq (now : Nat) (y : Drive) :
    let x := { y with perf := none, lowerAt := none, swings := 0, motor := none }
    (y.state = .raising ∨ y.state = .ringing →
      restartDrive now y = { x with state := .lowering, entry := now, run := 0, brake := false }) ∧
    (y.state ≠ .raising → y.state ≠ .ringing → restartDrive now y = x) := by
  intro x
  have branches : restartDrive now y = match y.state with
      | .raising | .ringing => { x with state := .lowering, entry := now, run := 0, brake := false }
      | .down | .settling | .fault | .lowering => x := rfl
  rw [branches]
  cases y.state with
  | raising => exact ⟨fun _ => rfl, fun h _ => absurd rfl h⟩
  | ringing => exact ⟨fun _ => rfl, fun _ h => absurd rfl h⟩
  | down | settling | fault | lowering => exact ⟨fun h => (by rcases h with h | h <;> cases h), fun _ _ => rfl⟩

theorem restartChan (im : Image) (s : State) {n : Nat} (unit : unitOk 16 n = true) :
    (restartColumns im s).chan n = restartChannel s.now (s.chan n) := rd_map unit

/-- A laid scene rests on the lights and the time alone. -/
theorem SceneLaid.read {s s' t t' : State} {sc : Scene} (h : SceneLaid s t sc) (lights : s'.lights = s.lights) (tb : s'.tb = s.tb)
    (after : t'.lights = t.lights) : SceneLaid s' t' sc := by
  have now : s'.now = s.now := by rw [State.now, tb]; rfl
  refine ⟨fun n unit => ?_, h.conv.congr (fun _ _ => Iff.rfl) ?_ ?_ ?_ ?_⟩
  · rw [chan_of_lights lights, chan_of_lights after, now]
    exact h.chans n unit
  · rw [lights]
  · rw [after]
  · rw [lights]
  · rw [after]

/-- RESTART, taken with an image to load (R200). -/
theorem restart_taken {s : State} (take : canTake .restart s = true) (image : currentImage s.store ≠ none) :
    ∃ u, exec .restart s = .next u ∧ u.line.restart = .loading ∧ u.line.mode = s.line.mode ∧
      u = { s with store := u.store, line := u.line } := by
  have run : exec .restart s = done (restartTaken (arrived .restart s)) :=
    if_pos (by rw [take, Option.isSome_iff_ne_none.mpr image]; rfl)
  obtain ⟨-, frame, -⟩ := startImageLoad_begins { arrived .restart s with
    line := { (arrived .restart s).line with slots := takeOldest .busy (arrived .restart s).line.slots, restart := .loading } }
  have here : restartTaken (arrived .restart s) = { s with
      store := (restartTaken (arrived .restart s)).store
      line := { (arrived .restart s).line with
        slots := takeOldest .busy (arrived .restart s).line.slots, restart := .loading } } :=
    frame.trans (congrArg (fun x : State => { x with
      store := (restartTaken (arrived .restart s)).store
      line := { (arrived .restart s).line with
        slots := takeOldest .busy (arrived .restart s).line.slots, restart := .loading } }) (arrived_eq .restart s) :)
  have mode := arrived_mode .restart s
  generalize restartTaken (arrived .restart s) = t at *
  refine ⟨pump t, run, ?_, ?_, (pump_eq t).trans ?_⟩
  · rw [pump_line]
    split
    · rw [pumped_restart, here]
    · rw [here]
  · rw [pump_line]
    split
    · rw [pumped_mode, here]
      exact mode
    · rw [here]
      exact mode
  · have store : (pump t).store = t.store := (congrArg State.store (pump_eq t) :)
    rw [store]
    exact (congrArg (fun x : State => { x with line := (pump t).line }) here :)

/-- The restart event, from its columns to its end (R200). -/
theorem restartEvent_ends {s : State} {im : Image} (h : s.line.restart = .loaded im) :
    ∃ e u, exec .restartEvent s = .next u ∧ RestartEnded e u ∧ Sounded (restartColumns im s) u ∧
      e.lights = (restartLit im s).lights ∧ e.sched = s.sched ∧ e.clock = (frontierLoop (restartTold im s)).clock ∧
      e = { restartColumns im s with
        tb := { s.tb with flag := e.tb.flag }
        cal := e.cal, clock := e.clock, store := e.store, lights := e.lights
        line := { restartLine s.line with latch := e.line.latch } } := by
  obtain ⟨c, c', st, cal, l, told, loop, -⟩ := restart_loaded im s
  have run : exec .restartEvent s = done (finishRestart (frontierLoop (restartTold im s))) := by
    have branch : exec .restartEvent s = execRestartEvent s := rfl
    rw [branch, execRestartEvent, h, ← restartEvent_eq]
  have lit := restartLit_sounded im s
  have bellsLit : (restartLit im s).bells = (restartColumns im s).bells := (congrArg State.bells (restartLit_eq im s) :)
  have made : frontierLoop (restartTold im s) = { restartColumns im s with
      tb := { s.tb with flag := inForce im.settings.summer s.tb.secs }
      cal := cal, clock := c', store := st, lights := (restartLit im s).lights
      line := { restartLine s.line with latch := l } } :=
    loop.trans (congrArg (fun x : State => { x with clock := c' }) told :)
  generalize restartLit im s = f at *
  generalize frontierLoop (restartTold im s) = e at *
  have ended := finishRestart_ends (e := e) (by rw [made]; rfl)
  have onward : Sounded (restartColumns im s) e :=
    lit.trans (.of_same ((congrArg State.bells made :).trans bellsLit.symm) (congrArg State.lights made :))
  refine ⟨e, pump (finishRestart e), run, ?_, ?_, (congrArg State.lights made :), (congrArg State.sched made :), rfl, ?_⟩
  · have turn := pump_line (finishRestart e)
    rw [pump_eq]
    refine ended.lines ?_ ?_ ?_
    all_goals
      rw [turn]
      split
    · exact pumped_mask _
    · rfl
    · exact pumped_lastStart _
    · rfl
    · exact pumped_mode _
    · rfl
  · have same : Sounded (finishRestart e) (pump (finishRestart e)) :=
      .of_same (congrArg State.bells (pump_eq _) :) (congrArg State.lights (pump_eq _) :)
    exact (onward.trans ended.sounded).trans same
  · rw [(congrArg (fun x : State => x.tb.flag) made :), (congrArg State.cal made :), (congrArg State.clock made :),
      (congrArg State.store made :), (congrArg State.lights made :), (congrArg (fun x : State => x.line.latch) made :)]
    exact made

end Sys2Proof.Machine

open Sys2Proof Sys2Proof.Machine

/-- Settles O58. -/
theorem restartReloadsTheImage : Obligations.RestartReloadsTheImage := by
  refine ⟨fun s take => ⟨fun none => ?_, restart_taken take⟩, fun s im loaded => ?_⟩
  · refine request_only (act := refuse .none) take rfl (if_neg ?_) fun l _ => rfl
    rw [none]
    exact fun h => Bool.noConfusion ((Bool.and_false _).symm.trans h)
  · obtain ⟨e, u, run, ended, sounded, lights, sched, clock, made⟩ := restartEvent_ends loaded
    obtain ⟨c, c', st, cal, l, told, loop, stands⟩ := restart_loaded im s
    have kept := ended.kept.kept
    have cfg : u.cfg = (restartColumns im s).cfg := (congrArg State.cfg kept :).trans (congrArg State.cfg made :)
    have dials : u.dials = (restartColumns im s).dials := (congrArg State.dials kept :).trans (congrArg State.dials made :)
    have drives : u.drives = (restartColumns im s).drives := (congrArg State.drives kept :).trans (congrArg State.drives made :)
    have tb : u.tb = { s.tb with flag := e.tb.flag } := (congrArg State.tb kept :).trans (congrArg State.tb made :)
    have set : e.tb.set = s.tb.set := (congrArg (fun x : State => x.tb.set) made :)
    have dialCfg : ∀ n, unitOk 4 n = true → u.dialCfg n =
        if (s.dial n).pos.isSome then { rd im.settings.dials n defaultDial with step := (s.dialCfg n).step }
        else rd im.settings.dials n defaultDial := fun n unit => by
      rw [State.dialCfg, cfg]
      exact keepSteps_dial unit
    have stood : u.line.mode = .service ∨ s.tb.set = false → u = { e with line := u.line } := fun still =>
      ended.still (still.imp id set.trans)
    have spoiled : ∀ m, (restartColumns im s).lights.conv = some m → m.spoiled = true := fun m is => by
      obtain ⟨x, -, rfl⟩ := Option.map_eq_some_iff.mp is
      rfl
    have drive : ∀ n, unitOk 4 n = true → u.drive n = restartDrive s.now (s.drive n) := fun n unit => by
      rw [State.drive, drives]
      exact rd_map unit
    have bell : ∀ b, unitOk 24 b = true → (restartColumns im s).bell b = restartBell (s.bell b) := fun b unit => rd_map unit
    refine ⟨u, run, ?_, dialCfg, fun n unit => ?_, ?_, ?_, ?_, ?_, fun still => ?_, fun b unit => ⟨?_, fun still => ?_⟩,
      fun n unit => ?_, ?_, fun n unit => ?_, fun set' service => ?_, fun unset => ?_, ?_, fun still => ?_, fun mode set' => ?_,
      fun flag => ?_⟩
    · rw [cfg]
      rfl
    · have dial : u.dial n = restartDial (rd s.cfg.dials n defaultDial) (rd (restartColumns im s).cfg.dials n defaultDial)
          (s.dial n) := by
        rw [State.dial, dials]
        exact rd_tableOf unit
      rw [dial]
      exact restartDial_kept _ _ _
    · rw [tb]
    · exact (congrArg State.ref kept :).trans (congrArg State.ref made :)
    · exact ended.lastStart.trans (congrArg (fun x : State => x.line.lastStart) made :)
    · exact ended.mask.trans (congrArg (fun x : State => x.line.mask) made :)
    · have stands := stood still
      refine ⟨(congrArg State.perfs stands :).trans (congrArg State.perfs made :),
        (congrArg State.lastId stands :).trans (congrArg State.lastId made :),
        (congrArg State.nextOrder stands :).trans (congrArg State.nextOrder made :), fun v unit => ?_⟩
      rw [State.voice, (congrArg State.voices stands :).trans (congrArg State.voices made :)]
      exact rd_replicate unit
    · refine (sounded.bells b unit).trans ?_
      rw [bell b unit]
      rfl
    · have same : u.bell b = (restartColumns im s).bell b := by
        rw [State.bell, (congrArg State.bells (stood still) :).trans (congrArg State.bells made :)]
        rfl
      rw [same, bell b unit]
      rfl
    · rw [drive n unit]
      exact restartDrive_eq s.now (s.drive n)
    · refine sounded.lights.trans ?_
      rw [sounded.conv spoiled]
      rfl
    · have relit := sounded.chans n unit
      have column := restartChan im s unit
      exact ⟨relit.override (by rw [column]; rfl), relit.lamp, relit.run.trans (by rw [column]; rfl),
        relit.code.trans (by rw [column]; rfl)⟩
    · have lit : restartLit im s = restartColumns im s := if_pos set'
      refine (congrArg State.lights (stood (.inl service)) :).trans (lights.trans ?_)
      rw [lit]
      rfl
    · have lit : restartLit im s = applyFallback (restartColumns im s) :=
        if_neg fun h => Bool.noConfusion (unset.symm.trans h)
      have here : u.lights = (applyFallback (restartColumns im s)).lights := by
        rw [← lit]
        exact (congrArg State.lights (stood (.inr unset)) :).trans lights
      refine ⟨?_, ?_⟩
      · rw [here, applyFallback, wholeBase_lights]
        rfl
      · have laid := sceneBase_laid (if s.lights.dusk = .dark then (restartColumns im s).scene im.settings.site.fallback
          else darkScene) (restartColumns im s)
        have scene : u.scene im.settings.site.fallback = (restartColumns im s).scene im.settings.site.fallback := by
          rw [State.scene, cfg]
          rfl
        rw [scene]
        exact laid.read rfl rfl here
    · exact ended.panel.trans (congrArg Schedule.panelSilence sched)
    · exact (congrArg State.sched (stood still) :).trans sched
    · exact ended.runs mode (set.trans set')
    · have sheets := stands flag
      have clockIs : (restartTold im s).clock = c := (congrArg State.clock told :)
      refine ⟨restartTold im s, (congrArg State.perfs told :), (congrArg State.cfg told :).trans cfg.symm,
        (congrArg State.tb told :).trans (by rw [flag]), (congrArg (fun x : State => x.line.mode) told :),
        (congrArg State.power told :), ?_, ?_, ended.kept.clock.trans clock⟩
      · rw [clockIs]
        refine sheets.trans ?_
        rw [(congrArg ClockUnit.frontier sheets :)]
        rfl
      · rw [clockIs, (congrArg ClockUnit.frontier sheets :)]
        exact minOr_goesBack _ _ _

end
